-- ==== Sys2Proof/Word.lean ====
section
/-! DEFINITION. The word types of the Stouz Transfer Engine and the form of its sparse tables. -/

namespace Sys2Proof

abbrev W8 := BitVec 8
abbrev W16 := BitVec 16
abbrev W32 := BitVec 32
abbrev W64 := BitVec 64
/-- A 16-byte block (R154) or a 16-byte element. -/
abbrev W128 := BitVec 128
/-- A global address: G in bit 44, the node in bits 43 to 32, the local address below (00_scope, Notation). -/
abbrev GAddr := BitVec 45

/-- A sparse table: key and value pairs in canonical form, keys strictly rising, no value equal to what an
unlisted key reads as.  Every store and register file of the engine is held in this form. -/
abbrev Tbl (α : Type) := List (Nat × α)

end Sys2Proof
end

