-- ==== Sys2Proof/Config.lean ====
section
/-! DEFINITION. The free values: constants with no body, for what the spec leaves open.
Each is named in a log entry of notes/assumptions. -/

namespace Sys2Proof.Config

/-- What the context view shows in words the spec does not define for software: the wait descriptor at 0x20
and the engine working state at 0xE8 (R41; log entry 10).  Arguments: channel, offset, free counter. -/
opaque ctxUndefined : Nat → Nat → Nat → BitVec 64

/-- A word of a Grid bank after a self-test of that bank (R423: contents undefined; log entry 16).
Arguments: word number over all banks, free counter. -/
opaque gridUndefined : Nat → Nat → BitVec 64

/-- W2 of a scrubber's error record for a word that lies in no table-window region and belongs to no element (R418:
the leg cache and the holding buffers; log entry 26).  Arguments: store, codeword. -/
opaque scrubWord : Nat → Nat → BitVec 64

/-- The data of an item whose half-group could not be read back (R286: it enters the head poisoned; log entry 28).
Arguments: queue, page, slot of the page and item. -/
opaque lostItem : Nat → Nat → Nat → BitVec 64

end Sys2Proof.Config
end

