-- ==== Sys2Proof/Syntax.lean ====
section
/-! DEFINITION. The commands of the engine: one constructor of Instr for each row of spec/opcode_table.json,
with the operands the outside gives it. -/

namespace Sys2Proof

/-- A leg: four 64-bit words (R73). -/
structure Leg where
  w0 : W64
  w1 : W64
  w2 : W64
  w3 : W64
  deriving DecidableEq, Repr

/-- A leg-cache line: 128 bytes, four legs (R27). -/
structure Line where
  l0 : Leg
  l1 : Leg
  l2 : Leg
  l3 : Leg
  deriving DecidableEq, Repr

/-- Who makes an access at the host target port (R7, R393, R443). -/
inductive Initiator where
  | host
  | debug
  deriving DecidableEq, Repr

/-- The response to a read on a port: the block's data with its poison indication, or an error (R375). -/
inductive ReadResp where
  | data (d : W128) (poison : Bool)
  | err
  deriving DecidableEq, Repr

/-- The response to a write on a port (R375). -/
inductive WriteResp where
  | ok
  | err
  deriving DecidableEq, Repr

/-- The response to a line fill.  An error response that is a bus error is GLOBAL_HALT_ENTRY's row;
`err` here is the response of R385, with BANKBUSY seen at 1. -/
inductive LineResp where
  | data (l : Line)
  | poison
  | err
  deriving DecidableEq, Repr

/-- The response to an END W0 read-through (R65). -/
inductive EndResp where
  | data (w0 : W64)
  | poison
  | err
  deriving DecidableEq, Repr

/-- What the SRAM cluster reports of an in-cluster copy (R80, R89): done, the burst's element at which the source or
the destination answered with an error, or the element at which a leg with POI = 0 met poison; `passed` says that poison
was copied before. -/
inductive CopyResp where
  | done (passed : Bool)
  | err (el : Nat) (dst passed : Bool)
  | poison (el : Nat)
  deriving DecidableEq, Repr

/-- What a read of an internal store's codeword finds (R340). -/
inductive Found where
  | clean
  | corrected
  | uncorrected
  deriving DecidableEq, Repr

/-- The levels of a pin at the QCLK edges since it was last looked at, and `q`, whether a QCLK edge falls in this ECLK
(log entry 48). -/
structure Pins where
  q : Fin 2
  pins : List Bool
  deriving DecidableEq, Repr

/-- The place and the size of a read of the register window (R4). -/
structure ReadAt where
  off : W16
  size : Nat
  deriving DecidableEq, Repr

/-- Word H0 of a frame, less SOF and KIND (R352). -/
structure Hdr where
  lseq : BitVec 8
  rt : Bool
  col : BitVec 4
  dst : BitVec 12
  src : BitVec 12
  ttl : BitVec 6
  eld : Bool
  deriving DecidableEq, Repr

/-- One unit of a WR frame (R353). -/
structure WUnit where
  mask : W16
  data : W128
  pois : Bool
  deriving DecidableEq, Repr

/-- What an SVR tells of one port of the responder (R366). -/
structure PortInfo where
  nbr : BitVec 12
  nbrv : Bool
  up : Bool
  deriving DecidableEq, Repr

/-- The source route of SV, SVR and RL frames (R366). -/
structure Path where
  hops : BitVec 40
  plen : BitVec 5
  pidx : BitVec 5
  deriving DecidableEq, Repr

/-- The rest of a frame, by KIND (R353, R366, R367, R369, R370). -/
inductive Body where
  | wrs (addr : W32) (tag : BitVec 14) (pois : Bool) (mask : W8) (data : W64)
  | wr (addr : W32) (tag : BitVec 14) (units : List WUnit)
  | rd (addr : W32) (tag : BitVec 14) (mask : W16)
  | ev (rnum : BitVec 9)
  | ack (addr : W32) (tag : BitVec 14)
  | nak (addr : W32) (tag : BitVec 14) (reason : BitVec 4) (dom : BitVec 4) (unit : BitVec 3)
  | rdr (addr : W32) (tag : BitVec 14) (pois : Bool) (data : W128)
  | synq
  | synr (nosync : Bool) (t2 t3 : W64)
  | sv (path : Path) (assign : Bool) (id : BitVec 12)
  | svr (path : Path) (uid : W64) (id : BitVec 12) (idv : Bool) (want : BitVec 12) (wantv : Bool)
      (arr : BitVec 2) (ports : List PortInfo)
  | rl (path : Path) (last : Bool) (first : W16) (entries : List W32)
  | note (leave : Bool) (port : BitVec 2) (nbr : BitVec 12) (nbrv : Bool)
  | reserved (kind : BitVec 4)
  deriving DecidableEq, Repr

/-- A frame of the Bruhus fabric (R352). -/
structure Frame where
  hdr : Hdr
  body : Body
  deriving DecidableEq, Repr

/-- A frame whose CRC is bad: stomped, or damaged on the link (R351, R357). -/
structure BadFrame where
  stomped : Bool
  f : Frame
  deriving DecidableEq, Repr

/-- A readiness bit that sets by itself after reset (R402). -/
inductive ReadyBit where
  | ctx
  | grid
  | grat
  | lane (l : Fin 8)
  | slot (n : Fin 64)
  deriving DecidableEq, Repr

/-- The commands.  `c` is a channel, `by_` the initiator of a host access; a row that is a step of the engine's
own (a grant, a movement, an expiry) carries only what the state does not hold.  `pins` are the levels of a request pin at
the last QCLK edges up to edge `q` of the present ECLK, oldest first (R179); `at_` is the RCLK period of its ECLK in which a
synchronisation frame's first character reaches the pins (R370); `samples` are the pins' levels at the last QCLK edge. -/
inductive Instr where
  -- legs: channel c begins the leg of that opcode that stands in its leg copy
  | move (c : Fin 1024)
  | fill (c : Fin 1024)
  | cmp (c : Fin 1024)
  | cmpk (c : Fin 1024)
  | scale (c : Fin 1024)
  | reduce (c : Fin 1024)
  | movex (c : Fin 1024)
  | push (c : Fin 1024)
  | pop (c : Fin 1024)
  | mark (c : Fin 1024)
  | rewind (c : Fin 1024)
  | release (c : Fin 1024)
  | pattern (c : Fin 1024)
  | scalecfg (c : Fin 1024)
  | waitreq (c : Fin 1024)
  | waittime (c : Fin 1024)
  | waitq (c : Fin 1024)
  | barrier (c : Fin 1024)
  | signal (c : Fin 1024)
  | log (c : Fin 1024)
  | jump (c : Fin 1024)
  | call (c : Fin 1024)
  | ret (c : Fin 1024)
  | branch (c : Fin 1024)
  | loop (c : Fin 1024)
  | load (c : Fin 1024)
  | store (c : Fin 1024)
  | endLeg (c : Fin 1024)
  | nop (c : Fin 1024)
  | illegalLeg (c : Fin 1024)
  -- lanes, ports and the leg-fetch port
  | burstGrant
  | readResponse (tag : Nat) (r : ReadResp)
  | writeResponse (tag : Nat) (r : WriteResp)
  | inClusterCopyDone (l : Fin 8) (r : CopyResp)
  | burstReturn (l : Fin 8)
  | loadDataReturn (c : Fin 1024)
  | lineFillReturn (line : W32) (col : Fin 16) (r : LineResp)
  | endW0Return (c : Fin 1024) (r : EndResp)
  -- waits
  | waitSatisfied (c : Fin 1024)
  | waittimeTargetReached (c : Fin 1024)
  | waitDeadlineReached (c : Fin 1024)
  -- channel control
  | chStart (by_ : Initiator) (c : Fin 1024)
  | chDrain (by_ : Initiator) (c : Fin 1024)
  | chPause (by_ : Initiator) (c : Fin 1024)
  | chResume (by_ : Initiator) (c : Fin 1024)
  | chAbort (by_ : Initiator) (c : Fin 1024)
  | pauseStopPoint (c : Fin 1024)
  | drainComplete (c : Fin 1024)
  | faultEntry (c : Fin 1024)
  | faultToOff (c : Fin 1024)
  | chWake (by_ : Initiator) (c : Fin 1024)
  | chDivert (by_ : Initiator) (c : Fin 1024) (target : W32)
  | chLegendWrite (by_ : Initiator) (c : Fin 1024) (v : W32)
  | chRearmClr (by_ : Initiator) (c : Fin 1024)
  -- paging
  | pageSwap
  | pageTransferDone (found : Found) (word : Fin 32)
  -- request inputs and event outputs
  | pinRequest (n : Fin 512) (x : Pins)
  | qualificationGained (n : Fin 512) (x : Pins)
  | qualificationLost (n : Fin 512)
  | levelRearm (c : Fin 1024)
  | swreq (by_ : Initiator) (n : Fin 512)
  | reqinClrcnt (by_ : Initiator) (n : Fin 512)
  | reqinConfigWrite (by_ : Initiator) (n : Fin 512) (v : W32) (x : Pins)
  | swpulse (by_ : Initiator) (m : Fin 128)
  | evoConfigWrite (by_ : Initiator) (m : Fin 128) (v : W32)
  | pulseEnd (m : Fin 128)
  | tagClrhw (by_ : Initiator)
  -- Meridian
  | merNowRead (by_ : Initiator) (wide : Bool)
  | merSet (by_ : Initiator) (v : W64)
  | merAdj (by_ : Initiator) (v : W64)
  | merSrcChange (by_ : Initiator) (src : BitVec 2)
  | holdoverStart (pathLost : Bool)
  | holdoverExpiry
  -- the Graticule
  | insert (by_ : Initiator)
  | delete (by_ : Initiator) (index : Fin 4096)
  | replace (by_ : Initiator) (index : Fin 4096)
  | gratCommandComplete
  | gratFiring (found : Found)
  | gratActionDelivery
  | gratLead (index : Fin 4096)
  | gratEnable (by_ : Initiator)
  | gratClrcnt (by_ : Initiator)
  -- field books
  | recordTake
  | recordWriteDone (b : Fin 8)
  | recordWriteFailed (b : Fin 8)
  | bookEnable (by_ : Initiator) (b : Fin 8)
  | bookRidxWrite (by_ : Initiator) (b : Fin 8) (v : W32)
  | bookTimerExpiry (b : Fin 8)
  -- stream queues
  | hostPush (by_ : Initiator) (q : Fin 64) (d : W64)
  | hostPushend (by_ : Initiator) (q : Fin 64) (d : W64)
  | hostPop (by_ : Initiator) (q : Fin 64) (wide : Bool)
  | queueReset (by_ : Initiator) (q : Fin 64) (cfg : W64)
  | unmark (by_ : Initiator) (q : Fin 64)
  | tailToHead (q : Fin 64)
  | halfGroupSpill (q : Fin 64)
  | tailIdleFlush (q : Fin 64)
  | headRefill (q : Fin 64)
  | spillResponse (tag : Nat) (r : ReadResp)
  | spillBaseWrite (by_ : Initiator) (v : W64)
  | spillClrhw (by_ : Initiator)
  -- the Atlas
  | atlasStageWrite (by_ : Initiator) (off : BitVec 21) (size : Nat) (d : W64)
  | commitGo (by_ : Initiator) (gridrst : BitVec 4)
  | commitSwitch
  | commitCopyIn
  | commitDrained
  | atlasClrcnt (by_ : Initiator)
  | lifecycleChange (level : Bool)
  -- faults, halts and error counting
  | remoteTimeout (ftag : Nat)
  | globalHaltEntry (line : W32) (col : Fin 16)
  | channelHalted (c : Fin 1024)
  | haltIssueStop
  | haltRetryIssue
  | haltRetryEnd (r : Option LineResp)
  | haltDecision
  | recovery
  | globalResume (by_ : Initiator)
  | errorWindowEnd (cls : Fin 50)
  | lastingFault (cls : Fin 50)
  | fenceWrite (by_ : Initiator) (v : W32)
  | errcCfgWrite (by_ : Initiator) (cls : Fin 50) (v : W64)
  -- the Bruhus fabric
  | portEnable (by_ : Initiator) (p : Fin 4) (en : Bool)
  | linkUp (p : Fin 4) (nbr : BitVec 12) (nbrv : Bool)
  | linkDown (p : Fin 4) (cause : Fin 3)
  | rxWrs (p : Fin 4) (h : Hdr) (addr : W32) (tag : BitVec 14) (pois : Bool) (mask : W8) (data : W64)
  | rxWr (p : Fin 4) (h : Hdr) (addr : W32) (tag : BitVec 14) (units : List WUnit)
  | rxRd (p : Fin 4) (h : Hdr) (addr : W32) (tag : BitVec 14) (mask : W16)
  | destResponseTimeout (id : Nat)
  | rxEv (p : Fin 4) (h : Hdr) (rnum : BitVec 9)
  | rxAck (p : Fin 4) (h : Hdr) (addr : W32) (tag : BitVec 14)
  | rxNak (p : Fin 4) (h : Hdr) (addr : W32) (tag : BitVec 14) (reason : BitVec 4) (dom : BitVec 4)
      (unit : BitVec 3)
  | rxRdr (p : Fin 4) (h : Hdr) (addr : W32) (tag : BitVec 14) (pois : Bool) (data : W128)
  | rxSynq (p : Fin 4) (h : Hdr) (at_ leave : Fin 8)
  | rxSynr (p : Fin 4) (h : Hdr) (nosync : Bool) (t2 t3 : W64) (at_ : Fin 8)
  | syncExchange (leave : Fin 8)
  | synrTimeout
  | rxSv (p : Fin 4) (h : Hdr) (path : Path) (assign : Bool) (id : BitVec 12)
  | rxSvr (p : Fin 4) (h : Hdr) (path : Path) (uid : W64) (id : BitVec 12) (idv : Bool)
      (want : BitVec 12) (wantv : Bool) (arr : BitVec 2) (ports : List PortInfo)
  | svTimeout
  | rxRl (p : Fin 4) (h : Hdr) (path : Path) (last : Bool) (first : W16) (entries : List W32)
  | rlTimeout
  | rxNote (p : Fin 4) (h : Hdr) (leave : Bool) (port : BitVec 2) (nbr : BitVec 12) (nbrv : Bool)
  | rxReservedKind (p : Fin 4) (h : Hdr) (kind : BitVec 4)
  | frameForward (p : Fin 4) (f : Frame)
  | frameCrcFail (p : Fin 4) (bad : BadFrame)
  | nakWord (p : Fin 4) (lseq : BitVec 8)
  | ackWord (p : Fin 4) (lseq : BitVec 8)
  | creditWord (p : Fin 4) (rt : Bool) (flits : Fin 16)
  | identWord (p : Fin 4) (nbr : BitVec 12) (nbrv : Bool)
  | skipDue (p : Fin 4)
  | identDue (p : Fin 4)
  | surveyGo (by_ : Initiator)
  | routeLoadGo (by_ : Initiator) (v : W64)
  | routeTableWrite (by_ : Initiator) (node : BitVec 12) (v : W32)
  | portClrst (by_ : Initiator) (p : Fin 4)
  -- power domains, flash and debug
  | pdreqRise (d : Fin 16)
  | pdreqDrop (d : Fin 16)
  | pgoodFall (d : Fin 16)
  | domainReturn (d : Fin 16)
  | pdack (d : Fin 16)
  | pdnak (d : Fin 16)
  | bankbusyClear (b : Fin 4)
  | flashTimeout (c : Fin 1024)
  | debugAccess (write : Bool) (addr : W32) (size : Nat) (d : W128)
  -- resets and clocks
  | coldReset
  | warmReset
  | engineResetRequest (by_ : Initiator) (key : W8)
  | engineResetWaitEnd
  | resetRelease
  | readyBitSet (bit : ReadyBit)
  | spreadWrite (by_ : Initiator) (depth : BitVec 2)
  | spreadApply
  | legInvWrite (by_ : Initiator) (addr : W32)
  -- the management plane
  | scrubStep (store : Fin 19) (found : Found)
  | scrubForcedSlot (store : Fin 11) (found : Found)
  | selftestGo (by_ : Initiator) (target : BitVec 5)
  | selftestStopped
  | selftestComplete (pass : Bool) (res : W64)
  | teleSnap (by_ : Initiator)
  | telePeriodExpiry
  | teleCapture
  -- host accesses
  | hostTableRead (by_ : Initiator) (off : BitVec 21) (size : Nat) (found : Found)
  | hostRegisterWrite (by_ : Initiator) (off : W16) (size : Nat) (d : W64) (samples : BitVec 512)
  | bankbusySet (b : Fin 4)
  | filterOutputChange (n : Fin 512) (x : Pins)
  | synchronised
  | lowWordRead (by_ : Initiator) (at_ : ReadAt)
  deriving DecidableEq, Repr

end Sys2Proof
end

