-- ==== Sys2Proof/WellFormed.lean ====
section
/-! DEFINITION. Which commands are well formed: operands that some command of the spec can carry. -/

namespace Sys2Proof

/-- A WR frame carries 1 to 8 units (R353). -/
def wrUnitsOk (units : List WUnit) : Bool := decide (1 ≤ units.length) && decide (units.length ≤ 8)

/-- An RL frame carries 64 entries (R367). -/
def rlEntriesOk (entries : List W32) : Bool := decide (entries.length = 64)

/-- An SVR tells of the responder's four ports (R366). -/
def svrPortsOk (ports : List PortInfo) : Bool := decide (ports.length = 4)

/-- A source route has at most 20 hops, and its index does not pass its length (R366). -/
def pathOk (p : Path) : Bool := decide (p.plen.toNat ≤ 20) && decide (p.pidx.toNat ≤ p.plen.toNat)

/-- A debug access has 1, 2, 4, 8 or 16 bytes, naturally aligned (R391). -/
def debugOk (addr : W32) (size : Nat) : Bool :=
  (size == 1 || size == 2 || size == 4 || size == 8 || size == 16) && decide (addr.toNat % size = 0)

/-- KINDs 7, 14 and 15 are reserved (R353). -/
def reservedKind (k : BitVec 4) : Bool := k == 7 || k == 14 || k == 15

/-- A frame that some node can send. -/
def frameOk (f : Frame) : Bool :=
  match f.body with
  | .wr _ _ units => wrUnitsOk units
  | .rl path _ _ entries => pathOk path && rlEntriesOk entries
  | .svr path _ _ _ _ _ _ ports => pathOk path && svrPortsOk ports
  | .sv path _ _ => pathOk path
  | .reserved k => reservedKind k
  | _ => true

/-- Commands whose operand types do not rule out every ill-formed value are checked; all others are well
formed. -/
def wellFormed : Instr → Bool
  | .rxWr _ _ _ _ units => wrUnitsOk units
  | .rxSv _ _ path _ _ => pathOk path
  | .rxSvr _ _ path _ _ _ _ _ _ ports => pathOk path && svrPortsOk ports
  | .rxRl _ _ path _ _ entries => pathOk path && rlEntriesOk entries
  | .rxReservedKind _ _ k => reservedKind k
  | .frameForward _ f => frameOk f
  | .frameCrcFail _ bad => frameOk bad.f
  | .debugAccess _ addr size _ => debugOk addr size
  | _ => true

end Sys2Proof
end

