-- ==== Sys2Proof/Machine/Bits.lean ====
section
/-! DEFINITION. Bit fields, sign extension, byte lists and saturating counts, and the operations of the sparse
tables. -/

namespace Sys2Proof.Machine

/-- Bits [hi:lo] of a word, as a number. -/
def fld {n : Nat} (w : BitVec n) (hi lo : Nat) : Nat := (w.toNat / 2 ^ lo) % 2 ^ (hi - lo + 1)

/-- Bit i of a word. -/
def bit {n : Nat} (w : BitVec n) (i : Nat) : Bool := w.getLsbD i

def bool (b : Bool) : Nat := if b then 1 else 0

/-- A word with bit i set to b. -/
def setBit {n : Nat} (w : BitVec n) (i : Nat) (b : Bool) : BitVec n :=
  if b then w ||| (BitVec.ofNat n (2 ^ i)) else w &&& ~~~(BitVec.ofNat n (2 ^ i))

/-- The two's-complement reading of an n-bit number. -/
def signed (n x : Nat) : Int := if x % 2 ^ n < 2 ^ (n - 1) then ((x % 2 ^ n : Nat) : Int) else ((x % 2 ^ n : Nat) : Int) - (2 ^ n : Nat)

/-- The n-bit two's-complement pattern of an integer. -/
def unsig (n : Nat) (x : Int) : Nat := (x % ((2 ^ n : Nat) : Int)).toNat

/-- A count that saturates at m (R56, R190, R248 and the other saturating counts). -/
def satInc (m x : Nat) : Nat := if x < m then x + 1 else m

def sat16 (w : W16) : W16 := BitVec.ofNat 16 (satInc 0xFFFF w.toNat)
def sat32 (w : W32) : W32 := BitVec.ofNat 32 (satInc 0xFFFFFFFF w.toNat)

/-- Byte j of a 16-byte block or element (R151). -/
def byteOf (d : W128) (j : Nat) : Nat := (d.toNat / 2 ^ (8 * j)) % 256

/-- `len` bytes of d from byte `at_`, as a number. -/
def bytesAt (d : W128) (at_ len : Nat) : Nat := (d.toNat / 2 ^ (8 * at_)) % 2 ^ (8 * len)

/-- The element d with `len` bytes from byte `off` taken from the number v; the bytes there were 0. -/
def placeBytes (d : W128) (off len v : Nat) : W128 := d ||| BitVec.ofNat 128 ((v % 2 ^ (8 * len)) * 2 ^ (8 * off))

/-- The byte-enable mask of `len` bytes from byte `at_` of a block (R154). -/
def maskAt (at_ len : Nat) : W16 := BitVec.ofNat 16 ((2 ^ len - 1) * 2 ^ at_)

/-- Enabled bytes of a mask. -/
def popcount {n : Nat} (m : BitVec n) : Nat := ((List.range n).filter (fun i => m.getLsbD i)).length

/-- The quotient rounded to nearest, halves up. -/
def roundDiv (a b : Nat) : Nat := (2 * a + b) / (2 * b)

/-! ### Sparse tables: `tget` and `tset` for tables with a default, `tfind?`, `tput` and `tdel` for tables that
hold only what is present. -/

def tfind? {α : Type} : Tbl α → Nat → Option α
  | [], _ => none
  | (j, v) :: t, k => if j = k then some v else tfind? t k

def tget {α : Type} (d : α) (t : Tbl α) (k : Nat) : α := (tfind? t k).getD d

/-- Insertion before the first greater key. -/
def tins {α : Type} : Tbl α → Nat → α → Tbl α
  | [], k, v => [(k, v)]
  | (j, w) :: t, k, v => if k < j then (k, v) :: (j, w) :: t else (j, w) :: tins t k v

def tdel {α : Type} : Tbl α → Nat → Tbl α
  | [], _ => []
  | (j, w) :: t, k => if j = k then tdel t k else (j, w) :: tdel t k

def tput {α : Type} (t : Tbl α) (k : Nat) (v : α) : Tbl α := tins (tdel t k) k v

/-- Writing the value an unlisted key reads as removes the entry. -/
def tset {α : Type} [DecidableEq α] (d : α) (t : Tbl α) (k : Nat) (v : α) : Tbl α :=
  if v = d then tdel t k else tput t k v

/-- Keys strictly rising. -/
def trising {α : Type} : Tbl α → Bool
  | [] => true
  | [_] => true
  | (j, _) :: (k, w) :: t => decide (j < k) && trising ((k, w) :: t)

/-- The canonical form: keys strictly rising and no value equal to the default. -/
def tcanon {α : Type} [DecidableEq α] (d : α) (t : Tbl α) : Bool := trising t && t.all (fun e => !decide (e.2 = d))

/-- Replace in place every element of a list for which p holds. -/
def modWhere {α : Type} (p : α → Bool) (f : α → α) (l : List α) : List α := l.map (fun x => if p x then f x else x)

end Sys2Proof.Machine
end

