-- ==== Sys2Proof/Machine/State.lean ====
section
/-! DEFINITION. The state of the engine as plain data: every register, store, queue, counter and mode the spec
gives it (INVENTORY.md, State), the queue of waiting commands, and the state after reset.

Every register file and store is a sparse table: an entry that is not listed reads as its reset value. -/

namespace Sys2Proof.Machine

/-! ### Channels (02_traverses) -/

/-- CH_STATUS.STATE (R47). -/
inductive ChState where
  | off | active | wait | parked | paused | draining | held | fault | halted
  deriving DecidableEq, Repr

/-- CH_STATUS.WAIT (R48). -/
inductive WaitReason where
  | none | request | time | queue | barrier | flashBusy | domain | queueSpace
  deriving DecidableEq, Repr

/-- CH_STATUS.FLAGS (R44). -/
structure Flags where
  z : Bool := false
  n : Bool := false
  s : Bool := false
  m : Bool := false
  i : Bool := false
  p : Bool := false
  d : Bool := false
  deriving DecidableEq, Repr

/-- The wait descriptor at context offset 0x20 (R41): the condition waited for. -/
inductive WaitDesc where
  | none
  /-- WAITREQ: that many pending requests (R119). -/
  | request (count : Nat)
  /-- A paced data leg between bursts (R76). -/
  | burstRequest
  | time (target : W64)
  | items (q count : Nat)
  | packet (q : Nat)
  /-- POP met an empty queue (R143). -/
  | popItem (q : Nat)
  /-- PUSH met a full queue (R143). -/
  | pushRoom (q : Nat)
  | barrierLeg (localOnly : Bool)
  /-- BAR of a leg that waits before it acts (R110). -/
  | barBefore
  /-- BAR of a data leg that waits after its last burst (R78). -/
  | barAfter
  | flash (bank : Nat)
  | domain (d : Nat)
  deriving DecidableEq, Repr

/-- Where a channel's sequencer stands in its traverse. -/
inductive Phase where
  | idle
  /-- The leg at PC is to be fetched, or its fetch is under way. -/
  | fetch
  /-- The leg copy holds the leg at PC, which has not begun. -/
  | ready
  /-- A wait leg, or a leg's BAR before it acts, is under way. -/
  | waiting
  /-- A data leg, PUSH or POP stands at a burst boundary. -/
  | data
  | burst (lane : Nat)
  /-- Every burst of a data leg is done and its BAR is not met. -/
  | dataBar
  /-- A LOAD's read, or a STORE's write, is with the single-access unit. -/
  | single
  /-- END's W0 read-through is requested. -/
  | endRead
  /-- The leg is done, and a record it raised is not yet accepted (R18). -/
  | recWait
  /-- The leg is done, and the channel has no slot. -/
  | legDone
  | parked
  deriving DecidableEq, Repr

/-- A Graticule fire on its way to a channel, or pending in it (R249). -/
structure Fire where
  /-- Periods that the firing skipped (R252). -/
  skipped : Nat := 0
  leg : W32
  index : Nat
  tag : W16
  /-- Meridian count at the firing (R254, W1). -/
  time : W64
  /-- TIME of the due time that fired (R254, W2). -/
  due : W64
  deriving DecidableEq, Repr

/-- An item of a stream queue with its flags and its parity bit (R28). -/
structure Item where
  data : W64
  pend : Bool
  poison : Bool
  par : Bool
  deriving DecidableEq, Repr

/-- A fault that was raised and whose channel has not yet entered FAULT (R322, R325). -/
structure FaultInfo where
  code : W8
  addr : GAddr
  time : W64
  state : ChState
  late : Bool
  count : Nat
  pc : W32
  deriving DecidableEq, Repr

/-- The context of a channel as R41 lays it out, and CH_CTRL.EN, CH_START and CH_STATUS. -/
structure CtxRegs where
  en : Bool := false
  start : W32 := 0
  pc : W32 := 0
  divTarget : W32 := 0
  divPend : Bool := false
  ret : W32 := 0
  retValid : Bool := false
  lc : W32 := 0
  state : ChState := .off
  wait : WaitReason := .none
  flags : Flags := {}
  aborted : Bool := false
  rearm : Bool := false
  wake : Bool := false
  fcode : W8 := 0
  resume : ChState := .off
  pauseRet : ChState := .off
  slot : Option Nat := none
  desc : WaitDesc := .none
  deadline : Option Nat := none
  pend : Nat := 0
  pat1 : W64 := 0
  pat2 : W64 := 0
  pat3 : W64 := 0
  sc1 : W64 := 0
  sc2 : W64 := 0
  sc3 : W64 := 0
  v : Tbl W64 := []
  leg : Leg := ⟨0, 0, 0, 0⟩
  i0 : W16 := 0
  i1 : W16 := 0
  i2 : W16 := 0
  ecount : Nat := 0
  bytes : W64 := 0
  /-- The energy estimate in 1/16 pJ (R420); the context shows whole pJ. -/
  energy16 : Nat := 0
  rearmCnt : W16 := 0
  deriving DecidableEq, Repr

/-- The engine working state of a context (R41, offset 0xE8: not defined for software). -/
structure Work where
  phase : Phase := .idle
  /-- Items that a POP has taken and not written when its burst was held (R378). -/
  back : List Item := []
  /-- The run a start begins (R327). -/
  run : Nat := 0
  /-- The serial number of the leg under way, so that a late failure knows whether its leg is done (R327). -/
  legNo : Nat := 0
  fire : Option Fire := none
  pausePend : Bool := false
  aborting : Bool := false
  faulting : Option FaultInfo := none
  /-- A request consumed for the next burst stays with it (R76). -/
  reqHeld : Bool := false
  /-- The serial number of the last burst granted, of the burst that consumed the level request, and the ECLK in which
  an access of that burst last completed (R192). -/
  burstNo : Nat := 0
  consNo : Option Nat := none
  lastAcc : Nat := 0
  /-- FILL's value, read when the leg begins (R95). -/
  fillVal : W64 := 0
  firstMis : Option Nat := none
  misCnt : Nat := 0
  misVal : W64 := 0
  misN : Bool := false
  /-- Items POP has taken (R142), and whether the leg ended early (R102, R142). -/
  taken : Nat := 0
  ended : Bool := false
  onPacket : Bool := false
  halfFired : Bool := false
  /-- Covered writes issued and not yet accepted, to local and to remote destinations (R263). -/
  wLoc : Nat := 0
  wRem : Nat := 0
  /-- Armed for a level request (R192), and the ECLK at which it is armed again. -/
  armed : Bool := false
  rearmAt : Option Nat := none
  /-- The address of the access that took the channel to HELD (R378). -/
  heldAddr : GAddr := 0
  flashCnt : Nat := 0
  /-- The count of EN-0 FAULT entries waiting for FAULT_TO_OFF (R326). -/
  toOff : Bool := false
  /-- ECLK of the last page-in, of the last grant or page-in, and since when it waits for page-in (R219, R220). -/
  pagedAt : Nat := 0
  usedAt : Nat := 0
  waitFrom : Nat := 0
  /-- It has completed a leg or a burst, or has left ACTIVE, since its page-in (R220). -/
  progressed : Bool := false
  /-- It ranks for page-in as a channel with a request pending (R66, R118, R251). -/
  urgent : Bool := false
  /-- A wake reached it while PARKED without a slot; its END is read once it is paged in (R66). -/
  woken : Bool := false
  /-- A LOAD's data so far: the element's bytes, how many have come, its poison and its failure. -/
  loadData : W128 := 0
  loadGot : Nat := 0
  loadPoison : Bool := false
  loadFail : Option (W8 × GAddr) := none
  /-- Parts of a STORE not yet issued (R137). -/
  storeLeft : Nat := 0
  /-- The integer Meridian count of the ECLK in which the leg under way began, its barrier included (R51, R109). -/
  legAt : Option Nat := none
  /-- A leg that is no wait leg has begun and waits in its barrier (R110, R330). -/
  acting : Bool := false
  /-- The lane whose return is being applied (R265). -/
  ret : Option Nat := none
  /-- CH_STATUS.WAIT as it stood when HALTED was entered (R48). -/
  haltWait : WaitReason := .none
  /-- The ECLK in which the channel entered HELD (R333). -/
  heldAt : Option Nat := none
  /-- When CH_START was last written, and its value before that ECLK (R448). -/
  startWas : Option (Nat × W32) := none
  deriving DecidableEq, Repr

structure Ctx where
  r : CtxRegs := {}
  w : Work := {}
  deriving DecidableEq, Repr

/-- Condition of a slot (R218, R403). -/
inductive SlotUse where
  | free
  | used (ch : Nat)
  /-- Released; the context is to be written back at the pager's next swap (R218). -/
  | releasing (ch : Nat)
  deriving DecidableEq, Repr

/-- A page transfer in progress, or chosen and waiting for its victim's burst return (R221). -/
structure Swap where
  slot : Nat
  inCh : Option Nat
  outCh : Option Nat
  /-- The ECLK at which the transfer ends; none while the choice is held. -/
  doneAt : Option Nat
  deriving DecidableEq, Repr

/-- A CH_CTRL, CH_WAKE or CH_DIVERT write that waits for a page transfer (R57). -/
inductive CtlWrite where
  | ctrl (v : W32)
  | wake
  | divert (v : W32)
  | fire (f : Fire)
  deriving DecidableEq, Repr

/-! ### The leg-fetch port (02_traverses, R60 to R67, R450) -/

structure CLine where
  addr : W32
  colour : Nat
  epoch : W32
  data : Line
  /-- A codeword of it holds an uncorrectable, or else a correctable, error that nothing has read yet (R340). -/
  bad : Bool := false
  soft : Bool := false
  deriving DecidableEq, Repr

inductive FetchKind where
  | demand | prefetch | endW0 (ch : Nat) | retry
  deriving DecidableEq, Repr

/-- A request at the leg-fetch port, or a fetch it has issued. -/
structure Fetch where
  kind : FetchKind
  addr : W32
  colour : Nat
  waiters : List Nat
  /-- The classes of the channels on whose behalf it is made (R213). -/
  clss : List (Nat × Nat)
  at_ : Nat
  readyAt : Nat
  /-- Its lookup has completed, and has denied it (R311, R315). -/
  decided : Bool := false
  denied : Bool
  issued : Bool
  /-- BANKBUSY of its bank was sampled 1 since its issue (R385). -/
  busySeen : Bool
  /-- Its data is to be discarded (R335). -/
  dropped : Bool
  /-- Its line was invalidated since its request: it fills nothing, and no later fetch joins it (R64, R65). -/
  stale : Bool := false
  epoch : W32
  deriving DecidableEq, Repr

/-! ### Lanes and ports (03_data_legs, 05_address_patterns, 08_scheduling_paging) -/

/-- The part of an element in one block (R155): `len` bytes from byte `off` of element `el`, at byte `at_` of
the block. -/
structure Part where
  el : Nat
  off : Nat
  len : Nat
  at_ : Nat
  deriving DecidableEq, Repr

/-- An access as R157 forms it: one block and the parts it carries. -/
structure BlkAcc where
  blk : GAddr
  parts : List Part
  deriving DecidableEq, Repr

inductive Side where
  | src | oth | idx | shRd | shWr | dst | res
  deriving DecidableEq, Repr

/-- How a burst ends (R13, R152). -/
inductive BurstEnd where
  | complete
  /-- The leg ends here (R102, R142). -/
  | legEnd
  /-- An empty or full queue (R143). -/
  | queue
  /-- Cut by a global halt (R335). -/
  | haltCut
  | held (d : Nat) (addr : GAddr)
  | faulted (code : W8) (addr : GAddr)
  | aborted
  deriving DecidableEq, Repr

/-- One element of a burst on a lane. -/
structure El where
  k : Nat
  i0 : Nat
  i1 : Nat
  i2 : Nat
  src : GAddr
  dst : GAddr
  data : W128 := 0
  got : Nat := 0
  poison : Bool := false
  fail : Option BurstEnd := none
  oth : W128 := 0
  othGot : Nat := 0
  othPoison : Bool := false
  idx : W128 := 0
  idxGot : Nat := 0
  idxPoison : Bool := false
  sh : W128 := 0
  shGot : Nat := 0
  shPoison : Bool := false
  out : W128 := 0
  outPoison : Bool := false
  deriving DecidableEq, Repr

/-- Where the elision unit stands with the element it works on (R90). -/
inductive Elide where
  | idle | shadowAsked | destSent
  deriving DecidableEq, Repr

/-- A burst on a lane, with what its return will carry (R12, R13). -/
structure Burst where
  ch : Nat
  no : Nat
  /-- COLOUR and CLASS at the grant (R40). -/
  colour : Nat
  cls : Nat
  run : Nat
  leg : Leg
  base : Nat
  els : List El
  /-- Elements below it are to be done; the burst ends there, as `why` says. -/
  limit : Nat
  why : BurstEnd := .complete
  nxt : Nat := 0
  /-- MOVEX: the indexed side's accesses have been formed. -/
  formed : Bool := true
  /-- Destination accesses formed and not yet offered to a port, in order. -/
  wq : List BlkAcc := []
  elide : Elide := .idle
  acc : W64 := 0
  fS : Bool := false
  fM : Bool := false
  fI : Bool := false
  fP : Bool := false
  fD : Bool := false
  fN : Bool := false
  firstMis : Option Nat := none
  misCnt : Nat := 0
  misVal : W64 := 0
  taken : Nat := 0
  onPacket : Bool := false
  resDone : Bool := false
  inCluster : Bool := false
  /-- An in-cluster copy holds its tag and its lookups have begun (R214). -/
  started : Bool := false
  copyDone : Bool := false
  /-- The epoch under which an in-cluster copy was checked (R316). -/
  epoch : W32 := 0
  /-- The power domains to which the burst has issued an access (R379). -/
  doms : W16 := 0
  rdBytes : Nat := 0
  wrBytes : Nat := 0
  copyBytes : Nat := 0
  xforms : Nat := 0
  fabBytes : Nat := 0
  moved : Nat := 0
  deriving DecidableEq, Repr

structure LaneSt where
  burst : Option Burst := none
  /-- Initialised after reset (READY.LANE less the fence, R402). -/
  ready : Bool := false
  /-- The ECLK from which the lane is free (R204). -/
  freeAt : Nat := 0
  /-- ECLK in which the lane held a burst (R421). -/
  busy : W32 := 0
  /-- A codeword of its holding buffer holds an uncorrectable, or a correctable, error that nothing has read yet
  (R340). -/
  upset : Bool := false
  soft : Bool := false
  deriving DecidableEq, Repr

/-- What a spill access of a queue is (R283, R284). -/
inductive SpillOp where
  | dataWr | headWr | linkWr | freeWr (page : Nat) | freeRd | dataRd (half : Nat) | headRd
  deriving DecidableEq, Repr

/-- Who made an access (R22, R302). -/
inductive Owner where
  | lane (l : Nat) (side : Side)
  | load (ch : Nat)
  | store (ch : Nat)
  | spill (q : Nat) (op : SpillOp)
  | record (b : Nat) (second : Bool)
  | mapWr
  /-- Block n of the route image, for the load of that number. -/
  | imgRd (load n : Nat)
  | inbound (id : Nat) (u : Nat)
  | debug (id : Nat)
  deriving DecidableEq, Repr

/-- What a check point is asked. -/
structure Ask where
  point : Nat
  colour : Nat
  /-- An inbound frame's source node (R312); its colour is then the frame's. -/
  inbound : Option Nat := none
  wr : Bool
  elided : Bool := false
  /-- VINFO.TYPE, SRCK and SRCN (R321). -/
  type_ : Nat
  srck : Nat
  srcn : Nat
  addr : W32
  deriving DecidableEq, Repr

/-- A port access, offered or outstanding (R154, R30). -/
structure Acc where
  tag : Nat
  owner : Owner
  wr : Bool
  colour : Nat
  blk : W32
  mask : W16
  data : W128 := 0
  poison : Bool := false
  parts : List Part := []
  home : Nat
  rank : Nat
  ord : Nat
  /-- The ECLK it was offered in, and the first in which its lookup has allowed it (R311). -/
  at_ : Nat
  readyAt : Nat
  epoch : W32
  /-- The channel it belongs to, its run and its leg (R327). -/
  ch : Option (Nat × Nat × Nat) := none
  gaddr : GAddr
  /-- The burst it belongs to (R192). -/
  bno : Nat := 0
  orphan : Bool := false
  /-- What its check point was asked (R315). -/
  ask : Option Ask := none
  /-- Its lookup has completed and has allowed it (R311). -/
  decided : Bool := false
  /-- A check-only lookup of an in-cluster copy: it is never issued (R89). -/
  only : Bool := false
  /-- The port it was issued on, and whether its tag is of the shared pool (R214). -/
  port : Option Nat := none
  shared : Bool := false
  deriving DecidableEq, Repr

/-! ### Meridian and the Graticule (09_meridian_graticule) -/

structure Mer where
  /-- The count in 2^-32 ns: integer part, 24 fraction bits and 8 hidden ones (R231). -/
  now : Nat := 0
  frac : BitVec 24 := 0
  src : BitVec 2 := 0
  book : Nat := 0
  recEn : Bool := true
  slew : Nat := 500
  hold : Nat := 100
  sync : Bool := false
  holdover : Bool := false
  stepped : Bool := false
  backoff : Bool := false
  rej : Bool := false
  stepcnt : W16 := 0
  rate : W32 := 0
  lastofs : W64 := 0
  /-- REMAIN in 2^-32 ns, signed. -/
  remain : Int := 0
  /-- The source has declared lock (R240, R371). -/
  lock : Bool := false
  /-- MCLK period, and integer Meridian, of the last correction; MCLK period at which holdover began. -/
  corrAt : Nat := 0
  corrNs : Nat := 0
  holdAt : Nat := 0
  /-- The ECLK of the last change of SRC (R241). -/
  srcAt : Option Nat := none
  /-- STE_MER_SET's value, and the ECLK at whose tick it applies (R239). -/
  setPend : Option W64 := none
  /-- The increment of the present ECLK, and the part of it that came from REMAIN (R232, R248). -/
  inc : Nat := 0
  slewed : Int := 0
  deriving DecidableEq, Repr

/-- A valid Graticule entry (R244); an entry that is not listed is not valid. -/
structure GEntry where
  /-- The due time T in 2^-24 ns. -/
  t : Nat
  /-- The period in 2^-24 ns. -/
  period : Nat
  ch : Nat
  wake : Bool
  rep : Bool
  late : Bool
  lead : Nat
  remain : Nat
  leg : W32
  tag : W16
  /-- The lead has acted for the next firing (R251). -/
  leadDone : Bool
  deriving DecidableEq, Repr

/-- A fired entry's action on its way to its channel (R249). -/
structure GAct where
  ch : Nat
  wake : Bool
  fire : Fire
  at_ : Nat
  deriving DecidableEq, Repr

structure GCmd where
  op : BitVec 2
  index : Nat
  w0 : W64
  w1 : W64
  w2 : W64
  w3 : W64
  deriving DecidableEq, Repr

structure Grat where
  entries : Tbl GEntry := []
  en : Bool := true
  book : Nat := 0
  lateRec : Bool := true
  missRec : Bool := true
  cmdLost : Bool := false
  lateCnt : W16 := 0
  missCnt : W16 := 0
  stage0 : W64 := 0
  stage1 : W64 := 0
  stage2 : W64 := 0
  stage3 : W64 := 0
  /-- The command that runs (STE_GRAT_RESULT.BUSY). -/
  cmd : Option GCmd := none
  code : BitVec 3 := 0
  index : Nat := 0
  acts : List GAct := []
  /-- The ECLK of the last firing (R248). -/
  firedAt : Option Nat := none
  deriving DecidableEq, Repr

/-! ### Field books (10_completion_fieldbook) -/

/-- A record, less SEQ and PHASE (R268), and the book it is for. -/
structure Rec where
  book : Nat
  type_ : W8
  kind : W8
  num : Nat
  detail : W32
  time : W64
  value : W64
  detail2 : BitVec 31
  deriving DecidableEq, Repr

inductive Plane where
  | mgt | data | ctl
  deriving DecidableEq, Repr

/-- A record offered and not yet accepted, and the channel that stays at its leg for it (R16, R18). -/
structure HeldRec where
  plane : Plane
  recd : Rec
  own : Option Nat
  /-- The ECLK of its first offer, and its place among the records that its plane first offers in it (R265). -/
  at_ : Nat
  key : Nat
  deriving DecidableEq, Repr

/-- A record under way (R451): its words, its slot's address, how far it is, and whether a lookup denied it. -/
structure Under where
  w0 : W64
  w1 : W64
  w2 : W64
  w3 : W64
  addr : W32
  second : Bool
  denied : Bool
  deriving DecidableEq, Repr

structure Book where
  base : BitVec 27 := 0
  en : Bool := false
  size : Nat := 4
  ie : Bool := false
  thresh : W16 := 0
  timer : W8 := 0
  widx : W32 := 0
  ridx : W32 := 0
  seq : W32 := 0
  err : Bool := false
  badidx : Bool := false
  lostpend : Bool := false
  lost : W32 := 0
  /-- Drops since the last records-lost record, and the SEQ of the first of them (R278). -/
  drops : Nat := 0
  firstDrop : W32 := 0
  under : Option Under := none
  /-- From which Meridian ns the timer runs, and whether it has expired (R280). -/
  timerAt : Nat := 0
  expired : Bool := false
  deriving DecidableEq, Repr

/-- When the field-book writer last worked: the ECLK in which it took a record (R451), in which a record was last
accepted into the staging buffer, and the data plane's last, and the MCLK period of the management plane's last (R16,
R17). -/
structure RecClock where
  takenAt : Option Nat := none
  recAt : Option Nat := none
  dataAt : Option Nat := none
  mgtAt : Option Nat := none
  deriving DecidableEq, Repr

/-! ### Request inputs and event outputs (07_request_inputs) -/

structure Inp where
  filt : BitVec 4 := 0
  mode : BitVec 3 := 0
  book : Nat := 0
  ovrec : Bool := true
  qrec : Bool := true
  depth : W16 := 0
  ovf : Bool := false
  level : Bool := false
  ovrcnt : W16 := 0
  /-- The comparator reports its output valid (R185). -/
  valid : Bool := false
  /-- The pin's last sample, the two stages of the synchroniser that follows it, the level of the last synchronised samples and how many of
  them in a row had it, 16 at most, and the QCLK edges taken in (R179, R180). -/
  pin : Bool := false
  sync1 : Bool := false
  sync2 : Bool := false
  runN : Nat := 16
  edges : Nat := 0
  deriving DecidableEq, Repr

structure Evo where
  width : BitVec 4 := 1
  mode : BitVec 2 := 0
  pol : Bool := false
  /-- The output is active (before POL). -/
  active : Bool := false
  merged : Bool := false
  count : W16 := 0
  /-- The last ECLK of the latest pulse, and the ECLK of the last event (R198, R199). -/
  endAt : Option Nat := none
  lastAt : Option Nat := none
  deriving DecidableEq, Repr

/-! ### Stream queues (11_stream_queues) -/

/-- An item on the consumer side: in a head register or to be read from its page; `hg` is the page and slot of
its half-group, none when it came directly from the tail (R292). -/
structure QItem where
  it : Item
  inReg : Bool
  hg : Option (Nat × Nat)
  /-- Its place in its half-group. -/
  ix : Nat := 0
  deriving DecidableEq, Repr

/-- A half-group in the middle: its page, slot and its items' flags (R283). -/
structure HalfGroup where
  page : Nat
  slot : Nat
  flags : List (Bool × Bool)
  deriving DecidableEq, Repr

/-- A page of a queue's middle: how many slots are written, and how many half-groups are released (R284). -/
structure Page where
  num : Nat
  written : Nat
  released : Nat
  deriving DecidableEq, Repr

/-- A spill movement under way. -/
inductive Move where
  | none
  /-- The page of the free list is being read; then the half-group of n items goes out. -/
  | alloc (n : Nat)
  /-- The half-group of n items: data writes still to be accepted. -/
  | write (n page slot left : Nat)
  | header (n page slot : Nat)
  /-- Reads of a half-group: the data blocks and the flag byte that have come, whether one was poisoned or failed, and the
  reads still to come. -/
  | read (page slot : Nat) (d0 d1 : Option W128) (hdr : Option Nat) (poison : Bool) (left : Nat)
  deriving DecidableEq, Repr

structure Queue where
  en : Bool := false
  cls : Nat := 7
  book : Nat := 0
  recEn : Bool := true
  thru : Bool := true
  maxpg : Nat := 0
  cut : W16 := 0
  markv : Bool := false
  allocf : Bool := false
  sperr : Bool := false
  par : Bool := false
  ovr : Bool := false
  forced : Bool := false
  nomark : Bool := false
  idle : W64 := 0
  pmask : W16 := 0
  cmask : W16 := 0
  popf : BitVec 4 := 0
  tail : List Item := []
  mid : List HalfGroup := []
  head : List QItem := []
  held : List QItem := []
  pages : List Page := []
  /-- Items placed of the open packet, and how many of them are deliverable (R289, R290). -/
  openN : Nat := 0
  openDel : Nat := 0
  /-- Items of the host push port that wait for their ECLK (R288). -/
  hostIn : List (W64 × Bool) := []
  /-- The ECLK of the last CFG.RESET (R299). -/
  resetAt : Option Nat := none
  wrMove : Move := .none
  rdMove : Move := .none
  /-- The ECLK of the last item placed (R282), and those in which an item was last placed, taken, or moved from tail to
  head: one of each in an ECLK (R282, R288). -/
  lastPut : Nat := 0
  inAt : Option Nat := none
  outAt : Option Nat := none
  moveAt : Option Nat := none
  deriving DecidableEq, Repr

structure Spill where
  base : BitVec 22 := 0
  pages : Nat := 0
  inuse : Nat := 0
  hwm : Nat := 0
  fails : W32 := 0
  /-- The free list: its head page and its length; the rest stands in the pages themselves (R284). -/
  freeHead : Nat := 0
  freeN : Nat := 0
  /-- The lowest page not used since the base was written. -/
  fresh : Nat := 0
  /-- A read of the free list's head page is under way; the queue and page of each page freed since it began. -/
  reading : Bool := false
  late : List (Nat × Nat) := []
  deriving DecidableEq, Repr

/-! ### The Atlas (12_atlas) -/

inductive CommitPhase where
  | idle
  | prep (gridrst : BitVec 4) (since : Nat)
  /-- Copy-in; the last word was written, or the switch was, in that ECLK. -/
  | copying (last : Nat)
  deriving DecidableEq, Repr

/-- An entry of a sheet cache: a sheet, or the gap that lies after that many valid sheets (R311). -/
inductive CacheEnt where
  | sheet (n : Nat)
  | gap (n : Nat)
  deriving DecidableEq, Repr

structure Atlas where
  sheets : Tbl W64 := []
  /-- Grid words, key 32,768 × bank + word; a word not listed is uninitialised (R307). -/
  grid : Tbl W64 := []
  trust : Tbl W64 := []
  colours : Tbl W64 := []
  uncov : W32 := 0x80008000
  uncovStg : W32 := 0x80008000
  win : W64 := 0
  winStg : W64 := 0
  gdef : BitVec 4 := 0
  gdefStg : BitVec 4 := 0
  /-- The staging buffer, keyed by the word's number in the table window (R313). -/
  staging : Tbl W64 := []
  /-- The staged words whose parity is bad (R314, code 3). -/
  stgBad : List Nat := []
  phase : CommitPhase := .idle
  drained : Bool := true
  /-- The ECLK of the last switch. -/
  switchAt : Nat := 0
  code : BitVec 3 := 0
  index : Nat := 0
  epoch : W32 := 0
  stgrej : Bool := false
  stgerr : Bool := false
  cmdlost : Bool := false
  dbgden : Bool := false
  ruleerr : Bool := false
  book : Nat := 0
  recEn : Bool := true
  dbgRec : Bool := true
  vaddr : W32 := 0
  vinfo : W64 := 0
  vtime : W64 := 0
  vcnt : W32 := 0
  dbgcnt : W32 := 0
  /-- The violation at the lowest check point of the last ECLK that had one: the ECLK, the check point, the address
  and its VINFO; and the ECLK of the last capture (R319). -/
  viol : Option (Nat × Nat × W32 × W64) := none
  capAt : Option Nat := none
  /-- The sheet caches of the 11 check points, most recently used first, each entry with the ECLK from which it
  answers (R311). -/
  caches : Tbl (List (CacheEnt × Nat)) := []
  /-- Words of internal stores that hold an uncorrectable error, and those that hold a correctable one: (store of R270,
  word) (R340). -/
  bad : List (Nat × Nat) := []
  soft : List (Nat × Nat) := []
  /-- Grid banks whose contents a self-test left undefined (R423). -/
  gridUndef : List Nat := []
  deriving DecidableEq, Repr

/-! ### The global halt, error classes and fences (13_stopping_faults) -/

structure Halt where
  /-- STE_HALT_STAT.STATE: 0 running, 1 halted, 2 held. -/
  st : BitVec 2 := 0
  why : BitVec 2 := 0
  count : W16 := 0
  addr : W32 := 0
  colour : Nat := 0
  /-- ECLK E (R334). -/
  entry : Nat := 0
  issueStop : Bool := false
  retryOut : Bool := false
  /-- How the retry ended, and in which ECLK: true = succeeded, and true = by its time limit. -/
  ended : Option (Bool × Bool × Nat) := none
  decided : Option Nat := none
  rtmo : Nat := 200
  hbook : Nat := 7
  hrec : Bool := true
  deriving DecidableEq, Repr

structure ErrClass where
  window : Nat := 1000
  thresh : W16 := 16
  fence : Bool := false
  count : W16 := 0
  lasting : Bool := false
  lastcnt : W16 := 0
  total : W16 := 0
  /-- MCLK period at which the window began. -/
  from_ : Nat := 0
  /-- MCLK period of the error that made the cause lasting, and its count, until LASTING_FAULT acts. -/
  lastPend : Option (Nat × Nat) := none
  /-- The hardware fence is still to be applied (R448). -/
  fencePend : Bool := false
  deriving DecidableEq, Repr

structure Fences where
  lane : W8 := 0
  link : BitVec 4 := 0
  grid : BitVec 4 := 0
  gmode : BitVec 4 := 0
  /-- The fences as grants, routes and lookups see them: those set by the end of the last MCLK period (R346). -/
  onLane : W8 := 0
  onLink : BitVec 4 := 0
  onGrid : BitVec 4 := 0
  /-- MCLK period of the last host write of STE_FENCE (R448). -/
  hostAt : Option Nat := none
  /-- Grid fences set in MCLK period gridAt (R448). -/
  gridSet : BitVec 4 := 0
  gridAt : Option Nat := none
  deriving DecidableEq, Repr

/-! ### The Bruhus fabric (14_bruhus_fabric) -/

inductive LinkWord where
  | idle
  | train
  | skip
  | ack (lseq : BitVec 8)
  | nak (lseq : BitVec 8)
  | credit (rt : Bool) (flits : Nat)
  | ident (id : BitVec 12) (idv : Bool)
  deriving DecidableEq, Repr

/-- A frame at a port's transmitter: the port it came by, none for a frame of this node or one whose sender sends it again,
whether it goes out stomped (R357), and the RCLK period in which a synchronisation frame's K27.7 leaves (R370). -/
structure TxF where
  f : Frame
  arr : Option Nat
  own : Bool
  stomp : Bool := false
  rclk : Nat := 0
  deriving DecidableEq, Repr

structure LinkPort where
  en : Bool := false
  up : Bool := false
  nbrv : Bool := false
  nbr : BitVec 12 := 0
  asym : W16 := 0
  naks : W16 := 0
  replays : W16 := 0
  downs : W16 := 0
  lost : W16 := 0
  txLseq : BitVec 8 := 0
  rxLseq : BitVec 8 := 0
  /-- A CRC failure was answered by a NAK, and frames are discarded until that LSEQ arrives (R351). -/
  rxWait : Bool := false
  creditRt : Nat := 0
  creditBulk : Nat := 0
  /-- Frames that wait for the port, by class. -/
  txRt : List TxF := []
  txBulk : List TxF := []
  /-- Frames sent and not acknowledged, oldest first (R351). -/
  replay : List TxF := []
  /-- Those of them that are to be sent again (R351). -/
  again : List TxF := []
  /-- Replays of the oldest frame without progress. -/
  replayCnt : Nat := 0
  /-- Link words owed, the last word sent, the first character of what was last sent, and the bytes of the last frame
  (R348, R352). -/
  owed : List LinkWord := []
  lastWord : Option LinkWord := none
  lastChar : W8 := 0
  lastFrame : List W8 := []
  skipAt : Nat := 0
  identAt : Nat := 0
  /-- Real-time flits since the port last sent anything else (R355). -/
  rtRun : Nat := 0
  /-- STE_LINK_TX's byte in force at the transmitter (R409). -/
  txForce : W8 := 0x06
  deriving DecidableEq, Repr

/-- An outbound access that holds a fabric tag (R215, R328). -/
structure FOut where
  ftag : Nat
  owner : Owner
  wr : Bool
  addr : GAddr
  units : List BlkAcc
  rt : Bool
  at_ : Nat
  ch : Option (Nat × Nat × Nat)
  bno : Nat := 0
  orphan : Bool
  elided : Bool
  deriving DecidableEq, Repr

/-- An inbound access under way (R363). -/
structure InAcc where
  id : Nat
  src : BitVec 12
  tag : BitVec 14
  addr : W32
  rt : Bool
  wr : Bool
  at_ : Nat
  port : Nat
  left : Nat
  fail : Option (Nat × Nat × Nat)
  data : W128
  pois : Bool
  answered : Bool
  deriving DecidableEq, Repr

/-- A node in the root's map (R366). -/
structure MapEnt where
  uid : W64
  path : List Nat
  arr : Nat
  want : BitVec 12
  wantLost : Bool
  ports : List PortInfo
  deriving DecidableEq, Repr

/-- One visit of the survey's depth-first walk (R365): the node's path, its ID, the next port to look at. -/
structure Visit where
  id : Nat
  path : List Nat
  next : Nat
  deriving DecidableEq, Repr

structure Survey where
  busy : Bool := false
  code : BitVec 2 := 0
  mapbase : BitVec 27 := 0
  stack : List Visit := []
  /-- The path of the query that waits for its SVR, and since when. -/
  await : Option (List Nat) := none
  awaitAt : Nat := 0
  /-- A join is handled (node-joined records are offered), or a leave (the entry named). -/
  joining : Bool := false
  leaving : Option Nat := none
  /-- NOTEs that wait for what runs now: leave, the sender, its port, the neighbour (log entry 24). -/
  notes : List (Bool × Nat × Nat × Nat) := []
  deriving DecidableEq, Repr

structure RouteLoad where
  /-- The number of the load. -/
  no : Nat := 0
  node : BitVec 12 := 0
  image : BitVec 27 := 0
  busy : Bool := false
  code : BitVec 2 := 0
  /-- NODE and IMAGE as they stood when the load began (log entry 20). -/
  toNode : BitVec 12 := 0
  from_ : BitVec 27 := 0
  /-- Blocks of the image still to come, the entries read, the next frame, and since when an answer is awaited. -/
  reads : Nat := 0
  got : Tbl W128 := []
  frame : Nat := 0
  sentAt : Option Nat := none
  deriving DecidableEq, Repr

structure Fab where
  en : Bool := false
  root : Bool := false
  rtcls : Nat := 0
  book : Nat := 0
  recEn : Bool := true
  rlacc : Bool := true
  auto : Bool := true
  id : BitVec 12 := 0
  idv : Bool := false
  want : BitVec 12 := 0
  wantv : Bool := false
  nodes : Nat := 0
  noroute : Bool := false
  evref : Bool := false
  ttlx : Bool := false
  badkind : Bool := false
  refused : W32 := 0
  evcol : W16 := 0
  even : Tbl W64 := []
  routes : Tbl W32 := []
  ports : Tbl LinkPort := []
  out : List FOut := []
  inb : List InAcc := []
  nextId : Nat := 0
  /-- READY.SURVEY (R402). -/
  surveyed : Bool := false
  /-- The map: entry n is node n. -/
  map : Tbl (Option MapEnt) := []
  survey : Survey := {}
  load : RouteLoad := {}
  deriving DecidableEq, Repr

structure FabSync where
  tref : BitVec 12 := 0
  en : Bool := false
  per : Nat := 1000
  lockn : Nat := 4
  pport : Nat := 0
  lock : Bool := false
  good : Nat := 0
  fails : Nat := 0
  delay : W16 := 0
  exch : W32 := 0
  /-- An exchange under way: t1, taken when its SYNQ is queued and again when it leaves, and the ECLK of its start; the ECLK
  of the last exchange. -/
  t1 : Option W64 := none
  t1At : Nat := 0
  lastAt : Nat := 0
  deriving DecidableEq, Repr

/-! ### Power domains, flash, debug (15_boundary) -/

structure Power where
  pgood : W16 := 0xFFFF
  pdreq : W16 := 0
  /-- Request windows open (STE_PD_STAT.REQ). -/
  window : W16 := 0
  pdack : W16 := 0
  pdnak : W16 := 0
  nakd : W16 := 0
  inbdn : Bool := false
  /-- Down since a PDACK, a loss of PGOOD or a reset, until the return (R377, R452). -/
  down : W16 := 0
  /-- The return owes a domain-returned record (R382). -/
  owes : W16 := 0
  openAt : Tbl Nat := []
  book : Nat := 0
  recEn : Bool := true
  settle : Nat := 64
  /-- Channels with VETO = 1 at the rise of PDREQ, by domain (R40). -/
  vets : Tbl (List Nat) := []
  /-- A vetoing channel that entered HELD in a window: (domain, channel, address, ECLK) (R379). -/
  vetoes : List (Nat × Nat × GAddr × Nat) := []
  /-- When PDNAK was last asserted, by domain (R377). -/
  nakAt : Tbl Nat := []
  /-- Domains that are up again, with the ECLK in which their channels go on, and whether a record is owed (R382). -/
  back : List (Nat × Nat × Bool) := []
  deriving DecidableEq, Repr

structure Flash where
  busy : BitVec 4 := 0
  tmo : Nat := 50000
  tmocnt : W16 := 0
  buserr : W16 := 0
  deriving DecidableEq, Repr

/-- A debug access in the path (R391): its response once known. -/
structure DbgAcc where
  id : Nat
  wr : Bool
  addr : W32
  size : Nat
  resp : Option (W128 × Bool × Bool)
  deriving DecidableEq, Repr

structure Dbg where
  /-- The level last sampled, and the one R317 applies. -/
  unlock : Bool := false
  prev : Bool := false
  changedAt : Nat := 0
  path : List DbgAcc := []
  acc : W32 := 0
  nextId : Nat := 0
  /-- The last response returned: data, error, poison. -/
  last : Option (W128 × Bool × Bool) := none
  deriving DecidableEq, Repr

/-! ### The global page, resets and the management plane (16_bringup_clocks, 17_management) -/

/-- Where an engine reset stands (R398). -/
inductive ResetPhase where
  | running
  /-- Steps 1 to 3: accepted in that ECLK. -/
  | stopping (a : Nat)
  /-- Step 4: the tag wait ended in that ECLK. -/
  | internal (t : Nat)
  deriving DecidableEq, Repr

structure Glob where
  cause : BitVec 2 := 0
  tagtmo : Bool := false
  warmcnt : W16 := 0
  engcnt : W16 := 0
  phase : ResetPhase := .running
  cgen : Bool := true
  readyCtx : Bool := false
  readyGrid : Bool := false
  readyGrat : Bool := false
  readySlot : W64 := 0
  linkTx : W32 := 0x06060606
  fmin : BitVec 4 := 0
  swdis : Bool := false
  hardLock : Bool := false
  rmask : W8 := 0
  rcls : Nat := 0
  lochw : Nat := 0
  fabhw : Nat := 0
  swaps : W32 := 0
  /-- The time since the top of the spread profile, in 2^-32 ns (R407). -/
  profile : Nat := 0
  /-- The ECLK in which the last page transfer ended. -/
  pagerEnd : Option Nat := none
  depth : BitVec 2 := 0
  /-- A depth that waits for the top of the profile (R407). -/
  depthNew : Option (BitVec 2) := none
  deriving DecidableEq, Repr

structure Scrub where
  /-- The next codeword, the passes done and the corrected errors of this pass, by store. -/
  pos : Tbl Nat := []
  pass : Tbl Nat := []
  fixed : Tbl Nat := []
  /-- MCLK period before which no step may be taken, by scrub port, and the ECLK since which a read has waited, by
  store (R414, R415). -/
  nextAt : Tbl Nat := []
  waitFrom : Tbl Nat := []
  gap : Nat := 1
  passRec : Bool := false
  dis : BitVec 20 := 0
  passes : W32 := 0
  forced : W16 := 0
  deriving DecidableEq, Repr

structure SelfTest where
  target : BitVec 5 := 0
  /-- The unit under test: TARGET as it stood when the test began. -/
  unit : BitVec 5 := 0
  /-- The test is a March test of a fenced bank (R423). -/
  march : Bool := false
  busy : Bool := false
  code : BitVec 3 := 0
  cmdlost : Bool := false
  res : W64 := 0
  /-- The fence of the lane under test is to be lifted once the test has stopped (R424). -/
  liftPend : Bool := false
  deriving DecidableEq, Repr

structure Tele where
  snapv : Bool := false
  ch : Nat := 0
  per : Nat := 0
  /-- A snapshot is requested, and the MCLK period of the request. -/
  pend : Option Nat := none
  periodAt : Nat := 0
  stamp : W64 := 0
  energy : W64 := 0
  bytes : W64 := 0
  chEnergy : Nat := 0
  chBytes : W64 := 0
  laneBusy : Tbl W32 := []
  /-- The block counters: energy in 1/16 pJ, bytes (R421). -/
  blkEnergy16 : Nat := 0
  blkBytes : W64 := 0
  deriving DecidableEq, Repr

structure Mgt where
  book : Nat := 7
  corrRec : Bool := true
  testRec : Bool := true
  rdrop : Bool := false
  scrub : Scrub := {}
  test : SelfTest := {}
  tele : Tele := {}
  deriving DecidableEq, Repr

/-- The response to the last host or debug access at the target port: data and error. -/
structure HostResp where
  data : W64 := 0
  err : Bool := false
  deriving DecidableEq, Repr

structure HostPort where
  resp : HostResp := {}
  dbgResp : HostResp := {}
  /-- Snapshots and held low words, keyed by initiator and word (R5, R443). -/
  snaps : Tbl (Option W32) := []
  lows : Tbl (Option W32) := []
  /-- Accesses that the port has not yet accepted (R405, R441). -/
  early : List Instr := []
  /-- The ECLK in which it last accepted one (R441). -/
  lastAt : Option Nat := none
  /-- A write to the management page that has not taken effect, and the ECLK from which the port accepts the next access to that
  page (R412, R441). -/
  mgtWait : Option Instr := none
  mgtFrom : Nat := 0
  deriving DecidableEq, Repr

/-- A range of local addresses that the device wires to a number (a power domain, a flash bank, an SRAM
cluster). -/
structure Region where
  base : Nat
  size : Nat
  num : Nat
  deriving DecidableEq, Repr

/-- How an input is wired (R195, fields marked Wired). -/
structure Wiring where
  qual : Bool := false
  domv : Bool := false
  dom : Nat := 0
  deriving DecidableEq, Repr

/-- What the ZR7 device fixes around the engine; no command changes it. -/
structure Straps where
  steBase : W32 := 0
  tableBase : W32 := 0x00200000
  uid : W64 := 0
  domains : List Region := []
  flash : List Region := []
  clusters : List Region := []
  inputs : Tbl Wiring := []
  deriving DecidableEq, Repr

/-- An error that comes into a codeword of store `store` in ECLK `at_` (R270; 20 is the Atlas's staging buffer; in store 19,
word 16q + i is tail register i of queue q, and word 16q + 8 + i its head register i) (log entry 46). -/
structure Upset where
  at_ : Nat
  store : Nat
  word : Nat
  /-- It can be corrected. -/
  soft : Bool
  deriving DecidableEq, Repr

/-- What hardware did in the present ECLK to bits and counters that a write clears: each key is a register offset
times 64 and a bit, with the ECLK of the last event plus one, and with the count of events in it (R9, R447). -/
structure Marks where
  set : Tbl Nat := []
  cnt : Tbl (Nat × Nat) := []
  deriving DecidableEq, Repr

/-- The engine. -/
structure State where
  pending : List Instr
  /-- ECLK since reset release. -/
  eclk : Nat
  ctxs : Tbl Ctx
  legends : Tbl W32
  slots : Tbl SlotUse
  swap : Option Swap
  /-- Channels whose SIGNAL hands over its remote event, and the ECLK from which (R125). -/
  remotes : List (Nat × Nat)
  /-- Control writes that act at the end of the ECLK, or once a page transfer is done (R57, R333, R444). -/
  ctl : List (Nat × CtlWrite)
  rr : Tbl Nat
  lcache : List CLine
  fetches : List Fetch
  lanes : Tbl LaneSt
  offered : List Acc
  outst : List Acc
  nextTag : Nat
  mer : Mer
  /-- Meridian as it stood before the first correction of an ECLK, with that ECLK and the records of it then held: a change of
  SRC in that ECLK discards the correction (R241). -/
  merWas : Option (Nat × Mer × List HeldRec)
  grat : Grat
  books : Tbl Book
  staged : List Rec
  heldRecs : List HeldRec
  recClk : RecClock
  inputs : Tbl Inp
  /-- Requests that have come to an input, and the ECLK at whose end they are counted (R178, R189). -/
  arrivals : List (Nat × Nat)
  evos : Tbl Evo
  queues : Tbl Queue
  spill : Spill
  atlas : Atlas
  halt : Halt
  errs : Tbl ErrClass
  fences : Fences
  fab : Fab
  sync : FabSync
  power : Power
  flash : Flash
  dbg : Dbg
  glob : Glob
  mgt : Mgt
  port : HostPort
  straps : Straps
  /-- Errors that the environment brings into the internal stores (R340). -/
  upsets : List Upset
  marks : Marks
  /-- The model's own counter of free values (log entries 10 and 16): no statement rests on it. -/
  free : Nat
  deriving DecidableEq, Repr

/-- Why a step stops. -/
inductive Fault where
  /-- Raised by a command whose operands are of no form the spec gives (a WR frame of more than 8 units, an RL
  frame without 64 entries, a debug access of no permitted size or alignment).  Safe: no such command exists. -/
  | malformed
  deriving DecidableEq, Repr

/-- Why a command is refused. -/
inductive Refusal where
  /-- Raised by exec's arm of a command that has no meaning yet.  Safe: nothing is claimed of it. -/
  | notModelled (mnemonic : String)
  deriving DecidableEq, Repr

/-- The engine right after a cold reset (R396, R397, R404): every store uninitialised, every register at the
reset value its table gives; the values the spec leaves to the device are those of log entries 3, 13 and 14. -/
def State.reset : State where
  pending := []
  eclk := 0
  ctxs := []
  legends := []
  slots := []
  swap := none
  remotes := []
  ctl := []
  rr := []
  lcache := []
  fetches := []
  lanes := []
  offered := []
  outst := []
  nextTag := 0
  mer := {}
  merWas := none
  grat := {}
  books := []
  staged := []
  heldRecs := []
  recClk := {}
  inputs := []
  arrivals := []
  evos := []
  queues := []
  spill := {}
  atlas := {}
  halt := {}
  errs := []
  fences := {}
  fab := {}
  sync := {}
  power := {}
  flash := {}
  dbg := {}
  glob := {}
  mgt := {}
  port := {}
  straps := {}
  upsets := []
  marks := {}
  free := 0

end Sys2Proof.Machine
end

