-- ==== Sys2Proof/Machine/Ops.lean ====
section
/-! DEFINITION. The named operations over the registers: channels and legends, records, errors, event outputs,
requests, Meridian, and the address maps. -/

namespace Sys2Proof.Machine

/-! ### An engine reset under way (R398) -/

def inReset (s : State) : Bool := !decide (s.glob.phase = .running)
/-- Legs begin, bursts are granted and accesses issue: not from ECLK a + 4 of an engine reset. -/
def running (s : State) : Bool :=
  match s.glob.phase with
  | .running => true
  | .stopping a => decide (s.eclk < a + 4)
  | .internal _ => false
/-- From ECLK a + 1: outputs and links stand still, no request is counted and no record is issued. -/
def quiet (s : State) : Bool :=
  match s.glob.phase with
  | .running => false
  | .stopping a => decide (a < s.eclk)
  | .internal _ => true

/-! ### Channels and legends -/

def ctx (s : State) (c : Nat) : Ctx := tget {} s.ctxs c
def setCtx (s : State) (c : Nat) (x : Ctx) : State := { s with ctxs := tset {} s.ctxs c x }
def modR (c : Nat) (f : CtxRegs → CtxRegs) (s : State) : State := setCtx s c { ctx s c with r := f (ctx s c).r }
def modW (c : Nat) (f : Work → Work) (s : State) : State := setCtx s c { ctx s c with w := f (ctx s c).w }

/-- CLASS 7 and AFFINITY 0xFF; every other field 0 (R38). -/
def legendReset : W32 := 0x000FF070
def legend (s : State) (c : Nat) : W32 := tget legendReset s.legends c
def legColour (s : State) (c : Nat) : Nat := fld (legend s c) 3 0
def legClass (s : State) (c : Nat) : Nat := fld (legend s c) 6 4
def legPin (s : State) (c : Nat) : Bool := bit (legend s c) 7
def legVeto (s : State) (c : Nat) : Bool := bit (legend s c) 8
def legBook (s : State) (c : Nat) : Nat := fld (legend s c) 11 9
def legAff (s : State) (c : Nat) : Nat := fld (legend s c) 19 12
def legReq (s : State) (c : Nat) : Nat := fld (legend s c) 28 20
def legReqen (s : State) (c : Nat) : Bool := bit (legend s c) 29

def pinnedCount (s : State) : Nat := (s.legends.filter (fun e => bit e.2 7)).length

/-- Channels bound to input n (R188), in ascending number. -/
def boundTo (s : State) (n : Nat) : List Nat :=
  (s.legends.filter (fun e => bit e.2 29 && fld e.2 28 20 == n)).map (·.1)

/-- The legend as CH_LEGEND's write leaves it (R38, R39): a COLOUR of 14 or 15 is ignored, and PIN stays 0 when
32 channels are pinned. -/
def legendWritten (s : State) (c : Nat) (v : W32) : W32 :=
  let old := legend s c
  let v1 := v &&& 0x3FFFFFFF
  let v2 := if fld v1 3 0 ≥ 14 then (v1 &&& 0xFFFFFFF0) ||| (old &&& 0xF) else v1
  if bit v2 7 && !bit old 7 && decide (32 ≤ pinnedCount s) then v2 &&& 0xFFFFFF7F else v2

/-- The channel is in a page transfer, or chosen for one (R57, R221). -/
def inSwap (s : State) (c : Nat) : Bool :=
  match s.swap with
  | some w => w.inCh == some c || w.outCh == some c
  | none => false
/-- Its context is being moved. -/
def inTransfer (s : State) (c : Nat) : Bool := inSwap s c && (match s.swap with | some w => w.doneAt.isSome | none => false)

def resident (s : State) (c : Nat) : Bool := (ctx s c).r.slot.isSome

/-- Flag word of CH_STATUS (R46): Z lowest. -/
def flagWord (f : Flags) : Nat :=
  bool f.z + 2 * bool f.n + 4 * bool f.s + 8 * bool f.m + 16 * bool f.i + 32 * bool f.p + 64 * bool f.d

def stateCode : ChState → Nat
  | .off => 0 | .active => 1 | .wait => 2 | .parked => 3 | .paused => 4 | .draining => 5 | .held => 6
  | .fault => 7 | .halted => 8

def waitCode : WaitReason → Nat
  | .none => 0 | .request => 1 | .time => 2 | .queue => 3 | .barrier => 4 | .flashBusy => 5 | .domain => 6
  | .queueSpace => 7

/-! ### Meridian -/

/-- The integer part (R231). -/
def merInt (s : State) : Nat := s.mer.now / 2 ^ 32
def merWord (s : State) : W64 := BitVec.ofNat 64 (merInt s)
def mclk (s : State) : Nat := s.eclk / 4

/-! ### Records (R16 to R18, R268 to R271) -/

def isPlane (p : Plane) (h : HeldRec) : Bool := decide (h.plane = p)

/-- What hardware does to a bit or a counter that a write clears (R9, R447). -/
def w1cKey (off bit : Nat) : Nat := 64 * off + bit
def markSet (k : Nat) (s : State) : State := { s with marks := { s.marks with set := tset 0 s.marks.set k (s.eclk + 1) } }
def markCount (k : Nat) (s : State) : State :=
  let old := tget (0, 0) s.marks.cnt k
  { s with marks := { s.marks with cnt := tset (0, 0) s.marks.cnt k (s.eclk + 1, if old.1 = s.eclk + 1 then old.2 + 1 else 1) } }
/-- Hardware has set the bit in this ECLK; for a register of the management page, in this MCLK period. -/
def setNow (s : State) (k : Nat) : Bool := decide (tget 0 s.marks.set k = s.eclk + 1)
def setThisMclk (s : State) (k : Nat) : Bool :=
  decide (0 < tget 0 s.marks.set k) && decide ((tget 0 s.marks.set k - 1) / 4 = mclk s)
/-- Events counted in this ECLK, which stay counted when the counter is cleared in it. -/
def countNow (s : State) (k : Nat) : Nat :=
  let old := tget (0, 0) s.marks.cnt k
  if old.1 = s.eclk + 1 then old.2 else 0
/-- A W1C bit as a write leaves it: hardware's set in the same cycle wins. -/
def w1c (fresh wr old : Bool) : Bool := old && (!wr || fresh)

/-- A plane may have a record accepted in this ECLK: the writer accepts one per ECLK, the management plane offers one
per MCLK period, and the data plane one per 2 ECLK (R16, R17). -/
def planeDue (p : Plane) (s : State) : Bool :=
  !decide (s.recClk.recAt = some s.eclk) &&
  (match p with
   | .mgt => !decide (s.recClk.mgtAt = some (mclk s))
   | .data => (match s.recClk.dataAt with | some t => decide (t + 2 ≤ s.eclk) | none => true)
   | .ctl => true)

/-- The writer accepts a record into its staging buffer (R16). -/
def accept (p : Plane) (r : Rec) (s : State) : State :=
  { s with staged := s.staged ++ [r],
           recClk := { s.recClk with recAt := some s.eclk, mgtAt := if p = .mgt then some (mclk s) else s.recClk.mgtAt,
                                     dataAt := if p = .data then some s.eclk else s.recClk.dataAt } }

/-- The place of a channel's record among those that the control plane first offers in one ECLK (R265): burst returns
by lane, then single-access returns and legs by channel; every other record follows (log entry 12). -/
def recKey (s : State) (own : Option Nat) : Nat :=
  match own with
  | some c => (match (ctx s c).w.ret with | some l => l | none => 8 + c)
  | none => 2048

/-- Records that plane p first offered in ECLK t and that go after place k. -/
def goesAfter (p : Plane) (t k : Nat) (h : HeldRec) : Bool := decide (h.plane = p) && decide (h.at_ = t) && decide (k < h.key)

/-- A plane offers a record, which the writer accepts at the end of this ECLK or of a later one; a record offered again
keeps its values (R16 to R18).  The management plane queues 16 behind its output, and drops more (R413). -/
def offer (p : Plane) (own : Option Nat) (r : Rec) (s : State) : State :=
  if decide (p = .mgt) && decide (17 ≤ (s.heldRecs.filter (isPlane .mgt)).length) then
    markSet (w1cKey 0x7000 5) { s with mgt := { s.mgt with rdrop := true } }
  else
    let k := recKey s own
    let after := goesAfter p s.eclk k
    { s with heldRecs := s.heldRecs.filter (fun h => !after h) ++ ⟨p, r, own, s.eclk, k⟩ :: s.heldRecs.filter after }

/-- A record with the present Meridian count as its TIME (R269). -/
def mkRec (s : State) (book type_ kind num detail : Nat) (value : W64) (detail2 : Nat) : Rec :=
  { book := book, type_ := BitVec.ofNat 8 type_, kind := BitVec.ofNat 8 kind, num := num,
    detail := BitVec.ofNat 32 detail, time := merWord s, value := value, detail2 := BitVec.ofNat 31 detail2 }

def offerNow (p : Plane) (book type_ kind num detail : Nat) (value : W64) (detail2 : Nat) (s : State) : State :=
  offer p none (mkRec s book type_ kind num detail value detail2) s

/-- A channel's record, for its field book; the channel stays at its leg until it is accepted (R18). -/
def offerCh (c type_ detail : Nat) (value : W64) (detail2 : Nat) (s : State) : State :=
  offer .ctl (some c) (mkRec s (legBook s c) type_ 1 c detail value detail2) s

def heldFor (s : State) (c : Nat) : Bool := s.heldRecs.any (fun h => h.own == some c)

/-! ### Error classes (R340 to R343, R418) -/

/-- The reset value of a class: FENCE is 1 for classes 7, 9, 11, 13, the odd 23 to 37, 41, 43, 45, 47 and 49. -/
def errReset (cls : Nat) : ErrClass :=
  { fence := cls % 2 == 1 && ((7 ≤ cls && cls ≤ 13) || (23 ≤ cls && cls ≤ 37) || (41 ≤ cls)) }
def errCls (s : State) (cls : Nat) : ErrClass := tget (errReset cls) s.errs cls
def setErr (cls : Nat) (e : ErrClass) (s : State) : State := { s with errs := tset (errReset cls) s.errs cls e }

/-- KIND and NUM of unit u (R270, R341); a lane's classes report the lane (log entry 17). -/
def unitKind (u : Nat) : Nat × Nat :=
  if 11 ≤ u && u ≤ 18 then (6, u - 11) else if u ≤ 19 then (7, u) else if u ≤ 23 then (5, u - 20) else (4, 8)

/-- A class once its window has ended: COUNT is 0, and the window that holds the present began at a multiple of the
window's length (R342). -/
def windowLen (e : ErrClass) : Nat := e.window * 200000
def rolled (s : State) (e : ErrClass) : ErrClass :=
  if mclk s < e.from_ + windowLen e then e
  else { e with count := 0, from_ := mclk s - (mclk s - e.from_) % windowLen e }

/-- Count one error (R342, R419): the error that takes COUNT above THRESH makes the cause lasting. -/
def countErr (cls : Nat) (s : State) : State :=
  let e := rolled s (errCls s cls)
  let s := markCount (w1cKey (0x7100 + 16 * cls) 0) s
  let n := sat16 e.count
  let cross := decide (e.thresh.toNat < n.toNat) && decide (e.count.toNat ≤ e.thresh.toNat)
  setErr cls { e with count := n, total := sat16 e.total,
                      lastPend := if cross then some (mclk s, n.toNat) else e.lastPend } s

/-- An uncorrected error of unit u: counted, with record 0x51 while COUNT does not exceed THRESH (R343). -/
def uncorrected (u detail : Nat) (value : W64) (s : State) : State :=
  let s := countErr (2 * u + 1) s
  let e := errCls s (2 * u + 1)
  if e.count.toNat ≤ e.thresh.toNat then
    offerNow .mgt s.mgt.book 0x51 (unitKind u).1 (unitKind u).2 detail value 0 s
  else s

/-- A corrected error of unit u: counted, with record 0x50 for the first of a window (R418). -/
def corrected (u detail : Nat) (value : W64) (s : State) : State :=
  let s := countErr (2 * u) s
  if s.mgt.corrRec && decide ((errCls s (2 * u)).count = 1) then
    offerNow .mgt s.mgt.book 0x50 (unitKind u).1 (unitKind u).2 detail value (2 * u) s
  else s

/-! ### Event outputs (R196 to R200) -/

def evo (s : State) (m : Nat) : Evo := tget {} s.evos m
def setEvo (m : Nat) (e : Evo) (s : State) : State := { s with evos := tset {} s.evos m e }

/-- The output as one event in ECLK t leaves it: events of one ECLK merge, and an event during a pulse extends it
(R198, R199). -/
def evoFired (t : Nat) (e : Evo) : Evo :=
  let e := { e with count := e.count + 1 }
  let again := decide (e.lastAt = some t)
  let e := { e with lastAt := some t, merged := e.merged || again }
  if e.mode == 0 then
    { e with merged := e.merged || (match e.endAt with | some x => decide (t ≤ x) | none => false), active := true, endAt := some (t + e.width.toNat + 1) }
  else if e.mode == 1 then { e with active := if again then e.active else !e.active }
  else e

/-- The event merges with one before it. -/
def evoMerges (t : Nat) (e : Evo) : Bool :=
  decide (e.lastAt = some t) || (e.mode == 0 && (match e.endAt with | some x => decide (t ≤ x) | none => false))

def fireEvo (m : Nat) (s : State) : State :=
  if quiet s then s
  else
    let s' := setEvo m (evoFired s.eclk (evo s m)) s
    if evoMerges s.eclk (evo s m) then markSet (w1cKey (0x2000 + 4 * m) 9) s' else s'

/-! ### Request inputs (R188 to R193) -/

def inp (s : State) (n : Nat) : Inp := tget {} s.inputs n
def setInp (n : Nat) (i : Inp) (s : State) : State := { s with inputs := tset {} s.inputs n i }
def wiring (s : State) (n : Nat) : Wiring := tget {} s.straps.inputs n

def levelMode (i : Inp) : Bool := i.mode == 4 || i.mode == 5
/-- The level at which the filter output is active in the level modes. -/
def atActive (i : Inp) : Bool := if i.mode == 4 then i.level else if i.mode == 5 then !i.level else false
/-- The mode's inactive level, where it has one (R181). -/
def inactiveLevel (mode : BitVec 3) : Option Bool :=
  if mode == 1 || mode == 4 then some false else if mode == 2 || mode == 5 then some true else none
/-- The filter length in force (R180, R408). -/
def filterLen (s : State) (n : Nat) : Nat := max (inp s n).filt.toNat s.glob.fmin.toNat

/-- Channels whose state counts requests (R188). -/
def countsRequests (st : ChState) : Bool :=
  match st with
  | .off | .draining | .fault => false
  | _ => true

/-- The power domain of the input's source lets it qualify (R185). -/
def sourcePowered (s : State) (n : Nat) : Bool :=
  let w := wiring s n
  !w.domv || (bit s.power.pgood w.dom && !bit s.power.down w.dom)
/-- STE_REQIN.QOK (R185, R195): from 2 ECLK after release on. -/
def qok (s : State) (n : Nat) : Bool := decide (2 ≤ s.eclk) && (!(wiring s n).qual || (inp s n).valid) && sourcePowered s n

/-- A bound channel's level request (R192). -/
def levelReq (s : State) (c : Nat) : Bool :=
  let i := inp s (legReq s c)
  legReqen s c && levelMode i && atActive i && qok s (legReq s c) && (ctx s c).w.armed && countsRequests (ctx s c).r.state

/-- The pending count as software and the legs see it (R189, R192, R430). -/
def pendOf (s : State) (c : Nat) : Nat :=
  if legReqen s c && levelMode (inp s (legReq s c)) then bool (levelReq s c) else (ctx s c).r.pend

/-- Consume n requests: the count falls, or the level request is consumed and the channel disarmed (R189, R192). -/
def consume (c n : Nat) (s : State) : State :=
  if legReqen s c && levelMode (inp s (legReq s c)) then modW c (fun w => { w with armed := false, rearmAt := none, consNo := none }) s
  else modR c (fun r => { r with pend := r.pend - n }) s

/-- An overrun of input n, dropped first by channel c (R190). -/
def overrun (n c : Nat) (s : State) : State :=
  let i := inp s n
  let i' := { i with ovrcnt := sat16 i.ovrcnt, ovf := true }
  let s := markCount (w1cKey (0x1000 + 8 * n) 48) (markSet (w1cKey (0x1000 + 8 * n) 32) (setInp n i' s))
  if !i.ovf && i.ovrec then
    offerNow .ctl i.book 0x58 2 n c (BitVec.setWidth 64 i'.ovrcnt) 0 s
  else s

/-- One request on input n is counted (R188 to R190, R193). -/
def countOne (n : Nat) (s : State) : State :=
  let i := inp s n
  let live := (boundTo s n).filter (fun c => countsRequests (ctx s c).r.state)
  let full := live.filter (fun c => levelMode i || decide (i.depth.toNat + 1 ≤ (ctx s c).r.pend))
  let room := live.filter (fun c => !levelMode i && decide ((ctx s c).r.pend < i.depth.toNat + 1))
  let s := room.foldl (fun s c => modR c (fun r => { r with pend := r.pend + 1 }) s) s
  match full with
  | [] => s
  | c :: _ => overrun n c s

/-- A request comes to input n, in ECLK t or, `later`, in the one after it; it is counted at the end of its ECLK (R178,
R189). -/
def request (n : Nat) (later : Bool) (s : State) : State :=
  if quiet s then s else { s with arrivals := s.arrivals ++ [(n, s.eclk + bool later)] }

/-- The requests of this ECLK are counted, after what was consumed in it (R189). -/
def countArrivals (s : State) : State :=
  let due := s.arrivals.filter (fun a => decide (a.2 ≤ s.eclk))
  due.foldl (fun s a => countOne a.1 s) { s with arrivals := s.arrivals.filter (fun a => !decide (a.2 ≤ s.eclk)) }

/-! ### Addresses -/

def gBit (a : GAddr) : Bool := bit a 44
def gNode (a : GAddr) : Nat := fld a 43 32
def gLocal (a : GAddr) : W32 := BitVec.setWidth 32 a
def localAddr (a : W32) : GAddr := BitVec.setWidth 45 a

/-- G = 0, or G = 1 with the node's own valid ID (R84, R374). -/
def isLocal (s : State) (a : GAddr) : Bool := !gBit a || (s.fab.idv && decide (gNode a = s.fab.id.toNat))

def regionOf (l : List Region) (a : W32) : Option Nat :=
  (l.find? (fun r => decide (r.base ≤ a.toNat) && decide (a.toNat < r.base + r.size))).map (·.num)

def domainOf (s : State) (a : W32) : Option Nat := regionOf s.straps.domains a
def flashBank (s : State) (a : W32) : Option Nat := regionOf s.straps.flash a
def clusterOf (s : State) (a : W32) : Option Nat := regionOf s.straps.clusters a

/-- BANKBUSY of the flash bank that holds address a, as last sampled (R384). -/
def bankBusy (s : State) (a : W32) : Bool :=
  match flashBank s a with
  | some b => bit s.flash.busy b
  | none => false

/-- Domain d is up (R377): powered and not requested, or refused in an earlier ECLK, and not down since a PDACK. -/
def domainUp (s : State) (d : Nat) : Bool :=
  bit s.power.pgood d && !bit s.power.down d &&
  (!bit s.power.pdreq d || (bit s.power.pdnak d && decide (tget 0 s.power.nakAt d < s.eclk)))

/-- Accesses to d are not issued: it is down, or its window opened in an earlier ECLK (R378). -/
def domainShut (s : State) (d : Nat) : Bool :=
  !domainUp s d && !(bit s.power.window d && decide (tget s.eclk s.power.openAt d = s.eclk))

/-- The domain that keeps an access to local address a from issue. -/
def shutDomain (s : State) (a : W32) : Option Nat :=
  match domainOf s a with
  | some d => if domainShut s d then some d else none
  | none => none

/-- From ECLK E + 4 of a global halt until recovery (R335). -/
def haltStop (s : State) : Bool := s.halt.issueStop
def haltOn (s : State) : Bool := s.halt.st != 0

/-! ### Tag use (R217) -/

/-- An in-cluster copy is over: the cluster has reported its end, or it has no element left to copy. -/
def copyOver (b : Burst) : Bool := b.copyDone || decide (b.limit = 0)
/-- A lane's in-cluster copy holds a tag from its first lookup until the cluster reports its end (R89, R214). -/
def copyTag (x : LaneSt) : Bool := match x.burst with | some b => b.started && !copyOver b | none => false
def locUse (s : State) : Nat := s.outst.length + (s.lanes.filter (fun e => copyTag e.2)).length
def fabUse (s : State) : Nat := s.fab.out.length

/-- Raise the high-water marks to the present use. -/
def markTags (s : State) : State :=
  { s with glob := { s.glob with lochw := max s.glob.lochw (locUse s), fabhw := max s.glob.fabhw (fabUse s) } }

end Sys2Proof.Machine
end

