-- ==== Sys2Proof/Machine/Operands.lean ====
section
/-! DEFINITION. Leg fields and their check (R73 to R75, R108, R109), the pattern (R147 to R151), the parts of
elements and their merging into port accesses (R154 to R157), and width conversion (R87, R95, R159). -/

namespace Sys2Proof.Machine

/-! ### W0 (R73) -/

def opOf (l : Leg) : Nat := fld l.w0 7 0
def barOf (l : Leg) : Bool := bit l.w0 8
def evhOf (l : Leg) : Bool := bit l.w0 9
def evfOf (l : Leg) : Bool := bit l.w0 10
def eliOf (l : Leg) : Bool := bit l.w0 11
def safOf (l : Leg) : Bool := bit l.w0 12
def poiOf (l : Leg) : Bool := bit l.w0 13
def swOf (l : Leg) : Nat := fld l.w0 19 16
def dwOf (l : Leg) : Nat := fld l.w0 23 20
def burstOf (l : Leg) : Nat := fld l.w0 31 24 + 1
def nextOf (l : Leg) : W32 := BitVec.ofNat 32 (fld l.w0 63 32)

/-! ### Common fields of the data legs, PUSH and POP (R74) -/

def paceOf (l : Leg) : Bool := bit l.w1 45
def evrOf (l : Leg) : Bool := bit l.w1 46
def evoeOf (l : Leg) : Bool := bit l.w1 47
def evoOf (l : Leg) : Nat := fld l.w1 54 48
def ssgOf (l : Leg) : Bool := bit l.w2 45
def dsgOf (l : Leg) : Bool := bit l.w2 46
def srcOf (l : Leg) : GAddr := BitVec.setWidth 45 l.w1
def dstOf (l : Leg) : GAddr := BitVec.setWidth 45 l.w2

/-! ### Opcodes -/

def isData (op : Nat) : Bool := 0x10 ≤ op && op ≤ 0x16
def isPushPop (op : Nat) : Bool := op == 0x18 || op == 0x19
/-- A data leg, PUSH or POP: the legs that run in bursts. -/
def isPatterned (op : Nat) : Bool := isData op || isPushPop op
def opcodes : List Nat :=
  [0x00, 0x10, 0x11, 0x12, 0x13, 0x14, 0x15, 0x16, 0x18, 0x19, 0x1A, 0x1B, 0x1C, 0x20, 0x21, 0x30, 0x31, 0x32, 0x33,
   0x34, 0x35, 0x40, 0x41, 0x42, 0x43, 0x44, 0x45, 0x46, 0x4F]
def isOpcode (op : Nat) : Bool := opcodes.contains op

/-- The leg writes to memory, or places items (R262). -/
def writesData (l : Leg) : Bool :=
  let op := opOf l
  op == 0x10 || op == 0x11 || op == 0x14 || op == 0x16 || op == 0x19 || op == 0x18 || (op == 0x15 && bit l.w3 7)

/-! ### The check of a leg (R109, step 2) -/

/-- No bit outside the mask is set. -/
def within (w : W64) (mask : Nat) : Bool := decide (w &&& ~~~(BitVec.ofNat 64 mask) = 0)

def mNext : Nat := 0xFFFFFFFF00000000
/-- OP, BAR, SAF. -/
def mBase : Nat := 0x11FF
def mW1Data : Nat := 2 ^ 55 - 1
def mW1Common : Nat := 2 ^ 55 - 2 ^ 45

/-- R75, R108 and the leg layouts: every reserved field 0, every field at a permitted value. DESIGN CHOICE: a NOP's W1 to W3,
of which R139 gives no layout, are reserved (log entry 45). -/
def legOk (l : Leg) : Bool :=
  let op := opOf l
  let sw := swOf l
  let dw := dwOf l
  let data := within l.w0 0xFFFFFFFFFFFF3FFF
  let simple := within l.w0 (mNext + mBase)
  let noEli := !eliOf l
  let shadow := if eliOf l then within l.w3 (2 ^ 33 - 1) else within l.w3 0
  match op with
  | 0x10 => data && sw ≤ 4 && dw ≤ 4 && within l.w1 mW1Data && within l.w2 (2 ^ 47 - 1) && shadow
  | 0x11 => data && noEli && sw == 0 && dw ≤ 4 && within l.w1 (mW1Common + 0x0F00000000000000) && within l.w2 (2 ^ 47 - 1)
      && (!bit l.w1 59 || within l.w3 0)
  | 0x12 => data && noEli && sw ≤ 3 && dw == sw && within l.w1 mW1Data && within l.w2 (2 ^ 46 - 1) && within l.w3 0x3DFF
  | 0x13 => data && noEli && sw ≤ 2 && dw == 0 && within l.w1 mW1Data && within l.w3 0x3DFF
  | 0x14 => data && (sw == 1 || sw == 2) && (dw == 1 || dw == 2) && within l.w1 mW1Data && within l.w2 (2 ^ 47 - 1) && shadow
  | 0x15 => data && noEli && (sw == 1 || sw == 2) && within l.w1 mW1Data && within l.w2 (2 ^ 47 - 1) && within l.w3 0xFF
      && (if bit l.w3 7 then dw == 2 || dw == 3 else dw == 0 && fld l.w2 44 0 == 0)
  | 0x16 => data && noEli && sw ≤ 3 && dw ≤ 3 && within l.w1 mW1Data && within l.w2 (2 ^ 47 - 1) && within l.w3 (2 ^ 39 - 1)
      && fld l.w3 34 33 != 3
  | 0x18 => data && noEli && sw ≤ 3 && dw == 3 && within l.w1 mW1Data && within l.w2 (0x7F + 2 ^ 45) && within l.w3 0
  | 0x19 => data && noEli && sw == 3 && dw ≤ 3 && within l.w1 (mW1Common + 0xFF) && within l.w2 (2 ^ 45 - 1 + 2 ^ 46)
      && within l.w3 0xF && (bit l.w3 3 || fld l.w3 2 0 == 0)
  | 0x1A => simple && within l.w1 0x3F && within l.w2 0 && within l.w3 0
  | 0x1B => simple && within l.w1 0x3F && within l.w2 0 && within l.w3 0
  | 0x1C => simple && within l.w1 0x3F && within l.w2 0 && within l.w3 0
  | 0x20 => simple
  | 0x21 => simple && within l.w1 (2 ^ 41 - 1) && fld l.w1 39 37 ≤ 4
  | 0x30 => simple && within l.w1 0xFFFF && within l.w2 0 && within l.w3 0xFFFFFFFF
  | 0x31 => simple && within l.w2 0x1F && within l.w3 0 && fld l.w2 1 0 != 3 && (fld l.w2 1 0 == 2 || fld l.w2 4 2 == 0)
  | 0x32 => simple && within l.w1 0xFFFF007F && within l.w2 0 && within l.w3 0xFFFFFFFF && (!bit l.w1 6 || fld l.w1 31 16 == 0)
  | 0x33 => simple && within l.w1 0x7FFFF && within l.w2 0x1FFF000001FF && within l.w3 0
      && (bit l.w2 44 || fld l.w2 43 0 == 0) && (bit l.w1 18 || fld l.w1 17 8 == 0)
  | 0x34 => simple && within l.w1 1 && within l.w2 0 && within l.w3 0xFFFFFFFF
  | 0x35 => simple && within l.w1 (2 ^ 36 - 1) && within l.w3 (2 ^ 31 - 1)
      && (if bit l.w1 35 then within l.w2 0 else fld l.w1 34 32 == 0)
  | 0x40 => within l.w0 mBase && within l.w1 (2 ^ 36 - 1) && within l.w2 0 && within l.w3 0
      && (if bit l.w1 35 then fld l.w1 31 0 == 0 else fld l.w1 34 32 == 0)
  | 0x41 => simple && within l.w1 (2 ^ 42 - 1) && within l.w3 0 && fld l.w1 35 32 != 15
      && (bit l.w1 39 || bit l.w1 40 || fld l.w1 38 36 == 0) && (bit l.w1 40 || (!bit l.w1 41 && within l.w2 0))
  | 0x42 => simple && within l.w1 (2 ^ 36 - 1) && within l.w2 0 && within l.w3 0
      && (if bit l.w1 35 then fld l.w1 31 0 == 0 else fld l.w1 34 32 == 0)
  | 0x43 => within l.w0 mBase && within l.w1 0 && within l.w2 0 && within l.w3 0
  | 0x44 => simple && within l.w1 (2 ^ 48 - 1) && within l.w2 0 && within l.w3 0 && fld l.w1 47 32 != 0
  | 0x45 => within l.w0 (mNext + mBase + 0xF2000) && within l.w2 0x3F && fld l.w2 5 4 != 3 && sw ≤ 3
      && (if fld l.w2 5 4 == 0 then within l.w1 (2 ^ 45 - 1) else within l.w1 0 && sw == 0 && !bit l.w2 3)
      && (fld l.w2 5 4 == 2 || within l.w3 0)
  | 0x46 => within l.w0 (mNext + mBase + 0xF00000) && dw ≤ 3 && within l.w1 7 && within l.w2 (2 ^ 45 - 1) && within l.w3 0
  | 0x4F => within l.w0 (mNext + mBase + 0x400) && within l.w1 0 && within l.w2 0 && within l.w3 0
  | 0x00 => simple && within l.w1 0 && within l.w2 0 && within l.w3 0
  | _ => false

/-! ### The pattern (R147 to R151) -/

def widthBytes (code : Nat) : Nat := 2 ^ code

def cnt (w : W64) : Nat := fld w 15 0 + 1
def sStep (w : W64) : Int := signed 24 (fld w 39 16)
def dStep (w : W64) : Int := signed 24 (fld w 63 40)

/-- The elements of a leg (R147). -/
def totalOf (r : CtxRegs) : Nat := cnt r.pat1 * cnt r.pat2 * cnt r.pat3

/-- The loop indices of element k. -/
def indexOf (r : CtxRegs) (k : Nat) : Nat × Nat × Nat :=
  (k % cnt r.pat1, k / cnt r.pat1 % cnt r.pat2, k / (cnt r.pat1 * cnt r.pat2))

def srcOff (r : CtxRegs) (k : Nat) : Int :=
  let (i0, i1, i2) := indexOf r k
  (i0 : Int) * sStep r.pat1 + (i1 : Int) * sStep r.pat2 + (i2 : Int) * sStep r.pat3
def dstOff (r : CtxRegs) (k : Nat) : Int :=
  let (i0, i1, i2) := indexOf r k
  (i0 : Int) * dStep r.pat1 + (i1 : Int) * dStep r.pat2 + (i2 : Int) * dStep r.pat3

/-- An address with its local part moved by an exact offset; G and node are kept (R149). -/
def moveAddr (base : GAddr) (off : Int) : GAddr :=
  BitVec.ofNat 45 (fld base 44 32 * 2 ^ 32 + unsig 32 (((gLocal base).toNat : Int) + off))

/-- A remote element must lie within its node's address space (R150). -/
def crosses (base : GAddr) (off : Int) (w : Nat) : Bool :=
  decide (((gLocal base).toNat : Int) + off < 0) || decide ((2 ^ 32 : Int) < ((gLocal base).toNat : Int) + off + (w : Int))

/-! ### Parts and merging (R154 to R157) -/

def blockOf (a : GAddr) : GAddr := a &&& ~~~(BitVec.ofNat 45 15)

/-- The one or two parts of an element of w bytes at address a, in the order in which they are taken when the
access being formed lies in block `cur` (R155). -/
def partsOf (cur : Option GAddr) (el : Nat) (a : GAddr) (w : Nat) : List (GAddr × Part) :=
  let at_ := a.toNat % 16
  let b := blockOf a
  if at_ + w ≤ 16 then [(b, ⟨el, 0, w, at_⟩)]
  else
    let b2 := blockOf (moveAddr b 16)
    let p1 := (b, (⟨el, 0, 16 - at_, at_⟩ : Part))
    let p2 := (b2, (⟨el, 16 - at_, at_ + w - 16, 0⟩ : Part))
    if cur = some b2 then [p2, p1] else [p1, p2]

def partMask (p : Part) : W16 := maskAt p.at_ p.len
def accMask (a : BlkAcc) : W16 := a.parts.foldl (fun m p => m ||| partMask p) 0

/-- One part joins the access being formed, or opens a new one (R157); an access to a sheet with DEVICE set comes apart
again once its lookup has told so.  The accesses formed so far are in reverse order. -/
def joinPart (accs : List BlkAcc) (bp : GAddr × Part) : List BlkAcc :=
  match accs with
  | cur :: rest =>
    if cur.blk = bp.1 ∧ accMask cur &&& partMask bp.2 = 0 then
      { cur with parts := cur.parts ++ [bp.2] } :: rest
    else ⟨bp.1, [bp.2]⟩ :: accs
  | [] => [⟨bp.1, [bp.2]⟩]

/-- The accesses of one side of a burst, in order. -/
def formSide (w : Nat) (els : List (Nat × GAddr)) : List BlkAcc :=
  (els.foldl (fun accs e => (partsOf (accs.head?.map (·.blk)) e.1 e.2 w).foldl joinPart accs) []).reverse

/-! ### Width conversion (R87, R95, R159) -/

/-- Sign or zero extension, or the low-order bytes; widths in bytes. -/
def convertWidth (sw dw : Nat) (sg : Bool) (x : W128) : W128 :=
  let v := x.toNat % 2 ^ (8 * sw)
  if sw < dw ∧ sg ∧ v.testBit (8 * sw - 1) then BitVec.ofNat 128 (v + (2 ^ (8 * dw) - 2 ^ (8 * sw)))
  else BitVec.ofNat 128 (v % 2 ^ (8 * dw))

/-- FILL's element (R95). -/
def fillElem (dw : Nat) (v : W64) : W128 :=
  if dw = 16 then BitVec.ofNat 128 (v.toNat + v.toNat * 2 ^ 64) else BitVec.ofNat 128 (v.toNat % 2 ^ (8 * dw))

/-- An element of w bytes extended to 64 bits (R101, R141, R136). -/
def extend64 (w : Nat) (sg : Bool) (x : W128) : W64 := BitVec.setWidth 64 (convertWidth w 8 sg x)

/-! ### Value registers -/

def vreg (r : CtxRegs) (n : Nat) : W64 := tget 0 r.v n
def setV (n : Nat) (x : W64) (r : CtxRegs) : CtxRegs := { r with v := tset 0 r.v n x }

end Sys2Proof.Machine
end

