-- ==== Sys2Proof/Machine/Flags.lean ====
section
/-! DEFINITION. The flags and the scale stage: BRANCH's conditions (R132), the affine transform (R166), reductions
(R170 to R173) and comparisons (R101, R175). -/

namespace Sys2Proof.Machine

/-- A condition code over the flags (R132). -/
def condHolds (cond : Nat) (f : Flags) : Bool :=
  match cond with
  | 0 => true
  | 1 => f.z
  | 2 => !f.z
  | 3 => f.n
  | 4 => !f.n
  | 5 => !f.z && !f.n
  | 6 => f.z || f.n
  | 7 => f.s
  | 8 => !f.s
  | 9 => f.m
  | 10 => !f.m
  | 11 => f.i
  | 12 => f.p
  | 13 => f.d
  | 14 => !f.d
  | _ => false

/-- A number format: width in bytes and signedness (R164). -/
def fmtLo (w : Nat) (sg : Bool) : Int := if sg then -((2 ^ (8 * w - 1) : Nat) : Int) else 0
def fmtHi (w : Nat) (sg : Bool) : Int := if sg then ((2 ^ (8 * w - 1) : Nat) : Int) - 1 else ((2 ^ (8 * w) : Nat) : Int) - 1

/-- The value of an element's low w bytes. -/
def readInt (w : Nat) (sg : Bool) (x : Nat) : Int :=
  if sg then signed (8 * w) x else ((x % 2 ^ (8 * w) : Nat) : Int)

/-- LO or HI read in the destination format (R165). -/
def limitField (r : CtxRegs) (hi : Bool) (w : Nat) (sg : Bool) : Int :=
  readInt w sg (if hi then fld r.sc3 63 32 else fld r.sc3 31 0)

def limen (r : CtxRegs) : Bool := bit r.sc1 40

/-- LO greater than HI at the start of a leg that uses them (R116, R165). -/
def limitsBad (r : CtxRegs) (w : Nat) (sg : Bool) : Bool :=
  limen r && decide (limitField r true w sg < limitField r false w sg)

/-- The rounded quotient of R166. -/
def roundShift (rnd sh : Nat) (p : Int) : Int :=
  let d : Int := ((2 ^ sh : Nat) : Int)
  let frac := p % d
  let fl := (p - frac) / d
  let h : Int := ((2 ^ (sh - 1) : Nat) : Int)
  let up :=
    if sh = 0 then false
    else match rnd with
      | 1 => decide (h ≤ frac)
      | 2 => decide (h < frac) || (decide (frac = h) && decide (fl % 2 = 1))
      | 3 => decide (p < 0) && decide (frac ≠ 0)
      | 4 => if p < 0 then decide (h < frac) else decide (h ≤ frac)
      | _ => false
  fl + (if up then 1 else 0)

/-- A value limited to a range, and whether the limit changed it. -/
def clampInt (lo hi x : Int) : Int × Bool :=
  let a := if x < lo then lo else x
  let b := if hi < a then hi else a
  (b, decide (x < lo) || decide (hi < a))

/-- R166: the element as delivered in the format of `dwB` bytes, and whether it saturates. -/
def transform (r : CtxRegs) (swB : Nat) (ssg : Bool) (dwB : Nat) (dsg : Bool) (x : Nat) : Int × Bool :=
  let e := readInt swB ssg x
  let a := e + signed 32 (fld r.sc2 31 0)
  let p := a * signed 32 (fld r.sc1 31 0)
  let q := roundShift (fld r.sc1 39 37) (fld r.sc1 36 32) p
  let v := q + signed 32 (fld r.sc2 63 32)
  let lo := if limen r then limitField r false dwB dsg else fmtLo dwB dsg
  let hi := if limen r then limitField r true dwB dsg else fmtHi dwB dsg
  clampInt lo hi v

/-! ### REDUCE -/

/-- The identity of ROP in a signedness (R104). -/
def reduceIdentity (rop : Nat) (sg : Bool) : W64 :=
  match rop with
  | 1 => if sg then 0x7FFFFFFFFFFFFFFF else 0xFFFFFFFFFFFFFFFF
  | 2 => if sg then 0x8000000000000000 else 0
  | _ => 0

/-- The accumulator's signedness (R170). -/
def accSigned (l : Leg) : Bool := if bit l.w3 6 then dsgOf l else ssgOf l
def accReg (l : Leg) : Nat := fld l.w3 2 0

/-- One fold of R171: the accumulator and whether it saturated. -/
def foldAcc (rop : Nat) (sg : Bool) (acc : W64) (e : Int) : W64 × Bool :=
  let a := readInt 8 sg acc.toNat
  let t := match rop with
    | 0 => a + e
    | 1 => if e < a then e else a
    | 2 => if a < e then e else a
    | _ => a + e * e
  let (v, s) := clampInt (fmtLo 8 sg) (fmtHi 8 sg) t
  (BitVec.ofNat 64 (unsig 64 v), s)

/-- The result written with WR = 1 (R173). -/
def reduceResult (l : Leg) (acc : W64) : W128 × Bool :=
  let w := widthBytes (dwOf l)
  let (v, s) := clampInt (fmtLo w (dsgOf l)) (fmtHi w (dsgOf l)) (readInt 8 (accSigned l) acc.toNat)
  (BitVec.ofNat 128 (unsig (8 * w) v), s)

/-! ### CMP and CMPK -/

/-- Whether an element matches (R101). -/
def matchesEl (l : Leg) (x other : W128) : Bool :=
  let w := widthBytes (swOf l)
  if opOf l = 0x12 then x.toNat % 2 ^ (8 * w) == other.toNat % 2 ^ (8 * w)
  else (x.toNat % 2 ^ (8 * w)).xor (fld l.w2 31 0) &&& fld l.w2 63 32 == 0

/-- N of CMP: the source element is the lesser (R81, R175). -/
def lessEl (l : Leg) (x other : W128) : Bool :=
  let w := widthBytes (swOf l)
  decide (readInt w (ssgOf l) x.toNat < readInt w (ssgOf l) other.toNat)

/-- V[RVAL]'s value (R101). -/
def cmpValue (l : Leg) (x : W128) : W64 := extend64 (widthBytes (swOf l)) (decide (opOf l = 0x12) && ssgOf l) x

/-- CMP's and CMPK's registers, in the order index, count, value (R101). -/
def cmpRegs (l : Leg) (first : Option Nat) (count : Nat) (value : W64) (r : CtxRegs) : CtxRegs :=
  let r := if bit l.w3 3 then
      setV (fld l.w3 2 0) (match first with | some k => BitVec.ofNat 64 k | none => 0xFFFFFFFFFFFFFFFF) r else r
  let r := if bit l.w3 7 then setV (fld l.w3 6 4) (BitVec.ofNat 64 count) r else r
  if bit l.w3 13 && first.isSome then setV (fld l.w3 12 10) value r else r

/-- The sticky flags that a leg updates are cleared when it begins (R45, R81, R141, R142). -/
def clearSticky (l : Leg) (f : Flags) : Flags :=
  match opOf l with
  | 0x10 => { f with p := false, d := if eliOf l then false else f.d }
  | 0x14 => { f with s := false, p := false, d := if eliOf l then false else f.d }
  | 0x16 => { f with p := false }
  | 0x12 => { f with m := false, p := false }
  | 0x13 => { f with m := false, p := false }
  | 0x15 => { f with s := false, p := false }
  | 0x18 => { f with p := false }
  | 0x19 => { f with i := false, p := false }
  | _ => f

end Sys2Proof.Machine
end

