-- ==== Sys2Proof/Machine/Check.lean ====
section
/-! DEFINITION. The Atlas check points: the rules in force, the decision of R308, the sheet caches of R311, the
on-demand Grid initialisation of R307, and the capture of violations (R318 to R320). -/

namespace Sys2Proof.Machine

/-! ### The rules in force.  A word's key is its number in the table window (R303, R306, R312, R437). -/

def sheetKey (n : Nat) : Nat := 0x2C000 + 4 * n
def trustKey (node : Nat) : Nat := 0x2D800 + node / 16
def colourKey (g c : Nat) : Nat := 0x2D900 + (16 * g + c) / 8

/-- The word as its store holds it; none for an uninitialised Grid word. -/
def storedWord (s : State) (k : Nat) : Option W64 :=
  if k < 0x20000 then tfind? s.atlas.grid k
  else if 0x2C000 ≤ k ∧ k < 0x2D000 then some (tget 0 s.atlas.sheets (k - 0x2C000))
  else if 0x2D800 ≤ k ∧ k < 0x2D900 then some (tget 0 s.atlas.trust (k - 0x2D800))
  else if 0x2D900 ≤ k ∧ k < 0x2D920 then some (tget 0 s.atlas.colours (k - 0x2D900))
  else none

/-- A COMMIT's copy-in is under way. -/
def copying (s : State) : Bool := match s.atlas.phase with | .copying _ => true | _ => false

/-- The word in force: during copy-in, the staged value answers until it has been written (R314). -/
def wordInForce (s : State) (k : Nat) : Option W64 :=
  if copying s then
    match tfind? s.atlas.staging k with
    | some v => some v
    | none => storedWord s k
  else storedWord s k

def ruleWord (s : State) (k : Nat) : W64 := (wordInForce s k).getD 0

/-- Put a word into its store. -/
def putWord (k : Nat) (v : W64) (s : State) : State :=
  if k < 0x20000 then { s with atlas := { s.atlas with grid := tput s.atlas.grid k v } }
  else if 0x2C000 ≤ k ∧ k < 0x2D000 then
    { s with atlas := { s.atlas with sheets := tset 0 s.atlas.sheets (k - 0x2C000) v } }
  else if 0x2D800 ≤ k ∧ k < 0x2D900 then
    { s with atlas := { s.atlas with trust := tset 0 s.atlas.trust (k - 0x2D800) v } }
  else if 0x2D900 ≤ k ∧ k < 0x2D920 then
    { s with atlas := { s.atlas with colours := tset 0 s.atlas.colours (k - 0x2D900) v } }
  else s

structure Sheet where
  num : Nat
  w0 : W64
  w1 : W64
  deriving DecidableEq, Repr

def sheetValid (sh : Sheet) : Bool := bit sh.w1 32
def sheetStart (sh : Sheet) : Nat := fld sh.w0 31 5 * 32
/-- The last byte covered (R303). -/
def sheetLast (sh : Sheet) : Nat := fld sh.w0 63 37 * 32 + 31
def sheetDevice (sh : Sheet) : Bool := bit sh.w1 33
def sheetCovers (sh : Sheet) (a : Nat) : Bool := decide (sheetStart sh ≤ a) && decide (a ≤ sheetLast sh)

/-- Numbers of the sheets that some listed word could make valid. -/
def sheetNums (s : State) : List Nat :=
  let stored := (s.atlas.sheets.filter (fun e => e.1 % 4 == 1)).map (fun e => e.1 / 4)
  let staged := if copying s then
      (s.atlas.staging.filter (fun e => decide (0x2C000 ≤ e.1) && decide (e.1 < 0x2D000) && e.1 % 4 == 1)).map
        (fun e => (e.1 - 0x2C000) / 4)
    else []
  stored ++ staged.filter (fun n => !stored.contains n)

def sheetAt (s : State) (n : Nat) : Sheet := ⟨n, ruleWord s (sheetKey n), ruleWord s (sheetKey n + 1)⟩
def validSheets (s : State) : List Sheet := ((sheetNums s).map (sheetAt s)).filter sheetValid

/-- The lowest-numbered of some sheets. -/
def lowest (l : List Sheet) : Option Sheet :=
  l.foldl (fun o sh => match o with | none => some sh | some p => if sh.num < p.num then some sh else some p) none

/-- The covering sheet (R305). -/
def covering (s : State) (a : Nat) : Option Sheet := lowest ((validSheets s).filter (fun sh => sheetCovers sh a))

/-- The address lies in a sheet with DEVICE set (R157, R92). -/
def inDevice (s : State) (a : W32) : Bool :=
  match covering s a.toNat with
  | some sh => sheetDevice sh
  | none => false

/-- The window that holds address a, and its Grid word and nibble (R306). -/
def gridPlace (s : State) (a : Nat) : Option (Nat × Nat × Nat) :=
  let hit := [0, 1, 2, 3].find? (fun n => bit s.atlas.win (32 + n) && decide (fld s.atlas.win (8 * n + 7) (8 * n) = a / 2 ^ 24))
  hit.map (fun n => (n, 32768 * n + (a % 2 ^ 24) / 32 / 16, (a % 2 ^ 24) / 32 % 16))

/-- The word that an uninitialised Grid word takes (R307). -/
def gridFill (col : BitVec 4) : W64 := BitVec.ofNat 64 (col.toNat * 0x1111111111111111)

/-- The staging buffer answers for word k (R314). -/
def stagedNow (s : State) (k : Nat) : Bool := copying s && (tfind? s.atlas.staging k).isSome
/-- A word that holds an uncorrectable error (R340): a route entry pair is named by its number, every other word by its
number in the window. -/
def isBad (s : State) (store k : Nat) : Bool := s.atlas.bad.contains (store, k) && (store == 8 || !stagedNow s k)

/-- The local colour of an inbound access (R312). -/
def translate (s : State) (node c : Nat) : Nat :=
  let g := fld (ruleWord s (trustKey node)) (4 * (node % 16) + 3) (4 * (node % 16))
  let j := (16 * g + c) % 8
  fld (ruleWord s (colourKey g c)) (8 * j + 3) (8 * j)

/-- Whether the lifecycle state admits debug access in this ECLK (R317). -/
def unlockedNow (s : State) : Bool := if s.dbg.changedAt = s.eclk then s.dbg.prev else s.dbg.unlock

structure Verdict where
  /-- The cause of a denial (R308, R320); none when allowed. -/
  cause : Option Nat
  colour : Nat
  sheet : Option Nat
  device : Bool
  /-- Step 1 or 2 denied (R321). -/
  early : Bool := false
  /-- The rule word found bad: store and key. -/
  badWord : Option (Nat × Nat)
  deriving DecidableEq, Repr

def allowed (v : Verdict) : Bool := v.cause.isNone

/-- Step 5 of R308, with R345 for a fenced bank and R320 for a bad word. -/
def gridStep (s : State) (a : Nat) (col : Nat) : Option Nat × Option (Nat × Nat) :=
  match gridPlace s a with
  | none => (none, none)
  | some (n, k, j) =>
    if bit s.fences.onGrid n then
      (if bit s.fences.gmode n && decide (col ≠ 15) then some 1 else none, none)
    else if isBad s (3 + n) k then (some 6, some (3 + n, k))
    else
      let w := (wordInForce s k).getD (gridFill s.atlas.gdef)
      let sq := fld w (4 * j + 3) (4 * j)
      (if sq = col ∨ sq = 0 then none else some 1, none)

/-- The decision of R308, the latency left out. -/
def decideAccess (s : State) (q : Ask) : Verdict :=
  let col := match q.inbound with
    | some node => translate s node q.colour
    | none => q.colour
  let sh := covering s q.addr.toNat
  let dev := match sh with | some x => sheetDevice x | none => false
  let v : Verdict := { cause := none, colour := col, sheet := sh.map (·.num), device := dev, badWord := none }
  let g := match q.inbound with
    | some node => fld (ruleWord s (trustKey node)) (4 * (node % 16) + 3) (4 * (node % 16))
    | none => 0
  match q.inbound with
  | some node =>
    if isBad s 9 (trustKey node) then { v with cause := some 6, badWord := some (9, trustKey node), early := true }
    else if isBad s 10 (colourKey g q.colour) then { v with cause := some 6, badWord := some (10, colourKey g q.colour), early := true }
    else if col = 0 ∨ col = 14 ∨ col = 15 then { v with cause := some 5, early := true }
    else if (badSheet sh).isSome then { v with cause := some 6, badWord := badSheet sh, early := true }
    else if (match sh with | some x => bit x.w1 36 | none => false) then { v with cause := some 3, early := true }
    else rest v sh col
  | none => rest v sh col
where
  badSheet (sh : Option Sheet) : Option (Nat × Nat) :=
    match sh with
    | some x => if isBad s 7 (sheetKey x.num) then some (7, sheetKey x.num)
                else if isBad s 7 (sheetKey x.num + 1) then some (7, sheetKey x.num + 1) else none
    | none => none
  rest (v : Verdict) (sh : Option Sheet) (col : Nat) : Verdict :=
    let mask := match sh with
      | some x => if q.wr then fld x.w1 31 16 else fld x.w1 15 0
      | none => if q.wr then fld s.atlas.uncov 31 16 else fld s.atlas.uncov 15 0
    let sealed := match sh with | some x => bit x.w1 34 | none => false
    let dbg := match sh with | some x => bit x.w1 35 | none => false
    if (badSheet sh).isSome then { v with cause := some 6, badWord := badSheet sh }
    else if col = 14 && sealed && !(unlockedNow s && dbg) then { v with cause := some 2 }
    else if !mask.testBit col then { v with cause := some 0 }
    else
      match gridStep s q.addr.toNat col with
      | (some c, b) => { v with cause := some c, badWord := b }
      | (none, _) => if q.wr && q.elided && v.device then { v with cause := some 4 } else v

/-- The sheet-cache entry that answers for an address: its sheet, or the gap it lies in. -/
def cacheKey (s : State) (a : Nat) : CacheEnt :=
  match covering s a with
  | some sh => .sheet sh.num
  | none => .gap ((validSheets s).filter (fun sh => decide (sheetLast sh < a))).length

/-- Look the entry up in the check point's cache and make it the most recent of 8; a miss fills it when its search
ends (R311). -/
def touchCache (point : Nat) (e : CacheEnt) (s : State) : State × Bool :=
  let l := tget [] s.atlas.caches point
  let from_ := ((l.find? (fun x => decide (x.1 = e))).map (·.2)).getD (s.eclk + 12)
  let l' := ((e, from_) :: l.filter (fun x => !decide (x.1 = e))).take 8
  ({ s with atlas := { s.atlas with caches := tset [] s.atlas.caches point l' } }, decide (from_ ≤ s.eclk))

/-- The first lookup of an uninitialised Grid word writes it with the default colour (R307). -/
def initGrid (a : Nat) (s : State) : State × Bool :=
  match gridPlace s a with
  | none => (s, false)
  | some (n, k, _) =>
    if bit s.fences.onGrid n then (s, false)
    else if (wordInForce s k).isSome then (s, false)
    else (putWord k (gridFill s.atlas.gdef) s, true)

/-- A lookup begins: the cache and the Grid word take their new state, and it will be decided so many ECLK later (R307,
R311). -/
def beginLookup (q : Ask) (s : State) : State × Nat :=
  let (s, hit) := touchCache q.point (cacheKey s q.addr.toNat) s
  let (s, init) := initGrid q.addr.toNat s
  (s, (if hit then 2 else 12) + (if init then 2 else 0))

/-- The rule words that a lookup reads, each with its store. -/
def lookupWords (s : State) (q : Ask) : List (Nat × Nat) :=
  let inb := match q.inbound with
    | some node =>
      let g := fld (ruleWord s (trustKey node)) (4 * (node % 16) + 3) (4 * (node % 16))
      [(9, trustKey node), (10, colourKey g q.colour)]
    | none => []
  let sh := match covering s q.addr.toNat with | some x => [(7, sheetKey x.num), (7, sheetKey x.num + 1)] | none => []
  let grid := match gridPlace s q.addr.toNat with | some (n, k, _) => if bit s.fences.onGrid n then [] else [(3 + n, k)] | none => []
  inb ++ sh ++ grid

/-- The name of codeword k of a store (R270, R437): its number in the table window; a route entry pair's own number. -/
def storeKey (store k : Nat) : Nat :=
  match store with
  | 0 => 0x24000 + k
  | 2 => 0x20000 + k
  | 3 | 4 | 5 | 6 => 32768 * (store - 3) + k
  | 7 => 0x2C000 + k
  | 9 => 0x2D800 + k
  | 10 => 0x2D900 + k
  | _ => k

/-- The window offset that a record names for a word (R270, R437): a route word by its number, every other by its key. -/
def wordOffset (store k : Nat) : W64 := if store = 8 then BitVec.ofNat 64 (0x168000 + 8 * k) else BitVec.ofNat 64 (8 * k)

/-- A correctable error is found, used and written back (R340). -/
def foundSoft (s : State) (w : Nat × Nat) : State :=
  if s.atlas.soft.contains w then
    corrected w.1 0 (wordOffset w.1 w.2) { s with atlas := { s.atlas with soft := s.atlas.soft.filter (fun x => !decide (x = w)) } }
  else s

/-- A word is written, or given up: the error in it is gone. -/
def cleanWord (w : Nat × Nat) (s : State) : State :=
  { s with atlas := { s.atlas with bad := s.atlas.bad.filter (fun x => !decide (x = w)), soft := s.atlas.soft.filter (fun x => !decide (x = w)) } }

/-- VINFO of a denied access (R321). -/
def vinfoOf (q : Ask) (v : Verdict) : W64 :=
  let cause := v.cause.getD 0
  let sheet := if v.early then 0 else v.sheet.getD 0
  BitVec.ofNat 64 (1 + 2 * v.colour + (if q.inbound.isSome then 2 ^ 5 * q.colour else 0) + 2 ^ 9 * q.point + 2 ^ 13 * q.type_
    + 2 ^ 15 * cause + 2 ^ 18 * q.srck + 2 ^ 20 * q.srcn + 2 ^ 32 * sheet + 2 ^ 42 * bool v.sheet.isNone)

/-- A rule store error (R320): STATUS.RULEERR, its record, and one uncorrected error of the store (R340). -/
def ruleError (store k detail : Nat) (s : State) : State :=
  let s := markSet (w1cKey 0x5018 14) { s with atlas := { s.atlas with ruleerr := true } }
  let s := if s.atlas.recEn then offerNow .data s.atlas.book 0x33 7 store detail (BitVec.ofNat 64 (8 * k)) 0 s else s
  if detail = 0 then uncorrected store 0 (BitVec.ofNat 64 (8 * k)) s else s

/-- Of the violations of one ECLK, that at the lowest check point stands (R319). -/
def noteViolation (point : Nat) (a : W32) (info : W64) (s : State) : State :=
  match s.atlas.viol with
  | some (t, p, _, _) =>
    if t = s.eclk ∧ p ≤ point then s else { s with atlas := { s.atlas with viol := some (s.eclk, point, a, info) } }
  | none => { s with atlas := { s.atlas with viol := some (s.eclk, point, a, info) } }

/-- Replace the record of this ECLK's capture, which the writer accepts at its end at the earliest. -/
def amendCapture (r : Rec) (s : State) : State :=
  let mine := fun (x : Rec) => x.type_ == r.type_ && x.time == r.time
  { s with heldRecs := modWhere (fun h => mine h.recd) (fun h => { h with recd := r }) s.heldRecs }

/-- Capture this ECLK's violation (R319): its record is offered once, and amended by a lower check point's. -/
def captureViol (s : State) : State :=
  match s.atlas.viol with
  | none => s
  | some (_, p, a, info) =>
    let again := decide (s.atlas.capAt = some s.eclk)
    let s := { s with atlas := { s.atlas with vaddr := a, vinfo := info, vtime := merWord s, capAt := some s.eclk } }
    if s.atlas.recEn then
      let r := mkRec s s.atlas.book 0x30 4 p (fld info 31 0) (BitVec.setWidth 64 a) (fld info 62 32)
      if again then amendCapture r s else offer .data none r s
    else s

/-- Software clears STE_ATLAS_VINFO.VALID; a violation of the same ECLK is captured, and VALID stays 1 (R319). -/
def clearValid (s : State) : State :=
  match s.atlas.viol with
  | some (t, _, _, _) =>
    if t = s.eclk then (if s.atlas.capAt = some s.eclk then s else captureViol s)
    else { s with atlas := { s.atlas with vinfo := setBit s.atlas.vinfo 0 false } }
  | none => { s with atlas := { s.atlas with vinfo := setBit s.atlas.vinfo 0 false } }

/-- A bad rule word is reported (R320). -/
def reportBad (v : Verdict) (s : State) : State :=
  match v.badWord with
  | some (store, k) => ruleError store k 0 s
  | none => s

/-- A denied access is counted, and a bad rule word reported (R319, R320). -/
def countViolation (v : Verdict) (s : State) : State :=
  reportBad v (markCount (w1cKey 0x5058 0) { s with atlas := { s.atlas with vcnt := sat32 s.atlas.vcnt } })

/-- It is captured unless an earlier capture stands (R319). -/
def captureFirst (q : Ask) (info : W64) (s : State) : State :=
  let s := noteViolation q.point q.addr info s
  if bit s.atlas.vinfo 0 && !decide (s.atlas.capAt = some s.eclk) then s else captureViol s

/-- A debug access that is denied counts, and sets DBGDEN (R318, R319). -/
def debugDenied (q : Ask) (info : W64) (s : State) : State :=
  let old := s.atlas.dbgden
  let s := { s with atlas := { s.atlas with dbgcnt := sat32 s.atlas.dbgcnt, dbgden := true } }
  let s := markCount (w1cKey 0x5060 0) (markSet (w1cKey 0x5018 13) s)
  if !old && s.atlas.dbgRec then
    offerNow .data s.atlas.book 0x31 4 q.point (fld info 31 0) (BitVec.setWidth 64 q.addr) 0 s
  else s

/-- A denial and all that follows from it (R318 to R320). -/
def violation (q : Ask) (v : Verdict) (s : State) : State :=
  let s := captureFirst q (vinfoOf q v) (countViolation v s)
  if q.srck = 2 then debugDenied q (vinfoOf q v) s else s

/-- A lookup completes: it is decided under the rules in force in that ECLK (R315), what it finds in the stores is counted,
and a denial is captured; that of a prefetch only reports a bad word (R26, R319). -/
def settle (q : Ask) (quietly : Bool) (s : State) : State × Verdict :=
  let v := decideAccess s q
  let s := (lookupWords s q).foldl foundSoft s
  (if allowed v then s else if quietly then reportBad v s else violation q v s, v)

/-- A lookup that completes at once (log entry 5). -/
def check (q : Ask) (s : State) : State × Verdict := settle q false (beginLookup q s).1

end Sys2Proof.Machine
end

