-- ==== Sys2Proof/Machine/Access.lean ====
section
/-! DEFINITION. Offering an access to a port: its check at the home port's check point (R24, R212), its rank (R210)
and its place among the accesses that wait. -/

namespace Sys2Proof.Machine

/-- Rank of a channel's or queue's access by its class (R210): class 0 before the real-time inbound accesses. -/
def rankClass (k : Nat) : Nat := if k = 0 then 0 else 1 + k
def rankInRt : Nat := 1
def rankInBulk : Nat := 9
def rankRecord : Nat := 10
def rankDebug : Nat := 11

/-- What an owner asks of the ports. -/
structure Want where
  owner : Owner
  wr : Bool
  colour : Nat
  gaddr : GAddr
  mask : W16
  data : W128 := 0
  poison : Bool := false
  parts : List Part := []
  home : Nat
  rank : Nat
  ord : Nat
  ch : Option (Nat × Nat × Nat) := none
  bno : Nat := 0
  elided : Bool := false
  srck : Nat
  srcn : Nat

def pointOf (wr : Bool) (home : Nat) : Nat := if wr then 4 + home else home

def askOf (w : Want) : Ask :=
  { point := pointOf w.wr w.home, colour := w.colour, wr := w.wr, elided := w.elided, type_ := bool w.wr, srck := w.srck,
    srcn := w.srcn, addr := gLocal w.gaddr }

/-- The access as it waits for a port; it may issue once its lookup has completed (R311). -/
def accOf (s : State) (w : Want) (lat : Nat) : Acc :=
  { tag := 0, owner := w.owner, wr := w.wr, colour := w.colour, blk := gLocal (blockOf w.gaddr), mask := w.mask,
    data := w.data, poison := w.poison, parts := w.parts, home := w.home, rank := w.rank, ord := w.ord, at_ := s.eclk,
    readyAt := s.eclk + lat, epoch := s.atlas.epoch, ch := w.ch, bno := w.bno, gaddr := w.gaddr,
    ask := if isLocal s w.gaddr then some (askOf w) else none, decided := !isLocal s w.gaddr }

/-- Put an access among those offered. -/
def enqueue (a : Acc) (s : State) : State := { s with offered := s.offered ++ [a] }

/-- Offer an access: the lookup of a local one begins, and will allow or deny it; the local Atlas has nothing to check of a
remote one (R25). -/
def submit (w : Want) (s : State) : State :=
  if isLocal s w.gaddr then
    let r := beginLookup (askOf w) s
    enqueue (accOf r.1 w r.2) r.1
  else enqueue (accOf s w 0) s

/-- Reads of the owners that p selects become orphans: those issued keep their tags and nothing comes of their
data (R329); those not yet issued are dropped. -/
def orphanReads (p : Owner → Bool) (s : State) : State :=
  { s with
    offered := s.offered.filter (fun a => !(p a.owner && !a.wr))
    outst := modWhere (fun a => p a.owner && !a.wr) (fun a => { a with orphan := true }) s.outst
    fab := { s.fab with out := modWhere (fun f => p f.owner && !f.wr) (fun f => { f with orphan := true }) s.fab.out } }

end Sys2Proof.Machine
end

