-- ==== Sys2Proof/Machine/QueueOps.lean ====
section
/-! DEFINITION. The stream queues: placing and taking items (R281 to R292), the idle item, parity (R295), and the
movements between tail, middle and head with the spill pool's pages (R283 to R286). -/

namespace Sys2Proof.Machine

def queue (s : State) (q : Nat) : Queue := tget {} s.queues q
def setQueue (q : Nat) (x : Queue) (s : State) : State := { s with queues := tset {} s.queues q x }
def modQ (q : Nat) (f : Queue → Queue) (s : State) : State := setQueue q (f (queue s q)) s

/-- Even parity over an item's 66 other bits (R28). -/
def qStatus (q : Nat) : Nat := 0x4008 + 64 * q
def itemParity (d : W64) (pend poison : Bool) : Bool := (popcount d + bool pend + bool poison) % 2 == 1
def mkItem (d : W64) (pend poison : Bool) : Item := ⟨d, pend, poison, itemParity d pend poison⟩
def parityOk (it : Item) : Bool := it.par == itemParity it.data it.pend it.poison

def midItems (x : Queue) : Nat := (x.mid.map (fun h => h.flags.length)).foldl (· + ·) 0
/-- Items not taken. -/
def availItems (x : Queue) : Nat := x.tail.length + midItems x + x.head.length
/-- STATUS.COUNT (R300). -/
def countItems (x : Queue) : Nat := availItems x + x.held.length
/-- STATUS.DELIV (R289). -/
def deliverable (x : Queue) : Nat := availItems x - (x.openN - x.openDel)
/-- A packet end stands in the queue (R122). -/
def hasPacketEnd (x : Queue) : Bool :=
  x.tail.any (·.pend) || x.mid.any (fun h => h.flags.any (·.1)) || x.head.any (fun i => i.it.pend)
/-- Head registers in use (R292). -/
def headUsed (x : Queue) : Nat := (x.head.filter (·.inReg)).length + (x.held.filter (fun i => i.hg.isNone)).length

def canAlloc (s : State) (x : Queue) : Bool :=
  decide (x.pages.length < x.maxpg) && (decide (0 < s.spill.freeN) || decide (s.spill.fresh < s.spill.pages))
def lastPage (x : Queue) : Option Page := x.pages.getLast?
def pageRoom (x : Queue) : Bool := match lastPage x with | some p => decide (p.written < 30) | none => false
/-- The direct path of R282: THRU, nothing in the middle, a free head register.  Held or rewound items that are kept in
their page slots (R292) still stand in the middle (log entry 28). -/
def direct (x : Queue) : Bool :=
  x.thru && x.mid.isEmpty && x.head.all (·.inReg) && x.held.all (·.hg.isNone) && decide (headUsed x < 8) && decide (x.wrMove = .none)
/-- The tail can send items to the middle. -/
def canSend (s : State) (x : Queue) : Bool := decide (x.wrMove ≠ .none) || (!x.sperr && (pageRoom x || canAlloc s x))
/-- STATUS.FULL (R286). -/
def isFull (s : State) (x : Queue) : Bool := decide (8 ≤ x.tail.length) && !canSend s x

/-- The queue is open to a colour (R287). -/
def openPush (s : State) (q col : Nat) : Bool := (queue s q).en && bit (queue s q).pmask col
def openPop (s : State) (q col : Nat) : Bool := (queue s q).en && bit (queue s q).cmask col

def qRec (q type_ detail : Nat) (v : W64) (s : State) : State :=
  if (queue s q).recEn then offerNow .data (queue s q).book type_ 3 q detail v 0 s else s

/-- R290: a full queue with nothing deliverable and an open packet delivers what it holds of the packet. -/
def force (q : Nat) (s : State) : State :=
  let x := queue s q
  if isFull s x && decide (deliverable x = 0) && decide (0 < x.openN) then
    markSet (w1cKey (qStatus q) 60) (setQueue q { x with openDel := x.openN, forced := true } s)
  else s
/-- Every queue that is full so, by whatever made it full. -/
def forceAll (s : State) : State := (s.queues.map (·.1)).foldl (fun s q => force q s) s

/-- The open packet once one more item has been placed: its items, and those of them that are deliverable (R289). -/
def placeOpen (cut : W16) (pend : Bool) (n d : Nat) : Nat × Nat :=
  if pend then (0, 0)
  else (n + 1, if cut == 0 || (decide (cut.toNat ≤ n + 1) && cut != 0xFFFF) then n + 1 else d)

/-- The queue accepts one item in an ECLK (R288). -/
def acceptsNow (s : State) (x : Queue) : Bool := !decide (x.inAt = some s.eclk)

/-- Place an item in the tail, which has room (R282, R289); an item placed in the ECLK of a reset is discarded (R299). -/
def place (q : Nat) (it : Item) (s : State) : State :=
  let x := queue s q
  if decide (x.resetAt = some s.eclk) then setQueue q { x with inAt := some s.eclk } s
  else
    let o := placeOpen x.cut it.pend x.openN x.openDel
    force q (setQueue q { x with tail := x.tail ++ [it], lastPut := s.eclk, inAt := some s.eclk, openN := o.1, openDel := o.2 } s)

/-- Check an item's parity (R295): on failure it is poisoned, its parity formed again, and the error reported. -/
def parityCheck (q : Nat) (atHead : Bool) (it : Item) (s : State) : Item × State :=
  if parityOk it then (it, s)
  else
    let s := markSet (w1cKey (qStatus q) 58) (modQ q (fun x => { x with par := true }) s)
    let s := uncorrected 19 0 it.data s
    (mkItem it.data it.pend true, qRec q 0x21 (bool atHead) it.data s)

/-! ### Pages (R283, R284) -/

def pageAddr (s : State) (p : Nat) : W32 := BitVec.ofNat 32 (s.spill.base.toNat * 1024 + 1024 * p)

def spillWant (s : State) (q : Nat) (op : SpillOp) (wr : Bool) (a : W32) (mask : W16) (d : W128) (poison : Bool) : Want :=
  { owner := .spill q op, wr := wr, colour := 15, gaddr := localAddr a, mask := mask, data := d, poison := poison, home := q % 4,
    rank := rankClass (queue s q).cls, ord := 8 + q, srck := 3, srcn := 64 + q }

/-- So many 1/16 pJ go into the block counter (R421): 12 pJ for each record, spill access and inbound access, and 0.6875 pJ
for each byte of their accesses, as they are issued. -/
def blockEnergy (e16 : Nat) (s : State) : State :=
  { s with mgt := { s.mgt with tele := { s.mgt.tele with blkEnergy16 := s.mgt.tele.blkEnergy16 + e16 } } }

/-- A freed page goes to the head of the free list, by a write of its bytes 0 to 3 (R284). -/
def putFree (q p : Nat) (s : State) : State :=
  let old := pageAddr s s.spill.freeHead
  let a := pageAddr s p
  let s := { s with spill := { s.spill with freeHead := p, freeN := s.spill.freeN + 1 } }
  submit (spillWant s q (.freeWr p) true a 0x000F (BitVec.setWidth 128 old) false) s

/-- A page is freed; while the list's head page is being read it waits for the end of that read. -/
def freePage (q p : Nat) (s : State) : State :=
  let s := { s with spill := { s.spill with inuse := s.spill.inuse - 1 } }
  if s.spill.reading then { s with spill := { s.spill with late := s.spill.late ++ [(q, p)] } } else putFree q p s

/-- The read of the free list's head page has ended. -/
def endListRead (s : State) : State :=
  let w := s.spill.late
  w.foldl (fun s e => putFree e.1 e.2 s) { s with spill := { s.spill with reading := false, late := [] } }

/-- A page all of whose half-groups are consumed and released, and that is full or whose middle is empty (R284). -/
def pageDone (x : Queue) (p : Page) : Bool := decide (p.released = p.written) && (decide (30 ≤ p.written) || x.mid.isEmpty)

def freePages (q : Nat) (s : State) : State :=
  let x := queue s q
  let gone := x.pages.filter (pageDone x)
  let s := setQueue q { x with pages := x.pages.filter (fun p => !pageDone x p) } s
  gone.foldl (fun s p => freePage q p.num s) s

/-- A half-group is released once none of its items stands in the head or is held. -/
def freeGroup (q : Nat) (g : Nat × Nat) (s : State) : State :=
  let x := queue s q
  if x.head.any (fun j => j.hg == some g) || x.held.any (fun j => j.hg == some g) then s
  else freePages q (setQueue q { x with pages := modWhere (fun p => p.num == g.1) (fun p => { p with released := p.released + 1 }) x.pages } s)
/-- An item is freed: its half-group is released with its last item. -/
def freeItem (q : Nat) (i : QItem) (s : State) : State := match i.hg with | none => s | some g => freeGroup q g s

/-- The half-groups of some items, each once. -/
def groupsOf (l : List QItem) : List (Nat × Nat) := (l.filterMap (·.hg)).eraseDups
def freeHeld (q : Nat) (s : State) : State :=
  let hs := (queue s q).held
  (groupsOf hs).foldl (fun s g => freeGroup q g s) (modQ q (fun x => { x with held := [] }) s)

/-- Take the oldest item when it is deliverable and stands in a head register (R288, R291, R292); the queue delivers one
in an ECLK. -/
def take? (q : Nat) (s : State) : Option (Item × State) :=
  let x := queue s q
  match x.head with
  | i :: rest =>
    if i.inReg && decide (0 < deliverable x) && !decide (x.outAt = some s.eclk) then
      let (it, s) := parityCheck q true i.it s
      let x := { queue s q with head := rest, outAt := some s.eclk }
      if x.markv then
        some (it, setQueue q { x with held := x.held ++ [{ i with it := it, inReg := i.hg.isNone }] } s)
      else some (it, freeItem q i (setQueue q x s))
    else none
  | [] => none

/-! ### Mark, rewind and release (R291) -/

def markQ (q : Nat) (s : State) : State := modQ q (fun x => { x with markv := true }) (freeHeld q s)
/-- MARKV = 0: REWIND and RELEASE find no mark. -/
def noMark (q : Nat) (s : State) : State := markSet (w1cKey (qStatus q) 61) (modQ q (fun x => { x with nomark := true }) s)
/-- The head after a rewind: items that are kept in their page slots give up their registers where one of them has to be
read back, so that the oldest can be (R292; log entry 28). -/
def rewound (x : Queue) : List QItem :=
  let all := x.held ++ x.head
  if x.held.any (·.hg.isSome) then all.map (fun i => { i with inReg := i.hg.isNone }) else all
def rewindQ (q : Nat) (s : State) : State :=
  if (queue s q).markv then modQ q (fun x => { x with head := rewound x, held := [] }) s else noMark q s
def releaseQ (q : Nat) (s : State) : State := if (queue s q).markv then freeHeld q s else noMark q s
def unmarkQ (q : Nat) (s : State) : State := modQ q (fun x => { x with markv := false }) (freeHeld q s)

/-! ### Movements (R282) -/

/-- A spill allocation fails (R286). -/
def allocFails (q detail : Nat) (addr : W64) (s : State) : State :=
  let was := (queue s q).allocf
  let s := { s with spill := { s.spill with fails := sat32 s.spill.fails } }
  let s := modQ q (fun x => { x with allocf := true, wrMove := .none }) s
  if was then s else qRec q 0x20 detail addr s

/-- A half-group's write fails: the items stay in the tail (R286). -/
def spillFails (q : Nat) (addr : W32) (s : State) : State :=
  let was := (queue s q).sperr
  let s := modQ q (fun x => { x with sperr := true, wrMove := .none }) s
  if was then s else qRec q 0x20 1 (BitVec.setWidth 64 addr) s

/-- Send the n oldest tail items as the next half-group of the last page: its two data writes (R283). -/
def spillData (q n : Nat) (s : State) : State :=
  match lastPage (queue s q) with
  | none => s
  | some p =>
    let (items, s) := ((queue s q).tail.take n).foldl
      (fun (acc : List Item × State) it => let (it', s') := parityCheck q false it acc.2; (acc.1 ++ [it'], s')) ([], s)
    let s := modQ q (fun x => { x with
      tail := items ++ x.tail.drop n
      wrMove := .write n p.num p.written 2
      pages := x.pages.dropLast ++ [{ p with written := p.written + 1 }] }) s
    let d := fun i => match items[i]? with | some it => it.data.toNat | none => 0
    let a := pageAddr s p.num + BitVec.ofNat 32 (64 + 32 * p.written)
    let s := submit (spillWant s q .dataWr true a 0xFFFF (BitVec.ofNat 128 (d 0 + d 1 * 2 ^ 64)) false) s
    submit (spillWant s q .dataWr true (a + 16) 0xFFFF (BitVec.ofNat 128 (d 2 + d 3 * 2 ^ 64)) false) s

/-- The queue takes page p (R284): the page before it in the middle names it. -/
def takePage (q p n : Nat) (s : State) : State :=
  let prev := lastPage (queue s q)
  let inuse := s.spill.inuse + 1
  let s := { s with spill := { s.spill with inuse := inuse, hwm := max s.spill.hwm inuse } }
  let s := modQ q (fun x => { x with pages := x.pages ++ [⟨p, 0, 0⟩], allocf := false }) s
  let s := match prev with
    | some g => submit (spillWant s q .linkWr true (pageAddr s g.num) 0x000F (BitVec.setWidth 128 (pageAddr s p)) false) s
    | none => s
  spillData q n s

/-- The tail sends a half-group, allocating a page if it needs one (R282, R284). -/
def startSpill (q : Nat) (s : State) : State :=
  let x := queue s q
  let n := min 4 x.tail.length
  if x.sperr || decide (x.wrMove ≠ .none) || decide (n = 0) then s
  else if pageRoom x then spillData q n s
  else if x.maxpg ≤ x.pages.length then s
  else if 0 < s.spill.freeN then
    if s.spill.reading then s
    else
      let a := pageAddr s s.spill.freeHead
      let s := { s with spill := { s.spill with reading := true } }
      let s := modQ q (fun x => { x with wrMove := .alloc n }) s
      submit (spillWant s q .freeRd false a 0x000F 0 false) s
  else if s.spill.fresh < s.spill.pages then
    let p := s.spill.fresh
    takePage q p n { s with spill := { s.spill with fresh := p + 1 } }
  else allocFails q 0 0 s

/-- One item moves directly from tail to head (R282). -/
def moveDirect (q : Nat) (s : State) : State :=
  match (queue s q).tail with
  | it :: rest =>
    let (it, s) := parityCheck q false it s
    modQ q (fun x => { x with tail := rest, head := x.head ++ [⟨it, true, none, 0⟩], moveAt := some s.eclk }) s
  | [] => s

/-- The half-group that the head reads next: one it holds again after a rewind, or the oldest of the middle. -/
def refillSource (x : Queue) : Option (Nat × Nat) :=
  match x.head.find? (fun i => !i.inReg) with
  | some i => i.hg
  | none => x.mid.head?.map (fun h => (h.page, h.slot))

/-- Packet-end and poison of item i of a half-group, from its header's flag byte as it was read, else as written. -/
def itemFlags (hdr : Option Nat) (i : Nat) (f : Bool × Bool) : Bool × Bool :=
  match hdr with
  | some n => (n.testBit (2 * i), n.testBit (2 * i + 1))
  | none => f

/-- The items of a half-group enter the head (R283, R286). -/
def refillDone (q page slot : Nat) (d0 d1 : Option W128) (hdr : Option Nat) (poison : Bool) (s : State) : State :=
  let x := queue s q
  let w := fun (i : Nat) =>
    match (if i < 2 then d0 else d1) with
    | some d => BitVec.ofNat 64 (bytesAt d (8 * (i % 2)) 8)
    | none => Config.lostItem q (30 * page + slot) i
  let x := { x with rdMove := .none }
  if x.head.any (fun i => !i.inReg && i.hg == some (page, slot)) then
    let again := fun (i : QItem) =>
      let f := itemFlags hdr i.ix (i.it.pend, i.it.poison)
      { i with inReg := true, it := mkItem (w i.ix) f.1 (f.2 || poison) }
    setQueue q { x with head := modWhere (fun i => !i.inReg && i.hg == some (page, slot)) again x.head } s
  else
    match x.mid with
    | h :: rest =>
      if h.page = page ∧ h.slot = slot then
        let items := h.flags.zipIdx.map (fun e =>
          let f := itemFlags hdr e.2 e.1
          (⟨mkItem (w e.2) f.1 (f.2 || poison), true, some (page, slot), e.2⟩ : QItem))
        setQueue q { x with mid := rest, head := x.head ++ items } s
      else setQueue q x s
    | [] => setQueue q x s

/-- The head reads the oldest half-group: two data reads and the read of its header's block (R283). -/
def startRefill (q : Nat) (s : State) : State :=
  let x := queue s q
  match refillSource x with
  | none => s
  | some (p, sl) =>
    if decide (x.rdMove ≠ .none) || decide (4 < headUsed x) then s
    else
      let base := pageAddr s p
      let a := base + BitVec.ofNat 32 (64 + 32 * sl)
      let h := (base + BitVec.ofNat 32 (4 + 2 * sl)) &&& 0xFFFFFFF0
      let s := setQueue q { x with rdMove := .read p sl none none none false 3 } s
      let s := submit (spillWant s q (.dataRd 0) false a 0xFFFF 0 false) s
      let s := submit (spillWant s q (.dataRd 1) false (a + 16) 0xFFFF 0 false) s
      submit (spillWant s q .headRd false h 0xFFFF 0 false) s

/-- Nothing more comes of the queue's spill accesses in flight, but for those of its links and the free list's
writes; those not yet issued are dropped. -/
def dropSpill (q : Nat) (s : State) : State :=
  let mine := fun (o : Owner) => match o with
    | .spill _ .linkWr | .spill _ (.freeWr _) => false
    | .spill k _ => k == q
    | _ => false
  { s with offered := s.offered.filter (fun a => !mine a.owner)
           outst := modWhere (fun a => mine a.owner) (fun a => { a with orphan := true }) s.outst }

/-- CFG.RESET (R299). -/
def resetQueue (q : Nat) (s : State) : State :=
  let x := queue s q
  let busy := match x.wrMove with | .alloc _ => true | _ => false
  let s := setQueue q { x with tail := [], mid := [], head := [], held := [], pages := [], openN := 0, openDel := 0, resetAt := some s.eclk,
                               hostIn := [], markv := false, allocf := false, sperr := false, wrMove := .none, rdMove := .none } (dropSpill q s)
  let s := if busy then endListRead s else s
  x.pages.foldl (fun s p => freePage q p.num s) s

end Sys2Proof.Machine
end

