-- ==== Sys2Proof/Machine/Seq.lean ====
section
/-! DEFINITION. The slot sequencers: leg fetches and the leg cache (R59 to R65), waits (R117 to R123), diverts and
fires (R72, R249, R250), wakes and parking (R65 to R67), faults (R322 to R327), starts and stops (R50 to R58, R330). -/

namespace Sys2Proof.Machine

/-! ### Lanes, as the sequencers see them -/

def lane (s : State) (l : Nat) : LaneSt := tget {} s.lanes l
def setLane (l : Nat) (x : LaneSt) (s : State) : State := { s with lanes := tset {} s.lanes l x }

/-- The lane that holds a burst of channel c. -/
def laneOf (s : State) (c : Nat) : Option Nat :=
  (s.lanes.find? (fun e => match e.2.burst with | some b => b.ch == c | none => false)).map (·.1)

def laneOwner (l : Nat) (o : Owner) : Bool := match o with | .lane k _ => k == l | _ => false

/-- End channel c's burst at once: what has not reached a write is discarded and reads are orphaned (R330). -/
def abortBurst (c : Nat) (s : State) : State :=
  match laneOf s c with
  | none => s
  | some l =>
    match (lane s l).burst with
    | none => s
    | some b =>
      let s := setLane l { lane s l with burst := some { b with limit := min b.limit b.nxt, why := .aborted, wq := [], resDone := true } } s
      orphanReads (laneOwner l) s

def covered (s : State) (c : Nat) : Nat := (ctx s c).w.wLoc + (ctx s c).w.wRem

def addCovered (c : Nat) (loc : Bool) (s : State) : State :=
  modW c (fun w => if loc then { w with wLoc := w.wLoc + 1 } else { w with wRem := w.wRem + 1 }) s
def dropCovered (c : Nat) (loc : Bool) (s : State) : State :=
  modW c (fun w => if loc then { w with wLoc := w.wLoc - 1 } else { w with wRem := w.wRem - 1 }) s

/-- The ECLK in which channel c is armed again for a level request whose work was done in ECLK t (R192). -/
def rearmFrom (s : State) (c t : Nat) : Nat := t + (7 + filterLen s (legReq s c)) / 2

/-- Channel c's burst no. n has an access that waits or is outstanding. -/
def ofBurst (c n : Nat) (ch : Option (Nat × Nat × Nat)) (bno : Nat) : Bool := ch.map (·.1) == some c && bno == n
def burstBusy (s : State) (c n : Nat) : Bool :=
  s.offered.any (fun a => ofBurst c n a.ch a.bno) || s.outst.any (fun a => ofBurst c n a.ch a.bno) ||
  s.fab.out.any (fun f => ofBurst c n f.ch f.bno) ||
  s.lanes.any (fun e => match e.2.burst with | some b => b.ch == c && b.no == n | none => false)

/-- The re-arm delay runs from the ECLK in which the last access of the consuming burst completed (R192). -/
def noteQuiet (c : Nat) (s : State) : State :=
  let w := (ctx s c).w
  match w.consNo with
  | some n =>
    if !w.armed && w.rearmAt.isNone && !w.reqHeld && !burstBusy s c n then modW c (fun w => { w with rearmAt := some (rearmFrom s c w.lastAcc) }) s else s
  | none => s

/-- An access of channel c's burst no. n has completed. -/
def noteAcc (c n : Nat) (s : State) : State :=
  if (ctx s c).w.consNo == some n then noteQuiet c (modW c (fun w => { w with lastAcc := s.eclk }) s) else s

/-! ### Missed firings (R250, R254) -/

def fireRec (s : State) (type_ c reason act : Nat) (f : Fire) : Rec :=
  { mkRec s s.grat.book type_ 0x0A c (f.index + 2 ^ 12 * act + 2 ^ 16 * reason) f.due (f.tag.toNat + 2 ^ 16 * min 32767 f.skipped) with
    time := f.time }

def missed (c reason : Nat) (f : Fire) (s : State) : State :=
  let s := markCount (w1cKey 0x3088 32) { s with grat := { s.grat with missCnt := sat16 s.grat.missCnt } }
  if s.grat.missRec then offer .ctl none (fireRec s 0x19 c reason 0 f) s else s

/-- A pending fire is cleared, and so missed (R250). -/
def dropFire (c reason : Nat) (s : State) : State :=
  match (ctx s c).w.fire with
  | some f => missed c reason f (modW c (fun w => { w with fire := none }) s)
  | none => s

/-! ### Faults (R322, R325) -/

def ownsRead (c : Nat) (o : Owner) : Bool := match o with | .load k => k == c | _ => false

/-- Channel c waits for no fetch any more; a read-through that is out is orphaned (R329). -/
def leaveFetch (c : Nat) (s : State) : State :=
  let left := s.fetches.map (fun f => { f with waiters := f.waiters.filter (· != c), dropped := f.dropped || decide (f.kind = .endW0 c) })
  { s with fetches := left.filter (fun f => match f.kind with | .endW0 k => k != c || f.issued | _ => true) }

/-- The read-through of channel c's END that waits or is under way. -/
def endReadOf (c : Nat) (f : Fetch) : Bool := decide (f.kind = .endW0 c) && !f.dropped
/-- A read-through that has not been issued is given up; it is requested again when the channel goes on (R51, R63). -/
def dropEndRead (c : Nat) (s : State) : State := { s with fetches := s.fetches.filter (fun f => !(endReadOf c f && !f.issued)) }

/-- The element count in a data leg under way; zero outside data legs (R325). -/
def faultCount (x : Ctx) : Nat :=
  match x.w.phase with
  | .data | .burst _ | .dataBar => if isData (opOf x.r.leg) then x.r.ecount else 0
  | _ => 0

/-- Raise a fault: FCODE is written, no further leg or read begins, reads are orphaned, and issued writes go on. -/
def raiseFault (c code : Nat) (addr : GAddr) (late : Bool) (s : State) : State :=
  let x := ctx s c
  if x.w.faulting.isSome || decide (x.r.state = .off) || decide (x.r.state = .fault) then s
  else
    let info : FaultInfo := { code := BitVec.ofNat 8 code, addr := addr, time := merWord s, state := x.r.state, late := late,
                              count := faultCount x, pc := x.r.pc }
    let s := setCtx s c { r := { x.r with fcode := BitVec.ofNat 8 code, rearm := false, desc := .none, deadline := none },
                          w := { x.w with faulting := some info, phase := .idle, pausePend := false, urgent := false } }
    leaveFetch c (orphanReads (ownsRead c) (abortBurst c s))

/-- A fault with no access of its own carries the PC (R325). -/
def faultPc (c code : Nat) (s : State) : State := raiseFault c code (localAddr (ctx s c).r.pc) false s

def faultRecValue (f : FaultInfo) : W64 :=
  BitVec.ofNat 64 (f.addr.toNat + 2 ^ 48 * f.code.toNat + 2 ^ 56 * stateCode f.state + 2 ^ 60 * bool f.late)

/-- The channel-fault record (R325), with the time of the raising. -/
def offerFault (c : Nat) (f : FaultInfo) (s : State) : State :=
  offer .ctl none { mkRec s (legBook s c) 0x06 1 c f.pc.toNat (faultRecValue f) f.count with time := f.time } s

/-! ### The leg cache and the leg-fetch port (R60 to R63, R450) -/

def lineOf (a : W32) : W32 := a &&& 0xFFFFFF80
def setOf (a : W32) : Nat := fld a 12 7
def legIn (l : Line) (a : W32) : Leg :=
  match fld a 6 5 with
  | 0 => l.l0
  | 1 => l.l1
  | 2 => l.l2
  | _ => l.l3

def isLine (s : State) (line : W32) (col : Nat) (e : CLine) : Bool :=
  e.addr == line && e.colour == col && e.epoch == s.atlas.epoch
def cacheFind (s : State) (line : W32) (col : Nat) : Option CLine := s.lcache.find? (isLine s line col)
def touchLine (line : W32) (col : Nat) (s : State) : State :=
  { s with lcache := s.lcache.filter (isLine s line col) ++ s.lcache.filter (fun e => !isLine s line col e) }
/-- Fill a line: the least recently used of a full set of 8 goes (R27). -/
def fillLine (e : CLine) (s : State) : State :=
  let others := s.lcache.filter (fun o => !(o.addr == e.addr && o.colour == e.colour))
  let mine := (others.filter (fun o => setOf o.addr == setOf e.addr)).take 7
  { s with lcache := e :: (mine ++ others.filter (fun o => setOf o.addr != setOf e.addr)) }
/-- Invalidate the line that holds an address, under every colour (R64, R65). -/
def invalidate (a : W32) (s : State) : State :=
  { s with lcache := s.lcache.filter (fun e => e.addr != lineOf a)
           fetches := modWhere (fun f => f.addr == lineOf a && decide (f.kind = .demand ∨ f.kind = .prefetch ∨ f.kind = .retry)) (fun f => { f with stale := true }) s.fetches }

def fetchAsk (a : W32) (col srck srcn : Nat) : Ask :=
  { point := 8, colour := col, wr := false, type_ := 2, srck := srck, srcn := srcn, addr := a }

/-- A new request at the leg-fetch port; its lookup begins (R450). -/
def newFetch (kind : FetchKind) (c : Nat) (a : W32) (waiters : List Nat) (s : State) : State :=
  let q := fetchAsk a (legColour s c) 0 c
  let (s, lat) := beginLookup q s
  let f : Fetch := { kind := kind, addr := a, colour := legColour s c, waiters := waiters,
                     clss := if decide (kind = .prefetch) then [] else [(c, legClass s c)], at_ := s.eclk,
                     readyAt := s.eclk + lat, denied := false, issued := false, busySeen := false, dropped := false,
                     epoch := s.atlas.epoch }
  { s with fetches := s.fetches ++ [f] }

def isFill (f : Fetch) : Bool := match f.kind with | .demand | .prefetch => true | _ => false
def fillOf (line : W32) (col : Nat) (f : Fetch) : Bool := isFill f && f.addr == line && f.colour == col && !f.stale && !f.dropped

/-- A prefetch of the line that holds a, unless it is cached or on its way (R61). -/
def prefetch (c : Nat) (a : W32) (s : State) : State :=
  let line := lineOf a
  if (cacheFind s line (legColour s c)).isSome || s.fetches.any (fillOf line (legColour s c)) then s
  else newFetch .prefetch c line [] s

/-- A demand fetch joins a fetch of the line on its way, or makes one (R62). -/
def demand (c : Nat) (line : W32) (s : State) : State :=
  let col := legColour s c
  match s.fetches.find? (fillOf line col) with
  | some _ =>
    let join := fun (g : Fetch) =>
      { g with waiters := g.waiters.filter (· != c) ++ [c], clss := g.clss.filter (fun x => x.1 != c) ++ [(c, legClass s c)], kind := .demand }
    { s with fetches := modWhere (fillOf line col) join s.fetches }
  | none => newFetch .demand c line [c] s

def enterWait (c : Nat) (why : WaitReason) (d : WaitDesc) (s : State) : State :=
  setCtx s c { r := { (ctx s c).r with state := .wait, wait := why, desc := d }, w := { (ctx s c).w with progressed := true } }

/-- Back to ACTIVE: the wait's reason, descriptor and deadline go. -/
def leaveWait (c : Nat) (s : State) : State :=
  setCtx s c { r := { (ctx s c).r with state := .active, wait := .none, desc := .none, deadline := none },
               w := { (ctx s c).w with waitFrom := s.eclk, acting := false } }

/-- A wait ends by its condition or its deadline: a channel that is not resident ranks as one with a request (R118). -/
def rankMet (c : Nat) (s : State) : State := modW c (fun w => { w with urgent := w.urgent || !resident s c }) s

/-- The channel's next access targets a domain that is not up (R378); a channel whose VETO stood when the request came is
noted (R40, R379).  A parked channel that reads its END again is held likewise (log entry 44). -/
def goHeld (c d : Nat) (addr : GAddr) (s : State) : State :=
  let x := ctx s c
  if decide (x.r.state = .active) || decide (x.r.state = .wait) || decide (x.r.state = .parked) then
    let s := setCtx s c { r := { x.r with state := .held, wait := .domain, desc := .domain d, deadline := x.r.deadline },
                          w := { x.w with heldAddr := addr, progressed := true, heldAt := some s.eclk } }
    if (tget [] s.power.vets d).contains c && bit s.power.window d then { s with power := { s.power with vetoes := s.power.vetoes ++ [(d, c, addr, s.eclk)] } } else s
  else s

/-- A fetch at address a that is not to be issued, because BANKBUSY is set, holds its channel (R63, R384, R386). -/
def flashHold (c : Nat) (a : W32) (s : State) : State :=
  match flashBank s a with
  | some b =>
    if bit s.flash.busy b && decide ((ctx s c).r.state = .active) then
      modW c (fun w => { w with flashCnt := 0 }) (enterWait c .flashBusy (.flash b) s)
    else s
  | none => s

/-- A cached line is read: a correctable error in it is used and written back, an uncorrectable one loses the line
(R340). -/
def readLine (e : CLine) (s : State) : State :=
  if e.bad then uncorrected 1 0 (Config.scrubWord 1 (setOf e.addr)) { s with lcache := s.lcache.erase e }
  else if e.soft then corrected 1 0 (Config.scrubWord 1 (setOf e.addr)) { s with lcache := modWhere (fun x => decide (x = e)) (fun x => { x with soft := false }) s.lcache }
  else s

/-- Fetch the line at PC through the port; a busy bank or a domain that is not up holds the channel (R63, R378). -/
def fetchPort (c : Nat) (s : State) : State :=
  let pc := (ctx s c).r.pc
  match shutDomain s (lineOf pc) with
  | some d => goHeld c d (localAddr pc) s
  | none => flashHold c pc (demand c (lineOf pc) s)

/-- Fetch the leg at PC: from the cache, or through the port.  A channel without a slot fetches once it is paged in
(R54). -/
def startFetch (c : Nat) (s : State) : State :=
  let s := modW c (fun w => { w with phase := .fetch }) s
  let pc := (ctx s c).r.pc
  if !resident s c || decide ((ctx s c).r.state ≠ .active) then s
  else
    match cacheFind s (lineOf pc) (legColour s c) with
    | some e =>
      let s := touchLine (lineOf pc) (legColour s c) (readLine e s)
      if e.bad then fetchPort c s
      else setCtx s c { r := { (ctx s c).r with leg := legIn e.data pc }, w := { (ctx s c).w with phase := .ready, legAt := none } }
    | none => fetchPort c s

/-- A leg arrives for a channel that waits for it. -/
def deliverLeg (c : Nat) (l : Leg) (s : State) : State :=
  let x := ctx s c
  if decide (x.w.phase = .fetch) then
    let wasFlash := decide (x.r.state = .wait) && decide (x.r.wait = .flashBusy)
    let s := if wasFlash then leaveWait c s else s
    setCtx s c { r := { (ctx s c).r with leg := l }, w := { (ctx s c).w with phase := .ready, legAt := none } }
  else s

/-- Go on at an address (R59). -/
def goto (c : Nat) (pc : W32) (s : State) : State :=
  let s := modR c (fun r => { r with pc := pc }) s
  if (ctx s c).w.pausePend || haltOn s then modW c (fun w => { w with phase := .fetch }) s else startFetch c s

/-- The leg is complete and control goes to a target, or to the successor of R59; a drain stops here (R330). -/
def finishTo (c : Nat) (target : Option W32) (s : State) : State :=
  let s := modW c (fun w => { w with legNo := w.legNo + 1, progressed := true, legAt := none, acting := false }) s
  let r := (ctx s c).r
  if decide (r.state = .draining) then modW c (fun w => { w with phase := .idle }) s
  else
    match target with
    | some t => goto c t s
    | none =>
      let n := nextOf r.leg
      if decide (n = 0) then goto c (r.pc + 32) s
      else if fld n 4 0 ≠ 0 then faultPc c 0x03 s
      else goto c n s

/-- A leg completes; a record it raised and that is not yet accepted keeps the channel at it (R18). -/
def finish (c : Nat) (s : State) : State :=
  if heldFor s c then modW c (fun w => { w with phase := .recWait }) s else finishTo c none s

/-- A wait leg completes with Z (R117, R118). -/
def finishZ (c : Nat) (z : Bool) (s : State) : State :=
  finish c (rankMet c (modR c (fun r => { r with flags := { r.flags with z := z } }) (leaveWait c s)))

/-! ### Events of a patterned leg (R77, R264 to R267) -/

def legEvent (c type_ : Nat) (s : State) : State :=
  let r := (ctx s c).r
  let s := if evoeOf r.leg then fireEvo (evoOf r.leg) s else s
  if evrOf r.leg then offerCh c type_ r.pc.toNat (BitVec.ofNat 64 (r.ecount % 2 ^ 48)) (flagWord r.flags) s else s

/-- A patterned leg is complete: its completion event, and the next leg. -/
def completeData (c : Nat) (s : State) : State :=
  let r := (ctx s c).r
  if decide (r.state = .draining) then finishTo c none s
  else finish c (if evfOf r.leg then legEvent c 2 s else s)

/-- Every burst is done: BAR waits for the channel's writes (R78). -/
def dataDone (c : Nat) (s : State) : State :=
  let r := (ctx s c).r
  if decide (r.state = .draining) then finishTo c none s
  else if barOf r.leg && decide (0 < covered s c) then
    modW c (fun w => { w with phase := .dataBar }) (enterWait c .barrier .barAfter s)
  else completeData c s

/-! ### Burst boundaries (R76, R143, R202) -/

def popQueue (l : Leg) : Nat := fld l.w1 5 0
def pushQueue (l : Leg) : Nat := fld l.w2 5 0

/-- Room for PUSH: the queue is not full (R143, R286). -/
def hasRoom (s : State) (q : Nat) : Bool := decide ((queue s q).tail.length < 8) || !isFull s (queue s q)

/-- A patterned leg stands at a burst boundary: it waits for its queue, or for a request, or is a candidate with
its request consumed. -/
def toBoundary (c : Nat) (s : State) : State :=
  let s := modW c (fun w => { w with phase := .data }) s
  let x := ctx s c
  let l := x.r.leg
  if decide (x.r.state ≠ .active) then s
  else if decide (opOf l = 0x19) && !bit l.w1 6 && decide (deliverable (queue s (popQueue l)) = 0) then
    enterWait c .queue (.popItem (popQueue l)) s
  else if decide (opOf l = 0x18) && !hasRoom s (pushQueue l) then enterWait c .queueSpace (.pushRoom (pushQueue l)) s
  else if paceOf l && !x.w.reqHeld then
    if !resident s c then s
    else if 0 < pendOf s c then
      let s := consume c 1 s
      modW c (fun w => { w with reqHeld := true, consNo := if w.armed then none else some (w.burstNo + 1), lastAcc := s.eclk }) s
    else enterWait c .request .burstRequest s
  else s

/-! ### Waits (R117 to R123) -/

def waitReason (d : WaitDesc) : WaitReason :=
  match d with
  | .none => .none
  | .request _ | .burstRequest => .request
  | .time _ => .time
  | .items _ _ | .packet _ | .popItem _ => .queue
  | .pushRoom _ => .queueSpace
  | .barrierLeg _ | .barBefore | .barAfter => .barrier
  | .flash _ => .flashBusy
  | .domain _ => .domain

/-- The condition of a wait holds. -/
def condMet (s : State) (c : Nat) (d : WaitDesc) : Bool :=
  match d with
  | .none => false
  | .request n => decide (n ≤ pendOf s c) || (levelMode (inp s (legReq s c)) && decide (0 < pendOf s c))
  | .burstRequest => decide (0 < pendOf s c)
  | .time t => decide (t.toNat ≤ merInt s)
  | .items q n => decide (n ≤ deliverable (queue s q))
  | .packet q => hasPacketEnd (queue s q)
  | .popItem q => decide (0 < deliverable (queue s q))
  | .pushRoom q => hasRoom s q
  | .barrierLeg loc => if loc then decide ((ctx s c).w.wLoc = 0) else decide (covered s c = 0)
  | .barBefore | .barAfter => decide (covered s c = 0)
  | .flash b => !bit s.flash.busy b
  | .domain d => domainUp s d

def deadlineReached (s : State) (c : Nat) : Bool :=
  match (ctx s c).r.deadline with
  | some t => decide (t ≤ merInt s)
  | none => false

/-- A WAITREQ that consumed the level request completes: the re-arm delay runs from now (R192). -/
def rearmNow (c : Nat) (s : State) : State :=
  if (ctx s c).w.armed then s else modW c (fun w => { w with rearmAt := some (rearmFrom s c s.eclk) }) s

/-- Go on after a wait whose condition is met (R52, R117). -/
def satisfied (c : Nat) (d : WaitDesc) (s : State) : State :=
  match d with
  | .request n => finishZ c true (rearmNow c (consume c n s))
  | .burstRequest | .popItem _ | .pushRoom _ => toBoundary c (rankMet c (leaveWait c s))
  | .items _ _ | .packet _ | .barrierLeg _ | .time _ => finishZ c true s
  | .barBefore =>
    if decide ((ctx s c).r.state = .draining) then modW c (fun w => { w with phase := .ready }) (modR c (fun r => { r with desc := .none }) s)
    else modW c (fun w => { w with phase := .ready, acting := true }) (rankMet c (leaveWait c s))
  | .barAfter => completeData c (rankMet c (leaveWait c s))
  | .flash _ => leaveWait c s
  | .domain _ | .none => s

/-! ### END, parking, wakes, diverts and fires (R65 to R67, R71, R72, R249) -/

/-- Request the read-through of the END leg's W0: now, or once the channel is paged in (R54, R66). -/
def startEndRead (c : Nat) (s : State) : State :=
  let pc := (ctx s c).r.pc
  let s := dropEndRead c (modW c (fun w => { w with phase := .endRead }) s)
  if !resident s c then
    (if decide ((ctx s c).r.state = .parked) then modW c (fun w => { w with urgent := true, waitFrom := s.eclk }) s else s)
  else
  let s := modW c (fun w => { w with urgent := false }) s
  match shutDomain s pc with
  | some d => goHeld c d (localAddr pc) s
  | none =>
    let s := newFetch (.endW0 c) c pc [] s
    flashHold c pc s

def divertHeld (s : State) (c : Nat) : Bool :=
  ((ctx s c).r.divPend || (ctx s c).w.fire.isSome) && (ctx s c).w.faulting.isNone

/-- Take the pending divert, or else the pending fire; a fire behind a divert is missed (R72, R249, R250). -/
def takeDivert (c : Nat) (clearWake : Bool) (s : State) : State :=
  let r := (ctx s c).r
  let s := leaveFetch c (leaveWait c s)
  let s := if clearWake then modW c (fun w => { w with woken := false, urgent := false }) (modR c (fun r => { r with wake := false }) s) else s
  if r.divPend then
    let s := offerNow .ctl (legBook s c) 0x05 1 c r.pc.toNat (BitVec.setWidth 64 r.divTarget) 0 s
    let s := modR c (fun r => { r with divPend := false }) s
    goto c r.divTarget (dropFire c 3 s)
  else
    match (ctx s c).w.fire with
    | some f => goto c f.leg (modW c (fun w => { w with fire := none }) s)
    | none => s

/-- The channel waits in a leg with SAF that is no data leg, PUSH or POP, and not for a fetch (R72). -/
def waitsSafe (s : State) (c : Nat) : Bool :=
  let x := ctx s c
  decide (x.r.state = .wait) && decide (x.w.phase = .waiting) && safOf x.r.leg && !isPatterned (opOf x.r.leg)

/-- Take what is held where it can be taken at once (R72). -/
def divertNow (c : Nat) (s : State) : State :=
  if divertHeld s c && !heldFor s c then
    if decide ((ctx s c).r.state = .parked) then takeDivert c true s
    else if waitsSafe s c then takeDivert c false s else s
  else s

/-- A parked channel goes on with what is held: a divert or fire, or a sticky wake, which makes it read W0 again (R67,
R72); not before the record of its END is accepted (R18). -/
def afterPark (c : Nat) (s : State) : State :=
  if heldFor s c then s
  else if divertHeld s c then takeDivert c true s
  else if (ctx s c).r.wake || (ctx s c).w.woken then
    startEndRead c (modW c (fun w => { w with woken := false }) (modR c (fun r => { r with wake := false }) s))
  else s

/-- END read NEXT = 0: a divert or fire that came meanwhile is taken, and the channel does not park; else it enters
PARKED, with its traverse-end record, or stays there (R52, R65, R138). -/
def park (c : Nat) (s : State) : State :=
  let was := decide ((ctx s c).r.state = .parked)
  if divertHeld s c && !was then takeDivert c true s
  else
    let s := modR c (fun r => { r with state := .parked, wait := .none, desc := .none }) s
    let s := modW c (fun w => { w with phase := .parked, progressed := true }) s
    let s := if evfOf (ctx s c).r.leg && !was then offerCh c 4 (ctx s c).r.pc.toNat 0 0 s else s
    afterPark c s

/-- A wake (R66); one that comes to END's read, or before its record is accepted, is held. -/
def wake (c : Nat) (s : State) : State :=
  let x := ctx s c
  match x.r.state with
  | .parked =>
    if decide (x.w.phase = .endRead) || x.w.faulting.isSome then modR c (fun r => { r with wake := true }) s
    else if heldFor s c then modW c (fun w => { w with woken := true }) s
    else startEndRead c s
  | .active | .wait | .held | .paused | .halted => modR c (fun r => { r with wake := true }) s
  | .off | .draining | .fault => s

/-- A wake by the engine itself; it waits while the channel's context moves (R57). -/
def sendWake (c : Nat) (s : State) : State :=
  if inTransfer s c then { s with ctl := s.ctl ++ [(c, .wake)] } else wake c s

/-- A Graticule fire reaches its channel (R249, R250). -/
def fireAt (c : Nat) (f : Fire) (s : State) : State :=
  let x := ctx s c
  match x.r.state with
  | .off | .draining | .fault => missed c 1 f s
  | _ =>
    if x.w.fire.isSome then missed c 2 f s
    else
      let far := decide (x.r.state = .parked) && !resident s c
      let s := divertNow c (modW c (fun w => { w with fire := some f }) s)
      if far then modW c (fun w => { w with urgent := true }) s else s

/-! ### Starts and stops (R49 to R58, R330) -/

/-- CH_START as a start in this ECLK reads it: a write in the same ECLK comes after (R448). -/
def startValue (s : State) (c : Nat) : W32 :=
  match (ctx s c).w.startWas with
  | some (t, v) => if t = s.eclk then v else (ctx s c).r.start
  | none => (ctx s c).r.start

/-- Start afresh (R53); during a global halt the channel goes to HALTED (R52).  The leg copy, and the values of the divert
target and the return address, which R53 makes not valid, become 0 (DESIGN CHOICE, log entry 45). -/
def startChannel (c : Nat) (s : State) : State :=
  let s := dropFire c 4 s
  let x := ctx s c
  let r : CtxRegs := { en := true, start := x.r.start, pc := startValue s c, slot := x.r.slot, bytes := x.r.bytes,
                       energy16 := x.r.energy16, rearmCnt := x.r.rearmCnt, sc1 := 1, state := .active }
  let w : Work := { run := x.w.run + 1, armed := true, wLoc := x.w.wLoc, wRem := x.w.wRem, pagedAt := x.w.pagedAt, usedAt := x.w.usedAt,
                    progressed := x.w.progressed, waitFrom := s.eclk, phase := .fetch, burstNo := x.w.burstNo }
  if haltOn s then setCtx s c { r := { r with state := .halted, resume := .active }, w := w }
  else startFetch c (setCtx s c { r := r, w := w })

/-- An unpinned channel releases its slot when it enters OFF (R218). -/
def releaseSlot (c : Nat) (s : State) : State :=
  match (ctx s c).r.slot with
  | some n =>
    if legPin s c then s
    else modR c (fun r => { r with slot := none }) { s with slots := tset .free s.slots n (.releasing c) }
  | none => s

def enterOff (c : Nat) (aborted : Bool) (s : State) : State :=
  let x := ctx s c
  releaseSlot c (setCtx s c { r := { x.r with state := .off, wait := .none, desc := .none, deadline := none, aborted := aborted, rearm := false },
                              w := { x.w with phase := .idle, faulting := none, aborting := false, reqHeld := false, toOff := false } })

/-- The channel is at its stop point (R51).  END's read is a leg under way until it has returned; one that waits for its bank
or its domain, or that a global halt keeps from issue, has taken no action and begins again (log entry 44). -/
def atStop (s : State) (c : Nat) : Bool :=
  let x := ctx s c
  x.w.faulting.isNone && (laneOf s c).isNone &&
  (match x.r.state with
   | .active | .wait | .parked | .held =>
     match x.w.phase with
     | .fetch | .ready | .waiting | .data | .dataBar | .parked => true
     | .single => decide (x.r.state = .held)
     | .endRead =>
       decide (x.r.state = .wait) || decide (x.r.state = .held) ||
       (s.halt.issueStop && !s.fetches.any (fun f => endReadOf c f && f.issued))
     | _ => false
   | _ => false)

/-- Where a channel that pauses or halts begins again: a leg that waits in its barrier begins again with it (R51). -/
def stopWork (w : Work) (d : WaitDesc) : Work :=
  { w with pausePend := false, progressed := true, flashCnt := 0, legAt := if d = .barBefore then none else w.legAt }

/-- The state that a stop leaves: a hold of the same ECLK comes after it (R333). -/
def leftState (s : State) (x : Ctx) : ChState :=
  if decide (x.r.state = .held) && decide (x.w.heldAt = some s.eclk) then .active else x.r.state

def enterPaused (c : Nat) (s : State) : State :=
  let x := ctx s c
  dropEndRead c (setCtx s c { r := { x.r with state := .paused, resume := leftState s x, wait := .none,
                                              desc := if leftState s x = x.r.state then x.r.desc else .none }, w := stopWork x.w x.r.desc })

def tryPause (c : Nat) (s : State) : State :=
  if (ctx s c).w.pausePend && atStop s c && !haltOn s then enterPaused c s else s

/-- Enter HALTED; from PAUSED, the pause return state takes the resume state (R52). -/
def enterHalted (c : Nat) (s : State) : State :=
  let x := ctx s c
  if decide (x.r.state = .paused) then
    setCtx s c { x with r := { x.r with state := .halted, pauseRet := x.r.resume, resume := .paused } }
  else
    dropEndRead c (setCtx s c { r := { x.r with state := .halted, resume := if x.w.pausePend then .paused else leftState s x,
                                                pauseRet := if x.w.pausePend then leftState s x else x.r.pauseRet, wait := .none },
                                w := { stopWork x.w x.r.desc with haltWait := x.r.wait } })

/-- END's read is requested (again), unless a divert or fire is held, which is taken instead (R72), or the read is out. -/
def endAgain (c : Nat) (s : State) : State :=
  if divertHeld s c then takeDivert c true s
  else if s.fetches.any (fun f => endReadOf c f && f.issued) then s else startEndRead c s

/-- Go on in ACTIVE where the channel stands. -/
def continueCh (c : Nat) (s : State) : State :=
  match (ctx s c).w.phase with
  | .fetch => startFetch c s
  | .data => toBoundary c s
  | .endRead => endAgain c s
  | _ => s

/-- Enter a state that a pause or a halt was to come back to (R52, R117). -/
def reenter (c : Nat) (st : ChState) (s : State) : State :=
  let s := modR c (fun r => { r with state := st, wait := if decide (st = .wait) || decide (st = .held) then waitReason r.desc else .none }) s
  match st with
  | .active => continueCh c (modW c (fun w => { w with waitFrom := s.eclk }) s)
  | .wait =>
    let d := (ctx s c).r.desc
    (match d with
     | .flash _ => continueCh c (leaveWait c s)
     | .barBefore => satisfied c d s
     | _ =>
       if condMet s c d then satisfied c d s
       else if deadlineReached s c then finishZ c false s
       else divertNow c s)
  | .held => if condMet s c (ctx s c).r.desc then continueCh c (leaveWait c s) else s
  | .parked => if decide ((ctx s c).w.phase = .endRead) then endAgain c s else afterPark c s
  | _ => s

/-- RESUME (R52).  Outside PAUSED and HALTED the resume state and the pause return state read 0 (DESIGN CHOICE, log entry
45). -/
def resume (c : Nat) (s : State) : State :=
  let r := (ctx s c).r
  reenter c r.resume (modR c (fun r => { r with resume := .off }) s)

/-- Leave HALTED at recovery (R337). -/
def unhalt (c : Nat) (s : State) : State :=
  let r := (ctx s c).r
  if decide (r.resume = .paused) then modR c (fun r => { r with state := .paused, resume := r.pauseRet, pauseRet := .off }) s
  else resume c s

/-- What a drain stops at once (R330): between legs, a data leg between bursts, and wait legs; a burst and any other leg under
way complete, one that has begun and waits in its barrier among them. -/
def drainPhase (acting : Bool) (p : Phase) : Phase :=
  match p with
  | .burst l => .burst l
  | .single => .single
  | .recWait => .recWait
  | .endRead => .endRead
  | .waiting => if acting then .waiting else .idle
  | .ready => if acting then .ready else .idle
  | _ => .idle

/-- A single access of channel c. -/
def singleOf (c : Nat) (o : Owner) : Bool := match o with | .load k | .store k => k == c | _ => false

/-- Single accesses of channel c that have not been issued are given up. -/
def dropSingles (c : Nat) (s : State) : State :=
  let gone := s.offered.filter (fun a => singleOf c a.owner && a.wr)
  let s := { s with offered := s.offered.filter (fun a => !singleOf c a.owner) }
  gone.foldl (fun s a => dropCovered c (isLocal s a.gaddr) s) s

/-- From HALTED, PAUSED and HELD nothing is under way but issued accesses (R58, R382). -/
def drain (c : Nat) (s : State) : State :=
  let x := ctx s c
  let still := match x.r.state with | .halted | .paused | .held => true | _ => false
  let s := if still then dropSingles c s else s
  let x := ctx s c
  let p := if still then .idle else drainPhase x.w.acting x.w.phase
  let s := setCtx s c { r := { x.r with en := false, state := .draining, wait := .none, desc := if p = .waiting then x.r.desc else .none,
                                        deadline := none },
                        w := { x.w with phase := p, pausePend := false, reqHeld := false, progressed := true } }
  if p = .endRead then s else leaveFetch c s

def abort (c : Nat) (s : State) : State :=
  let s := dropSingles c (dropFire c 4 s)
  let x := ctx s c
  let s := setCtx s c { r := { x.r with en := false, state := .draining, wait := .none, desc := .none, deadline := none, rearm := false,
                                        divPend := false, wake := false },
                        w := { x.w with phase := .idle, pausePend := false, aborting := true, reqHeld := false, toOff := false,
                                        storeLeft := 0, progressed := true, acting := false } }
  let s := { s with heldRecs := s.heldRecs.filter (fun h => !(h.own == some c && h.recd.type_ == 3)) }
  leaveFetch c (orphanReads (ownsRead c) (abortBurst c s))

/-- Nothing of what a drain keeps is left (R330). -/
def drained (s : State) (c : Nat) : Bool :=
  let x := ctx s c
  decide (covered s c = 0) && (laneOf s c).isNone && decide (x.w.phase = .idle)

end Sys2Proof.Machine
end

