-- ==== Sys2Proof/Machine/Lane.lean ====
section
/-! DEFINITION. The lanes: granting a burst (R202 to R208), forming its accesses (R147 to R158), in-cluster copies
(R88, R89), the elements' way through packer, scale stage, elision and writer, and the burst's end (R13, R85). -/

namespace Sys2Proof.Machine

def burstOn (s : State) (l : Nat) : Option Burst := (lane s l).burst
def modB (l : Nat) (f : Burst → Burst) (s : State) : State :=
  setLane l { lane s l with burst := (lane s l).burst.map f } s

/-- The burst ends at element j, if it does not end earlier. -/
def cutAt (j : Nat) (why : BurstEnd) (b : Burst) : Burst := if j < b.limit then { b with limit := j, why := why } else b
def cut (l j : Nat) (why : BurstEnd) (s : State) : State := modB l (cutAt j why) s

def elAt (b : Burst) (j : Nat) : Option El := b.els[j]?
def setEl (j : Nat) (f : El → El) (b : Burst) : Burst := { b with els := b.els.modify j f }

def homeOfLane (l : Nat) : Nat := l / 2

/-- A lane's access, under the COLOUR and CLASS of its grant (R40). -/
def laneWant (s : State) (l : Nat) (b : Burst) (side : Side) (wr : Bool) (a : BlkAcc) (d : W128) (poison : Bool) : Want :=
  { owner := .lane l side, wr := wr, colour := b.colour, gaddr := a.blk, mask := accMask a, data := d, poison := poison,
    parts := a.parts, home := homeOfLane l, rank := rankClass b.cls, ord := l,
    ch := some (b.ch, b.run, (ctx s b.ch).w.legNo), bno := b.no, elided := eliOf b.leg && wr, srck := 0, srcn := b.ch }

/-- The address of the first part of an access. -/
def firstAddr (a : BlkAcc) : GAddr := match a.parts with | p :: _ => a.blk + BitVec.ofNat 45 p.at_ | [] => a.blk
def firstEl (a : BlkAcc) : Nat := match a.parts with | p :: _ => p.el | [] => 0

/-- Offer one read access of a burst: parts past its end are left out; a domain that is not up ends the burst at the
access's first element (R378); no read is issued in a halt (R335). -/
def readAcc (l : Nat) (side : Side) (s : State) (a0 : BlkAcc) : State :=
  match burstOn s l with
  | none => s
  | some b =>
    let a := { a0 with parts := a0.parts.filter (fun p => decide (p.el < b.limit)) }
    if a.parts.isEmpty then s
    else if haltStop s then cut l (firstEl a) .haltCut s
    else
      let shut := if isLocal s a.blk then shutDomain s (gLocal a.blk) else none
      match shut with
      | some d => cut l (firstEl a) (.held d (firstAddr a)) s
      | none => submit (laneWant s l b side false a 0 false) s

def readSide (l : Nat) (side : Side) (accs : List BlkAcc) (s : State) : State := accs.foldl (readAcc l side) s

/-- The first element of a remote side that would cross into another node (R150). -/
def crossCut (s : State) (l : Nat) (base : GAddr) (w : Nat) (offs : List Int) : State :=
  if isLocal s base then s
  else
    match offs.zipIdx.find? (fun e => crosses base e.1 w) with
    | some e => cut l e.2 (.faulted 0x13 (moveAddr base e.1)) s
    | none => s

def addrs (base : GAddr) (offs : List Int) : List (Nat × GAddr) := offs.zipIdx.map (fun e => (e.2, moveAddr base e.1))

def swB (l : Leg) : Nat := widthBytes (swOf l)
def dwB (l : Leg) : Nat := widthBytes (dwOf l)
/-- MOVEX: the destination is indexed. -/
def scatter (l : Leg) : Bool := bit l.w3 32
def indexW (l : Leg) : Nat := 2 ^ fld l.w3 34 33
def isElided (l : Leg) : Bool := eliOf l && (opOf l == 0x10 || opOf l == 0x14)
def usesSrc (l : Leg) : Bool := let op := opOf l; op != 0x11 && op != 0x19
def usesDst (l : Leg) : Bool := let op := opOf l; op == 0x10 || op == 0x11 || op == 0x14 || op == 0x16 || op == 0x19

/-! ### In-cluster copies (R88, R89) -/

def overlapping (w : Nat) (xs ys : List GAddr) : Bool :=
  xs.any (fun x => ys.any (fun y => decide (x.toNat < y.toNat + w) && decide (y.toNat < x.toNat + w)))

/-- Whether a burst runs as an in-cluster copy. -/
def inClusterOk (s : State) (l : Leg) (srcs dsts : List GAddr) : Bool :=
  let w := swB l
  let all := srcs ++ dsts
  let home := match all with | a :: _ => clusterOf s (gLocal a) | [] => none
  opOf l == 0x10 && !eliOf l && swOf l == dwOf l && all.all (fun a => isLocal s a && decide (a.toNat % w = 0)) && home.isSome
  && all.all (fun a => clusterOf s (gLocal a) == home && (shutDomain s (gLocal a)).isNone)
  && !overlapping w (srcs.map (fun a => BitVec.setWidth 45 (gLocal a))) (dsts.map (fun a => BitVec.setWidth 45 (gLocal a)))

/-- The blocks that an in-cluster copy reads, and those that it writes. -/
def copySides (r : CtxRegs) (b : Burst) : List BlkAcc × List BlkAcc :=
  (formSide (swB b.leg) (addrs (srcOf b.leg) (b.els.map (fun e => srcOff r e.k))),
   formSide (dwB b.leg) (addrs (dstOf b.leg) (b.els.map (fun e => dstOff r e.k))))

/-- The domains that an in-cluster copy touches. -/
def copyDoms (s : State) (b : Burst) : W16 :=
  let as := b.els.map (·.src) ++ b.els.map (·.dst)
  as.foldl (fun m a => match domainOf s (gLocal a) with | some d => setBit m d true | none => m) 0

/-- A check-only lookup of an in-cluster copy begins (R89). -/
def checkOnly (l : Nat) (wr : Bool) (s : State) (a : BlkAcc) : State :=
  match burstOn s l with
  | none => s
  | some b =>
    let w := laneWant s l b (if wr then .dst else .src) wr a 0 false
    let r := beginLookup (askOf w) s
    enqueue { accOf r.1 w r.2 with only := true } r.1

/-- Tags of lane l's private allotment that are held (R214). -/
def laneTags (s : State) (l : Nat) : Nat :=
  (s.outst.filter (fun a => laneOwner l a.owner && !a.shared)).length + bool (copyTag (lane s l))

/-- A write of channel c that is not yet accepted shares a byte with a block access (R260). -/
def writeOver (s : State) (c : Nat) (a : BlkAcc) : Bool :=
  (s.offered ++ s.outst).any (fun x => x.wr && x.ch.map (·.1) == some c && isLocal s x.gaddr && x.blk == gLocal a.blk && x.mask &&& accMask a != 0)

/-- An in-cluster copy takes its tag and begins its lookups: once its lane has a tag left (R214), and the channel's writes to
its bytes are accepted (R260); a domain that is no longer up holds it (R378). -/
def startCopy (l : Nat) (s : State) : State :=
  match burstOn s l with
  | none => s
  | some b =>
    let sides := copySides (ctx s b.ch).r b
    if !b.inCluster || b.started || decide (b.limit = 0) then s
    else
      match (sides.1 ++ sides.2).find? (fun a => (shutDomain s (gLocal a.blk)).isSome) with
      | some a => cut l 0 (.held ((shutDomain s (gLocal a.blk)).getD 0) (firstAddr a)) s
      | none =>
        if haltStop s then cut l 0 .haltCut s
        else if decide (256 ≤ laneTags s l) || (sides.1 ++ sides.2).any (writeOver s b.ch) then s
        else
          let s := modB l (fun b => { b with started := true, epoch := s.atlas.epoch, doms := copyDoms s b }) s
          markTags (sides.2.foldl (checkOnly l true) (sides.1.foldl (checkOnly l false) s))

/-! ### Granting (R202 to R208) -/

def reserved (s : State) (l : Nat) : Bool := bit s.glob.rmask l
def laneOpen (s : State) (l : Nat) : Bool :=
  (burstOn s l).isNone && (lane s l).ready && !bit s.fences.onLane l && decide ((lane s l).freeAt ≤ s.eclk)

/-- The queue condition of PUSH and POP (R143, R202). -/
def queueReady (s : State) (l : Leg) : Bool :=
  match opOf l with
  | 0x18 => hasRoom s (pushQueue l)
  | 0x19 => bit l.w1 6 || decide (0 < deliverable (queue s (popQueue l)))
  | _ => true

/-- The channel is a candidate for some lane. -/
def standsReady (s : State) (c : Nat) : Bool :=
  let x := ctx s c
  x.r.slot.isSome && !inSwap s c && decide (x.r.state = .active) && decide (x.w.phase = .data) && x.w.faulting.isNone && !x.w.pausePend
  && (!paceOf x.r.leg || x.w.reqHeld) && queueReady s x.r.leg

def candidate (s : State) (l c : Nat) : Bool :=
  standsReady s c && (legAff s c).testBit l && (!reserved s l || decide (legClass s c ≤ s.glob.rcls))

def distance (s : State) (c : Nat) : Nat := (c + 1024 - tget 0 s.rr (legClass s c)) % 1024

/-- Whether c goes before w (R207). -/
def before (s : State) (c w : Nat) : Bool :=
  decide (legClass s c < legClass s w) || (decide (legClass s c = legClass s w) && decide (distance s c < distance s w))

def best (s : State) (l : List Nat) : Option Nat :=
  l.foldl (fun o c => match o with | none => some c | some w => if before s c w then some c else some w) none

def lanesInOrder (s : State) : List Nat :=
  let all := [0, 1, 2, 3, 4, 5, 6, 7]
  all.filter (reserved s) ++ all.filter (fun l => !reserved s l)

def choose (s : State) (l : Nat) : Option Nat := best s ((s.ctxs.map (·.1)).filter (candidate s l))

/-- The first free lane in the order of R208 that has a candidate, and the channel it takes. -/
def nextGrant (s : State) : Option (Nat × Nat) :=
  ((lanesInOrder s).filter (laneOpen s)).findSome? (fun l => (choose s l).map (fun c => (l, c)))

/-- The burst of channel c (R152), on lane l. -/
def newBurst (s : State) (c : Nat) : Burst :=
  let x := ctx s c
  let r := x.r
  let l := r.leg
  let n := min (burstOf l) (totalOf r - r.ecount)
  let els := (List.range n).map (fun j =>
    let k := r.ecount + j
    let (i0, i1, i2) := indexOf r k
    ({ k := k, i0 := i0, i1 := i1, i2 := i2, src := moveAddr (srcOf l) (srcOff r k), dst := moveAddr (dstOf l) (dstOff r k) } : El))
  { ch := c, no := x.w.burstNo + 1, colour := legColour s c, cls := legClass s c, run := x.w.run, leg := l, base := r.ecount, els := els, limit := n, acc := vreg r (accReg l),
    formed := !(opOf l == 0x16), resDone := !(opOf l == 0x15 && bit l.w3 7 && decide (r.ecount + n = totalOf r)),
    firstMis := x.w.firstMis, misCnt := x.w.misCnt, misVal := x.w.misVal, fN := x.w.misN, taken := x.w.taken }

/-- Form the burst's first accesses. -/
def dispatch (l c : Nat) (s : State) : State :=
  match burstOn s l with
  | none => s
  | some b =>
    let r := (ctx s c).r
    let g := b.leg
    let op := opOf g
    let offS := b.els.map (fun e => srcOff r e.k)
    let offD := b.els.map (fun e => dstOff r e.k)
    if inClusterOk s g (b.els.map (·.src)) (b.els.map (·.dst)) then
      startCopy l (modB l (fun b => { b with inCluster := true, nxt := b.limit }) s)
    else
      let s := if usesSrc g && !(op == 0x16 && !scatter g) then crossCut s l (srcOf g) (swB g) offS else s
      let s := if (usesDst g && !(op == 0x16 && scatter g)) || op == 0x12 then crossCut s l (dstOf g) (dwB g) offD else s
      let s := if usesSrc g && op != 0x16 then readSide l .src (formSide (swB g) (addrs (srcOf g) offS)) s else s
      let s := if op == 0x16 && scatter g then readSide l .src (formSide (swB g) (addrs (srcOf g) offS)) s else s
      let s := if op == 0x12 then readSide l .oth (formSide (swB g) (addrs (dstOf g) offD)) s else s
      let s := if op == 0x16 then
          let idx := b.els.map (fun e => ((e.k * indexW g : Nat) : Int))
          readSide l .idx (formSide (indexW g) (addrs (localAddr (BitVec.ofNat 32 (fld g.w3 31 0))) idx)) s
        else s
      if usesDst g && !isElided g && !(op == 0x16 && scatter g) then
        modB l (fun b => { b with wq := formSide (dwB g) (addrs (dstOf g) offD) }) s
      else s

/-! ### Data and responses -/

/-- The bytes of one part come to its element. -/
def takePart (side : Side) (d : W128) (poison : Bool) (b : Burst) (p : Part) : Burst :=
  let v := bytesAt d p.at_ p.len
  setEl p.el (fun e =>
    match side with
    | .src => { e with data := placeBytes e.data p.off p.len v, got := e.got + p.len, poison := e.poison || poison }
    | .oth => { e with oth := placeBytes e.oth p.off p.len v, othGot := e.othGot + p.len, othPoison := e.othPoison || poison }
    | .idx => { e with idx := placeBytes e.idx p.off p.len v, idxGot := e.idxGot + p.len, idxPoison := e.idxPoison || poison }
    | .shRd => { e with sh := placeBytes e.sh p.off p.len v, shGot := e.shGot + p.len, shPoison := e.shPoison || poison }
    | _ => e) b

def laneData (l : Nat) (side : Side) (parts : List Part) (d : W128) (poison : Bool) (s : State) : State :=
  modB l (fun b => parts.foldl (takePart side d poison) b) s

/-- A lane's access fails: the burst ends at the access's first element (R85). -/
def laneFail (l code : Nat) (parts : List Part) (blk : GAddr) (s : State) : State :=
  cut l (firstEl ⟨blk, parts⟩) (.faulted (BitVec.ofNat 8 code) (firstAddr ⟨blk, parts⟩)) s

/-! ### The elements' way through the lane -/

/-- The bytes of an access, from its elements' delivered values. -/
def writeData (b : Burst) (a : BlkAcc) : W128 × Bool :=
  a.parts.foldl (fun (acc : W128 × Bool) p =>
    match elAt b p.el with
    | some e => (placeBytes acc.1 p.at_ p.len (bytesAt e.out p.off p.len), acc.2 || e.outPoison)
    | none => acc) (0, false)

/-- Offer one write of a burst; one to a domain that is not up ends the burst (R378). -/
def writeAcc (l : Nat) (side : Side) (a : BlkAcc) (d : W128) (poison : Bool) (s : State) : State :=
  match burstOn s l with
  | none => s
  | some b =>
    let loc := isLocal s a.blk
    match (if loc then shutDomain s (gLocal a.blk) else none) with
    | some dm => cut l (firstEl a) (.held dm (firstAddr a)) s
    | none => addCovered b.ch loc (submit (laneWant s l b side true a d poison) s)

/-- A part whose value is known may still be written: it lies before the burst's end, or its element failed in another
part by a denial (R156). -/
def mayWrite (b : Burst) (p : Part) : Bool :=
  decide (p.el < b.limit) || (decide (p.el = b.limit) && (match b.why with | .faulted 0x10 _ => true | _ => false))
/-- The same of a part that waits for its value. -/
def stillWritten (b : Burst) (p : Part) : Bool := mayWrite b p && (decide (p.el < b.limit) || decide (b.limit < b.nxt))

/-- Offer the writes that are ready, in order; a write is ready once all its parts have their values. -/
def flushWrites (l : Nat) : Nat → State → State
  | 0, s => s
  | n + 1, s =>
    match burstOn s l with
    | none => s
    | some b =>
      match b.wq with
      | [] => s
      | a0 :: rest =>
        let a := { a0 with parts := a0.parts.filter (stillWritten b) }
        if a.parts.isEmpty then flushWrites l n (modB l (fun b => { b with wq := rest }) s)
        else if a.parts.all (fun p => decide (p.el < b.nxt)) then
          let (d, poison) := writeData b a
          flushWrites l n (writeAcc l .dst a d poison (modB l (fun b => { b with wq := rest }) s))
        else s

/-- The indexed side of MOVEX, once every index has come (R97 to R99). -/
def formIndexed (l : Nat) (s : State) : State :=
  match burstOn s l with
  | none => s
  | some b =>
    let g := b.leg
    let els := b.els.take b.limit
    if b.formed || !(els.all (fun e => decide (indexW g ≤ e.idxGot))) then s
    else
      let s := match b.els.zipIdx.find? (fun e => e.1.idxPoison && decide (e.2 < b.limit)) with
        | some e => cut l e.2 (.faulted 0x12 (moveAddr (localAddr (BitVec.ofNat 32 (fld g.w3 31 0))) ((e.1.k * indexW g : Nat) : Int))) s
        | none => s
      let off := fun (e : El) => readInt (indexW g) (bit g.w3 35) e.idx.toNat * ((2 ^ fld g.w3 38 36 : Nat) : Int)
      let offs := els.map off
      let at_ := fun (base : GAddr) (e : El) => moveAddr base (off e)
      let place := fun (e : El) => if scatter g then { e with dst := at_ (dstOf g) e } else { e with src := at_ (srcOf g) e }
      let s := modB l (fun b => { b with formed := true, els := b.els.map place }) s
      if scatter g then
        let s := crossCut s l (dstOf g) (dwB g) offs
        modB l (fun b => { b with wq := formSide (dwB g) (addrs (dstOf g) offs) }) s
      else
        let s := crossCut s l (srcOf g) (swB g) offs
        readSide l .src (formSide (swB g) (addrs (srcOf g) offs)) s

/-- The value an element delivers to the writer, and whether it saturated. -/
def deliver (r : CtxRegs) (fillVal : W64) (g : Leg) (e : El) : W128 × Bool :=
  match opOf g with
  | 0x11 => (fillElem (dwB g) fillVal, false)
  | 0x14 =>
    let (y, sat) := transform r (swB g) (ssgOf g) (dwB g) (dsgOf g) e.data.toNat
    (BitVec.ofNat 128 (unsig (8 * dwB g) y), sat && !e.poison)
  | _ => (convertWidth (swB g) (dwB g) (ssgOf g) e.data, false)

/-- The shadow element of element e (R90). -/
def shadowAddr (r : CtxRegs) (g : Leg) (e : El) : GAddr := moveAddr (localAddr (BitVec.ofNat 32 (fld g.w3 31 0))) (dstOff r e.k)

/-- The one or two accesses of a single element. -/
def elAccs (j : Nat) (a : GAddr) (w : Nat) : List BlkAcc := (partsOf none j a w).map (fun bp => ⟨bp.1, [bp.2]⟩)

/-- The latest element before j with the same destination (R91). -/
def sameDest (b : Burst) (j : Nat) (d : GAddr) : Option El := ((b.els.take j).filter (fun e => e.dst == d)).getLast?

/-- Some part of an element lies in a local sheet with DEVICE set (R92). -/
def deviceEl (s : State) (a : GAddr) (w : Nat) : Bool := (elAccs 0 a w).any (fun x => isLocal s x.blk && inDevice s (gLocal x.blk))

/-- One step of an elided element (R90 to R92): shadow read, comparison, destination write, shadow write.  The check point
finds the destination's DEVICE attribute where it is written (R308, step 6); the shadow's, and that of a destination that
needs no write, are found here. -/
def elideStep (l j : Nat) (b : Burst) (e : El) (s : State) : Option State :=
  let g := b.leg
  let r := (ctx s b.ch).r
  let sha := shadowAddr r g e
  match b.elide with
  | .idle =>
    if e.poison && !poiOf g then some (cut l j (.faulted 0x12 e.src) s)
    else if deviceEl s sha (dwB g) then some (cut l j (.faulted 0x14 sha) s)
    else
      let (y, sat) := deliver r 0 g e
      let fill := fun (e : El) => { e with out := y, outPoison := e.poison, shGot := 0 }
      let n := if opOf g = 0x14 then 1 else 0
      let s := modB l (fun b => { setEl j fill b with elide := .shadowAsked, fS := b.fS || sat, fP := b.fP || e.poison, xforms := b.xforms + n }) s
      some (readSide l .shRd (elAccs j sha (dwB g)) s)
  | .shadowAsked =>
    if e.shGot < dwB g then none
    else
      let prior := sameDest b j e.dst
      let ref := match prior with | some p => p.out | none => e.sh
      let refPoison := match prior with | some p => p.outPoison | none => e.shPoison
      if e.out == ref && !refPoison && !e.outPoison && !bit g.w3 32 then
        if deviceEl s e.dst (dwB g) then some (cut l j (.faulted 0x14 e.dst) s)
        else some (modB l (fun b => { b with elide := .idle, nxt := j + 1, fD := true }) s)
      else
        let s := (elAccs j e.dst (dwB g)).foldl (fun s a =>
          let (d, poison) := match burstOn s l with | some b => writeData b a | none => (0, false)
          writeAcc l .dst a d poison s) s
        some (modB l (fun b => { b with elide := .destSent }) s)
  | .destSent =>
    if s.offered.any (fun a => decide (a.owner = .lane l .dst)) then none
    else
      let s := (elAccs j sha (dwB g)).foldl (fun s a =>
        match burstOn s l with
        | some b => if j < b.limit then let (d, poison) := writeData b a; writeAcc l .shWr a d poison s else s
        | none => s) s
      some (modB l (fun b => { b with elide := .idle, nxt := j + 1 }) s)

/-- CMP and CMPK judge an element (R80, R101, R102). -/
def judge (j : Nat) (e : El) (b : Burst) : Burst :=
  let g := b.leg
  let poison := e.poison || e.othPoison
  if poison && !poiOf g then cutAt j (.faulted 0x12 (if e.poison then e.src else e.dst)) b
  else
    let ok := matchesEl g e.data e.oth && !poison
    let b := { b with nxt := j + 1, fP := b.fP || poison }
    if ok then b
    else
      let first := b.firstMis.isNone
      let b := { b with fM := true, misCnt := b.misCnt + 1,
                        firstMis := if first then some e.k else b.firstMis,
                        misVal := if first then cmpValue g e.data else b.misVal,
                        fN := if first then decide (opOf g = 0x12) && lessEl g e.data e.oth else b.fN }
      if bit g.w3 8 then cutAt (j + 1) .legEnd { b with why := if b.limit = j + 1 then .legEnd else b.why } else b

/-- REDUCE folds an element (R80, R171). -/
def foldEl (r : CtxRegs) (j : Nat) (e : El) (b : Burst) : Burst :=
  let g := b.leg
  if e.poison && !poiOf g then cutAt j (.faulted 0x12 e.src) b
  else if e.poison then { b with nxt := j + 1, fP := true, xforms := b.xforms + (if bit g.w3 6 then 1 else 0) }
  else
    let (x, sat) := if bit g.w3 6 then transform r (swB g) (ssgOf g) 4 (dsgOf g) e.data.toNat
      else (readInt (swB g) (ssgOf g) e.data.toNat, false)
    let (acc, s2) := foldAcc (fld g.w3 4 3) (accSigned g) b.acc x
    { b with nxt := j + 1, acc := acc, fS := b.fS || sat || s2, xforms := b.xforms + 1 }

/-- PUSH places an element (R141, R143); the queue accepts one item in an ECLK, so a lane that is not served waits (R288). -/
def pushEl (l j : Nat) (b : Burst) (e : El) (s : State) : Option State :=
  let g := b.leg
  let q := pushQueue g
  if e.poison && !poiOf g then some (cut l j (.faulted 0x12 e.src) s)
  else if !acceptsNow s (queue s q) then none
  else if (queue s q).tail.length < 8 then
    let last := decide (e.k + 1 = totalOf (ctx s b.ch).r)
    let s := place q (mkItem (extend64 (swB g) (ssgOf g) e.data) (bit g.w2 6 && last) e.poison) s
    some (modB l (fun b => { b with nxt := j + 1, fP := b.fP || e.poison }) s)
  else if isFull s (queue s q) || decide ((ctx s b.ch).r.state = .draining) then some (cut l j .queue s)
  else none

/-- The item goes to POP's element (R142). -/
def popItem (l j : Nat) (b : Burst) (it : Item) (s : State) : State :=
  let g := b.leg
  if it.poison && !poiOf g then cut l j (.faulted 0x12 ((elAt b j).map (·.dst) |>.getD 0)) (modB l (fun b => { b with taken := b.taken + 1 }) s)
  else
    let d : W128 := BitVec.setWidth 128 it.data
    let fill := fun (e : El) => { e with data := d, idxPoison := it.pend, poison := it.poison, outPoison := it.poison,
                                         out := convertWidth 8 (dwB g) false d }
    let s := modB l (fun b => { setEl j fill b with nxt := j + 1, taken := b.taken + 1, fP := b.fP || it.poison }) s
    if bit g.w1 7 && it.pend then
      let stop := fun (b : Burst) => if b.limit = j + 1 then { b with why := .legEnd, onPacket := true }
        else { cutAt (j + 1) .legEnd b with onPacket := true }
      modB l stop s
    else s

/-- The part of a POP's element that lies in a domain that is not up: the burst ends before an item is taken (R378). -/
def popShut (s : State) (b : Burst) (j : Nat) : Option (Nat × GAddr) :=
  (match elAt b j with | some e => elAccs j e.dst (dwB b.leg) | none => []).findSome? (fun (a : BlkAcc) =>
    if isLocal s a.blk then (shutDomain s (gLocal a.blk)).map (fun d => (d, firstAddr a)) else none)

/-- POP takes an item, or the idle item (R142, R143, R294); an empty queue ends the burst.  Items that a held burst had
taken come first (R378; log entry 30). -/
def popEl (l j : Nat) (b : Burst) (s : State) : Option State :=
  let g := b.leg
  let q := popQueue g
  match popShut s b j, (ctx s b.ch).w.back with
  | some (d, a), _ => some (cut l j (.held d a) s)
  | none, it :: rest => some (popItem l j b it (modW b.ch (fun w => { w with back := rest }) s))
  | none, [] =>
  if deliverable (queue s q) = 0 then
    if bit g.w1 6 then
      let idle := convertWidth 8 (dwB g) false (BitVec.setWidth 128 (queue s q).idle)
      let fill := fun (e : El) => { e with out := idle, othPoison := true }
      some (modB l (fun b => { setEl j fill b with nxt := j + 1, fI := true }) s)
    else some (cut l j .queue s)
  else
    match take? q s with
    | none => if decide ((ctx s b.ch).r.state = .draining) then some (cut l j .queue s) else none
    | some (it, s) => some (popItem l j b it s)

/-- The holding buffer is read for element j: an uncorrectable error in it poisons the element (R340). -/
def readHolding (l j : Nat) (s : State) : State :=
  let x := lane s l
  let a := match burstOn s l with | some b => ((elAt b j).map (fun e => BitVec.setWidth 64 e.src)).getD 0 | none => 0
  if x.upset then
    uncorrected (11 + l) 0 a (modB l (fun b => setEl j (fun e => { e with poison := true }) b) (setLane l { x with upset := false } s))
  else if x.soft then corrected (11 + l) 0 a (setLane l { x with soft := false } s)
  else s

/-- The element that a burst works on next, once what it needs has come; PUSH and POP work with their queue, once in an
ECLK (R288). -/
def nextEl (s : State) (l : Nat) (ofQueue : Bool) : Option (Burst × El) :=
  match burstOn s l with
  | none => none
  | some b =>
    if b.limit ≤ b.nxt || b.inCluster || !b.formed || isPushPop (opOf b.leg) != ofQueue then none
    else
      match elAt b b.nxt with
      | some e => if usesSrc b.leg && decide (e.got < swB b.leg) then none else some (b, e)
      | none => none

/-- A lane's PUSH or POP does its next element, if its queue serves it in this ECLK (R288). -/
def queueStep (l : Nat) (s0 : State) : State :=
  match nextEl s0 l true with
  | none => s0
  | some (b0, _) =>
    let s := if usesSrc b0.leg then readHolding l b0.nxt s0 else s0
    match nextEl s l true with
    | none => s
    | some (b, e) => (if opOf b.leg = 0x18 then pushEl l b.nxt b e s else popEl l b.nxt b s).getD s

/-- The next element of a burst, if what it needs has come. -/
def elementStep (l : Nat) (s0 : State) : Option State :=
  match nextEl s0 l false with
  | none => none
  | some (b0, _) =>
      let s := if usesSrc b0.leg then readHolding l b0.nxt s0 else s0
      match nextEl s l false with
      | none => none
      | some (b, e) =>
          let j := b.nxt
          let g := b.leg
          match opOf g with
          | 0x12 => if e.othGot < swB g then none else some (modB l (judge j e) s)
          | 0x13 => some (modB l (judge j e) s)
          | 0x15 => some (modB l (foldEl (ctx s b.ch).r j e) s)
          | _ =>
            if isElided g then elideStep l j b e s
            else if e.poison && !poiOf g then some (cut l j (.faulted 0x12 e.src) s)
            else
              let (y, sat) := deliver (ctx s b.ch).r (ctx s b.ch).w.fillVal g e
              let fill := fun (e : El) => { e with out := y, outPoison := e.poison }
              let n := if opOf g = 0x14 then 1 else 0
              some (modB l (fun b => { setEl j fill b with nxt := j + 1, fS := b.fS || sat, fP := b.fP || e.poison, xforms := b.xforms + n }) s)

/-- REDUCE's result write, after the last element has been folded (R105, R173, R174). -/
def resultWrite (l : Nat) (s : State) : State :=
  match burstOn s l with
  | none => s
  | some b =>
    if b.resDone || decide (b.nxt < b.limit) then s
    else
      let s := modB l (fun b => { b with resDone := true }) s
      if b.limit < b.els.length || decide (b.why ≠ .complete) then s
      else
        let g := b.leg
        let (y, sat) := reduceResult g b.acc
        if !isLocal s (dstOf g) && crosses (dstOf g) 0 (dwB g) then
          modB l (fun b => { b with why := .faulted 0x13 (dstOf g) }) s
        else
          let s := modB l (fun b => { b with fS := b.fS || sat }) s
          (elAccs 0 (dstOf g) (dwB g)).foldl (fun s a =>
            let d := a.parts.foldl (fun d p => placeBytes d p.at_ p.len (bytesAt y p.off p.len)) (0 : W128)
            match (if isLocal s a.blk then shutDomain s (gLocal a.blk) else none) with
            | some dm => modB l (fun b => { b with why := .held dm (firstAddr a) }) s
            | none => addCovered b.ch (isLocal s a.blk) (submit (laneWant s l b .res true a d false) s)) s

def elementLoop (l : Nat) : Nat → State → State
  | 0, s => s
  | n + 1, s => match elementStep l s with | some s' => elementLoop l n s' | none => s

/-- The lane does what it can with what has come: at most 256 elements, each in up to three steps. -/
def advance (l : Nat) (s : State) : State :=
  match burstOn s l with
  | none => s
  | some b =>
    let s := formIndexed l s
    let s := elementLoop l (3 * b.els.length + 1) s
    let s := flushWrites l (2 * b.els.length + 2) s
    resultWrite l s

/-- Grant a burst: dispatch entry, pointer of the class, and the lane's first accesses (R12, R207). -/
def grant (s : State) : State :=
  match nextGrant s with
  | none => s
  | some (l, c) =>
    let b := newBurst s c
    let s := setLane l { lane s l with burst := some b } s
    let s := modW c (fun w => { w with phase := .burst l, reqHeld := false, usedAt := s.eclk, burstNo := w.burstNo + 1 }) s
    let s := { s with rr := tset 0 s.rr (legClass s c) ((c + 1) % 1024) }
    markTags (advance l (dispatch l c s))

/-- The burst has done all it will do, and its local writes are accepted (R82). -/
def burstDone (s : State) (l : Nat) : Bool :=
  match burstOn s l with
  | none => false
  | some b =>
    decide (b.limit ≤ b.nxt) && b.wq.isEmpty && (b.resDone || decide (b.why = .aborted)) && (!b.inCluster || copyOver b || (!b.started && decide (b.why = .aborted)))
    && (decide (b.elide = .idle) || decide (b.limit ≤ b.nxt))
    && !(s.offered.any (fun a => laneOwner l a.owner && a.wr)) && !(s.outst.any (fun a => laneOwner l a.owner && a.wr))

end Sys2Proof.Machine
end

