-- ==== Sys2Proof/Machine/BookOps.lean ====
section
/-! DEFINITION. The field-book writer: taking records from the staging buffer, writing them to the rings, and their
outcomes (R272 to R280, R451). -/

namespace Sys2Proof.Machine

def book (s : State) (b : Nat) : Book := tget {} s.books b
def bookStatus (b : Nat) : Nat := 0x2420 + 0x40 * b
def setBook (b : Nat) (x : Book) (s : State) : State := { s with books := tset {} s.books b x }

/-- PENDING (R272). -/
def bookPending (x : Book) : Nat := (x.widx - x.ridx).toNat
def ringFull (x : Book) : Bool := decide (2 ^ x.size ≤ bookPending x)
/-- The interrupt line (R280). -/
def bookInt (x : Book) : Bool := x.ie && (decide (x.thresh.toNat < bookPending x) || x.err || x.expired)

/-- The slot of the record that is to be number w, and its PHASE (R273, R275). -/
def slotAddr (x : Book) : W32 := BitVec.ofNat 32 (x.base.toNat * 32 + 32 * (x.widx.toNat % 2 ^ x.size))
def phaseBit (x : Book) : Bool := decide ((x.widx.toNat / 2 ^ x.size) % 2 = 0)

def recWant (b : Nat) (second : Bool) (u : Under) : Want :=
  { owner := .record b second, wr := true, colour := 15, gaddr := localAddr (if second then u.addr + 16 else u.addr), mask := 0xFFFF,
    data := if second then BitVec.ofNat 128 (u.w2.toNat + u.w3.toNat * 2 ^ 64) else BitVec.ofNat 128 (u.w0.toNat + u.w1.toNat * 2 ^ 64),
    home := 0, rank := rankRecord, ord := 8, srck := 3, srcn := 1 }

/-- A record's words (R268). -/
def recWords (x : Book) (r : Rec) : Under :=
  { w0 := BitVec.ofNat 64 (r.type_.toNat + 2 ^ 8 * r.kind.toNat + 2 ^ 16 * (r.num % 1024) + 2 ^ 32 * r.detail.toNat)
    w1 := r.time
    w2 := r.value
    w3 := BitVec.ofNat 64 (x.seq.toNat + 2 ^ 32 * r.detail2.toNat + 2 ^ 63 * bool (phaseBit x))
    addr := slotAddr x, second := false, denied := false }

/-- The writer puts a record under way: it takes a sequence number, and both writes' lookups begin (R276, R277). -/
def writeRecord (b : Nat) (r : Rec) (s : State) : State :=
  let x := book s b
  let u := recWords x r
  let s := setBook b { x with seq := x.seq + 1, under := some u } s
  blockEnergy 192 (submit (recWant b true u) (submit (recWant b false u) s))

/-- The records-lost record (R278). -/
def lostRecord (s : State) (b : Nat) : Rec :=
  mkRec s b 0x5F 0x0B b (min (book s b).drops 0xFFFFFFFF) (BitVec.setWidth 64 (book s b).firstDrop) 0

def lostDue (s : State) (b : Nat) : Bool :=
  let x := book s b
  x.en && x.lostpend && !ringFull x && x.under.isNone

def takeLost (b : Nat) (s : State) : State :=
  let r := lostRecord s b
  let s := setBook b { book s b with lostpend := false, drops := 0 } s
  writeRecord b r s

/-- The record that is accepted next of those held: of the management plane first, then data, then control (R16). -/
def nextHeld (s : State) : Option HeldRec :=
  let pick := fun p => if planeDue p s then s.heldRecs.find? (isPlane p) else none
  (pick .mgt).orElse (fun _ => (pick .data).orElse (fun _ => pick .ctl))

/-- A channel whose last record is accepted goes on from its leg (R18). -/
def released (c : Nat) (s : State) : State :=
  match (ctx s c).w.phase with
  | .recWait => finishTo c none s
  | .parked => if decide ((ctx s c).r.state = .parked) then afterPark c s else s
  | _ => s

/-- One held record is accepted where the buffer has room; a channel whose record is accepted goes on (R16, R18). -/
def acceptHeld (s : State) : State :=
  if 64 ≤ s.staged.length then s
  else
    match nextHeld s with
    | none => s
    | some h =>
      let s := accept h.plane h.recd { s with heldRecs := s.heldRecs.erase h }
      match h.own with
      | some c => if heldFor s c then s else released c s
      | none => s

/-- A record is taken in this ECLK; at most one is (R451). -/
def taken (s : State) : State := { s with recClk := { s.recClk with takenAt := some s.eclk } }

/-- The writer takes the record at the head of its buffer (R451): it waits while its book has one under way; it is
discarded when the book is off or full; else it is written, a due records-lost record first. -/
def takeRecord (s : State) : State :=
  match s.staged with
  | [] =>
    match [0, 1, 2, 3, 4, 5, 6, 7].find? (lostDue s) with
    | some b => takeLost b (taken s)
    | none => s
  | r :: rest =>
    let x := book s r.book
    if x.under.isSome then s
    else if lostDue s r.book then takeLost r.book (taken s)
    else
      let s := taken { s with staged := rest }
      let s :=
        if !x.en then setBook r.book { x with lost := sat32 x.lost } s
        else if ringFull x then
          setBook r.book { x with lost := sat32 x.lost, drops := x.drops + 1, firstDrop := if x.drops = 0 then x.seq else x.firstDrop,
                                  seq := x.seq + 1, lostpend := true } s
        else writeRecord r.book r s
      s

/-- The second write is accepted: WIDX counts the record, and the timer starts when PENDING leaves 0 (R276, R280). -/
def recordDone (b : Nat) (s : State) : State :=
  let x := book s b
  markCount (w1cKey (bookStatus b) 0) <|
  setBook b { x with under := none, widx := x.widx + 1,
                     timerAt := if bookPending x = 0 then max x.timerAt (merInt s) else x.timerAt } s

/-- A record's write is denied or fails (R279); EN as the host has written it in the same ECLK stands (R448). -/
def recordFailed (b : Nat) (s : State) : State :=
  let x := book s b
  let s := { s with offered := s.offered.filter (fun a => !decide (a.owner = .record b true)) }
  markSet (w1cKey (bookStatus b) 19) (setBook b { x with under := none, en := x.en && setNow s (w1cKey (bookStatus b) 63), err := true } s)

/-- The first write is accepted: the second may be issued (R276). -/
def recordFirst (b : Nat) (s : State) : State :=
  match (book s b).under with
  | none => s
  | some u => setBook b { book s b with under := some { u with second := true } } s

/-- EN from 0 to 1 (R274); a 1 in the ECLK in which hardware has cleared it is no change (R448). -/
def enableBook (b : Nat) (s : State) : State :=
  let x := book s b
  if x.en then s
  else if setNow s (w1cKey (bookStatus b) 19) then setBook b { x with en := true } s
  else setBook b { x with en := true, widx := 0, ridx := 0, seq := 0, lostpend := false, drops := 0, expired := false } s

/-- A write of RIDX (R451), against WIDX as it stood at the start of the ECLK (R448). -/
def writeRidx (b : Nat) (v : W32) (s : State) : State :=
  let x := book s b
  if (v - x.ridx).toNat ≤ bookPending x - countNow s (w1cKey (bookStatus b) 0) then
    setBook b { x with ridx := v, timerAt := merInt s, expired := false } s
  else markSet (w1cKey (bookStatus b) 20) (setBook b { x with badidx := true } s)

def timerDue (s : State) (b : Nat) : Bool :=
  let x := book s b
  decide (x.timer ≠ 0) && decide (0 < bookPending x) && decide (x.timerAt + x.timer.toNat * 1000 ≤ merInt s)

end Sys2Proof.Machine
end

