-- ==== Sys2Proof/Machine/Wire.lean ====
section
/-! DEFINITION. Frames and link words as the wire carries them (R348, R352, R353, R366, R367, R369, R370). -/

namespace Sys2Proof.Machine

/-- The control character K28.y. -/
def k28 (y : Nat) : W8 := BitVec.ofNat 8 (32 * y + 28)
/-- The first character of a link word (R348). -/
def firstChar (w : LinkWord) : W8 :=
  match w with
  | .idle => k28 5
  | .skip => k28 0
  | .ack _ => k28 1
  | .nak _ => k28 2
  | .credit _ _ => k28 3
  | .ident _ _ => k28 4
  | .train => k28 7
/-- Byte 0 of every header, sent as K27.7 (R348, R352). -/
def sof : W8 := 0xFB

def kindOf (b : Body) : Nat :=
  match b with
  | .wrs _ _ _ _ _ => 0
  | .wr _ _ _ => 1
  | .rd _ _ _ => 2
  | .ev _ => 3
  | .ack _ _ => 4
  | .nak _ _ _ _ _ => 5
  | .rdr _ _ _ _ => 6
  | .synq => 8
  | .synr _ _ _ => 9
  | .sv _ _ _ => 10
  | .svr _ _ _ _ _ _ _ _ => 11
  | .rl _ _ _ _ => 12
  | .note _ _ _ _ => 13
  | .reserved k => k.toNat

/-- Flits of a frame (R353); NU is the number of units less 1. -/
def flitsOf (b : Body) : Nat :=
  match b with
  | .wr _ _ units => (52 + 16 * (units.length - 1) + 31) / 32
  | .rdr _ _ _ _ | .synr _ _ _ | .svr _ _ _ _ _ _ _ _ => 2
  | .rl _ _ _ _ => 10
  | _ => 1
def flits (f : Frame) : Nat := flitsOf f.body

/-- H0 (R352). -/
def h0 (f : Frame) : Nat :=
  sof.toNat + 2 ^ 8 * f.hdr.lseq.toNat + 2 ^ 16 * kindOf f.body + 2 ^ 20 * bool f.hdr.rt + 2 ^ 21 * f.hdr.col.toNat
  + 2 ^ 25 * f.hdr.dst.toNat + 2 ^ 37 * f.hdr.src.toNat + 2 ^ 49 * f.hdr.ttl.toNat + 2 ^ 55 * bool f.hdr.eld

def h1Data (addr : W32) (tag : BitVec 14) : Nat := addr.toNat + 2 ^ 32 * tag.toNat
def h1Path (p : Path) (last : Bool) : Nat := p.hops.toNat + 2 ^ 40 * p.plen.toNat + 2 ^ 45 * p.pidx.toNat + 2 ^ 50 * bool last

/-- H1 (R353, R366, R369, R370). -/
def h1 (b : Body) : Nat :=
  match b with
  | .wrs addr tag pois mask _ => h1Data addr tag + 2 ^ 46 * bool pois + 2 ^ 47 * mask.toNat
  | .wr addr tag units => h1Data addr tag + 2 ^ 46 * (units.length - 1) + 2 ^ 49 * units.zipIdx.foldl (fun n e => n + bool e.1.pois * 2 ^ e.2) 0
  | .rd addr tag mask => h1Data addr tag + 2 ^ 46 * mask.toNat
  | .ev rnum => rnum.toNat
  | .ack addr tag => h1Data addr tag
  | .nak addr tag reason dom unit => h1Data addr tag + 2 ^ 46 * reason.toNat + 2 ^ 50 * dom.toNat + 2 ^ 54 * unit.toNat
  | .rdr addr tag pois _ => h1Data addr tag + 2 ^ 46 * bool pois
  | .synq | .reserved _ => 0
  | .synr nosync _ _ => bool nosync
  | .sv path assign _ => h1Path path assign
  | .svr path _ _ _ _ _ _ _ => h1Path path false
  | .rl path last _ _ => h1Path path last
  | .note leave port nbr nbrv => bool leave + 2 * port.toNat + 2 ^ 3 * nbr.toNat + 2 ^ 15 * bool nbrv

/-- A port as an SVR tells of it: its neighbour, up, and the neighbour's IDV (log entry 47). -/
def portBits (i : PortInfo) : Nat := i.nbr.toNat + 2 ^ 12 * bool i.up + 2 ^ 13 * bool i.nbrv

/-- What follows the header, from byte 16 on. -/
def payload (b : Body) : Nat :=
  match b with
  | .wrs _ _ _ _ data => data.toNat
  | .wr _ _ units =>
    units.zipIdx.foldl (fun n e => n + e.1.mask.toNat * 2 ^ (16 * e.2) + e.1.data.toNat * 2 ^ (128 + 128 * e.2)) 0
  | .rdr _ _ _ data => data.toNat
  | .synr _ t2 t3 => t2.toNat + 2 ^ 64 * t3.toNat
  | .sv _ _ id => id.toNat
  | .svr _ uid id idv want wantv arr ports =>
    uid.toNat + 2 ^ 64 * (id.toNat + 2 ^ 12 * bool idv + 2 ^ 16 * want.toNat + 2 ^ 28 * bool wantv)
    + ports.zipIdx.foldl (fun n e => n + portBits e.1 * 2 ^ (96 + 16 * e.2)) 0 + 2 ^ 110 * arr.toNat
  | .rl _ _ first entries => first.toNat + entries.zipIdx.foldl (fun n e => n + e.1.toNat * 2 ^ (128 + 32 * e.2)) 0
  | .rd _ _ _ | .ev _ | .ack _ _ | .nak _ _ _ _ _ | .synq | .note _ _ _ _ | .reserved _ => 0

/-- A number's lowest n bytes, the lowest first. -/
def bytesLow : Nat → Nat → List W8
  | 0, _ => []
  | n + 1, x => BitVec.ofNat 8 x :: bytesLow n (x / 256)

/-- The CRC-32 of IEEE 802.3: reflected, from all ones, and complemented. -/
def crcBit (c : Nat) : Nat := if c % 2 = 1 then (c / 2) ^^^ 0xEDB88320 else c / 2
def crcByte (c : Nat) (b : W8) : Nat := (List.range 8).foldl (fun c _ => crcBit c) (c ^^^ b.toNat)
def crc32 (l : List W8) : W32 := ~~~ BitVec.ofNat 32 (l.foldl crcByte 0xFFFFFFFF)

/-- A frame's bytes; a stomped one ends with the complement of its CRC (R352, R357). -/
def frameBytes (f : Frame) (stomp : Bool) : List W8 :=
  let body := bytesLow (32 * flits f - 4) (h0 f + 2 ^ 64 * h1 f.body + 2 ^ 128 * payload f.body)
  let c := crc32 body
  body ++ bytesLow 4 (if stomp then ~~~ c else c).toNat

end Sys2Proof.Machine
end

