-- ==== Sys2Proof/Machine/FabOps.lean ====
section
/-! DEFINITION. The fabric router: ports and routes (R350, R360 to R362), frames (R352 to R354), outbound accesses
(R215, R327, R328), inbound accesses and their responses (R363), the survey and the route load (R365 to R367). -/

namespace Sys2Proof.Machine

def port (s : State) (p : Nat) : LinkPort := tget {} s.fab.ports p
def setPort (p : Nat) (x : LinkPort) (s : State) : State := { s with fab := { s.fab with ports := tset {} s.fab.ports p x } }
def modP (p : Nat) (f : LinkPort → LinkPort) (s : State) : State := setPort p (f (port s p)) s

/-- A port is usable while its link is up and it is not fenced (R350). -/
def usable (s : State) (p : Nat) : Bool := (port s p).up && !bit s.fences.onLink p

def fabRec (type_ kind num detail : Nat) (w2 : W64) (s : State) : State :=
  if s.fab.recEn then offerNow .data s.fab.book type_ kind num detail w2 0 s else s

def routeEntry (s : State) (node : Nat) : W32 := tget 0 s.fab.routes node
/-- The port a frame for `node` takes (R360); an entry with an uncorrectable error is not valid (R340). -/
def routePort (s : State) (node : Nat) : Option Nat :=
  let e := routeEntry s node
  if isBad s 8 (node / 2) then none
  else if bit e 2 && usable s (fld e 1 0) then some (fld e 1 0)
  else if bit e 5 && usable s (fld e 4 3) then some (fld e 4 3) else none

/-- A frame's lookup of its entry: the error that it finds is counted (R340). -/
def lookRoute (node : Nat) (s : State) : State × Option Nat :=
  (if isBad s 8 (node / 2) then uncorrected 8 0 (wordOffset 8 (node / 2)) s else foundSoft s (8, node / 2), routePort s node)

/-! ### Frames -/

def hdr (s : State) (rt : Bool) (col dst : Nat) (eld : Bool) : Hdr :=
  { lseq := 0, rt := rt, col := BitVec.ofNat 4 col, dst := BitVec.ofNat 12 dst, src := s.fab.id, ttl := 63, eld := eld }

/-- A frame waits for a port, by class (R355). -/
def queueTx (p : Nat) (t : TxF) (s : State) : State :=
  modP p (fun x => if t.f.hdr.rt then { x with txRt := x.txRt ++ [t] } else { x with txBulk := x.txBulk ++ [t] }) s
/-- A frame of this node. -/
def queueFrame (p : Nat) (f : Frame) (s : State) : State := queueTx p ⟨f, none, true, false, 0⟩ s

def isAck (w : LinkWord) : Bool := match w with | .ack _ => true | _ => false
/-- A word owed; a later ACK stands for the earlier ones. -/
def owe (p : Nat) (w : LinkWord) (s : State) : State :=
  modP p (fun x => { x with owed := (if isAck w then x.owed.filter (fun v => !isAck v) else x.owed) ++ [w] }) s
/-- A frame's flits leave the receive buffer of the port it came by, which returns their credit (R355). -/
def freeFlits (arr : Option Nat) (f : Frame) (s : State) : State :=
  match arr with
  | some p => if (port s p).up then owe p (.credit f.hdr.rt (flits f)) s else s
  | none => s

/-- A frame is refused or discarded (R360, R373): counted, and recorded when its status bit changes from 0 to 1. -/
def refuse (arrival dst src reason : Nat) (s : State) : State :=
  let was := match reason with | 0 => s.fab.noroute | 1 => s.fab.ttlx | _ => s.fab.badkind
  let s := { s with fab := { s.fab with refused := sat32 s.fab.refused, noroute := s.fab.noroute || reason == 0,
                                        ttlx := s.fab.ttlx || reason == 1, badkind := s.fab.badkind || reason == 2 } }
  let s := markSet (w1cKey 0x6018 (match reason with | 0 => 13 | 1 => 15 | _ => 16)) s
  if was then s else fabRec 0x43 5 arrival (dst + 2 ^ 12 * src + 2 ^ 24 * reason) 0 s

/-- Send a frame of this node by its route; false when it is refused.  While STE_FAB_CTRL.EN = 0 it is dropped, and not
counted (DESIGN CHOICE for a remote event, log entry 45). -/
def sendFrame (f : Frame) (s : State) : State × Bool :=
  if !s.fab.en then (s, false)
  else
    match lookRoute f.hdr.dst.toNat s with
    | (s, some p) => (queueFrame p f s, true)
    | (s, none) => (refuse 0 f.hdr.dst.toNat f.hdr.src.toNat 0 s, false)

/-- Send a source-routed frame of this node along its path's first port (R366). -/
def sendPath (path : List Nat) (f : Frame) (s : State) : State :=
  match path with
  | p :: _ => if s.fab.en && usable s p then queueFrame p f s else s
  | [] => s

/-- A source route from a list of ports. -/
def pathWord (path : List Nat) : BitVec 40 :=
  BitVec.ofNat 40 (path.zipIdx.foldl (fun n e => n + e.1 % 4 * 4 ^ e.2) 0)
def mkPath (path : List Nat) : Path := { hops := pathWord path, plen := BitVec.ofNat 5 path.length, pidx := 1 }
def hopAt (p : Path) (i : Nat) : Nat := fld p.hops (2 * i + 1) (2 * i)

/-! ### Outbound accesses -/

/-- The record of a late write error (R327). -/
def lateRecord (c far code : Nat) (raised : Bool) (addr : GAddr) (s : State) : State :=
  offerNow .ctl (legBook s c) 0x08 1 c (far + 2 ^ 12 * code + 2 ^ 20 * bool raised) (BitVec.setWidth 64 addr) 0 s

/-- A write that was issued fails (R327). -/
def writeFails (c run legNo code far : Nat) (addr : GAddr) (s : State) : State :=
  let x := ctx s c
  if x.w.run ≠ run ∨ x.r.state = .off ∨ x.r.state = .fault then lateRecord c far code false addr s
  else if x.w.legNo = legNo then raiseFault c code addr false s
  else lateRecord c far code x.w.faulting.isNone addr (raiseFault c code addr true s)

/-- The far node and address of a global address in a late record: 0 and G = 0 for a local write. -/
def farOf (s : State) (a : GAddr) : Nat := if isLocal s a then 0 else gNode a
def recAddr (s : State) (a : GAddr) : GAddr := if isLocal s a then localAddr (gLocal a) else a

/-- A LOAD's part comes, or fails (R136). -/
def loadPart (c : Nat) (parts : List Part) (d : W128) (poison : Bool) (s : State) : State :=
  modW c (fun w => parts.foldl (fun w p =>
    { w with loadData := placeBytes w.loadData p.off p.len (bytesAt d p.at_ p.len), loadGot := w.loadGot + p.len,
             loadPoison := w.loadPoison || poison }) w) s
def loadFails (c code : Nat) (addr : GAddr) (s : State) : State :=
  modW c (fun w => { w with loadFail := match w.loadFail with | some f => some f | none => some (BitVec.ofNat 8 code, addr) }) s

/-- An access of a channel has completed (R192). -/
def accDone (ch : Option (Nat × Nat × Nat)) (bno : Nat) (s : State) : State :=
  match ch with
  | some (c, _, _) => noteAcc c bno s
  | none => s

/-- An outbound access ends with a failure code, at its unit n (R327 to R329, R363). -/
def outFails (f : FOut) (n code : Nat) (s : State) : State :=
  let a := match f.units.drop n with | u :: _ => firstAddr u | [] => f.addr
  accDone f.ch f.bno
  (if f.orphan then s
  else
    match f.owner, f.ch with
    | .lane l _, some (c, run, legNo) =>
      if f.wr then writeFails c run legNo code (gNode a) a (dropCoveredN f.units.length c s)
      else
        match f.units with
        | u :: _ => advance l (laneFail l code u.parts u.blk s)
        | [] => s
    | .load c, _ => loadFails c code a s
    | .store c, some (_, run, legNo) => writeFails c run legNo code (gNode a) a (dropCovered c false s)
    | _, _ => s)
where
  dropCoveredN : Nat → Nat → State → State
    | 0, _, s => s
    | n + 1, c, s => dropCoveredN n c (dropCovered c false s)

/-- An outbound write is accepted at its destination (R258). -/
def outAccepted (f : FOut) (s : State) : State :=
  match f.ch with
  | some (c, _, _) => accDone f.ch f.bno (f.units.foldl (fun s _ => dropCovered c false s) s)
  | none => s

/-- An outbound read's data arrives (R363). -/
def outData (f : FOut) (d : W128) (poison : Bool) (s : State) : State :=
  accDone f.ch f.bno
  (if f.orphan then s
  else
    let parts := f.units.flatMap (·.parts)
    match f.owner with
    | .lane l side => advance l (laneData l side parts d poison s)
    | .load c => loadPart c parts d poison s
    | _ => s)

def takeOut (ftag : Nat) (s : State) : State := { s with fab := { s.fab with out := s.fab.out.filter (fun f => f.ftag != ftag) } }

/-- The access of this node that a frame carries. -/
def outOf (s : State) (b : Body) : Option FOut :=
  match b with
  | .wrs _ tag _ _ _ | .wr _ tag _ | .rd _ tag _ => s.fab.out.find? (fun f => f.ftag == tag.toNat)
  | _ => none

/-- A frame that finds no usable port (R362): the access of a local channel fails, and a forwarded one is answered
by a NAK. -/
def unroutable (t : TxF) (s : State) : State :=
  let f := t.f
  let s := freeFlits t.arr f (refuse (t.arr.getD 0) f.hdr.dst.toNat f.hdr.src.toNat 0 s)
  if t.own then
    (match outOf s f.body with
     | some o => outFails o 0 0x11 (takeOut o.ftag s)
     | none => s)
  else
    let nak := fun (addr : W32) (tag : BitVec 14) =>
      (sendFrame ⟨hdr s f.hdr.rt 0 f.hdr.src.toNat false, .nak addr tag 4 0 0⟩ s).1
    (match f.body with
     | .wrs addr tag _ _ _ => nak addr tag
     | .wr addr tag _ => nak addr tag
     | .rd addr tag _ => nak addr tag
     | _ => s)

/-- Route a frame (R356, R360). -/
def routeTx (t : TxF) (s : State) : State :=
  match lookRoute t.f.hdr.dst.toNat s with
  | (s, some p) => queueTx p t s
  | (s, none) => unroutable t s
def routeFrame (f : Frame) (s : State) : State := routeTx ⟨f, none, true, false, 0⟩ s

/-! ### Inbound accesses (R363) -/

/-- Send the one response of an inbound access. -/
def respond (i : InAcc) (b : Body) (s : State) : State :=
  (sendFrame ⟨hdr s i.rt 0 i.src.toNat false, b⟩ s).1

def nakBody (addr : W32) (tag : BitVec 14) (reason dom unit : Nat) : Body :=
  .nak addr tag (BitVec.ofNat 4 reason) (BitVec.ofNat 4 dom) (BitVec.ofNat 3 unit)

/-- The outcome of an inbound access once all its units have ended: ACK, RDR, or NAK with the lowest failing unit. -/
def inboundEnd (id : Nat) (s : State) : State :=
  match s.fab.inb.find? (fun i => i.id == id) with
  | none => s
  | some i =>
    if i.left ≠ 0 then s
    else
      let s := { s with fab := { s.fab with inb := s.fab.inb.filter (fun j => j.id != id) } }
      if i.answered then s
      else
        match i.fail with
        | some (u, reason, dom) => respond i (nakBody (i.addr + BitVec.ofNat 32 (16 * u)) i.tag reason dom u) s
        | none => respond i (if i.wr then .ack i.addr i.tag else .rdr i.addr i.tag i.pois i.data) s

/-- One unit of an inbound access ends: none for success. -/
def inboundUnit (id u : Nat) (fail : Option (Nat × Nat)) (d : W128) (poison : Bool) (s : State) : State :=
  let upd := fun (i : InAcc) =>
    { i with left := i.left - 1, data := if i.wr then i.data else d, pois := i.pois || poison,
             fail := match fail, i.fail with
               | some (r, dm), some (u', r', dm') => if u < u' then some (u, r, dm) else some (u', r', dm')
               | some (r, dm), none => some (u, r, dm)
               | none, o => o }
  inboundEnd id { s with fab := { s.fab with inb := modWhere (fun i => i.id == id) upd s.fab.inb } }

/-- One unit of an inbound access is offered; its check point translates and checks it (R308, R312). -/
def inboundOffer (id : Nat) (h : Hdr) (wr : Bool) (blk : W32) (u : Nat) (mask : W16) (d : W128) (poison : Bool) (s : State) : State :=
  let q : Ask := { point := 9, colour := h.col.toNat, inbound := some h.src.toNat, wr := wr, elided := h.eld, type_ := bool wr, srck := 1,
                   srcn := h.src.toNat, addr := blk }
  let w : Want := { owner := .inbound id u, wr := wr, colour := h.col.toNat, gaddr := localAddr blk, mask := mask, data := d,
                    poison := poison, home := 3, rank := if h.rt then rankInRt else rankInBulk, ord := 8, srck := 1, srcn := h.src.toNat }
  let r := beginLookup q s
  enqueue { accOf r.1 w r.2 with ask := some q } r.1

/-- A new inbound access of n units. -/
def inboundStart (p : Nat) (h : Hdr) (addr : W32) (tag : BitVec 14) (wr : Bool) (n : Nat) (s : State) : State × Nat :=
  let id := s.fab.nextId
  let i : InAcc := { id := id, src := h.src, tag := tag, addr := addr, rt := h.rt, wr := wr, at_ := s.eclk, port := p, left := n,
                     fail := none, data := 0, pois := false, answered := false }
  (blockEnergy 192 { s with fab := { s.fab with nextId := id + 1, inb := s.fab.inb ++ [i] } }, id)

end Sys2Proof.Machine
end

