-- ==== Sys2Proof/Machine/SurveyOps.lean ====
section
/-! DEFINITION. The root's work: the survey (R365), the map (R366), joins and leaves (R368) and the route load
(R367). -/

namespace Sys2Proof.Machine

def setSurvey (f : Survey → Survey) (s : State) : State := { s with fab := { s.fab with survey := f s.fab.survey } }
def setLoad (f : RouteLoad → RouteLoad) (s : State) : State := { s with fab := { s.fab with load := f s.fab.load } }
def mapAt (s : State) (n : Nat) : Option MapEnt := tget none s.fab.map n

/-! ### The map in memory (R366) -/

/-- Words W0 to W2 of an entry; a neighbour counts as mapped when the map holds its ID. -/
def mapWords (s : State) (e : MapEnt) (valid : Bool) : W128 × W128 :=
  let w1 := (pathWord e.path).toNat + 2 ^ 40 * e.path.length + 2 ^ 45 * e.arr + 2 ^ 47 * bool e.wantLost + 2 ^ 48 * e.want.toNat
    + 2 ^ 63 * bool valid
  let port := fun (i : PortInfo) =>
    i.nbr.toNat + 2 ^ 12 * bool i.up + 2 ^ 13 * bool (i.nbrv && (mapAt s i.nbr.toNat).isSome)
  let w2 := e.ports.zipIdx.foldl (fun n p => n + port p.1 * 2 ^ (16 * p.2)) 0
  (BitVec.ofNat 128 (e.uid.toNat + 2 ^ 64 * w1), BitVec.ofNat 128 w2)

/-- An access of the router at the root: colour 15, rank 5, home port 0 (R212, R366, R367). -/
def rootWant (owner : Owner) (wr : Bool) (a : W32) (d : W128) : Want :=
  { owner := owner, wr := wr, colour := 15, gaddr := localAddr a, mask := 0xFFFF, data := d, home := 0, rank := rankRecord, ord := 9,
    srck := 3, srcn := 3 }

/-- The end of a survey (R365). -/
def endSurvey (code : BitVec 2) (s : State) : State :=
  let s := setSurvey (fun v => { v with busy := false, code := code, stack := [], await := none, joining := false }) s
  let s := { s with fab := { s.fab with surveyed := true } }
  fabRec 0x45 0 0 s.fab.nodes (BitVec.setWidth 64 code) s

/-- Map writes wait or are outstanding. -/
def mapWrites (s : State) : Bool := s.offered.any (fun a => decide (a.owner = .mapWr)) || s.outst.any (fun a => decide (a.owner = .mapWr))

/-- The walk is over; the survey ends with the last of its map writes (R366). -/
def surveyOver (s : State) : State :=
  let v := s.fab.survey
  if v.busy && v.stack.isEmpty && v.await.isNone && !mapWrites s then endSurvey v.code s else s

/-- Write map entry n, two blocks. -/
def writeMap (n : Nat) (e : MapEnt) (valid : Bool) (s : State) : State :=
  let a := BitVec.ofNat 32 (s.fab.survey.mapbase.toNat * 32 + 32 * n)
  let (d0, d1) := mapWords s e valid
  submit (rootWant .mapWr true (a + 16) d1) (submit (rootWant .mapWr true a d0) s)

/-! ### The depth-first walk (R365) -/

def portInfo (s : State) (p : Nat) : PortInfo := { nbr := (port s p).nbr, nbrv := (port s p).nbrv, up := (port s p).up }

/-- What the root knows of port p of node n. -/
def knownPort (s : State) (n p : Nat) : PortInfo :=
  if n = 0 then portInfo s p
  else match mapAt s n with
    | some e => (e.ports[p]?).getD ⟨0, false, false⟩
    | none => ⟨0, false, false⟩

/-- Send an SV along a path. -/
def sendSv (path : List Nat) (assign : Bool) (id : Nat) (s : State) : State :=
  sendPath path ⟨hdr s false 0 0 false, .sv (mkPath path) assign (BitVec.ofNat 12 id)⟩ s

/-- The neighbour on port p of the node under visit is known to be mapped: it is the node's parent, on its arrival port, or a
node mapped by way of that port.  Whether any other neighbour is mapped, its UID tells: an ID may be stale or stand twice
(DESIGN CHOICE, log entry 24). -/
def knownMapped (s : State) (v : Visit) (p : Nat) : Bool :=
  (match v.path, mapAt s v.id with | _ :: _, some e => e.arr == p | _, _ => false) ||
  s.fab.map.any (fun e => match e.2 with | some m => m.path == v.path ++ [p] | none => false)

/-- Go on with the walk until a query is sent or nothing is left. -/
def walk : Nat → State → State
  | 0, s => s
  | n + 1, s =>
    match s.fab.survey.stack with
    | [] => surveyOver s
    | v :: rest =>
      if 4 ≤ v.next then walk n (setSurvey (fun x => { x with stack := rest }) s)
      else
        let i := knownPort s v.id v.next
        let path := v.path ++ [v.next]
        let s := setSurvey (fun x => { x with stack := { v with next := v.next + 1 } :: rest }) s
        if !i.up || knownMapped s v (v.next) then walk n s
        else if 20 < path.length then walk n (setSurvey (fun x => { x with code := 3 }) s)
        else sendSv path false 0 (setSurvey (fun x => { x with await := some path, awaitAt := s.eclk }) s)

/-- Every visit looks at four ports. -/
def walkOn (s : State) : State := walk (6 * s.fab.survey.stack.length + 6) s

def freeId (s : State) (i : Nat) : Bool := (mapAt s i).isNone
def lowestFree (s : State) : Option Nat := (List.range 4096).find? (freeId s)

/-- Map a responder under an ID: the assignment, the entry and its visit. -/
def mapNode (path : List Nat) (id : Nat) (uid : W64) (arr : Nat) (want : BitVec 12) (wantLost : Bool) (ports : List PortInfo)
    (s : State) : State :=
  let s := sendSv path true id s
  let e : MapEnt := { uid := uid, path := path, arr := arr, want := want, wantLost := wantLost, ports := ports }
  let s := { s with fab := { s.fab with map := tset none s.fab.map id (some e), nodes := s.fab.nodes + 1 } }
  let s := setSurvey (fun x => { x with stack := ⟨id, path, 0⟩ :: x.stack }) s
  let s := if s.fab.survey.joining then fabRec 0x46 5 (path.headD 0) id uid s else s
  walkOn (writeMap id e true s)

/-- An SVR comes for the query that waits (R365). -/
def svrCame (path : List Nat) (uid : W64) (id : BitVec 12) (idv : Bool) (want : BitVec 12) (wantv : Bool) (arr : Nat)
    (ports : List PortInfo) (s : State) : State :=
  let s := setSurvey (fun x => { x with await := none }) s
  if s.fab.map.any (fun e => match e.2 with | some m => m.uid == uid | none => false) then walkOn s
  else
    let pick := if idv && freeId s id.toNat then some id.toNat
      else if wantv && freeId s want.toNat then some want.toNat else lowestFree s
    match pick with
    | some i => mapNode path i uid arr want (wantv && i != want.toNat) ports s
    | none => walkOn (setSurvey (fun x => { x with code := 2 }) s)

/-- GO at the root (R365): its own ID is 0, and the map holds the root alone. -/
def startSurvey (s : State) : State :=
  let me : MapEnt := { uid := s.straps.uid, path := [], arr := 0, want := s.fab.want, wantLost := s.fab.wantv && s.fab.want != 0,
                       ports := [0, 1, 2, 3].map (portInfo s) }
  let s := { s with fab := { s.fab with id := 0, idv := true, nodes := 1, map := [(0, some me)] } }
  let s := setSurvey (fun x => { x with busy := true, code := 0, stack := [⟨0, [], 0⟩], await := none, joining := false, leaving := none }) s
  walkOn (writeMap 0 me true s)

/-! ### Joins and leaves (R368) -/

/-- Handle the next NOTE that waits, when nothing runs.  A leave that names node 0 queries the root itself, which is there. -/
def nextNote (s : State) : State :=
  if s.fab.survey.busy || s.fab.survey.leaving.isSome then s
  else
    match s.fab.survey.notes with
    | [] => s
    | (leave, src, p, nbr) :: rest =>
      let s := setSurvey (fun x => { x with notes := rest }) s
      if leave then
        match (if nbr = 0 then none else mapAt s nbr) with
        | some e => sendSv e.path false 0 (setSurvey (fun x => { x with leaving := some nbr, await := some e.path, awaitAt := s.eclk }) s)
        | none => s
      else
        match mapAt s src with
        | some e =>
          let path := e.path ++ [p]
          let s := setSurvey (fun x => { x with busy := true, code := 0, stack := [⟨src, e.path, 4⟩], joining := true }) s
          if 20 < path.length then walkOn (setSurvey (fun x => { x with code := 3 }) s)
          else sendSv path false 0 (setSurvey (fun x => { x with await := some path, awaitAt := s.eclk }) s)
        | none => s

/-- The node that was queried for a leave answers, or does not. -/
def leaveEnds (n : Nat) (answered : Bool) (s : State) : State :=
  let s := setSurvey (fun x => { x with leaving := none, await := none }) s
  if answered then s
  else
    match mapAt s n with
    | none => s
    | some e =>
      let s := { s with fab := { s.fab with map := tset none s.fab.map n none, nodes := s.fab.nodes - 1 } }
      let s := writeMap n e false s
      fabRec 0x47 5 (e.path.headD 0) n e.uid s

/-! ### The route load (R367) -/

def isImage (o : Owner) : Bool := match o with | .imgRd _ _ => true | _ => false
/-- The load ends; nothing comes of reads that are out. -/
def endLoad (code : BitVec 2) (s : State) : State :=
  setLoad (fun x => { x with busy := false, code := code, reads := 0, got := [], sentAt := none }) (orphanReads isImage s)

/-- Read the 16 blocks of the next frame's 64 entries. -/
def readImage (s : State) : State :=
  let x := s.fab.load
  let base := x.from_.toNat * 32 + 256 * x.frame
  let s := setLoad (fun x => { x with reads := 16, got := [], sentAt := none }) s
  (List.range 16).foldl (fun s i => submit (rootWant (.imgRd x.no i) false (BitVec.ofNat 32 (base + 16 * i)) 0) s) s

def startLoad (node : BitVec 12) (image : BitVec 27) (s : State) : State :=
  let s := setLoad (fun x => { x with no := x.no + 1, busy := true, toNode := node, from_ := image, frame := 0 }) s
  if (mapAt s node.toNat).isSome then readImage s else endLoad 1 s

def entriesOf (got : Tbl W128) : List W32 :=
  (List.range 64).map (fun k => BitVec.ofNat 32 (bytesAt (tget 0 got (k / 4)) (4 * (k % 4)) 4))

/-- Send the frame whose blocks have come. -/
def sendRl (s : State) : State :=
  let x := s.fab.load
  match mapAt s x.toNode.toNat with
  | none => endLoad 1 s
  | some e =>
    let b : Body := .rl (mkPath e.path) (x.frame == 63) (BitVec.ofNat 16 (64 * x.frame)) (entriesOf x.got)
    let s := setLoad (fun x => { x with sentAt := some s.eclk }) s
    sendPath e.path ⟨hdr s false 0 x.toNode.toNat false, b⟩ s

/-- A block of the image comes to the load that asked for it. -/
def imageBlock (n i : Nat) (d : W128) (s : State) : State :=
  if !s.fab.load.busy || decide (s.fab.load.no ≠ n) || decide (s.fab.load.reads = 0) then s
  else
    let s := setLoad (fun x => { x with got := tset 0 x.got i d, reads := x.reads - 1 }) s
    if s.fab.load.reads = 0 then sendRl s else s

/-- An RL frame is answered. -/
def rlAnswered (ok : Bool) (s : State) : State :=
  if !ok then endLoad 2 s
  else if s.fab.load.frame = 63 then endLoad 0 s
  else readImage (setLoad (fun x => { x with frame := x.frame + 1 }) s)

end Sys2Proof.Machine
end

