-- ==== Sys2Proof/Machine/Responses.lean ====
section
/-! DEFINITION. The end of an access on a port (R30, R258, R375): what its response does to whoever made it. -/

namespace Sys2Proof.Machine

/-! ### Spill accesses (R283 to R286) -/

/-- Both data writes of a half-group are accepted: its header goes out (R283). -/
def sendHeader (q n page slot : Nat) (s : State) : State :=
  let items := (queue s q).tail.take n
  let flags := items.zipIdx.foldl (fun f e => f + (bool e.1.pend + 2 * bool e.1.poison) * 4 ^ e.2) 0
  let a := pageAddr s page + BitVec.ofNat 32 (4 + 2 * slot)
  let s := modQ q (fun x => { x with wrMove := .header n page slot }) s
  let at_ := (4 + 2 * slot) % 16
  let d := placeBytes 0 at_ 2 (flags + 256 * n)
  submit (spillWant s q .headWr true (a &&& 0xFFFFFFF0) (maskAt at_ 2) d false) s

/-- The half-group stands in the middle (R282). -/
def spillDone (q n page slot : Nat) (s : State) : State :=
  modQ q (fun x => { x with wrMove := .none, tail := x.tail.drop n,
                            mid := x.mid ++ [⟨page, slot, (x.tail.take n).map (fun i => (i.pend, i.poison))⟩] }) s

/-- The read of the free list's head page has ended (R284, R286). -/
def listRead (q : Nat) (next : Option W32) (s : State) : State :=
  match (queue s q).wrMove with
  | .alloc n =>
    let p := s.spill.freeHead
    match next with
    | some a =>
      let k := (a.toNat - s.spill.base.toNat * 1024) / 1024
      let s := { s with spill := { s.spill with freeHead := k, freeN := s.spill.freeN - 1 } }
      takePage q p n (endListRead (modQ q (fun x => { x with wrMove := .none }) s))
    | none => allocFails q 2 (BitVec.setWidth 64 (pageAddr s p)) (endListRead { s with spill := { s.spill with freeN := 0 } })
  | _ => s

/-- One of the three reads of a half-group has ended. -/
def refillRead (q : Nat) (op : SpillOp) (d : Option W128) (poison : Bool) (s : State) : State :=
  match (queue s q).rdMove with
  | .read p sl d0 d1 hdr bad left =>
    let d0 := match op with | .dataRd 0 => d | _ => d0
    let d1 := match op with | .dataRd 1 => d | _ => d1
    let hdr := match op, d with | .headRd, some v => some (bytesAt v ((4 + 2 * sl) % 16) 1) | _, _ => hdr
    let bad := bad || d.isNone || poison
    if left ≤ 1 then refillDone q p sl d0 d1 hdr bad s
    else modQ q (fun x => { x with rdMove := .read p sl d0 d1 hdr bad (left - 1) }) s
  | _ => s

/-- A spill read ends, with its data unless it failed. -/
def spillReadEnd (q : Nat) (op : SpillOp) (d : Option W128) (poison : Bool) (s : State) : State :=
  match op with
  | .freeRd => listRead q (if poison then none else d.map (fun v => BitVec.ofNat 32 v.toNat)) s
  | .dataRd _ | .headRd => refillRead q op d poison s
  | _ => s

/-- A spill write ends. -/
def spillWriteEnd (q : Nat) (op : SpillOp) (ok : Bool) (a : W32) (s : State) : State :=
  match op, (queue s q).wrMove with
  | .dataWr, .write n p sl left =>
    if !ok then spillFails q a s
    else if left ≤ 1 then sendHeader q n p sl s
    else modQ q (fun x => { x with wrMove := .write n p sl (left - 1) }) s
  | .headWr, .header n p sl => if ok then spillDone q n p sl s else spillFails q (pageAddr s p + BitVec.ofNat 32 (4 + 2 * sl)) s
  | _, _ => s

/-! ### Debug accesses (R391, R392) -/

/-- Responses leave the path in the order in which the accesses came; each counts in STE_DBG_STAT.ACC. -/
def debugReturn : Nat → State → State
  | 0, s => s
  | n + 1, s =>
    match s.dbg.path with
    | a :: rest =>
      (match a.resp with
       | some r => debugReturn n { s with dbg := { s.dbg with path := rest, last := some r, acc := s.dbg.acc + 1 } }
       | none => s)
    | [] => s

def debugEnd (id : Nat) (d : W128) (err poison : Bool) (s : State) : State :=
  let val := fun (a : DbgAcc) => if a.wr || err then 0 else BitVec.ofNat 128 (bytesAt d (a.addr.toNat % 16) a.size)
  let upd := fun (a : DbgAcc) => { a with resp := some (val a, err, poison) }
  debugReturn 4 { s with dbg := { s.dbg with path := modWhere (fun a => a.id == id) upd s.dbg.path } }

/-! ### Every owner -/

/-- The run and leg of a channel's access. -/
def chOf (a : Acc) : Nat × Nat × Nat := a.ch.getD (0, 0, 0)

/-- A read ends: none for an error response.  Nothing comes of an orphan's (R329). -/
def readEnd (a : Acc) (r : Option (W128 × Bool)) (s : State) : State :=
  accDone a.ch a.bno
  (if a.orphan then s
  else
    match a.owner with
    | .lane l side =>
      (match r with
       | some (d, poison) => advance l (laneData l side a.parts d poison s)
       | none => advance l (laneFail l 0x11 a.parts (blockOf a.gaddr) s))
    | .load c =>
      (match r with
       | some (d, poison) => loadPart c a.parts d poison s
       | none => loadFails c 0x11 (firstAddr ⟨blockOf a.gaddr, a.parts⟩) s)
    | .spill q op => spillReadEnd q op (r.map (·.1)) ((r.map (·.2)).getD false) s
    | .imgRd n i => (match r with | some (d, _) => imageBlock n i d s | none => if s.fab.load.busy then endLoad 3 s else s)
    | .inbound id u =>
      (match r with
       | some (d, poison) => inboundUnit id u none d poison s
       | none => inboundUnit id u (some (2, 0)) 0 false s)
    | .debug id =>
      (match r with
       | some (d, poison) => debugEnd id d false poison s
       | none => debugEnd id 0 true false s)
    | .store _ | .record _ _ | .mapWr => s)

/-- A map write has ended: a failure ends the survey, and so does the last of a walk that is over (R366). -/
def mapWritten (ok : Bool) (s : State) : State :=
  if !s.fab.survey.busy then s else nextNote (if ok then surveyOver s else endSurvey 1 s)

/-- A write ends: accepted, or with an error response. -/
def writeEnd (a : Acc) (ok : Bool) (s : State) : State :=
  let at_ := firstAddr ⟨blockOf a.gaddr, a.parts⟩
  accDone a.ch a.bno
  (match a.owner with
  | .lane l side =>
    let (c, _, _) := chOf a
    let s := dropCovered c true s
    let s := if ok then s
      else if decide (side = .res) then modB l (fun b => { b with why := .faulted 0x11 at_ }) s
      else laneFail l 0x11 a.parts (blockOf a.gaddr) s
    advance l s
  | .store c =>
    let (_, run, legNo) := chOf a
    let s := dropCovered c true s
    if ok then s else writeFails c run legNo 0x11 0 (recAddr s at_) s
  | .spill q op => if a.orphan then s else spillWriteEnd q op ok a.blk s
  | .record b second =>
    if a.orphan then s else if !ok then recordFailed b s else if second then recordDone b s else recordFirst b s
  | .mapWr => mapWritten ok s
  | .inbound id u => inboundUnit id u (if ok then none else some (2, 0)) 0 false s
  | .debug id => debugEnd id 0 (!ok) false s
  | .load _ | .imgRd _ _ => s)

/-- An elided element that meets a DEVICE sheet is not written in its other part either (R92). -/
def dropDest (l c : Nat) (ps : List Part) (s : State) : State :=
  let same := fun (x : Acc) => decide (x.owner = .lane l .dst) && x.parts.any (fun p => ps.any (fun q => p.el == q.el))
  let gone := s.offered.filter same
  gone.foldl (fun s x => dropCovered c (isLocal s x.gaddr) s) { s with offered := s.offered.filter (fun x => !same x) }

/-- A lookup has denied an access (R85, R137, R279, R286, R309, R363, R366, R367, R392). -/
def denyAcc (a : Acc) (cause : Nat) (s : State) : State :=
  let at_ := firstAddr ⟨blockOf a.gaddr, a.parts⟩
  let s := { s with offered := s.offered.erase a }
  match a.owner with
  | .lane l side =>
    let (c, _, _) := chOf a
    let s := if a.wr && !a.only then dropCovered c true s else s
    let s := if cause = 4 then dropDest l c a.parts s else s
    let code := if cause = 4 then 0x14 else 0x10
    let s := if decide (side = .res) then modB l (fun b => { b with why := .faulted (BitVec.ofNat 8 code) at_ }) s
      else laneFail l code a.parts (blockOf a.gaddr) s
    accDone a.ch a.bno (advance l s)
  | .load c => loadFails c 0x10 at_ s
  | .store c => raiseFault c 0x10 at_ false (dropCovered c true s)
  | .spill q op => if a.wr then spillWriteEnd q op false a.blk s else spillReadEnd q op none false s
  | .record b second =>
    (match (book s b).under with
     | some u =>
       let s := if second then s else { s with offered := s.offered.filter (fun x => !decide (x.owner = .record b true)) }
       setBook b { book s b with under := some { u with second := u.second || !second, denied := true } } s
     | none => s)
  | .mapWr => mapWritten false s
  | .imgRd _ _ => if s.fab.load.busy then endLoad 3 s else s
  | .inbound id u => inboundUnit id u (some (1, if cause = 4 then 4 else 0)) 0 false s
  | .debug id => debugEnd id 0 true false s

/-- The access that holds a tag. -/
def outAt (s : State) (tag : Nat) : Option Acc := s.outst.find? (fun a => a.tag == tag)
def freeTag (tag : Nat) (s : State) : State := { s with outst := s.outst.filter (fun a => a.tag != tag) }

/-- A record of book b has a write that waits or is outstanding. -/
def recordOut (b : Nat) (o : Owner) : Bool := match o with | .record k _ => k == b | _ => false
def isSecond (o : Owner) : Bool := match o with | .record _ x => x | _ => false

/-- READ_RESPONSE (R375). -/
def execReadResponse (tag : Nat) (r : ReadResp) (s : State) : Host.Outcome State Fault Refusal :=
  match outAt s tag with
  | some a =>
    if a.wr then .next s
    else .next (readEnd a (match r with | .data d p => some (d, p) | .err => none) (freeTag tag s))
  | none => .next s

/-- WRITE_RESPONSE (R258, R375). -/
def execWriteResponse (tag : Nat) (r : WriteResp) (s : State) : Host.Outcome State Fault Refusal :=
  match outAt s tag with
  | some a => if a.wr then .next (writeEnd a (decide (r = .ok)) (freeTag tag s)) else .next s
  | none => .next s

/-- SPILL_RESPONSE (R283, R286): a response to an access of a queue; a write is accepted unless `r` is an error. -/
def execSpillResponse (tag : Nat) (r : ReadResp) (s : State) : Host.Outcome State Fault Refusal :=
  match outAt s tag with
  | some a =>
    (match a.owner with
     | .spill _ _ =>
       if a.wr then .next (writeEnd a (match r with | .err => false | _ => true) (freeTag tag s))
       else .next (readEnd a (match r with | .data d p => some (d, p) | .err => none) (freeTag tag s))
     | _ => .next s)
  | none => .next s

/-- How a copy ends: where, why, and whether it passed poison (R80, R85, R89). -/
def copyEnd (b : Burst) (r : CopyResp) : Nat × BurstEnd × Bool :=
  let src := fun j => ((elAt b j).map (·.src)).getD 0
  let dst := fun j => ((elAt b j).map (·.dst)).getD 0
  match r with
  | .done passed => (b.els.length, .complete, passed)
  | .err j atDst passed => (j, .faulted 0x11 (if atDst then dst j else src j), passed)
  | .poison j => if poiOf b.leg then (b.els.length, .complete, true) else (j, .faulted 0x12 (src j), false)

/-- The cluster has done the elements below the burst's end, and reports how it ended. -/
def copyEnded (r : CopyResp) (b : Burst) : Burst :=
  let e := copyEnd b r
  let b := cutAt e.1 e.2.1 b
  { b with copyDone := true, fP := b.fP || (e.2.2 && poiOf b.leg), copyBytes := b.limit * swB b.leg, moved := b.limit * swB b.leg }

/-- A check-only lookup of lane l's copy is still to complete. -/
def copyLooks (s : State) (l : Nat) : Bool := s.offered.any (fun a => laneOwner l a.owner && a.only)

/-- IN_CLUSTER_COPY_DONE (R89): the cluster reports the end of lane l's copy, once every lookup of it has been decided. -/
def execInClusterCopyDone (l : Nat) (r : CopyResp) (s : State) : Host.Outcome State Fault Refusal :=
  match burstOn s l with
  | some b =>
    if b.inCluster && b.started && !copyOver b && !copyLooks s l then .next (noteAcc b.ch b.no (modB l (copyEnded r) s)) else .next s
  | none => .next s

/-- LOAD_DATA_RETURN (R136): the single-access unit returns a LOAD's data or failure; the energy and bytes of R420
are those of one access. -/
def loadReturn (c : Nat) (s : State) : State :=
  let x := ctx s c
  let l := x.r.leg
  let w := swB l
  if !(decide (x.w.phase = .single) && decide (opOf l = 0x45)) then s
  else
    match x.w.loadFail with
    | some (code, a) => raiseFault c code.toNat a false s
    | none =>
      if x.w.loadGot < w then s
      else if x.w.loadPoison && !poiOf l then raiseFault c 0x12 (srcOf l) false s
      else
        let v := extend64 w (bit l.w2 3) x.w.loadData
        let s := modR c (fun r => { setV (fld l.w2 2 0) v r with flags := { r.flags with p := r.flags.p || x.w.loadPoison } }) s
        finish c s

/-- The energy and bytes of a burst or single access, for the channel and the block (R420, R421). -/
def addEnergy (c e16 bytes : Nat) (s : State) : State :=
  let s := modR c (fun r => { r with energy16 := (r.energy16 + e16) % (2 ^ 48 * 16), bytes := r.bytes + BitVec.ofNat 64 bytes }) s
  { s with mgt := { s.mgt with tele := { s.mgt.tele with
      blkEnergy16 := s.mgt.tele.blkEnergy16 + e16, blkBytes := s.mgt.tele.blkBytes + BitVec.ofNat 64 bytes } } }

def execLoadDataReturn (c : Nat) (s : State) : Host.Outcome State Fault Refusal :=
  let x := ctx s c
  let ends := decide (x.w.phase = .single) && decide (opOf x.r.leg = 0x45) && (x.w.loadFail.isSome || decide (swB x.r.leg ≤ x.w.loadGot))
  if ends then
    let s := addEnergy c (192 + (if isLocal s (srcOf x.r.leg) then 11 * swB x.r.leg else 0)) 0 s
    .next (loadReturn c s)
  else .next s

end Sys2Proof.Machine
end

