-- ==== Sys2Proof/Machine/Bursts.lean ====
section
/-! DEFINITION. Granting bursts and applying their returns (R13, R152, R153, R207, R264 to R266, R330). -/

namespace Sys2Proof.Machine

/-- BURST_GRANT (R207). -/
def execBurstGrant (s : State) : Host.Outcome State Fault Refusal :=
  if running s && !haltStop s then .next (grant s) else .next s

/-- The flags as the burst leaves them (R45, R81): the sticky ones gather over the leg. -/
def burstFlags (b : Burst) (f : Flags) : Flags :=
  { f with s := f.s || b.fS, m := f.m || b.fM, i := f.i || b.fI, p := f.p || b.fP, d := f.d || b.fD }

/-- What a return carries for the context whatever its status: count, indices, flags, accumulator (R13, R105). -/
def burstRegs (b : Burst) (r : CtxRegs) : CtxRegs :=
  let n := b.base + b.limit
  let (i0, i1, i2) := indexOf r n
  let r := { r with ecount := n, i0 := BitVec.ofNat 16 i0, i1 := BitVec.ofNat 16 i1, i2 := BitVec.ofNat 16 i2, flags := burstFlags b r.flags }
  if opOf b.leg = 0x15 then setV (accReg b.leg) b.acc r else r

def burstWork (b : Burst) (w : Work) : Work :=
  { w with firstMis := b.firstMis, misCnt := b.misCnt, misVal := b.misVal, misN := b.fN, taken := b.taken, onPacket := w.onPacket || b.onPacket }

/-- Energy of a burst in 1/16 pJ (R420). -/
def burstEnergy (b : Burst) : Nat :=
  192 + 11 * b.rdBytes + 11 * b.wrBytes + 7 * b.copyBytes + 32 * b.xforms + 640 * b.fabBytes

/-- The leg's results, when its last burst has returned (R81, R101, R142). -/
def legResults (w : Work) (r : CtxRegs) : CtxRegs :=
  let l := r.leg
  match opOf l with
  | 0x12 => cmpRegs l w.firstMis w.misCnt w.misVal { r with flags := { r.flags with z := w.firstMis.isNone, n := w.misN } }
  | 0x13 => cmpRegs l w.firstMis w.misCnt w.misVal { r with flags := { r.flags with z := w.firstMis.isNone } }
  | 0x15 =>
    let acc := vreg r (accReg l)
    { r with flags := { r.flags with z := acc == 0, n := accSigned l && acc.getLsbD 63 } }
  | 0x19 =>
    let r := if bit l.w3 3 then setV (fld l.w3 2 0) (BitVec.ofNat 64 w.taken) r else r
    if bit l.w1 7 then { r with flags := { r.flags with z := w.onPacket } } else r
  | _ => r

/-- The leg has run its last burst. -/
def legEnds (c : Nat) (s : State) : State := dataDone c (modR c (legResults (ctx s c).w) s)

/-- The half event (R153, R264): the count reaches H in this burst. -/
def halfEvent (c base : Nat) (s : State) : State :=
  let r := (ctx s c).r
  let h := (totalOf r + 1) / 2
  if evhOf r.leg && !(ctx s c).w.halfFired && decide (base < h) && decide (h ≤ r.ecount) then
    modW c (fun w => { w with halfFired := true }) (legEvent c 1 s)
  else s

/-- Items that a held POP took beyond the element reached stay with the channel, and the burst that continues the leg writes
them first (R378; log entry 30). -/
def keepItems (b : Burst) (w : Work) : Work :=
  if opOf b.leg = 0x19 then
    let extra := ((b.els.take b.nxt).drop b.limit).filter (fun e => !e.othPoison)
    { w with back := extra.map (fun e => mkItem (BitVec.setWidth 64 e.data) e.idxPoison e.poison) ++ w.back, taken := w.taken - extra.length }
  else w

/-- Go on as the burst's status says. -/
def burstStatus (c : Nat) (b : Burst) (s : State) : State :=
  let draining := decide ((ctx s c).r.state = .draining)
  let idle := fun (s : State) => modW c (fun w => { w with phase := .idle }) s
  match b.why with
  | .aborted => idle s
  | .faulted code a => raiseFault c code.toNat a false s
  | .held d a =>
    if draining then idle s
    else goHeld c d a (modW c (fun w => { keepItems b w with phase := .data, reqHeld := paceOf b.leg }) s)
  | .haltCut =>
    if draining then idle s else toBoundary c (modW c (fun w => { w with reqHeld := paceOf b.leg }) s)
  | .queue =>
    if draining then idle s
    else
      let s := modW c (fun w => { w with phase := .data }) s
      if opOf b.leg = 0x19 then enterWait c .queue (.popItem (popQueue b.leg)) s
      else enterWait c .queueSpace (.pushRoom (pushQueue b.leg)) s
  | .legEnd => legEnds c s
  | .complete =>
    if totalOf (ctx s c).r ≤ (ctx s c).r.ecount then legEnds c s
    else if draining then idle s else toBoundary c s

/-- Apply the return of lane l (R13): reads still out are orphaned (R85, R329); no event while the channel drains (R266), and
nothing but the registers for a channel that is at fault or aborting. -/
def applyReturn (l : Nat) (b : Burst) (s : State) : State :=
  let c := b.ch
  let s := orphanReads (laneOwner l) s
  let s := modW c (fun w => { w with ret := some l }) (setLane l { lane s l with burst := none, freeAt := s.eclk + 1 } s)
  let s := modW c (burstWork b) (modR c (burstRegs b) s)
  let s := modW c (fun w => { w with progressed := true }) (addEnergy c (burstEnergy b) b.moved s)
  let x := ctx s c
  let s := if x.w.faulting.isSome || x.w.aborting then
      match b.why with
      | .faulted code a => modW c (fun w => { w with phase := .idle }) (raiseFault c code.toNat a false s)
      | _ => modW c (fun w => { w with phase := .idle }) s
    else burstStatus c b (if decide (x.r.state = .draining) then s else halfEvent c b.base s)
  noteQuiet c (modW c (fun w => { w with ret := none }) s)

/-- BURST_RETURN (R13). -/
def execBurstReturn (l : Nat) (s : State) : Host.Outcome State Fault Refusal :=
  match burstOn s l with
  | some b => if burstDone s l then .next (applyReturn l b s) else .next s
  | none => .next s

end Sys2Proof.Machine
end

