-- ==== Sys2Proof/Machine/Legs.lean ====
section
/-! DEFINITION. The legs as they begin: the check of R109, and the meaning of every opcode (03_data_legs,
04_control_legs). -/

namespace Sys2Proof.Machine

/-- Channel c may begin the leg that stands in its leg copy (R51, R54, R335); a channel that drains, only the leg whose barrier
it waited for (R330). -/
def canBegin (s : State) (c : Nat) : Bool :=
  let x := ctx s c
  running s && x.r.slot.isSome && (decide (x.r.state = .active) || (decide (x.r.state = .draining) && x.w.acting)) &&
  decide (x.w.phase = .ready) && !x.w.pausePend && !haltOn s && x.w.faulting.isNone && !inSwap s c

/-- The line of a leg's target, where it has one (R61). -/
def targetOf (r : CtxRegs) : Option W32 :=
  let l := r.leg
  match opOf l with
  | 0x40 | 0x42 => some (if bit l.w1 35 then BitVec.setWidth 32 (vreg r (fld l.w1 34 32)) else BitVec.ofNat 32 (fld l.w1 31 0))
  | 0x41 | 0x44 => some (BitVec.ofNat 32 (fld l.w1 31 0))
  | _ => none

def flowTarget (r : CtxRegs) : W32 := (targetOf r).getD 0
def successorOf (r : CtxRegs) : W32 := if nextOf r.leg = 0 then r.pc + 32 else nextOf r.leg

/-- BRANCH's registers and flags (R133). -/
def branchRegs (r : CtxRegs) : CtxRegs :=
  let l := r.leg
  let n := fld l.w1 38 36
  let r := if bit l.w1 39 then
      let v := vreg r n - 1
      let r := setV n v r
      { r with flags := { r.flags with z := v == 0, n := v.getLsbD 63 } }
    else r
  if bit l.w1 40 then
    let v := vreg r n
    { r with flags := { r.flags with z := v == l.w2, n := if bit l.w1 41 then decide (v.toNat < l.w2.toNat) else decide (v.toInt < l.w2.toInt) } }
  else r
def branchTaken (r : CtxRegs) : Bool := condHolds (fld r.leg.w1 35 32) (branchRegs r).flags

/-- LOOP's counter (R70). -/
def loopCount (r : CtxRegs) : W32 := if r.lc = 0 then BitVec.ofNat 32 (fld r.leg.w1 47 32) - 1 else r.lc - 1

/-- The target that a flow leg takes, where it takes one (R128). -/
def takenTarget (r : CtxRegs) : Option W32 :=
  match opOf r.leg with
  | 0x40 | 0x42 => some (flowTarget r)
  | 0x41 => if branchTaken r then some (flowTarget r) else none
  | 0x44 => if loopCount r ≠ 0 then some (flowTarget r) else none
  | _ => none
def misaligned (a : W32) : Bool := fld a 4 0 != 0

/-- The prefetches of a leg that begins (R61): none for END. -/
def prefetchFor (c : Nat) (s : State) : State :=
  let r := (ctx s c).r
  if opOf r.leg = 0x4F then s
  else
    let s := prefetch c (successorOf r) s
    match targetOf r with
    | some t => prefetch c t s
    | none => s

/-- A leg's own faults, checked before BAR and before any action (R109, step 3); a paced PUSH or POP without a binding, on a
queue that is not open, raises 0x06 (DESIGN CHOICE, log entry 45). -/
def ownFault (s : State) (c : Nat) : Option Nat :=
  let r := (ctx s c).r
  let l := r.leg
  let col := legColour s c
  let limits := match opOf l with
    | 0x14 => limitsBad r (dwB l) (dsgOf l)
    | 0x15 => bit l.w3 6 && limitsBad r 4 (dsgOf l)
    | _ => false
  let binding := (isPatterned (opOf l) && paceOf l) || opOf l == 0x30
  let closed := match opOf l with
    | 0x18 => !openPush s (pushQueue l) col
    | 0x19 | 0x1A | 0x1B | 0x1C | 0x32 => !openPop s (popQueue l) col
    | _ => false
  if limits then some 0x02
  else if binding && !legReqen s c then some 0x06
  else if closed then some 0x10
  else match opOf l with
    | 0x33 => if bit l.w1 18 && legColour s (fld l.w1 17 8) != legColour s c then some 0x07 else none
    | 0x42 => if r.retValid then some 0x04 else if misaligned (flowTarget r) || misaligned (successorOf r) then some 0x03 else none
    | 0x43 => if r.retValid then none else some 0x05
    | _ => if (takenTarget r).any misaligned then some 0x03 else none

/-- The integer Meridian count at the leg's start: of the ECLK in which it began, before its barrier (R51, R110; log entry
44). -/
def startOf (s : State) (c : Nat) : Nat := (ctx s c).w.legAt.getD (merInt s)

/-- A leg begins: a divert or fire is taken in its place where it has SAF (R72), it is checked (R109), its
prefetches are requested, BAR waits (R110), and it acts. DEDUCED: its start (`startOf`) is the ECLK it began, before the
barrier wait (log entry 44). -/
def beginLeg (op c : Nat) (act : State → State) (s : State) : State :=
  let l := (ctx s c).r.leg
  if !canBegin s c || opOf l != op then s
  else if safOf l && divertHeld s c && decide ((ctx s c).r.state = .active) then takeDivert c false s
  else if !legOk l then faultPc c 0x02 s
  else
    let s := modW c (fun w => { w with legAt := some (startOf s c) }) s
    match ownFault s c with
    | some code => faultPc c code s
    | none =>
      let s := prefetchFor c s
      if barOf l && !isPatterned op && decide (0 < covered s c) then
        modW c (fun w => { w with phase := .waiting, acting := true }) (enterWait c .barrier .barBefore s)
      else act s

/-! ### Patterned legs (R75 to R105, R140 to R143) -/

/-- What a patterned leg sets when it begins (R45, R95, R104, R113). -/
def patternedRegs (r : CtxRegs) : CtxRegs :=
  let l := r.leg
  let r := { r with ecount := 0, i0 := 0, i1 := 0, i2 := 0, flags := clearSticky l r.flags }
  if opOf l = 0x15 ∧ bit l.w3 5 then setV (accReg l) (reduceIdentity (fld l.w3 4 3) (accSigned l)) r else r

def patternedWork (r : CtxRegs) (w : Work) : Work :=
  { w with fillVal := if bit r.leg.w1 59 then vreg r (fld r.leg.w1 58 56) else r.leg.w3, firstMis := none, misCnt := 0, misVal := 0,
           misN := false, taken := 0, back := [], ended := false, onPacket := false, halfFired := false, reqHeld := false }

def beginPatterned (c : Nat) (s : State) : State :=
  let s := setCtx s c { r := patternedRegs (ctx s c).r, w := patternedWork (ctx s c).r (ctx s c).w }
  toBoundary c s

/-- MOVE (R86). -/
def execMove (c : Nat) (s : State) : Host.Outcome State Fault Refusal := .next (beginLeg 0x10 c (beginPatterned c) s)
/-- FILL (R94). -/
def execFill (c : Nat) (s : State) : Host.Outcome State Fault Refusal := .next (beginLeg 0x11 c (beginPatterned c) s)
/-- CMP (R100). -/
def execCmp (c : Nat) (s : State) : Host.Outcome State Fault Refusal := .next (beginLeg 0x12 c (beginPatterned c) s)
/-- CMPK (R101). -/
def execCmpk (c : Nat) (s : State) : Host.Outcome State Fault Refusal := .next (beginLeg 0x13 c (beginPatterned c) s)
/-- SCALE (R96). -/
def execScale (c : Nat) (s : State) : Host.Outcome State Fault Refusal := .next (beginLeg 0x14 c (beginPatterned c) s)
/-- REDUCE (R103). -/
def execReduce (c : Nat) (s : State) : Host.Outcome State Fault Refusal := .next (beginLeg 0x15 c (beginPatterned c) s)
/-- MOVEX (R97). -/
def execMovex (c : Nat) (s : State) : Host.Outcome State Fault Refusal := .next (beginLeg 0x16 c (beginPatterned c) s)
/-- PUSH (R141). -/
def execPush (c : Nat) (s : State) : Host.Outcome State Fault Refusal := .next (beginLeg 0x18 c (beginPatterned c) s)
/-- POP (R142). -/
def execPop (c : Nat) (s : State) : Host.Outcome State Fault Refusal := .next (beginLeg 0x19 c (beginPatterned c) s)

/-! ### Queue legs (R144, R291) -/

/-- MARK. -/
def execMark (c : Nat) (s : State) : Host.Outcome State Fault Refusal :=
  .next (beginLeg 0x1A c (fun s => finish c (markQ (popQueue (ctx s c).r.leg) s)) s)
/-- REWIND. -/
def execRewind (c : Nat) (s : State) : Host.Outcome State Fault Refusal :=
  .next (beginLeg 0x1B c (fun s => finish c (rewindQ (popQueue (ctx s c).r.leg) s)) s)
/-- RELEASE. -/
def execRelease (c : Nat) (s : State) : Host.Outcome State Fault Refusal :=
  .next (beginLeg 0x1C c (fun s => finish c (releaseQ (popQueue (ctx s c).r.leg) s)) s)

/-! ### Set-up legs (R112 to R116) -/

def loadPattern (r : CtxRegs) : CtxRegs := { r with pat1 := r.leg.w1, pat2 := r.leg.w2, pat3 := r.leg.w3 }
def loadScale (r : CtxRegs) : CtxRegs := { r with sc1 := r.leg.w1, sc2 := r.leg.w2, sc3 := r.leg.w3 }

/-- PATTERN (R113). -/
def execPattern (c : Nat) (s : State) : Host.Outcome State Fault Refusal :=
  .next (beginLeg 0x20 c (fun s => finish c (modR c loadPattern s)) s)
/-- SCALECFG (R116). -/
def execScalecfg (c : Nat) (s : State) : Host.Outcome State Fault Refusal :=
  .next (beginLeg 0x21 c (fun s => finish c (modR c loadScale s)) s)

/-! ### Wait legs (R117 to R123) -/

/-- Wait for a condition, with a deadline when TIMEOUT is not 0, counted from the leg's start, before a barrier wait (R117;
DEDUCED, log entry 44); a condition met already completes the leg. -/
def waitFor (c : Nat) (d : WaitDesc) (timeout : Nat) (s : State) : State :=
  if condMet s c d then satisfied c d s
  else
    let s := modW c (fun w => { w with phase := .waiting }) (enterWait c (waitReason d) d s)
    if timeout = 0 then s else modR c (fun r => { r with deadline := some (startOf s c + timeout) }) s

def timeoutOf (l : Leg) : Nat := fld l.w3 31 0

/-- WAITREQ (R119). -/
def execWaitreq (c : Nat) (s : State) : Host.Outcome State Fault Refusal :=
  .next (beginLeg 0x30 c (fun s => let l := (ctx s c).r.leg; waitFor c (.request (fld l.w1 15 0 + 1)) (timeoutOf l) s) s)

/-- WAITTIME's target (R121): MODE 1 counts from the leg's start, before a barrier wait (DEDUCED, log entry 44). -/
def timeTarget (s : State) (c : Nat) : W64 :=
  let r := (ctx s c).r
  match fld r.leg.w2 1 0 with
  | 0 => r.leg.w1
  | 1 => BitVec.ofNat 64 (startOf s c) + r.leg.w1
  | _ => vreg r (fld r.leg.w2 4 2) + r.leg.w1

def waittime (c : Nat) (s : State) : State :=
  let t := timeTarget s c
  let l := (ctx s c).r.leg
  let s := if fld l.w2 1 0 = 2 then modR c (setV (fld l.w2 4 2) t) s else s
  if t.toNat ≤ merInt s then finishZ c false s else waitFor c (.time t) 0 s

/-- WAITTIME (R121). -/
def execWaittime (c : Nat) (s : State) : Host.Outcome State Fault Refusal := .next (beginLeg 0x31 c (waittime c) s)

def queueCond (l : Leg) : WaitDesc := if bit l.w1 6 then .packet (popQueue l) else .items (popQueue l) (fld l.w1 31 16 + 1)

/-- WAITQ (R122). -/
def execWaitq (c : Nat) (s : State) : Host.Outcome State Fault Refusal :=
  .next (beginLeg 0x32 c (fun s => let l := (ctx s c).r.leg; waitFor c (queueCond l) (timeoutOf l) s) s)

/-- BARRIER (R123). -/
def execBarrier (c : Nat) (s : State) : Host.Outcome State Fault Refusal :=
  .next (beginLeg 0x34 c (fun s => let l := (ctx s c).r.leg; waitFor c (.barrierLeg (bit l.w1 0)) (timeoutOf l) s) s)

/-! ### SIGNAL and LOG (R124 to R127) -/

/-- A frame of channel c is real-time when its class is at most RTCLS (R354). -/
def isRt (s : State) (c : Nat) : Bool := decide (legClass s c ≤ s.fab.rtcls)

/-- The remote event of R125: a request at this node, or an EV frame. -/
def remoteEvent (c node rnum : Nat) (s : State) : State :=
  if s.fab.idv && decide (node = s.fab.id.toNat) then request rnum false s
  else (sendFrame ⟨hdr s (isRt s c) (legColour s c) node false, .ev (BitVec.ofNat 9 rnum)⟩ s).1

/-- SIGNAL's pulse and wake; its remote event follows from the next ECLK on, and completes it (R125). -/
def signal (c : Nat) (s : State) : State :=
  let l := (ctx s c).r.leg
  let s := if bit l.w1 7 then fireEvo (fld l.w1 6 0) s else s
  let s := if bit l.w1 18 then sendWake (fld l.w1 17 8) s else s
  if bit l.w2 44 then { modW c (fun w => { w with phase := .single }) s with remotes := s.remotes ++ [(c, s.eclk + 1)] } else finish c s

/-- The router takes a SIGNAL's remote event, and the leg completes (R125); an abandoned SIGNAL hands over nothing (R330). -/
def handOver (c : Nat) (s : State) : State :=
  let x := ctx s c
  let l := x.r.leg
  if decide (x.w.phase = .single) && decide (opOf l = 0x33) && x.w.faulting.isNone then
    finish c (remoteEvent c (fld l.w2 43 32) (fld l.w2 8 0) s)
  else s

/-- The remote events that are due; a channel without a slot waits for one (R54). -/
def handOvers (s : State) : State :=
  let due := s.remotes.filter (fun e => decide (e.2 ≤ s.eclk) && resident s e.1)
  due.foldl (fun s e => handOver e.1 s) { s with remotes := s.remotes.filter (fun e => !due.contains e) }

/-- SIGNAL (R125). -/
def execSignal (c : Nat) (s : State) : Host.Outcome State Fault Refusal := .next (beginLeg 0x33 c (signal c) s)

def logLeg (c : Nat) (s : State) : State :=
  let r := (ctx s c).r
  let l := r.leg
  let v := if bit l.w1 35 then vreg r (fld l.w1 34 32) else l.w2
  finish c (offer .ctl (some c) { mkRec s (legBook s c) 3 1 c (fld l.w1 31 0) v (fld l.w3 30 0) with time := BitVec.ofNat 64 (startOf s c) } s)

/-- LOG (R127). -/
def execLog (c : Nat) (s : State) : Host.Outcome State Fault Refusal := .next (beginLeg 0x35 c (logLeg c) s)

/-! ### Flow legs (R69, R70, R128 to R134) -/

/-- JUMP (R129). -/
def execJump (c : Nat) (s : State) : Host.Outcome State Fault Refusal :=
  .next (beginLeg 0x40 c (fun s => finishTo c (some (flowTarget (ctx s c).r)) s) s)

/-- CALL's return address is its successor (R69). -/
def callLeg (c : Nat) (s : State) : State :=
  finishTo c (some (flowTarget (ctx s c).r)) (modR c (fun r => { r with ret := successorOf r, retValid := true }) s)

/-- CALL (R69). -/
def execCall (c : Nat) (s : State) : Host.Outcome State Fault Refusal := .next (beginLeg 0x42 c (callLeg c) s)

/-- RETURN (R69). -/
def execReturn (c : Nat) (s : State) : Host.Outcome State Fault Refusal :=
  .next (beginLeg 0x43 c (fun s => finishTo c (some (ctx s c).r.ret) (modR c (fun r => { r with retValid := false }) s)) s)

def branchLeg (c : Nat) (s : State) : State := finishTo c (takenTarget (ctx s c).r) (modR c branchRegs s)

/-- BRANCH (R133). -/
def execBranch (c : Nat) (s : State) : Host.Outcome State Fault Refusal := .next (beginLeg 0x41 c (branchLeg c) s)

def loopLeg (c : Nat) (s : State) : State := finishTo c (takenTarget (ctx s c).r) (modR c (fun r => { r with lc := loopCount r }) s)

/-- LOOP (R70). -/
def execLoop (c : Nat) (s : State) : Host.Outcome State Fault Refusal := .next (beginLeg 0x44 c (loopLeg c) s)

/-! ### LOAD and STORE (R135 to R137) -/

def singleWant (s : State) (c : Nat) (owner : Owner) (wr : Bool) (b : GAddr) (p : Part) (d : W128) : Want :=
  { owner := owner, wr := wr, colour := legColour s c, gaddr := b, mask := partMask p, data := d, parts := [p], home := c % 4,
    rank := rankClass (legClass s c), ord := 8 + c, ch := some (c, (ctx s c).w.run, (ctx s c).w.legNo), srck := 0, srcn := c }

/-- The channel is held at once when an address lies in a domain that is not up (R378). -/
def holdIfShut (c : Nat) (ps : List (GAddr × Part)) (s : State) : State :=
  ps.foldl (fun s bp =>
    let a := bp.1 + BitVec.ofNat 45 bp.2.at_
    if isLocal s a then (match shutDomain s (gLocal a) with | some d => goHeld c d a s | none => s) else s) s

/-- LOAD from memory: its one or two reads are offered (R136). -/
def loadMemory (c : Nat) (s : State) : State :=
  let l := (ctx s c).r.leg
  let a := srcOf l
  if !isLocal s a && crosses a 0 (swB l) then raiseFault c 0x13 a false s
  else
    let ps := partsOf none 0 a (swB l)
    let s := modW c (fun w => { w with phase := .single, loadData := 0, loadGot := 0, loadPoison := false, loadFail := none }) s
    holdIfShut c ps (ps.foldl (fun s bp => submit (singleWant s c (.load c) false bp.1 bp.2 0) s) s)

/-- LOAD's action (R135, R136): the Meridian source gives the count of the leg's start, before a barrier wait (DEDUCED, log
entry 44). -/
def loadLeg (c : Nat) (s : State) : State :=
  let l := (ctx s c).r.leg
  match fld l.w2 5 4 with
  | 0 => loadMemory c s
  | 1 => finish c (modR c (setV (fld l.w2 2 0) (BitVec.ofNat 64 (startOf s c))) s)
  | _ => finish c (modR c (setV (fld l.w2 2 0) l.w3) s)

/-- LOAD (R136). -/
def execLoad (c : Nat) (s : State) : Host.Outcome State Fault Refusal := .next (beginLeg 0x45 c (loadLeg c) s)

/-- STORE: its one or two writes are offered; the leg completes when they have been issued (R137). -/
def storeLeg (c : Nat) (s : State) : State :=
  let r := (ctx s c).r
  let l := r.leg
  let a := dstOf l
  let w := dwB l
  if !isLocal s a && crosses a 0 w then raiseFault c 0x13 a false s
  else
    let v := vreg r (fld l.w1 2 0)
    let ps := partsOf none 0 a w
    let s := modW c (fun w => { w with phase := .single, storeLeft := ps.length }) s
    let s := ps.foldl (fun s bp =>
      let d := placeBytes 0 bp.2.at_ bp.2.len (bytesAt (BitVec.setWidth 128 v) bp.2.off bp.2.len)
      addCovered c (isLocal s a) (submit (singleWant s c (.store c) true bp.1 bp.2 d) s)) s
    holdIfShut c ps s

/-- STORE (R137). -/
def execStore (c : Nat) (s : State) : Host.Outcome State Fault Refusal := .next (beginLeg 0x46 c (storeLeg c) s)

/-! ### END, NOP and reserved opcodes (R65, R109, R139) -/

/-- END (R65, R72): a divert or fire is taken instead of reading W0. -/
def execEnd (c : Nat) (s : State) : Host.Outcome State Fault Refusal :=
  .next (beginLeg 0x4F c (fun s => if divertHeld s c then takeDivert c true s else startEndRead c s) s)

/-- NOP (R139). -/
def execNop (c : Nat) (s : State) : Host.Outcome State Fault Refusal := .next (beginLeg 0x00 c (finish c) s)

/-- A leg with a reserved opcode begins (R109, step 1). -/
def illegalLeg (c : Nat) (s : State) : State :=
  let l := (ctx s c).r.leg
  if !canBegin s c || isOpcode (opOf l) then s
  else if safOf l && divertHeld s c then takeDivert c false s
  else faultPc c 0x01 s

/-- ILLEGAL_LEG (R109). -/
def execIllegalLeg (c : Nat) (s : State) : Host.Outcome State Fault Refusal := .next (illegalLeg c s)

end Sys2Proof.Machine
end

