-- ==== Sys2Proof/Machine/Host.lean ====
section
/-! DEFINITION. The host target port: how an access by the host or by a debugger comes to its register or table word
(R4, R7, R24, R309, R310, R393, R398, R405). -/

namespace Sys2Proof.Machine

/-! ### 64-bit registers and held low words (R5, R427, R432 to R436, R443) -/

/-- The 8-aligned offset is that of a 64-bit register. -/
def wide (off : Nat) : Bool :=
  if off < 0x1000 then [0x08, 0x18, 0x48, 0x50, 0x60, 0x68, 0xA8, 0xB8, 0xC0].contains off
  else if off < 0x2000 then true
  else if off < 0x3000 then decide (0x2400 ≤ off) && decide (off < 0x2600) && (off % 0x40 == 0 || off % 0x40 == 0x20)
  else if off < 0x4000 then
    [0x3010, 0x3020, 0x3028, 0x3038, 0x3040, 0x3088, 0x3090, 0x3098, 0x30A0, 0x30A8, 0x30C0].contains off
  else if off < 0x5000 then off % 64 != 0x18 && off % 64 != 0x38
  else if off < 0x6000 then [0x5010, 0x5028, 0x5040, 0x5048, 0x5050].contains off
  else if off < 0x7000 then
    [0x6010, 0x6018, 0x6020, 0x6028, 0x6038].contains off || (decide (0x6040 ≤ off) && decide (off < 0x6080)) ||
    (decide (0x6100 ≤ off) && decide (off < 0x6140))
  else if off < 0x8000 then
    [0x7010, 0x7028, 0x7048, 0x7050, 0x7058, 0x7060, 0x7068].contains off || (decide (0x7100 ≤ off) && decide (off < 0x7420))
  else false

/-- Snapshots and held low words are kept by initiator and by 64-bit word. -/
def keySnap (by_ : Initiator) (off : Nat) : Nat := off / 8 * 2 + (if decide (by_ = .debug) then 1 else 0)
def heldLow (s : State) (key : Nat) : Option W32 := tget none s.port.lows key
def setLow (key : Nat) (v : Option W32) (s : State) : State :=
  { s with port := { s.port with lows := tset none s.port.lows key v } }

/-! ### The host target port -/

def setResp (by_ : Initiator) (data : W64) (err : Bool) (s : State) : State :=
  match by_ with
  | .host => { s with port := { s.port with resp := ⟨data, err⟩ } }
  | .debug => { s with port := { s.port with dbgResp := ⟨data, err⟩ } }

/-- The rules of the Atlas stay within reach of colour 15 (R310). -/
def exempt (by_ : Initiator) (table : Bool) (off : Nat) : Bool :=
  decide (by_ = .host) &&
  (if table then decide (off < 0x100000) || (decide (0x160000 ≤ off) && decide (off < 0x168000)) || (decide (0x16C000 ≤ off) && decide (off < 0x16C900))
   else decide (0x5000 ≤ off) && decide (off < 0x6000))

def hostAsk (s : State) (by_ : Initiator) (table wr : Bool) (off : Nat) : Ask :=
  { point := 10, colour := if decide (by_ = .host) then 15 else 14, wr := wr, type_ := bool wr, srck := if decide (by_ = .host) then 3 else 2,
    srcn := 0, addr := (if table then s.straps.tableBase else s.straps.steBase) + BitVec.ofNat 32 off }

/-- Who sends an access of the host target port. -/
def sender (i : Instr) : Option Initiator :=
  match i with
  | .chStart b _ | .chDrain b _ | .chPause b _ | .chResume b _ | .chAbort b _ | .chWake b _ | .chDivert b _ _
  | .chLegendWrite b _ _ | .chRearmClr b _ | .swreq b _ | .reqinConfigWrite b _ _ _ | .reqinClrcnt b _ | .swpulse b _
  | .evoConfigWrite b _ _ | .tagClrhw b | .merNowRead b _ | .merSet b _ | .merAdj b _ | .merSrcChange b _ | .insert b
  | .delete b _ | .replace b _ | .gratEnable b | .gratClrcnt b | .bookEnable b _ | .bookRidxWrite b _ _ | .hostPush b _ _
  | .hostPushend b _ _ | .hostPop b _ _ | .unmark b _ | .queueReset b _ _ | .spillBaseWrite b _ | .spillClrhw b
  | .atlasStageWrite b _ _ _ | .routeTableWrite b _ _ | .commitGo b _ | .atlasClrcnt b | .globalResume b | .fenceWrite b _
  | .errcCfgWrite b _ _ | .portEnable b _ _ | .portClrst b _ | .surveyGo b | .routeLoadGo b _ | .engineResetRequest b _
  | .spreadWrite b _ | .legInvWrite b _ | .selftestGo b _ | .teleSnap b | .hostTableRead b _ _ _ | .hostRegisterWrite b _ _ _ _
  | .lowWordRead b _ => some b
  | _ => none

/-- The registers of the management plane (R426). -/
def mgtPage (off : Nat) : Bool := decide (0x7000 ≤ off) && decide (off < 0x8000)

/-- The port accepts no access to this place now: before ECLK 16 (R405), in the ECLK of another that it has accepted, and to
the management page until an earlier write to it has taken effect (R412, R441). -/
def portWaits (s : State) (table : Bool) (off : Nat) : Bool :=
  decide (s.eclk < 16) || decide (s.port.lastAt = some s.eclk) || (!table && mgtPage off && decide (s.eclk < s.port.mgtFrom))

/-- An access that is not yet accepted is presented again (log entry 19). -/
def hold (cmd : Instr) (s : State) : State := { s with port := { s.port with early := s.port.early ++ [cmd] } }

/-- The port accepts an access in this ECLK, and answers it. -/
def portAnswer (by_ : Initiator) (err : Bool) (s : State) : State :=
  setResp by_ 0 err { s with port := { s.port with lastAt := some s.eclk } }

/-- The host target port: an access during a reset ends with an error (R398), one that the port cannot accept yet is held
(R405, R441), a denied one changes nothing and ends with an error (R309); every other acts, and ends without error unless it
says otherwise. -/
def hostAccess (by_ : Initiator) (table wr : Bool) (off : Nat) (cmd : Instr) (act : State → State) (s : State) : State :=
  if inReset s then setResp by_ 0 true s
  else if portWaits s table off then hold cmd s
  else if exempt by_ table off then act (portAnswer by_ false s)
  else
    let (s, v) := check (hostAsk s by_ table wr off) s
    if allowed v then act (portAnswer by_ false s) else portAnswer by_ true s

/-- An access whose size or alignment no window accepts changes nothing and ends with an error (R4); it is held like any
other (R405, R441). -/
def badAccess (by_ : Initiator) (table : Bool) (off : Nat) (cmd : Instr) (s : State) : State :=
  if inReset s then setResp by_ 0 true s else if portWaits s table off then hold cmd s else portAnswer by_ true s

/-- A write to a register, whole: to a 64-bit one it ends the low word that the initiator holds (R443). -/
def regWrite (by_ : Initiator) (off : Nat) (cmd : Instr) (act : State → State) (s : State) : State :=
  hostAccess by_ false true off cmd (fun s => act (if wide off then setLow (keySnap by_ off) none s else s)) s

/-- A write to the management page waits for the first ECLK of the next MCLK period (R412, R444). -/
def mgtTake (cmd : Instr) (s : State) : State :=
  { s with port := { s.port with mgtWait := some cmd, mgtFrom := 4 * mclk s + 5 } }
def mgtWrite (by_ : Initiator) (off : Nat) (cmd : Instr) (s : State) : State := hostAccess by_ false true off cmd (mgtTake cmd) s

end Sys2Proof.Machine
end

