-- ==== Sys2Proof/Machine/Chan.lean ====
section
/-! DEFINITION. Waits that end, channel control, and the stops of a channel (R49 to R58, R66, R71, R117, R121, R322,
R326, R330, R333). -/

namespace Sys2Proof.Machine

/-! ### Waits (R52, R117, R121) -/

def isTime (d : WaitDesc) : Bool := match d with | .time _ => true | _ => false
def isDomain (d : WaitDesc) : Bool := match d with | .domain _ => true | _ => false

/-- A channel waits; so does one that drains, in the barrier of a leg that has begun (R330). -/
def waits (s : State) (c : Nat) : Bool :=
  decide ((ctx s c).r.state = .wait) ||
  (decide ((ctx s c).r.state = .draining) && decide ((ctx s c).w.phase = .waiting) && decide ((ctx s c).r.desc = .barBefore))

/-- WAIT_SATISFIED: a wait other than for a time ends with its condition met. -/
def waitSatisfied (c : Nat) (s : State) : State :=
  let d := (ctx s c).r.desc
  if waits s c && !isTime d && !isDomain d && condMet s c d then satisfied c d s else s
def execWaitSatisfied (c : Nat) (s : State) : Host.Outcome State Fault Refusal := .next (waitSatisfied c s)

/-- WAITTIME_TARGET_REACHED (R121). -/
def targetReached (c : Nat) (s : State) : State :=
  let d := (ctx s c).r.desc
  if decide ((ctx s c).r.state = .wait) && isTime d && condMet s c d then satisfied c d s else s
def execWaittimeTargetReached (c : Nat) (s : State) : Host.Outcome State Fault Refusal := .next (targetReached c s)

/-- WAIT_DEADLINE_REACHED (R117): a condition met in the same ECLK wins. -/
def deadlineEnds (c : Nat) (s : State) : State :=
  let d := (ctx s c).r.desc
  if decide ((ctx s c).r.state = .wait) && decide ((ctx s c).w.phase = .waiting) && deadlineReached s c then
    if condMet s c d then satisfied c d s else finishZ c false s
  else s
def execWaitDeadlineReached (c : Nat) (s : State) : Host.Outcome State Fault Refusal := .next (deadlineEnds c s)

/-! ### CH_CTRL (R50) -/

/-- EN written 1 while it reads 0, or while a re-arm is pending (R53, R56). -/
def enOne (c : Nat) (s : State) : State :=
  let r := (ctx s c).r
  if r.en then
    if decide (r.state = .draining) && r.rearm then modR c (fun r => { r with rearmCnt := sat16 r.rearmCnt }) s else s
  else
    match r.state with
    | .off => startChannel c s
    | .draining => modR c (fun r => { r with en := true, rearm := true }) s
    | .fault => if (ctx s c).w.toOff then startChannel c (enterOff c r.aborted s) else s
    | _ => s

/-- EN written 0 while it reads 1 (R52, R56, R333). -/
def enZero (c : Nat) (s : State) : State :=
  let x := ctx s c
  if !x.r.en then s
  else
    match x.r.state with
    | .draining => modR c (fun r => { r with en := false, rearm := false }) s
    | .fault => enterOff c x.r.aborted (modR c (fun r => { r with en := false }) s)
    | .off => modR c (fun r => { r with en := false }) s
    | _ => if x.w.faulting.isSome then modR c (fun r => { r with en := false }) s else drain c s

/-- The record of a channel that reaches OFF through ABORT (R271). -/
def abortedRecord (c : Nat) (s : State) : State :=
  markSet (w1cKey (0x8008 + 32 * c) 21) (offerNow .ctl (legBook s c) 7 1 c (ctx s c).r.pc.toNat 0 0 s)

/-- ABORT (R55); from FAULT nothing is outstanding, and the channel is OFF at once. -/
def abortCh (c : Nat) (s : State) : State :=
  match (ctx s c).r.state with
  | .off => modR c (fun r => { r with en := false }) s
  | .fault =>
    let s := abortedRecord c (dropFire c 4 s)
    enterOff c true (modR c (fun r => { r with en := false, divPend := false, wake := false }) s)
  | _ => abort c s

/-- PAUSE (R51, R58). -/
def pauseCh (c : Nat) (s : State) : State :=
  let x := ctx s c
  match x.r.state with
  | .active | .wait | .parked | .held =>
    if x.w.faulting.isSome then s else tryPause c (modW c (fun w => { w with pausePend := true }) s)
  | .halted =>
    if decide (x.r.resume = .paused) then s
    else modR c (fun r => { r with pauseRet := r.resume, resume := .paused }) s
  | _ => s

/-- RESUME (R52, R58). -/
def resumeCh (c : Nat) (s : State) : State :=
  let x := ctx s c
  match x.r.state with
  | .paused => if x.w.faulting.isSome then s else resume c s
  | .halted => if decide (x.r.resume = .paused) then modR c (fun r => { r with resume := r.pauseRet, pauseRet := .off }) s else s
  | _ => s

/-- One write to CH_CTRL (R50). -/
def writeCtrl (c : Nat) (v : W32) (s : State) : State :=
  let en := (ctx s c).r.en
  if bit v 3 then abortCh c s
  else if en && !bit v 0 then enZero c s
  else
    let s := if bit v 0 then enOne c s else s
    if bit v 1 && bit v 2 then s
    else if bit v 1 then pauseCh c s
    else if bit v 2 then resumeCh c s else s

/-- CH_DIVERT (R71). -/
def writeDivert (c : Nat) (v : W32) (s : State) : State :=
  match (ctx s c).r.state with
  | .off | .fault | .draining => s
  | _ => divertNow c (modR c (fun r => { r with divTarget := v &&& 0xFFFFFFE0, divPend := true }) s)

/-- A control write as it reaches the context. -/
def applyCtl (c : Nat) (w : CtlWrite) (s : State) : State :=
  match w with
  | .ctrl v => writeCtrl c v s
  | .wake => wake c s
  | .divert v => writeDivert c v s
  | .fire f => fireAt c f s

/-- A control write acts at the end of its ECLK, after what hardware does in it (R333, R444). -/
def control (c : Nat) (w : CtlWrite) (s : State) : State := { s with ctl := s.ctl ++ [(c, w)] }

/-- The control writes of the ECLK act, in order; one to a context that moves waits (R57). -/
def ctlEnd (s : State) : State :=
  let due := s.ctl.filter (fun e => !inTransfer s e.1)
  due.foldl (fun s e => applyCtl e.1 e.2 s) { s with ctl := s.ctl.filter (fun e => inTransfer s e.1) }

/-- An ABORT, or a change of EN to 0, that acts at the end of this ECLK: it goes before a global halt (R333). -/
def stopComes (s : State) (c : Nat) : Bool :=
  s.ctl.any (fun e => e.1 == c && (match e.2 with | .ctrl v => bit v 3 || ((ctx s c).r.en && !bit v 0) | _ => false))

def chOff (c at_ : Nat) : Nat := 0x8000 + 32 * c + at_
def enBit (s : State) (c : Nat) : W32 := BitVec.ofNat 32 (bool (ctx s c).r.en)

/-- CH_START (R53, R56): CH_CTRL written with EN = 1. -/
def execChStart (by_ : Initiator) (c : Fin 1024) (s : State) : Host.Outcome State Fault Refusal :=
  .next (regWrite by_ (chOff c 0) (.chStart by_ c) (control c (.ctrl 1)) s)
/-- CH_DRAIN (R330): CH_CTRL written with EN = 0. -/
def execChDrain (by_ : Initiator) (c : Fin 1024) (s : State) : Host.Outcome State Fault Refusal :=
  .next (regWrite by_ (chOff c 0) (.chDrain by_ c) (control c (.ctrl 0)) s)
/-- CH_PAUSE (R51): PAUSE with EN as it reads. -/
def execChPause (by_ : Initiator) (c : Fin 1024) (s : State) : Host.Outcome State Fault Refusal :=
  .next (regWrite by_ (chOff c 0) (.chPause by_ c) (control c (.ctrl (2 ||| enBit s c))) s)
/-- CH_RESUME (R52): RESUME with EN as it reads. -/
def execChResume (by_ : Initiator) (c : Fin 1024) (s : State) : Host.Outcome State Fault Refusal :=
  .next (regWrite by_ (chOff c 0) (.chResume by_ c) (control c (.ctrl (4 ||| enBit s c))) s)
/-- CH_ABORT (R55). -/
def execChAbort (by_ : Initiator) (c : Fin 1024) (s : State) : Host.Outcome State Fault Refusal :=
  .next (regWrite by_ (chOff c 0) (.chAbort by_ c) (control c (.ctrl 8)) s)
/-- CH_WAKE (R66). -/
def execChWake (by_ : Initiator) (c : Fin 1024) (s : State) : Host.Outcome State Fault Refusal :=
  .next (regWrite by_ (chOff c 0x0C) (.chWake by_ c) (control c .wake) s)
/-- CH_DIVERT (R71). -/
def execChDivert (by_ : Initiator) (c : Fin 1024) (target : W32) (s : State) : Host.Outcome State Fault Refusal :=
  .next (regWrite by_ (chOff c 0x14) (.chDivert by_ c target) (control c (.divert target)) s)

/-- A write of CH_LEGEND (R38 to R40, R218); a channel that becomes bound is armed (R192). -/
def writeLegend (c : Nat) (v : W32) (s : State) : State :=
  let old := legend s c
  let s := { s with legends := tset legendReset s.legends c (legendWritten s c v) }
  let s := if legReqen s c && decide (fld old 29 20 ≠ fld (legend s c) 29 20) then
      modW c (fun w => { w with armed := true, rearmAt := none, consNo := none }) s
    else s
  if !legPin s c && decide ((ctx s c).r.state = .off) then releaseSlot c s else s

/-- CH_LEGEND_WRITE (R40). -/
def execChLegendWrite (by_ : Initiator) (c : Fin 1024) (v : W32) (s : State) : Host.Outcome State Fault Refusal :=
  .next (regWrite by_ (chOff c 0x10) (.chLegendWrite by_ c v) (writeLegend c v) s)

/-- CH_REARM_CLR (R430). -/
def clearRearm (c : Nat) (s : State) : State := modR c (fun r => { r with rearmCnt := 0 }) s
def execChRearmClr (by_ : Initiator) (c : Fin 1024) (s : State) : Host.Outcome State Fault Refusal :=
  .next (regWrite by_ (chOff c 0x1C) (.chRearmClr by_ c) (clearRearm c) s)

/-! ### Stops that come about (R51, R52, R322, R326, R330) -/

/-- PAUSE_STOP_POINT (R51). -/
def execPauseStopPoint (c : Nat) (s : State) : Host.Outcome State Fault Refusal := .next (tryPause c s)

/-- DRAIN_COMPLETE (R52, R55, R56, R333). -/
def drainComplete (c : Nat) (s : State) : State :=
  let x := ctx s c
  if decide (x.r.state = .draining) && drained s c && (x.w.aborting || x.w.faulting.isNone) then
    let s := match x.w.faulting with
      | some f => offerFault c f s
      | none => s
    let s := if x.w.aborting then abortedRecord c s else s
    if x.r.rearm then startChannel c s else enterOff c x.w.aborting s
  else s
def execDrainComplete (c : Nat) (s : State) : Host.Outcome State Fault Refusal := .next (drainComplete c s)

/-- FAULT_ENTRY (R322): the issued writes are accepted. -/
def faultEntry (c : Nat) (s : State) : State :=
  let x := ctx s c
  match x.w.faulting with
  | none => s
  | some f =>
    if x.w.aborting || decide (x.r.state = .halted) || decide (0 < covered s c) || (laneOf s c).isSome then s
    else
      let s := setCtx s c { r := { x.r with state := .fault, wait := .none, desc := .none, deadline := none, rearm := false },
                            w := { x.w with phase := .idle, faulting := none, pausePend := false, toOff := !x.r.en, progressed := true,
                                            reqHeld := false } }
      offerFault c f s
def execFaultEntry (c : Nat) (s : State) : Host.Outcome State Fault Refusal := .next (faultEntry c s)

/-- FAULT_TO_OFF (R326). -/
def faultToOff (c : Nat) (s : State) : State :=
  let x := ctx s c
  if decide (x.r.state = .fault) && x.w.toOff then enterOff c x.r.aborted s else s
def execFaultToOff (c : Nat) (s : State) : Host.Outcome State Fault Refusal := .next (faultToOff c s)

end Sys2Proof.Machine
end

