-- ==== Sys2Proof/Machine/Paging.lean ====
section
/-! DEFINITION. The pager: candidates (R219), victims (R220), swaps and write-backs (R218, R221). -/

namespace Sys2Proof.Machine

/-- Channels that some register makes more than an untouched one, in ascending number. -/
def touched (s : State) : List Nat :=
  (List.range 1024).filter (fun c => (tfind? s.ctxs c).isSome || (tfind? s.legends c).isSome)

/-- It ranks as a channel with a request pending (R66, R118, R219, R251): a sticky wake counts too. -/
def hasPending (s : State) (c : Nat) : Bool := (ctx s c).w.urgent || (ctx s c).r.wake || decide (0 < pendOf s c)

/-- The group of a page-in candidate (R219); none for a channel that is not one. -/
def pageGroup (s : State) (c : Nat) : Option Nat :=
  let x := ctx s c
  if x.r.slot.isSome || inSwap s c then none
  else if legPin s c then some 1
  else if x.w.faulting.isSome then none
  else
    match x.r.state with
    | .active => some (if hasPending s c then 2 else 3)
    | .wait => if x.w.urgent || decide (0 < pendOf s c) then some 2 else none
    | .parked | .held | .halted => if x.w.urgent then some 2 else none
    | .off | .paused | .draining | .fault => none

/-- Whether candidate a goes before candidate b, both given with their groups. -/
def pageBefore (s : State) (a b : Nat × Nat) : Bool :=
  if a.1 ≠ b.1 then decide (a.1 < b.1)
  else if a.1 = 1 then decide (a.2 < b.2)
  else
    let ka := legClass s a.2
    let kb := legClass s b.2
    let ta := (ctx s a.2).w.waitFrom
    let tb := (ctx s b.2).w.waitFrom
    if ka ≠ kb then decide (ka < kb) else if ta ≠ tb then decide (ta < tb) else decide (a.2 < b.2)

def insertSorted {α : Type} (lt : α → α → Bool) (x : α) : List α → List α
  | [] => [x]
  | y :: t => if lt x y then x :: y :: t else y :: insertSorted lt x t

/-- Page-in candidates in the order of R219. -/
def candidates (s : State) : List Nat :=
  let l := (touched s).filterMap (fun c => (pageGroup s c).map (fun g => (g, c)))
  (l.foldl (fun acc x => insertSorted (pageBefore s) x acc) []).map (·.2)

def slotUse (s : State) (n : Nat) : SlotUse := tget .free s.slots n

/-- The rank of a slot's occupant v as a victim for candidate c (R220); none when it is never one. -/
def victimRank (s : State) (c v : Nat) : Option Nat :=
  let x := ctx s v
  if legPin s v || decide (x.r.state = .draining) || inSwap s v || !x.w.progressed then none
  else
    match x.r.state with
    | .fault | .paused | .halted => some 2
    | .parked | .held | .wait => some 3
    | .active =>
      if legPin s c || decide (legClass s c < legClass s v) then some 4
      else if decide (legClass s c = legClass s v) && decide (x.w.pagedAt + 1024 ≤ s.eclk) then some 5 else none
    | _ => none

/-- Whether slot a's occupant goes before slot b's, both given as (rank, channel). -/
def victimBefore (s : State) (a b : Nat × Nat) : Bool :=
  if a.1 ≠ b.1 then decide (a.1 < b.1)
  else
    let ka := legClass s a.2
    let kb := legClass s b.2
    let ta := (ctx s a.2).w.usedAt
    let tb := (ctx s b.2).w.usedAt
    if ka ≠ kb then decide (kb < ka) else if ta ≠ tb then decide (ta < tb) else decide (b.2 < a.2)

def usableSlots (s : State) : List Nat := (List.range 64).filter (fun n => s.glob.readySlot.getLsbD n)

/-- The slot for a candidate, and the channel it displaces (R220). -/
def victimFor (s : State) (c : Nat) : Option (Nat × Option Nat) :=
  match (usableSlots s).find? (fun n => decide (slotUse s n = .free)) with
  | some n => some (n, none)
  | none =>
    let l := (usableSlots s).filterMap (fun n =>
      match slotUse s n with
      | .used v => (victimRank s c v).map (fun r => (r, v))
      | _ => none)
    (l.foldl (fun acc x => insertSorted (victimBefore s) x acc) []).head?.bind (fun e =>
      (ctx s e.2).r.slot.map (fun n => (n, some e.2)))

/-- A released slot whose context is still to be written back, the lowest first (R218; log entry 18). -/
def writeBack (s : State) : Option (Nat × Nat) :=
  (usableSlots s).findSome? (fun n => match slotUse s n with | .releasing c => some (n, c) | _ => none)

/-- The ECLK in which a transfer chosen now ends: one for the choice unless it overlapped the last transfer, and
eight for the transfer (R221). -/
def transferEnd (s : State) : Nat := if decide (s.glob.pagerEnd = some s.eclk) then s.eclk + 8 else s.eclk + 9

/-- PAGE_SWAP: the next choice, or the start of a transfer that waited for its victim's burst return (R14, R221). -/
def pageSwap (s : State) : State :=
  match s.swap with
  | some w =>
    if w.doneAt.isNone && (match w.outCh with | some v => (laneOf s v).isNone | none => true) then
      { s with swap := some { w with doneAt := some (s.eclk + 8) } }
    else s
  | none =>
    match writeBack s with
    | some (n, c) => { s with swap := some ⟨n, none, some c, some (transferEnd s)⟩ }
    | none =>
      match (candidates s).findSome? (fun c => (victimFor s c).map (fun v => (c, v))) with
      | some (c, n, v) =>
        let wait := match v with | some u => (laneOf s u).isSome | none => false
        { s with swap := some ⟨n, some c, v, if wait then none else some (transferEnd s)⟩ }
      | none => s
def execPageSwap (s : State) : Host.Outcome State Fault Refusal := .next (if running s && s.glob.readyCtx then pageSwap s else s)

/-- A context comes into slot n. -/
def pagedIn (c n : Nat) (s : State) : State :=
  let s := { s with slots := tset .free s.slots n (.used c) }
  let s := modR c (fun r => { r with slot := some n }) s
  modW c (fun w => { w with pagedAt := s.eclk, usedAt := s.eclk, progressed := false, urgent := false }) s

/-- A channel that has been paged in goes on where it stands (R43, R54, R66), unless it is faulting (R322). -/
def afterPageIn (c : Nat) (s : State) : State :=
  if (ctx s c).w.faulting.isSome then s
  else
  match (ctx s c).r.state with
  | .active => continueCh c s
  | .parked => if decide ((ctx s c).w.phase = .endRead) then endAgain c s else afterPark c s
  | .off => if legPin s c then s else releaseSlot c s
  | _ => s

/-- Its context has left its slot, and is written to the store: an ACTIVE channel waits for page-in from now (R219), and one
that is to read its END ranks for it (R66). -/
def pagedOut (c : Nat) (s : State) : State :=
  let reads := decide ((ctx s c).r.state = .parked) && decide ((ctx s c).w.phase = .endRead) && !s.fetches.any (fun f => endReadOf c f && f.issued)
  let s := modW c (fun w => { w with waitFrom := s.eclk, urgent := reads }) (modR c (fun r => { r with slot := none }) (dropEndRead c s))
  (List.range 32).foldl (fun s k => cleanWord (0, storeKey 0 (32 * c + k)) s) s

/-- The context word k of a channel in OFF is set to zero (R340); the word's fields stand in R41. -/
def zeroWord (k : Nat) (r : CtxRegs) : CtxRegs :=
  match k with
  | 0 => { r with resume := .off, pauseRet := .off }
  | 1 => { r with pc := 0, start := 0 }
  | 2 => { r with divTarget := 0, divPend := false, ret := 0, retValid := false }
  | 3 => { r with lc := 0, wait := .none, flags := {}, aborted := false, rearm := false, wake := false, fcode := 0 }
  | 4 => { r with desc := .none, deadline := none }
  | 5 => { r with pend := 0 }
  | 6 => { r with pat1 := 0 }
  | 7 => { r with pat2 := 0 }
  | 8 => { r with pat3 := 0 }
  | 9 => { r with sc1 := 0 }
  | 10 => { r with sc2 := 0 }
  | 11 => { r with sc3 := 0 }
  | 12 | 13 | 14 | 15 | 16 | 17 | 18 | 19 => setV (k - 12) 0 r
  | 20 => { r with leg := { r.leg with w0 := 0 } }
  | 21 => { r with leg := { r.leg with w1 := 0 } }
  | 22 => { r with leg := { r.leg with w2 := 0 } }
  | 23 => { r with leg := { r.leg with w3 := 0 } }
  | 24 => { r with i0 := 0, i1 := 0, i2 := 0 }
  | 25 => { r with ecount := 0 }
  | 26 => { r with bytes := 0 }
  | 27 => { r with energy16 := r.energy16 % 16 }
  | 28 => { r with rearmCnt := 0 }
  | _ => r

/-- An uncorrectable word of the context store (R340). -/
def loseContext (k : Nat) (s : State) : State :=
  let c := k / 32
  if decide ((ctx s c).r.state = .off) then
    let s := if k % 32 = 0 then { s with legends := tset legendReset s.legends c 0 } else s
    modR c (zeroWord (k % 32)) s
  else faultPc c 0x30 s

/-- The table-window offset of word k of the context store (R41, R437). -/
def ctxOffset (k : Nat) : W64 := wordOffset 0 (storeKey 0 k)

/-- What a read of word k of the context store for its channel found (R340): a corrected word is used; an uncorrected one
faults the channel, or is set to zero where the channel is OFF. -/
def contextFound (k : Nat) (found : Found) (s : State) : State :=
  match found with
  | .clean => s
  | .corrected => corrected 0 0 (ctxOffset k) s
  | .uncorrected => loseContext k (uncorrected 0 0 (ctxOffset k) s)

/-- An error that a store's word holds. -/
def heldError (s : State) (w : Nat × Nat) : Found :=
  if s.atlas.bad.contains w then .uncorrected else if s.atlas.soft.contains w then .corrected else .clean

/-- The page-in reads the 32 words of context c: `found` says what it finds in word k, besides the errors that the words hold
(log entry 46). -/
def contextRead (c k : Nat) (found : Found) (s : State) : State :=
  (List.range 32).foldl (fun s j =>
    let w := (0, storeKey 0 (32 * c + j))
    let f := if j = k ∧ found ≠ .clean then found else heldError s w
    contextFound (32 * c + j) f (cleanWord w s)) s

/-- PAGE_TRANSFER_DONE (R57, R221): the words of the context that comes in are read (R340), and the control writes that waited
act before its channel goes on (R222). -/
def transferDone (found : Found) (word : Nat) (s : State) : State :=
  match s.swap with
  | none => s
  | some w =>
    match w.doneAt with
    | none => s
    | some t =>
      if s.eclk < t then s
      else
        let s := { s with swap := none, glob := { s.glob with swaps := s.glob.swaps + 1, pagerEnd := some s.eclk } }
        let wb := match slotUse s w.slot with | .releasing _ => true | _ => false
        let s := match w.outCh with
          | some v => if wb then s else pagedOut v s
          | none => s
        let s := match w.inCh with
          | some c => pagedIn c w.slot (contextRead c word found s)
          | none => { s with slots := tset .free s.slots w.slot .free }
        let moved := fun (e : Nat × CtlWrite) => w.inCh == some e.1 || w.outCh == some e.1
        let s := (s.ctl.filter moved).foldl (fun s e => applyCtl e.1 e.2 s) { s with ctl := s.ctl.filter (fun e => !moved e) }
        match w.inCh with
        | some c => afterPageIn c s
        | none => s
def execPageTransferDone (found : Found) (word : Fin 32) (s : State) : Host.Outcome State Fault Refusal :=
  .next (if running s then transferDone found word s else s)

end Sys2Proof.Machine
end

