-- ==== Sys2Proof/Machine/Inputs.lean ====
section
/-! DEFINITION. Request inputs (R178 to R195), event outputs (R196 to R200) and the tag high-water marks (R217). -/

namespace Sys2Proof.Machine

/-! ### Pins (R179 to R181, R184 to R187) -/

/-- One QCLK edge: the pin is sampled, the two-stage synchroniser that follows the sampling shifts, and the run of equal
synchronised samples goes on or begins anew (R179, R180, R182). -/
def sampleEdge (i : Inp) (b : Bool) : Inp :=
  { i with pin := b, sync1 := i.pin, sync2 := i.sync1, runN := if i.sync1 == i.sync2 then min 16 (i.runN + 1) else 1, edges := i.edges + 1 }

/-- The level that the filter of length n moves its output to, where it does. -/
def filterMoves (n : Nat) (i : Inp) : Option Bool := if n + 1 ≤ i.runN && i.sync2 != i.level then some i.sync2 else none

/-- An edge with a qualified input's filter output following. -/
def filterEdge (n : Nat) (i : Inp) (b : Bool) : Inp :=
  let i := sampleEdge i b
  match filterMoves n i with
  | some l => { i with level := l }
  | none => i

/-- Edges until edge q of the present ECLK that the input has not sampled; a pin whose levels are not given holds its last
(log entry 48). -/
def edgesDue (s : State) (q : Nat) (i : Inp) : Nat := 2 * s.eclk + q + 1 - i.edges
def pinLevels (s : State) (q : Nat) (pins : List Bool) (i : Inp) : List Bool :=
  let due := edgesDue s q i
  List.replicate (due - pins.length) i.pin ++ pins.drop (pins.length - due)

/-- The input has sampled its pin; the output is left to whoever asks. -/
def sampled (s : State) (q : Nat) (pins : List Bool) (i : Inp) : Inp := (pinLevels s q pins i).foldl sampleEdge i

/-- The filter output changes at the last of the edges, and at none before: the input after it. -/
def changeAt (s : State) (n q : Nat) (pins : List Bool) : Option Inp :=
  let i := inp s n
  let l := pinLevels s q pins i
  let i1 := l.dropLast.foldl (filterEdge (filterLen s n)) i
  let i2 := l.foldl (filterEdge (filterLen s n)) i
  if !quiet s && qok s n && i1.level == i.level && i2.level != i.level then some i2 else none

/-- A row that tells a pin's levels, where the output does not change: the input has sampled them (log entry 48). -/
def watchPin (n q : Nat) (pins : List Bool) (s : State) : State :=
  if quiet s then s else setInp n (sampled s q pins (inp s n)) s

/-- A change of the filter output to `level` makes a request (R181). -/
def makesRequest (i : Inp) (level : Bool) : Bool :=
  match i.mode.toNat with
  | 1 => level
  | 2 => !level
  | 3 => true
  | 4 => level
  | 5 => !level
  | _ => false

/-- PIN_REQUEST (R181): a change of the filter output makes a request; in the level modes it stands while the level does. -/
def pinRequest (n q : Nat) (pins : List Bool) (s : State) : State :=
  match changeAt s n q pins with
  | some i => if makesRequest i i.level then (if levelMode i then setInp n i s else request n false (setInp n i s)) else s
  | none => watchPin n q pins s
def execPinRequest (n : Fin 512) (x : Pins) (s : State) : Host.Outcome State Fault Refusal := .next (pinRequest n x.q x.pins s)

/-- FILTER_OUTPUT_CHANGE (R180): it changes without one. -/
def filterChange (n q : Nat) (pins : List Bool) (s : State) : State :=
  match changeAt s n q pins with
  | some i => if makesRequest i i.level then s else setInp n i s
  | none => watchPin n q pins s
def execFilterOutputChange (n : Fin 512) (x : Pins) (s : State) : Host.Outcome State Fault Refusal :=
  .next (filterChange n x.q x.pins s)

/-- QOK may have changed from `was`: as it rises, the filter output is loaded with the synchronised sample and no request is
made; as it falls, the output is held, and the loss is recorded (R186, R187). -/
def requalify (n : Nat) (was : Bool) (s : State) : State :=
  let i := inp s n
  if qok s n && !was then setInp n { i with level := i.sync2 } s
  else if was && !qok s n then
    let s := setInp n { i with level := (inactiveLevel i.mode).getD i.level } s
    if i.qrec then offerNow .ctl i.book 0x59 2 n 0 0 0 s else s
  else s

/-- QUALIFICATION_GAINED (R185, R186): the comparator reports its output valid. -/
def qualGained (n q : Nat) (pins : List Bool) (s : State) : State :=
  if quiet s || qok s n then s
  else requalify n false (setInp n { sampled s q pins (inp s n) with valid := true } s)
def execQualificationGained (n : Fin 512) (x : Pins) (s : State) : Host.Outcome State Fault Refusal :=
  .next (qualGained n x.q x.pins s)

/-- QUALIFICATION_LOST (R185 to R187): it no longer does. -/
def qualLost (n : Nat) (s : State) : State :=
  if quiet s || !(wiring s n).qual then s else requalify n (qok s n) (setInp n { inp s n with valid := false } s)
def execQualificationLost (n : Fin 512) (s : State) : Host.Outcome State Fault Refusal := .next (qualLost n s)

/-- The power of domain d has changed from what it was in s0: the inputs wired to it may have changed their QOK (R185). -/
def requalifyAll (s0 : State) (d : Nat) (s : State) : State :=
  let mine := (s.straps.inputs.filter (fun e => e.2.domv && e.2.dom == d)).map (·.1)
  mine.foldl (fun s n => requalify n (qok s0 n) (setInp n (sampled s 1 [] (inp s n)) s)) s

/-- LEVEL_REARM (R192). -/
def levelRearm (c : Nat) (s : State) : State :=
  match (ctx s c).w.rearmAt with
  | some t => if t ≤ s.eclk then modW c (fun w => { w with armed := true, rearmAt := none }) s else s
  | none => s
def execLevelRearm (c : Fin 1024) (s : State) : Host.Outcome State Fault Refusal := .next (levelRearm c s)

/-! ### STE_REQIN (R184, R195, R408) -/

/-- An input as a change of its filter or mode leaves it: the output takes the current synchronised sample, or stays held
(R184). -/
def reload (ok : Bool) (i : Inp) : Inp :=
  if ok then { i with level := i.sync2 } else { i with level := (inactiveLevel i.mode).getD i.level }

/-- The RW fields of the low word. -/
def reqinRw (lock : Bool) (v : W32) (i : Inp) : Inp :=
  let mode := BitVec.ofNat 3 (fld v 6 4)
  let i := { i with book := fld v 10 8, ovrec := bit v 13, qrec := bit v 14 }
  if lock then i
  else { i with filt := BitVec.ofNat 4 (fld v 3 0), mode := if 6 ≤ mode.toNat then i.mode else mode, depth := BitVec.ofNat 16 (fld v 31 16) }

/-- SWREQ raises a request in the ECLK after the write (R178). -/
def swreq (n : Nat) (s : State) : State := if s.glob.swdis then s else request n true s
/-- CLRCNT; an overrun of the same ECLK is counted at its end, after the clear. -/
def clearOvr (n : Nat) (s : State) : State := setInp n { inp s n with ovrcnt := 0 } s

/-- One write of STE_REQIN's low word: the RW fields, then the actions (R446). -/
def writeReqin (n : Nat) (v : W32) (q : Nat) (pins : List Bool) (s : State) : State :=
  let old := inp s n
  let i := reqinRw s.glob.hardLock v old
  let i := if i.mode != old.mode || i.filt != old.filt then reload (qok s n) (sampled s q pins i) else i
  let s := setInp n i s
  let s := if bit v 12 then clearOvr n s else s
  if bit v 11 then swreq n s else s

def reqinOff (n : Nat) : Nat := 0x1000 + 8 * n

/-- SWREQ (R178). -/
def execSwreq (by_ : Initiator) (n : Fin 512) (s : State) : Host.Outcome State Fault Refusal :=
  .next (regWrite by_ (reqinOff n) (.swreq by_ n) (swreq n) s)
/-- REQIN_CLRCNT (R195). -/
def execReqinClrcnt (by_ : Initiator) (n : Fin 512) (s : State) : Host.Outcome State Fault Refusal :=
  .next (regWrite by_ (reqinOff n) (.reqinClrcnt by_ n) (clearOvr n) s)
/-- REQIN_CONFIG_WRITE (R184). -/
def execReqinConfigWrite (by_ : Initiator) (n : Fin 512) (v : W32) (x : Pins) (s : State) : Host.Outcome State Fault Refusal :=
  .next (regWrite by_ (reqinOff n) (.reqinConfigWrite by_ n v x) (writeReqin n v x.q x.pins) s)

/-! ### Event outputs (R197 to R200) -/

/-- The output as a write of its RW fields leaves it: a change of POL or MODE ends a pulse, and a change of MODE
leaves the output inactive (R200; log entry 25). -/
def evoRw (fresh : Bool) (v : W32) (e : Evo) : Evo :=
  let mode := if fld v 5 4 = 3 then e.mode else BitVec.ofNat 2 (fld v 5 4)
  let changed := mode != e.mode || bit v 6 != e.pol
  let act := if mode != e.mode then false else if changed && e.mode == 0 then false else e.active
  { e with width := BitVec.ofNat 4 (fld v 3 0), mode := mode, pol := bit v 6, active := act,
           endAt := if changed then none else e.endAt, merged := w1c fresh (bit v 9) e.merged }

def writeEvo (m : Nat) (v : W32) (s : State) : State :=
  let s := setEvo m (evoRw (setNow s (w1cKey (0x2000 + 4 * m) 9)) v (evo s m)) s
  if bit v 7 then fireEvo m s else s

def evoOff (m : Nat) : Nat := 0x2000 + 4 * m

/-- SWPULSE (R197). -/
def execSwpulse (by_ : Initiator) (m : Fin 128) (s : State) : Host.Outcome State Fault Refusal :=
  .next (regWrite by_ (evoOff m) (.swpulse by_ m) (fireEvo m) s)
/-- EVO_CONFIG_WRITE (R200). -/
def execEvoConfigWrite (by_ : Initiator) (m : Fin 128) (v : W32) (s : State) : Host.Outcome State Fault Refusal :=
  .next (regWrite by_ (evoOff m) (.evoConfigWrite by_ m v) (writeEvo m v) s)

/-- PULSE_END (R198): the pulse's last ECLK ends.  An event of that same ECLK still finds it (R199). -/
def pulseEnd (m : Nat) (s : State) : State :=
  let e := evo s m
  match e.endAt with
  | some t => if t ≤ s.eclk && e.mode == 0 then setEvo m { e with active := false } s else s
  | none => s
def execPulseEnd (m : Fin 128) (s : State) : Host.Outcome State Fault Refusal := .next (pulseEnd m s)

/-! ### STE_TAG_USE (R217) -/

def clearTagHw (s : State) : State := { s with glob := { s.glob with lochw := locUse s, fabhw := fabUse s } }
/-- TAG_CLRHW (R217). -/
def execTagClrhw (by_ : Initiator) (s : State) : Host.Outcome State Fault Refusal :=
  .next (regWrite by_ 0x48 (.tagClrhw by_) clearTagHw s)

end Sys2Proof.Machine
end

