-- ==== Sys2Proof/Machine/Meridian.lean ====
section
/-! DEFINITION. Meridian (R231 to R242) and the Graticule (R243 to R256). -/

namespace Sys2Proof.Machine

/-! ### Meridian -/

def merRec (type_ detail : Nat) (w2 : Int) (s : State) : State :=
  if s.mer.recEn then offerNow .data s.mer.book type_ 9 0 detail (BitVec.ofInt 64 w2) 0 s else s

/-- The fraction software sees (R231). -/
def merFrac (s : State) : BitVec 24 := BitVec.ofNat 24 (s.mer.now / 2 ^ 8)
/-- A value of 2^-32 ns in units of 2^-24 ns. -/
def to24 (x : Int) : Int := x / 256

/-- The snapshot of a 64-bit register's high word (R5, R443). -/
def snapshot (by_ : Initiator) (off : Nat) (w : W64) (s : State) : State :=
  { s with port := { s.port with snaps := tset none s.port.snaps (keySnap by_ off) (some (BitVec.ofNat 32 (fld w 63 32))) } }

/-- A read of STE_MER_NOW captures the fraction (R235); the 32-bit read of its low word takes the snapshot too.  A 64-bit
read leaves the initiator's standing snapshot as it is (DESIGN CHOICE, log entry 45). -/
def nowRead (by_ : Initiator) (wide : Bool) (s : State) : State :=
  let w := merWord s
  let s := { s with mer := { s.mer with frac := merFrac s } }
  if wide then setResp by_ w false s
  else setResp by_ (BitVec.ofNat 64 (fld w 31 0)) false (snapshot by_ 0x3010 w s)
/-- MER_NOW_READ (R235). -/
def execMerNowRead (by_ : Initiator) (wide : Bool) (s : State) : Host.Outcome State Fault Refusal :=
  .next (hostAccess by_ false false 0x3010 (.merNowRead by_ wide) (nowRead by_ wide) s)

/-- A write that Meridian ignores (R236, R239). -/
def rejected (s : State) : State := markSet (w1cKey 0x3008 5) { s with mer := { s.mer with rej := true } }

/-- A write of STE_MER_SET (R236, R239): the value is compared, and applied, at the next ECLK. -/
def setMer (v : W64) (s : State) : State :=
  if s.mer.src == 1 then rejected s else { s with mer := { s.mer with setPend := some v } }
/-- MER_SET (R239). -/
def execMerSet (by_ : Initiator) (v : W64) (s : State) : Host.Outcome State Fault Refusal :=
  .next (regWrite by_ 0x3020 (.merSet by_ v) (setMer v) s)

/-- SYNC sets once the source has declared lock and |REMAIN| is below 1,000 ns (R240). -/
def trySync (s : State) : State :=
  if !s.mer.sync && s.mer.lock && decide (s.mer.remain.natAbs < 1000 * 2 ^ 32) then
    let s := merRec 0x5C s.mer.src.toNat (to24 s.mer.remain) s
    { s with mer := { s.mer with sync := true } }
  else s

/-- A step of d has been applied to the count (R238). -/
def stepped (d : Int) (s : State) : State :=
  let s := markSet (w1cKey 0x3008 3) { s with mer := { s.mer with stepped := true, stepcnt := s.mer.stepcnt + 1 } }
  merRec 0x5A s.mer.stepcnt.toNat d s

/-- RATE with its clamp (R257). -/
def clampRate (v : W32) : W32 :=
  let x := v.toInt
  if 1099511628 < x then BitVec.ofNat 32 1099511628 else if x < -1099511628 then BitVec.ofInt 32 (-1099511628) else v

/-- SRC has changed in this ECLK: a correction that arrives in it is discarded (R241). -/
def corrLost (s : State) : Bool := decide (s.mer.srcAt = some s.eclk)

/-- Meridian before the first correction of an ECLK is kept, in case SRC changes in it. -/
def keepMer (s : State) : State :=
  match s.merWas with
  | some (t, _, _) => if t = s.eclk then s else { s with merWas := some (s.eclk, s.mer, s.heldRecs) }
  | none => { s with merWas := some (s.eclk, s.mer, s.heldRecs) }

/-- The corrections of this ECLK, and their records, are discarded; what software has written stays. -/
def dropCorr (s : State) : State :=
  match s.merWas with
  | some (t, m, hs) =>
    if t = s.eclk then
      let mine := fun (h : HeldRec) => h.recd.kind == 9 && decide (h.at_ = s.eclk) && !hs.contains h
      { s with mer := { m with book := s.mer.book, recEn := s.mer.recEn, slew := s.mer.slew, hold := s.mer.hold, frac := s.mer.frac,
                               setPend := s.mer.setPend, rej := s.mer.rej }
               heldRecs := s.heldRecs.filter (fun h => !mine h), merWas := none }
    else s
  | none => s

/-- A correction of ofs, in 2^-24 ns (R237, R240, R241). -/
def correct (ofs : Int) (rate : Option W32) (s : State) : State :=
  if corrLost s then s
  else
    let s := keepMer s
    let o := ofs * 256
    let s := match rate with
      | some r => { s with mer := { s.mer with rate := clampRate r } }
      | none => s
    let s := { s with mer := { s.mer with lastofs := BitVec.ofInt 64 ofs, holdover := false } }
    let s :=
      if (1000 * 2 ^ 32 : Int) ≤ o then
        stepped ofs { s with mer := { s.mer with now := ((s.mer.now : Int) - s.mer.slewed + o).toNat, slewed := 0, remain := 0 } }
      else if o ≤ (-1000 * 2 ^ 32 : Int) then
        let s := if s.mer.backoff then s else merRec 0x5B 0 ofs s
        markSet (w1cKey 0x3008 4) { s with mer := { s.mer with remain := o, backoff := true } }
      else { s with mer := { s.mer with remain := o } }
    { s with mer := { s.mer with corrAt := mclk s, corrNs := merInt s } }

/-- A write of STE_MER_ADJ (R236, R237, R240). -/
def adjMer (v : W64) (s : State) : State :=
  if s.mer.src == 2 then
    let s := correct (signed 63 v.toNat) none s
    if corrLost s then s else trySync (if bit v 63 then { s with mer := { s.mer with lock := true } } else s)
  else rejected s
/-- MER_ADJ (R237). -/
def execMerAdj (by_ : Initiator) (v : W64) (s : State) : Host.Outcome State Fault Refusal :=
  .next (regWrite by_ 0x3028 (.merAdj by_ v) (adjMer v) s)

/-- SYNC changes from 1 to 0 (R240, R242): the declaration of lock ends with it. -/
def loseSync (reason : Nat) (s : State) : State :=
  let s := if s.mer.sync then merRec 0x5D reason ((merInt s : Int) - (s.mer.corrNs : Int)) s else s
  { s with mer := { s.mer with sync := false, holdover := false, lock := if s.mer.sync then false else s.mer.lock } }

/-- SRC is written (R236, R241). -/
def writeSrc (src : BitVec 2) (s : State) : State :=
  if src == 3 || src == s.mer.src then s
  else
    let s := loseSync 2 (dropCorr s)
    { s with mer := { s.mer with src := src, remain := 0, lock := false, srcAt := some s.eclk } }
/-- MER_SRC_CHANGE (R241): STE_MER_CTRL written with a new SRC and every other field as it reads. -/
def execMerSrcChange (by_ : Initiator) (src : BitVec 2) (s : State) : Host.Outcome State Fault Refusal :=
  .next (regWrite by_ 0x3000 (.merSrcChange by_ src) (writeSrc src) s)

/-- HOLD in MCLK periods (R240). -/
def holdLimit (s : State) : Nat := s.mer.hold * 200000

def startHoldover (s : State) : State := { s with mer := { s.mer with holdover := true, holdAt := mclk s } }

/-- HOLDOVER_START (R240): the path to the reference is lost, or HOLD passes without a correction while SYNC = 1. -/
def holdoverStart (pathLost : Bool) (s : State) : State :=
  if running s && !s.mer.holdover && s.mer.src != 0 &&
      ((pathLost && s.mer.src == 1) || (s.mer.sync && decide (s.mer.corrAt + holdLimit s ≤ mclk s))) then startHoldover s
  else s
def execHoldoverStart (pathLost : Bool) (s : State) : Host.Outcome State Fault Refusal := .next (holdoverStart pathLost s)

/-- HOLDOVER_EXPIRY (R240). -/
def holdoverExpiry (s : State) : State :=
  if running s && s.mer.holdover && decide (s.mer.holdAt + holdLimit s ≤ mclk s) then loseSync 1 s else s
def execHoldoverExpiry (s : State) : Host.Outcome State Fault Refusal := .next (holdoverExpiry s)

/-- SYNCHRONISED (R240). -/
def execSynchronised (s : State) : Host.Outcome State Fault Refusal := .next (if running s then trySync s else s)

/-! ### The time parent (R370, R371) -/

def parentPort (s : State) : Option Nat := routePort s s.sync.tref.toNat

/-- The path to the reference is lost: lock ends, and holdover begins in fabric mode (R240, R371). -/
def pathLost (s : State) : State :=
  let s := { s with sync := { s.sync with lock := false, good := 0 } }
  if s.mer.src == 1 then
    let s := { s with mer := { s.mer with lock := false } }
    if s.mer.holdover then s else startHoldover s
  else s

/-- The exchange reports a lost path once no parent port is usable (R371). -/
def checkParent (s : State) : State := if s.sync.en && (parentPort s).isNone then pathLost s else s

/-! ### The Graticule -/

def entry (s : State) (i : Nat) : Option GEntry := tfind? s.grat.entries i
/-- The four codewords of entry i are written. -/
def cleanEntry (i : Nat) (s : State) : State := ([0, 1, 2, 3] : List Nat).foldl (fun s j => cleanWord (2, storeKey 2 (4 * i + j)) s) s
def setEntry (i : Nat) (e : GEntry) (s : State) : State := cleanEntry i { s with grat := { s.grat with entries := tput s.grat.entries i e } }
def freeEntry (i : Nat) (s : State) : State := cleanEntry i { s with grat := { s.grat with entries := tdel s.grat.entries i } }

/-- The order of R243: due time, then index. -/
def entryBefore (a b : Nat × GEntry) : Bool := decide (a.2.t < b.2.t) || (decide (a.2.t = b.2.t) && decide (a.1 < b.1))
def inOrder (l : List (Nat × GEntry)) : List (Nat × GEntry) := l.foldl (fun acc x => insertSorted entryBefore x acc) []

/-- The due ECLK has come (R248). -/
def isDue (s : State) (e : GEntry) : Bool := decide (e.t * 256 ≤ s.mer.now)
/-- The due ECLK was an earlier one, or a step passed the due time. -/
def isLate (s : State) (e : GEntry) : Bool := decide (e.t * 256 + s.mer.inc ≤ s.mer.now)

/-- STE_GRAT_NEXT (R257). -/
def gratNext (s : State) : W64 :=
  match inOrder s.grat.entries with
  | (_, e) :: _ => BitVec.ofNat 64 (e.t / 2 ^ 24)
  | [] => BitVec.ofNat 64 (2 ^ 64 - 1)

/-- R245: the staged words are refused. -/
def gratRefused (g : GCmd) : Bool :=
  let act := fld g.w2 35 34
  let rep := bit g.w2 36
  decide (2 ≤ act) || (act == 0 && fld g.w3 4 0 != 0) || (act == 1 && fld g.w3 31 0 != 0) ||
  (!rep && (fld g.w1 63 24 != 0 || fld g.w2 23 0 != 0 || fld g.w2 63 48 != 0)) ||
  (rep && decide (fld g.w1 63 24 < 1000)) || fld g.w2 39 37 != 0 || fld g.w3 63 48 != 0

/-- The entry that the captured words spell (R244). -/
def gratEntry (g : GCmd) : GEntry :=
  { t := g.w0.toNat * 2 ^ 24 + fld g.w1 23 0, period := fld g.w1 63 24 * 2 ^ 24 + fld g.w2 23 0, ch := fld g.w2 33 24,
    wake := fld g.w2 35 34 == 1, rep := bit g.w2 36, late := false, lead := fld g.w2 47 40, remain := fld g.w2 63 48,
    leg := BitVec.ofNat 32 (fld g.w3 31 0), tag := BitVec.ofNat 16 (fld g.w3 47 32), leadDone := false }

/-- A write of STE_GRAT_CMD (R246, R448): the staged words are captured at the acceptance. -/
def gratCmd (op : BitVec 2) (index : Nat) (s : State) : State :=
  if op == 0 then s
  else if s.grat.cmd.isSome then markSet (w1cKey 0x3088 13) { s with grat := { s.grat with cmdLost := true } }
  else
    let g := s.grat
    { s with grat := { g with cmd := some ⟨op, index, g.stage0, g.stage1, g.stage2, g.stage3⟩ } }
/-- INSERT (R246). -/
def execInsert (by_ : Initiator) (s : State) : Host.Outcome State Fault Refusal :=
  .next (regWrite by_ 0x30B0 (.insert by_) (gratCmd 1 0) s)
/-- DELETE (R246). -/
def execDelete (by_ : Initiator) (index : Fin 4096) (s : State) : Host.Outcome State Fault Refusal :=
  .next (regWrite by_ 0x30B0 (.delete by_ index) (gratCmd 2 index) s)
/-- REPLACE (R246). -/
def execReplace (by_ : Initiator) (index : Fin 4096) (s : State) : Host.Outcome State Fault Refusal :=
  .next (regWrite by_ 0x30B0 (.replace by_ index) (gratCmd 3 index) s)

def lowestIdle : Nat → Nat → Tbl GEntry → Option Nat
  | 0, _, _ => none
  | n + 1, i, t => if (tfind? t i).isNone then some i else lowestIdle n (i + 1) t

def gratEnd (code : BitVec 3) (index : Option Nat) (s : State) : State :=
  { s with grat := { s.grat with cmd := none, code := code, index := index.getD s.grat.index } }

/-- GRAT_COMMAND_COMPLETE (R246, R247). -/
def gratComplete (s : State) : State :=
  match s.grat.cmd with
  | none => s
  | some g =>
    if !s.glob.readyGrat then s
    else if g.op == 1 then
      if gratRefused g then gratEnd 3 none s
      else
        match lowestIdle 4096 0 s.grat.entries with
        | none => gratEnd 1 none s
        | some i => setEntry i (gratEntry g) (gratEnd 0 (some i) s)
    else if (entry s g.index).isNone then gratEnd 2 none s
    else if g.op == 2 then freeEntry g.index (gratEnd 0 none s)
    else if gratRefused g then gratEnd 3 none s
    else setEntry g.index (gratEntry g) (gratEnd 0 (some g.index) s)
def execGratCommandComplete (s : State) : Host.Outcome State Fault Refusal := .next (if running s then gratComplete s else s)

/-- How many periods a repeating entry's due time takes to exceed the present value (R252). -/
def periodsOn (s : State) (e : GEntry) : Nat := (s.mer.now - e.t * 256) / (e.period * 256) + 1

/-- Entry i fires (R248, R249, R252, R254). -/
def fireEntry (i : Nat) (e : GEntry) (s : State) : State :=
  let late := isLate s e
  let n := if e.rep then periodsOn s e else 1
  let f : Fire := { skipped := n - 1, leg := e.leg, index := i, tag := e.tag, time := merWord s, due := BitVec.ofNat 64 (e.t / 2 ^ 24) }
  let s := { s with grat := { s.grat with acts := s.grat.acts ++ [⟨e.ch, e.wake, f, s.eclk⟩] } }
  let s := if !e.rep || e.remain == 1 then freeEntry i s
    else setEntry i { e with t := e.t + n * e.period, late := late, remain := e.remain - 1, leadDone := false } s
  if late then
    let s := markCount (w1cKey 0x3088 16) { s with grat := { s.grat with lateCnt := sat16 s.grat.lateCnt } }
    if s.grat.lateRec then offer .ctl none (fireRec s 0x18 e.ch 0 (bool e.wake) f) s else s
  else s

def gratOffset (i : Nat) : W64 := wordOffset 2 (storeKey 2 (4 * i))

/-- The entry read is uncorrectable: it is freed, and does not fire (R255, R340). -/
def loseEntry (i : Nat) (s : State) : State :=
  let s := freeEntry i s
  offerNow .ctl s.grat.book 0x1A 0x0A 0 i 0 0 s

/-- What a read of entry i finds of the errors that its codewords hold (log entry 46). -/
def entryError (s : State) (i : Nat) : Found :=
  let l := ([0, 1, 2, 3] : List Nat).map (fun j => heldError s (2, storeKey 2 (4 * i + j)))
  if l.contains .uncorrected then .uncorrected else if l.contains .corrected then .corrected else .clean

/-- Entry i is read; `act` goes on with it, unless it is lost (R255, R340). -/
def readEntry (i : Nat) (found : Found) (act : State → State) (s : State) : State :=
  match found with
  | .clean => act s
  | .corrected => act (corrected 2 0 (gratOffset i) (cleanEntry i s))
  | .uncorrected => loseEntry i (uncorrected 2 0 (gratOffset i) s)

/-- GRAT_FIRING (R248): up to four due entries, in order, once in an ECLK; `found` is what the read of the first of
them finds, besides the errors that entries hold (R255, R340). -/
def gratFire (found : Found) (s : State) : State :=
  if !s.grat.en || decide (s.grat.firedAt = some s.eclk) then s
  else
    match (inOrder (s.grat.entries.filter (fun e => isDue s e.2))).take 4 with
    | [] => s
    | (i, e) :: rest =>
      let s := { s with grat := { s.grat with firedAt := some s.eclk } }
      let s := readEntry i (if found = .clean then entryError s i else found) (fireEntry i e) s
      rest.foldl (fun s x => readEntry x.1 (entryError s x.1) (fireEntry x.1 x.2) s) s
def execGratFiring (found : Found) (s : State) : Host.Outcome State Fault Refusal := .next (if running s then gratFire found s else s)

/-- A fire reaches its channel, once its context does not move (R57). -/
def sendFire (c : Nat) (f : Fire) (s : State) : State :=
  if inTransfer s c then { s with ctl := s.ctl ++ [(c, .fire f)] } else fireAt c f s

/-- GRAT_ACTION_DELIVERY (R249): the actions of earlier ECLK reach their channels. -/
def deliverActs (s : State) : State :=
  let mine := s.grat.acts.filter (fun a => decide (a.at_ < s.eclk))
  let s := { s with grat := { s.grat with acts := s.grat.acts.filter (fun a => !decide (a.at_ < s.eclk)) } }
  mine.foldl (fun s a => if a.wake then sendWake a.ch s else sendFire a.ch a.fire s) s
def execGratActionDelivery (s : State) : Host.Outcome State Fault Refusal := .next (if running s then deliverActs s else s)

/-- A lead acts (R251): the leg's line is prefetched, and a channel without a slot ranks for page-in. -/
def leadActs (i : Nat) (e : GEntry) (s : State) : State :=
  let s := setEntry i { e with leadDone := true } s
  let s := if e.wake then s else prefetch e.ch e.leg s
  if resident s e.ch then s else modW e.ch (fun w => { w with urgent := true, waitFrom := s.eclk }) s

/-- GRAT_LEAD (R251). -/
def lead (i : Nat) (s : State) : State :=
  match entry s i with
  | none => s
  | some e =>
    if !s.grat.en || e.leadDone || e.lead == 0 || decide (s.mer.now + e.lead * 1000 * 2 ^ 32 < e.t * 256) then s
    else readEntry i (entryError s i) (leadActs i e) s
def execGratLead (index : Fin 4096) (s : State) : Host.Outcome State Fault Refusal := .next (if running s then lead index s else s)

/-- GRAT_ENABLE (R253): STE_GRAT_CTRL written with EN = 1 and every other field as it reads. -/
def gratOn (s : State) : State := { s with grat := { s.grat with en := true } }
def execGratEnable (by_ : Initiator) (s : State) : Host.Outcome State Fault Refusal :=
  .next (regWrite by_ 0x3080 (.gratEnable by_) gratOn s)

/-- GRAT_CLRCNT (R257). -/
def gratClear (s : State) : State :=
  { s with grat := { s.grat with lateCnt := BitVec.ofNat 16 (countNow s (w1cKey 0x3088 16)), missCnt := BitVec.ofNat 16 (countNow s (w1cKey 0x3088 32)) } }
def execGratClrcnt (by_ : Initiator) (s : State) : Host.Outcome State Fault Refusal :=
  .next (regWrite by_ 0x3088 (.gratClrcnt by_) gratClear s)

end Sys2Proof.Machine
end

