-- ==== Sys2Proof/Machine/Books.lean ====
section
/-! DEFINITION. The field books' commands (R272 to R280, R451). -/

namespace Sys2Proof.Machine

/-- RECORD_TAKE (R451): once in an ECLK. -/
def recordTake (s : State) : State :=
  if !quiet s && !decide (s.recClk.takenAt = some s.eclk) then takeRecord s else s
def execRecordTake (s : State) : Host.Outcome State Fault Refusal := .next (recordTake s)

/-- A record write of book b that is outstanding. -/
def recordAcc (s : State) (b : Nat) : Option Acc := s.outst.find? (fun a => recordOut b a.owner && !a.orphan)

/-- RECORD_WRITE_DONE (R276): the second write is accepted. -/
def recordWriteDone (b : Nat) (s : State) : State :=
  match recordAcc s b with
  | some a => if isSecond a.owner then recordDone b (freeTag a.tag s) else s
  | none => s
def execRecordWriteDone (b : Fin 8) (s : State) : Host.Outcome State Fault Refusal := .next (recordWriteDone b s)

/-- The write that is next has been denied. -/
def recordDenied (s : State) (b : Nat) : Bool :=
  match (book s b).under with
  | some u => u.denied && u.second
  | none => false

/-- RECORD_WRITE_FAILED (R279): a write ends in an error response, or its lookup has denied it. -/
def recordWriteFailed (b : Nat) (s : State) : State :=
  match recordAcc s b with
  | some a => recordFailed b (freeTag a.tag s)
  | none => if recordDenied s b then recordFailed b s else s
def execRecordWriteFailed (b : Fin 8) (s : State) : Host.Outcome State Fault Refusal := .next (recordWriteFailed b s)

def bookOff (b at_ : Nat) : Nat := 0x2400 + 0x40 * b + at_

/-- BOOK_ENABLE (R274): STE_BOOK_CTRL written with EN = 1 and every other field as it reads. -/
def execBookEnable (by_ : Initiator) (b : Fin 8) (s : State) : Host.Outcome State Fault Refusal :=
  .next (regWrite by_ (bookOff b 8) (.bookEnable by_ b) (enableBook b) s)
/-- BOOK_RIDX_WRITE (R451). -/
def execBookRidxWrite (by_ : Initiator) (b : Fin 8) (v : W32) (s : State) : Host.Outcome State Fault Refusal :=
  .next (regWrite by_ (bookOff b 0x18) (.bookRidxWrite by_ b v) (writeRidx b v) s)

/-- BOOK_TIMER_EXPIRY (R280). -/
def timerExpiry (b : Nat) (s : State) : State :=
  if running s && timerDue s b then setBook b { book s b with expired := true } s else s
def execBookTimerExpiry (b : Fin 8) (s : State) : Host.Outcome State Fault Refusal := .next (timerExpiry b s)

end Sys2Proof.Machine
end

