-- ==== Sys2Proof/Machine/Streams.lean ====
section
/-! DEFINITION. The stream queues' commands: the host ports (R297, R298), reset and unmark (R291, R299), the
movements (R282) and the spill pool's registers (R301). -/

namespace Sys2Proof.Machine

def qOff (q at_ : Nat) : Nat := 0x4000 + 64 * q + at_

/-- The host port's item is placed, or dropped where the tail has no room (R297). -/
def pushItem (q : Nat) (d : W64) (pend : Bool) (s : State) : State :=
  let x := queue s q
  if x.tail.length < 8 then place q (mkItem d pend false) s
  else
    let s := markSet (w1cKey (qStatus q) 59) (setQueue q { x with ovr := true } s)
    if x.ovr then s else qRec q 0x22 0 d s

/-- A write of STE_Q_PUSH or STE_Q_PUSHEND (R297); an item that the queue does not accept in this ECLK is offered again in
the next (R288). -/
def pushHost (q : Nat) (d : W64) (pend : Bool) (s : State) : State :=
  let x := queue s q
  if acceptsNow s x && x.hostIn.isEmpty then pushItem q d pend s
  else setQueue q { x with hostIn := x.hostIn ++ [(d, pend)] } s

/-- The host port offers its oldest item again, after the lanes (R288). -/
def hostStep (q : Nat) (s : State) : State :=
  let x := queue s q
  match x.hostIn with
  | (d, p) :: rest => if acceptsNow s x then pushItem q d p (setQueue q { x with hostIn := rest } s) else s
  | [] => s
/-- HOST_PUSH (R297). -/
def execHostPush (by_ : Initiator) (q : Fin 64) (d : W64) (s : State) : Host.Outcome State Fault Refusal :=
  .next (regWrite by_ (qOff q 0x20) (.hostPush by_ q d) (pushHost q d false) s)
/-- HOST_PUSHEND (R297). -/
def execHostPushend (by_ : Initiator) (q : Fin 64) (d : W64) (s : State) : Host.Outcome State Fault Refusal :=
  .next (regWrite by_ (qOff q 0x28) (.hostPushend by_ q d) (pushHost q d true) s)

/-- The data of a read: all of it, or its low word with a snapshot of the high one (R5). -/
def readResp (by_ : Initiator) (wide : Bool) (off : Nat) (w : W64) (s : State) : State :=
  if wide then setResp by_ w false s
  else setResp by_ (BitVec.ofNat 64 (fld w 31 0)) false (snapshot by_ off w s)

/-- A read of STE_Q_POP (R294, R298).  While an item is deliverable and the queue delivers none in this ECLK, because none
stands in the head or one has been taken, the port does not yet accept the read, and the access waits (R288; log entry 19). -/
def popHost (by_ : Initiator) (q : Nat) (wide : Bool) (cmd : Instr) (s : State) : State :=
  if deliverable (queue s q) = 0 then
    readResp by_ wide (qOff q 0x30) (queue s q).idle (modQ q (fun x => { x with popf := 8 }) s)
  else
    match take? q s with
    | some (it, s) =>
      let f := BitVec.ofNat 4 (1 + 2 * bool it.pend + 4 * bool it.poison)
      readResp by_ wide (qOff q 0x30) it.data (modQ q (fun x => { x with popf := f }) s)
    | none => hold cmd { s with port := { s.port with lastAt := none } }
/-- HOST_POP (R298). -/
def execHostPop (by_ : Initiator) (q : Fin 64) (wide : Bool) (s : State) : Host.Outcome State Fault Refusal :=
  .next (hostAccess by_ false false (qOff q 0x30) (.hostPop by_ q wide) (popHost by_ q wide (.hostPop by_ q wide)) s)

/-- STE_Q_CFG as it reads (R300). -/
def readQcfg (s : State) (q : Nat) : W64 :=
  let x := queue s q
  BitVec.ofNat 64 (bool x.en + 2 * x.cls + 2 ^ 4 * x.book + 2 ^ 7 * bool x.recEn + 2 ^ 8 * bool x.thru + 2 ^ 16 * x.maxpg +
    2 ^ 32 * x.cut.toNat)

/-- STE_Q_CFG's RW fields. -/
def qcfgRw (v : W64) (x : Queue) : Queue :=
  { x with en := bit v 0, cls := fld v 3 1, book := fld v 6 4, recEn := bit v 7, thru := bit v 8,
           maxpg := if 8192 < fld v 29 16 then x.maxpg else fld v 29 16, cut := BitVec.ofNat 16 (fld v 47 32) }

/-- A write of STE_Q_CFG: its RW fields, then its actions (R299, R446). -/
def writeQcfg (q : Nat) (v : W64) (s : State) : State :=
  let s := modQ q (qcfgRw v) s
  let s := if bit v 49 then unmarkQ q s else s
  if bit v 48 then resetQueue q s else s
/-- QUEUE_RESET (R299). -/
def execQueueReset (by_ : Initiator) (q : Fin 64) (cfg : W64) (s : State) : Host.Outcome State Fault Refusal :=
  .next (regWrite by_ (qOff q 0) (.queueReset by_ q cfg) (writeQcfg q (setBit cfg 48 true)) s)
/-- UNMARK (R291): every RW field as it reads. -/
def execUnmark (by_ : Initiator) (q : Fin 64) (s : State) : Host.Outcome State Fault Refusal :=
  .next (regWrite by_ (qOff q 0) (.unmark by_ q) (unmarkQ q) s)

/-! ### Movements (R282) -/

/-- TAIL_TO_HEAD: one item in an ECLK. -/
def tailToHead (q : Nat) (s : State) : State :=
  if running s && direct (queue s q) && !decide ((queue s q).moveAt = some s.eclk) then moveDirect q s else s
def execTailToHead (q : Fin 64) (s : State) : Host.Outcome State Fault Refusal := .next (tailToHead q s)

/-- HALF_GROUP_SPILL: 4 items, or one with the packet-end flag. -/
def halfGroupSpill (q : Nat) (s : State) : State :=
  let x := queue s q
  if running s && !direct x && (decide (4 ≤ x.tail.length) || x.tail.any (·.pend)) then startSpill q s else s
def execHalfGroupSpill (q : Fin 64) (s : State) : Host.Outcome State Fault Refusal := .next (halfGroupSpill q s)

/-- TAIL_IDLE_FLUSH: 8 ECLK without an item. -/
def tailIdleFlush (q : Nat) (s : State) : State :=
  let x := queue s q
  if running s && !direct x && decide (x.lastPut + 8 ≤ s.eclk) && !x.tail.isEmpty then startSpill q s else s
def execTailIdleFlush (q : Fin 64) (s : State) : Host.Outcome State Fault Refusal := .next (tailIdleFlush q s)

/-- HEAD_REFILL: 4 free head registers. -/
def execHeadRefill (q : Fin 64) (s : State) : Host.Outcome State Fault Refusal :=
  .next (if running s then startRefill q s else s)

/-! ### The spill pool (R301) -/

def isAlloc (m : Move) : Bool := match m with | .alloc _ => true | _ => false
def spillReads (o : Owner) : Bool := match o with | .spill _ .freeRd => true | _ => false

/-- A write of STE_SPILL_BASE: ignored while pages are in use; a read of the old free list comes to nothing. -/
def writeSpillBase (v : W64) (s : State) : State :=
  if s.spill.inuse ≠ 0 then s
  else
    let s := orphanReads spillReads s
    let drop := fun (x : Queue) => if isAlloc x.wrMove then { x with wrMove := .none } else x
    let qs := (s.queues.map (·.1))
    let s := qs.foldl (fun s q => modQ q drop s) s
    { s with spill := { s.spill with base := BitVec.ofNat 22 (fld v 31 10),
                                     pages := if 8192 < fld v 45 32 then s.spill.pages else fld v 45 32,
                                     freeHead := 0, freeN := 0, fresh := 0, reading := false, late := [] } }
/-- SPILL_BASE_WRITE (R301). -/
def execSpillBaseWrite (by_ : Initiator) (v : W64) (s : State) : Host.Outcome State Fault Refusal :=
  .next (regWrite by_ 0x60 (.spillBaseWrite by_ v) (writeSpillBase v) s)

def clearHwm (s : State) : State := { s with spill := { s.spill with hwm := s.spill.inuse } }
/-- SPILL_CLRHW (R301). -/
def execSpillClrhw (by_ : Initiator) (s : State) : Host.Outcome State Fault Refusal :=
  .next (regWrite by_ 0x68 (.spillClrhw by_) clearHwm s)

end Sys2Proof.Machine
end

