-- ==== Sys2Proof/Machine/Rules.lean ====
section
/-! DEFINITION. The table window's writes and the Atlas's commands: staging (R313), COMMIT (R314, R316), the
lifecycle signal (R317, R394). -/

namespace Sys2Proof.Machine

def join (hi lo : W32) : W64 := hi ++ lo
def loWord (w : W64) : W32 := BitVec.setWidth 32 w
def hiWord (w : W64) : W32 := BitVec.ofNat 32 (fld w 63 32)

/-! ### The table window (R313, R437, R438) -/

/-- An offset of a staged region. -/
def stagedAt (off : Nat) : Bool :=
  decide (off < 0x100000) || (decide (0x160000 ≤ off) && decide (off < 0x168000)) || (decide (0x16C000 ≤ off) && decide (off < 0x16C900))
def routeAt (off : Nat) : Bool := decide (0x168000 ≤ off) && decide (off < 0x16C000)

def committing (s : State) : Bool := !decide (s.atlas.phase = .idle)

/-- A word goes to the staging buffer, or is refused (R313). -/
def stage (by_ : Initiator) (k : Nat) (v : W64) (s : State) : State :=
  if committing s || (decide (512 ≤ s.atlas.staging.length) && (tfind? s.atlas.staging k).isNone) then
    setResp by_ 0 true (markSet (w1cKey 0x5018 10) { s with atlas := { s.atlas with stgrej := true } })
  else { s with atlas := { s.atlas with staging := tput s.atlas.staging k v, stgBad := s.atlas.stgBad.filter (· != k) } }

/-- A write of one route entry (R360); the time parent may be lost by it (R371). -/
def writeRoute (node : Nat) (v : W32) (s : State) : State :=
  checkParent (cleanWord (8, node / 2) { s with fab := { s.fab with routes := tset 0 s.fab.routes node (v &&& 0x3F) } })

/-- What a high word written alone is joined with (R443). -/
def lowAsStands (s : State) (k : Nat) : W32 :=
  loWord (match tfind? s.atlas.staging k with
    | some v => v
    | none => (wordInForce s k).getD (gridFill s.atlas.gdef))

def tableKey (by_ : Initiator) (off : Nat) : Nat := keySnap by_ (0x10000 + off)

/-- A write to the table window (R437, R438). -/
def tableWrite (by_ : Initiator) (off size : Nat) (d : W64) (s : State) : State :=
  if routeAt off then
    let n := (off - 0x168000) / 4
    let s := writeRoute n (loWord d) s
    if size = 8 then writeRoute (n + 1) (hiWord d) s else s
  else if stagedAt off then
    let k := off / 8
    let key := tableKey by_ off
    if size = 8 then setLow key none (stage by_ k d s)
    else if off % 8 = 0 then setLow key (some (loWord d)) s
    else if committing s then stage by_ k d s
    else setLow key none (stage by_ k (join (loWord d) ((heldLow s key).getD (lowAsStands s k))) s)
  else s
/-- An access of a size and alignment that the windows accept (R4, R438). -/
def sizeOk (off size : Nat) : Bool := (size == 4 || size == 8) && off % size == 0

/-- ATLAS_STAGE_WRITE (R313). -/
def execAtlasStageWrite (by_ : Initiator) (off : BitVec 21) (size : Nat) (d : W64) (s : State) : Host.Outcome State Fault Refusal :=
  .next (if sizeOk off.toNat size then
      hostAccess by_ true true off.toNat (.atlasStageWrite by_ off size d) (tableWrite by_ off.toNat size d) s
    else badAccess by_ true off.toNat (.atlasStageWrite by_ off size d) s)

/-! ### COMMIT (R314) -/

/-- STE_ATLAS_COMMIT.GO. -/
def commitGo (gridrst : BitVec 4) (s : State) : State :=
  if committing s then markSet (w1cKey 0x5018 12) { s with atlas := { s.atlas with cmdlost := true } }
  else { s with atlas := { s.atlas with phase := .prep gridrst s.eclk } }
/-- COMMIT_GO (R314). -/
def execCommitGo (by_ : Initiator) (gridrst : BitVec 4) (s : State) : Host.Outcome State Fault Refusal :=
  .next (regWrite by_ 0x5008 (.commitGo by_ gridrst) (commitGo gridrst) s)

/-- A word of the state that a switch would put in force. -/
def newWord (s : State) (k : Nat) : W64 :=
  match tfind? s.atlas.staging k with
  | some v => v
  | none => (storedWord s k).getD 0

/-- The numbers of the sheets that are listed or staged, in ascending order. -/
def newSheets (s : State) : List Nat :=
  let a := (s.atlas.sheets.filter (fun e => e.1 % 4 == 1)).map (fun e => e.1 / 4)
  let b := (s.atlas.staging.filter (fun e => decide (0x2C000 ≤ e.1) && decide (e.1 < 0x2D000))).map (fun e => (e.1 - 0x2C000) / 4)
  let l := (a ++ b.filter (fun n => !a.contains n)).filter (fun n => bit (newWord s (sheetKey n + 1)) 32)
  l.foldl (fun acc n => insertSorted (fun x y => decide (x < y)) n (acc.filter (· != n))) []

def newSheet (s : State) (n : Nat) : Sheet := ⟨n, newWord s (sheetKey n), newWord s (sheetKey n + 1)⟩

/-- R314, code 2: LIMIT below START, or a reserved bit set. -/
def malformedSheet (s : State) (n : Nat) : Bool :=
  let sh := newSheet s n
  decide (fld sh.w0 63 37 < fld sh.w0 31 5) || fld sh.w0 4 0 != 0 || fld sh.w0 36 32 != 0 || fld sh.w1 63 37 != 0 ||
  newWord s (sheetKey n + 2) != 0 || newWord s (sheetKey n + 3) != 0
def overlapSheets (a b : Sheet) : Bool := decide (sheetStart a ≤ sheetLast b) && decide (sheetStart b ≤ sheetLast a)

/-- R314, code 4: two enabled windows with the same base. -/
def sameWindows (w : W64) : Bool :=
  [(0, 1), (0, 2), (0, 3), (1, 2), (1, 3), (2, 3)].any (fun p =>
    bit w (32 + p.1) && bit w (32 + p.2) && fld w (8 * p.1 + 7) (8 * p.1) == fld w (8 * p.2 + 7) (8 * p.2))

/-- The first refusal of R314, with its INDEX. -/
def commitRefused (s : State) : Option (BitVec 3 × Nat) :=
  let l := newSheets s
  if !s.atlas.stgBad.isEmpty then some (3, 0)
  else
    match l.find? (malformedSheet s) with
    | some n => some (2, n)
    | none =>
      match l.find? (fun n => l.any (fun m => m != n && overlapSheets (newSheet s n) (newSheet s m))) with
      | some n => some (1, n)
      | none => if sameWindows s.atlas.winStg then some (4, 0) else none

/-- The store of R270 that holds a word. -/
def storeOf (k : Nat) : Nat :=
  if k < 0x20000 then 3 + k / 32768 else if k < 0x2D000 then 7 else if k < 0x2D900 then 9 else 10

/-- A staged word has failed its parity check: the buffer is discarded, and a record offered (R314, R320). -/
def stagingLost (k : Nat) (s : State) : State :=
  let s := markSet (w1cKey 0x5018 11) { s with atlas := { s.atlas with stgerr := true, staging := [], stgBad := [] } }
  if s.atlas.recEn then offerNow .data s.atlas.book 0x33 7 (storeOf k) 1 (BitVec.ofNat 64 (8 * k)) 0 s else s

/-- The COMMIT is refused (R314). -/
def refuseCommit (code : BitVec 3) (index : Nat) (s : State) : State :=
  let s := { s with atlas := { s.atlas with phase := .idle, code := code, index := index } }
  match s.atlas.stgBad with
  | k :: _ => stagingLost k s
  | [] => s

/-- A bank fence lifted by a COMMIT (R344). -/
def liftBank (n : Nat) (s : State) : State :=
  if bit s.fences.grid n then
    let s := { s with fences := { s.fences with grid := setBit s.fences.grid n false } }
    offerNow .mgt s.mgt.book 0x54 7 (3 + n) 2 (BitVec.ofNat 64 (2 * (3 + n) + 1)) 0 s
  else s

/-- A bank becomes uninitialised; its fence goes unless it was set in the MCLK period of the switch (R314, R448). -/
def resetBank (s : State) (n : Nat) : State :=
  let keep := decide (s.fences.gridAt = some (mclk s)) && bit s.fences.gridSet n
  let s := if keep then s else liftBank n s
  { s with atlas := { s.atlas with grid := s.atlas.grid.filter (fun e => e.1 / 32768 != n), bad := s.atlas.bad.filter (fun e => e.1 != 3 + n), soft := s.atlas.soft.filter (fun e => e.1 != 3 + n),
                                   gridUndef := s.atlas.gridUndef.filter (· != n) } }

/-- The switch (R314): every staged value takes effect, the epoch increments, and every cache is invalidated. -/
def switch (gridrst : BitVec 4) (s : State) : State :=
  let s := ([0, 1, 2, 3].filter (fun n => gridrst.getLsbD n)).foldl resetBank s
  let a := s.atlas
  { s with
    lcache := []
    atlas := { a with uncov := a.uncovStg, win := a.winStg, gdef := a.gdefStg, epoch := a.epoch + 1, drained := false, caches := [],
                      code := 0, phase := .copying s.eclk, switchAt := s.eclk } }

/-- A lookup that had not completed before the switch begins again, and pays its latency once more (R315). -/
def lookAgain (s : State) (a : Acc) : State :=
  match a.ask with
  | some q =>
    if a.decided then s
    else
      let r := beginLookup q s
      { r.1 with offered := modWhere (fun x => decide (x = a)) (fun x => { x with readyAt := s.eclk + r.2 }) r.1.offered }
  | none => s

def fetcher (f : Fetch) : Nat := match f.kind with | .endW0 c => c | _ => f.waiters.headD 0

/-- The retry of a global halt has ended: it succeeded, and by its time limit (R336). -/
def endRetry (ok byLimit : Bool) (s : State) : State := { s with halt := { s.halt with ended := some (ok, byLimit, s.eclk) } }

/-- What a leg fetch asks of its check point (R450). -/
def askFetch (f : Fetch) : Ask :=
  let retry := decide (f.kind = .retry)
  fetchAsk f.addr f.colour (if retry then 3 else 0) (if retry then 2 else fetcher f)

/-- The same for the lookup of a leg fetch. -/
def fetchAgain (s : State) (f : Fetch) : State :=
  if f.decided then s
  else
    let r := beginLookup (askFetch f) s
    { r.1 with fetches := modWhere (fun x => decide (x = f)) (fun x => { x with readyAt := s.eclk + r.2 }) r.1.fetches }

def lookupsAgain (s : State) : State :=
  let s := s.offered.foldl lookAgain s
  s.fetches.foldl fetchAgain s

/-- The bank under test is named in GRIDRST (R424). -/
def testBlocks (gridrst : BitVec 4) (s : State) : Bool :=
  let t := s.mgt.test
  t.busy && decide (3 ≤ t.unit.toNat) && decide (t.unit.toNat ≤ 6) && gridrst.getLsbD (t.unit.toNat - 3)

/-- COMMIT_SWITCH (R314): preparation ends; the switch waits for a test of a bank it resets (R424). -/
def commitSwitch (s : State) : State :=
  match s.atlas.phase with
  | .prep g _ =>
    if testBlocks g s then s
    else
      match commitRefused s with
      | some (code, index) => refuseCommit code index s
      | none => lookupsAgain (switch g s)
  | _ => s
def execCommitSwitch (s : State) : Host.Outcome State Fault Refusal := .next (if running s then commitSwitch s else s)

/-- BUSY clears in the ECLK after the last word has been written (R314); with nothing staged, in the one after the switch. -/
def copyEnds (s : State) : State :=
  match s.atlas.phase with
  | .copying t => if s.atlas.staging.isEmpty && decide (t < s.eclk) then { s with atlas := { s.atlas with phase := .idle } } else s
  | _ => s

/-- One staged word reaches its store; it lies there without the errors that the word before it held (R340). -/
def copyWord (t : Nat) (s : State) : State :=
  match s.atlas.staging with
  | (k, v) :: rest =>
    if t < s.eclk then
      let s := cleanWord (storeOf k, k) (putWord k v s)
      { s with atlas := { s.atlas with staging := rest, phase := .copying s.eclk } }
    else s
  | [] => s

/-- COMMIT_COPY_IN (R314): from ECLK s + 1, one word in an ECLK. -/
def copyIn (s : State) : State :=
  match s.atlas.phase with
  | .copying t => copyEnds (copyWord t s)
  | _ => s
def execCommitCopyIn (s : State) : Host.Outcome State Fault Refusal := .next (if running s then copyIn s else s)

/-- Some lookup of lane l's in-cluster copy has been decided (R89, R316). -/
def copyChecked (s : State) (l : Nat) (b : Burst) : Bool :=
  let sides := copySides (ctx s b.ch).r b
  decide ((s.offered.filter (fun a => a.only && laneOwner l a.owner)).length < sides.1.length + sides.2.length)

/-- STE_ATLAS_EPOCH.OLDOUT (R316): local accesses from their check to their end, remote ones until the router takes them,
and in-cluster copies; a check that is to be made again is of no old epoch (R315). -/
def oldOut (s : State) : Nat :=
  let old := fun (e : W32) => e != s.atlas.epoch
  (s.offered.filter (fun a => a.decided && !a.only && old a.epoch)).length + (s.outst.filter (fun a => old a.epoch)).length +
  (s.fetches.filter (fun f => f.decided && !f.denied && old f.epoch)).length +
  (s.lanes.filter (fun e => match e.2.burst with | some b => b.inCluster && b.started && !copyOver b && copyChecked s e.1 b && old b.epoch | none => false)).length

/-- COMMIT_DRAINED (R316): from ECLK s + 1. -/
def commitDrained (s : State) : State :=
  if s.atlas.drained || decide (s.eclk ≤ s.atlas.switchAt) || oldOut s ≠ 0 then s
  else
    let s := { s with atlas := { s.atlas with drained := true } }
    if s.atlas.recEn then offerNow .data s.atlas.book 0x32 0 0 s.atlas.epoch.toNat 0 0 s else s
def execCommitDrained (s : State) : Host.Outcome State Fault Refusal := .next (commitDrained s)

/-- STE_ATLAS_CTRL.CLRCNT: what is counted in this ECLK stays counted (R321). -/
def clearAtlas (s : State) : State :=
  { s with atlas := { s.atlas with vcnt := BitVec.ofNat 32 (countNow s (w1cKey 0x5058 0)), dbgcnt := BitVec.ofNat 32 (countNow s (w1cKey 0x5060 0)) } }
/-- ATLAS_CLRCNT (R321). -/
def execAtlasClrcnt (by_ : Initiator) (s : State) : Host.Outcome State Fault Refusal :=
  .next (regWrite by_ 0x5000 (.atlasClrcnt by_) clearAtlas s)

/-- LIFECYCLE_CHANGE (R317, R394): lookups of this ECLK still use the old level. -/
def lifecycle (level : Bool) (s : State) : State :=
  if level == s.dbg.unlock then s
  else { s with dbg := { s.dbg with unlock := level, prev := s.dbg.unlock, changedAt := s.eclk } }
def execLifecycleChange (level : Bool) (s : State) : Host.Outcome State Fault Refusal := .next (lifecycle level s)

end Sys2Proof.Machine
end

