-- ==== Sys2Proof/Machine/LegFetch.lean ====
section
/-! DEFINITION. The ends of leg fetches (R26, R60 to R65, R385) and the global halt (R334 to R338). -/

namespace Sys2Proof.Machine

/-! ### The global halt -/

def haltRec (detail : Nat) (s : State) : State :=
  if s.halt.hrec then offerNow .data s.halt.hbook 0x70 0 0 detail (BitVec.setWidth 64 s.halt.addr) 0 s else s

/-- CHANNEL_HALTED: a channel at its stop point enters HALTED (R335), unless an ABORT or a change of EN to 0 of the same ECLK
goes before (R333). -/
def channelHalted (c : Nat) (s : State) : State :=
  if haltOn s && !stopComes s c && (atStop s c || (decide ((ctx s c).r.state = .paused) && (ctx s c).w.faulting.isNone)) then enterHalted c s else s
def execChannelHalted (c : Nat) (s : State) : Host.Outcome State Fault Refusal := .next (channelHalted c s)

/-- A line fill ends in a bus error (R62, R334): counted, and a halt is entered unless one is in force (R335). -/
def busError (line : W32) (col : Nat) (s : State) : State :=
  let s := uncorrected 24 0 (BitVec.setWidth 64 line) s
  if haltOn s then s
  else
    let s := { s with halt := { s.halt with st := 1, count := s.halt.count + 1, addr := line, colour := col, entry := s.eclk,
                                            issueStop := false, retryOut := false, ended := none, decided := none } }
    (touched s).foldl (fun s c => channelHalted c s) (haltRec 0 s)

/-- The fill of a line under a colour whose response, or denial, is to be applied. -/
def returning (line : W32) (col : Nat) (f : Fetch) : Bool := isFill f && f.addr == line && f.colour == col && (f.issued || f.denied)
def dropFetch (f : Fetch) (s : State) : State := { s with fetches := s.fetches.erase f }

/-- GLOBAL_HALT_ENTRY (R334): a fill returns an error response that is no response of R385. -/
def globalHalt (line : W32) (col : Nat) (s : State) : State :=
  match s.fetches.find? (fun f => returning line col f && f.issued && !f.busySeen) with
  | some f => busError line col (dropFetch f s)
  | none => s
def execGlobalHaltEntry (line : W32) (col : Fin 16) (s : State) : Host.Outcome State Fault Refusal := .next (globalHalt line col s)

/-! ### Line fills -/

/-- Each channel that waits for a demand fill faults at its leg (R26, R339). -/
def fillFaults (code : Nat) (f : Fetch) (s : State) : State :=
  if decide (f.kind = .demand) then f.waiters.foldl (fun s c => if decide ((ctx s c).w.phase = .fetch) then faultPc c code s else s) s else s

def busyErr (s : State) : State := { s with flash := { s.flash with buserr := sat16 s.flash.buserr } }
/-- Channels that wait for a fetch. -/
def fetchWaiters (f : Fetch) : List Nat := match f.kind with | .endW0 c => [c] | _ => f.waiters

/-- A demand fill, an END read-through or the retry is issued again once the bank is free, and holds its channels
until then (R384, R385). -/
def reissue (f : Fetch) (s : State) : State :=
  let s := { s with fetches := modWhere (fun g => decide (g = f)) (fun g => { g with issued := false, busySeen := false }) s.fetches }
  (fetchWaiters f).foldl (fun s c => flashHold c f.addr s) s

/-- The line's data comes: it fills the cache, and goes to the channels that wait for it (R60, R62). -/
def fillData (f : Fetch) (l : Line) (s : State) : State :=
  let s := if f.stale then s else fillLine { addr := f.addr, colour := f.colour, epoch := f.epoch, data := l } s
  f.waiters.foldl (fun s c => deliverLeg c (legIn l (ctx s c).r.pc) s) s

/-- LINE_FILL_RETURN. -/
def fillReturn (line : W32) (col : Nat) (r : LineResp) (s : State) : State :=
  match s.fetches.find? (returning line col) with
  | none => s
  | some f =>
    if f.denied then fillFaults 0x20 f (dropFetch f s)
    else
      match r with
      | .data l => if f.dropped then dropFetch f s else fillData f l (dropFetch f s)
      | .poison => if f.dropped then dropFetch f s else fillFaults 0x12 f (dropFetch f s)
      | .err =>
        if !f.busySeen then busError line col (dropFetch f s)
        else if decide (f.kind = .demand) && !f.dropped then reissue f (busyErr s)
        else busyErr (dropFetch f s)
def execLineFillReturn (line : W32) (col : Fin 16) (r : LineResp) (s : State) : Host.Outcome State Fault Refusal :=
  .next (fillReturn line col r s)

/-! ### END W0 read-throughs (R65 to R67) -/

/-- A read-through of channel c that is issued, or denied. -/
def endOut (c : Nat) (f : Fetch) : Bool := decide (f.kind = .endW0 c) && (f.issued || f.denied)

/-- The W0 of channel c's END comes; all of it replaces W0 in the leg copy, so that EVF of the word in memory decides on
the traverse-end record (DESIGN CHOICE, log entry 45).  A channel that drains has completed its leg (R330). -/
def endData (c : Nat) (w0 : W64) (s : State) : State :=
  let s := modR c (fun r => { r with leg := { r.leg with w0 := w0 } }) s
  let n := nextOf (ctx s c).r.leg
  if decide ((ctx s c).r.state = .draining) then finishTo c none (if n = 0 then s else invalidate n s)
  else if n = 0 then park c s
  else if fld n 4 0 ≠ 0 then faultPc c 0x03 (modW c (fun w => { w with legNo := w.legNo + 1 }) s)
  else finishTo c (some n) (leaveWait c (invalidate n s))

/-- END_W0_RETURN: the oldest read-through of the channel ends; nothing comes of an orphaned one (R329). -/
def endReturn (c : Nat) (r : EndResp) (s : State) : State :=
  match s.fetches.find? (endOut c) with
  | none => s
  | some f =>
    if f.dropped then dropFetch f s
    else if f.denied then faultPc c 0x20 (dropFetch f s)
    else
      match r with
      | .data w0 => endData c w0 (dropFetch f s)
      | .poison => faultPc c 0x12 (dropFetch f s)
      | .err => if f.busySeen then reissue f (busyErr s) else faultPc c 0x21 (dropFetch f s)
def execEndW0Return (c : Fin 1024) (r : EndResp) (s : State) : Host.Outcome State Fault Refusal := .next (endReturn c r s)

/-- LEG_INV_WRITE (R64, R431). -/
def execLegInvWrite (by_ : Initiator) (addr : W32) (s : State) : Host.Outcome State Fault Refusal :=
  .next (regWrite by_ 0x90 (.legInvWrite by_ addr) (invalidate addr) s)

/-! ### The halt's course (R335 to R338) -/

def readParts (l : Nat) (a : Acc) : List Nat := if laneOwner l a.owner && !a.wr then a.parts.map (·.el) else []

/-- The first element of a burst for which a read is still to be issued (R335). -/
def firstUnread (s : State) (l : Nat) (b : Burst) : Nat :=
  let waiting := (s.offered.flatMap (readParts l)).foldl min b.limit
  let shadow := if isElided b.leg then (if decide (b.elide = .idle) then b.nxt else b.nxt + 1) else b.limit
  let indexed := if b.formed || scatter b.leg then b.limit else 0
  min waiting (min shadow indexed)

/-- A lane's reads stop: its burst ends at the first element not read. -/
def stopReads (s : State) (l : Nat) : State :=
  match burstOn s l with
  | none => s
  | some b =>
    let s := if b.inCluster then s else cut l (firstUnread s l b) .haltCut s
    { s with offered := s.offered.filter (fun a => !(laneOwner l a.owner && !a.wr && !a.only)) }

/-- HALT_ISSUE_STOP (R335): at E + 4; the leg-fetch port's fills are discarded as they end. -/
def haltIssueStop (s : State) : State :=
  if !haltOn s || s.halt.issueStop || decide (s.eclk < s.halt.entry + 4) then s
  else
    let s := (s.lanes.map (·.1)).foldl stopReads s
    let kept := s.fetches.filter (fun f => !(isFill f && !f.issued && !f.denied))
    let s := { s with halt := { s.halt with issueStop := true }, fetches := modWhere (fun f => isFill f && f.issued) (fun f => { f with dropped := true }) kept }
    (s.lanes.map (·.1)).foldl (fun s l => advance l s) s
def execHaltIssueStop (s : State) : Host.Outcome State Fault Refusal := .next (haltIssueStop s)

def isRetry (f : Fetch) : Bool := decide (f.kind = .retry)

/-- HALT_RETRY_ISSUE (R336, R450): requested at E + 62, with the colour of the original fill. -/
def haltRetry (s : State) : State :=
  if !(s.halt.st == 1) || s.halt.retryOut || s.halt.ended.isSome || decide (s.eclk < s.halt.entry + 62) then s
  else
    let r := beginLookup (fetchAsk s.halt.addr s.halt.colour 3 2) s
    let f : Fetch := { kind := .retry, addr := s.halt.addr, colour := s.halt.colour, waiters := [], clss := [], at_ := s.eclk,
                       readyAt := s.eclk + r.2, denied := false, issued := false, busySeen := false, dropped := false,
                       epoch := s.atlas.epoch }
    { r.1 with halt := { s.halt with retryOut := true }, fetches := s.fetches ++ [f] }
def execHaltRetryIssue (s : State) : Host.Outcome State Fault Refusal := .next (haltRetry s)

/-- The retry has not returned in time. -/
def retryLate (s : State) : State := endRetry false true { s with fetches := s.fetches.filter (fun f => !isRetry f) }

/-- The retry's response. -/
def retryEnds (f : Fetch) (r : LineResp) (s : State) : State :=
  match r with
  | .data l => endRetry true false (fillData f l (dropFetch f s))
  | .poison => endRetry true false (dropFetch f s)
  | .err =>
    if f.busySeen then reissue f (busyErr s)
    else endRetry false false (uncorrected 24 0 (BitVec.setWidth 64 f.addr) (dropFetch f s))

/-- HALT_RETRY_END (R336): the retry's response, or none at its time limit; a response after it comes too late. -/
def haltRetryEnd (r : Option LineResp) (s : State) : State :=
  if !(s.halt.st == 1) || !s.halt.retryOut || s.halt.ended.isSome then s
  else
    match r, s.fetches.find? (fun f => isRetry f && f.issued) with
    | none, _ =>
      if s.eclk < s.halt.entry + 1164 then s
      else retryLate s
    | some _, none => s
    | some x, some f =>
      if s.halt.entry + 1164 < s.eclk then retryLate s else retryEnds f x s
def execHaltRetryEnd (r : Option LineResp) (s : State) : Host.Outcome State Fault Refusal := .next (haltRetryEnd r s)

/-- HALT_DECISION (R336, R338): in the ECLK after the retry ended. -/
def haltDecision (s : State) : State :=
  match s.halt.ended with
  | none => s
  | some (ok, byLimit, t) =>
    if !(s.halt.st == 1) || s.halt.decided.isSome || decide (s.eclk ≤ t) then s
    else
      let e := rolled s (errCls s 49)
      let hold := fun (why : BitVec 2) => haltRec 2 { s with halt := { s.halt with st := 2, why := why, decided := none } }
      if !ok then hold (if byLimit then 2 else 1)
      else if decide (e.thresh.toNat < e.count.toNat) && e.fence then hold 3
      else { s with halt := { s.halt with decided := some s.eclk } }
def execHaltDecision (s : State) : Host.Outcome State Fault Refusal := .next (haltDecision s)

/-- A channel goes on at recovery (R337): from HALTED, or with its halt cancelled. -/
def goOn (c : Nat) (s : State) : State :=
  match (ctx s c).r.state with
  | .halted =>
    if (ctx s c).w.faulting.isSome then
      modR c (fun r => { r with state := r.resume, resume := .off, wait := if decide (r.resume = .wait) || decide (r.resume = .held) then (ctx s c).w.haltWait else .none }) s
    else unhalt c s
  | .active => if decide ((ctx s c).w.phase = .fetch) && !(ctx s c).w.pausePend then startFetch c s else s
  | _ => s

def recover (s : State) : State :=
  let s := { s with halt := { s.halt with st := 0, issueStop := false, retryOut := false, ended := none, decided := none } }
  haltRec 1 ((touched s).foldl (fun s c => goOn c s) s)

/-- RECOVERY (R337): in the ECLK after the decision. -/
def recovery (s : State) : State :=
  match s.halt.decided with
  | some t => if t < s.eclk then recover s else s
  | none => s
def execRecovery (s : State) : Host.Outcome State Fault Refusal := .next (recovery s)

/-- GLOBAL_RESUME (R338). -/
def globalResume (s : State) : State := if s.halt.st == 2 then recover s else s
def execGlobalResume (by_ : Initiator) (s : State) : Host.Outcome State Fault Refusal :=
  .next (regWrite by_ 0x70 (.globalResume by_) globalResume s)

end Sys2Proof.Machine
end

