-- ==== Sys2Proof/Machine/Links.lean ====
section
/-! DEFINITION. The link ports (R348 to R355): up and down, link words, retransmission, failover (R361, R362), and
the NOTEs a link causes (R368). -/

namespace Sys2Proof.Machine

/-! ### NOTEs (R368, R369) -/

/-- A NOTE of this node: sent to node 0, or handled here at the root. -/
def sendNote (leave : Bool) (p : Nat) (nbr : BitVec 12) (nbrv : Bool) (s : State) : State :=
  if !s.fab.idv || !s.fab.en then s
  else if s.fab.root && s.fab.id == 0 then
    if s.fab.auto then nextNote (setSurvey (fun x => { x with notes := x.notes ++ [(leave, 0, p, nbr.toNat)] }) s) else s
  else
    match routePort s 0 with
    | some q => queueFrame q ⟨hdr s false 0 0 false, .note leave (BitVec.ofNat 2 p) nbr nbrv⟩ s
    | none => s

/-! ### Failover (R361, R362) -/

/-- A frame that goes by its DST, and not along a path (R360, R366). -/
def isRouted (b : Body) : Bool :=
  match b with
  | .sv _ _ _ | .svr _ _ _ _ _ _ _ _ | .rl _ _ _ _ => false
  | _ => true

/-- A frame that waited for a port that has become unusable is routed afresh; one whose path names that very port is lost. -/
def reroute (p : Nat) (s : State) : State :=
  let waiting := (port s p).txRt ++ (port s p).txBulk
  let s := modP p (fun x => { x with txRt := [], txBulk := [] }) s
  waiting.foldl (fun s t => if isRouted t.f.body then routeTx t s else freeFlits t.arr t.f s) s

/-- The failover-taken record (R362, R373). -/
def failover (p : Nat) (s : State) : State :=
  let mine := (s.fab.routes.map (·.2)).filter (fun e => bit e 2 && fld e 1 0 == p)
  let moved := mine.filter (fun e => bit e 5 && usable s (fld e 4 3))
  if mine.isEmpty then s
  else fabRec 0x42 5 p moved.length (BitVec.ofNat 64 (mine.length - moved.length)) s

/-- A port has become unusable. -/
def portLost (p : Nat) (s : State) : State :=
  checkParent (failover p (reroute p s))

/-! ### Up and down (R350, R351) -/

/-- LINK_UP. -/
def linkUp (p : Nat) (nbr : BitVec 12) (nbrv : Bool) (s : State) : State :=
  let x := port s p
  if quiet s || !x.en || x.up then s
  else
    let s := setPort p { x with up := true, nbr := nbr, nbrv := nbrv, txLseq := 0, rxLseq := 0, rxWait := false, creditRt := 16,
                                creditBulk := 48, replay := [], again := [], replayCnt := 0, owed := [], skipAt := s.eclk, identAt := s.eclk, rtRun := 0 } s
    let s := fabRec 0x40 5 p (nbr.toNat + 2 ^ 12 * bool nbrv) 0 s
    if nbrv then s else sendNote false p nbr nbrv s
def execLinkUp (p : Fin 4) (nbr : BitVec 12) (nbrv : Bool) (s : State) : Host.Outcome State Fault Refusal := .next (linkUp p nbr nbrv s)

def countUncorrected (u : Nat) : Nat → State → State
  | 0, s => s
  | n + 1, s => countUncorrected u n (uncorrected u 0 0 s)

/-- A link goes down: its unacknowledged frames are lost, and each counts, as the event does (R351). -/
def portDown (p cause : Nat) (s : State) : State :=
  let x := port s p
  let lost := x.replay.length
  let s := setPort p { x with up := false, downs := sat16 x.downs, lost := BitVec.ofNat 16 (min 0xFFFF (x.lost.toNat + lost)), replay := [],
                              again := [], replayCnt := 0, owed := [], rxWait := false, creditRt := 0, creditBulk := 0 } s
  let s := countUncorrected (20 + p) (lost + 1) s
  let s := fabRec 0x41 5 p cause (BitVec.ofNat 64 lost) s
  let s := portLost p s
  sendNote true p x.nbr x.nbrv s

/-- LINK_DOWN: alignment lost (0), eight replays without progress (1), EN cleared (2). -/
def linkDown (p : Nat) (cause : Nat) (s : State) : State :=
  let x := port s p
  if !x.up then s
  else if cause = 0 || (cause = 1 && decide (8 ≤ x.replayCnt)) || (cause = 2 && !x.en) then portDown p cause s else s
def execLinkDown (p : Fin 4) (cause : Fin 3) (s : State) : Host.Outcome State Fault Refusal := .next (linkDown p cause s)

/-- EN of STE_FAB_PORT is written. -/
def enablePort (p : Nat) (en : Bool) (s : State) : State :=
  let up := (port s p).up
  let s := modP p (fun x => { x with en := en }) s
  if up && !en then portDown p 2 s else s
def portOff (p : Nat) : Nat := 0x6040 + 16 * p
/-- PORT_ENABLE (R350). -/
def execPortEnable (by_ : Initiator) (p : Fin 4) (en : Bool) (s : State) : Host.Outcome State Fault Refusal :=
  .next (regWrite by_ (portOff p) (.portEnable by_ p en) (enablePort p en) s)

def clearPstat (p : Nat) (s : State) : State := modP p (fun x => { x with naks := 0, replays := 0, downs := 0, lost := 0 }) s
/-- PORT_CLRST (R449). -/
def execPortClrst (by_ : Initiator) (p : Fin 4) (s : State) : Host.Outcome State Fault Refusal :=
  .next (regWrite by_ (portOff p) (.portClrst by_ p) (clearPstat p) s)

/-! ### Link words (R348 to R351, R355) -/

/-- Frames of the replay store from the named LSEQ on. -/
def fromLseq (lseq : BitVec 8) (l : List TxF) : List TxF := l.dropWhile (fun t => t.f.hdr.lseq != lseq)

/-- NAK_WORD (R351): the frames before the named one have arrived, and the rest are sent again. -/
def nakWord (p : Nat) (lseq : BitVec 8) (s : State) : State :=
  let x := port s p
  let l := fromLseq lseq x.replay
  if !x.up || l.isEmpty then s
  else
    let same := decide (l.length = x.replay.length)
    setPort p { x with replay := l, again := l, replays := BitVec.ofNat 16 (min 0xFFFF (x.replays.toNat + l.length)),
                       replayCnt := if same then x.replayCnt + 1 else 1 } s
def execNakWord (p : Fin 4) (lseq : BitVec 8) (s : State) : Host.Outcome State Fault Refusal := .next (nakWord p lseq s)

/-- ACK_WORD (R351). -/
def ackWord (p : Nat) (lseq : BitVec 8) (s : State) : State :=
  let x := port s p
  let l := fromLseq lseq x.replay
  if !x.up || l.isEmpty then s else setPort p { x with replay := l.drop 1, again := x.again.filter (l.drop 1).contains, replayCnt := 0 } s
def execAckWord (p : Fin 4) (lseq : BitVec 8) (s : State) : Host.Outcome State Fault Refusal := .next (ackWord p lseq s)

/-- CREDIT_WORD (R355): 1 to 16 flits of a class. -/
def creditWord (p : Nat) (rt : Bool) (flits : Nat) (s : State) : State :=
  if !(port s p).up then s
  else modP p (fun x => if rt then { x with creditRt := x.creditRt + (flits + 1) } else { x with creditBulk := x.creditBulk + (flits + 1) }) s
def execCreditWord (p : Fin 4) (rt : Bool) (flits : Fin 16) (s : State) : Host.Outcome State Fault Refusal := .next (creditWord p rt flits s)

/-- IDENT_WORD (R348, R368): a neighbour that no longer has an ID is a join. -/
def identWord (p : Nat) (nbr : BitVec 12) (nbrv : Bool) (s : State) : State :=
  let x := port s p
  if !x.up then s
  else
    let s := setPort p { x with nbr := nbr, nbrv := nbrv } s
    if x.nbrv && !nbrv then sendNote false p nbr nbrv s else s
def execIdentWord (p : Fin 4) (nbr : BitVec 12) (nbrv : Bool) (s : State) : Host.Outcome State Fault Refusal := .next (identWord p nbr nbrv s)

def linkByte (s : State) (p : Nat) : W8 := BitVec.ofNat 8 (fld s.glob.linkTx (8 * p + 7) (8 * p))

/-- SKIP_DUE (R349, R409): 256 LCLK, which are 320 ECLK, since the last; the transmitter takes its settings. -/
def skipDue (p : Nat) (s : State) : State :=
  let x := port s p
  if x.up && decide (x.skipAt + 320 ≤ s.eclk) then
    setPort p { x with skipAt := s.eclk, lastWord := some .skip, lastChar := firstChar .skip, txForce := linkByte s p, rtRun := 0 } s
  else s
def execSkipDue (p : Fin 4) (s : State) : Host.Outcome State Fault Refusal := .next (skipDue p s)

/-- IDENT_DUE (R350): once in 1 ms. -/
def identDue (p : Nat) (s : State) : State :=
  let x := port s p
  if x.up && decide (x.identAt + 800000 ≤ s.eclk) then
    setPort p { x with identAt := s.eclk, lastWord := some (.ident s.fab.id s.fab.idv), lastChar := k28 4, rtRun := 0 } s
  else s
def execIdentDue (p : Fin 4) (s : State) : Host.Outcome State Fault Refusal := .next (identDue p s)

/-- ROUTE_TABLE_WRITE (R360). -/
def execRouteTableWrite (by_ : Initiator) (node : BitVec 12) (v : W32) (s : State) : Host.Outcome State Fault Refusal :=
  .next (hostAccess by_ true true (0x168000 + 4 * node.toNat) (.routeTableWrite by_ node v) (writeRoute node.toNat v) s)

end Sys2Proof.Machine
end

