-- ==== Sys2Proof/Machine/Frames.lean ====
section
/-! DEFINITION. Frames as they arrive (R351, R356): remote operations and their answers (R363, R364), survey and route
load (R365 to R368), and the synchronisation exchange (R370, R371). -/

namespace Sys2Proof.Machine

/-! ### The link's reception, and forwarding -/

/-- The frame carries the LSEQ expected: its place in the sequence passes, and is acknowledged (R351).  A link that stands
still takes nothing. -/
def takeFrame (p : Nat) (f : Frame) (s : State) : Option State :=
  let x := port s p
  if quiet s || !x.up || x.rxLseq != f.hdr.lseq then none
  else some (owe p (.ack f.hdr.lseq) (setPort p { x with rxLseq := x.rxLseq + 1, rxWait := false } s))

def isOwn (s : State) (h : Hdr) : Bool := s.fab.idv && h.dst == s.fab.id

/-- A source-routed frame goes on: the arrival port is recorded in the element it used (R366). -/
def nextHop (p : Nat) (x : Path) : Path :=
  let i := x.pidx.toNat
  let old := hopAt x i
  { x with hops := BitVec.ofNat 40 (x.hops.toNat - old * 4 ^ i + p % 4 * 4 ^ i), pidx := x.pidx + 1 }
/-- The frame along its path, and the port that the path names (R366). -/
def along (p : Nat) (x : Path) (h : Hdr) (mk : Path → Body) : Option (Frame × Option Nat) :=
  some (⟨h, mk (nextHop p x)⟩, some (hopAt x x.pidx.toNat))

/-- The path back, as a list of ports: the arrival port, then the recorded ones in reverse. -/
def pathBack (p : Nat) (x : Path) : List Nat := p :: ((List.range (x.plen.toNat - 1)).map (fun i => hopAt x (i + 1))).reverse
def atTarget (x : Path) : Bool := decide (x.plen.toNat ≤ x.pidx.toNat)

/-- A frame for another node as it goes on, with the port that its path names, if it has one; none for one that this node
acts on (R356, R366). -/
def onward (s : State) (p : Nat) (f : Frame) : Option (Frame × Option Nat) :=
  match f.body with
  | .sv x a id => if atTarget x then none else along p x f.hdr (fun y => .sv y a id)
  | .svr x u i v w wv arr ps => if atTarget x then none else along p x f.hdr (fun y => .svr y u i v w wv arr ps)
  | .rl x last first es => if atTarget x then none else along p x f.hdr (fun y => .rl y last first es)
  | .reserved _ => none
  | _ => if isOwn s f.hdr then none else some ({ f with hdr := { f.hdr with ttl := f.hdr.ttl - 1 } }, none)

/-- Its TTL reaches 0 here (R356). -/
def ttlEnds (f : Frame) : Bool := isRouted f.body && decide (f.hdr.ttl ≤ 1)

/-- It waits for its output port: that of its path, or that of R360. -/
def sendOn (q : Option Nat) (t : TxF) (s : State) : State :=
  match q with
  | some q => if usable s q then queueTx q t s else freeFlits t.arr t.f s
  | none => routeTx t s

/-- A good frame for another node (R356). -/
def forward (p : Nat) (f g : Frame) (q : Option Nat) (s : State) : State :=
  if ttlEnds f then freeFlits (some p) f (refuse p f.hdr.dst.toNat f.hdr.src.toNat 1 s) else sendOn q ⟨g, some p, false, false, 0⟩ s

/-- A frame that turns out bad while it is being forwarded goes out stomped (R357); one that has no port to go out by is only
discarded.  The link will send one again whose CRC is bad, so its credit is not returned with this one. -/
def stompOn (p : Nat) (stomped : Bool) (f : Frame) (s : State) : State :=
  let arr := if stomped then some p else none
  match (if s.fab.en && !ttlEnds f then onward s p f else none) with
  | none => freeFlits arr f s
  | some (g, q) =>
    match (match q with | some n => if usable s n then some n else none | none => routePort s f.hdr.dst.toNat) with
    | some n => queueTx n ⟨g, arr, false, true, 0⟩ s
    | none => freeFlits arr f s

/-- A frame whose CRC fails: a NAK, and frames are discarded until the named one comes (R351). -/
def crcBad (p : Nat) (f : Frame) (s : State) : State :=
  let x := port s p
  if x.rxWait && x.rxLseq != f.hdr.lseq then s
  else
    let s := owe p (.nak x.rxLseq) (setPort p { x with rxWait := true, naks := sat16 x.naks } s)
    let s := corrected (20 + p) 0 0 s
    if x.rxLseq = f.hdr.lseq then stompOn p false f s else s

/-- FRAME_CRC_FAIL (R351, R357); a stomped frame is discarded without a NAK, and its place in the sequence passes. -/
def crcFail (p : Nat) (stomped : Bool) (f : Frame) (s : State) : State :=
  if quiet s || !(port s p).up then s
  else if stomped then
    match takeFrame p f s with
    | some s => stompOn p true f s
    | none => s
  else crcBad p f s
def execFrameCrcFail (p : Fin 4) (bad : BadFrame) (s : State) : Host.Outcome State Fault Refusal :=
  if frameOk bad.f then .next (crcFail p bad.stomped bad.f s) else .fault .malformed

/-! ### Remote operations at their destination (R363, R364) -/

/-- WRS: the bytes of one half of a block. -/
def inWrs (p : Nat) (h : Hdr) (addr : W32) (tag : BitVec 14) (pois : Bool) (mask : W8) (data : W64) (s : State) : State :=
  let (s, id) := inboundStart p h addr tag true 1 s
  let off := addr.toNat % 16 / 8 * 8
  inboundOffer id h true (addr &&& 0xFFFFFFF0) 0 (BitVec.ofNat 16 (mask.toNat * 2 ^ off)) (BitVec.ofNat 128 (data.toNat * 2 ^ (8 * off))) pois s

/-- WR: unit u is the block at ADDR + 16u. -/
def inWr (p : Nat) (h : Hdr) (addr : W32) (tag : BitVec 14) (units : List WUnit) (s : State) : State :=
  let (s, id) := inboundStart p h addr tag true units.length s
  units.zipIdx.foldl (fun s e =>
    inboundOffer id h true ((addr &&& 0xFFFFFFF0) + BitVec.ofNat 32 (16 * e.2)) e.2 e.1.mask e.1.data e.1.pois s) s

def inRd (p : Nat) (h : Hdr) (addr : W32) (tag : BitVec 14) (mask : W16) (s : State) : State :=
  let (s, id) := inboundStart p h addr tag false 1 s
  inboundOffer id h false (addr &&& 0xFFFFFFF0) 0 mask 0 false s

/-- EV (R364). -/
def inEv (p : Nat) (h : Hdr) (rnum : Nat) (s : State) : State :=
  let g := fld (ruleWord s (trustKey h.src.toNat)) (4 * (h.src.toNat % 16) + 3) (4 * (h.src.toNat % 16))
  let bad := isBad s 9 (trustKey h.src.toNat) || isBad s 10 (colourKey g h.col.toNat)
  let c := translate s h.src.toNat h.col.toNat
  let words := [(9, trustKey h.src.toNat), (10, colourKey g h.col.toNat)]
  let s := words.foldl foundSoft s
  let s := match words.find? (fun w => isBad s w.1 w.2) with | some w => ruleError w.1 w.2 0 s | none => s
  if !bad && c != 0 && c != 14 && c != 15 && bit s.fab.evcol c && bit (tget 0 s.fab.even (rnum / 64)) (rnum % 64) then request rnum false s
  else
    let was := s.fab.evref
    let s := markSet (w1cKey 0x6018 14) { s with fab := { s.fab with evref := true, refused := sat32 s.fab.refused } }
    if was then s else fabRec 0x44 5 p (h.src.toNat + 2 ^ 12 * rnum + 2 ^ 21 * h.col.toNat + 2 ^ 25 * c) 0 s

/-- DEST_RESPONSE_TIMEOUT (R363): 100 µs after the frame's arrival. -/
def destTimeout (id : Nat) (s : State) : State :=
  match s.fab.inb.find? (fun i => i.id == id && !i.answered && decide (i.at_ + 80000 ≤ s.eclk)) with
  | some i =>
    let s := { s with fab := { s.fab with inb := modWhere (fun j => j.id == id) (fun j => { j with answered := true }) s.fab.inb } }
    respond i (nakBody i.addr i.tag 5 0 0) s
  | none => s
def execDestResponseTimeout (id : Nat) (s : State) : Host.Outcome State Fault Refusal := .next (destTimeout id s)

/-! ### Answers (R258, R363, R367) -/

/-- The outbound access that an answer ends: it echoes the access's tag and an address of its blocks (R353). -/
def answered (s : State) (addr : W32) (tag : BitVec 14) : Option FOut :=
  s.fab.out.find? (fun f => f.ftag == tag.toNat && f.units.any (fun u => gLocal u.blk == addr &&& 0xFFFFFFF0))
/-- An answer to the RL frame that waits for one: it echoes no access (log entry 21). -/
def answersRl (s : State) (n : BitVec 12) : Bool := s.fab.load.busy && s.fab.load.sentAt.isSome && n == s.fab.load.toNode

def cameAck (h : Hdr) (addr : W32) (tag : BitVec 14) (s : State) : State :=
  match answered s addr tag with
  | some f => if f.wr then outAccepted f (takeOut f.ftag s) else s
  | none => if answersRl s h.src then rlAnswered true s else s

/-- The fault that a NAK's reason maps to (R363). -/
def nakCode (f : FOut) (reason dom : Nat) : Nat :=
  match reason with
  | 1 => if f.elided && dom == 4 then 0x14 else 0x10
  | 3 => 0x16
  | 5 => 0x15
  | _ => 0x11

/-- The domain-NAK record (R363, R373). -/
def domainNak (f : FOut) (n dom : Nat) (s : State) : State :=
  match f.ch with
  | some (c, _, _) =>
    let a := match f.units.drop n with | u :: _ => firstAddr u | [] => f.addr
    if s.fab.recEn then offerNow .data (legBook s c) 0x48 1 c (gNode f.addr + 2 ^ 12 * dom) (BitVec.setWidth 64 a) 0 s else s
  | none => s

def cameNak (h : Hdr) (addr : W32) (tag : BitVec 14) (reason dom unit : Nat) (s : State) : State :=
  match answered s addr tag with
  | some f =>
    let s := if reason = 3 then domainNak f unit dom s else s
    outFails f unit (nakCode f reason dom) (takeOut f.ftag s)
  | none => if answersRl s h.src then rlAnswered false s else s

def cameRdr (addr : W32) (tag : BitVec 14) (pois : Bool) (d : W128) (s : State) : State :=
  match answered s addr tag with
  | some f => if f.wr then s else outData f d pois (takeOut f.ftag s)
  | none => s

/-- REMOTE_TIMEOUT (R328): RTMO µs since the router took the access. -/
def remoteTimeout (ftag : Nat) (s : State) : State :=
  match s.fab.out.find? (fun f => f.ftag == ftag && decide (f.at_ + 800 * s.halt.rtmo ≤ s.eclk)) with
  | some f => outFails f 0 0x15 (takeOut ftag s)
  | none => s
def execRemoteTimeout (ftag : Nat) (s : State) : Host.Outcome State Fault Refusal := .next (remoteTimeout ftag s)

/-! ### Survey and route load (R365 to R369) -/

/-- An SV at its target: a query is answered, an assignment applied; IDV as the host has written it in the same ECLK stands
(R448). -/
def cameSv (p : Nat) (x : Path) (assign : Bool) (id : BitVec 12) (s : State) : State :=
  if assign then { s with fab := { s.fab with id := id, idv := if setNow s (w1cKey 0x6008 12) then s.fab.idv else true } }
  else
    let b : Body := .svr (mkPath (pathBack p x)) s.straps.uid s.fab.id s.fab.idv s.fab.want s.fab.wantv (BitVec.ofNat 2 p)
      ([0, 1, 2, 3].map (portInfo s))
    sendPath [p] ⟨hdr s false 0 0 false, b⟩ s

/-- An SVR at the root, for the query that waits. -/
def cameSvr (p : Nat) (x : Path) (uid : W64) (id : BitVec 12) (idv : Bool) (want : BitVec 12) (wantv : Bool) (arr : BitVec 2)
    (ports : List PortInfo) (s : State) : State :=
  let path := pathBack p x
  if s.fab.survey.await == some path then
    nextNote (match s.fab.survey.leaving with
      | some n => leaveEnds n true s
      | none => svrCame path uid id idv want wantv arr.toNat ports s)
  else s

/-- SV_TIMEOUT (R365, R368): 10 µs without an SVR. -/
def svTimeout (s : State) : State :=
  if s.fab.survey.await.isSome && decide (s.fab.survey.awaitAt + 8000 ≤ s.eclk) then
    nextNote (match s.fab.survey.leaving with
      | some n => leaveEnds n false s
      | none => walkOn (setSurvey (fun v => { v with await := none }) s))
  else s
def execSvTimeout (s : State) : Host.Outcome State Fault Refusal := .next (svTimeout s)

/-- An RL at its target (R367); the answer, whose layout has no path (R353), leaves by the port it came from. -/
def cameRl (p : Nat) (h : Hdr) (last : Bool) (first : W16) (entries : List W32) (s : State) : State :=
  let reply := fun (b : Body) (s : State) => sendPath [p] ⟨hdr s false 0 h.src.toNat false, b⟩ s
  if h.src == 0 && s.fab.rlacc then
    let s := entries.zipIdx.foldl (fun s e => if first.toNat + e.2 < 4096 then writeRoute (first.toNat + e.2) e.1 s else s) s
    let s := reply (.ack 0 0) s
    if last then fabRec 0x45 0 0 (s.fab.nodes + 2 ^ 31) (BitVec.setWidth 64 s.fab.survey.code) { s with fab := { s.fab with surveyed := true } }
    else s
  else reply (.nak 0 0 1 0 0) s

/-- RL_TIMEOUT (R367): 100 µs without an answer. -/
def rlTimeout (s : State) : State :=
  match s.fab.load.sentAt with
  | some t => if s.fab.load.busy && decide (t + 80000 ≤ s.eclk) then endLoad 2 s else s
  | none => s
def execRlTimeout (s : State) : Host.Outcome State Fault Refusal := .next (rlTimeout s)

/-- A NOTE (R368, R369). -/
def cameNote (h : Hdr) (leave : Bool) (p : BitVec 2) (nbr : BitVec 12) (s : State) : State :=
  if s.fab.root && s.fab.auto then
    nextNote (setSurvey (fun x => { x with notes := x.notes ++ [(leave, h.src.toNat, p.toNat, nbr.toNat)] }) s)
  else s

/-! ### The synchronisation exchange (R370, R371) -/

/-- This node's Meridian in 2^-8 ns, at the RCLK period of the ECLK in which the character passes the pins. -/
def stampAt (s : State) (rclk : Nat) : W64 := BitVec.ofNat 64 ((s.mer.now + s.mer.inc * rclk / 8) / 2 ^ 24)

/-- SYNC_EXCHANGE: every PER µs, with a usable parent port.  The SYNQ's t1 is taken again as it leaves, in RCLK period `rclk`
of its ECLK (log entry 8). -/
def syncExchange (rclk : Nat) (s : State) : State :=
  match parentPort s with
  | none => s
  | some p =>
    if quiet s || !s.sync.en || !s.fab.en || s.sync.t1.isSome || decide (s.eclk < s.sync.lastAt + 800 * s.sync.per) then s
    else
      let s := { s with sync := { s.sync with t1 := some (stampAt s rclk), t1At := s.eclk, lastAt := s.eclk, pport := p } }
      queueTx p ⟨⟨hdr s true 0 (port s p).nbr.toNat false, .synq⟩, none, true, false, rclk⟩ s
def execSyncExchange (leave : Fin 8) (s : State) : Host.Outcome State Fault Refusal := .next (syncExchange leave s)

/-- An exchange has failed; the third in a row reports a lost path. -/
def syncFailed (s : State) : State :=
  let s := { s with sync := { s.sync with t1 := none, fails := min 255 (s.sync.fails + 1), good := 0 } }
  if 3 ≤ s.sync.fails then pathLost s else s

/-- SYNR_TIMEOUT: 10 µs without an SYNR. -/
def synrTimeout (s : State) : State :=
  if s.sync.t1.isSome && decide (s.sync.t1At + 8000 ≤ s.eclk) then syncFailed s else s
def execSynrTimeout (s : State) : Host.Outcome State Fault Refusal := .next (synrTimeout s)

/-- A SYNQ is answered on the port it came by (DESIGN CHOICE, log entry 8); t3 is taken as the SYNR leaves, in RCLK
period `leave` of its ECLK. -/
def cameSynq (p : Nat) (h : Hdr) (rclk leave : Nat) (s : State) : State :=
  let ref := s.fab.idv && s.fab.id == s.sync.tref
  queueTx p ⟨⟨hdr s true 0 h.src.toNat false, .synr (!(s.mer.sync || ref)) (stampAt s rclk) 0⟩, none, true, false, leave⟩ s

/-- The offset in 2^-24 ns, from stamps in 2^-8 ns and ASYM in ps (R370; log entry 8). -/
def syncOffset (asym : W16) (t1 t2 t3 t4 : W64) : Int :=
  ((t2 - t1) - (t4 - t3)).toInt * 2 ^ 15 + asym.toInt * 2 ^ 24 / 1000
/-- The delay in 2^-4 ns, saturating. -/
def syncDelay (t1 t2 t3 t4 : W64) : Nat := min 0xFFFF (((t4 - t1) - (t3 - t2)).toInt / 32).toNat

/-- The rate that goes with an offset (R370), clamped. -/
def syncRate (rate : W32) (o : Int) (per : Nat) : W32 :=
  BitVec.ofInt 32 (clampInt (-1099511628) 1099511628 (rate.toInt + o * 2 ^ 16 / ((4000 * per : Nat) : Int))).1

/-- In fabric mode an exchange corrects Meridian, and its lock is the source's (R240, R370). -/
def syncCorrect (o : Int) (s : State) : State :=
  if s.mer.src == 1 then
    let s := correct o (some (syncRate s.mer.rate o s.sync.per)) s
    trySync (if s.sync.lock then { s with mer := { s.mer with lock := true } } else s)
  else s

/-- An SYNR ends the exchange: a correction, and lock after LOCKN good ones. -/
def cameSynr (p : Nat) (nosync : Bool) (t2 t3 : W64) (rclk : Nat) (s : State) : State :=
  let t4 := stampAt s rclk
  match s.sync.t1 with
  | none => s
  | some t1 =>
    if p ≠ s.sync.pport then s
    else if nosync then syncFailed s
    else
      let o := syncOffset (port s p).asym t1 t2 t3 t4
      let near := decide (o.natAbs < 50 * 2 ^ 24)
      let good := if near then min 15 (s.sync.good + 1) else 0
      syncCorrect o { s with sync := { s.sync with t1 := none, fails := 0, good := good, exch := s.sync.exch + 1,
                                                   delay := BitVec.ofNat 16 (syncDelay t1 t2 t3 t4),
                                                   lock := s.sync.lock || decide (s.sync.lockn ≤ good) } }

/-! ### Every frame -/

/-- A frame that the router acts on at this node; `rclk` is the RCLK period in which a synchronisation frame came, and
`leave` that in which its answer leaves. -/
def act (p rclk leave : Nat) (f : Frame) (s : State) : State :=
  match f.body with
  | .wrs addr tag pois mask data => inWrs p f.hdr addr tag pois mask data s
  | .wr addr tag units => inWr p f.hdr addr tag units s
  | .rd addr tag mask => inRd p f.hdr addr tag mask s
  | .ev rnum => inEv p f.hdr rnum.toNat s
  | .ack addr tag => cameAck f.hdr addr tag s
  | .nak addr tag reason dom unit => cameNak f.hdr addr tag reason.toNat dom.toNat unit.toNat s
  | .rdr addr tag pois d => cameRdr addr tag pois d s
  | .note leave q nbr _ => cameNote f.hdr leave q nbr s
  | .reserved _ => refuse p f.hdr.dst.toNat f.hdr.src.toNat 2 s
  | .synq => cameSynq p f.hdr rclk leave s
  | .synr nosync t2 t3 => cameSynr p nosync t2 t3 rclk s
  | .sv x a id => cameSv p x a id s
  | .svr x u i v w wv arr ps => cameSvr p x u i v w wv arr ps s
  | .rl _ last first es => cameRl p f.hdr last first es s

/-- A good frame is taken: acted on, or sent on (R356, R366).  Its credit is returned as it leaves the buffer (R355). -/
def receiveAt (p rclk leave : Nat) (f : Frame) (s : State) : State :=
  match takeFrame p f s with
  | none => s
  | some s =>
    if !s.fab.en then freeFlits (some p) f s
    else
      match onward s p f with
      | some (g, q) => forward p f g q s
      | none => act p rclk leave f (freeFlits (some p) f s)
def receive (p : Nat) (f : Frame) (s : State) : State := receiveAt p 0 0 f s

/-- RX_WRS (R363). -/
def execRxWrs (p : Fin 4) (h : Hdr) (addr : W32) (tag : BitVec 14) (pois : Bool) (mask : W8) (data : W64) (s : State) :
    Host.Outcome State Fault Refusal := .next (receive p ⟨h, .wrs addr tag pois mask data⟩ s)
/-- RX_WR (R363). -/
def execRxWr (p : Fin 4) (h : Hdr) (addr : W32) (tag : BitVec 14) (units : List WUnit) (s : State) : Host.Outcome State Fault Refusal :=
  if wrUnitsOk units then .next (receive p ⟨h, .wr addr tag units⟩ s) else .fault .malformed
/-- RX_RD (R363). -/
def execRxRd (p : Fin 4) (h : Hdr) (addr : W32) (tag : BitVec 14) (mask : W16) (s : State) : Host.Outcome State Fault Refusal :=
  .next (receive p ⟨h, .rd addr tag mask⟩ s)
/-- RX_EV (R364). -/
def execRxEv (p : Fin 4) (h : Hdr) (rnum : BitVec 9) (s : State) : Host.Outcome State Fault Refusal := .next (receive p ⟨h, .ev rnum⟩ s)
/-- RX_ACK (R258, R367). -/
def execRxAck (p : Fin 4) (h : Hdr) (addr : W32) (tag : BitVec 14) (s : State) : Host.Outcome State Fault Refusal :=
  .next (receive p ⟨h, .ack addr tag⟩ s)
/-- RX_NAK (R363, R367). -/
def execRxNak (p : Fin 4) (h : Hdr) (addr : W32) (tag : BitVec 14) (reason dom : BitVec 4) (unit : BitVec 3) (s : State) :
    Host.Outcome State Fault Refusal := .next (receive p ⟨h, .nak addr tag reason dom unit⟩ s)
/-- RX_RDR (R363). -/
def execRxRdr (p : Fin 4) (h : Hdr) (addr : W32) (tag : BitVec 14) (pois : Bool) (data : W128) (s : State) :
    Host.Outcome State Fault Refusal := .next (receive p ⟨h, .rdr addr tag pois data⟩ s)

/-- RX_SYNQ (R370). -/
def execRxSynq (p : Fin 4) (h : Hdr) (at_ leave : Fin 8) (s : State) : Host.Outcome State Fault Refusal :=
  .next (receiveAt p at_ leave ⟨h, .synq⟩ s)
/-- RX_SYNR (R370, R371). -/
def execRxSynr (p : Fin 4) (h : Hdr) (nosync : Bool) (t2 t3 : W64) (at_ : Fin 8) (s : State) : Host.Outcome State Fault Refusal :=
  .next (receiveAt p at_ 0 ⟨h, .synr nosync t2 t3⟩ s)

/-- RX_SV (R366). -/
def execRxSv (p : Fin 4) (h : Hdr) (path : Path) (assign : Bool) (id : BitVec 12) (s : State) : Host.Outcome State Fault Refusal :=
  if pathOk path then .next (receive p ⟨h, .sv path assign id⟩ s) else .fault .malformed
/-- RX_SVR (R365, R366). -/
def execRxSvr (p : Fin 4) (h : Hdr) (path : Path) (uid : W64) (id : BitVec 12) (idv : Bool) (want : BitVec 12) (wantv : Bool)
    (arr : BitVec 2) (ports : List PortInfo) (s : State) : Host.Outcome State Fault Refusal :=
  if pathOk path && svrPortsOk ports then .next (receive p ⟨h, .svr path uid id idv want wantv arr ports⟩ s) else .fault .malformed
/-- RX_RL (R367). -/
def execRxRl (p : Fin 4) (h : Hdr) (path : Path) (last : Bool) (first : W16) (entries : List W32) (s : State) :
    Host.Outcome State Fault Refusal :=
  if pathOk path && rlEntriesOk entries then .next (receive p ⟨h, .rl path last first entries⟩ s) else .fault .malformed
/-- RX_NOTE (R368, R369). -/
def execRxNote (p : Fin 4) (h : Hdr) (leave : Bool) (port : BitVec 2) (nbr : BitVec 12) (nbrv : Bool) (s : State) :
    Host.Outcome State Fault Refusal := .next (receive p ⟨h, .note leave port nbr nbrv⟩ s)
/-- RX_RESERVED_KIND (R353). -/
def execRxReservedKind (p : Fin 4) (h : Hdr) (kind : BitVec 4) (s : State) : Host.Outcome State Fault Refusal :=
  if reservedKind kind then .next (receive p ⟨h, .reserved kind⟩ s) else .fault .malformed
/-- FRAME_FORWARD (R356, R357). -/
def execFrameForward (p : Fin 4) (f : Frame) (s : State) : Host.Outcome State Fault Refusal :=
  if frameOk f then .next (receive p f s) else .fault .malformed

/-! ### The root's commands (R365, R367) -/

/-- SURVEY_GO (R365). -/
def surveyGo (s : State) : State :=
  if !s.fab.root then s
  else
    let s := { s with fab := { s.fab with surveyed := false } }
    if s.fab.survey.busy then s else startSurvey s
def execSurveyGo (by_ : Initiator) (s : State) : Host.Outcome State Fault Refusal :=
  .next (regWrite by_ 0x6020 (.surveyGo by_) surveyGo s)

/-- STE_FAB_LOAD written (R367): NODE and IMAGE are written, and GO starts a load unless one runs; a load that runs
keeps those that it began with (log entry 20). -/
def writeLoad (v : W64) (s : State) : State :=
  let node := BitVec.ofNat 12 (fld v 11 0)
  let image := BitVec.ofNat 27 (fld v 63 37)
  let s := setLoad (fun x => { x with node := node, image := image }) s
  if bit v 12 && !s.fab.load.busy then startLoad node image s else s
/-- ROUTE_LOAD_GO (R367). -/
def execRouteLoadGo (by_ : Initiator) (v : W64) (s : State) : Host.Outcome State Fault Refusal :=
  .next (regWrite by_ 0x6028 (.routeLoadGo by_ v) (writeLoad (setBit v 12 true)) s)

end Sys2Proof.Machine
end

