-- ==== Sys2Proof/Machine/Guard.lean ====
section
/-! DEFINITION. Windowed counting, lasting faults and fences (R341 to R347, R424, R448). -/

namespace Sys2Proof.Machine

/-! ### Windows (R342) -/

/-- ERROR_WINDOW_END: COUNT returns to 0. -/
def windowEnd (cls : Nat) (s : State) : State := setErr cls (rolled s (errCls s cls)) s
def execErrorWindowEnd (cls : Fin 50) (s : State) : Host.Outcome State Fault Refusal := .next (windowEnd cls s)

/-- Units that have a fence (R341). -/
def fenceable (u : Nat) : Bool := (decide (3 ≤ u) && decide (u ≤ 6)) || (decide (11 ≤ u) && decide (u ≤ 18)) || (decide (20 ≤ u) && decide (u ≤ 24))

/-- STE_ERRC_CFG as a write leaves it: a new window starts, even when nothing changes, and an error of the same ECLK is its
first (R448). -/
def writeErrc (cls : Nat) (v : W64) (s : State) : State :=
  let e := errCls s cls
  let w := fld v 16 0
  setErr cls { e with window := if 1 ≤ w ∧ w ≤ 100000 then w else e.window, thresh := BitVec.ofNat 16 (fld v 47 32),
                      fence := bit v 48 && fenceable (cls / 2), count := BitVec.ofNat 16 (countNow s (w1cKey (0x7100 + 16 * cls) 0)),
                      from_ := mclk s } s
def errcOff (cls at_ : Nat) : Nat := 0x7100 + 16 * cls + at_
/-- ERRC_CFG_WRITE, which takes effect in the next MCLK period (R412). -/
def execErrcCfgWrite (by_ : Initiator) (cls : Fin 50) (v : W64) (s : State) : Host.Outcome State Fault Refusal :=
  .next (mgtWrite by_ (errcOff cls 0) (.errcCfgWrite by_ cls v) s)

/-! ### Fences (R344 to R346) -/

/-- A record of a fence of unit u: applied (0x53) or lifted (0x54). -/
def fenceRec (type_ u detail cls : Nat) (s : State) : State :=
  offerNow .mgt s.mgt.book type_ (unitKind u).1 (unitKind u).2 detail (BitVec.ofNat 64 cls) 0 s

/-- A Grid fence is set; the period is kept for a COMMIT switch in it (R448). -/
def setGridFence (n : Nat) (s : State) : State :=
  let f := s.fences
  let before := if f.gridAt = some (mclk s) then f.gridSet else 0
  { s with fences := { f with grid := setBit f.grid n true, gridSet := setBit before n true, gridAt := some (mclk s) } }

/-- Unit u's bit of STE_FENCE. -/
def fenced (s : State) (u : Nat) : Bool :=
  if 3 ≤ u ∧ u ≤ 6 then bit s.fences.grid (u - 3)
  else if 11 ≤ u ∧ u ≤ 18 then bit s.fences.lane (u - 11)
  else if 20 ≤ u ∧ u ≤ 23 then bit s.fences.link (u - 20) else false

def setFence (u : Nat) (s : State) : State :=
  if 3 ≤ u ∧ u ≤ 6 then setGridFence (u - 3) s
  else if 11 ≤ u ∧ u ≤ 18 then { s with fences := { s.fences with lane := setBit s.fences.lane (u - 11) true } }
  else { s with fences := { s.fences with link := setBit s.fences.link (u - 20) true } }

/-- The lasting rule fences unit u of class cls; a fence that stands already is not applied again.  The leg-fetch
port's fence is the held halt (R336). -/
def hardFence (cls : Nat) (s : State) : State :=
  let u := cls / 2
  if decide (u = 24) || !fenceable u || fenced s u then s else fenceRec 0x53 u 0 cls (setFence u s)

/-- A host value stands in STE_FENCE.LANE and LINK for its period (R448). -/
def hostStands (s : State) (u : Nat) : Bool := decide (11 ≤ u) && decide (s.fences.hostAt = some (mclk s))

/-- The cause of class cls is lasting: LASTING, LASTCNT and the record (R342, steps 1 and 2). -/
def setLasting (cls n : Nat) (s : State) : State :=
  let e := errCls s cls
  let s := markSet (w1cKey (errcOff cls 8) 16) s
  let s := setErr cls { e with lasting := true, lastcnt := sat16 e.lastcnt, lastPend := none, fencePend := e.fence } s
  offerNow .mgt s.mgt.book 0x52 (unitKind (cls / 2)).1 (unitKind (cls / 2)).2 cls (BitVec.ofNat 64 n) 0 s

/-- A fence that is to be applied, now or in the next MCLK period (R342, step 3; R448). -/
def applyFence (cls : Nat) (s : State) : State :=
  let e := errCls s cls
  if !e.fencePend || hostStands s (cls / 2) then s else hardFence cls (setErr cls { e with fencePend := false } s)

/-- LASTING_FAULT (R342): in an MCLK period after the one in which COUNT came to exceed THRESH. -/
def lastingFault (cls : Nat) (s : State) : State :=
  match (errCls s cls).lastPend with
  | some (m, n) => if m < mclk s then applyFence cls (setLasting cls n s) else s
  | none => applyFence cls s
def execLastingFault (cls : Fin 50) (s : State) : Host.Outcome State Fault Refusal := .next (lastingFault cls s)

/-- Bits of `new` and not of `old`, lowest first. -/
def risen {n : Nat} (old new : BitVec n) : List Nat := (List.range n).filter (fun i => new.getLsbD i && !old.getLsbD i)

/-- The lane under test, whose fence is not lifted before the test has stopped (R424). -/
def laneTested (s : State) : Option Nat :=
  let t := s.mgt.test.unit.toNat
  if s.mgt.test.busy && decide (11 ≤ t) && decide (t ≤ 18) then some (t - 11) else none

/-- A write of STE_FENCE (R344, R347). -/
def writeFence (v : W32) (s : State) : State :=
  let f := s.fences
  let lane := BitVec.ofNat 8 (fld v 7 0)
  let link := BitVec.ofNat 4 (fld v 11 8)
  let grid := BitVec.ofNat 4 (fld v 15 12) ||| f.grid
  let wait := match laneTested s with | some l => bit f.lane l && !bit lane l | none => false
  let lane := match laneTested s with | some l => if wait then setBit lane l true else lane | none => lane
  let s := { s with mgt := { s.mgt with test := { s.mgt.test with liftPend := wait } } }
  let s := (risen f.grid grid).foldl (fun s n => setGridFence n s) s
  let s := { s with fences := { s.fences with lane := lane, link := link, gmode := BitVec.ofNat 4 (fld v 19 16), hostAt := some (mclk s) } }
  let s := (risen f.lane lane).foldl (fun s l => fenceRec 0x53 (11 + l) 1 0 s) s
  let s := (risen f.link link).foldl (fun s p => fenceRec 0x53 (20 + p) 1 0 s) s
  let s := (risen f.grid grid).foldl (fun s n => fenceRec 0x53 (3 + n) 1 0 s) s
  let s := (risen lane f.lane).foldl (fun s l => fenceRec 0x54 (11 + l) 1 0 s) s
  (risen link f.link).foldl (fun s p => fenceRec 0x54 (20 + p) 1 0 s) s
/-- FENCE_WRITE (R344), which takes effect in the next MCLK period (R412). -/
def execFenceWrite (by_ : Initiator) (v : W32) (s : State) : Host.Outcome State Fault Refusal :=
  .next (mgtWrite by_ 0x7080 (.fenceWrite by_ v) s)

/-- The start of an MCLK period: the fences of the last period come into force (R346); a link that is now fenced is lost to
routing (R20, R362). -/
def fencesInForce (s : State) : State :=
  let f := s.fences
  let s := { s with fences := { f with onLane := f.lane, onLink := f.link, onGrid := f.grid } }
  ((risen f.onLink f.link).filter (fun p => (port s p).up)).foldl (fun s p => portLost p s) s

/-- Fences that waited are applied, unless a host value stands in this MCLK period also (R448). -/
def fencesAgain (s : State) : State :=
  let due := (s.errs.filter (fun e => e.2.fencePend)).map (·.1)
  due.foldl (fun s cls => applyFence cls s) s

end Sys2Proof.Machine
end

