-- ==== Sys2Proof/Machine/Boundary.lean ====
section
/-! DEFINITION. The boundary with the ZR7: power domains (R377 to R383, R452), flash (R384 to R386) and the debug path
(R391, R392). -/

namespace Sys2Proof.Machine

def setPower (f : Power → Power) (s : State) : State := { s with power := f s.power }

/-! ### Power domains -/

/-- The channels with VETO = 1 (R40). -/
def vetoing (s : State) : List Nat := (s.legends.filter (fun e => bit e.2 8)).map (·.1)

/-- PDREQ_RISE (R377): the request window opens; during a reset PDACK follows PDREQ (R399). -/
def pdreqRise (d : Nat) (s : State) : State :=
  if bit s.power.pdreq d then s
  else if quiet s then setPower (fun p => { p with pdreq := setBit p.pdreq d true, pdack := setBit p.pdack d true }) s
  else setPower (fun p => { p with pdreq := setBit p.pdreq d true, window := setBit p.window d true, openAt := tput p.openAt d s.eclk,
                                   vets := tset [] p.vets d (vetoing s),
                                   vetoes := p.vetoes.filter (fun v => v.1 != d) }) s
def execPdreqRise (d : Fin 16) (s : State) : Host.Outcome State Fault Refusal := .next (pdreqRise d s)

/-- Domain d is up again: the inputs wired to it may qualify (R185), and its held channels go on in the next ECLK (R382). -/
def domainBack (d : Nat) (s : State) : State :=
  requalifyAll s d (setPower (fun p => { p with
    pgood := setBit p.pgood d true, down := setBit p.down d false, owes := setBit p.owes d false,
    back := p.back ++ [(d, s.eclk + 1, bit p.owes d)] }) s)

/-- PDREQ_DROP (R377, R381, R452): PDACK and PDNAK end; a window still open closes; a good domain that was shut is up again. -/
def pdreqDrop (d : Nat) (s : State) : State :=
  let ends := setPower (fun p => { p with pdreq := setBit p.pdreq d false, pdack := setBit p.pdack d false, pdnak := setBit p.pdnak d false,
                                          window := setBit p.window d false, vetoes := p.vetoes.filter (fun v => v.1 != d) })
  if !bit s.power.pdreq d then s
  else if quiet s then setPower (fun p => { p with down := setBit p.down d (bit p.down d && !bit p.pgood d) }) (ends s)
  else if bit s.power.pgood d && !domainUp s d then domainBack d (ends s)
  else ends s
def execPdreqDrop (d : Fin 16) (s : State) : Host.Outcome State Fault Refusal := .next (pdreqDrop d s)

/-- PGOOD_FALL (R452); the inputs wired to the domain lose their qualification (R185). -/
def pgoodFall (d : Nat) (s : State) : State :=
  if !bit s.power.pgood d then s
  else
    let t := setPower (fun p => { p with pgood := setBit p.pgood d false, window := setBit p.window d false, down := setBit p.down d true,
                                         vetoes := p.vetoes.filter (fun v => v.1 != d), owes := setBit p.owes d true }) s
    requalifyAll s d t
def execPgoodFall (d : Fin 16) (s : State) : Host.Outcome State Fault Refusal := .next (pgoodFall d s)

/-- A power-domain record (R379, R380, R382). -/
def pdRec (type_ d detail : Nat) (w2 : W64) (s : State) : State :=
  if s.power.recEn then offerNow .data s.power.book type_ 8 d detail w2 0 s else s

def isHeldIn (s : State) (d c : Nat) : Bool := decide ((ctx s c).r.state = .held) && decide ((ctx s c).r.desc = .domain d)
/-- The channels in HELD for domain d, in ascending number. -/
def heldIn (s : State) (d : Nat) : List Nat := (s.ctxs.map (·.1)).filter (isHeldIn s d)

/-- DOMAIN_RETURN (R377, R382): PGOOD is 1, and PDREQ is 0 or was refused in an earlier ECLK, so the domain is up; in a reset
only PGOOD is noted. -/
def domainReturn (d : Nat) (s : State) : State :=
  if bit s.power.pdreq d && (!bit s.power.pdnak d || bit s.power.down d || decide (tget 0 s.power.nakAt d = s.eclk)) then s
  else if quiet s then setPower (fun p => { p with pgood := setBit p.pgood d true, down := setBit p.down d false }) s
  else domainBack d s

/-- The channels in HELD for domain d go on in ACTIVE (R382). -/
def comeBack (d : Nat) (owes : Bool) (s : State) : State :=
  let held := heldIn s d
  let s := held.foldl (fun s c => continueCh c (leaveWait c s)) s
  if owes then pdRec 0x62 d held.length 0 s else s
/-- Those whose ECLK has come. -/
def backNow (s : State) : State :=
  let due := s.power.back.filter (fun e => decide (e.2.1 ≤ s.eclk))
  due.foldl (fun s e => comeBack e.1 e.2.2 s) (setPower (fun p => { p with back := p.back.filter (fun e => !decide (e.2.1 ≤ s.eclk)) }) s)
def execDomainReturn (d : Fin 16) (s : State) : Host.Outcome State Fault Refusal := .next (domainReturn d s)

/-- A burst that is under way has issued an access to domain d. -/
def burstIn (d : Nat) (x : LaneSt) : Bool := match x.burst with | some b => bit b.doms d | none => false

/-- Nothing keeps domain d from its release (R379). -/
def releasable (s : State) (d : Nat) : Bool :=
  !s.outst.any (fun a => domainOf s a.blk == some d) && !s.fetches.any (fun f => f.issued && domainOf s f.addr == some d) &&
  !s.lanes.any (fun e => burstIn d e.2)

def windowAge (s : State) (d : Nat) : Nat := s.eclk - tget s.eclk s.power.openAt d

/-- PDACK (R379); the inputs wired to the domain lose their qualification (R185). -/
def pdackNow (d : Nat) (s : State) : State :=
  let s0 := s
  if !bit s.power.window d || decide (windowAge s d < s.power.settle) || !releasable s d || s.power.vetoes.any (fun v => v.1 == d) then s
  else
    let s := setPower (fun p => { p with pdack := setBit p.pdack d true, window := setBit p.window d false, down := setBit p.down d true,
                                         owes := setBit p.owes d true }) s
    let s := requalifyAll s0 d s
    pdRec 0x60 d (heldIn s d).length (BitVec.ofNat 64 (windowAge s d)) s
def execPdack (d : Fin 16) (s : State) : Host.Outcome State Fault Refusal := .next (pdackNow d s)

/-- PDNAK (R379): a vetoing channel has entered HELD in the window, in an earlier ECLK; the domain is up from the next ECLK
(R377), and its held channels go on in the one after (R382). -/
def pdnakNow (d : Nat) (s : State) : State :=
  match s.power.vetoes.find? (fun v => v.1 == d) with
  | none => s
  | some (_, c, a, at_) =>
    if !bit s.power.window d || decide (s.eclk ≤ at_) then s
    else
      let s := markSet (w1cKey 0xB8 (32 + d)) s
      let s := setPower (fun p => { p with pdnak := setBit p.pdnak d true, nakd := setBit p.nakd d true, window := setBit p.window d false,
                                           nakAt := tput p.nakAt d s.eclk, vetoes := p.vetoes.filter (fun v => v.1 != d),
                                           back := p.back ++ [(d, s.eclk + 2, false)] }) s
      pdRec 0x61 d c (BitVec.setWidth 64 a) s
def execPdnak (d : Fin 16) (s : State) : Host.Outcome State Fault Refusal := .next (pdnakNow d s)

/-! ### Flash (R384 to R386) -/

def inBank (s : State) (b : Nat) (f : Fetch) : Bool := flashBank s f.addr == some b

/-- BANKBUSY_SET: prefetches that wait are dropped, demand fetches hold their channels, and fetches under way note it. -/
def bankSet (b : Nat) (s : State) : State :=
  if bit s.flash.busy b then s
  else
    let s := { s with flash := { s.flash with busy := setBit s.flash.busy b true } }
    let note := fun (f : Fetch) => { f with busySeen := true }
    let kept := s.fetches.filter (fun f => !(inBank s b f && decide (f.kind = .prefetch) && !f.issued && !f.denied))
    let s := { s with fetches := modWhere (fun f => inBank s b f && f.issued) note kept }
    let held := s.fetches.filter (fun f => inBank s b f && !f.issued && !f.denied)
    held.foldl (fun s f => (fetchWaiters f).foldl (fun s c => flashHold c f.addr s) s) s
def execBankbusySet (b : Fin 4) (s : State) : Host.Outcome State Fault Refusal := .next (bankSet b s)

def inFlashWait (s : State) (b c : Nat) : Bool := decide ((ctx s c).r.state = .wait) && decide ((ctx s c).r.desc = .flash b)

/-- BANKBUSY_CLEAR: the channels held for the bank go on, and their fetches are issued. -/
def bankClear (b : Nat) (s : State) : State :=
  if !bit s.flash.busy b then s
  else
    let s := { s with flash := { s.flash with busy := setBit s.flash.busy b false } }
    let held := (s.ctxs.map (·.1)).filter (inFlashWait s b)
    held.foldl (fun s c => continueCh c (leaveWait c s)) s
def execBankbusyClear (b : Fin 4) (s : State) : Host.Outcome State Fault Refusal := .next (bankClear b s)

/-- FLASH_TIMEOUT (R386). -/
def flashTimeout (c : Nat) (s : State) : State :=
  if decide ((ctx s c).r.state = .wait) && decide ((ctx s c).r.wait = .flashBusy) && decide (s.flash.tmo * 800 ≤ (ctx s c).w.flashCnt) then
    let s := faultPc c 0x22 s
    { s with flash := { s.flash with tmocnt := sat16 s.flash.tmocnt } }
  else s
def execFlashTimeout (c : Fin 1024) (s : State) : Host.Outcome State Fault Refusal := .next (flashTimeout c s)

/-! ### The debug path (R391, R392) -/

def debugWant (id : Nat) (write : Bool) (addr : W32) (size : Nat) (d : W128) : Want :=
  let at_ := addr.toNat % 16
  { owner := .debug id, wr := write, colour := 14, gaddr := localAddr addr, mask := maskAt at_ size,
    data := if write then placeBytes 0 at_ size d.toNat else 0, home := 0, rank := rankDebug, ord := 10, srck := 2, srcn := 0 }

/-- A debug access enters the path, which holds up to four (R391). -/
def debugStart (write : Bool) (addr : W32) (size : Nat) (d : W128) (s : State) : State :=
  if inReset s || decide (4 ≤ s.dbg.path.length) then s
  else
    let id := s.dbg.nextId
    let s := { s with dbg := { s.dbg with nextId := id + 1, path := s.dbg.path ++ [⟨id, write, addr, size, none⟩] } }
    submit (debugWant id write addr size d) s
/-- DEBUG_ACCESS (R391). -/
def execDebugAccess (write : Bool) (addr : W32) (size : Nat) (d : W128) (s : State) : Host.Outcome State Fault Refusal :=
  if debugOk addr size then .next (debugStart write addr size d s) else .fault .malformed

end Sys2Proof.Machine
end

