-- ==== Sys2Proof/Machine/Resets.lean ====
section
/-! DEFINITION. Resets (R396 to R399), readiness (R402, R403) and the spread of the root clock (R406, R407). -/

namespace Sys2Proof.Machine

/-! ### Resets -/

/-- The depth in force or waiting: what STE_SPREAD.DEPTH reads. -/
def depthRead (s : State) : BitVec 2 := s.glob.depthNew.getD s.glob.depth

/-- The engine with every register, table and store at its reset state (R397).  What the ZR7 drives stays: the wiring,
the levels of its signals, the errors it brings in, and the commands that wait; so do the spread in force and its profile (R407); a domain whose PDREQ is still 1 is down, with PDACK following
PDREQ (R399). -/
def cleared (s : State) : State :=
  { State.reset with
    pending := s.pending, straps := s.straps, free := s.free, nextTag := s.nextTag, upsets := s.upsets
    power := { ({} : Power) with pgood := s.power.pgood, pdreq := s.power.pdreq, down := s.power.pdreq, pdack := s.power.pdreq }
    glob := { ({} : Glob) with depth := depthRead s, profile := s.glob.profile }
    flash := { ({} : Flash) with busy := s.flash.busy }
    dbg := { ({} : Dbg) with unlock := s.dbg.unlock, prev := s.dbg.unlock } }

/-- COLD_RESET (R396, R397): from the assertion of the reset to its release. -/
def coldReset (s : State) : State := { cleared s with glob := {} }
def execColdReset (s : State) : Host.Outcome State Fault Refusal := .next (coldReset s)

/-- WARM_RESET (R397): DEPTH, WARMCNT and ENGCNT are kept. -/
def warmReset (s : State) : State :=
  let g := s.glob
  let t := cleared s
  { t with glob := { t.glob with cause := 1, warmcnt := g.warmcnt + 1, engcnt := g.engcnt } }
def execWarmReset (s : State) : Host.Outcome State Fault Refusal := .next (warmReset s)

/-- ENGINE_RESET_REQUEST (R398): STE_GLOBAL_CTRL written with RSTREQ = 1. -/
def resetRequest (key : W8) (s : State) : State :=
  if key = 0xA5 then { s with glob := { s.glob with phase := .stopping s.eclk } } else s
def execEngineResetRequest (by_ : Initiator) (key : W8) (s : State) : Host.Outcome State Fault Refusal :=
  .next (regWrite by_ 0x20 (.engineResetRequest by_ key) (resetRequest key) s)

/-- Step 1 of R398, in ECLK a + 1: outputs inactive at reset POL, links stopped, PDACK following PDREQ (R399). -/
def resetStop (s : State) : State :=
  { s with
    evos := []
    fab := { s.fab with ports := [] }
    power := { s.power with pdack := s.power.pdreq, pdnak := 0, window := 0, vetoes := [] } }

/-- ENGINE_RESET_WAIT_END (R398, steps 3 and 4): no local tag is held, or 51,200 ECLK have passed; responses that
come later find no access. -/
def resetWaitEnd (s : State) : State :=
  match s.glob.phase with
  | .stopping a =>
    if s.eclk < a + 4 then s
    else if decide (locUse s ≠ 0) && decide (s.eclk < a + 51204) then s
    else
      let g := s.glob
      let t := cleared s
      { t with eclk := s.eclk, glob := { t.glob with tagtmo := decide (locUse s ≠ 0), warmcnt := g.warmcnt, engcnt := g.engcnt,
                                                     phase := .internal s.eclk } }
  | _ => s
def execEngineResetWaitEnd (s : State) : Host.Outcome State Fault Refusal := .next (resetWaitEnd s)

/-- RESET_RELEASE (R398): ECLK t + 17 is ECLK 0, and Meridian reads 0. -/
def resetRelease (s : State) : State :=
  match s.glob.phase with
  | .internal t =>
    if s.eclk < t + 17 then s
    else
      let g := s.glob
      let u := cleared s
      { u with glob := { u.glob with cause := 2, tagtmo := g.tagtmo, warmcnt := g.warmcnt, engcnt := g.engcnt + 1 } }
  | _ => s
def execResetRelease (s : State) : Host.Outcome State Fault Refusal := .next (resetRelease s)

/-! ### Readiness (R402) -/

def setReady (bit : ReadyBit) (s : State) : State :=
  match bit with
  | .ctx => { s with glob := { s.glob with readyCtx := true } }
  | .grid => { s with glob := { s.glob with readyGrid := true } }
  | .grat => { s with glob := { s.glob with readyGrat := true } }
  | .lane l => setLane l { lane s l with ready := true } s
  | .slot n => { s with glob := { s.glob with readySlot := setBit s.glob.readySlot n true } }

/-- READY_BIT_SET. -/
def execReadyBitSet (bit : ReadyBit) (s : State) : Host.Outcome State Fault Refusal := .next (if inReset s then s else setReady bit s)

/-- The latest ECLK at which each bit sets. -/
def readyByNow (s : State) : State :=
  if s.eclk = 2 then setReady .ctx (setReady .grid s)
  else if s.eclk = 272 then (List.finRange 8).foldl (fun s l => setReady (.lane l) s) s
  else if s.eclk = 512 then setReady .grat s
  else s

/-- Slot n sets by ECLK 16 + 2n. -/
def slotByNow (s : State) : State :=
  if decide (16 ≤ s.eclk) && decide (s.eclk < 144) && s.eclk % 2 == 0 then
    { s with glob := { s.glob with readySlot := setBit s.glob.readySlot ((s.eclk - 16) / 2) true } }
  else s

/-! ### Spread (R406, R407, R448) -/

/-- A write of DEPTH: 3 is ignored; a depth other than that in force waits for the top of the profile. -/
def writeSpread (depth : BitVec 2) (s : State) : State :=
  if depth = 3 then s
  else { s with glob := { s.glob with depthNew := if depth = s.glob.depth then none else some depth } }
/-- SPREAD_WRITE. -/
def execSpreadWrite (by_ : Initiator) (depth : BitVec 2) (s : State) : Host.Outcome State Fault Refusal :=
  .next (regWrite by_ 0x28 (.spreadWrite by_ depth) (writeSpread depth) s)

/-- The modulator's frequency word m in units of 2^-32 (R234, R407): a triangle of 32 µs, 0 at its top and the depth, 1/400 or
1/200, at its middle. -/
def spreadM (s : State) : Nat :=
  let x := min s.glob.profile (32000 * 2 ^ 32 - s.glob.profile)
  match s.glob.depth.toNat with
  | 0 => 0
  | 1 => roundDiv x (400 * 16000)
  | _ => roundDiv x (200 * 16000)

/-- How long an ECLK lasts, in 2^-32 ns. -/
def eclkTime (s : State) : Nat := roundDiv (5 * 2 ^ 30 * 2 ^ 32) (2 ^ 32 - spreadM s)
/-- The profile one ECLK later (R407). -/
def profileNext (s : State) : Nat := (s.glob.profile + eclkTime s) % (32000 * 2 ^ 32)

/-- SPREAD_APPLY: at the top of the profile, which begins there anew. -/
def spreadApply (s : State) : State :=
  match s.glob.depthNew with
  | some d =>
    if decide (s.glob.depth = 0) || decide (s.glob.profile < eclkTime s) then
      { s with glob := { s.glob with depth := d, depthNew := none, profile := 0 } }
    else s
  | none => s
def execSpreadApply (s : State) : Host.Outcome State Fault Refusal := .next (spreadApply s)

end Sys2Proof.Machine
end

