-- ==== Sys2Proof/Machine/Mgmt.lean ====
section
/-! DEFINITION. The management plane: scrubbing (R414 to R417), self-test (R423 to R425) and telemetry (R421, R422). -/

namespace Sys2Proof.Machine

def setScrub (f : Scrub → Scrub) (s : State) : State := { s with mgt := { s.mgt with scrub := f s.mgt.scrub } }

/-! ### The stores as the scrubber walks them (R27, R270) -/

/-- Codewords of a store. -/
def storeSize (store : Nat) : Nat :=
  match store with
  | 0 => 32768
  | 1 => 8192
  | 2 => 16384
  | 3 | 4 | 5 | 6 => 32768
  | 7 => 4096
  | 8 => 2048
  | 9 => 256
  | 10 => 32
  | _ => 512

/-- The scrub port: the Grid's banks share one, and so do the holding buffers (R27). -/
def scrubPort (store : Nat) : Nat := if 3 ≤ store ∧ store ≤ 6 then 3 else if 11 ≤ store then 11 else store

/-- The table-window offset of codeword k of a store (R437). -/
def storeOffset (store k : Nat) : W64 :=
  match store with
  | 0 => ctxOffset k
  | 2 => BitVec.ofNat 64 (0x100000 + 8 * k)
  | 3 | 4 | 5 | 6 => BitVec.ofNat 64 (8 * (32768 * (store - 3) + k))
  | 7 => BitVec.ofNat 64 (0x160000 + 8 * k)
  | 8 => BitVec.ofNat 64 (0x168000 + 8 * k)
  | 9 => BitVec.ofNat 64 (0x16C000 + 8 * k)
  | 10 => BitVec.ofNat 64 (0x16C800 + 8 * k)
  | _ => Config.scrubWord store k

/-- A Grid word that nothing has written or looked up, and that no self-test has touched: it counts as correct (R404). -/
def uninitialised (s : State) (store k : Nat) : Bool :=
  decide (3 ≤ store) && decide (store ≤ 6) && (tfind? s.atlas.grid (32768 * (store - 3) + k)).isNone && !s.atlas.gridUndef.contains (store - 3)

/-- The line of the leg cache that codeword k lies in: 16 codewords a line, 8 lines a set. -/
def cacheLine (s : State) (k : Nat) : Option CLine := (s.lcache.filter (fun e => setOf e.addr == k / 128))[k / 16 % 8]?

/-- What an uncorrectable word of a store does when the scrubber finds it (R340, R417). -/
def loseWord (store k : Nat) (s : State) : State :=
  match store with
  | 0 => cleanWord (0, storeKey 0 k) (loseContext k s)
  | 1 =>
    (match cacheLine s k with
     | some e => { s with lcache := s.lcache.filter (fun x => !decide (x = e)) }
     | none => s)
  | 2 => if (entry s (k / 4)).isSome then loseEntry (k / 4) s else cleanWord (2, storeKey 2 k) s
  | 3 | 4 | 5 | 6 | 7 | 8 | 9 | 10 => addBad (store, storeKey store k) s
  | _ => setLane (store - 11) { lane s (store - 11) with upset := false } s
where
  addBad (w : Nat × Nat) (s : State) : State :=
    if s.atlas.bad.contains w then s else { s with atlas := { s.atlas with bad := s.atlas.bad ++ [w] } }

/-- The word is corrected and written back (R340). -/
def fixWord (store k : Nat) (s : State) : State :=
  match store with
  | 1 =>
    (match cacheLine s k with
     | some e => { s with lcache := modWhere (fun x => decide (x = e)) (fun x => { x with soft := false }) s.lcache }
     | none => s)
  | 0 | 2 | 3 | 4 | 5 | 6 | 7 | 8 | 9 | 10 =>
    { s with atlas := { s.atlas with soft := s.atlas.soft.filter (fun x => !decide (x = (store, storeKey store k))) } }
  | _ => setLane (store - 11) { lane s (store - 11) with soft := false } s

def foundOf (bad soft : Bool) : Found := if bad then .uncorrected else if soft then .corrected else .clean
/-- What the scrubber finds: what the command says, else the error that the word holds (log entry 46). -/
def scrubFinds (s : State) (store k : Nat) (found : Found) : Found :=
  if uninitialised s store k then .clean
  else if found ≠ .clean then found
  else
    match store with
    | 1 => (match cacheLine s k with | some e => foundOf e.bad e.soft | none => .clean)
    | 0 | 2 | 3 | 4 | 5 | 6 | 7 | 8 | 9 | 10 => heldError s (store, storeKey store k)
    | _ => foundOf (lane s (store - 11)).upset (lane s (store - 11)).soft

/-! ### Scrubbing -/

/-- The scrubber passes this store over in the present ECLK (R414, R423). -/
def scrubSkips (s : State) (store : Nat) : Bool :=
  s.mgt.scrub.dis.getLsbD store ||
  (decide (3 ≤ store) && decide (store ≤ 6) && bit s.fences.onGrid (store - 3)) ||
  (decide (11 ≤ store) && (burstOn s (store - 11)).isSome) ||
  (s.mgt.test.busy && decide (s.mgt.test.unit.toNat = store))

/-- The walk passes its last codeword (R417). -/
def passDone (store : Nat) (s : State) : State :=
  let x := s.mgt.scrub
  let n := tget 0 x.pass store + 1
  let fixed := tget 0 x.fixed store
  let s := setScrub (fun x => { x with pass := tset 0 x.pass store n, fixed := tset 0 x.fixed store 0, passes := x.passes + 1 }) s
  if x.passRec then offerNow .mgt s.mgt.book 0x56 7 store (n % 2 ^ 32) (BitVec.ofNat 64 fixed) 0 s else s

/-- One codeword is read, and what is found is counted and acted on; the walk goes on. -/
def scrubWord (store : Nat) (found : Found) (s : State) : State :=
  let k := tget 0 s.mgt.scrub.pos store
  let at_ := storeOffset store k
  let s := match scrubFinds s store k found with
    | .clean => s
    | .corrected =>
      setScrub (fun x => { x with fixed := tset 0 x.fixed store (tget 0 x.fixed store + 1) }) (fixWord store k (corrected store 1 at_ s))
    | .uncorrected => loseWord store k (uncorrected store 1 at_ s)
  let last := decide (storeSize store ≤ k + 1)
  let s := setScrub (fun x => { x with pos := tset 0 x.pos store (if last then 0 else k + 1),
                                       nextAt := tset 0 x.nextAt (scrubPort store) (mclk s + x.gap),
                                       waitFrom := tset 0 x.waitFrom store (4 * (mclk s + x.gap)) }) s
  if last then passDone store s else s

/-- SCRUB_STEP (R414): a step in an ECLK that the store has free. -/
def scrubStep (store : Nat) (found : Found) (s : State) : State :=
  if quiet s || scrubSkips s store || decide (mclk s < tget 0 s.mgt.scrub.nextAt (scrubPort store)) then s
  else scrubWord store found s
def execScrubStep (store : Fin 19) (found : Found) (s : State) : Host.Outcome State Fault Refusal := .next (scrubStep store found s)

/-! ### Telemetry (R421, R422) -/

def setTele (f : Tele → Tele) (s : State) : State := { s with mgt := { s.mgt with tele := f s.mgt.tele } }

/-- A snapshot is requested in MCLK period m; one that waits already takes it in. -/
def teleAsk (m : Nat) (s : State) : State := setTele (fun t => { t with pend := t.pend.orElse (fun _ => some m) }) s
/-- SNAP written in the MCLK period before: the capture may come in this one (R412, R422). -/
def teleSnap (s : State) : State := teleAsk (mclk s - 1) s
/-- TELE_SNAP, which takes effect in the next MCLK period. -/
def execTeleSnap (by_ : Initiator) (s : State) : Host.Outcome State Fault Refusal :=
  .next (mgtWrite by_ 0x7040 (.teleSnap by_) s)

/-- TELE_PERIOD_EXPIRY: PER ms, measured as 200,000 MCLK periods each. -/
def telePeriod (s : State) : State :=
  let t := s.mgt.tele
  if quiet s || decide (t.per = 0) || decide (mclk s < t.periodAt + t.per * 200000) then s
  else teleAsk (mclk s) (setTele (fun t => { t with periodAt := mclk s }) s)
def execTelePeriodExpiry (s : State) : Host.Outcome State Fault Refusal := .next (telePeriod s)

def capture (s : State) : State :=
  let r := (ctx s s.mgt.tele.ch).r
  let busy := (s.lanes.map (fun e => (e.1, e.2.busy))).foldl (fun t e => tset 0 t e.1 e.2) ([] : Tbl W32)
  setTele (fun t => { t with pend := none, snapv := true, stamp := merWord s, energy := BitVec.ofNat 64 (t.blkEnergy16 / 16), bytes := t.blkBytes,
                             laneBusy := busy, chEnergy := r.energy16 / 16, chBytes := r.bytes }) s

/-- A capture may be made: from the MCLK period after the request. -/
def captureDue (s : State) : Bool := match s.mgt.tele.pend with | some m => decide (m < mclk s) | none => false

/-- TELE_CAPTURE. -/
def teleCapture (s : State) : State := if !quiet s && captureDue s then capture s else s
def execTeleCapture (s : State) : Host.Outcome State Fault Refusal := .next (teleCapture s)

/-- SCRUB_FORCED_SLOT (R415): a read has waited 4,096 ECLK; a capture that waits goes first in the context store's
slot (R422). -/
def forcedSlot (store : Nat) (found : Found) (s : State) : State :=
  if quiet s || scrubSkips s store || decide (s.eclk < tget 0 s.mgt.scrub.waitFrom store + 4096) then s
  else
    let s := setScrub (fun x => { x with forced := sat16 x.forced, waitFrom := tset 0 x.waitFrom store s.eclk }) s
    if decide (store = 0) && captureDue s then capture s else scrubWord store found s
def execScrubForcedSlot (store : Fin 11) (found : Found) (s : State) : Host.Outcome State Fault Refusal := .next (forcedSlot store found s)

/-! ### Self-test -/

def setTest (f : SelfTest → SelfTest) (s : State) : State := { s with mgt := { s.mgt with test := f s.mgt.test } }

/-- The code with which a test of unit u is refused; none when it starts (R423). -/
def testRefused (s : State) (u : Nat) : Option (BitVec 3) :=
  if 11 ≤ u ∧ u ≤ 18 then
    (if bit s.fences.onLane (u - 11) && bit s.fences.lane (u - 11) && (burstOn s (u - 11)).isNone then none else some 2)
  else if u ≤ 10 then none else some 3

/-- GO with TARGET u. -/
def testGo (s : State) : State :=
  let t := s.mgt.test
  if t.busy then markSet (w1cKey 0x7020 10) (setTest (fun t => { t with cmdlost := true }) s)
  else
    match testRefused s t.target.toNat with
    | some code => setTest (fun t => { t with code := code, res := 0 }) s
    | none =>
      let u := t.target.toNat
      let march := decide (3 ≤ u) && decide (u ≤ 6) && bit s.fences.grid (u - 3)
      setTest (fun t => { t with busy := true, unit := t.target, march := march, liftPend := false }) s
/-- GO with its TARGET. -/
def testTarget (target : BitVec 5) (s : State) : State := testGo (setTest (fun t => { t with target := target }) s)
/-- SELFTEST_GO (R423): STE_SELFTEST written with TARGET and GO, which takes effect in the next MCLK period (R412). -/
def execSelftestGo (by_ : Initiator) (target : BitVec 5) (s : State) : Host.Outcome State Fault Refusal :=
  .next (mgtWrite by_ 0x7020 (.selftestGo by_ target) s)

/-- A March test leaves its bank's contents undefined: free values (log entry 16). -/
def spoilBank (s : State) : State :=
  let u := s.mgt.test.unit.toNat
  if s.mgt.test.march then
    let n := u - 3
    { s with atlas := { s.atlas with grid := s.atlas.grid.filter (fun e => e.1 / 32768 != n), bad := s.atlas.bad.filter (fun e => e.1 != 3 + n),
                                     soft := s.atlas.soft.filter (fun e => e.1 != 3 + n), gridUndef := n :: s.atlas.gridUndef.filter (· != n) },
             free := s.free + 1 }
  else s

/-- The end of a test (R425). -/
def testEnd (code : BitVec 3) (res : W64) (s : State) : State :=
  let u := s.mgt.test.unit
  let s := spoilBank (setTest (fun t => { t with busy := false, code := code, res := res }) s)
  if s.mgt.testRec then offerNow .mgt s.mgt.book 0x55 0x0C 0 (u.toNat + 32 * code.toNat) res 0 s else s

/-- The lane's fence is lifted now that its test has stopped (R424). -/
def liftTested (s : State) : State :=
  let u := s.mgt.test.unit.toNat
  if s.mgt.test.liftPend then
    let s := { s with fences := { s.fences with lane := setBit s.fences.lane (u - 11) false } }
    fenceRec 0x54 u 1 0 (setTest (fun t => { t with liftPend := false }) s)
  else s

/-- A COMMIT that names the bank under test waits for the test to stop. -/
def commitWaits (s : State) : Bool := match s.atlas.phase with | .prep g _ => testBlocks g s | _ => false

/-- SELFTEST_STOPPED (R424). -/
def testStop (s : State) : State :=
  if s.mgt.test.busy && (s.mgt.test.liftPend || commitWaits s) then liftTested (testEnd 4 0 s) else s
def execSelftestStopped (s : State) : Host.Outcome State Fault Refusal := .next (testStop s)

/-- SELFTEST_COMPLETE (R425): a failure is one uncorrected error of the unit. -/
def testComplete (pass : Bool) (res : W64) (s : State) : State :=
  if !s.mgt.test.busy then s
  else
    let u := s.mgt.test.unit.toNat
    liftTested (if pass then testEnd 0 0 s else uncorrected u 0 res (testEnd 1 res s))
def execSelftestComplete (pass : Bool) (res : W64) (s : State) : Host.Outcome State Fault Refusal := .next (testComplete pass res s)

end Sys2Proof.Machine
end

