-- ==== Sys2Proof/Machine/RegRead.lean ====
section
/-! DEFINITION. What a read of the register window and of the table window returns (R401 to R437), and the reads that
have an effect (R5, R438, R440, R442, R443, R445). -/

namespace Sys2Proof.Machine

/-- A register's word from its fields: value and lowest bit. -/
def pack (l : List (Nat × Nat)) : Nat := l.foldl (fun a e => a + e.1 * 2 ^ e.2) 0
def pack32 (l : List (Nat × Nat)) : W32 := BitVec.ofNat 32 (pack l)
def pack64 (l : List (Nat × Nat)) : W64 := BitVec.ofNat 64 (pack l)

/-! ### The map (R427, R432 to R436) -/

/-- A 64-bit register whose every field is of type WO: its low word stands as zero (R443). -/
def writeOnly (off : Nat) : Bool :=
  off == 0x3020 || off == 0x3028 || (decide (0x4000 ≤ off) && decide (off < 0x5000) && (off % 64 == 0x20 || off % 64 == 0x28))

/-- A 64-bit register whose low word has W1C fields, and none of type RW. -/
def lowCleared (off : Nat) : Bool :=
  [0x3088, 0x5048, 0x6018].contains off || (decide (0x2400 ≤ off) && decide (off < 0x2600) && off % 0x40 == 0x20) ||
  (decide (0x7100 ≤ off) && decide (off < 0x7420) && off % 16 == 8)

/-! ### Channels (R41, R46, R49, R427 to R430) -/

/-- CH_STATUS. -/
def statusWord (s : State) (c : Nat) : W32 :=
  let r := (ctx s c).r
  pack32 [(stateCode r.state, 0), (bool r.slot.isSome, 4), (r.slot.getD 0, 5), (waitCode r.wait, 11), (flagWord r.flags, 14),
    (bool r.aborted, 21), (bool r.rearm, 22), (bool r.wake, 23), (r.fcode.toNat, 24)]

def readChannel (s : State) (c at_ : Nat) : W32 :=
  let r := (ctx s c).r
  match at_ with
  | 0x00 => enBit s c
  | 0x04 => r.start
  | 0x08 => statusWord s c
  | 0x10 => legend s c
  | 0x14 => pack32 [(bool r.divPend, 0), (fld r.divTarget 31 5, 5)]
  | 0x18 => BitVec.ofNat 32 (pendOf s c)
  | 0x1C => BitVec.setWidth 32 r.rearmCnt
  | _ => 0

/-- Word k of a channel's context as the debug view shows it; the words that the layout does not define for software, the wait
descriptor of a channel that waits among them, are free values (log entry 10). -/
def contextWord (s : State) (c k : Nat) : W64 :=
  let r := (ctx s c).r
  match k with
  | 0 => pack64 [((legend s c).toNat, 0), (stateCode r.resume, 32), (stateCode r.pauseRet, 36)]
  | 1 => join r.start r.pc
  | 2 => join (pack32 [(bool r.retValid, 0), (fld r.ret 31 5, 5)]) (pack32 [(bool r.divPend, 0), (fld r.divTarget 31 5, 5)])
  | 3 => join (statusWord s c) r.lc
  | 4 => if decide (r.desc = .none) && r.deadline.isNone then 0 else Config.ctxUndefined c 32 s.free
  | 5 => BitVec.ofNat 64 (pendOf s c)
  | 6 => r.pat1
  | 7 => r.pat2
  | 8 => r.pat3
  | 9 => r.sc1
  | 10 => r.sc2
  | 11 => r.sc3
  | 12 | 13 | 14 | 15 | 16 | 17 | 18 | 19 => vreg r (k - 12)
  | 20 => r.leg.w0
  | 21 => r.leg.w1
  | 22 => r.leg.w2
  | 23 => r.leg.w3
  | 24 => pack64 [(r.i0.toNat, 0), (r.i1.toNat, 16), (r.i2.toNat, 32)]
  | 25 => BitVec.ofNat 64 (r.ecount % 2 ^ 48)
  | 26 => r.bytes
  | 27 => BitVec.ofNat 64 (r.energy16 / 16 % 2 ^ 48)
  | 28 => BitVec.setWidth 64 r.rearmCnt
  | _ => Config.ctxUndefined c (8 * k) s.free

/-! ### The global page (R205, R217, R223, R301, R347, R395, R401, R402, R406, R408, R409) -/

/-- READY.LANE: initialised and not fenced. -/
def laneReady (s : State) (l : Nat) : Bool := (lane s l).ready && !bit s.fences.onLane l

def upMask (s : State) : Nat := pack ((List.range 16).map (fun d => (bool (domainUp s d), d)))

def flashWaiting (s : State) : Nat :=
  (s.ctxs.filter (fun e => decide (e.2.r.state = .wait) && decide (e.2.r.wait = .flashBusy))).length

def residents (s : State) : Nat := (s.slots.filter (fun e => !decide (e.2 = .free))).length

def readGlobal32 (s : State) (off : Nat) : W32 :=
  match off with
  | 0x00 => 0x00315A7E
  | 0x10 => pack32 ([(bool s.glob.readyCtx, 0), (bool s.glob.readyGrid, 1), (bool s.glob.readyGrat, 2), (bool s.mer.sync, 15),
      (bool s.fab.surveyed, 16)] ++ (List.range 8).map (fun l => (bool (laneReady s l), 3 + l)) ++
      (List.range 4).map (fun p => (bool (usable s p), 11 + p)))
  | 0x20 => pack32 [(bool s.glob.cgen, 16)]
  | 0x28 => pack32 [((depthRead s).toNat, 0), (bool s.glob.depthNew.isSome, 2)]
  | 0x30 => s.glob.linkTx
  | 0x38 => pack32 [(s.glob.fmin.toNat, 0), (bool s.glob.swdis, 4), (bool s.glob.hardLock, 5)]
  | 0x40 => pack32 [(s.glob.rmask.toNat, 0), (s.glob.rcls, 8)]
  | 0x78 => pack32 [(s.halt.st.toNat, 0), (s.halt.why.toNat, 2), (s.halt.count.toNat, 16)]
  | 0x80 => s.halt.addr
  | 0x88 => pack32 [(s.halt.rtmo, 0), (s.halt.hbook, 10), (bool s.halt.hrec, 13)]
  | 0xA0 => BitVec.ofNat 32 s.flash.tmo
  | 0xB0 => pack32 [(s.power.book, 0), (bool s.power.recEn, 3), (s.power.settle, 4)]
  | _ => 0

def readGlobal64 (s : State) (off : Nat) : W64 :=
  match off with
  | 0x08 => pack64 [(s.glob.cause.toNat, 0), (bool s.glob.tagtmo, 2), (s.glob.warmcnt.toNat, 16), (s.glob.engcnt.toNat, 32)]
  | 0x18 => s.glob.readySlot
  | 0x48 => pack64 [(locUse s, 0), (fabUse s, 16), (s.glob.lochw, 32), (s.glob.fabhw, 48)]
  | 0x50 => pack64 [(s.glob.swaps.toNat, 0), (pinnedCount s, 32), (residents s, 38)]
  | 0x60 => pack64 [(s.spill.base.toNat, 10), (s.spill.pages, 32)]
  | 0x68 => pack64 [(s.spill.inuse, 0), (s.spill.hwm, 16), (s.spill.fails.toNat, 32)]
  | 0xA8 => pack64 [(s.flash.busy.toNat, 0), (flashWaiting s, 16), (s.flash.tmocnt.toNat, 32), (s.flash.buserr.toNat, 48)]
  | 0xB8 => pack64 [(upMask s, 0), (s.power.window.toNat, 16), (s.power.nakd.toNat, 32), (bool s.power.inbdn, 48)]
  | 0xC0 => pack64 [(bool s.dbg.unlock, 0), (s.dbg.path.length, 1), (s.dbg.acc.toNat, 16)]
  | _ => 0

/-! ### Request inputs, event outputs, field books (R195, R197, R272) -/

def readReqin (s : State) (n : Nat) : W64 :=
  let i := inp s n
  let w := wiring s n
  pack64 [(i.filt.toNat, 0), (i.mode.toNat, 4), (i.book, 8), (bool i.ovrec, 13), (bool i.qrec, 14), (i.depth.toNat, 16), (bool i.ovf, 32),
    (bool i.level, 33), (bool (qok s n), 34), (bool w.qual, 35), (w.dom, 36), (bool w.domv, 40), (i.ovrcnt.toNat, 48)]

def readEvo (s : State) (m : Nat) : W32 :=
  let e := evo s m
  pack32 [(e.width.toNat, 0), (e.mode.toNat, 4), (bool e.pol, 6), (bool (e.active != e.pol), 8), (bool e.merged, 9), (e.count.toNat, 16)]

/-- STATUS.FULL: every slot holds, or awaits, a record not yet consumed. -/
def bookFull (x : Book) : Bool := decide (2 ^ x.size ≤ bookPending x + bool x.under.isSome)

def readBook32 (s : State) (b at_ : Nat) : W32 :=
  let x := book s b
  match at_ with
  | 0x08 => pack32 [(bool x.en, 0), (x.size, 1), (bool x.ie, 6), (x.thresh.toNat, 8), (x.timer.toNat, 24)]
  | 0x10 => x.widx
  | 0x18 => x.ridx
  | 0x28 => x.seq
  | _ => 0

def readBook64 (s : State) (b at_ : Nat) : W64 :=
  let x := book s b
  match at_ with
  | 0x00 => pack64 [(x.base.toNat, 5)]
  | 0x20 => pack64 [(bookPending x, 0), (bool (bookFull x), 17), (bool (bookInt x), 18), (bool x.err, 19), (bool x.badidx, 20),
      (bool x.lostpend, 21), (x.lost.toNat, 32)]
  | _ => 0

/-! ### Meridian and the Graticule (R257) -/

def readMer32 (s : State) (off : Nat) : W32 :=
  match off with
  | 0x3000 => pack32 [(s.mer.src.toNat, 0), (s.mer.book, 2), (bool s.mer.recEn, 5), (s.mer.slew, 6), (s.mer.hold, 16)]
  | 0x3008 => pack32 [(bool s.mer.sync, 0), (bool (s.mer.remain != 0), 1), (bool s.mer.holdover, 2), (bool s.mer.stepped, 3),
      (bool s.mer.backoff, 4), (bool s.mer.rej, 5), (s.mer.stepcnt.toNat, 16)]
  | 0x3018 => BitVec.setWidth 32 s.mer.frac
  | 0x3030 => s.mer.rate
  | 0x3080 => pack32 [(bool s.grat.en, 0), (s.grat.book, 1), (bool s.grat.lateRec, 4), (bool s.grat.missRec, 5)]
  | 0x30B8 => pack32 [(bool s.grat.cmd.isSome, 0), (s.grat.code.toNat, 1), (s.grat.index, 4)]
  | _ => 0

def readMer64 (s : State) (off : Nat) : W64 :=
  match off with
  | 0x3010 => merWord s
  | 0x3038 => s.mer.lastofs
  | 0x3040 => BitVec.ofInt 64 (to24 s.mer.remain)
  | 0x3088 => pack64 [(s.grat.entries.length, 0), (bool s.grat.cmdLost, 13), (s.grat.lateCnt.toNat, 16), (s.grat.missCnt.toNat, 32)]
  | 0x3090 => s.grat.stage0
  | 0x3098 => s.grat.stage1
  | 0x30A0 => s.grat.stage2
  | 0x30A8 => s.grat.stage3
  | 0x30C0 => gratNext s
  | _ => 0

/-! ### Stream queues (R300) -/

def readQueue32 (s : State) (q at_ : Nat) : W32 :=
  let x := queue s q
  match at_ with
  | 0x18 => pack32 [(x.pmask.toNat, 0), (x.cmask.toNat, 16)]
  | 0x38 => BitVec.setWidth 32 x.popf
  | _ => 0

/-- What STE_Q_POP would return: a read of its high word alone takes nothing (R445). -/
def popWord (x : Queue) : W64 := if deliverable x = 0 then x.idle else match x.head with | i :: _ => i.it.data | [] => x.idle

def readQueue64 (s : State) (q at_ : Nat) : W64 :=
  let x := queue s q
  match at_ with
  | 0x00 => readQcfg s q
  | 0x08 => pack64 [(countItems x, 0), (deliverable x, 20), (x.pages.length, 40), (bool x.markv, 54), (bool (isFull s x), 55),
      (bool x.allocf, 56), (bool x.sperr, 57), (bool x.par, 58), (bool x.ovr, 59), (bool x.forced, 60), (bool x.nomark, 61),
      (bool (decide (0 < x.openN)), 62)]
  | 0x10 => x.idle
  | 0x30 => popWord x
  | _ => 0

/-! ### The Atlas page (R321) -/

def readAtlas32 (s : State) (off : Nat) : W32 :=
  let a := s.atlas
  match off with
  | 0x5000 => pack32 [(a.book, 0), (bool a.recEn, 3), (bool a.dbgRec, 4)]
  | 0x5008 => pack32 [(bool (committing s), 8), (bool a.drained, 9), (a.code.toNat, 10), (a.index, 13)]
  | 0x5018 => pack32 [(a.staging.length % 512, 0), (bool a.stgrej, 10), (bool a.stgerr, 11), (bool a.cmdlost, 12), (bool a.dbgden, 13),
      (bool a.ruleerr, 14), (bool (decide (512 ≤ a.staging.length)), 15)]
  | 0x5020 => a.uncovStg
  | 0x5030 => BitVec.setWidth 32 a.gdefStg
  | 0x5058 => a.vcnt
  | 0x5060 => a.dbgcnt
  | _ => 0

def readAtlas64 (s : State) (off : Nat) : W64 :=
  let a := s.atlas
  match off with
  | 0x5010 => pack64 [(a.epoch.toNat, 0), (oldOut s, 32)]
  | 0x5028 => a.winStg
  | 0x5040 => BitVec.setWidth 64 a.vaddr
  | 0x5048 => a.vinfo
  | 0x5050 => a.vtime
  | _ => 0

/-! ### The fabric page (R374) -/

def readFab32 (s : State) (off : Nat) : W32 :=
  let f := s.fab
  match off with
  | 0x6000 => pack32 [(bool f.en, 0), (bool f.root, 1), (f.rtcls, 2), (f.book, 5), (bool f.recEn, 8), (bool f.rlacc, 9), (bool f.auto, 10)]
  | 0x6008 => pack32 [(f.id.toNat, 0), (bool f.idv, 12), (f.want.toNat, 16), (bool f.wantv, 28)]
  | 0x6030 => pack32 [(s.sync.tref.toNat, 0), (bool s.sync.en, 12), (s.sync.per, 14), (s.sync.lockn, 24)]
  | 0x6080 => BitVec.setWidth 32 f.evcol
  | _ => 0

def portState (s : State) (p : Nat) : Nat :=
  let x := port s p
  if x.up then (if bit s.fences.onLink p then 3 else 2) else bool x.en

def readFab64 (s : State) (off : Nat) : W64 :=
  let f := s.fab
  match off with
  | 0x6010 => s.straps.uid
  | 0x6018 => pack64 [(f.nodes, 0), (bool f.noroute, 13), (bool f.evref, 14), (bool f.ttlx, 15), (bool f.badkind, 16), (f.refused.toNat, 32)]
  | 0x6020 => pack64 [(bool f.survey.busy, 1), (f.survey.code.toNat, 2), (f.survey.mapbase.toNat, 37)]
  | 0x6028 => pack64 [(f.load.node.toNat, 0), (bool f.load.busy, 13), (f.load.code.toNat, 14), (f.load.image.toNat, 37)]
  | 0x6038 => pack64 [(s.sync.pport, 0), (bool (parentPort s).isSome, 2), (bool s.sync.lock, 3), (s.sync.good, 4), (s.sync.fails, 8),
      (s.sync.delay.toNat, 16), (s.sync.exch.toNat, 32)]
  | _ =>
    if 0x6100 ≤ off then tget 0 f.even ((off - 0x6100) / 8)
    else
      let p := (off - 0x6040) / 16
      let x := port s p
      if off % 16 = 0 then pack64 [(bool x.en, 0), (portState s p, 1), (bool x.nbrv, 3), (x.nbr.toNat, 4), (x.asym.toNat, 32)]
      else pack64 [(x.naks.toNat, 0), (x.replays.toNat, 16), (x.downs.toNat, 32), (x.lost.toNat, 48)]

/-! ### The management page (R347, R426) -/

def readMgt32 (s : State) (off : Nat) : W32 :=
  let m := s.mgt
  match off with
  | 0x7000 => pack32 [(m.book, 0), (bool m.corrRec, 3), (bool m.testRec, 4), (bool m.rdrop, 5)]
  | 0x7008 => pack32 [(m.scrub.gap, 0), (bool m.scrub.passRec, 8), (m.scrub.dis.toNat, 9)]
  | 0x7020 => pack32 [(m.test.target.toNat, 1), (bool m.test.busy, 6), (m.test.code.toNat, 7), (bool m.test.cmdlost, 10)]
  | 0x7040 => pack32 [(bool m.tele.snapv, 1), (m.tele.ch, 2), (m.tele.per, 12)]
  | 0x7080 => pack32 [(s.fences.lane.toNat, 0), (s.fences.link.toNat, 8), (s.fences.grid.toNat, 12), (s.fences.gmode.toNat, 16)]
  | _ => if 0x7500 ≤ off ∧ off < 0x7520 then tget 0 m.tele.laneBusy ((off - 0x7500) / 4) else 0

def readErrc (s : State) (off : Nat) : W64 :=
  let cls := (off - 0x7100) / 16
  let e := rolled s (errCls s cls)
  if off % 16 = 0 then pack64 [(e.window, 0), (e.thresh.toNat, 32), (bool e.fence, 48)]
  else pack64 [(e.count.toNat, 0), (bool e.lasting, 16), (e.lastcnt.toNat, 32), (e.total.toNat, 48)]

def readMgt64 (s : State) (off : Nat) : W64 :=
  let m := s.mgt
  match off with
  | 0x7010 => pack64 [(m.scrub.passes.toNat, 0), (m.scrub.forced.toNat, 32)]
  | 0x7028 => m.test.res
  | 0x7048 => m.tele.stamp
  | 0x7050 => m.tele.energy
  | 0x7058 => m.tele.bytes
  | 0x7060 => BitVec.ofNat 64 (m.tele.chEnergy % 2 ^ 48)
  | 0x7068 => m.tele.chBytes
  | _ => if 0x7100 ≤ off then readErrc s off else 0

/-! ### The whole register window -/

/-- A 32-bit register at a 4-aligned offset; an unimplemented offset reads as zero (R6). -/
def read32 (s : State) (off : Nat) : W32 :=
  if off < 0x1000 then readGlobal32 s off
  else if off < 0x2000 then 0
  else if off < 0x2200 then readEvo s ((off - 0x2000) / 4)
  else if off < 0x2400 then 0
  else if off < 0x2600 then readBook32 s ((off - 0x2400) / 0x40) (off % 0x40)
  else if off < 0x3000 then 0
  else if off < 0x4000 then readMer32 s off
  else if off < 0x5000 then readQueue32 s ((off - 0x4000) / 64) (off % 64)
  else if off < 0x6000 then readAtlas32 s off
  else if off < 0x7000 then readFab32 s off
  else if off < 0x8000 then readMgt32 s off
  else readChannel s ((off - 0x8000) / 32) (off % 32)

/-- A 64-bit register at its offset. -/
def read64 (s : State) (off : Nat) : W64 :=
  if off < 0x1000 then readGlobal64 s off
  else if off < 0x2000 then readReqin s ((off - 0x1000) / 8)
  else if off < 0x3000 then readBook64 s ((off - 0x2400) / 0x40) (off % 0x40)
  else if off < 0x4000 then readMer64 s off
  else if off < 0x5000 then readQueue64 s ((off - 0x4000) / 64) (off % 64)
  else if off < 0x6000 then readAtlas64 s off
  else if off < 0x7000 then readFab64 s off
  else readMgt64 s off

/-! ### 32-bit reads (R5, R443, R445) -/

/-- The high word of a 64-bit word whose snapshot has that key: the snapshot, which the read ends, or the current
value. -/
def readHigh (by_ : Initiator) (key : Nat) (w : W64) (s : State) : State :=
  match tget none s.port.snaps key with
  | some h => setResp by_ (BitVec.setWidth 64 h) false { s with port := { s.port with snaps := tset none s.port.snaps key none } }
  | none => setResp by_ (BitVec.ofNat 64 (fld w 63 32)) false s

/-- A read of a 64-bit register, or of its low word, with the effects of R445. -/
def wideRead (by_ : Initiator) (all : Bool) (base : Nat) (cmd : Instr) (s : State) : State :=
  if base = 0x3010 then nowRead by_ all s
  else if 0x4000 ≤ base ∧ base < 0x5000 ∧ base % 64 = 0x30 then popHost by_ ((base - 0x4000) / 64) all cmd s
  else readResp by_ all base (read64 s base) s

/-- An aligned read of the register window, of 4 or 8 bytes (R4, R5). -/
def windowRead (by_ : Initiator) (off size : Nat) (cmd : Instr) (s : State) : State :=
  let base := off / 8 * 8
  if size = 8 then
    (if wide base then wideRead by_ true base cmd s else setResp by_ (join (read32 s (base + 4)) (read32 s base)) false s)
  else if !wide base then setResp by_ (BitVec.setWidth 64 (read32 s off)) false s
  else if off % 8 ≠ 0 then readHigh by_ (keySnap by_ base) (read64 s base) s
  else wideRead by_ false base cmd s

/-- LOW_WORD_READ (R4, R5, R445): a read of the register window. -/
def execLowWordRead (by_ : Initiator) (at_ : ReadAt) (s : State) : Host.Outcome State Fault Refusal :=
  let off := at_.off.toNat
  let cmd := .lowWordRead by_ at_
  .next (if sizeOk off at_.size then hostAccess by_ false false off cmd (windowRead by_ off at_.size cmd) s else badAccess by_ false off cmd s)

/-! ### The table window (R437, R438, R440) -/

/-- Word w of a Graticule entry (R244): an entry that is not valid reads as zero (log entry 10). -/
def gratWord (s : State) (i w : Nat) : W64 :=
  match entry s i with
  | none => 0
  | some e =>
    match w with
    | 0 => BitVec.ofNat 64 (e.t / 2 ^ 24)
    | 1 => pack64 [(e.t % 2 ^ 24, 0), (e.period / 2 ^ 24, 24)]
    | 2 => pack64 [(e.period % 2 ^ 24, 0), (e.ch, 24), (bool e.wake, 34), (bool e.rep, 36), (bool e.late, 37), (e.lead, 40), (e.remain, 48)]
    | _ => pack64 [(e.leg.toNat, 0), (e.tag.toNat, 32), (1, 63)]

/-- A Grid word that nothing holds: the default, or after a test of its bank a free value (R307; log entry 16). -/
def gridUnheld (s : State) (k : Nat) : W64 :=
  if s.atlas.gridUndef.contains (k / 32768) then Config.gridUndefined k s.free else gridFill s.atlas.gdef

/-- The word k of the table window, in force. -/
def tableWord (s : State) (k : Nat) : W64 :=
  let off := 8 * k
  if off < 0x100000 then (wordInForce s k).getD (gridUnheld s k)
  else if off < 0x120000 then gratWord s ((off - 0x100000) / 32) (k % 4)
  else if off < 0x160000 then contextWord s ((off - 0x120000) / 256) (k % 32)
  else if off < 0x168000 then ruleWord s k
  else if off < 0x16C000 then
    let n := (off - 0x168000) / 4
    join (routeEntry s (n + 1)) (routeEntry s n)
  else if off < 0x16C900 then ruleWord s k
  else 0

/-- The store of R270 behind word k; none where the window is not implemented. -/
def tableStore (k : Nat) : Option Nat :=
  let off := 8 * k
  if off < 0x100000 then some (3 + k / 32768)
  else if off < 0x120000 then some 2
  else if off < 0x160000 then some 0
  else if off < 0x168000 then some 7
  else if off < 0x16C000 then some 8
  else if off < 0x16C800 then some 9
  else if off < 0x16C900 then some 10
  else none

/-- The key that `bad` has for word k of a store. -/
def badKey (store k : Nat) : Nat := if store = 8 then k - 0x2D000 else k

/-- What the read finds: nothing in a Grid word that nothing holds, and else the error that the word holds (R340, R404; log
entry 46). -/
def tableFinds (s : State) (store k : Nat) (found : Found) : Found :=
  if (store != 8 && stagedNow s k) || uninitialised s store (k % 32768) then .clean
  else
    match heldError s (store, badKey store k) with
    | .uncorrected => .uncorrected
    | .corrected => .corrected
    | .clean => found

/-- A correctable error that the read has found is counted, and written back. -/
def tableFixed (store k : Nat) (s : State) : State :=
  if s.atlas.soft.contains (store, badKey store k) then foundSoft s (store, badKey store k)
  else corrected store 0 (BitVec.ofNat 64 (8 * k)) s

/-- The response with a table word: all of it, or one half (R5); a route entry is a word of its own (R438). -/
def tableResp (by_ : Initiator) (off size : Nat) (s : State) : State :=
  let w := tableWord s (off / 8)
  if size = 8 then setResp by_ w false s
  else if routeAt off then setResp by_ (BitVec.ofNat 64 (if off % 8 = 0 then fld w 31 0 else fld w 63 32)) false s
  else if off % 8 = 0 then
    setResp by_ (BitVec.ofNat 64 (fld w 31 0)) false
      { s with port := { s.port with snaps := tset none s.port.snaps (tableKey by_ off) (some (hiWord w)) } }
  else readHigh by_ (tableKey by_ off) w s

/-- A free value of the view has been shown. -/
def showFree (off : Nat) (s : State) : State :=
  if decide (0x120000 ≤ off) && decide (off < 0x160000) then { s with free := s.free + 1 } else s

/-- The read is of a high word whose snapshot the initiator holds: it reads no store (R5). -/
def fromSnapshot (s : State) (by_ : Initiator) (off size : Nat) : Bool :=
  size == 4 && off % 8 != 0 && !routeAt off && (tget none s.port.snaps (tableKey by_ off)).isSome

/-- A read of the table window (R440). -/
def tableRead (by_ : Initiator) (off size : Nat) (found : Found) (s : State) : State :=
  match tableStore (off / 8) with
  | none => s
  | some store =>
    if fromSnapshot s by_ off size then readHigh by_ (tableKey by_ off) 0 s
    else
    match tableFinds s store (off / 8) found with
    | .clean => showFree off (tableResp by_ off size s)
    | .corrected => showFree off (tableResp by_ off size (tableFixed store (off / 8) s))
    | .uncorrected => setResp by_ 0 true (uncorrected store 0 (BitVec.ofNat 64 (off / 8 * 8)) s)

/-- HOST_TABLE_READ. -/
def execHostTableRead (by_ : Initiator) (off : BitVec 21) (size : Nat) (found : Found) (s : State) : Host.Outcome State Fault Refusal :=
  .next (if sizeOk off.toNat size then
      hostAccess by_ true false off.toNat (.hostTableRead by_ off size found) (tableRead by_ off.toNat size found) s
    else badAccess by_ true off.toNat (.hostTableRead by_ off size found) s)

end Sys2Proof.Machine
end

