-- ==== Sys2Proof/Machine/RegWrite.lean ====
section
/-! DEFINITION. A host write to any register of the window (R4 to R6, R9, R442 to R447): the fields of every page, and
HOST_REGISTER_WRITE. -/

namespace Sys2Proof.Machine

/-! ### The global page -/

/-- STE_GLOBAL_CTRL (R401). -/
def writeGlobalCtrl (v : W32) (s : State) : State :=
  let s := { s with glob := { s.glob with cgen := bit v 16 } }
  if bit v 0 then resetRequest (BitVec.ofNat 8 (fld v 15 8)) s else s

/-- One byte of STE_LINK_TX (R409). -/
def linkTxByte (old v : Nat) : Nat := v % 4 + 4 * (if v / 4 % 4 = 3 then old / 4 % 4 else v / 4 % 4) + 16 * (v / 16 % 2)
def writeLinkTx (v : W32) (s : State) : State :=
  let b := fun p => linkTxByte (fld s.glob.linkTx (8 * p + 7) (8 * p)) (fld v (8 * p + 7) (8 * p))
  { s with glob := { s.glob with linkTx := pack32 [(b 0, 0), (b 1, 8), (b 2, 16), (b 3, 24)] } }

/-- Input n is reloaded where its filter length is no longer `old` (R184, R408). -/
def reloadIf (old : Nat → Nat) (samples : BitVec 512) (s : State) (n : Nat) : State :=
  if filterLen s n = old n then s else setInp n (reload (qok s n) (sampled s 1 [samples.getLsbD n] (inp s n))) s

/-- STE_REQ_HARD (R408). -/
def writeHard (v : W32) (samples : BitVec 512) (s : State) : State :=
  let was := filterLen s
  let g := s.glob
  let g := if g.hardLock then g else { g with fmin := BitVec.ofNat 4 (fld v 3 0), swdis := bit v 4 }
  let s := { s with glob := { g with hardLock := g.hardLock || bit v 5 } }
  (s.inputs.map (·.1)).foldl (reloadIf was samples) s

/-- STE_LANE_RES (R205). -/
def writeLaneRes (v : W32) (s : State) : State :=
  let m := BitVec.ofNat 8 (fld v 7 0)
  if 4 < popcount m then s else { s with glob := { s.glob with rmask := m, rcls := fld v 10 8 } }

/-- STE_FAULT_CFG (R347). -/
def writeFaultCfg (v : W32) (s : State) : State :=
  let t := fld v 9 0
  { s with halt := { s.halt with rtmo := if 128 ≤ t then t else s.halt.rtmo, hbook := fld v 12 10, hrec := bit v 13 } }

/-- STE_FLASH_CFG (R395). -/
def writeFlashCfg (v : W32) (s : State) : State :=
  let t := fld v 19 0
  if 1 ≤ t ∧ t ≤ 1000000 then { s with flash := { s.flash with tmo := t } } else s

/-- STE_PD_CFG (R395). -/
def writePdCfg (v : W32) (s : State) : State :=
  setPower (fun p => { p with book := fld v 2 0, recEn := bit v 3, settle := fld v 11 4 }) s
/-- STE_PD_STAT's W1C fields (R395). -/
def writePdStat (v : W64) (s : State) : State :=
  let clear := (List.range 16).foldl (fun m d => if bit v (32 + d) && !setNow s (w1cKey 0xB8 (32 + d)) then setBit m d true else m) (0 : W16)
  setPower (fun p => { p with nakd := p.nakd &&& ~~~clear, inbdn := w1c (setNow s (w1cKey 0xB8 48)) (bit v 48) p.inbdn }) s

def writeGlobal32 (off : Nat) (v : W32) (samples : BitVec 512) (s : State) : State :=
  match off with
  | 0x20 => writeGlobalCtrl v s
  | 0x28 => writeSpread (BitVec.ofNat 2 (fld v 1 0)) s
  | 0x30 => writeLinkTx v s
  | 0x38 => writeHard v samples s
  | 0x40 => writeLaneRes v s
  | 0x70 => if bit v 0 then globalResume s else s
  | 0x88 => writeFaultCfg v s
  | 0x90 => invalidate v s
  | 0xA0 => writeFlashCfg v s
  | 0xB0 => writePdCfg v s
  | _ => s

def writeGlobal64 (off : Nat) (v : W64) (s : State) : State :=
  match off with
  | 0x48 => if bit v 63 then clearTagHw s else s
  | 0x60 => writeSpillBase v s
  | 0x68 => if bit v 31 then clearHwm s else s
  | 0xB8 => writePdStat v s
  | _ => s

/-! ### Request inputs and field books -/

/-- STE_REQIN whole (R195). -/
def writeReqin64 (n : Nat) (v : W64) (sample : Bool) (s : State) : State :=
  let s := setInp n { inp s n with ovf := w1c (setNow s (w1cKey (0x1000 + 8 * n) 32)) (bit v 32) (inp s n).ovf } s
  writeReqin n (loWord v) 1 [sample] s

/-- STE_BOOK_CTRL (R272, R274); EN as written stands in this ECLK (R448). -/
def writeBookCtrl (b : Nat) (v : W32) (s : State) : State :=
  let x := book s b
  let s := markSet (w1cKey (bookStatus b) 63) s
  let n := fld v 5 1
  let x := { x with size := if !x.en && decide (4 ≤ n) && decide (n ≤ 16) then n else x.size, ie := bit v 6,
                    thresh := BitVec.ofNat 16 (fld v 23 8), timer := BitVec.ofNat 8 (fld v 31 24) }
  let s := setBook b x s
  if bit v 0 then enableBook b s else setBook b { x with en := false } s

def writeBook32 (b at_ : Nat) (v : W32) (s : State) : State :=
  match at_ with
  | 0x08 => writeBookCtrl b v s
  | 0x18 => writeRidx b v s
  | _ => s

def writeBook64 (b at_ : Nat) (v : W64) (s : State) : State :=
  let x := book s b
  match at_ with
  | 0x00 => if x.en then s else setBook b { x with base := BitVec.ofNat 27 (fld v 31 5) } s
  | 0x20 =>
    let k := fun i old => w1c (setNow s (w1cKey (bookStatus b) i)) (bit v i) old
    setBook b { x with err := k 19 x.err, badidx := k 20 x.badidx } s
  | _ => s

/-! ### Meridian and the Graticule (R236, R257) -/

/-- STE_MER_CTRL: SRC last, so that its record goes where the write says. -/
def writeMerCtrl (v : W32) (s : State) : State :=
  let m := s.mer
  let w := fld v 15 6
  let h := fld v 23 16
  writeSrc (BitVec.ofNat 2 (fld v 1 0))
    { s with mer := { m with book := fld v 4 2, recEn := bit v 5, slew := if 1 ≤ w ∧ w ≤ 1000 then w else m.slew,
                             hold := if h = 0 then m.hold else h } }

def writeMerStatus (v : W32) (s : State) : State :=
  let m := s.mer
  let k := fun i old => w1c (setNow s (w1cKey 0x3008 i)) (bit v i) old
  { s with mer := { m with stepped := k 3 m.stepped, backoff := k 4 m.backoff, rej := k 5 m.rej } }

def writeGratCtrl (v : W32) (s : State) : State :=
  { s with grat := { s.grat with en := bit v 0, book := fld v 3 1, lateRec := bit v 4, missRec := bit v 5 } }

def writeGratStatus (v : W64) (s : State) : State :=
  let s := { s with grat := { s.grat with cmdLost := w1c (setNow s (w1cKey 0x3088 13)) (bit v 13) s.grat.cmdLost } }
  if bit v 63 then gratClear s else s

def writeMer32 (off : Nat) (v : W32) (s : State) : State :=
  match off with
  | 0x3000 => writeMerCtrl v s
  | 0x3008 => writeMerStatus v s
  | 0x3030 => if s.mer.src == 1 then s else { s with mer := { s.mer with rate := clampRate v } }
  | 0x3080 => writeGratCtrl v s
  | 0x30B0 => gratCmd (BitVec.ofNat 2 (fld v 1 0)) (fld v 13 2) s
  | _ => s

def writeMer64 (off : Nat) (v : W64) (s : State) : State :=
  match off with
  | 0x3020 => setMer v s
  | 0x3028 => adjMer v s
  | 0x3088 => writeGratStatus v s
  | 0x3090 => { s with grat := { s.grat with stage0 := v } }
  | 0x3098 => { s with grat := { s.grat with stage1 := v } }
  | 0x30A0 => { s with grat := { s.grat with stage2 := v } }
  | 0x30A8 => { s with grat := { s.grat with stage3 := v } }
  | _ => s

/-! ### Stream queues (R300) -/

def writeQueue32 (q at_ : Nat) (v : W32) (s : State) : State :=
  match at_ with
  | 0x18 => modQ q (fun x => { x with pmask := BitVec.ofNat 16 (fld v 15 0), cmask := BitVec.ofNat 16 (fld v 31 16) }) s
  | _ => s

/-- STE_Q_STATUS's W1C fields. -/
def clearQstatus (q : Nat) (v : W64) (s : State) : State :=
  let k := fun i old => w1c (setNow s (w1cKey (qStatus q) i)) (bit v i) old
  modQ q (fun x => { x with par := k 58 x.par, ovr := k 59 x.ovr, forced := k 60 x.forced, nomark := k 61 x.nomark }) s

def writeQueue64 (q at_ : Nat) (v : W64) (s : State) : State :=
  match at_ with
  | 0x00 => writeQcfg q v s
  | 0x08 => clearQstatus q v s
  | 0x10 => modQ q (fun x => { x with idle := v }) s
  | 0x20 => pushHost q v false s
  | 0x28 => pushHost q v true s
  | _ => s

/-! ### The Atlas page (R321) -/

def writeAtlasCtrl (v : W32) (s : State) : State :=
  let s := { s with atlas := { s.atlas with book := fld v 2 0, recEn := bit v 3, dbgRec := bit v 4 } }
  if bit v 5 then clearAtlas s else s

def writeAtlasStatus (v : W32) (s : State) : State :=
  let a := s.atlas
  let k := fun i old => w1c (setNow s (w1cKey 0x5018 i)) (bit v i) old
  { s with atlas := { a with stgrej := k 10 a.stgrej, stgerr := k 11 a.stgerr, cmdlost := k 12 a.cmdlost, dbgden := k 13 a.dbgden,
                             ruleerr := k 14 a.ruleerr } }

def writeAtlas32 (off : Nat) (v : W32) (s : State) : State :=
  match off with
  | 0x5000 => writeAtlasCtrl v s
  | 0x5008 => if bit v 0 then commitGo (BitVec.ofNat 4 (fld v 4 1)) s else s
  | 0x5018 => writeAtlasStatus v s
  | 0x5020 => { s with atlas := { s.atlas with uncovStg := v } }
  | 0x5030 => { s with atlas := { s.atlas with gdefStg := BitVec.ofNat 4 (fld v 3 0) } }
  | _ => s

def writeAtlas64 (off : Nat) (v : W64) (s : State) : State :=
  match off with
  | 0x5028 => { s with atlas := { s.atlas with winStg := v &&& 0xFFFFFFFFF } }
  | 0x5048 => if bit v 0 then clearValid s else s
  | _ => s

/-! ### The fabric page (R374) -/

def writeFabCtrl (v : W32) (s : State) : State :=
  { s with fab := { s.fab with en := bit v 0, root := bit v 1, rtcls := fld v 4 2, book := fld v 7 5, recEn := bit v 8, rlacc := bit v 9,
                               auto := bit v 10 } }

/-- STE_FAB_NODE: ID only while EN = 0. -/
def writeFabNode (v : W32) (s : State) : State :=
  let s := markSet (w1cKey 0x6008 12) s
  { s with fab := { s.fab with id := if s.fab.en then s.fab.id else BitVec.ofNat 12 (fld v 11 0), idv := bit v 12,
                               want := BitVec.ofNat 12 (fld v 27 16), wantv := bit v 28 } }

def writeFabStatus (v : W64) (s : State) : State :=
  let f := s.fab
  let k := fun i old => w1c (setNow s (w1cKey 0x6018 i)) (bit v i) old
  { s with fab := { f with noroute := k 13 f.noroute, evref := k 14 f.evref, ttlx := k 15 f.ttlx, badkind := k 16 f.badkind } }

def writeSurvey (v : W64) (s : State) : State :=
  let s := setSurvey (fun x => { x with mapbase := BitVec.ofNat 27 (fld v 63 37) }) s
  if bit v 0 then surveyGo s else s

def writeSync (v : W32) (s : State) : State :=
  let y := s.sync
  let per := fld v 23 14
  let n := fld v 27 24
  let y : FabSync := { y with tref := BitVec.ofNat 12 (fld v 11 0), en := bit v 12, per := if 64 ≤ per then per else y.per,
                              lockn := if n = 0 then y.lockn else n }
  checkParent { s with sync := y }

/-- STE_FAB_PORT: the RW fields, then CLRST (R446, R449). -/
def writePort (p : Nat) (v : W64) (s : State) : State :=
  let s := modP p (fun x => { x with asym := BitVec.ofNat 16 (fld v 47 32) }) s
  enablePort p (bit v 0) (if bit v 16 then clearPstat p s else s)

def writeFab32 (off : Nat) (v : W32) (s : State) : State :=
  match off with
  | 0x6000 => writeFabCtrl v s
  | 0x6008 => writeFabNode v s
  | 0x6030 => writeSync v s
  | 0x6080 => { s with fab := { s.fab with evcol := BitVec.ofNat 16 (fld v 15 0) } }
  | _ => s

def writeFab64 (off : Nat) (v : W64) (s : State) : State :=
  match off with
  | 0x6018 => writeFabStatus v s
  | 0x6020 => writeSurvey v s
  | 0x6028 => writeLoad v s
  | _ =>
    if 0x6100 ≤ off then { s with fab := { s.fab with even := tset 0 s.fab.even ((off - 0x6100) / 8) v } }
    else if 0x6040 ≤ off ∧ off % 16 = 0 then writePort ((off - 0x6040) / 16) v s
    else s

/-! ### The management page (R347, R426) -/

def writeMgtCtrl (v : W32) (s : State) : State :=
  { s with mgt := { s.mgt with book := fld v 2 0, corrRec := bit v 3, testRec := bit v 4, rdrop := w1c (setThisMclk s (w1cKey 0x7000 5)) (bit v 5) s.mgt.rdrop } }

def writeScrubCfg (v : W32) (s : State) : State :=
  let g := fld v 7 0
  setScrub (fun x => { x with gap := if g = 0 then x.gap else g, passRec := bit v 8, dis := BitVec.ofNat 20 (fld v 28 9) }) s

def writeSelftest (v : W32) (s : State) : State :=
  let s := setTest (fun t => { t with target := BitVec.ofNat 5 (fld v 5 1), cmdlost := w1c (setThisMclk s (w1cKey 0x7020 10)) (bit v 10) t.cmdlost }) s
  if bit v 0 then testGo s else s

/-- STE_TELE_CTRL: the automatic period runs from the write that sets it. -/
def writeTeleCtrl (v : W32) (s : State) : State :=
  let s := setTele (fun t => { t with ch := fld v 11 2, per := fld v 19 12, periodAt := if t.per = fld v 19 12 then t.periodAt else mclk s }) s
  if bit v 0 then teleSnap s else s

def writeMgt32 (off : Nat) (v : W32) (s : State) : State :=
  match off with
  | 0x7000 => writeMgtCtrl v s
  | 0x7008 => writeScrubCfg v s
  | 0x7020 => writeSelftest v s
  | 0x7040 => writeTeleCtrl v s
  | 0x7080 => writeFence v s
  | _ => s

/-- STE_ERRC_STAT's LASTING (R347). -/
def clearLasting (cls : Nat) (v : W64) (s : State) : State :=
  setErr cls { errCls s cls with lasting := w1c (setThisMclk s (w1cKey (errcOff cls 8) 16)) (bit v 16) (errCls s cls).lasting } s

def writeMgt64 (off : Nat) (v : W64) (s : State) : State :=
  if 0x7100 ≤ off then
    let cls := (off - 0x7100) / 16
    if off % 16 = 0 then writeErrc cls v s else clearLasting cls v s
  else s

/-! ### Channels (R427 to R430) -/

/-- CH_STATUS's ABORTED. -/
def clearAborted (c : Nat) (s : State) : State :=
  modR c (fun r => { r with aborted := w1c (setNow s (w1cKey (0x8008 + 32 * c) 21)) true r.aborted }) s

/-- CH_START; a start in the same ECLK uses the value before (R448). -/
def writeStart (c : Nat) (v : W32) (s : State) : State :=
  let was := startValue s c
  modW c (fun w => { w with startWas := some (s.eclk, was) }) (modR c (fun r => { r with start := v &&& 0xFFFFFFE0 }) s)

def writeChannel (c at_ : Nat) (v : W32) (s : State) : State :=
  match at_ with
  | 0x00 => control c (.ctrl v) s
  | 0x04 => writeStart c v s
  | 0x08 => if bit v 21 then clearAborted c s else s
  | 0x0C => control c .wake s
  | 0x10 => writeLegend c v s
  | 0x14 => control c (.divert v) s
  | 0x1C => if bit v 31 then clearRearm c s else s
  | _ => s

/-! ### The whole register window -/

/-- A write to a 32-bit register; one to an unimplemented offset is ignored (R6), and those of the management page have their
own moment (R444). -/
def write32 (off : Nat) (v : W32) (samples : BitVec 512) (s : State) : State :=
  if off < 0x1000 then writeGlobal32 off v samples s
  else if off < 0x2000 then s
  else if off < 0x2200 then writeEvo ((off - 0x2000) / 4) v s
  else if off < 0x2400 then s
  else if off < 0x2600 then writeBook32 ((off - 0x2400) / 0x40) (off % 0x40) v s
  else if off < 0x3000 then s
  else if off < 0x4000 then writeMer32 off v s
  else if off < 0x5000 then writeQueue32 ((off - 0x4000) / 64) (off % 64) v s
  else if off < 0x6000 then writeAtlas32 off v s
  else if off < 0x7000 then writeFab32 off v s
  else if off < 0x8000 then s
  else writeChannel ((off - 0x8000) / 32) (off % 32) v s

/-- A write to a 64-bit register. -/
def write64 (off : Nat) (v : W64) (samples : BitVec 512) (s : State) : State :=
  if off < 0x1000 then writeGlobal64 off v s
  else if off < 0x2000 then writeReqin64 ((off - 0x1000) / 8) v (samples.getLsbD ((off - 0x1000) / 8)) s
  else if off < 0x3000 then writeBook64 ((off - 0x2400) / 0x40) (off % 0x40) v s
  else if off < 0x4000 then writeMer64 off v s
  else if off < 0x5000 then writeQueue64 ((off - 0x4000) / 64) (off % 64) v s
  else if off < 0x6000 then writeAtlas64 off v s
  else if off < 0x7000 then writeFab64 off v s
  else s

/-- The low word that a high word written alone is joined with (R443): its RW fields as they stand, and zero in
every other. -/
def regLow (s : State) (off : Nat) : W32 := if writeOnly off || lowCleared off then 0 else loWord (read64 s off)

/-- A write of an accepted size and alignment, made of those to the 32-bit and to the 64-bit registers (R442, R443). -/
def splitWrite (w32 : Nat → W32 → State → State) (w64 : Nat → W64 → State → State) (by_ : Initiator) (off size : Nat) (d : W64)
    (s : State) : State :=
  let base := off / 8 * 8
  let key := keySnap by_ base
  if size = 8 then
    if wide base then w64 base d (setLow key none s)
    else w32 (base + 4) (hiWord d) (w32 base (loWord d) s)
  else if !wide base then w32 off (loWord d) s
  else if off % 8 = 0 then setLow key (some (loWord d)) s
  else w64 base (join (loWord d) ((heldLow s key).getD (regLow s base))) (setLow key none s)
def registerWrite (by_ : Initiator) (off size : Nat) (d : W64) (samples : BitVec 512) (s : State) : State :=
  splitWrite (fun o v => write32 o v samples) (fun o v => write64 o v samples) by_ off size d s

/-- HOST_REGISTER_WRITE (R444); to the management page it takes effect in the next MCLK period (R412). -/
def execHostRegisterWrite (by_ : Initiator) (off : W16) (size : Nat) (d : W64) (samples : BitVec 512) (s : State) :
    Host.Outcome State Fault Refusal :=
  let cmd := Instr.hostRegisterWrite by_ off size d samples
  .next (if !sizeOk off.toNat size then badAccess by_ false off.toNat cmd s
    else if mgtPage off.toNat then mgtWrite by_ off.toNat cmd s
    else hostAccess by_ false true off.toNat cmd (registerWrite by_ off.toNat size d samples) s)

/-! ### Writes to the management page take effect (R412, R444) -/

def mgtEffect (i : Instr) (s : State) : State :=
  match i with
  | .fenceWrite _ v => writeFence v s
  | .errcCfgWrite by_ cls v => writeErrc cls v (setLow (keySnap by_ (errcOff cls 0)) none s)
  | .selftestGo _ target => testTarget target s
  | .teleSnap _ => teleSnap s
  | .hostRegisterWrite by_ off size d _ => splitWrite writeMgt32 writeMgt64 by_ off.toNat size d s
  | _ => s

/-- The first ECLK of an MCLK period: the write that waited acts. -/
def mgtDue (s : State) : State :=
  match s.port.mgtWait with
  | some i => mgtEffect i { s with port := { s.port with mgtWait := none } }
  | none => s

end Sys2Proof.Machine
end

