-- ==== Sys2Proof/Machine/Dispatch.lean ====
section
/-! DEFINITION. The meaning of every command, arm by arm. -/

namespace Sys2Proof.Machine

def exec (i : Instr) (s : State) : Host.Outcome State Fault Refusal :=
  match i with
  | .move c => Sys2Proof.Machine.execMove c s
  | .fill c => Sys2Proof.Machine.execFill c s
  | .cmp c => Sys2Proof.Machine.execCmp c s
  | .cmpk c => Sys2Proof.Machine.execCmpk c s
  | .scale c => Sys2Proof.Machine.execScale c s
  | .reduce c => Sys2Proof.Machine.execReduce c s
  | .movex c => Sys2Proof.Machine.execMovex c s
  | .push c => Sys2Proof.Machine.execPush c s
  | .pop c => Sys2Proof.Machine.execPop c s
  | .mark c => Sys2Proof.Machine.execMark c s
  | .rewind c => Sys2Proof.Machine.execRewind c s
  | .release c => Sys2Proof.Machine.execRelease c s
  | .pattern c => Sys2Proof.Machine.execPattern c s
  | .scalecfg c => Sys2Proof.Machine.execScalecfg c s
  | .waitreq c => Sys2Proof.Machine.execWaitreq c s
  | .waittime c => Sys2Proof.Machine.execWaittime c s
  | .waitq c => Sys2Proof.Machine.execWaitq c s
  | .barrier c => Sys2Proof.Machine.execBarrier c s
  | .signal c => Sys2Proof.Machine.execSignal c s
  | .log c => Sys2Proof.Machine.execLog c s
  | .jump c => Sys2Proof.Machine.execJump c s
  | .call c => Sys2Proof.Machine.execCall c s
  | .ret c => Sys2Proof.Machine.execReturn c s
  | .branch c => Sys2Proof.Machine.execBranch c s
  | .loop c => Sys2Proof.Machine.execLoop c s
  | .load c => Sys2Proof.Machine.execLoad c s
  | .store c => Sys2Proof.Machine.execStore c s
  | .endLeg c => Sys2Proof.Machine.execEnd c s
  | .nop c => Sys2Proof.Machine.execNop c s
  | .illegalLeg c => Sys2Proof.Machine.execIllegalLeg c s
  | .burstGrant => Sys2Proof.Machine.execBurstGrant s
  | .readResponse tag r => Sys2Proof.Machine.execReadResponse tag r s
  | .writeResponse tag r => Sys2Proof.Machine.execWriteResponse tag r s
  | .inClusterCopyDone l r => Sys2Proof.Machine.execInClusterCopyDone l r s
  | .burstReturn l => Sys2Proof.Machine.execBurstReturn l s
  | .loadDataReturn c => Sys2Proof.Machine.execLoadDataReturn c s
  | .lineFillReturn line col r => Sys2Proof.Machine.execLineFillReturn line col r s
  | .endW0Return c r => Sys2Proof.Machine.execEndW0Return c r s
  | .waitSatisfied c => Sys2Proof.Machine.execWaitSatisfied c s
  | .waittimeTargetReached c => Sys2Proof.Machine.execWaittimeTargetReached c s
  | .waitDeadlineReached c => Sys2Proof.Machine.execWaitDeadlineReached c s
  | .chStart by_ c => Sys2Proof.Machine.execChStart by_ c s
  | .chDrain by_ c => Sys2Proof.Machine.execChDrain by_ c s
  | .chPause by_ c => Sys2Proof.Machine.execChPause by_ c s
  | .chResume by_ c => Sys2Proof.Machine.execChResume by_ c s
  | .chAbort by_ c => Sys2Proof.Machine.execChAbort by_ c s
  | .pauseStopPoint c => Sys2Proof.Machine.execPauseStopPoint c s
  | .drainComplete c => Sys2Proof.Machine.execDrainComplete c s
  | .faultEntry c => Sys2Proof.Machine.execFaultEntry c s
  | .faultToOff c => Sys2Proof.Machine.execFaultToOff c s
  | .chWake by_ c => Sys2Proof.Machine.execChWake by_ c s
  | .chDivert by_ c target => Sys2Proof.Machine.execChDivert by_ c target s
  | .chLegendWrite by_ c v => Sys2Proof.Machine.execChLegendWrite by_ c v s
  | .chRearmClr by_ c => Sys2Proof.Machine.execChRearmClr by_ c s
  | .pageSwap => Sys2Proof.Machine.execPageSwap s
  | .pageTransferDone found word => Sys2Proof.Machine.execPageTransferDone found word s
  | .pinRequest n x => Sys2Proof.Machine.execPinRequest n x s
  | .qualificationGained n x => Sys2Proof.Machine.execQualificationGained n x s
  | .qualificationLost n => Sys2Proof.Machine.execQualificationLost n s
  | .levelRearm c => Sys2Proof.Machine.execLevelRearm c s
  | .swreq by_ n => Sys2Proof.Machine.execSwreq by_ n s
  | .reqinClrcnt by_ n => Sys2Proof.Machine.execReqinClrcnt by_ n s
  | .reqinConfigWrite by_ n v x => Sys2Proof.Machine.execReqinConfigWrite by_ n v x s
  | .swpulse by_ m => Sys2Proof.Machine.execSwpulse by_ m s
  | .evoConfigWrite by_ m v => Sys2Proof.Machine.execEvoConfigWrite by_ m v s
  | .pulseEnd m => Sys2Proof.Machine.execPulseEnd m s
  | .tagClrhw by_ => Sys2Proof.Machine.execTagClrhw by_ s
  | .merNowRead by_ wide => Sys2Proof.Machine.execMerNowRead by_ wide s
  | .merSet by_ v => Sys2Proof.Machine.execMerSet by_ v s
  | .merAdj by_ v => Sys2Proof.Machine.execMerAdj by_ v s
  | .merSrcChange by_ src => Sys2Proof.Machine.execMerSrcChange by_ src s
  | .holdoverStart pathLost => Sys2Proof.Machine.execHoldoverStart pathLost s
  | .holdoverExpiry => Sys2Proof.Machine.execHoldoverExpiry s
  | .insert by_ => Sys2Proof.Machine.execInsert by_ s
  | .delete by_ index => Sys2Proof.Machine.execDelete by_ index s
  | .replace by_ index => Sys2Proof.Machine.execReplace by_ index s
  | .gratCommandComplete => Sys2Proof.Machine.execGratCommandComplete s
  | .gratFiring found => Sys2Proof.Machine.execGratFiring found s
  | .gratActionDelivery => Sys2Proof.Machine.execGratActionDelivery s
  | .gratLead index => Sys2Proof.Machine.execGratLead index s
  | .gratEnable by_ => Sys2Proof.Machine.execGratEnable by_ s
  | .gratClrcnt by_ => Sys2Proof.Machine.execGratClrcnt by_ s
  | .recordTake => Sys2Proof.Machine.execRecordTake s
  | .recordWriteDone b => Sys2Proof.Machine.execRecordWriteDone b s
  | .recordWriteFailed b => Sys2Proof.Machine.execRecordWriteFailed b s
  | .bookEnable by_ b => Sys2Proof.Machine.execBookEnable by_ b s
  | .bookRidxWrite by_ b v => Sys2Proof.Machine.execBookRidxWrite by_ b v s
  | .bookTimerExpiry b => Sys2Proof.Machine.execBookTimerExpiry b s
  | .hostPush by_ q d => Sys2Proof.Machine.execHostPush by_ q d s
  | .hostPushend by_ q d => Sys2Proof.Machine.execHostPushend by_ q d s
  | .hostPop by_ q wide => Sys2Proof.Machine.execHostPop by_ q wide s
  | .queueReset by_ q cfg => Sys2Proof.Machine.execQueueReset by_ q cfg s
  | .unmark by_ q => Sys2Proof.Machine.execUnmark by_ q s
  | .tailToHead q => Sys2Proof.Machine.execTailToHead q s
  | .halfGroupSpill q => Sys2Proof.Machine.execHalfGroupSpill q s
  | .tailIdleFlush q => Sys2Proof.Machine.execTailIdleFlush q s
  | .headRefill q => Sys2Proof.Machine.execHeadRefill q s
  | .spillResponse tag r => Sys2Proof.Machine.execSpillResponse tag r s
  | .spillBaseWrite by_ v => Sys2Proof.Machine.execSpillBaseWrite by_ v s
  | .spillClrhw by_ => Sys2Proof.Machine.execSpillClrhw by_ s
  | .atlasStageWrite by_ off size d => Sys2Proof.Machine.execAtlasStageWrite by_ off size d s
  | .commitGo by_ gridrst => Sys2Proof.Machine.execCommitGo by_ gridrst s
  | .commitSwitch => Sys2Proof.Machine.execCommitSwitch s
  | .commitCopyIn => Sys2Proof.Machine.execCommitCopyIn s
  | .commitDrained => Sys2Proof.Machine.execCommitDrained s
  | .atlasClrcnt by_ => Sys2Proof.Machine.execAtlasClrcnt by_ s
  | .lifecycleChange level => Sys2Proof.Machine.execLifecycleChange level s
  | .remoteTimeout ftag => Sys2Proof.Machine.execRemoteTimeout ftag s
  | .globalHaltEntry line col => Sys2Proof.Machine.execGlobalHaltEntry line col s
  | .channelHalted c => Sys2Proof.Machine.execChannelHalted c s
  | .haltIssueStop => Sys2Proof.Machine.execHaltIssueStop s
  | .haltRetryIssue => Sys2Proof.Machine.execHaltRetryIssue s
  | .haltRetryEnd r => Sys2Proof.Machine.execHaltRetryEnd r s
  | .haltDecision => Sys2Proof.Machine.execHaltDecision s
  | .recovery => Sys2Proof.Machine.execRecovery s
  | .globalResume by_ => Sys2Proof.Machine.execGlobalResume by_ s
  | .errorWindowEnd cls => Sys2Proof.Machine.execErrorWindowEnd cls s
  | .lastingFault cls => Sys2Proof.Machine.execLastingFault cls s
  | .fenceWrite by_ v => Sys2Proof.Machine.execFenceWrite by_ v s
  | .errcCfgWrite by_ cls v => Sys2Proof.Machine.execErrcCfgWrite by_ cls v s
  | .portEnable by_ p en => Sys2Proof.Machine.execPortEnable by_ p en s
  | .linkUp p nbr nbrv => Sys2Proof.Machine.execLinkUp p nbr nbrv s
  | .linkDown p cause => Sys2Proof.Machine.execLinkDown p cause s
  | .rxWrs p h addr tag pois mask data => Sys2Proof.Machine.execRxWrs p h addr tag pois mask data s
  | .rxWr p h addr tag units => Sys2Proof.Machine.execRxWr p h addr tag units s
  | .rxRd p h addr tag mask => Sys2Proof.Machine.execRxRd p h addr tag mask s
  | .destResponseTimeout id => Sys2Proof.Machine.execDestResponseTimeout id s
  | .rxEv p h rnum => Sys2Proof.Machine.execRxEv p h rnum s
  | .rxAck p h addr tag => Sys2Proof.Machine.execRxAck p h addr tag s
  | .rxNak p h addr tag reason dom unit => Sys2Proof.Machine.execRxNak p h addr tag reason dom unit s
  | .rxRdr p h addr tag pois data => Sys2Proof.Machine.execRxRdr p h addr tag pois data s
  | .rxSynq p h at_ leave => Sys2Proof.Machine.execRxSynq p h at_ leave s
  | .rxSynr p h nosync t2 t3 at_ => Sys2Proof.Machine.execRxSynr p h nosync t2 t3 at_ s
  | .syncExchange leave => Sys2Proof.Machine.execSyncExchange leave s
  | .synrTimeout => Sys2Proof.Machine.execSynrTimeout s
  | .rxSv p h path assign id => Sys2Proof.Machine.execRxSv p h path assign id s
  | .rxSvr p h path uid id idv want wantv arr ports => Sys2Proof.Machine.execRxSvr p h path uid id idv want wantv arr ports s
  | .svTimeout => Sys2Proof.Machine.execSvTimeout s
  | .rxRl p h path last first entries => Sys2Proof.Machine.execRxRl p h path last first entries s
  | .rlTimeout => Sys2Proof.Machine.execRlTimeout s
  | .rxNote p h leave port nbr nbrv => Sys2Proof.Machine.execRxNote p h leave port nbr nbrv s
  | .rxReservedKind p h kind => Sys2Proof.Machine.execRxReservedKind p h kind s
  | .frameForward p f => Sys2Proof.Machine.execFrameForward p f s
  | .frameCrcFail p bad => Sys2Proof.Machine.execFrameCrcFail p bad s
  | .nakWord p lseq => Sys2Proof.Machine.execNakWord p lseq s
  | .ackWord p lseq => Sys2Proof.Machine.execAckWord p lseq s
  | .creditWord p rt flits => Sys2Proof.Machine.execCreditWord p rt flits s
  | .identWord p nbr nbrv => Sys2Proof.Machine.execIdentWord p nbr nbrv s
  | .skipDue p => Sys2Proof.Machine.execSkipDue p s
  | .identDue p => Sys2Proof.Machine.execIdentDue p s
  | .surveyGo by_ => Sys2Proof.Machine.execSurveyGo by_ s
  | .routeLoadGo by_ v => Sys2Proof.Machine.execRouteLoadGo by_ v s
  | .routeTableWrite by_ node v => Sys2Proof.Machine.execRouteTableWrite by_ node v s
  | .portClrst by_ p => Sys2Proof.Machine.execPortClrst by_ p s
  | .pdreqRise d => Sys2Proof.Machine.execPdreqRise d s
  | .pdreqDrop d => Sys2Proof.Machine.execPdreqDrop d s
  | .pgoodFall d => Sys2Proof.Machine.execPgoodFall d s
  | .domainReturn d => Sys2Proof.Machine.execDomainReturn d s
  | .pdack d => Sys2Proof.Machine.execPdack d s
  | .pdnak d => Sys2Proof.Machine.execPdnak d s
  | .bankbusyClear b => Sys2Proof.Machine.execBankbusyClear b s
  | .flashTimeout c => Sys2Proof.Machine.execFlashTimeout c s
  | .debugAccess write addr size d => Sys2Proof.Machine.execDebugAccess write addr size d s
  | .coldReset => Sys2Proof.Machine.execColdReset s
  | .warmReset => Sys2Proof.Machine.execWarmReset s
  | .engineResetRequest by_ key => Sys2Proof.Machine.execEngineResetRequest by_ key s
  | .engineResetWaitEnd => Sys2Proof.Machine.execEngineResetWaitEnd s
  | .resetRelease => Sys2Proof.Machine.execResetRelease s
  | .readyBitSet bit => Sys2Proof.Machine.execReadyBitSet bit s
  | .spreadWrite by_ depth => Sys2Proof.Machine.execSpreadWrite by_ depth s
  | .spreadApply => Sys2Proof.Machine.execSpreadApply s
  | .legInvWrite by_ addr => Sys2Proof.Machine.execLegInvWrite by_ addr s
  | .scrubStep store found => Sys2Proof.Machine.execScrubStep store found s
  | .scrubForcedSlot store found => Sys2Proof.Machine.execScrubForcedSlot store found s
  | .selftestGo by_ target => Sys2Proof.Machine.execSelftestGo by_ target s
  | .selftestStopped => Sys2Proof.Machine.execSelftestStopped s
  | .selftestComplete pass res => Sys2Proof.Machine.execSelftestComplete pass res s
  | .teleSnap by_ => Sys2Proof.Machine.execTeleSnap by_ s
  | .telePeriodExpiry => Sys2Proof.Machine.execTelePeriodExpiry s
  | .teleCapture => Sys2Proof.Machine.execTeleCapture s
  | .hostTableRead by_ off size found => Sys2Proof.Machine.execHostTableRead by_ off size found s
  | .hostRegisterWrite by_ off size d samples => Sys2Proof.Machine.execHostRegisterWrite by_ off size d samples s
  | .bankbusySet b => Sys2Proof.Machine.execBankbusySet b s
  | .filterOutputChange n x => Sys2Proof.Machine.execFilterOutputChange n x s
  | .synchronised => Sys2Proof.Machine.execSynchronised s
  | .lowWordRead by_ at_ => Sys2Proof.Machine.execLowWordRead by_ at_ s

end Sys2Proof.Machine
end

