-- ==== Sys2Proof/Machine/Tick.lean ====
section
/-! DEFINITION. What time alone does in one ECLK (log entry 2): Meridian (R232), the issue of accesses on the ports
(R210 to R216, R378, R380) and of leg fetches (R213, R450), outbound frames (R354), the links' transmission (R355), and
the counts of time. -/

namespace Sys2Proof.Machine

/-! ### Meridian (R232, R234, R239) -/

/-- base, in 2^-32 ns, with the modulator's frequency word of this ECLK (log entry 9). -/
def baseInc (s : State) : Nat :=
  roundDiv (5 * 2 ^ 30 * ((2 ^ 40 : Int) + s.mer.rate.toInt).toNat * 2 ^ 32) (2 ^ 40 * (2 ^ 32 - spreadM s))

/-- What REMAIN gives or takes in one ECLK. -/
def slewPart (base slew : Nat) (remain : Int) : Int :=
  let d : Int := ((roundDiv (base * slew) 1000000 : Nat) : Int)
  if remain.natAbs ≤ d.natAbs then remain else if 0 < remain then d else -d

/-- STE_MER_SET's value meets the count that this ECLK reaches. -/
def applySet (s : State) : State :=
  match s.mer.setPend with
  | none => s
  | some v =>
    let s := { s with mer := { s.mer with setPend := none } }
    if s.mer.now < v.toNat * 2 ^ 32 then
      stepped (to24 (((v.toNat * 2 ^ 32 : Nat) : Int) - s.mer.now)) { s with mer := { s.mer with now := v.toNat * 2 ^ 32, remain := 0, slewed := 0 } }
    else rejected s

def merTick (s : State) : State :=
  let base := baseInc s
  let part := slewPart base s.mer.slew s.mer.remain
  let inc := ((base : Int) + part).toNat
  applySet { s with mer := { s.mer with now := s.mer.now + inc, remain := s.mer.remain - part, inc := inc, slewed := part }
                    glob := { s.glob with profile := profileNext s } }

/-! ### Errors that come into the stores (R295, R314, R340; log entry 46) -/

def flip (it : Item) : Item := { it with par := !it.par }

/-- An error in a register of queue q: the tail's 8, then the head's. -/
def queueUpset (q i : Nat) (s : State) : State :=
  modQ q (fun x => if i < 8 then { x with tail := x.tail.modify i flip }
                   else { x with head := x.head.modify (i - 8) (fun h => if h.inReg then { h with it := flip h.it } else h) }) s

/-- A codeword comes to hold an error. -/
def upsetWord (u : Upset) (s : State) : State :=
  match u.store with
  | 1 =>
    (match cacheLine s u.word with
     | some e => { s with lcache := modWhere (fun x => decide (x = e)) (fun x => { x with bad := x.bad || !u.soft, soft := x.soft || u.soft }) s.lcache }
     | none => s)
  | 0 | 2 | 3 | 4 | 5 | 6 | 7 | 8 | 9 | 10 =>
    let w := (u.store, storeKey u.store u.word)
    if uninitialised s u.store u.word then s
    else if u.soft then (if s.atlas.soft.contains w then s else { s with atlas := { s.atlas with soft := s.atlas.soft ++ [w] } })
    else loseWord.addBad w s
  | 19 => queueUpset (u.word / 16) (u.word % 16) s
  | 20 =>
    if (tfind? s.atlas.staging u.word).isSome then { s with atlas := { s.atlas with stgBad := s.atlas.stgBad.filter (· != u.word) ++ [u.word] } } else s
  | _ =>
    let x := lane s (u.store - 11)
    setLane (u.store - 11) { x with upset := x.upset || !u.soft, soft := x.soft || u.soft } s

/-- The errors of this ECLK. -/
def applyUpsets (s : State) : State :=
  let due := s.upsets.filter (fun u => decide (u.at_ ≤ s.eclk))
  due.foldl (fun s u => upsetWord u s) { s with upsets := s.upsets.filter (fun u => !decide (u.at_ ≤ s.eclk)) }

/-! ### Lookups that complete (R156, R157, R308 to R320, R450) -/

/-- The access is allowed: it carries this epoch (R315). -/
def allowedAcc (s : State) (v : Verdict) (a : Acc) : Acc := { a with decided := true, colour := v.colour, epoch := s.atlas.epoch }

/-- In a sheet with DEVICE set, each part of a lane's access is an access of its own (R157). -/
def splitAcc (a : Acc) : List Acc := a.parts.map (fun p => { a with parts := [p], mask := partMask p })

def isLane (o : Owner) : Bool := match o with | .lane _ _ => true | _ => false
def splits (v : Verdict) (a : Acc) : Bool := v.device && isLane a.owner && decide (1 < a.parts.length)

/-- An access that its lookup has allowed. -/
def allowAcc (a : Acc) (v : Verdict) (s : State) : State :=
  if splits v a then
    let parts := splitAcc (allowedAcc s v a)
    let s := { s with offered := s.offered.flatMap (fun x => if x = a then parts else [x]) }
    match a.wr, a.ch with
    | true, some (c, _, _) => (parts.drop 1).foldl (fun s _ => addCovered c true s) s
    | _, _ => s
  else { s with offered := modWhere (fun x => decide (x = a)) (allowedAcc s v) s.offered }

/-- A check-only lookup of an in-cluster copy is allowed (R89); the copy is of the epoch of the first (R316). -/
def allowOnly (a : Acc) (s : State) : State :=
  let first := fun (l : Nat) (s : State) =>
    match burstOn s l with
    | some b => if copyChecked s l b then s else modB l (fun b => { b with epoch := s.atlas.epoch }) s
    | none => s
  let s := match a.owner with | .lane l _ => first l s | _ => s
  { s with offered := s.offered.erase a }

/-- The lookup of an access that waits completes (R311). -/
def matureAcc (s : State) (a : Acc) : State :=
  match a.ask with
  | some q =>
    if a.decided || decide (s.eclk < a.readyAt) || !s.offered.contains a then s
    else
      match settle q false s with
      | (s, v) =>
        match v.cause with
        | some n => denyAcc a n s
        | none => if a.only then allowOnly a s else allowAcc a v s
  | none => s

/-- A leg fetch is denied: a prefetch is dropped (R26), the retry of a halt succeeds (R336), and every other is answered so. -/
def denyFetch (f : Fetch) (s : State) : State :=
  match f.kind with
  | .prefetch => dropFetch f s
  | .retry => endRetry true false (dropFetch f s)
  | _ => { s with fetches := modWhere (fun x => decide (x = f)) (fun x => { x with decided := true, denied := true }) s.fetches }

/-- The lookup of a leg fetch completes (R311, R450). -/
def matureFetch (s : State) (f : Fetch) : State :=
  if f.decided || decide (s.eclk < f.readyAt) || !s.fetches.contains f then s
  else
    match settle (askFetch f) (decide (f.kind = .prefetch)) s with
    | (s, v) =>
      if allowed v then { s with fetches := modWhere (fun x => decide (x = f)) (fun x => { x with decided := true, epoch := s.atlas.epoch }) s.fetches }
      else denyFetch f s

def lookups (s : State) : State :=
  let s := s.offered.foldl matureAcc s
  s.fetches.foldl matureFetch s

/-! ### Accesses that are not to be issued (R85, R330, R378, R380) -/

/-- Take an access out of those that wait. -/
def withdraw (a : Acc) (s : State) : State :=
  let s := { s with offered := s.offered.erase a }
  match a.owner, a.ch with
  | .lane _ _, some (c, _, _) => if a.wr && !a.only then dropCovered c (isLocal s a.gaddr) s else s
  | .store c, _ => dropCovered c (isLocal s a.gaddr) s
  | _, _ => s

/-- The parts of a lane's access that its burst still has to do. -/
def keptParts (b : Burst) (a : Acc) (side : Side) : List Part :=
  if decide (b.why = .aborted) then []
  else if decide (side = .res) then a.parts
  else if a.wr then a.parts.filter (mayWrite b) else a.parts.filter (fun p => decide (p.el < b.limit))

/-- A lane's access as its burst's end leaves it. -/
def trimAcc (s : State) (a : Acc) : State :=
  match a.owner with
  | .lane l side =>
    (match burstOn s l with
     | some b =>
       let ps := keptParts b a side
       if ps.isEmpty then withdraw a s
       else if ps.length = a.parts.length then s
       else
         let m := ps.foldl (fun m p => m ||| partMask p) 0
         { s with offered := modWhere (fun x => decide (x = a)) (fun x => { x with parts := ps, mask := m }) s.offered }
     | none => s)
  | _ => s

def isDown (s : State) (d : Nat) : Bool := !bit s.power.pgood d || bit s.power.down d

/-- STE_PD_STAT.INBDN (R380). -/
def noteDown (d src : Nat) (a : W32) (s : State) : State :=
  let was := s.power.inbdn
  let s := markSet (w1cKey 0xB8 48) (setPower (fun p => { p with inbdn := true }) s)
  if was then s else pdRec 0x63 d src (BitVec.setWidth 64 a) s

/-- An access of R380 meets a domain that is down. -/
def endsDown (a : Acc) (d : Nat) (s : State) : State :=
  let s := { s with offered := s.offered.erase a }
  match a.owner with
  | .inbound id u =>
    let src := match s.fab.inb.find? (fun i => i.id == id) with | some i => i.src.toNat | none => 0
    inboundUnit id u (some (3, d)) 0 false (noteDown d src a.blk s)
  | _ => if a.wr then writeEnd a false (noteDown d 0 a.blk s) else readEnd a none (noteDown d 0 a.blk s)

/-- A local access that waits targets domain d, which is shut (R378, R380). -/
def meetsShut (a : Acc) (d : Nat) (s : State) : State :=
  let addr := firstAddr ⟨blockOf a.gaddr, a.parts⟩
  match a.owner with
  | .lane l side =>
    let s := withdraw a s
    if decide (side = .res) then modB l (fun b => { b with why := .held d addr }) s
    else cut l (firstEl ⟨blockOf a.gaddr, a.parts⟩) (.held d addr) s
  | .load c => goHeld c d addr s
  | .store c => if (ctx s c).w.faulting.isSome then withdraw a s else goHeld c d addr s
  | _ => if isDown s d then endsDown a d s else s

def shutAcc (s : State) (a : Acc) : Option Nat := if isLocal s a.gaddr then shutDomain s a.blk else none

/-- One access is looked at before the ports are given out. -/
def sweepOne (s : State) (a : Acc) : State :=
  if !s.offered.contains a || a.only then s
  else
    match shutAcc s a with
    | some d => meetsShut a d s
    | none => s
def sweep (s : State) : State :=
  let s := s.offered.foldl trimAcc s
  let s := s.offered.foldl sweepOne s
  s.offered.foldl trimAcc s

/-! ### The ports (R210 to R214, R216, R260, R359) -/

def overlapAcc (a b : Acc) : Bool := a.blk == b.blk && a.mask &&& b.mask != 0
def chanOf (a : Acc) : Option Nat := a.ch.map (·.1)

/-- Write b of the same channel comes before access a to the same bytes (R260); a burst's source is free of its own
destination (R83). -/
def orderedAfter (a b : Acc) : Bool :=
  b.wr && !b.only && (chanOf a).isSome && chanOf a == chanOf b && overlapAcc a b &&
  !(match a.owner, b.owner with | .lane l .src, .lane k .dst => l == k && a.bno == b.bno | _, _ => false)

/-- The source node and class of an inbound access. -/
def inboundKey (s : State) (a : Acc) : Option (BitVec 12 × Bool) :=
  match a.owner with
  | .inbound id _ => (s.fab.inb.find? (fun i => i.id == id)).map (fun i => (i.src, i.rt))
  | _ => none

/-- Inbound writes of one source and class (R359). -/
def sameStream (s : State) (a b : Acc) : Bool := a.wr && b.wr && (inboundKey s a).isSome && inboundKey s a == inboundKey s b

/-- An access that waits keeps a behind it: the same lane's earlier access of a direction (R157, R216), the lower block of
the same LOAD or STORE (R137), the debug path's order (R391), or an inbound stream's (R359).  Of two read sides of a lane, the
side that is offered first goes first (DESIGN CHOICE, log entry 45). -/
def queuedBefore (s : State) (a b : Acc) : Bool :=
  (match a.owner, b.owner with
   | .lane l _, .lane k _ => l == k && a.wr == b.wr && isLocal s a.gaddr == isLocal s b.gaddr
   | .debug _, .debug _ => true
   | .load c, .load d => c == d
   | .store c, .store d => c == d
   | _, _ => false) || sameStream s a b

/-- The access takes a tag of the shared pool: it is no lane's, or its lane's allotment is held. -/
def takesShared (s : State) (o : Owner) : Bool := match o with | .lane l _ => decide (256 ≤ laneTags s l) | _ => true
def sharedUse (s : State) : Nat := (s.outst.filter (·.shared)).length
def tagFree (s : State) (a : Acc) : Bool := !takesShared s a.owner || decide (sharedUse s < 2048)

/-- The channel of a LOAD or STORE is where its accesses may go out: it is resident, or stops (R54, R322, R330). -/
def singleReady (s : State) (o : Owner) : Bool :=
  match o with
  | .load c | .store c =>
    (decide ((ctx s c).r.state = .active) && (resident s c || (ctx s c).w.faulting.isSome)) || decide ((ctx s c).r.state = .draining)
  | _ => true

/-- A new record's write is not issued once an engine reset has begun (R398). -/
def recordStops (s : State) (o : Owner) : Bool := quiet s && (match o with | .record _ second => !second | _ => false)

/-- The second write of a record waits for the first to be accepted (R276). -/
def recordWaits (s : State) (o : Owner) : Bool :=
  match o with
  | .record b true => (match (book s b).under with | some u => !u.second | none => true)
  | _ => false

/-- The elided mark of a lane's write (R92). -/
def isEldWrite (s : State) (a : Acc) : Bool :=
  match a.owner with
  | .lane l .dst => a.wr && (match burstOn s l with | some b => isElided b.leg | none => false)
  | _ => false
/-- The parts of an elided element go out once all of them are allowed, so that one in a DEVICE sheet keeps every part back
(R92). -/
def elidedWaits (s : State) (a : Acc) : Bool := isEldWrite s a && s.offered.any (fun x => decide (x.owner = a.owner) && !x.decided)

/-- Access a, behind those of `before`, may be issued in this ECLK. -/
def mayIssue (s : State) (before : List Acc) (a : Acc) : Bool :=
  isLocal s a.gaddr && a.decided && !a.only && !recordWaits s a.owner && !elidedWaits s a && (shutDomain s a.blk).isNone && singleReady s a.owner && !recordStops s a.owner &&
  !before.any (fun b => queuedBefore s a b || orderedAfter a b) && !s.outst.any (fun b => orderedAfter a b || (sameStream s a b && overlapAcc a b)) &&
  tagFree s a

/-- R210, R211: by rank, then by age, then lanes in order and the others by their number. -/
def goesFirst (a b : Acc) : Bool :=
  decide (a.rank < b.rank) || (decide (a.rank = b.rank) && (decide (a.at_ < b.at_) || (decide (a.at_ = b.at_) && decide (a.ord < b.ord))))

/-- Those that may be issued in one direction, in the order in which they were offered. -/
def ready (s : State) (wr : Bool) : List Acc → List Acc → List Acc
  | _, [] => []
  | before, a :: t => if a.wr == wr && mayIssue s before a then a :: ready s wr (before ++ [a]) t else ready s wr (before ++ [a]) t

def firstOf (l : List Acc) : Option Acc :=
  l.foldl (fun o a => match o with | none => some a | some b => if goesFirst a b then some a else some b) none

/-- A part of a STORE has gone out: with the last of them the leg completes (R137, R420). -/
def storeIssued (c : Nat) (loc : Bool) (s : State) : State :=
  let s := modW c (fun w => { w with storeLeft := w.storeLeft - 1 }) s
  let x := ctx s c
  if decide (x.w.storeLeft = 0) && decide (x.w.phase = .single) && decide (opOf x.r.leg = 0x46) && x.w.faulting.isNone then
    let w := dwB x.r.leg
    finish c (addEnergy c (192 + (if loc then 11 else 640) * w) w s)
  else s

/-- What an access adds to its burst's counts, or to the block's energy, as it is issued (R420, R421). -/
def countIssue (a : Acc) (s : State) : State :=
  let n := popcount a.mask
  match a.owner with
  | .lane l side =>
    let data := decide (side = .dst) || decide (side = .res)
    modB l (fun b => if a.wr then { b with wrBytes := b.wrBytes + n, moved := b.moved + (if data then n else 0) } else { b with rdBytes := b.rdBytes + n }) s
  | .spill _ _ => blockEnergy (192 + 11 * n) s
  | .record _ _ | .inbound _ _ => blockEnergy (11 * n) s
  | _ => s

/-- An access is issued on port p. -/
def issueAcc (a : Acc) (p : Nat) (s : State) : State :=
  let a' : Acc := { a with tag := s.nextTag, port := some p, shared := takesShared s a.owner }
  let s := { s with offered := s.offered.erase a, outst := s.outst ++ [a'], nextTag := s.nextTag + 1 }
  let s := countIssue a (markTags s)
  match a.owner with
  | .lane l _ =>
    (match domainOf s a.blk with
     | some d => modB l (fun b => { b with doms := setBit b.doms d true }) s
     | none => s)
  | .store c => storeIssued c true s
  | _ => s

def lowestPort (used : List Nat) : Nat := (([0, 1, 2, 3] : List Nat).find? (fun p => !used.contains p)).getD 0

/-- The side of a lane, for reads or for writes, has issued its one access of this ECLK, whose first tag is `first` (R160); so
has a LOAD or STORE, whose lower block goes first (R155). -/
def sideUsed (s : State) (first : Nat) (a : Acc) : Bool :=
  let mine := fun (b : Acc) =>
    match a.owner, b.owner with
    | .lane l _, .lane k _ => l == k && a.wr == b.wr
    | .load c, .load d => c == d
    | .store c, .store d => c == d
    | _, _ => false
  s.outst.any (fun b => decide (first ≤ b.tag) && mine b)

/-- Up to four accesses of each direction, in the order of rank, each on its home port or else on the lowest free one (R210 to
R212, R214). -/
def issuePorts (first : Nat) : Nat → List Nat → List Nat → State → State
  | 0, _, _, s => s
  | n + 1, rd, wr, s =>
    let reads := if rd.length < 4 then ready s false [] s.offered else []
    let writes := if wr.length < 4 then ready s true [] s.offered else []
    match firstOf ((reads ++ writes).filter (fun a => !sideUsed s first a)) with
    | none => s
    | some a =>
      let used := if a.wr then wr else rd
      let p := if used.contains a.home then lowestPort used else a.home
      let s := issueAcc a p s
      if a.wr then issuePorts first n rd (p :: wr) s else issuePorts first n (p :: rd) wr s

/-! ### The leg-fetch port (R213, R336, R378, R384, R450) -/

/-- A fetch that waits meets a busy bank or a shut domain. -/
def sweepFetch (s : State) (f : Fetch) : State :=
  if f.issued || f.denied || decide (f.kind = .retry) then s
  else
    match shutDomain s f.addr with
    | some d => (fetchWaiters f).foldl (fun s c => goHeld c d (localAddr (ctx s c).r.pc) s) (dropFetch f s)
    | none => if bankBusy s f.addr && decide (f.kind = .prefetch) then dropFetch f s else s

/-- A fetch on a channel's behalf goes out while the channel has a slot (R54). -/
def waiterIn (s : State) (f : Fetch) : Bool :=
  match f.kind with
  | .endW0 c => resident s c
  | .demand => f.waiters.any (resident s)
  | .prefetch | .retry => true

def fetchReady (s : State) (f : Fetch) : Bool :=
  waiterIn s f && !f.issued && f.decided && !f.denied && (shutDomain s f.addr).isNone && !bankBusy s f.addr &&
  (!haltStop s || isRetry f)

/-- The retry, then by the class of the channels that need the line, then prefetches (R213, R336). -/
def fetchRank (f : Fetch) : Nat :=
  if decide (f.kind = .retry) then 0 else if decide (f.kind = .prefetch) then 9
  else 1 + ((f.clss.filter (fun e => (fetchWaiters f).contains e.1)).map (·.2)).foldl min 7
def fetchFirst (a b : Fetch) : Bool := decide (fetchRank a < fetchRank b) || (decide (fetchRank a = fetchRank b) && decide (a.at_ < b.at_))

/-- One fetch is issued; an END read clears the sticky wake (R67). -/
def issueFetch (s : State) : State :=
  let best := (s.fetches.filter (fetchReady s)).foldl
    (fun o f => match o with | none => some f | some g => if fetchFirst f g then some f else some g) (none : Option Fetch)
  match best with
  | none => s
  | some f =>
    let s := { s with fetches := modWhere (fun g => decide (g = f)) (fun g => { g with issued := true, busySeen := false }) s.fetches }
    match f.kind with
    | .endW0 c => modR c (fun r => { r with wake := false }) s
    | _ => s

/-! ### Outbound frames (R215, R354) -/

def lowestTag (out : List FOut) : Nat → Nat → Nat
  | 0, i => i
  | n + 1, i => if out.any (fun f => f.ftag == i) then lowestTag out n (i + 1) else i

def chanTags (s : State) (c : Nat) : Nat :=
  (s.fab.out.filter (fun f => match f.ch with | some (k, _, _) => k == c | none => false)).length

/-- The limits of R215. -/
def fabTagFree (s : State) (rt : Bool) (c : Nat) : Bool :=
  decide (s.fab.out.length < 12288) && (rt || decide ((s.fab.out.filter (fun f => !f.rt)).length < 11264)) && decide (chanTags s c < 1024)

def isShort (m : W16) : Bool := fld m 7 0 == 0 || fld m 15 8 == 0
def isRemote (s : State) (a : Acc) : Bool := !isLocal s a.gaddr

/-- Write b goes into the same WR frame, right behind a. -/
def follows (a b : Acc) : Bool :=
  b.wr && decide (a.owner = b.owner) && isLane a.owner && !isShort b.mask && b.gaddr == a.gaddr + 16 && fld b.gaddr 31 0 != 0

/-- The accesses that travel together with the first: up to 8 long write units in ascending blocks. -/
def takeRun : Nat → Acc → List Acc → List Acc
  | 0, _, _ => []
  | _, _, [] => []
  | n + 1, a, b :: t => if follows a b then b :: takeRun n b t else []

/-- The accesses of a lane that wait behind a. -/
def laneRest (s : State) (a : Acc) : List Acc :=
  ((s.offered.dropWhile (fun x => !decide (x = a))).drop 1).filter (fun b => isRemote s b && b.wr && decide (b.owner = a.owner))

def frameBody (tag : Nat) (us : List Acc) (wr : Bool) : Body :=
  let t := BitVec.ofNat 14 tag
  match us with
  | [] => .reserved 15
  | u :: _ =>
    if !wr then .rd u.blk t u.mask
    else if us.length = 1 && isShort u.mask then
      let hi := fld u.mask 7 0 == 0
      let off := if hi then 8 else 0
      .wrs (u.blk + BitVec.ofNat 32 off) t u.poison (BitVec.ofNat 8 (fld u.mask (off + 7) off)) (BitVec.ofNat 64 (bytesAt u.data off 8))
    else .wr u.blk t (us.map (fun x => ⟨x.mask, x.data, x.poison⟩))

/-- The accesses of the frame that a starts. -/
def runOf (s : State) (a : Acc) : List Acc :=
  if a.wr && isLane a.owner && !isShort a.mask then a :: takeRun 7 a (laneRest s a) else [a]

/-- The run may still grow by the burst's next write, which is not yet formed (R354). -/
def runWaits (s : State) (a : Acc) : Bool :=
  let us := runOf s a
  let last := us.getLast?.getD a
  match a.owner with
  | .lane l .dst =>
    a.wr && !isShort a.mask && decide (us.length < 8) && decide ((laneRest s a).length + 1 = us.length) &&
    (match burstOn s l with
     | some b =>
       (match b.wq with
        | n :: _ => n.blk == last.gaddr + 16 && fld n.blk 31 0 != 0 && !isShort (accMask n)
        | [] => false)
     | none => false)
  | _ => false

/-- Payload bytes that a lane sends (R420). -/
def countSent (us : List Acc) (s : State) : State :=
  us.foldl (fun s u =>
    match u.owner with
    | .lane l side =>
      let n := if u.wr then popcount u.mask else 0
      modB l (fun b => { b with fabBytes := b.fabBytes + n, moved := b.moved + (if decide (side = .shWr) then 0 else n) }) s
    | _ => s) s

/-- The router takes one frame's accesses, the first of which is a. -/
def sendAcc (a : Acc) (c : Nat) (s : State) : State :=
  let us := runOf s a
  let rt := isRt s c
  let eld := isEldWrite s a
  let tag := lowestTag s.fab.out 12288 0
  let o : FOut := { ftag := tag, owner := a.owner, wr := a.wr, addr := firstAddr ⟨blockOf a.gaddr, a.parts⟩,
                    units := us.map (fun u => ⟨blockOf u.gaddr, u.parts⟩), rt := rt, at_ := s.eclk, ch := a.ch, bno := a.bno, orphan := a.orphan, elided := eld }
  let s := { s with offered := us.foldl (fun l u => l.erase u) s.offered, fab := { s.fab with out := s.fab.out ++ [o] } }
  let s := countSent us (markTags s)
  let s := if s.fab.en then routeFrame ⟨hdr s rt a.colour (gNode a.gaddr) eld, frameBody tag us a.wr⟩ s
    else outFails o 0 0x11 (takeOut tag s)
  match a.owner with
  | .store k => storeIssued k false s
  | _ => s

/-- A remote access goes out when it is the oldest of its lane and direction, its channel is there and a tag is free. -/
def outOne (s : State) (a : Acc) : State :=
  match a.ch with
  | some (c, _, _) =>
    if s.offered.contains a && isRemote s a && singleReady s a.owner && !elidedWaits s a && !runWaits s a && fabTagFree s (isRt s c) c &&
        !(s.offered.takeWhile (fun x => !decide (x = a))).any (queuedBefore s a) then sendAcc a c s
    else s
  | none => s
def issueRemote (s : State) : State := (s.offered.filter (isRemote s)).foldl outOne s

/-! ### The links' transmitters (R348 to R351, R355, R357, R370) -/

def replayFlits (x : LinkPort) : Nat := (x.replay.map (fun t => flits t.f)).foldl (· + ·) 0

/-- There is credit for a frame, and room in the replay store of 64 flits (R351, R355). -/
def canGo (x : LinkPort) (t : TxF) : Bool :=
  decide (flits t.f ≤ if t.f.hdr.rt then x.creditRt else x.creditBulk) && decide (replayFlits x + flits t.f ≤ 64)

def firstGo (x : LinkPort) (l : List TxF) : Option TxF := match l with | t :: _ => if canGo x t then some t else none | [] => none
/-- The frame that the port sends next, where it sends a frame and no word, in the order of R355. -/
def sends (x : LinkPort) : Option TxF :=
  if decide (16 ≤ x.rtRun) && !x.owed.isEmpty then none
  else (firstGo x x.txRt).orElse (fun _ => if x.owed.isEmpty then firstGo x x.txBulk else none)

def wordOut (w : LinkWord) (x : LinkPort) : LinkPort := { x with lastWord := some w, lastChar := firstChar w, rtRun := 0 }
def frameOut (t : TxF) (x : LinkPort) : LinkPort := { x with lastChar := sof, lastFrame := frameBytes t.f t.stomp }

/-- t3 of a SYNR of this node is taken as it leaves (R370). -/
def stampOut (stamp : W64) (own : Bool) (b : Body) : Body :=
  match b with
  | .synr nosync t2 t3 => .synr nosync t2 (if own then stamp else t3)
  | _ => b

/-- A frame goes out: it takes the next LSEQ, its credit, and its place in the replay store. -/
def txFrame (stamp : Nat → W64) (t : TxF) (x : LinkPort) : LinkPort :=
  let t' : TxF := { t with f := ⟨{ t.f.hdr with lseq := x.txLseq }, stampOut (stamp t.rclk) t.own t.f.body⟩ }
  let n := flits t.f
  let x := frameOut t' { x with txLseq := x.txLseq + 1, replay := x.replay ++ [t'] }
  if t.f.hdr.rt then { x with txRt := x.txRt.drop 1, creditRt := x.creditRt - n, rtRun := x.rtRun + n }
  else { x with txBulk := x.txBulk.drop 1, creditBulk := x.creditBulk - n, rtRun := 0 }

/-- What a port sends: TRAIN while its link is not up; frames that are sent again, which cost no credit, before others; else the
order of R355, with IDLE where nothing is ready.  A due SKIP is SKIP_DUE's row, and nothing goes before it (log entry 23). -/
def txNext (stamp : Nat → W64) (now : Nat) (x : LinkPort) : LinkPort :=
  if !x.up then (if x.en then wordOut .train x else x)
  else if decide (x.skipAt + 320 ≤ now) then x
  else
    match x.again with
    | t :: rest => frameOut t { x with again := rest }
    | [] =>
      match sends x with
      | some t => txFrame stamp t x
      | none =>
        match x.owed with
        | w :: rest => wordOut w { x with owed := rest }
        | [] => wordOut .idle x

/-- The frame that a port sends for the first time in this ECLK. -/
def goesOut (now : Nat) (x : LinkPort) : Option TxF :=
  if !x.up || decide (x.skipAt + 320 ≤ now) || !x.again.isEmpty then none else sends x

/-- A port's transmitter: t1 of a SYNQ of this node is taken as it leaves (R370), and a forwarded frame's credit returns to the
port it came by (R355). -/
def txPort (p : Nat) (s : State) : State :=
  let x := port s p
  let s' := setPort p (txNext (stampAt s) s.eclk x) s
  match goesOut s.eclk x with
  | some t =>
    let s' := if t.own && decide (t.f.body = .synq) && s'.sync.t1.isSome then { s' with sync := { s'.sync with t1 := some (stampAt s t.rclk) } } else s'
    freeFlits t.arr t.f s'
  | none => s'

def txPorts (s : State) : State := ([0, 1, 2, 3] : List Nat).foldl (fun s p => txPort p s) s

/-! ### Counts of time -/

/-- ECLK in which a lane holds a burst (R421). -/
def countBusy (s : State) : State :=
  { s with lanes := s.lanes.map (fun e => if e.2.burst.isSome then (e.1, { e.2 with busy := e.2.busy + 1 }) else e) }

/-- ECLK of a flash-busy wait (R386). -/
def countFlash (s : State) : State :=
  let inWait := fun (x : Ctx) => decide (x.r.state = .wait) && decide (x.r.wait = .flashBusy)
  { s with ctxs := s.ctxs.map (fun e => if inWait e.2 then (e.1, { e.2 with w := { e.2.w with flashCnt := e.2.w.flashCnt + 1 } }) else e) }

/-- The host's accesses before those of the debug access port (R441). -/
def hostFirst (l : List Instr) : List Instr :=
  l.filter (fun i => sender i != some .debug) ++ l.filter (fun i => sender i == some .debug)

/-- Accesses that the host target port has not yet accepted are presented again (R405; log entry 19). -/
def represent (s : State) : State :=
  if s.eclk < 16 then s else { s with pending := s.pending ++ hostFirst s.port.early, port := { s.port with early := [] } }

/-- The first step of an engine reset falls in ECLK a + 1 (R398). -/
def resetTick (s : State) : State :=
  match s.glob.phase with
  | .stopping a => if s.eclk = a + 1 then resetStop s else s
  | _ => s

def issueAll (s : State) : State :=
  if running s then
    let s := sweep (s.fetches.foldl sweepFetch s)
    issueRemote (issueFetch (issuePorts s.nextTag 8 [] [] s))
  else s

def eachLane (f : Nat → State → State) (s : State) : State := (s.lanes.map (·.1)).foldl (fun s l => f l s) s

/-- The queues serve the lanes in ascending order, and then the host port (R288). -/
def serveQueues (s : State) : State :=
  let s := eachLane queueStep (forceAll s)
  (s.queues.map (·.1)).foldl (fun s q => hostStep q s) s

/-- What is still to happen in the ECLK that ends: the writer accepts a record (R16), the requests that have come are counted
(R189), and control writes act (R333). -/
def endOfEclk (s : State) : State := if quiet s then s else ctlEnd (countArrivals (acceptHeld s))

/-- What the engine does in an ECLK besides issuing. -/
def works (s : State) : State :=
  if !running s then s else eachLane advance (eachLane startCopy (serveQueues (lookups (handOvers (copyEnds (applyUpsets s))))))

/-- One ECLK. -/
def tick (s : State) : State :=
  let s := merTick { endOfEclk s with eclk := s.eclk + 1 }
  let s := resetTick s
  let s := if s.eclk % 4 = 0 then fencesAgain (mgtDue (fencesInForce s)) else s
  let s := if inReset s then s else slotByNow (readyByNow s)
  let s := works (if running s then backNow s else s)
  let s := countFlash (countBusy s)
  represent (txPorts (issueAll s))

end Sys2Proof.Machine
end

