-- ==== Sys2Proof/Safety.lean ====
section
/-! DEFINITION. What counts as a safe step of the engine, and the areas of the state by which frames are stated: what
a command may change, and what it leaves as it was. -/

namespace Sys2Proof.Machine

/-- The outcome is a next state. -/
def goesOn (o : Host.Outcome State Fault Refusal) : Bool := match o with | .next _ => true | _ => false

/-- Every command that waits is one that the spec gives. -/
def queueWellFormed (s : State) : Bool := s.pending.all wellFormed

/-- The areas of the state: one for each register group, store, buffer and counter, and where the spec numbers them
one for each channel, lane, input, output, queue, book, port and error class. -/
inductive Area where
  | pending | eclk
  /-- A channel's context, its legend, and the whole table of the legends. -/
  | ctx (c : Nat) | legend (c : Nat) | legends
  | slots | swap | remotes | ctl | rr | lcache | fetches
  /-- A lane, and the whole table of the lanes. -/
  | lane (l : Nat) | lanes
  | offered | outst | nextTag
  /-- Meridian, and Meridian before the first correction of an ECLK. -/
  | mer | merWas | grat
  | book (b : Nat)
  | staged | heldRecs | recClk
  | input (n : Nat) | arrivals | evo (m : Nat)
  | queue (q : Nat)
  | spill
  /-- The sheet caches, the Grid's words, and the rest of the Atlas. -/
  | cache | grid | atlas
  | halt
  | err (k : Nat)
  | fences
  /-- A link port, the outbound accesses, and the rest of the router. -/
  | link (p : Nat) | out | fab
  | sync | power | flash | dbg
  /-- The high-water marks of STE_TAG_USE, and the rest of the global page. -/
  | tags | glob
  /-- MGT_CTRL.RDROP, telemetry, and the rest of the management plane. -/
  | rdrop | tele | mgt
  /-- The responses at the host target port, and the rest of that port. -/
  | resp | port
  | straps | upsets | free
  deriving DecidableEq, Repr

/-- An area reads the same in both states. -/
def same (p : Area) (s t : State) : Prop :=
  match p with
  | .pending => t.pending = s.pending
  | .eclk => t.eclk = s.eclk
  | .ctx c => ctx t c = ctx s c
  | .legend c => legend t c = legend s c
  | .legends => t.legends = s.legends
  | .slots => t.slots = s.slots
  | .swap => t.swap = s.swap
  | .remotes => t.remotes = s.remotes
  | .ctl => t.ctl = s.ctl
  | .rr => t.rr = s.rr
  | .lcache => t.lcache = s.lcache
  | .fetches => t.fetches = s.fetches
  | .lane l => lane t l = lane s l
  | .lanes => t.lanes = s.lanes
  | .offered => t.offered = s.offered
  | .outst => t.outst = s.outst
  | .nextTag => t.nextTag = s.nextTag
  | .mer => t.mer = s.mer
  | .merWas => t.merWas = s.merWas
  | .grat => t.grat = s.grat
  | .book b => book t b = book s b
  | .staged => t.staged = s.staged
  | .heldRecs => t.heldRecs = s.heldRecs
  | .recClk => t.recClk = s.recClk
  | .input n => inp t n = inp s n
  | .arrivals => t.arrivals = s.arrivals
  | .evo m => evo t m = evo s m
  | .queue q => queue t q = queue s q
  | .spill => t.spill = s.spill
  | .cache => t.atlas.caches = s.atlas.caches
  | .grid => t.atlas.grid = s.atlas.grid
  | .atlas => { t.atlas with caches := [], grid := [] } = { s.atlas with caches := [], grid := [] }
  | .halt => t.halt = s.halt
  | .err k => errCls t k = errCls s k
  | .fences => t.fences = s.fences
  | .link p => Machine.port t p = Machine.port s p
  | .out => t.fab.out = s.fab.out
  | .fab => { t.fab with ports := [], out := [] } = { s.fab with ports := [], out := [] }
  | .sync => t.sync = s.sync
  | .power => t.power = s.power
  | .flash => t.flash = s.flash
  | .dbg => t.dbg = s.dbg
  | .tags => t.glob.lochw = s.glob.lochw ∧ t.glob.fabhw = s.glob.fabhw
  | .glob => { t.glob with lochw := 0, fabhw := 0 } = { s.glob with lochw := 0, fabhw := 0 }
  | .rdrop => t.mgt.rdrop = s.mgt.rdrop
  | .tele => t.mgt.tele = s.mgt.tele
  | .mgt => { t.mgt with rdrop := false, tele := {} } = { s.mgt with rdrop := false, tele := {} }
  | .resp => t.port.resp = s.port.resp ∧ t.port.dbgResp = s.port.dbgResp
  | .port => { t.port with resp := {}, dbgResp := {} } = { s.port with resp := {}, dbgResp := {} }
  | .straps => t.straps = s.straps
  | .upsets => t.upsets = s.upsets
  | .free => t.free = s.free

/-- Every area outside the set reads in `t` as it did in `s`. -/
def Only (may : Set Area) (s t : State) : Prop := ∀ p, p ∉ may → same p s t

/-! ### Completing, and the conditions under which commands do -/

/-- The command completes in a next state of which P holds. -/
def Completes (i : Instr) (s : State) (P : State → Prop) : Prop := ∃ t, exec i s = .next t ∧ P t

/-- Channel c, which is ACTIVE, begins its leg of opcode `op` (R109): nothing keeps it, no divert or fire is taken in its
place (R72), the leg has no fault of its own, and BAR does not hold it (R110). -/
def Begins (s : State) (c op : Nat) : Prop :=
  canBegin s c = true ∧ (ctx s c).r.state = .active ∧ opOf (ctx s c).r.leg = op ∧ (safOf (ctx s c).r.leg && divertHeld s c) = false ∧
  legOk (ctx s c).r.leg = true ∧ ownFault s c = none ∧
  (isPatterned op = true ∨ barOf (ctx s c).r.leg = false ∨ covered s c = 0)

/-- Channel c, which is ACTIVE, comes to the check of its leg of opcode `op` (R109), with no divert or fire taken in its
place (R72). -/
def Comes (s : State) (c op : Nat) : Prop :=
  canBegin s c = true ∧ (ctx s c).r.state = .active ∧ opOf (ctx s c).r.leg = op ∧ (safOf (ctx s c).r.leg && divertHeld s c) = false

/-- The leg has raised the fault `code`, with its own address and the time of the raising (R322, R325), and channel c
still stands at it: no register that a leg writes has changed (R109). -/
def FaultsAt (s : State) (c code : Nat) (t : State) : Prop :=
  (ctx t c).r = { (ctx s c).r with fcode := BitVec.ofNat 8 code, rearm := false, desc := .none, deadline := none } ∧ (ctx t c).w.phase = .idle ∧
  ∃ f, (ctx t c).w.faulting = some f ∧ f.code = BitVec.ofNat 8 code ∧ f.pc = (ctx s c).r.pc ∧ f.addr = localAddr (ctx s c).r.pc ∧
    f.time = merWord s ∧ f.state = .active ∧ f.late = false

/-- Plane p offers record r in this ECLK, beside those that were offered before it and wait (R16 to R18). -/
def Offers (p : Plane) (own : Option Nat) (r : Rec) (s t : State) : Prop :=
  t.heldRecs.Perm (⟨p, r, own, s.eclk, recKey s own⟩ :: s.heldRecs)

/-- The leg goes on to its successor (R59): no record of it waits, and its successor is aligned. -/
def GoesOn (s : State) (c : Nat) : Prop := heldFor s c = false ∧ fld (nextOf (ctx s c).r.leg) 4 0 = 0

/-- The registers that going on to another leg leaves. -/
def legRegs (r : CtxRegs) : CtxRegs := { r with pc := 0, leg := ⟨0, 0, 0, 0⟩, state := .off, wait := .none, desc := .none }

/-- Channel c has gone on to address p with its registers as r has them, its leg done and without a fault. -/
def WentTo (s : State) (c : Nat) (p : W32) (r : CtxRegs) (t : State) : Prop :=
  (ctx t c).r.pc = p ∧ legRegs (ctx t c).r = legRegs r ∧ (ctx t c).w.legNo = (ctx s c).w.legNo + 1 ∧ (ctx t c).w.faulting = none

/-- The host target port takes the access (R4, R309, R398, R405, R441): no reset is under way, ECLK 16 has come, the port has
accepted no other access in this ECLK, no earlier write to the management page keeps an access to it waiting, and the Atlas
allows it or leaves it alone (R310). -/
def HostOpen (s : State) (by_ : Initiator) (table wr : Bool) (off : Nat) : Prop :=
  inReset s = false ∧ portWaits s table off = false ∧ (exempt by_ table off = true ∨ allowed (check (hostAsk s by_ table wr off) s).2 = true)

/-- The state as an access of the host target port finds it: its lookup may have initialised a word, or counted an error
that it found (R307, R310, R340). -/
def atPort (s : State) (by_ : Initiator) (table wr : Bool) (off : Nat) : State :=
  if exempt by_ table off then s else (check (hostAsk s by_ table wr off) s).1

/-- The state once a write to the management page that waits has taken effect, in the first ECLK of the next MCLK period (R412);
whatever else time does is left aside. -/
def atNextMclk (s : State) : State := mgtDue { s with eclk := 4 * (mclk s + 1) }

/-- The legs that run in bursts, with their opcodes (R75, R140). -/
def patternedLegs (c : Fin 1024) : List (Instr × Nat) :=
  [(.move c, 0x10), (.fill c, 0x11), (.cmp c, 0x12), (.cmpk c, 0x13), (.scale c, 0x14), (.reduce c, 0x15), (.movex c, 0x16),
   (.push c, 0x18), (.pop c, 0x19)]

/-- The legs that do not run in bursts, with their opcodes. -/
def otherLegs (c : Fin 1024) : List (Instr × Nat) :=
  [(.nop c, 0x00), (.mark c, 0x1A), (.rewind c, 0x1B), (.release c, 0x1C), (.pattern c, 0x20), (.scalecfg c, 0x21), (.waitreq c, 0x30),
   (.waittime c, 0x31), (.waitq c, 0x32), (.signal c, 0x33), (.barrier c, 0x34), (.log c, 0x35), (.jump c, 0x40), (.branch c, 0x41),
   (.call c, 0x42), (.ret c, 0x43), (.loop c, 0x44), (.load c, 0x45), (.store c, 0x46), (.endLeg c, 0x4F)]

/-- The wait legs that take a deadline, with their opcodes and the conditions that leg l gives them (R119, R122,
R123). -/
def waitLegs (c : Fin 1024) (l : Leg) : List (Instr × Nat × WaitDesc) :=
  [(.waitreq c, 0x30, .request (fld l.w1 15 0 + 1)), (.waitq c, 0x32, queueCond l), (.barrier c, 0x34, .barrierLeg (bit l.w1 0))]

/-! ### What the shared operations may change, as sets of areas -/

/-- Offering a record (R16). -/
def recAreas : Set Area := fun p => p = .heldRecs ∨ p = .rdrop
/-- Counting an error (R340). -/
def errAreas : Set Area := fun p => recAreas p ∨ ∃ k, p = .err k
/-- The start of a lookup (R307, R311). -/
def lookAreas : Set Area := fun p => p = .cache ∨ p = .grid
/-- A check point of the Atlas (R308 to R320). -/
def checkAreas : Set Area := fun p => errAreas p ∨ lookAreas p ∨ p = .atlas
/-- Offering an access to a port. -/
def submitAreas : Set Area := fun p => lookAreas p ∨ p = .offered
/-- An operation on queue q (R281 to R295). -/
def queueAreas (q : Nat) : Set Area := fun p => errAreas p ∨ submitAreas p ∨ p = .queue q ∨ p = .spill
/-- The sequencer of channel c (R59 to R72). -/
def seqAreas (c : Nat) : Set Area := fun p =>
  errAreas p ∨ lookAreas p ∨ p = .ctx c ∨ p = .fetches ∨ p = .lcache ∨ p = .power ∨ p = .grat
/-- A fault of channel c, or the end of its leg (R321 to R330). -/
def faultAreas (c : Nat) : Set Area := fun p => seqAreas c p ∨ (∃ l, p = .lane l) ∨ p = .lanes ∨ p = .offered ∨ p = .outst ∨ p = .out
/-- A data leg of channel c besides: its events (R264 to R267). -/
def legAreas (c : Nat) : Set Area := fun p => faultAreas c p ∨ ∃ m, p = .evo m
/-- A burst's elements on lane l, for channel c, that no queue serves (R13). -/
def laneAreas (l c : Nat) : Set Area := fun p => errAreas p ∨ submitAreas p ∨ p = .lane l ∨ p = .lanes ∨ p = .ctx c
/-- The host target port (R4, R309). -/
def hostAreas : Set Area := fun p => checkAreas p ∨ p = .resp ∨ p = .port
/-- The control of channel c besides: its slot (R48 to R58). -/
def controlAreas (c : Nat) : Set Area := fun p => legAreas c p ∨ p = .slots
/-- Sending frames (R354, R360). -/
def sendAreas : Set Area := fun p => checkAreas p ∨ p = .fab ∨ ∃ q, p = .link q
/-- The router's and the root's own accesses and frames (R363 to R368). -/
def fabAreas : Set Area := fun p => sendAreas p ∨ p = .offered ∨ p = .outst ∨ p = .out ∨ p = .tele
/-- Whatever an access may belong to: channels, lanes, queues and the router. -/
def anyAreas : Set Area := fun p => fabAreas p ∨ (∃ c, legAreas c p) ∨ (∃ q, p = .queue q) ∨ p = .spill
/-- The end of any access besides: the debug path and the books (R276, R391). -/
def accAreas : Set Area := fun p => anyAreas p ∨ p = .dbg ∨ ∃ b, p = .book b
/-- The loss of a link, or of the time parent (R350, R371). -/
def linkAreas : Set Area := fun p => anyAreas p ∨ p = .sync ∨ p = .mer
/-- What a frame that is for this node may act on. -/
def actAreas : Set Area := fun p => linkAreas p ∨ p = .arrivals ∨ p = .merWas
/-- A global halt, and the ends of leg fetches (R334 to R338). -/
def haltAreas : Set Area := fun p => (∃ c, legAreas c p) ∨ p = .halt ∨ p = .flash
/-- The records' writer (R273 to R276). -/
def writerAreas : Set Area := fun p => submitAreas p ∨ p = .tele ∨ (∃ b, p = .book b) ∨ p = .staged ∨ p = .recClk
/-- An entry of the Graticule (R243 to R255). -/
def gratAreas : Set Area := fun p => errAreas p ∨ p = .grat ∨ p = .atlas
/-- A word that the scrubber finds bad (R417). -/
def scrubAreas : Set Area := fun p => (∃ c, faultAreas c p) ∨ (∃ c, p = .legend c) ∨ p = .legends ∨ p = .atlas ∨ p = .mgt ∨ p = .tele
/-- The end of a self-test (R424, R425). -/
def testAreas : Set Area := fun p => checkAreas p ∨ p = .mgt ∨ p = .free ∨ p = .fences
/-- A write to some register: whatever a register of any page acts on (R441 to R446). -/
def writeAreas : Set Area := fun p =>
  actAreas p ∨ hostAreas p ∨ p = .ctl ∨ p = .slots ∨ (∃ c, p = .legend c) ∨ p = .legends ∨ (∃ b, p = .book b) ∨ (∃ n, p = .input n) ∨
  p = .halt ∨ p = .flash ∨ p = .tags ∨ p = .glob
/-- A reset: all but the commands that wait, the wiring, the errors that the environment brings in, and what the model itself
keeps (R397). -/
def resetAreas : Set Area := fun p => p ≠ .pending ∧ p ≠ .straps ∧ p ≠ .free ∧ p ≠ .nextTag ∧ p ≠ .upsets
/-- The areas that some channel's context is. -/
def someCtx : Set Area := fun p => ∃ c, p = .ctx c
/-- The areas that some input is. -/
def someInput : Set Area := fun p => ∃ n, p = .input n

/-! ### What each command may change -/

/-- SIGNAL of leg l: its output, the channel it wakes, whose wake may wait for its context (R57), and its remote event
(R125). -/
def signalAreas (l : Leg) : Set Area := fun p =>
  (bit l.w1 7 = true ∧ p = .evo (fld l.w1 6 0)) ∨ (bit l.w1 18 = true ∧ (seqAreas (fld l.w1 17 8) p ∨ p = .ctl)) ∨
  (bit l.w2 44 = true ∧ p = .remotes)

/-- The legs: their own channel, and what a leg names besides. -/
def legMay (i : Instr) (s : State) : Set Area :=
  match i with
  | .mark c | .rewind c | .release c => fun p => legAreas c p ∨ queueAreas (popQueue (ctx s c).r.leg) p
  | .signal c => fun p => legAreas c p ∨ signalAreas (ctx s c).r.leg p
  | .move c | .fill c | .cmp c | .cmpk c | .scale c | .reduce c | .movex c | .push c | .pop c | .pattern c | .scalecfg c | .waitreq c
  | .waittime c | .waitq c | .barrier c | .log c | .jump c | .call c | .ret c | .branch c | .loop c | .load c | .store c | .endLeg c
  | .nop c | .illegalLeg c | .waitSatisfied c | .waittimeTargetReached c | .waitDeadlineReached c => legAreas c
  | _ => ∅

/-- The accesses of the host target port: what their register acts on, beside what the port itself does. -/
def accessMay (i : Instr) : Set Area :=
  match i with
  | .chStart _ _ | .chDrain _ _ | .chPause _ _ | .chResume _ _ | .chAbort _ _ | .chWake _ _ | .chDivert _ _ _ => fun p => p = .ctl
  | .chLegendWrite _ c _ => fun p => p = .ctx c ∨ p = .legend c ∨ p = .legends ∨ p = .slots
  | .chRearmClr _ c => fun p => p = .ctx c
  | .swreq _ _ => fun p => p = .arrivals
  | .reqinConfigWrite _ n _ _ => fun p => p = .input n ∨ p = .arrivals
  | .reqinClrcnt _ n => fun p => p = .input n
  | .swpulse _ m | .evoConfigWrite _ m _ => fun p => p = .evo m
  | .tagClrhw _ => fun p => p = .tags
  | .merNowRead _ _ | .merSet _ _ => fun p => p = .mer
  | .merAdj _ _ | .merSrcChange _ _ => fun p => p = .mer ∨ p = .merWas
  | .insert _ | .delete _ _ | .replace _ _ | .gratEnable _ | .gratClrcnt _ => fun p => p = .grat
  | .bookEnable _ b | .bookRidxWrite _ b _ => fun p => p = .book b
  | .hostPush _ q _ | .hostPushend _ q _ | .hostPop _ q _ | .unmark _ q => queueAreas q
  | .queueReset _ q _ => fun p => queueAreas q p ∨ p = .outst
  | .spillBaseWrite _ _ => fun p => (∃ q, p = .queue q) ∨ p = .spill ∨ p = .offered ∨ p = .outst ∨ p = .out
  | .spillClrhw _ => fun p => p = .spill
  | .atlasStageWrite _ _ _ _ | .routeTableWrite _ _ _ => fun p => p = .fab ∨ p = .sync ∨ p = .mer
  | .commitGo _ _ | .atlasClrcnt _ | .fenceWrite _ _ | .errcCfgWrite _ _ _ | .selftestGo _ _ | .teleSnap _ => ∅
  | .globalResume _ => haltAreas
  | .portEnable _ _ _ => linkAreas
  | .portClrst _ q => fun p => p = .link q
  | .surveyGo _ | .routeLoadGo _ _ => fabAreas
  | .engineResetRequest _ _ | .spreadWrite _ _ => fun p => p = .glob
  | .legInvWrite _ _ => fun p => p = .lcache ∨ p = .fetches
  | .hostTableRead _ _ _ _ => fun p => p = .free
  | .hostRegisterWrite _ _ _ _ _ => writeAreas
  | .lowWordRead _ _ => fun p => p = .mer ∨ ∃ q, queueAreas q p
  | _ => ∅

/-- The link ports, the frames and the router's time limits. -/
def linkMay (i : Instr) : Set Area :=
  match i with
  | .linkUp _ _ _ | .identWord _ _ _ | .destResponseTimeout _ => sendAreas
  | .linkDown _ _ => linkAreas
  | .remoteTimeout _ => anyAreas
  | .rxWrs _ _ _ _ _ _ _ | .rxWr _ _ _ _ _ | .rxRd _ _ _ _ _ | .rxSvr _ _ _ _ _ _ _ _ _ _ => fabAreas
  | .rxEv _ _ _ => fun p => sendAreas p ∨ p = .arrivals
  | .rxAck _ _ _ _ => fun p => fabAreas p ∨ someCtx p
  | .rxNak _ _ _ _ _ _ _ | .rxRdr _ _ _ _ _ _ => anyAreas
  | .rxSv _ _ _ _ _ | .rxNote _ _ _ _ _ _ | .rxReservedKind _ _ _ | .rxSynq _ _ _ _ => sendAreas
  | .rxRl _ _ _ _ _ _ => fun p => sendAreas p ∨ p = .sync ∨ p = .mer
  | .rxSynr _ _ _ _ _ _ => fun p => sendAreas p ∨ p = .sync ∨ p = .mer ∨ p = .merWas
  | .frameForward _ _ => actAreas
  | .syncExchange _ => fun p => p = .sync ∨ ∃ q, p = .link q
  | .synrTimeout => fun p => p = .sync ∨ p = .mer
  | .svTimeout | .rlTimeout => fabAreas
  | .frameCrcFail _ _ => fun p => errAreas p ∨ ∃ q, p = .link q
  | .nakWord q _ | .ackWord q _ | .creditWord q _ _ | .skipDue q | .identDue q => fun p => p = .link q
  | _ => ∅

/-- The engine's own steps, the pins and the resets. -/
def engineMay (i : Instr) (s : State) : Set Area :=
  match i with
  | .burstGrant => fun p => p = .rr ∨ p = .tags ∨ ∃ l c, nextGrant s = some (l, c) ∧ laneAreas l c p
  | .readResponse _ _ | .writeResponse _ _ | .spillResponse _ _ => accAreas
  | .inClusterCopyDone l _ => fun p => p = .lane l ∨ p = .lanes ∨ ∃ b, burstOn s l = some b ∧ p = .ctx b.ch
  | .burstReturn l => fun p => ∃ b, burstOn s l = some b ∧ (legAreas b.ch p ∨ p = .tele)
  | .loadDataReturn c => fun p => faultAreas c p ∨ p = .tele
  | .lineFillReturn _ _ _ | .globalHaltEntry _ _ | .haltRetryEnd _ | .recovery => haltAreas
  | .endW0Return c _ => fun p => faultAreas c p ∨ someCtx p ∨ p = .flash
  | .haltIssueStop => fun p => haltAreas p ∨ ∃ l c, laneAreas l c p
  | .haltRetryIssue => fun p => lookAreas p ∨ p = .halt ∨ p = .fetches
  | .haltDecision => fun p => recAreas p ∨ p = .halt
  | .pauseStopPoint c | .channelHalted c => fun p => p = .ctx c ∨ p = .fetches
  | .levelRearm c => fun p => p = .ctx c
  | .drainComplete c => controlAreas c
  | .faultEntry c => fun p => recAreas p ∨ p = .ctx c
  | .faultToOff c => fun p => p = .ctx c ∨ p = .slots
  | .pageSwap => fun p => p = .swap
  | .pageTransferDone _ _ => fun p => (∃ c, controlAreas c p) ∨ (∃ c, p = .legend c) ∨ p = .legends ∨ p = .swap ∨ p = .glob ∨ p = .ctl ∨ p = .atlas
  | .pinRequest n _ => fun p => p = .input n ∨ p = .arrivals
  | .filterOutputChange n _ => fun p => p = .input n
  | .qualificationGained n _ | .qualificationLost n => fun p => recAreas p ∨ p = .input n
  | .pulseEnd m => fun p => p = .evo m
  | .holdoverStart _ => fun p => p = .mer
  | .holdoverExpiry | .synchronised => fun p => recAreas p ∨ p = .mer
  | .gratCommandComplete | .gratFiring _ => gratAreas
  | .gratActionDelivery => fun p => (∃ c, seqAreas c p) ∨ p = .ctl
  | .gratLead _ => fun p => checkAreas p ∨ p = .fetches ∨ p = .grat ∨ someCtx p
  | .recordTake => writerAreas
  | .recordWriteDone b => fun p => p = .book b ∨ p = .outst
  | .recordWriteFailed b => fun p => p = .book b ∨ p = .offered ∨ p = .outst
  | .bookTimerExpiry b => fun p => p = .book b
  | .tailToHead q | .halfGroupSpill q | .tailIdleFlush q | .headRefill q => queueAreas q
  | .commitSwitch => fun p => checkAreas p ∨ p = .offered ∨ p = .fetches ∨ p = .lcache ∨ p = .fences
  | .commitCopyIn | .commitDrained => checkAreas
  | .lifecycleChange _ => fun p => p = .dbg
  | .errorWindowEnd k => fun p => p = .err k
  | .lastingFault k => fun p => recAreas p ∨ p = .err k ∨ p = .fences
  | .pdreqRise _ => fun p => p = .power
  | .pdreqDrop _ | .pgoodFall _ | .pdack _ | .domainReturn _ => fun p => recAreas p ∨ p = .power ∨ someInput p
  | .pdnak _ => fun p => recAreas p ∨ p = .power
  | .bankbusySet _ => fun p => p = .flash ∨ p = .fetches ∨ someCtx p
  | .bankbusyClear _ => fun p => (∃ c, seqAreas c p) ∨ p = .flash
  | .flashTimeout c => fun p => faultAreas c p ∨ p = .flash
  | .debugAccess _ _ _ _ => fun p => submitAreas p ∨ p = .dbg
  | .coldReset | .warmReset | .engineResetWaitEnd | .resetRelease => resetAreas
  | .readyBitSet _ => fun p => p = .glob ∨ (∃ l, p = .lane l) ∨ p = .lanes
  | .spreadApply => fun p => p = .glob
  | .scrubStep _ _ | .scrubForcedSlot _ _ => scrubAreas
  | .selftestStopped | .selftestComplete _ _ => testAreas
  | .telePeriodExpiry | .teleCapture => fun p => p = .tele
  | _ => ∅

/-- A command of a leg, an access of the host target port, or a command of the links; every other is the engine's own. -/
def isLegCmd (i : Instr) : Bool :=
  match i with
  | .move _ | .fill _ | .cmp _ | .cmpk _ | .scale _ | .reduce _ | .movex _ | .push _ | .pop _ | .mark _ | .rewind _ | .release _
  | .pattern _ | .scalecfg _ | .waitreq _ | .waittime _ | .waitq _ | .barrier _ | .signal _ | .log _ | .jump _ | .call _ | .ret _
  | .branch _ | .loop _ | .load _ | .store _ | .endLeg _ | .nop _ | .illegalLeg _ | .waitSatisfied _ | .waittimeTargetReached _
  | .waitDeadlineReached _ => true
  | _ => false
def isAccess (i : Instr) : Bool := (sender i).isSome
def isLinkCmd (i : Instr) : Bool :=
  match i with
  | .linkUp _ _ _ | .identWord _ _ _ | .destResponseTimeout _ | .linkDown _ _ | .remoteTimeout _ | .rxWrs _ _ _ _ _ _ _ | .rxWr _ _ _ _ _
  | .rxRd _ _ _ _ _ | .rxEv _ _ _ | .rxAck _ _ _ _ | .rxNak _ _ _ _ _ _ _ | .rxRdr _ _ _ _ _ _ | .rxSv _ _ _ _ _
  | .rxSvr _ _ _ _ _ _ _ _ _ _ | .rxRl _ _ _ _ _ _ | .rxNote _ _ _ _ _ _ | .rxReservedKind _ _ _ | .frameForward _ _
  | .rxSynq _ _ _ _ | .rxSynr _ _ _ _ _ _ | .syncExchange _ | .synrTimeout | .svTimeout | .rlTimeout | .frameCrcFail _ _ | .nakWord _ _
  | .ackWord _ _ | .creditWord _ _ _ | .skipDue _ | .identDue _ => true
  | _ => false

/-! ### Invariants -/

/-- The legends are well kept: one entry a channel at most, no colour above 13, and at most 32 pinned (R38 to R40). -/
def legendsLegal (s : State) : Prop :=
  tcanon legendReset s.legends = true ∧ (∀ e ∈ s.legends, fld e.2 3 0 ≤ 13) ∧ pinnedCount s ≤ 32

/-- Meridian without the corrections of this ECLK, which a change of SRC in it discards (R241). -/
def merKept (s : State) : Mer :=
  match s.merWas with
  | some (t, m, _) => if t = s.eclk then m else s.mer
  | none => s.mer

/-- What Meridian's slew has given or taken in this ECLK is less than a step (R232, R237), with this ECLK's corrections and
without them; those have not put it back (R241). -/
def slewSmall (s : State) : Prop :=
  s.mer.slew ≤ 1000 ∧ s.mer.slewed.natAbs < 1000 * 2 ^ 32 ∧ (merKept s).slewed.natAbs < 1000 * 2 ^ 32 ∧ (merKept s).now ≤ s.mer.now ∧
  ∀ x ∈ s.merWas, x.1 ≤ s.eclk

/-- The command writes STE_MER_CTRL, and with it SRC (R241). -/
def writesSrc (i : Instr) : Bool :=
  match i with
  | .merSrcChange _ _ => true
  | .hostRegisterWrite _ off _ _ _ => off == 0x3000
  | _ => false

/-- The command resets the engine. -/
def isReset (i : Instr) : Bool := match i with | .coldReset | .warmReset | .engineResetWaitEnd | .resetRelease => true | _ => false

end Sys2Proof.Machine
end

