-- ==== Sys2Proof/Certificates/Slice0/Obligations.lean ====
section
/-! DEFINITION. What is claimed of the engine: one statement for each obligation. -/

open Sys2Proof Sys2Proof.Machine

/-! ### The queue of commands, and the machine as a whole -/

/-- A step takes the command at the front of the queue, and its outcome is what the command does on the rest. -/
def Obligations.StepRunsTheFrontCommand : Prop :=
  ∀ (i : Instr) (rest : List Instr) (s : State), step { s with pending := i :: rest } = exec i { s with pending := rest }

/-- The engine's clock goes on by one ECLK where no command waits; that a tick stands in place of idling is the model's
choice (log entry 2). The control writes of the ECLK have acted, but for those to a context that moves (R57, R333); nothing is
taken from the wiring, and an engine reset under way stays one. -/
def Obligations.EmptyQueueIsOneEclk : Prop :=
  ∀ s : State, s.pending = [] →
    ∃ t, step s = .next t ∧ t.eclk = s.eclk + 1 ∧ t.straps = s.straps ∧ t.glob.phase = s.glob.phase ∧
      (quiet s = false → t.ctl = s.ctl.filter (fun e => inTransfer s e.1))

/-- Every well-formed command gives a next state, whatever the state is; an ill-formed one faults. -/
def Obligations.WellFormedCommandsGoOn : Prop :=
  ∀ (i : Instr) (s : State), (wellFormed i = true → ∃ t, exec i s = .next t) ∧ (wellFormed i = false → exec i s = .fault .malformed)

/-- No command changes the queue of those that wait behind it, nor the wiring of the block. -/
def Obligations.CommandsKeepTheQueue : Prop :=
  ∀ (i : Instr) (s t : State), exec i s = .next t → t.pending = s.pending ∧ t.straps = s.straps

/-! ### Legs -/

/-- MOVE, FILL, CMP, CMPK, SCALE, REDUCE, MOVEX, PUSH and POP begin with element count and loop indices 0 (R113), the
sticky flags that they update cleared (R45), and for REDUCE with INIT the accumulator at its identity (R104). -/
def Obligations.PatternedLegsBegin : Prop :=
  ∀ (s : State) (c : Fin 1024) (p : Instr × Nat), p ∈ patternedLegs c → Begins s c p.2 →
    Completes p.1 s fun t =>
      let r := (ctx s c).r
      let r' := (ctx t c).r
      r'.ecount = 0 ∧ r'.i0 = 0 ∧ r'.i1 = 0 ∧ r'.i2 = 0 ∧ r'.flags = clearSticky r.leg r.flags ∧ r'.pc = r.pc ∧ r'.leg = r.leg ∧
      (r'.state = .active ∨ r'.state = .wait) ∧ (ctx t c).w.faulting = none ∧
      ∀ n, vreg r' n = if p.2 = 0x15 ∧ bit r.leg.w3 5 = true ∧ n = accReg r.leg
        then reduceIdentity (fld r.leg.w3 4 3) (accSigned r.leg) else vreg r n

/-- PATTERN copies W1 to W3 into the pattern (R113), SCALECFG into the scale configuration (R116), NOP has no effect
(R139); each goes on to its successor. MARK sets the mark and frees what an earlier mark held; REWIND puts the held
items back at the head, in their order; RELEASE frees them and keeps the mark; without a mark REWIND and RELEASE set
NOMARK (R144, R291). Each goes on to its successor. -/
def Obligations.SetUpAndQueueLegs : Prop :=
  (∀ (s : State) (c : Fin 1024), GoesOn s c →
      let r := (ctx s c).r
      let l := r.leg
      (Begins s c 0x20 → Completes (.pattern c) s (WentTo s c (successorOf r) { r with pat1 := l.w1, pat2 := l.w2, pat3 := l.w3 })) ∧
      (Begins s c 0x21 → Completes (.scalecfg c) s (WentTo s c (successorOf r) { r with sc1 := l.w1, sc2 := l.w2, sc3 := l.w3 })) ∧
      (Begins s c 0x00 → Completes (.nop c) s (WentTo s c (successorOf r) r))) ∧
  (∀ (s : State) (c : Fin 1024), GoesOn s c →
      let r := (ctx s c).r
      let q := popQueue r.leg
      let x := queue s q
      (Begins s c 0x1A → Completes (.mark c) s fun t => WentTo s c (successorOf r) r t ∧
        (queue t q).markv = true ∧ (queue t q).held = [] ∧ (queue t q).head = x.head) ∧
      (Begins s c 0x1B → Completes (.rewind c) s fun t => WentTo s c (successorOf r) r t ∧
        (queue t q).head.map (·.it) = (if x.markv then x.held ++ x.head else x.head).map (·.it) ∧ (queue t q).markv = x.markv ∧
        (queue t q).held = (if x.markv then [] else x.held) ∧ (queue t q).nomark = (x.nomark || !x.markv)) ∧
      (Begins s c 0x1C → Completes (.release c) s fun t => WentTo s c (successorOf r) r t ∧
        (queue t q).markv = x.markv ∧ (queue t q).head = x.head ∧ (queue t q).held = (if x.markv then [] else x.held) ∧
        (queue t q).nomark = (x.nomark || !x.markv)))

/-- WAITREQ, WAITQ and BARRIER whose condition holds complete at once with Z = 1, and WAITREQ consumes its requests (R117,
R119, R122, R123). WAITREQ, WAITQ and BARRIER whose condition does not hold wait for it, with the deadline that
TIMEOUT gives from the leg's start, which is before a barrier wait (log entry 44); TIMEOUT = 0 sets none (R117). WAITTIME's target is W1, the leg's start plus W1, or a value
register plus W1, which then holds the target; a target reached already completes the leg with Z = 0, and one that is
not makes the channel wait for it (R121). -/
def Obligations.WaitLegs : Prop :=
  (∀ (s : State) (c : Fin 1024), GoesOn s c →
      let r := (ctx s c).r
      let l := r.leg
      let done : CtxRegs := { r with deadline := none, flags := { r.flags with z := true } }
      let n := fld l.w1 15 0 + 1
      let level := legReqen s c && levelMode (inp s (legReq s c))
      (Begins s c 0x30 → condMet s c (.request n) = true → Completes (.waitreq c) s fun t =>
        WentTo s c (successorOf r) (if level then done else { done with pend := r.pend - n }) t ∧
        (level = true → (ctx t c).w.armed = false)) ∧
      (Begins s c 0x32 → condMet s c (queueCond l) = true → Completes (.waitq c) s (WentTo s c (successorOf r) done)) ∧
      (Begins s c 0x34 → condMet s c (.barrierLeg (bit l.w1 0)) = true → Completes (.barrier c) s (WentTo s c (successorOf r) done))) ∧
  (∀ (s : State) (c : Fin 1024) (e : Instr × Nat × WaitDesc), e ∈ waitLegs c (ctx s c).r.leg → Begins s c e.2.1 → condMet s c e.2.2 = false →
      Completes e.1 s fun t =>
        let r := (ctx s c).r
        (ctx t c).r = { r with state := .wait, wait := waitReason e.2.2, desc := e.2.2,
                               deadline := if timeoutOf r.leg = 0 then r.deadline else some (startOf s c + timeoutOf r.leg) } ∧
        (ctx t c).w.phase = .waiting ∧ (ctx t c).w.faulting = none) ∧
  (∀ (s : State) (c : Fin 1024), GoesOn s c → Begins s c 0x31 →
      let r := (ctx s c).r
      let l := r.leg
      let k := fld l.w2 4 2
      let target := if fld l.w2 1 0 = 0 then l.w1 else if fld l.w2 1 0 = 1 then BitVec.ofNat 64 (startOf s c) + l.w1 else vreg r k + l.w1
      let r' : CtxRegs := { r with v := if fld l.w2 1 0 = 2 then tset 0 r.v k target else r.v }
      Completes (.waittime c) s fun t =>
        if target.toNat ≤ merInt s then
          WentTo s c (successorOf r) { r' with deadline := none, flags := { r.flags with z := false } } t
        else (ctx t c).r = { r' with state := .wait, wait := .time, desc := .time target } ∧ (ctx t c).w.phase = .waiting)

/-- SIGNAL drives its event output with one event, and wakes its channel, a wake of a channel whose context moves waiting
(R57, R66); it goes on at once, or with a remote event stays at the leg, which the next ECLK hands over (R125).  LOG
offers its record to the channel's book with its detail words, V[VREG] or W2, and the time of the leg's start (R127,
R269; before a barrier wait, log entry 44), and the channel stays at the leg until it is accepted (R18). -/
def Obligations.SignalAndLog : Prop :=
  (∀ (s : State) (c : Fin 1024), GoesOn s c → Begins s c 0x33 → inReset s = false →
      let r := (ctx s c).r
      let l := r.leg
      Completes (.signal c) s fun t =>
        (if bit l.w2 44 then
          (ctx t c).r.pc = r.pc ∧ (ctx t c).r.leg = l ∧ (ctx t c).w.phase = .single ∧ (ctx t c).w.legNo = (ctx s c).w.legNo ∧
          t.remotes = s.remotes ++ [(c.val, s.eclk + 1)]
         else (ctx t c).r.pc = successorOf r ∧ (ctx t c).w.legNo = (ctx s c).w.legNo + 1 ∧ t.remotes = s.remotes) ∧
        (bit l.w1 7 = true → evo t (fld l.w1 6 0) = evoFired s.eclk (evo s (fld l.w1 6 0))) ∧
        (∀ m, (bit l.w1 7 = false ∨ m ≠ fld l.w1 6 0) → evo t m = evo s m) ∧
        ∀ d, bit l.w1 18 = true → d = fld l.w1 17 8 →
          (inTransfer s d = true → (d, CtlWrite.wake) ∈ t.ctl) ∧
          (inTransfer s d = false →
            ((ctx s d).r.state = .active ∨ (ctx s d).r.state = .wait ∨ (ctx s d).r.state = .held ∨ (ctx s d).r.state = .paused ∨
              (ctx s d).r.state = .halted) → (ctx t d).r.wake = true)) ∧
  (∀ (s : State) (c : Fin 1024), GoesOn s c → Begins s c 0x35 →
      let r := (ctx s c).r
      let l := r.leg
      let v := if bit l.w1 35 then vreg r (fld l.w1 34 32) else l.w2
      let x := { mkRec s (legBook s c) 3 1 c (fld l.w1 31 0) v (fld l.w3 30 0) with time := BitVec.ofNat 64 (startOf s c) }
      Completes (.log c) s fun t =>
        Offers .ctl (some c) x s t ∧ (ctx t c).r = r ∧ (ctx t c).w.phase = .recWait ∧ (ctx t c).w.legNo = (ctx s c).w.legNo)

/-- JUMP goes to its target; CALL also saves its successor as the return address; RETURN goes to that address and ends its
validity (R69, R129). BRANCH decrements its register with DEC, compares it with CMP, sets Z and N by the last of the
two, and goes to its target when its condition holds on the flags as it leaves them, else to its successor (R132,
R133). LOOP starts its counter at COUNT − 1 when it is 0 and else lowers it, and goes to its target until it is 0
(R70). A CALL while the return address is valid and a RETURN while it is not fault (R69), and so does a leg that would
go to a target that is not aligned (R128), before it has written anything (R109). -/
def Obligations.FlowLegs : Prop :=
  (∀ (s : State) (c : Fin 1024) (p : W32),
      let r := (ctx s c).r
      (Begins s c 0x40 → targetOf r = some p → Completes (.jump c) s (WentTo s c p r)) ∧
      (Begins s c 0x42 → targetOf r = some p → Completes (.call c) s (WentTo s c p { r with ret := successorOf r, retValid := true })) ∧
      (Begins s c 0x43 → Completes (.ret c) s (WentTo s c r.ret { r with retValid := false }))) ∧
  (∀ (s : State) (c : Fin 1024) (p : W32),
      let r := (ctx s c).r
      let l := r.leg
      let n := fld l.w1 38 36
      let v := if bit l.w1 39 then vreg r n - 1 else vreg r n
      let less := if bit l.w1 41 then decide (v.toNat < l.w2.toNat) else decide (v.toInt < l.w2.toInt)
      let z := if bit l.w1 40 then v == l.w2 else if bit l.w1 39 then v == 0 else r.flags.z
      let neg := if bit l.w1 40 then less else if bit l.w1 39 then v.getLsbD 63 else r.flags.n
      let r' : CtxRegs := { r with v := if bit l.w1 39 then tset 0 r.v n v else r.v, flags := { r.flags with z := z, n := neg } }
      Begins s c 0x41 → targetOf r = some p → fld (nextOf l) 4 0 = 0 →
        Completes (.branch c) s (WentTo s c (if condHolds (fld l.w1 35 32) r'.flags then p else successorOf r) r')) ∧
  (∀ (s : State) (c : Fin 1024) (p : W32),
      let r := (ctx s c).r
      let n := if r.lc = 0 then BitVec.ofNat 32 (fld r.leg.w1 47 32) - 1 else r.lc - 1
      Begins s c 0x44 → targetOf r = some p → fld (nextOf r.leg) 4 0 = 0 →
        Completes (.loop c) s (WentTo s c (if n = 0 then successorOf r else p) { r with lc := n })) ∧
  (∀ (s : State) (c : Fin 1024) (p : W32),
      let r := (ctx s c).r
      let l := r.leg
      let n := if r.lc = 0 then BitVec.ofNat 32 (fld l.w1 47 32) - 1 else r.lc - 1
      (Comes s c 0x42 → legOk l = true → r.retValid = true → Completes (.call c) s (FaultsAt s c 0x04)) ∧
      (Comes s c 0x43 → legOk l = true → r.retValid = false → Completes (.ret c) s (FaultsAt s c 0x05)) ∧
      (Comes s c 0x42 → legOk l = true → r.retValid = false → fld (successorOf r) 4 0 ≠ 0 → Completes (.call c) s (FaultsAt s c 0x03)) ∧
      (targetOf r = some p → fld p 4 0 ≠ 0 → legOk l = true →
        (Comes s c 0x40 → Completes (.jump c) s (FaultsAt s c 0x03)) ∧
        (Comes s c 0x42 → r.retValid = false → Completes (.call c) s (FaultsAt s c 0x03)) ∧
        (Comes s c 0x41 → condHolds (fld l.w1 35 32) (branchRegs r).flags = true → Completes (.branch c) s (FaultsAt s c 0x03)) ∧
        (Comes s c 0x44 → n ≠ 0 → Completes (.loop c) s (FaultsAt s c 0x03))))

/-- LOAD with a source of 1 takes the Meridian count at the leg's start (before a barrier wait, log entry 44), and with 2 the immediate of W3, into V[VDST] (R135,
R136). LOAD from this node's memory offers its read, and STORE its write of V[VSRC]'s low bytes, for an element that
lies in one block and whose domain is up; each waits for its access (R136, R137). -/
def Obligations.LoadAndStore : Prop :=
  (∀ (s : State) (c : Fin 1024), GoesOn s c → Begins s c 0x45 →
      let r := (ctx s c).r
      let l := r.leg
      fld l.w2 5 4 ≠ 0 →
      Completes (.load c) s (WentTo s c (successorOf r)
        { r with v := tset 0 r.v (fld l.w2 2 0) (if fld l.w2 5 4 = 1 then BitVec.ofNat 64 (startOf s c) else l.w3) })) ∧
  (∀ (s : State) (c : Fin 1024),
      let r := (ctx s c).r
      let l := r.leg
      (Begins s c 0x45 → fld l.w2 5 4 = 0 → isLocal s (srcOf l) = true → (srcOf l).toNat % 16 + swB l ≤ 16 →
        shutDomain s (gLocal (blockOf (srcOf l) + BitVec.ofNat 45 ((srcOf l).toNat % 16))) = none →
        Completes (.load c) s fun t =>
          (∃ a, t.offered = s.offered ++ [a] ∧ a.owner = .load c ∧ a.wr = false ∧ a.colour = legColour s c ∧ a.gaddr = blockOf (srcOf l) ∧
            a.mask = maskAt ((srcOf l).toNat % 16) (swB l)) ∧
          (ctx t c).r = r ∧ (ctx t c).w.phase = .single ∧ (ctx t c).w.loadGot = 0) ∧
      (Begins s c 0x46 → isLocal s (dstOf l) = true → (dstOf l).toNat % 16 + dwB l ≤ 16 →
        shutDomain s (gLocal (blockOf (dstOf l) + BitVec.ofNat 45 ((dstOf l).toNat % 16))) = none →
        Completes (.store c) s fun t =>
          (∃ a, t.offered = s.offered ++ [a] ∧ a.owner = .store c ∧ a.wr = true ∧ a.colour = legColour s c ∧ a.gaddr = blockOf (dstOf l) ∧
            a.mask = maskAt ((dstOf l).toNat % 16) (dwB l) ∧
            bytesAt a.data ((dstOf l).toNat % 16) (dwB l) = (vreg r (fld l.w1 2 0)).toNat % 2 ^ (8 * dwB l)) ∧
          (ctx t c).r = r ∧ (ctx t c).w.phase = .single ∧ (ctx t c).w.storeLeft = 1 ∧ covered t c = covered s c + 1))

/-- END without a held divert or fire asks for a read of its own W0 through the leg-fetch port (R65); a leg of a reserved
opcode raises the illegal-opcode fault 0x01 with its PC (R109, R325). -/
def Obligations.EndReadsAndIllegalFaults : Prop :=
  ∀ (s : State) (c : Fin 1024),
    let r := (ctx s c).r
    (Begins s c 0x4F → divertHeld s c = false → shutDomain s r.pc = none →
      Completes (.endLeg c) s fun t => (ctx t c).w.phase = .endRead ∧ (ctx t c).r.pc = r.pc ∧
        ∃ f ∈ t.fetches, f.kind = .endW0 c ∧ f.addr = r.pc ∧ f.colour = legColour s c ∧ f.issued = false) ∧
    (canBegin s c = true → r.state = .active → isOpcode (opOf r.leg) = false → (safOf r.leg && divertHeld s c) = false →
      Completes (.illegalLeg c) s (FaultsAt s c 0x01))

/-- A leg with a reserved field or value faults with code 0x02 (R109; a NOP's W1 to W3 count as reserved, log entry 45). A leg that names a queue not open to its channel's
colour faults with 0x10 before it does anything (R145), a paced leg and WAITREQ on a channel without REQEN with 0x06, a SIGNAL that wakes a
channel of another colour with 0x07 (R325), and a SCALE or a REDUCE with XFORM whose LO is above HI with 0x02 (R116). -/
def Obligations.LegsFaultAtTheirCheck : Prop :=
  ∀ (s : State) (c : Fin 1024),
    let l := (ctx s c).r.leg
    (∀ p ∈ patternedLegs c ++ otherLegs c, Comes s c p.2 → legOk l = false → Completes p.1 s (FaultsAt s c 0x02)) ∧
    (∀ p ∈ (patternedLegs c).filter (fun p => p.2 ≠ 0x14 ∧ p.2 ≠ 0x15), Comes s c p.2 → legOk l = true → paceOf l = true → legReqen s c = false →
      Completes p.1 s (FaultsAt s c 0x06)) ∧
    (Comes s c 0x30 → legOk l = true → legReqen s c = false → Completes (.waitreq c) s (FaultsAt s c 0x06)) ∧
    (Comes s c 0x18 → legOk l = true → (paceOf l = true → legReqen s c = true) → openPush s (pushQueue l) (legColour s c) = false →
      Completes (.push c) s fun t => FaultsAt s c 0x10 t ∧ t.queues = s.queues) ∧
    (openPop s (popQueue l) (legColour s c) = false →
      (Comes s c 0x19 → legOk l = true → (paceOf l = true → legReqen s c = true) →
        Completes (.pop c) s fun t => FaultsAt s c 0x10 t ∧ t.queues = s.queues) ∧
      ∀ p ∈ [(Instr.mark c, 0x1A), (.rewind c, 0x1B), (.release c, 0x1C), (.waitq c, 0x32)], Comes s c p.2 → legOk l = true →
        Completes p.1 s fun t => FaultsAt s c 0x10 t ∧ t.queues = s.queues) ∧
    (Comes s c 0x33 → legOk l = true → bit l.w1 18 = true → legColour s (fld l.w1 17 8) ≠ legColour s c →
      Completes (.signal c) s (FaultsAt s c 0x07)) ∧
    (Comes s c 0x14 → legOk l = true → limitsBad (ctx s c).r (dwB l) (dsgOf l) = true → Completes (.scale c) s (FaultsAt s c 0x02)) ∧
    (Comes s c 0x15 → legOk l = true → bit l.w3 6 = true → limitsBad (ctx s c).r 4 (dsgOf l) = true →
      Completes (.reduce c) s (FaultsAt s c 0x02))

/-! ### Lanes, responses and fetches -/

/-- BURST_GRANT gives the first free lane that has a candidate to the candidate that goes first (R207): the burst stands
on the lane at the leg's element count (R152), the round-robin pointer of the class stands behind the channel, and the
channel's registers stay. BURST_RETURN of a burst that is done frees its lane, and the channel's element count and its
bytes stand behind the elements that the burst moved (R13). -/
def Obligations.LanesRunBursts : Prop :=
  (∀ (s : State) (l c : Nat), running s = true → haltStop s = false → nextGrant s = some (l, c) →
      Completes .burstGrant s fun t =>
        (∃ b, burstOn t l = some b ∧ b.ch = c ∧ b.leg = (ctx s c).r.leg) ∧ (ctx t c).r = (ctx s c).r ∧
        (ctx t c).w.phase = .burst l ∧ tget 0 t.rr (legClass s c) = (c + 1) % 1024 ∧
        ∀ k, k ≠ legClass s c → tget 0 t.rr k = tget 0 s.rr k) ∧
  (∀ (s : State) (l : Fin 8) (b : Burst), burstOn s l = some b → burstDone s l = true →
      Completes (.burstReturn l) s fun t =>
        burstOn t l = none ∧ (lane t l).freeAt = s.eclk + 1 ∧ (ctx t b.ch).r.ecount = b.base + b.limit ∧
        (ctx t b.ch).r.bytes = (ctx s b.ch).r.bytes + BitVec.ofNat 64 b.moved)

/-- A response ends the access that holds its tag: READ_RESPONSE and WRITE_RESPONSE free the tag, nothing comes of an
orphan's data (R329), a LOAD gathers its bytes (R136), and an accepted STORE no longer counts as uncovered (R258, R375). A
SPILL_RESPONSE to a half-group's header write puts the half-group into the middle (R282); one to a data write with
more to come counts it (R283). -/
def Obligations.ResponsesEndTheirAccess : Prop :=
  (∀ (s : State) (tag : Nat) (a : Acc), outAt s tag = some a →
      let freed := s.outst.filter (fun x => x.tag != tag)
      (∀ d p, a.wr = false → a.orphan = true → Completes (.readResponse tag (.data d p)) s fun t =>
        t.outst = freed ∧ Only (fun x => x = .outst ∨ someCtx x) s t ∧ ∀ c, (ctx t c).r = (ctx s c).r) ∧
      (∀ d p c, a.wr = false → a.orphan = false → a.owner = .load c → Completes (.readResponse tag (.data d p)) s fun t =>
        t.outst = freed ∧ (ctx t c).w.loadGot = (ctx s c).w.loadGot + (a.parts.map (·.len)).sum ∧ (ctx t c).r = (ctx s c).r) ∧
      (∀ d p l side, a.wr = false → a.orphan = false → a.owner = .lane l side → Completes (.readResponse tag (.data d p)) s fun t =>
        t.outst = freed) ∧
      (∀ c run leg, a.wr = true → a.owner = .store c → a.ch = some (c, run, leg) → Completes (.writeResponse tag .ok) s fun t =>
        t.outst = freed ∧ (ctx t c).w.wLoc = (ctx s c).w.wLoc - 1 ∧ (ctx t c).w.wRem = (ctx s c).w.wRem ∧ (ctx t c).r = (ctx s c).r)) ∧
  (∀ (s : State) (tag q : Nat) (a : Acc) (d : W128), outAt s tag = some a → a.wr = true → a.orphan = false →
      let x := queue s q
      (∀ n p sl, a.owner = .spill q .headWr → x.wrMove = .header n p sl → Completes (.spillResponse tag (.data d false)) s fun t =>
        queue t q = { x with wrMove := .none, tail := x.tail.drop n,
                             mid := x.mid ++ [⟨p, sl, (x.tail.take n).map (fun i => (i.pend, i.poison))⟩] }) ∧
      (∀ n p sl left, a.owner = .spill q .dataWr → x.wrMove = .write n p sl left → 1 < left →
        Completes (.spillResponse tag (.data d false)) s fun t => queue t q = { x with wrMove := .write n p sl (left - 1) }))

/-- IN_CLUSTER_COPY_DONE ends the copy of a burst that the cluster makes, once its lookups have been decided: with all its
bytes moved, and with P set where it passed poison under POI = 1 (R80, R89); or, at the element whose source or destination
answered with an error, with a bus error at that address (R85, R89). LOAD_DATA_RETURN writes the extended element to
V[VDST], adds poison to P, and the channel goes on (R136). -/
def Obligations.CopyAndLoadComplete : Prop :=
  ∀ (s : State),
    (∀ (l : Fin 8) (b : Burst) (passed : Bool), burstOn s l = some b → b.inCluster = true → b.started = true → b.copyDone = false →
      0 < b.limit → copyLooks s l = false →
      (b.limit ≤ b.els.length → Completes (.inClusterCopyDone l (.done passed)) s fun t =>
        burstOn t l = some { b with copyDone := true, fP := b.fP || (passed && poiOf b.leg), copyBytes := b.limit * swB b.leg,
                                    moved := b.limit * swB b.leg } ∧
        t.outst = s.outst ∧ t.offered = s.offered ∧ ∀ c, (ctx t c).r = (ctx s c).r) ∧
      (∀ j e dst, b.els[j]? = some e → j < b.limit → Completes (.inClusterCopyDone l (.err j dst passed)) s fun t =>
        ∃ b', burstOn t l = some b' ∧ b'.copyDone = true ∧ b'.limit = j ∧ b'.moved = j * swB b.leg ∧
          b'.why = .faulted 0x11 (if dst then e.dst else e.src))) ∧
    (∀ (c : Fin 1024), GoesOn s c → (ctx s c).w.phase = .single → opOf (ctx s c).r.leg = 0x45 → (ctx s c).r.state = .active →
      (ctx s c).w.faulting = none → (ctx s c).w.loadFail = none → swB (ctx s c).r.leg ≤ (ctx s c).w.loadGot →
      ((ctx s c).w.loadPoison = false ∨ poiOf (ctx s c).r.leg = true) →
      Completes (.loadDataReturn c) s fun t =>
        let r := (ctx s c).r
        vreg (ctx t c).r (fld r.leg.w2 2 0) = extend64 (swB r.leg) (bit r.leg.w2 3) (ctx s c).w.loadData ∧
        (ctx t c).r.flags = { r.flags with p := r.flags.p || (ctx s c).w.loadPoison } ∧ (ctx t c).r.pc = successorOf r ∧
        (ctx t c).w.legNo = (ctx s c).w.legNo + 1)

/-- LINE_FILL_RETURN with data fills the line, and each channel that waits for it stands before its leg (R60, R62).
END_W0_RETURN takes the leg's W0 as it was read: with NEXT 0 the channel parks, with another NEXT it goes there and
that line leaves the leg cache (R65, R67); nothing comes of a read-through that was orphaned (R329). -/
def Obligations.LegFetchesReturn : Prop :=
  (∀ (s : State) (line : W32) (col : Fin 16) (l : Line) (f : Fetch), s.fetches.find? (returning line col) = some f →
      f.denied = false → f.dropped = false → f.stale = false →
      Completes (.lineFillReturn line col (.data l)) s fun t =>
        t.fetches = s.fetches.erase f ∧ (∃ e ∈ t.lcache, e.addr = line ∧ e.colour = col ∧ e.data = l) ∧
        ∀ c ∈ f.waiters, (ctx s c).w.phase = .fetch → (ctx t c).r.leg = legIn l (ctx s c).r.pc ∧ (ctx t c).w.phase = .ready ∧
          (ctx t c).r.pc = (ctx s c).r.pc) ∧
  (∀ (s : State) (c : Fin 1024) (w0 : W64) (f : Fetch), s.fetches.find? (endOut c) = some f →
      (f.dropped = true → Completes (.endW0Return c (.data w0)) s fun t => t = { s with fetches := s.fetches.erase f }) ∧
      (f.dropped = false → f.denied = false → (ctx s c).w.phase = .endRead → (ctx s c).w.faulting = none →
        ((ctx s c).r.state = .active ∨ (ctx s c).r.state = .wait ∨ (ctx s c).r.state = .parked) →
        let next := BitVec.ofNat 32 (fld w0 63 32)
        (next = 0 → divertHeld s c = false → (ctx s c).r.wake = false → (ctx s c).w.woken = false →
          Completes (.endW0Return c (.data w0)) s fun t =>
            (ctx t c).r.state = .parked ∧ (ctx t c).r.wait = .none ∧ (ctx t c).w.phase = .parked ∧ (ctx t c).r.leg.w0 = w0 ∧
            (ctx t c).r.pc = (ctx s c).r.pc) ∧
        (next ≠ 0 → fld next 4 0 = 0 → Completes (.endW0Return c (.data w0)) s fun t =>
          (ctx t c).r.pc = next ∧ (ctx t c).w.legNo = (ctx s c).w.legNo + 1 ∧ ∀ e ∈ t.lcache, e.addr ≠ lineOf next)))

/-! ### Waits -/

/-- A wait leg whose condition comes to hold completes with Z = 1, at WAIT_SATISFIED or, for a time, at
WAITTIME_TARGET_REACHED, and WAITREQ consumes its requests; one whose deadline comes first completes with Z = 0 (R117). -/
def Obligations.WaitsEndWithTheirFlag : Prop :=
  ∀ (s : State) (c : Fin 1024), GoesOn s c → (ctx s c).r.state = .wait → (ctx s c).w.faulting = none →
    let r := (ctx s c).r
    let done := fun (z : Bool) => ({ r with deadline := none, flags := { r.flags with z := z } } : CtxRegs)
    (∀ q n, (r.desc = .items q n ∨ r.desc = .packet q) → condMet s c r.desc = true →
      Completes (.waitSatisfied c) s (WentTo s c (successorOf r) (done true))) ∧
    (∀ n, r.desc = .request n → condMet s c r.desc = true → (legReqen s c && levelMode (inp s (legReq s c))) = false →
      Completes (.waitSatisfied c) s (WentTo s c (successorOf r) { done true with pend := r.pend - n })) ∧
    (∀ b, r.desc = .barrierLeg b → condMet s c r.desc = true → Completes (.waitSatisfied c) s (WentTo s c (successorOf r) (done true))) ∧
    (∀ x, r.desc = .time x → x.toNat ≤ merInt s → Completes (.waittimeTargetReached c) s (WentTo s c (successorOf r) (done true))) ∧
    ((ctx s c).w.phase = .waiting → deadlineReached s c = true → condMet s c r.desc = false →
      Completes (.waitDeadlineReached c) s (WentTo s c (successorOf r) (done false)))

/-! ### Channel control -/

/-- CH_START, CH_DRAIN and CH_ABORT write CH_CTRL, and what they write acts at the end of the ECLK (R50, R333). A channel
that is OFF starts afresh at START: EN is 1, and its value registers, flags, counts and held diverts and wakes are those of
reset (R53); it starts at CH_START, but for a write in the same ECLK (R448). A channel that runs goes into DRAINING with EN 0; an abort also drops its divert, its wake and its re-arm
(R55, R330). -/
def Obligations.StartDrainAndAbort : Prop :=
  (∀ (s : State) (b : Initiator) (c : Fin 1024), HostOpen s b false true (chOff c 0) →
      ∀ e ∈ [(Instr.chStart b c, (1 : W32)), (.chDrain b c, 0), (.chAbort b c, 8)],
        Completes e.1 s fun t => t.ctl = s.ctl ++ [(c.val, .ctrl e.2)] ∧ t.ctxs = s.ctxs) ∧
  (∀ (s : State) (c : Fin 1024), inTransfer s c = false →
      let acts := fun (v : W32) => ctlEnd { s with ctl := [(c.val, .ctrl v)] }
      ((ctx s c).r.en = false → (ctx s c).r.state = .off →
        let r := (ctx (acts 1) c).r
        r.en = true ∧ r.pc = startValue s c ∧ r.start = (ctx s c).r.start ∧ r.v = [] ∧ r.flags = {} ∧ r.ecount = 0 ∧ r.lc = 0 ∧
        r.retValid = false ∧ r.divPend = false ∧ r.wake = false ∧ r.aborted = false ∧ r.state ≠ .off ∧
        (ctx (acts 1) c).w.faulting = none ∧ (acts 1).ctl = [] ∧ (haltOn s = true → r.state = .halted ∧ r.resume = .active)) ∧
      (((ctx s c).r.state = .active ∨ (ctx s c).r.state = .wait ∨ (ctx s c).r.state = .parked ∨ (ctx s c).r.state = .paused ∨
          (ctx s c).r.state = .held ∨ (ctx s c).r.state = .halted) →
        ((ctx s c).r.en = true → (ctx s c).w.faulting = none →
          let x := ctx (acts 0) c
          x.r.en = false ∧ x.r.state = .draining ∧ x.w.pausePend = false) ∧
        let x := ctx (acts 8) c
        x.r.en = false ∧ x.r.state = .draining ∧ x.w.aborting = true ∧ x.r.divPend = false ∧ x.r.wake = false ∧ x.r.rearm = false ∧
        x.w.fire = none))

/-- CH_PAUSE and CH_RESUME write CH_CTRL with EN as it reads. At the end of the ECLK a pause takes effect at the channel's
stop point (for END's read, log entry 44) at once, and else when PAUSE_STOP_POINT comes, keeping the state to come back to; a resumed channel comes back to
it (R51, R52, R333). DRAIN_COMPLETE takes a drained channel to OFF, an aborted one with ABORTED set, and one that is to
re-arm to a fresh start; FAULT_ENTRY takes a faulting channel to FAULT once its writes are accepted; FAULT_TO_OFF takes one
whose EN was written 0 on to OFF (R52, R55, R56, R322, R326). -/
def Obligations.PausesAndStops : Prop :=
  (∀ (s : State) (b : Initiator) (c : Fin 1024), HostOpen s b false true (chOff c 0) →
      ∀ e ∈ [(Instr.chPause b c, (2 : W32)), (.chResume b c, 4)],
        Completes e.1 s fun t => t.ctl = s.ctl ++ [(c.val, .ctrl (e.2 ||| enBit s c))] ∧ t.ctxs = s.ctxs) ∧
  (∀ (s : State) (c : Fin 1024), (ctx s c).w.heldAt ≠ some s.eclk →
      let acts := fun (v : W32) => ctlEnd { s with ctl := [(c.val, .ctrl (v ||| enBit s c))] }
      let paused := fun (t : State) =>
        (ctx t c).r = { (ctx s c).r with state := .paused, resume := (ctx s c).r.state, wait := .none } ∧ (ctx t c).w.pausePend = false
      (inTransfer s c = false → (ctx s c).w.faulting = none →
        ((ctx s c).r.state = .active ∨ (ctx s c).r.state = .wait ∨ (ctx s c).r.state = .parked ∨ (ctx s c).r.state = .held) →
        if atStop s c = true ∧ haltOn s = false then paused (acts 2)
        else (ctx (acts 2) c).r = (ctx s c).r ∧ (ctx (acts 2) c).w.pausePend = true) ∧
      ((ctx s c).w.pausePend = true → atStop s c = true → haltOn s = false → Completes (.pauseStopPoint c) s paused) ∧
      (inTransfer s c = false → (ctx s c).w.faulting = none → (ctx s c).r.state = .paused → (ctx s c).r.resume = .parked →
        (ctx s c).w.phase = .parked → divertHeld s c = false → (ctx s c).r.wake = false → (ctx s c).w.woken = false →
        (ctx (acts 4) c).r = { (ctx s c).r with state := .parked, resume := .off, wait := .none } ∧ (ctx (acts 4) c).w = (ctx s c).w)) ∧
  (∀ (s : State) (c : Fin 1024),
      let x := ctx s c
      (x.r.state = .draining → drained s c = true → x.w.faulting = none → x.r.rearm = false → Completes (.drainComplete c) s fun t =>
        (ctx t c).r.state = .off ∧ (ctx t c).r.aborted = x.w.aborting ∧ (ctx t c).r.wait = .none ∧ (ctx t c).w.phase = .idle) ∧
      (x.r.state = .draining → drained s c = true → x.w.faulting = none → x.r.rearm = true → Completes (.drainComplete c) s fun t =>
        (ctx t c).r.en = true ∧ (ctx t c).r.pc = startValue s c ∧ (ctx t c).r.state ≠ .draining ∧ (ctx t c).r.rearm = false) ∧
      (∀ f, x.w.faulting = some f → x.w.aborting = false → x.r.state ≠ .halted → covered s c = 0 → laneOf s c = none →
        Completes (.faultEntry c) s fun t => (ctx t c).r.state = .fault ∧ (ctx t c).r.fcode = x.r.fcode ∧ (ctx t c).w.faulting = none ∧
          (ctx t c).w.toOff = !x.r.en) ∧
      (x.r.state = .fault → x.w.toOff = true → Completes (.faultToOff c) s fun t =>
        (ctx t c).r.state = .off ∧ (ctx t c).r.aborted = x.r.aborted ∧ (ctx t c).w.toOff = false))

/-- CH_WAKE and CH_DIVERT act at the end of the ECLK (R333): a wake of a channel that is not parked is remembered, and of a
parked one has its END read again (R66); a divert of an ACTIVE channel leaves its target pending, and one of a channel that
waits in a leg with SAF is taken at once (R71, R72). CH_LEGEND_WRITE writes the legend, but for a colour above 13 and a
33rd pin (R38 to R40); CH_REARM_CLR clears the count of re-arms (R430). -/
def Obligations.WakeDivertLegendRearm : Prop :=
  ∀ (s : State) (b : Initiator) (c : Fin 1024) (v : W32),
    (HostOpen s b false true (chOff c 0x0C) → Completes (.chWake b c) s fun t =>
      t.ctl = s.ctl ++ [(c.val, .wake)] ∧ t.ctxs = s.ctxs) ∧
    (HostOpen s b false true (chOff c 0x14) → Completes (.chDivert b c v) s fun t =>
      t.ctl = s.ctl ++ [(c.val, .divert v)] ∧ t.ctxs = s.ctxs) ∧
    (inTransfer s c = false →
      let acts := fun (w : CtlWrite) => ctlEnd { s with ctl := [(c.val, w)] }
      (((ctx s c).r.state = .active ∨ (ctx s c).r.state = .wait ∨ (ctx s c).r.state = .held ∨ (ctx s c).r.state = .paused ∨
          (ctx s c).r.state = .halted) → ctx (acts .wake) c = { ctx s c with r := { (ctx s c).r with wake := true } }) ∧
      ((ctx s c).r.state = .parked → (ctx s c).w.phase = .parked → (ctx s c).w.faulting = none → heldFor s c = false →
        resident s c = true → shutDomain s (ctx s c).r.pc = none →
        (ctx (acts .wake) c).w.phase = .endRead ∧
          ∃ f ∈ (acts .wake).fetches, f.kind = .endW0 c ∧ f.addr = (ctx s c).r.pc ∧ f.colour = legColour s c) ∧
      ((ctx s c).r.state = .active → ctx (acts (.divert v)) c =
        { ctx s c with r := { (ctx s c).r with divTarget := v &&& 0xFFFFFFE0, divPend := true } }) ∧
      (waitsSafe s c = true → (ctx s c).w.faulting = none → heldFor s c = false →
        (ctx (acts (.divert v)) c).r.pc = v &&& 0xFFFFFFE0 ∧ (ctx (acts (.divert v)) c).r.divPend = false)) ∧
    (HostOpen s b false true (chOff c 0x10) → Completes (.chLegendWrite b c v) s fun t => legend t c = legendWritten s c v ∧
      (fld v 3 0 ≤ 13 → (bit v 7 = false ∨ pinnedCount s < 32) → legend t c = v &&& 0x3FFFFFFF)) ∧
    (HostOpen s b false true (chOff c 0x1C) → Completes (.chRearmClr b c) s fun t =>
      ctx t c = { ctx s c with r := { (ctx s c).r with rearmCnt := 0 } })

/-! ### Paging -/

/-- PAGE_SWAP writes back a released slot first (log entry 18), and else gives the first candidate that has a slot to come
into that slot, its transfer to end in 9 ECLK, or 8 behind another transfer, unless the victim still has a burst (R218
to R221). PAGE_TRANSFER_DONE, when the transfer has ended, gives the slot to the channel that came in, takes it from
the one that went out, and counts a swap (R57, R221). A word of the context that comes in with an uncorrectable error faults the
channel with code 0x30 (R340). -/
def Obligations.Paging : Prop :=
  (∀ s : State, running s = true → s.glob.readyCtx = true → s.swap = none →
      (∀ n c, writeBack s = some (n, c) → Completes .pageSwap s fun t => t.swap = some ⟨n, none, some c, some (transferEnd s)⟩) ∧
      (∀ c n v, writeBack s = none → (candidates s).findSome? (fun c => (victimFor s c).map (fun v => (c, v))) = some (c, n, v) →
        (∀ u, v = some u → laneOf s u = none) → Completes .pageSwap s fun t => t.swap = some ⟨n, some c, v, some (transferEnd s)⟩)) ∧
  (∀ (s : State) (n c v d : Nat), running s = true → s.swap = some ⟨n, some c, some v, some d⟩ → d ≤ s.eclk → s.ctl = [] →
      slotUse s n = .used v → c ≠ v → (ctx s c).r.state ≠ .off →
      (∀ k, Completes (.pageTransferDone .clean k) s fun t =>
        t.swap = none ∧ slotUse t n = .used c ∧ (ctx t c).r.slot = some n ∧ (ctx t v).r.slot = none ∧ t.glob.swaps = s.glob.swaps + 1 ∧
        (∀ k, k ≠ n → slotUse t k = slotUse s k)) ∧
      (∀ k, (ctx s c).r.state ≠ .fault → (ctx s c).w.faulting = none → Completes (.pageTransferDone .uncorrected k) s fun t =>
        slotUse t n = .used c ∧ (ctx t c).r.slot = some n ∧ (ctx t c).w.faulting.isSome = true ∧ (ctx t c).r.fcode = 0x30))

/-! ### Request inputs and event outputs -/

/-- A QCLK edge samples the pin, whose levels the command gives (log entry 48), two synchroniser stages follow the sample, and the filter's output follows the synchronised sample once
FILT + 1 samples in a row have been equal (R179, R180). A change of the output that the mode counts is a request of this
ECLK (R181); at its end each bound channel that counts requests and has room counts it (R188, R189); in the level modes the
level itself is the request, and no count changes (R192). A change that the mode does not count only changes the output
(R180). An input qualifies with its sample as the filter output and no request, and loses its qualification with the mode's
inactive level (R185 to R187); a level request consumed is armed again after its delay (R192). -/
def Obligations.PinsMakeRequests : Prop :=
  (∀ (i : Inp) (n : Nat) (level : Bool),
      let j := filterEdge n i level
      j.pin = level ∧ j.sync1 = i.pin ∧ j.sync2 = i.sync1 ∧ (j.level ≠ i.level → j.level = i.sync1 ∧ n + 1 ≤ j.runN)) ∧
  (∀ (s : State) (n : Fin 512) (x : Pins) (i : Inp), changeAt s n x.q x.pins = some i →
      (makesRequest i i.level = true → Completes (.pinRequest n x) s fun t => inp t n = i ∧ t.ctxs = s.ctxs ∧
        t.arrivals = if levelMode i then s.arrivals else s.arrivals ++ [(n.val, s.eclk)]) ∧
      (makesRequest i i.level = false → Completes (.filterOutputChange n x) s fun t =>
        inp t n = i ∧ t.ctxs = s.ctxs ∧ t.arrivals = s.arrivals)) ∧
  (∀ (s : State) (n : Fin 512), s.arrivals = [(n.val, s.eclk)] → trising s.legends = true → (countArrivals s).arrivals = [] ∧
      ∀ c, (ctx (countArrivals s) c).r.pend =
        if levelMode (inp s n) = false ∧ c ∈ boundTo s n ∧ countsRequests (ctx s c).r.state = true ∧
          (ctx s c).r.pend < (inp s n).depth.toNat + 1 then (ctx s c).r.pend + 1 else (ctx s c).r.pend) ∧
  (∀ (s : State) (n : Fin 512) (c : Fin 1024) (x : Pins),
      (quiet s = false → qok s n = false → sourcePowered s n = true → 2 ≤ s.eclk →
        Completes (.qualificationGained n x) s fun t => qok t n = true ∧ t.ctxs = s.ctxs ∧ t.arrivals = s.arrivals ∧
          inp t n = { sampled s x.q x.pins (inp s n) with valid := true, level := (sampled s x.q x.pins (inp s n)).sync2 }) ∧
      (quiet s = false → qok s n = true → (wiring s n).qual = true → Completes (.qualificationLost n) s fun t =>
        qok t n = false ∧ t.ctxs = s.ctxs ∧ t.arrivals = s.arrivals ∧
        inp t n = { inp s n with valid := false, level := (inactiveLevel (inp s n).mode).getD (inp s n).level }) ∧
      (∀ d, (ctx s c).w.rearmAt = some d → d ≤ s.eclk → Completes (.levelRearm c) s fun t =>
        (ctx t c).w.armed = true ∧ (ctx t c).w.rearmAt = none ∧ (ctx t c).r = (ctx s c).r))

/-- SWREQ makes one request on its input in the ECLK after it (R178), and none while SWDIS is set; REQIN_CLRCNT clears the
overrun count (R195); REQIN_CONFIG_WRITE writes the fields, of which a hard lock keeps FILT, MODE and DEPTH (R184, R408). -/
def Obligations.RequestInputRegisters : Prop :=
  ∀ (s : State) (b : Initiator) (n : Fin 512) (v : W32) (x : Pins), HostOpen s b false true (reqinOff n) →
    Completes (.swreq b n) s (fun t => t.arrivals = (if s.glob.swdis then s.arrivals else s.arrivals ++ [(n.val, s.eclk + 1)]) ∧
      t.ctxs = s.ctxs ∧ t.inputs = s.inputs) ∧
    Completes (.reqinClrcnt b n) s (fun t => inp t n = { inp s n with ovrcnt := 0 }) ∧
    (bit v 11 = false → bit v 12 = false → Completes (.reqinConfigWrite b n v x) s fun t =>
      (inp t n).book = fld v 10 8 ∧ (inp t n).ovrec = bit v 13 ∧ (inp t n).qrec = bit v 14 ∧ t.arrivals = s.arrivals ∧
      (s.glob.hardLock = false → (inp t n).filt = BitVec.ofNat 4 (fld v 3 0) ∧ (inp t n).depth = BitVec.ofNat 16 (fld v 31 16) ∧
        (fld v 6 4 < 6 → (inp t n).mode = BitVec.ofNat 3 (fld v 6 4))) ∧
      (s.glob.hardLock = true → (inp t n).filt = (inp s n).filt ∧ (inp t n).depth = (inp s n).depth ∧ (inp t n).mode = (inp s n).mode ∧
        (inp t n).level = (inp s n).level))

/-- SWPULSE drives its output with one event (R197): a pulse of WIDTH + 1 ECLK from the next ECLK in mode 0, a change of
level in mode 1; the pulse ends after its last ECLK (R198). EVO_CONFIG_WRITE writes WIDTH, MODE and POL (R200), and
TAG_CLRHW loads the tags in use as high-water marks (R217). -/
def Obligations.EventOutputs : Prop :=
  ∀ (s : State) (b : Initiator) (m : Fin 128) (v : W32),
    (HostOpen s b false true (evoOff m) → Completes (.swpulse b m) s fun t =>
      (evo t m).count = (evo s m).count + 1 ∧ (evo t m).lastAt = some s.eclk ∧
      ((evo s m).mode = 0 → (evo t m).active = true ∧ (evo t m).endAt = some (s.eclk + (evo s m).width.toNat + 1)) ∧
      ((evo s m).mode = 1 → (evo s m).lastAt ≠ some s.eclk → (evo t m).active = !(evo s m).active)) ∧
    (HostOpen s b false true (evoOff m) → bit v 7 = false → Completes (.evoConfigWrite b m v) s fun t =>
      (evo t m).width = BitVec.ofNat 4 (fld v 3 0) ∧ (evo t m).pol = bit v 6 ∧ (evo t m).count = (evo s m).count ∧
      (fld v 5 4 < 3 → (evo t m).mode = BitVec.ofNat 2 (fld v 5 4))) ∧
    (∀ d, (evo s m).endAt = some d → d ≤ s.eclk → (evo s m).mode = 0 → Completes (.pulseEnd m) s fun t =>
      evo t m = { evo s m with active := false }) ∧
    (HostOpen s b false true 0x48 → Completes (.tagClrhw b) s fun t => t.glob.lochw = locUse s ∧ t.glob.fabhw = fabUse s)

/-! ### Meridian -/

/-- MER_NOW_READ answers the integer count and captures its fraction; the read of the low word keeps the high one for the
read that follows (R5, R235). MER_SET waits for the next ECLK, and is rejected under fabric time (R236, R239); a new
source clears SYNC, the lock and what was left to slew, and the corrections of its ECLK are discarded (R241). -/
def Obligations.MeridianIsReadAndSet : Prop :=
  (∀ (s : State) (b : Initiator), HostOpen s b false false 0x3010 →
      let resp := fun (t : State) => match b with | .host => t.port.resp | .debug => t.port.dbgResp
      Completes (.merNowRead b true) s (fun t => resp t = ⟨merWord s, false⟩ ∧ t.mer = { s.mer with frac := merFrac s }) ∧
      Completes (.merNowRead b false) s (fun t => resp t = ⟨BitVec.ofNat 64 (fld (merWord s) 31 0), false⟩ ∧
        t.mer = { s.mer with frac := merFrac s } ∧
        tget none t.port.snaps (keySnap b 0x3010) = some (BitVec.ofNat 32 (fld (merWord s) 63 32)))) ∧
  (∀ (s : State) (b : Initiator) (v : W64) (src : BitVec 2),
      (HostOpen s b false true 0x3020 → Completes (.merSet b v) s fun t =>
        t.mer = if s.mer.src = 1 then { s.mer with rej := true } else { s.mer with setPend := some v }) ∧
      (HostOpen s b false true 0x3000 → src ≠ 3 → src ≠ s.mer.src → Completes (.merSrcChange b src) s fun t =>
        t.mer.src = src ∧ t.mer.sync = false ∧ t.mer.lock = false ∧ t.mer.remain = 0 ∧ t.mer.now = (merKept s).now ∧ t.mer.rate = (merKept s).rate))

/-- A correction of at least 1,000 ns is added to the count in place of the slewed part of that ECLK, and counts as a
step; a smaller one is left to slew; one of −1,000 ns or less also sets BACKOFF (R237, R238). Without the host as
source the write is rejected (R236). A correction acts after the count of its ECLK (log entry 8). Holdover begins when
the path is lost under fabric time or HOLD passes without a correction; when it lasts HOLD, SYNC ends; SYNC sets once
lock is declared and less than 1,000 ns is left to slew (R240). -/
def Obligations.MeridianCorrectionAndHoldover : Prop :=
  (∀ (s : State) (b : Initiator) (v : W64), HostOpen s b false true 0x3028 →
      let o := signed 63 v.toNat * 256
      (s.mer.src ≠ 2 → Completes (.merAdj b v) s fun t => t.mer = { s.mer with rej := true }) ∧
      (s.mer.src = 2 → s.mer.srcAt ≠ some s.eclk → Completes (.merAdj b v) s fun t =>
        t.mer.lastofs = BitVec.ofInt 64 (signed 63 v.toNat) ∧ t.mer.holdover = false ∧
        (1000 * 2 ^ 32 ≤ o → t.mer.now = ((s.mer.now : Int) - s.mer.slewed + o).toNat ∧ t.mer.remain = 0 ∧ t.mer.stepcnt = s.mer.stepcnt + 1 ∧
          t.mer.stepped = true) ∧
        (o < 1000 * 2 ^ 32 → t.mer.now = s.mer.now ∧ t.mer.remain = o ∧ t.mer.stepcnt = s.mer.stepcnt) ∧
        (o ≤ -(1000 * 2 ^ 32) → t.mer.backoff = true))) ∧
  (∀ s : State, running s = true →
      (∀ lost, s.mer.holdover = false → s.mer.src ≠ 0 →
        ((lost = true ∧ s.mer.src = 1) ∨ (s.mer.sync = true ∧ s.mer.corrAt + holdLimit s ≤ mclk s)) →
        Completes (.holdoverStart lost) s fun t => t.mer = { s.mer with holdover := true, holdAt := mclk s }) ∧
      (s.mer.holdover = true → s.mer.holdAt + holdLimit s ≤ mclk s → Completes .holdoverExpiry s fun t =>
        t.mer.sync = false ∧ t.mer.holdover = false ∧ t.mer.now = s.mer.now) ∧
      (s.mer.sync = false → s.mer.lock = true → s.mer.remain.natAbs < 1000 * 2 ^ 32 → Completes .synchronised s fun t =>
        t.mer = { s.mer with sync := true }))

/-! ### The Graticule -/

/-- INSERT, DELETE and REPLACE capture the staged words, or set CMDLOST while a command is being done (R246). An INSERT
takes the lowest idle entry, or answers FULL; DELETE and REPLACE answer NOENTRY for an idle one; refused words answer
3 and change nothing (R245, R246). GRAT_ENABLE sets EN, after which the entries fire that have come due meanwhile
(R253); GRAT_CLRCNT clears both counts, but for what is counted in its ECLK (R257). -/
def Obligations.GraticuleCommands : Prop :=
  (∀ (s : State) (b : Initiator) (k : Fin 4096),
      (∀ e ∈ [(Instr.insert b, (1 : BitVec 2), 0), (.delete b k, 2, k.val), (.replace b k, 3, k.val)], HostOpen s b false true 0x30B0 →
        Completes e.1 s fun t => t.grat.entries = s.grat.entries ∧
          if s.grat.cmd.isSome then t.grat.cmd = s.grat.cmd ∧ t.grat.cmdLost = true
          else t.grat.cmd = some ⟨e.2.1, e.2.2, s.grat.stage0, s.grat.stage1, s.grat.stage2, s.grat.stage3⟩) ∧
      (∀ g, running s = true → s.glob.readyGrat = true → s.grat.cmd = some g → Completes .gratCommandComplete s fun t =>
        t.grat.cmd = none ∧
        (g.op = 1 → gratRefused g = false → ∀ i, lowestIdle 4096 0 s.grat.entries = some i →
          t.grat.code = 0 ∧ t.grat.index = i ∧ entry t i = some (gratEntry g) ∧ ∀ j, j ≠ i → entry t j = entry s j) ∧
        (g.op = 1 → gratRefused g = false → lowestIdle 4096 0 s.grat.entries = none → t.grat.code = 1 ∧ t.grat.entries = s.grat.entries) ∧
        (g.op ≠ 1 → entry s g.index = none → t.grat.code = 2 ∧ t.grat.entries = s.grat.entries) ∧
        (g.op = 2 → entry s g.index ≠ none → t.grat.code = 0 ∧ entry t g.index = none ∧ ∀ j, j ≠ g.index → entry t j = entry s j) ∧
        (g.op = 3 → entry s g.index ≠ none → gratRefused g = false →
          t.grat.code = 0 ∧ t.grat.index = g.index ∧ entry t g.index = some (gratEntry g) ∧ ∀ j, j ≠ g.index → entry t j = entry s j) ∧
        (g.op ≠ 2 → (g.op = 1 ∨ entry s g.index ≠ none) → gratRefused g = true → t.grat.code = 3 ∧ t.grat.entries = s.grat.entries))) ∧
  (∀ (s : State) (b : Initiator),
      (HostOpen s b false true 0x3080 → Completes (.gratEnable b) s fun t => t.grat = { s.grat with en := true }) ∧
      (HostOpen s b false true 0x3088 → Completes (.gratClrcnt b) s fun t => 
        t.grat = { s.grat with lateCnt := BitVec.ofNat 16 (countNow s (w1cKey 0x3088 16)), missCnt := BitVec.ofNat 16 (countNow s (w1cKey 0x3088 32)) }))

/-- The one due entry fires, where its read finds no error (log entry 46): it leaves the store unless it repeats, and its action stands for the next ECLK (R248, R249,
R252); actions of earlier ECLK reach their channels (R249); the lead of an entry that has come into its lead time is
done once (R251). -/
def Obligations.GraticuleFires : Prop :=
  ∀ (s : State), running s = true →
    (∀ i e, s.grat.en = true → s.grat.firedAt ≠ some s.eclk → inOrder (s.grat.entries.filter (fun e => isDue s e.2)) = [(i, e)] →
      isLate s e = false → entryError s i = .clean → Completes (.gratFiring .clean) s fun t =>
        (∃ a, t.grat.acts = s.grat.acts ++ [a] ∧ a.ch = e.ch ∧ a.wake = e.wake ∧ a.fire.leg = e.leg ∧ a.fire.index = i ∧ a.fire.tag = e.tag ∧ a.fire.time = merWord s ∧
          a.at_ = s.eclk) ∧
        t.grat.firedAt = some s.eclk ∧ t.grat.lateCnt = s.grat.lateCnt ∧
        (e.rep = false → entry t i = none) ∧
        (e.rep = true → e.remain ≠ 1 → ∃ e', entry t i = some e' ∧ e'.t = e.t + periodsOn s e * e.period ∧ e'.remain = e.remain - 1)) ∧
    (∀ a, s.grat.acts = [a] → a.at_ < s.eclk → inTransfer s a.ch = false → a.wake = false → (ctx s a.ch).r.state = .active →
      (ctx s a.ch).w.fire = none → Completes .gratActionDelivery s fun t => t.grat.acts = [] ∧ (ctx t a.ch).w.fire = some a.fire) ∧
    (∀ (k : Fin 4096) e, entry s k = some e → s.grat.en = true → e.leadDone = false → e.lead ≠ 0 → entryError s k = .clean →
      e.t * 256 ≤ s.mer.now + e.lead * 1000 * 2 ^ 32 → Completes (.gratLead k) s fun t =>
        entry t k = some { e with leadDone := true } ∧ (resident s e.ch = false → (ctx t e.ch).w.urgent = true))

/-! ### Field books -/

/-- The writer takes the record at the head of its buffer: a book that is off counts it lost, a full one also loses its
sequence number, and an open one puts it under way with the next sequence number in its next slot (R273 to R278,
R451). -/
def Obligations.WriterTakesARecord : Prop :=
  ∀ (s : State) (r : Rec) (rest : List Rec), quiet s = false → s.recClk.takenAt ≠ some s.eclk → s.staged = r :: rest →
    (book s r.book).under = none → lostDue s r.book = false →
    Completes .recordTake s fun t =>
      let x := book s r.book
      (x.en = false → t.recClk.takenAt = some s.eclk ∧ t.staged = rest ∧ book t r.book = { x with lost := sat32 x.lost }) ∧
      (x.en = true → ringFull x = true → t.recClk.takenAt = some s.eclk ∧ t.staged = rest ∧ (book t r.book).lost = sat32 x.lost ∧ (book t r.book).seq = x.seq + 1 ∧
        (book t r.book).lostpend = true ∧ (book t r.book).widx = x.widx) ∧
      (x.en = true → ringFull x = false → t.staged = rest ∧ (book t r.book).seq = x.seq + 1 ∧ (book t r.book).widx = x.widx ∧
        ∃ u, (book t r.book).under = some u ∧ u.w1 = r.time ∧ u.w2 = r.value ∧ u.addr = slotAddr x ∧ u.w0 = (recWords x r).w0 ∧
          u.w3 = (recWords x r).w3)

/-- The second write of a record accepted, the book's WIDX counts it (R276); a failed write ends the record and turns the
book off with ERR, unless the host has written EN in that ECLK (R279, R448); the timer's expiry sets its flag (R280). BOOK_ENABLE of a book that is off sets EN with
indices, sequence number and losses cleared (R274); a RIDX within what was pending at the start of the ECLK is taken, and any
other sets BADIDX (R448, R451). -/
def Obligations.BooksAndRecordWrites : Prop :=
  (∀ (s : State) (b : Fin 8) (a : Acc),
      (recordAcc s b = some a → isSecond a.owner = true → Completes (.recordWriteDone b) s fun t =>
        (book t b).widx = (book s b).widx + 1 ∧ (book t b).under = none ∧ (book t b).ridx = (book s b).ridx ∧
        t.outst = s.outst.filter (fun x => x.tag != a.tag)) ∧
      (recordAcc s b = some a → Completes (.recordWriteFailed b) s fun t =>
        book t b = { book s b with under := none, en := (book s b).en && setNow s (w1cKey (bookStatus b) 63), err := true } ∧ t.outst = s.outst.filter (fun x => x.tag != a.tag)) ∧
      (running s = true → timerDue s b = true → Completes (.bookTimerExpiry b) s fun t =>
        book t b = { book s b with expired := true } ∧ t.outst = s.outst)) ∧
  (∀ (s : State) (i : Initiator) (b : Fin 8) (v : W32),
      (HostOpen s i false true (bookOff b 8) → (book s b).en = false → setNow s (w1cKey (bookStatus b) 19) = false → Completes (.bookEnable i b) s fun t =>
        book t b = { book s b with en := true, widx := 0, ridx := 0, seq := 0, lostpend := false, drops := 0, expired := false }) ∧
      (HostOpen s i false true (bookOff b 0x18) → Completes (.bookRidxWrite i b v) s fun t =>
        if (v - (book s b).ridx).toNat ≤ ((book s b).widx - (book s b).ridx).toNat - countNow s (w1cKey (bookStatus b) 0)
        then book t b = { book s b with ridx := v, timerAt := merInt s, expired := false }
        else book t b = { book s b with badidx := true }))

/-! ### Stream queues -/

/-- HOST_PUSH and HOST_PUSHEND place one item behind the others, the latter with packet-end, where the tail has room, and
else set OVR and drop it (R297); a queue that has taken an item in this ECLK takes it in a later one (R288). HOST_POP takes
the oldest deliverable item and answers its data, and its flags stand in POPF; with none deliverable it answers the idle
item, and POPF says so (R294, R298); where one has been delivered in this ECLK the read waits (R288). -/
def Obligations.HostPushAndPop : Prop :=
  (∀ (s : State) (b : Initiator) (q : Fin 64) (d : W64),
      let x := queue s q
      ∀ e ∈ [(Instr.hostPush b q d, false, 0x20), (.hostPushend b q d, true, 0x28)], HostOpen s b false true (qOff q e.2.2) →
        (x.inAt ≠ some s.eclk → x.hostIn = [] → x.resetAt ≠ some s.eclk → Completes e.1 s fun t =>
          if x.tail.length < 8 then
            (queue t q).tail = x.tail ++ [mkItem d e.2.1 false] ∧ (queue t q).head = x.head ∧ (queue t q).ovr = x.ovr ∧
            (queue t q).inAt = some s.eclk
          else queue t q = { x with ovr := true }) ∧
        (x.inAt = some s.eclk ∨ x.hostIn ≠ [] → Completes e.1 s fun t => queue t q = { x with hostIn := x.hostIn ++ [(d, e.2.1)] })) ∧
  (∀ (s : State) (q : Fin 64), HostOpen s .host false false (qOff q 0x30) →
      let x := queue s q
      (deliverable x = 0 → Completes (.hostPop .host q true) s fun t =>
        t.port.resp = ⟨x.idle, false⟩ ∧ queue t q = { x with popf := 8 }) ∧
      (∀ i rest, 0 < deliverable x → x.head = i :: rest → i.inReg = true → x.outAt ≠ some s.eclk → parityOk i.it = true → i.hg = none →
        Completes (.hostPop .host q true) s fun t =>
          t.port.resp = ⟨i.it.data, false⟩ ∧ (queue t q).head = rest ∧ (queue t q).tail = x.tail ∧
          (queue t q).popf = BitVec.ofNat 4 (1 + 2 * Machine.bool i.it.pend + 4 * Machine.bool i.it.poison)) ∧
      (0 < deliverable x → x.outAt = some s.eclk → Completes (.hostPop .host q true) s fun t =>
        t.port.early = s.port.early ++ [.hostPop .host q true] ∧ queue t q = x))

/-- QUEUE_RESET empties the queue, releases its pages and its mark, and writes its configuration (R299); UNMARK ends the
mark and frees what it held (R291). A write of STE_SPILL_BASE makes the pool anew, and does nothing while pages are in
use; SPILL_CLRHW loads the high-water mark with the pages in use (R301). -/
def Obligations.QueueAndPoolRegisters : Prop :=
  (∀ (s : State) (b : Initiator) (q : Fin 64) (v : W64), HostOpen s b false true (qOff q 0) →
      (bit v 49 = false → Completes (.queueReset b q v) s fun t =>
        let x := queue t q
        x.tail = [] ∧ x.mid = [] ∧ x.head = [] ∧ x.held = [] ∧ x.hostIn = [] ∧ x.pages = [] ∧ x.markv = false ∧ x.openN = 0 ∧ x.en = bit v 0 ∧
        x.cls = fld v 3 1 ∧ x.thru = bit v 8 ∧ x.cut = BitVec.ofNat 16 (fld v 47 32)) ∧
      Completes (.unmark b q) s fun t => (queue t q).markv = false ∧ (queue t q).held = [] ∧ (queue t q).head = (queue s q).head ∧
        (queue t q).tail = (queue s q).tail) ∧
  (∀ (s : State) (b : Initiator) (v : W64),
      (HostOpen s b false true 0x60 → fld v 45 32 ≤ 8192 → Completes (.spillBaseWrite b v) s fun t =>
        if s.spill.inuse = 0 then t.spill.base = BitVec.ofNat 22 (fld v 31 10) ∧ t.spill.pages = fld v 45 32 ∧ t.spill.freeN = 0 ∧
          t.spill.fresh = 0 ∧ t.spill.inuse = 0
        else t.spill = s.spill ∧ ∀ k, queue t k = queue s k) ∧
      (HostOpen s b false true 0x68 → Completes (.spillClrhw b) s fun t => t.spill = { s.spill with hwm := s.spill.inuse }))

/-- The movements between a queue's parts (R282): TAIL_TO_HEAD moves the oldest item of the tail behind the head, one in an
ECLK; HALF_GROUP_SPILL and TAIL_IDLE_FLUSH, where the queue needs a page and the free list has one, begin to read its next
free page (R284); HEAD_REFILL begins to read the half-group that comes next, its data and its header (R283). -/
def Obligations.QueueMovements : Prop :=
  ∀ (s : State) (q : Fin 64), running s = true →
    let x := queue s q
    (∀ i rest, direct x = true → x.moveAt ≠ some s.eclk → x.tail = i :: rest → parityOk i = true → Completes (.tailToHead q) s fun t =>
      queue t q = { x with tail := rest, head := x.head ++ [{ it := i, inReg := true, hg := none, ix := 0 }], moveAt := some s.eclk }) ∧
    (direct x = false → x.sperr = false → x.wrMove = .none → x.tail ≠ [] → pageRoom x = false → x.pages.length < x.maxpg →
      0 < s.spill.freeN → s.spill.reading = false →
      ∀ i, ((i = .halfGroupSpill q ∧ (4 ≤ x.tail.length ∨ x.tail.any (·.pend) = true)) ∨
          (i = .tailIdleFlush q ∧ x.lastPut + 8 ≤ s.eclk)) →
        Completes i s fun t => queue t q = { x with wrMove := .alloc (min 4 x.tail.length) } ∧ t.spill = { s.spill with reading := true } ∧
          ∃ a, t.offered = s.offered ++ [a] ∧ a.owner = .spill q .freeRd ∧ a.wr = false ∧ a.colour = 15) ∧
    (∀ p sl, refillSource x = some (p, sl) → x.rdMove = .none → headUsed x ≤ 4 → Completes (.headRefill q) s fun t =>
      queue t q = { x with rdMove := .read p sl none none none false 3 } ∧
      ∃ l, t.offered = s.offered ++ l ∧ l.map (·.owner) = [.spill q (.dataRd 0), .spill q (.dataRd 1), .spill q .headRd] ∧
        ∀ a ∈ l, a.wr = false ∧ a.colour = 15 ∧ a.mask = 0xFFFF)

/-! ### The Atlas -/

/-- A write of a whole staged word stands in the staging buffer, and in no store, until a COMMIT (R313); one that finds
the buffer full, or a COMMIT under way, is refused with an error and STGREJ. -/
def Obligations.StagingHoldsRuleWords : Prop :=
  ∀ (s : State) (off : BitVec 21) (d : W64), HostOpen s .host true true off.toNat → stagedAt off.toNat = true → off.toNat % 8 = 0 →
    Completes (.atlasStageWrite .host off 8 d) s fun t =>
      let k := off.toNat / 8
      t.atlas.sheets = s.atlas.sheets ∧ t.atlas.trust = s.atlas.trust ∧ t.atlas.colours = s.atlas.colours ∧ t.atlas.epoch = s.atlas.epoch ∧
      if committing s = true ∨ (512 ≤ s.atlas.staging.length ∧ tfind? s.atlas.staging k = none) then
        t.atlas.staging = s.atlas.staging ∧ t.atlas.stgrej = true ∧ t.port.resp.err = true
      else tfind? t.atlas.staging k = some d ∧ (∀ j, j ≠ k → tfind? t.atlas.staging j = tfind? s.atlas.staging j) ∧ t.port.resp.err = false

/-- COMMIT_GO begins a COMMIT unless one is under way (R314). COMMIT_SWITCH, where nothing refuses it, puts the staged
registers in force, increments the epoch and empties the leg cache and the sheet caches; accesses whose lookups have
completed stay as decided, and a lookup that has not begins again (R315). Where something refuses it, the rules in force
stay. -/
def Obligations.CommitSwitchesTheRules : Prop :=
  ∀ (s : State) (b : Initiator) (g : BitVec 4),
    (HostOpen s b false true 0x5008 → Completes (.commitGo b g) s fun t =>
      if s.atlas.phase = .idle then t.atlas.phase = .prep g s.eclk else t.atlas.phase = s.atlas.phase ∧ t.atlas.cmdlost = true) ∧
    (∀ e, running s = true → s.atlas.phase = .prep g e → testBlocks g s = false → Completes .commitSwitch s fun t =>
      (commitRefused s = none → t.atlas.uncov = s.atlas.uncovStg ∧ t.atlas.win = s.atlas.winStg ∧ t.atlas.gdef = s.atlas.gdefStg ∧
        t.atlas.epoch = s.atlas.epoch + 1 ∧ t.lcache = [] ∧ t.atlas.code = 0 ∧ t.atlas.phase = .copying s.eclk ∧
        ((∀ a ∈ s.offered, a.decided = true) → (∀ f ∈ s.fetches, f.decided = true) →
          t.atlas.caches = [] ∧ t.offered = s.offered ∧ t.fetches = s.fetches) ∧
        (∀ a q, s.offered = [a] → a.ask = some q → a.decided = false →
          ∃ n, 12 ≤ n ∧ t.offered = [{ a with readyAt := s.eclk + n }])) ∧
      (∀ code index, commitRefused s = some (code, index) → t.atlas.code = code ∧ t.atlas.index = index ∧ t.atlas.phase = .idle ∧
        t.atlas.epoch = s.atlas.epoch ∧ t.atlas.uncov = s.atlas.uncov ∧ t.lcache = s.lcache))

/-- COMMIT_COPY_IN brings one staged word into its store in an ECLK from the one after the switch on, and the COMMIT is over
in the ECLK after the last (R314); COMMIT_DRAINED reports that no access of the old rules is left (R316); ATLAS_CLRCNT
clears the violation counts, but for what is counted in its ECLK (R321); LIFECYCLE_CHANGE takes effect with the lookups of
the next ECLK (R317). -/
def Obligations.CommitCompletes : Prop :=
  ∀ (s : State) (b : Initiator) (level : Bool),
    (∀ e k v rest, running s = true → s.atlas.phase = .copying e → e < s.eclk → s.atlas.staging = (k, v) :: rest →
      Completes .commitCopyIn s fun t =>
        t.atlas.staging = rest ∧ t.atlas.phase = .copying s.eclk ∧
        (k < 0x20000 → tfind? t.atlas.grid k = some v) ∧
        (0x2C000 ≤ k → k < 0x2D000 → tget 0 t.atlas.sheets (k - 0x2C000) = v ∧ ∀ j, j ≠ k - 0x2C000 → tget 0 t.atlas.sheets j = tget 0 s.atlas.sheets j) ∧
        (0x2D800 ≤ k → k < 0x2D900 → tget 0 t.atlas.trust (k - 0x2D800) = v) ∧
        (0x2D900 ≤ k → k < 0x2D920 → tget 0 t.atlas.colours (k - 0x2D900) = v)) ∧
    (∀ e, running s = true → s.atlas.phase = .copying e → e < s.eclk → s.atlas.staging = [] → Completes .commitCopyIn s fun t =>
      t.atlas = { s.atlas with phase := .idle }) ∧
    (s.atlas.drained = false → s.atlas.switchAt < s.eclk → oldOut s = 0 → Completes .commitDrained s fun t =>
      t.atlas = { s.atlas with drained := true }) ∧
    (HostOpen s b false true 0x5000 → Completes (.atlasClrcnt b) s fun t => t.atlas.epoch = s.atlas.epoch ∧
      t.atlas.vcnt = BitVec.ofNat 32 (countNow s (w1cKey 0x5058 0)) ∧ t.atlas.dbgcnt = BitVec.ofNat 32 (countNow s (w1cKey 0x5060 0))) ∧
    (level ≠ s.dbg.unlock → Completes (.lifecycleChange level) s fun t =>
      t.dbg = { s.dbg with unlock := level, prev := s.dbg.unlock, changedAt := s.eclk })

/-! ### The global halt, errors and fences -/

/-- GLOBAL_HALT_ENTRY: a line fill that returns an error enters the halt with its line and colour, and is counted (R334);
CHANNEL_HALTED halts a channel at its stop point and keeps the state to come back to; HALT_ISSUE_STOP, 4 ECLK after
the entry, stops the issue of reads and drops the fills under way (R335). HALT_RETRY_ISSUE reads the line again at 62
ECLK after the entry; HALT_RETRY_END notes how the retry ended, or that its time ran out; HALT_DECISION holds the halt
when it failed, or when the errors exceed the threshold of a fenced class, and else lets RECOVERY end it, as
GLOBAL_RESUME ends a held one (R336 to R338). -/
def Obligations.GlobalHalt : Prop :=
  (∀ (s : State) (line : W32) (col : Fin 16) (c : Fin 1024),
      (∀ f, s.fetches.find? (fun f => returning line col f && f.issued && !f.busySeen) = some f → haltOn s = false →
        Completes (.globalHaltEntry line col) s fun t =>
          t.halt.st = 1 ∧ t.halt.count = s.halt.count + 1 ∧ t.halt.addr = line ∧ t.halt.colour = col ∧ t.halt.entry = s.eclk ∧
          t.fetches.filter isFill = (s.fetches.erase f).filter isFill ∧ (errCls t 49).total = sat16 (errCls s 49).total) ∧
      (haltOn s = true → stopComes s c = false → atStop s c = true → (ctx s c).w.heldAt ≠ some s.eclk → (ctx s c).r.state ≠ .paused → (ctx s c).w.pausePend = false →
        Completes (.channelHalted c) s fun t =>
          (ctx t c).r = { (ctx s c).r with state := .halted, resume := (ctx s c).r.state, wait := .none }) ∧
      (haltOn s = true → s.halt.issueStop = false → s.halt.entry + 4 ≤ s.eclk → Completes .haltIssueStop s fun t =>
        t.halt = { s.halt with issueStop := true })) ∧
  (∀ (s : State) (b : Initiator) (l : Line),
      (s.halt.st = 1 → s.halt.retryOut = false → s.halt.ended = none → s.halt.entry + 62 ≤ s.eclk → Completes .haltRetryIssue s fun t =>
          t.halt = { s.halt with retryOut := true } ∧
          ∃ f, t.fetches = s.fetches ++ [f] ∧ f.kind = .retry ∧ f.addr = s.halt.addr ∧ f.colour = s.halt.colour ∧ f.issued = false) ∧
      (s.halt.st = 1 → s.halt.retryOut = true → s.halt.ended = none →
        (∀ f, s.fetches.find? (fun f => isRetry f && f.issued) = some f → s.eclk ≤ s.halt.entry + 1164 → Completes (.haltRetryEnd (some (.data l))) s fun t =>
          t.halt = { s.halt with ended := some (true, false, s.eclk) } ∧ t.fetches = s.fetches.erase f) ∧
        (s.halt.entry + 1164 ≤ s.eclk → Completes (.haltRetryEnd none) s fun t =>
          t.halt = { s.halt with ended := some (false, true, s.eclk) } ∧ t.fetches = s.fetches.filter (fun f => !isRetry f))) ∧
      (∀ ok byLimit e, s.halt.st = 1 → s.halt.decided = none → s.halt.ended = some (ok, byLimit, e) → e < s.eclk →
        Completes .haltDecision s fun t =>
          t.halt = if ok = false then { s.halt with st := 2, why := if byLimit then 2 else 1, decided := none }
            else if (rolled s (errCls s 49)).thresh.toNat < (rolled s (errCls s 49)).count.toNat ∧ (rolled s (errCls s 49)).fence = true then
              { s.halt with st := 2, why := 3, decided := none }
            else { s.halt with decided := some s.eclk }) ∧
      (∀ d, s.halt.decided = some d → d < s.eclk → Completes .recovery s fun t =>
        t.halt = { s.halt with st := 0, issueStop := false, retryOut := false, ended := none, decided := none }) ∧
      (HostOpen s b false true 0x70 → s.halt.st = 2 → Completes (.globalResume b) s fun t =>
        t.halt = { s.halt with st := 0, issueStop := false, retryOut := false, ended := none, decided := none }))

/-- ERROR_WINDOW_END returns COUNT to 0 once the window has passed (R342); LASTING_FAULT sets LASTING, counts it, and
applies the class's fence to a lane (R342). In the MCLK period after the one in which it is accepted (R412), a write of
STE_ERRC_CFG starts a new window, with what is counted in that ECLK (R342, R448), and one of STE_FENCE sets LANE, LINK and
GMODE, and adds to GRID (R344, R347). -/
def Obligations.ErrorsAndFences : Prop :=
  ∀ (s : State) (b : Initiator) (k : Fin 50) (v : W64) (w : W32),
    ((errCls s k).from_ + windowLen (errCls s k) ≤ mclk s → Completes (.errorWindowEnd k) s fun t =>
      (errCls t k).count = 0 ∧ (errCls t k).total = (errCls s k).total ∧ (errCls t k).lasting = (errCls s k).lasting) ∧
    (∀ m n, (errCls s k).lastPend = some (m, n) → m < mclk s → Completes (.lastingFault k) s fun t =>
      (errCls t k).lasting = true ∧ (errCls t k).lastcnt = sat16 (errCls s k).lastcnt ∧ (errCls t k).lastPend = none ∧
      (22 ≤ k.val → k.val < 38 → (errCls s k).fence = true → s.fences.hostAt ≠ some (mclk s) →
        bit t.fences.lane (k.val / 2 - 11) = true)) ∧
    (HostOpen s b false true (errcOff k 0) → Completes (.errcCfgWrite b k v) s fun t =>
      let e := errCls (atPort s b false true (errcOff k 0)) k
      let n := errCls (atNextMclk t) k
      errCls t k = e ∧ t.port.mgtFrom = 4 * mclk s + 5 ∧
      n.count = BitVec.ofNat 16 (countNow { t with eclk := 4 * (mclk s + 1) } (w1cKey (errcOff k 0) 0)) ∧
      n.from_ = mclk s + 1 ∧ n.thresh = BitVec.ofNat 16 (fld v 47 32) ∧
      n.window = (if 1 ≤ fld v 16 0 ∧ fld v 16 0 ≤ 100000 then fld v 16 0 else e.window) ∧ n.total = e.total ∧ n.lasting = e.lasting) ∧
    (HostOpen s b false true 0x7080 → laneTested s = none → Completes (.fenceWrite b w) s fun t =>
      let n := (atNextMclk t).fences
      t.fences = s.fences ∧ t.port.mgtFrom = 4 * mclk s + 5 ∧
      n.lane = BitVec.ofNat 8 (fld w 7 0) ∧ n.link = BitVec.ofNat 4 (fld w 11 8) ∧
      n.grid = BitVec.ofNat 4 (fld w 15 12) ||| s.fences.grid ∧ n.gmode = BitVec.ofNat 4 (fld w 19 16) ∧
      n.onLane = s.fences.onLane ∧ n.onLink = s.fences.onLink)

/-! ### The Bruhus fabric -/

/-- LINK_UP of an enabled port brings it up with full credit, no frame unacknowledged and its neighbour's ID (R350, R351);
LINK_DOWN, and PORT_ENABLE with EN 0, take it down, count the event and the frames lost, and end its credit (R351);
PORT_CLRST clears its statistics (R449). The words of a link that is up. A frame with a bad CRC owes a NAK for the
LSEQ expected, and a stomped one passes (R351, R357); a NAK has the frames from its LSEQ on sent again, an ACK ends
those up to its LSEQ (R351); a credit word adds its flits (R355); SKIP and IDENT words go out at their intervals
(R348 to R350). A frame that was being forwarded when its CRC turned out bad goes out stomped (R357); a port whose link
is down sends TRAIN while it is enabled, and one with a SKIP due sends nothing before it (R348, R355). -/
def Obligations.LinkPortsAndWords : Prop :=
  (∀ (s : State) (b : Initiator) (p : Fin 4) (nbr : BitVec 12) (nbrv en : Bool) (cause : Fin 3),
      let x := port s p
      let down := fun (t : State) => (port t p).up = false ∧ (port t p).downs = sat16 x.downs ∧ (port t p).replay = [] ∧
        (port t p).lost = BitVec.ofNat 16 (min 0xFFFF (x.lost.toNat + x.replay.length)) ∧ (port t p).creditRt = 0 ∧ (port t p).creditBulk = 0
      (quiet s = false → x.en = true → x.up = false → Completes (.linkUp p nbr nbrv) s fun t =>
        (port t p).up = true ∧ (port t p).nbr = nbr ∧ (port t p).nbrv = nbrv ∧ (port t p).txLseq = 0 ∧ (port t p).rxLseq = 0 ∧
        (port t p).creditRt = 16 ∧ (port t p).creditBulk = 48 ∧ (port t p).replay = []) ∧
      (x.up = true → (cause = 0 ∨ (cause = 1 ∧ 8 ≤ x.replayCnt) ∨ (cause = 2 ∧ x.en = false)) → Completes (.linkDown p cause) s down) ∧
      (HostOpen s b false true (portOff p) → x.up = true → en = false → Completes (.portEnable b p en) s fun t => down t ∧ (port t p).en = false) ∧
      (HostOpen s b false true (portOff p) → (x.up = false ∨ en = true) → Completes (.portEnable b p en) s fun t =>
        port t p = { x with en := en }) ∧
      (HostOpen s b false true (portOff p) → Completes (.portClrst b p) s fun t =>
        port t p = { x with naks := 0, replays := 0, downs := 0, lost := 0 })) ∧
  (∀ (s u : State) (p n : Fin 4) (f g : Frame) (q : Option Nat),
      let x := port s p
      let goesOn := s.fab.en = true ∧ ttlEnds f = false ∧ onward s p f = some (g, q) ∧
        ((q = some n.val ∧ usable s n = true) ∨ (q = none ∧ routePort s f.hdr.dst.toNat = some n.val))
      let sent := fun (arr : Option Nat) (t : State) =>
        (⟨g, arr, false, true, 0⟩ : TxF) ∈ (if g.hdr.rt then (port t n).txRt else (port t n).txBulk)
      frameOk f = true → quiet s = false → x.up = true →
      (x.rxWait = false ∨ x.rxLseq = f.hdr.lseq → Completes (.frameCrcFail p ⟨false, f⟩) s fun t =>
        (port t p).rxWait = true ∧ (port t p).naks = sat16 x.naks ∧ (port t p).owed = x.owed ++ [.nak x.rxLseq] ∧
        (port t p).rxLseq = x.rxLseq ∧ (x.rxLseq = f.hdr.lseq → goesOn → sent none t)) ∧
      (x.rxWait = true → x.rxLseq ≠ f.hdr.lseq → Completes (.frameCrcFail p ⟨false, f⟩) s fun t => t = s) ∧
      (takeFrame p f s = some u → Completes (.frameCrcFail p ⟨true, f⟩) s fun t =>
        (port t p).rxLseq = x.rxLseq + 1 ∧ (port t p).rxWait = false ∧ (port t p).naks = x.naks ∧ .ack f.hdr.lseq ∈ (port t p).owed ∧
        (goesOn → sent (some p.val) t))) ∧
  (∀ (stamp : Nat → W64) (now : Nat) (x : LinkPort),
      (x.up = false → x.en = true → (txNext stamp now x).lastWord = some .train ∧ (txNext stamp now x).lastChar = 0xFC) ∧
      (x.up = true → x.skipAt + 320 ≤ now → txNext stamp now x = x)) ∧
  (∀ (s : State) (p : Fin 4) (n : BitVec 8) (nbr : BitVec 12) (nbrv rt : Bool) (k : Fin 16),
      let x := port s p
      x.up = true →
      (∀ f l, fromLseq n x.replay = f :: l →
        Completes (.nakWord p n) s (fun t => (port t p).replay = f :: l ∧ (port t p).again = f :: l ∧ (port t p).txRt = x.txRt ∧ (port t p).txBulk = x.txBulk ∧
          (port t p).replays = BitVec.ofNat 16 (min 0xFFFF (x.replays.toNat + (f :: l).length)) ∧
          (port t p).replayCnt = if (f :: l).length = x.replay.length then x.replayCnt + 1 else 1) ∧
        Completes (.ackWord p n) s (fun t => port t p = { x with replay := l, again := x.again.filter l.contains, replayCnt := 0 })) ∧
      Completes (.creditWord p rt k) s (fun t =>
        (port t p).creditRt = (if rt then x.creditRt + (k.val + 1) else x.creditRt) ∧
        (port t p).creditBulk = (if rt then x.creditBulk else x.creditBulk + (k.val + 1)) ∧ (port t p).replay = x.replay) ∧
      Completes (.identWord p nbr nbrv) s (fun t => (port t p).nbr = nbr ∧ (port t p).nbrv = nbrv ∧ (port t p).up = true) ∧
      (x.skipAt + 320 ≤ s.eclk → Completes (.skipDue p) s fun t =>
        port t p = { x with skipAt := s.eclk, lastWord := some .skip, lastChar := 0x1C, txForce := linkByte s p, rtRun := 0 }) ∧
      (x.identAt + 800000 ≤ s.eclk → Completes (.identDue p) s fun t =>
        port t p = { x with identAt := s.eclk, lastWord := some (.ident s.fab.id s.fab.idv), lastChar := 0x9C, rtRun := 0 }))

/-- A frame is taken while the link is up and carries the LSEQ expected: the next one is expected, and an ACK and the
frame's credit are owed (R351, R355). A remote operation for this node waits as an access, or one for each unit, with the
frame's bytes, mask, colour and poison, for the Atlas to translate and check, and its response is owed (R363). -/
def Obligations.RemoteOperationsArrive : Prop :=
  ∀ (s u : State) (p : Fin 4) (h : Hdr) (addr : W32) (tag : BitVec 14) (pois : Bool) (mask : W8) (m : W16) (data : W64) (units : List WUnit),
    isOwn s h = true → s.fab.en = true →
    let a0 := addr &&& 0xFFFFFFF0
    let hi := addr.toNat % 16 / 8 * 8
    let taken := fun (t : State) => (port t p).rxLseq = (port s p).rxLseq + 1 ∧ .ack h.lseq ∈ (port t p).owed
    let asked := fun (a : Acc) (wr : Bool) => a.decided = false ∧ ∃ q, a.ask = some q ∧ q.point = 9 ∧ q.colour = h.col.toNat ∧
      q.inbound = some h.src.toNat ∧ q.wr = wr ∧ q.elided = h.eld ∧ q.addr = a.blk
    let waits := fun (wr : Bool) (n : Nat) (t : State) => ∃ i ∈ t.fab.inb, i.id = s.fab.nextId ∧ i.src = h.src ∧ i.tag = tag ∧ i.addr = addr ∧
      i.wr = wr ∧ i.left = n ∧ i.answered = false
    (takeFrame p ⟨h, .wrs addr tag pois mask data⟩ s = some u → Completes (.rxWrs p h addr tag pois mask data) s fun t =>
      taken t ∧ waits true 1 t ∧
      ∃ a, t.offered = s.offered ++ [a] ∧ a.owner = .inbound s.fab.nextId 0 ∧ a.wr = true ∧ a.blk = a0 ∧ asked a true ∧
        a.mask = BitVec.ofNat 16 (mask.toNat * 2 ^ hi) ∧ a.data = BitVec.ofNat 128 (data.toNat * 2 ^ (8 * hi)) ∧ a.poison = pois) ∧
    (takeFrame p ⟨h, .rd addr tag m⟩ s = some u → Completes (.rxRd p h addr tag m) s fun t => taken t ∧ waits false 1 t ∧
      ∃ a, t.offered = s.offered ++ [a] ∧ a.owner = .inbound s.fab.nextId 0 ∧ a.wr = false ∧ a.blk = a0 ∧ asked a false ∧ a.mask = m) ∧
    (takeFrame p ⟨h, .wr addr tag units⟩ s = some u → wrUnitsOk units = true → Completes (.rxWr p h addr tag units) s fun t =>
      taken t ∧ waits true units.length t ∧ t.fab.nextId = s.fab.nextId + 1 ∧
      ∃ l, t.offered = s.offered ++ l ∧ l.length = units.length ∧ ∀ (k : Nat) (x : WUnit), units[k]? = some x →
        ∃ a, l[k]? = some a ∧ a.owner = .inbound s.fab.nextId k ∧ a.wr = true ∧ a.blk = a0 + BitVec.ofNat 32 (16 * k) ∧ asked a true ∧
          a.mask = x.mask ∧ a.data = x.data ∧ a.poison = x.pois)

/-- Answers end their accesses: an ACK ends a write and an RDR a read, and a NAK, like REMOTE_TIMEOUT, fails the access; a
LOAD's failure is kept for its channel (R258, R327, R328, R363). DEST_RESPONSE_TIMEOUT answers an access that the node
has not (R363). REMOTE_TIMEOUT fails an access RTMO after the router took it, and DEST_RESPONSE_TIMEOUT answers an
inbound one with a NAK after 100 µs (R328, R363). -/
def Obligations.AnswersAndTimeLimits : Prop :=
  (∀ (s u : State) (p : Fin 4) (h : Hdr) (addr : W32) (tag : BitVec 14) (o : FOut) (d : W128),
      s.fab.en = true → isOwn s h = true → answered s addr tag = some o → o.orphan = false →
      let gone := s.fab.out.filter (fun f => f.ftag != o.ftag)
      (∀ r dm n c, takeFrame p ⟨h, .nak addr tag r dm n⟩ s = some u → r ≠ 3 → o.owner = .load c → (ctx s c).w.loadFail = none →
        Completes (.rxNak p h addr tag r dm n) s fun t => t.fab.out = gone ∧
          (ctx t c).w.loadFail = some (BitVec.ofNat 8 (nakCode o r.toNat dm.toNat), (o.units.drop n.toNat).head?.elim o.addr firstAddr) ∧ (ctx t c).r = (ctx s c).r) ∧
      (∀ c, takeFrame p ⟨h, .rdr addr tag false d⟩ s = some u → o.wr = false → o.owner = .load c →
        Completes (.rxRdr p h addr tag false d) s fun t => t.fab.out = gone ∧
          (ctx t c).w.loadGot = (ctx s c).w.loadGot + ((o.units.flatMap (·.parts)).map (·.len)).sum ∧ (ctx t c).r = (ctx s c).r) ∧
      (∀ c run leg, takeFrame p ⟨h, .ack addr tag⟩ s = some u → o.wr = true → o.ch = some (c, run, leg) →
        Completes (.rxAck p h addr tag) s fun t => t.fab.out = gone ∧ (ctx t c).w.wRem = (ctx s c).w.wRem - o.units.length ∧
          (ctx t c).w.wLoc = (ctx s c).w.wLoc ∧ (ctx t c).r = (ctx s c).r)) ∧
  (∀ (s : State) (o : FOut) (i : InAcc),
      (s.fab.out.find? (fun f => f.ftag == o.ftag && decide (f.at_ + 800 * s.halt.rtmo ≤ s.eclk)) = some o →
        let gone := s.fab.out.filter (fun f => f.ftag != o.ftag)
        (o.orphan = true → Completes (.remoteTimeout o.ftag) s fun t => t.fab.out = gone ∧ ∀ c, (ctx t c).r = (ctx s c).r) ∧
        (∀ c, o.orphan = false → o.owner = .load c → (ctx s c).w.loadFail = none → Completes (.remoteTimeout o.ftag) s fun t =>
          t.fab.out = gone ∧ (ctx t c).w.loadFail = some (0x15, o.units.head?.elim o.addr firstAddr) ∧ (ctx t c).r = (ctx s c).r)) ∧
      (s.fab.inb.find? (fun j => j.id == i.id && !j.answered && decide (j.at_ + 80000 ≤ s.eclk)) = some i →
        Completes (.destResponseTimeout i.id) s fun t =>
          t.fab.inb = modWhere (fun j => j.id == i.id) (fun j => { j with answered := true }) s.fab.inb ∧
          (∀ q, s.fab.en = true → routePort s i.src.toNat = some q → ∃ f : TxF, f.f.body = .nak i.addr i.tag 5 0 0 ∧
            f.f.hdr.dst = i.src ∧ f ∈ (if i.rt then (port t q).txRt else (port t q).txBulk))))

/-- An EV frame makes a request on its input when its node, colour and input are trusted and enabled, and is else refused
with EVREF (R364). A NOTE waits its turn while the root surveys (log entry 24), and else its leave has the root query the
node named and its join has it query the port named; a NOTE that names nothing mapped, or comes where AUTO is 0 or to a
node that is not the root, is discarded (R368, R369). A reserved KIND is discarded with BADKIND (R353, R356); a frame
for another node goes on with TTL lowered, and ends with TTLX at TTL 1 (R356). SYNC_EXCHANGE sends a SYNQ to the time
parent with its t1 noted; a SYNQ is answered with an SYNR by its port (log entry 8); an SYNR ends the exchange and
counts it; the third failure in a row ends the lock (R370, R371). -/
def Obligations.OtherFramesAndSynchronisation : Prop :=
  (∀ (s u : State) (p : Fin 4) (h : Hdr) (n : BitVec 9) (leave : Bool) (q : BitVec 2) (nbr : BitVec 12) (nbrv : Bool) (k : BitVec 4) (b : Body) (e : MapEnt),
      s.fab.en = true →
      let c := translate s h.src.toNat h.col.toNat
      let group := fld (ruleWord s (trustKey h.src.toNat)) (4 * (h.src.toNat % 16) + 3) (4 * (h.src.toNat % 16))
      let trusted := isBad s 9 (trustKey h.src.toNat) = false ∧ isBad s 10 (colourKey group h.col.toNat) = false ∧ c ≠ 0 ∧ c ≠ 14 ∧ c ≠ 15 ∧
        bit s.fab.evcol c = true ∧ bit (tget 0 s.fab.even (n.toNat / 64)) (n.toNat % 64) = true
      let idle := s.fab.root = true ∧ s.fab.auto = true ∧ s.fab.survey.busy = false ∧ s.fab.survey.leaving = none ∧ s.fab.survey.notes = []
      (takeFrame p ⟨h, .ev n⟩ s = some u → isOwn s h = true → ¬ trusted → Completes (.rxEv p h n) s fun t =>
        t.fab.evref = true ∧ t.fab.refused = sat32 s.fab.refused ∧ t.arrivals = s.arrivals ∧ t.inputs = s.inputs ∧ t.ctxs = s.ctxs) ∧
      (takeFrame p ⟨h, .ev n⟩ s = some u → isOwn s h = true → trusted → Completes (.rxEv p h n) s fun t =>
        t.fab.refused = s.fab.refused ∧ t.fab.evref = s.fab.evref ∧ t.arrivals = s.arrivals ++ [(n.toNat, s.eclk)]) ∧
      (takeFrame p ⟨h, .note leave q nbr nbrv⟩ s = some u → isOwn s h = true →
        ((s.fab.root && s.fab.auto) = false → Completes (.rxNote p h leave q nbr nbrv) s fun t => t.fab.survey = s.fab.survey) ∧
        (s.fab.root = true → s.fab.auto = true → (s.fab.survey.busy = true ∨ s.fab.survey.leaving ≠ none) →
          Completes (.rxNote p h leave q nbr nbrv) s fun t =>
            t.fab.survey = { s.fab.survey with notes := s.fab.survey.notes ++ [(leave, h.src.toNat, q.toNat, nbr.toNat)] }) ∧
        (idle → leave = true → nbr ≠ 0 → mapAt s nbr.toNat = some e → Completes (.rxNote p h leave q nbr nbrv) s fun t =>
          t.fab.survey = { s.fab.survey with leaving := some nbr.toNat, await := some e.path, awaitAt := s.eclk } ∧ t.fab.map = s.fab.map) ∧
        (idle → leave = true → (nbr = 0 ∨ mapAt s nbr.toNat = none) → Completes (.rxNote p h leave q nbr nbrv) s fun t =>
          t.fab.survey = s.fab.survey) ∧
        (idle → leave = false → mapAt s h.src.toNat = some e → e.path.length < 20 → Completes (.rxNote p h leave q nbr nbrv) s fun t =>
          t.fab.survey = { s.fab.survey with busy := true, code := 0, stack := [⟨h.src.toNat, e.path, 4⟩], joining := true,
                                             await := some (e.path ++ [q.toNat]), awaitAt := s.eclk } ∧ t.fab.map = s.fab.map) ∧
        (idle → leave = false → mapAt s h.src.toNat = some e → 20 ≤ e.path.length → Completes (.rxNote p h leave q nbr nbrv) s fun t =>
          t.fab.survey.code = 3 ∧ t.fab.map = s.fab.map) ∧
        (idle → leave = false → mapAt s h.src.toNat = none → Completes (.rxNote p h leave q nbr nbrv) s fun t =>
          t.fab.survey = s.fab.survey)) ∧
      (takeFrame p ⟨h, .reserved k⟩ s = some u → reservedKind k = true → Completes (.rxReservedKind p h k) s fun t =>
        t.fab.badkind = true ∧ t.fab.refused = sat32 s.fab.refused) ∧
      (takeFrame p ⟨h, b⟩ s = some u → isOwn s h = false → isRouted b = true → (∀ x, b ≠ .reserved x) → frameOk ⟨h, b⟩ = true →
        (h.ttl ≤ 1 → Completes (.frameForward p ⟨h, b⟩) s fun t => t.fab.ttlx = true ∧ t.fab.refused = sat32 s.fab.refused) ∧
        (∀ q, 1 < h.ttl → routePort u h.dst.toNat = some q → Completes (.frameForward p ⟨h, b⟩) s fun t =>
          t.fab.refused = s.fab.refused ∧ (⟨⟨{ h with ttl := h.ttl - 1 }, b⟩, some p.val, false, false, 0⟩ : TxF) ∈
            (if h.rt then (port t q).txRt else (port t q).txBulk)))) ∧
  (∀ (s u : State) (p : Fin 4) (h : Hdr) (t1 t2 t3 : W64) (at_ leave : Fin 8),
      s.fab.en = true →
      let t4 := stampAt s at_
      (∀ q, quiet s = false → s.sync.en = true → s.sync.t1 = none → s.sync.lastAt + 800 * s.sync.per ≤ s.eclk → parentPort s = some q →
        Completes (.syncExchange leave) s fun t => t.sync.t1 = some (stampAt s leave) ∧ t.sync.pport = q ∧ t.sync.lastAt = s.eclk ∧
          ∃ f, (port t q).txRt = (port s q).txRt ++ [f] ∧ f.f.body = .synq ∧ f.own = true ∧ f.rclk = leave.val) ∧
      (takeFrame p ⟨h, .synq⟩ s = some u → isOwn s h = true → Completes (.rxSynq p h at_ leave) s fun t =>
        ∃ f, (port t p).txRt = (port s p).txRt ++ [f] ∧ f.own = true ∧ f.rclk = leave.val ∧
          f.f.body = .synr (!(s.mer.sync || (s.fab.idv && s.fab.id == s.sync.tref))) (stampAt s at_) 0) ∧
      (takeFrame p ⟨h, .synr false t2 t3⟩ s = some u → isOwn s h = true → s.sync.t1 = some t1 → s.sync.pport = p.val →
        Completes (.rxSynr p h false t2 t3 at_) s fun t =>
          t.sync.t1 = none ∧ t.sync.fails = 0 ∧ t.sync.exch = s.sync.exch + 1 ∧ t.sync.delay = BitVec.ofNat 16 (syncDelay t1 t2 t3 t4) ∧
          (s.mer.src ≠ 1 → t.mer = s.mer)) ∧
      (takeFrame p ⟨h, .synr true t2 t3⟩ s = some u → isOwn s h = true → s.sync.t1 = some t1 → s.sync.pport = p.val →
        Completes (.rxSynr p h true t2 t3 at_) s fun t =>
          t.sync.t1 = none ∧ t.sync.good = 0 ∧ t.sync.fails = min 255 (s.sync.fails + 1) ∧ (2 ≤ s.sync.fails → t.sync.lock = false)) ∧
      (s.sync.t1 = some t1 → s.sync.t1At + 8000 ≤ s.eclk → Completes .synrTimeout s fun t =>
        t.sync.t1 = none ∧ t.sync.good = 0 ∧ t.sync.fails = min 255 (s.sync.fails + 1) ∧ (2 ≤ s.sync.fails → t.sync.lock = false)) ∧
      (∀ (x : LinkPort) (t : TxF) (stamp : Nat → W64) (n : Bool), t.own = true → t.f.body = .synr n t2 t3 →
        ∃ y ∈ (txFrame stamp t x).replay, y.f.body = .synr n t2 (stamp t.rclk)))

/-- The survey (R365, R366). SURVEY_GO at a root that is not surveying starts with ID 0 and a map of the root alone, and
elsewhere does nothing; an assignment that reaches its target gives it its ID, and a query is answered; an SVR for the
query that waits maps a new node under its own ID when that is free; a leave's query that times out ends its entry
(R368). -/
def Obligations.SurveyMapsTheNodes : Prop :=
  ∀ (s u : State) (b : Initiator) (p : Fin 4) (h : Hdr) (x : Path) (assign : Bool) (id : BitVec 12) (uid : W64) (want : BitVec 12)
      (wantv : Bool) (arr : BitVec 2) (ports : List PortInfo),
    (HostOpen s b false true 0x6020 → s.fab.root = false → Completes (.surveyGo b) s fun t => t.fab = s.fab) ∧
    (HostOpen s b false true 0x6020 → s.fab.root = true → s.fab.survey.busy = false → Completes (.surveyGo b) s fun t =>
      t.fab.id = 0 ∧ t.fab.idv = true ∧ t.fab.nodes = 1 ∧ (∀ n, n ≠ 0 → mapAt t n = none) ∧
      ∃ e, mapAt t 0 = some e ∧ e.uid = s.straps.uid ∧ e.path = []) ∧
    (s.fab.en = true → pathOk x = true → atTarget x = true → takeFrame p ⟨h, .sv x assign id⟩ s = some u →
      Completes (.rxSv p h x assign id) s fun t =>
        if assign then t.fab.id = id ∧ (setNow s (w1cKey 0x6008 12) = false → t.fab.idv = true)
        else t.fab.id = s.fab.id ∧ (usable s p = true → ∃ f ∈ (port t p).txBulk, ∃ y ps, f.f.body =
          .svr y s.straps.uid s.fab.id s.fab.idv s.fab.want s.fab.wantv (BitVec.ofNat 2 p) ps)) ∧
    (s.fab.en = true → pathOk x = true → svrPortsOk ports = true → atTarget x = true → takeFrame p ⟨h, .svr x uid id true want wantv arr ports⟩ s = some u →
      s.fab.survey.await = some (pathBack p x) → s.fab.survey.leaving = none →
      (∀ e ∈ s.fab.map, ∀ m, e.2 = some m → m.uid ≠ uid) → mapAt s id.toNat = none →
      Completes (.rxSvr p h x uid id true want wantv arr ports) s fun t => t.fab.nodes = s.fab.nodes + 1 ∧
        mapAt t id.toNat = some { uid := uid, path := pathBack p x, arr := arr.toNat, want := want, wantLost := wantv && id.toNat != want.toNat,
                                  ports := ports }) ∧
    (∀ n e, s.fab.survey.await.isSome = true → s.fab.survey.awaitAt + 8000 ≤ s.eclk → s.fab.survey.leaving = some n → mapAt s n = some e →
      Completes .svTimeout s fun t => mapAt t n = none ∧ t.fab.nodes = s.fab.nodes - 1)

/-- The route load (R360, R367). ROUTE_LOAD_GO of a node that is not mapped ends with code 1, and of a mapped one begins
to read its image; while a load runs it only writes NODE and IMAGE (log entry 20). An
RL that a node accepts writes 64 entries; RL_TIMEOUT ends the load with code 2; a write of the route table writes one
entry. -/
def Obligations.RoutesAreLoaded : Prop :=
  ∀ (s u : State) (b : Initiator) (v : W64) (w : W32) (node : BitVec 12) (p : Fin 4) (h : Hdr) (x : Path) (last : Bool) (first : W16) (entries : List W32),
    (HostOpen s b false true 0x6028 → s.fab.load.busy = false → Completes (.routeLoadGo b v) s fun t =>
      t.fab.load.node = BitVec.ofNat 12 (fld v 11 0) ∧ t.fab.load.image = BitVec.ofNat 27 (fld v 63 37) ∧ t.fab.load.frame = 0 ∧
      if mapAt s (fld v 11 0) = none then t.fab.load.busy = false ∧ t.fab.load.code = 1
      else t.fab.load.busy = true ∧ t.fab.load.reads = 16 ∧ t.offered.length = s.offered.length + 16) ∧
    (HostOpen s b false true 0x6028 → s.fab.load.busy = true → Completes (.routeLoadGo b v) s fun t =>
      t.fab.load = { s.fab.load with node := BitVec.ofNat 12 (fld v 11 0), image := BitVec.ofNat 27 (fld v 63 37) } ∧ t.offered = s.offered) ∧
    (s.fab.en = true → pathOk x = true → rlEntriesOk entries = true → atTarget x = true → takeFrame p ⟨h, .rl x last first entries⟩ s = some u →
      h.src = 0 → s.fab.rlacc = true → Completes (.rxRl p h x last first entries) s fun t =>
        (∀ n, first.toNat ≤ n → n < first.toNat + 64 → n < 4096 → routeEntry t n = entries.getD (n - first.toNat) 0 &&& 0x3F) ∧
        (∀ n, (n < first.toNat ∨ first.toNat + 64 ≤ n) → routeEntry t n = routeEntry s n) ∧ (last = true → t.fab.surveyed = true)) ∧
    (∀ a, s.fab.load.busy = true → s.fab.load.sentAt = some a → a + 80000 ≤ s.eclk → Completes .rlTimeout s fun t =>
      t.fab.load.busy = false ∧ t.fab.load.code = 2 ∧ t.fab.routes = s.fab.routes) ∧
    (HostOpen s b true true (0x168000 + 4 * node.toNat) → Completes (.routeTableWrite b node w) s fun t =>
      routeEntry t node.toNat = w &&& 0x3F ∧ ∀ n, n ≠ node.toNat → routeEntry t n = routeEntry s n)

/-! ### Power domains, flash and the debug path -/

/-- PDREQ_RISE opens the request window of a domain and PDREQ_DROP closes it and ends PDACK and PDNAK (R377, R452); a powered
domain that was shut is up with it. PDACK
comes when the window has settled, nothing keeps the domain and no channel vetoes, and takes it down; PDNAK when a
vetoing channel has entered HELD (R379); PGOOD_FALL takes the domain down and DOMAIN_RETURN brings it up again, and
the channels held for it go on in the ECLK after (R381, R382, R452). An input whose source stands in the domain loses its qualification with it, and one that needs no comparator
gains it again as the domain returns (R185). -/
def Obligations.PowerDomainsGoAndReturn : Prop :=
  ∀ (s : State) (d : Fin 16),
    (bit s.power.pdreq d = false → quiet s = false → Completes (.pdreqRise d) s fun t =>
      bit t.power.pdreq d = true ∧ bit t.power.window d = true ∧ tget s.eclk t.power.openAt d = s.eclk ∧ t.power.pdack = s.power.pdack ∧
      ∀ k, k ≠ d.val → bit t.power.pdreq k = bit s.power.pdreq k ∧ bit t.power.window k = bit s.power.window k) ∧
    (bit s.power.pdreq d = true → Completes (.pdreqDrop d) s fun t =>
      bit t.power.pdreq d = false ∧ bit t.power.pdack d = false ∧ bit t.power.pdnak d = false ∧ bit t.power.window d = false ∧
      (bit s.power.pgood d = true → bit t.power.down d = false ∨ domainUp s d = true) ∧
      (quiet s = false → bit s.power.pgood d = true → domainUp s d = false → (d.val, s.eclk + 1, bit s.power.owes d) ∈ t.power.back ∧
        domainUp t d = true) ∧
      ∀ k, k ≠ d.val → bit t.power.down k = bit s.power.down k) ∧
    (bit s.power.window d = true → s.power.settle ≤ windowAge s d → releasable s d = true → (∀ v ∈ s.power.vetoes, v.1 ≠ d.val) →
      Completes (.pdack d) s fun t => bit t.power.pdack d = true ∧ bit t.power.window d = false ∧ bit t.power.down d = true) ∧
    (∀ v, s.power.vetoes.find? (fun v => v.1 == d.val) = some v → v.2.2.2 < s.eclk → bit s.power.window d = true → Completes (.pdnak d) s fun t =>
      bit t.power.pdnak d = true ∧ bit t.power.nakd d = true ∧ bit t.power.window d = false ∧ t.power.down = s.power.down ∧
      (d.val, s.eclk + 2, false) ∈ t.power.back ∧ (bit s.power.pgood d = true → bit s.power.down d = false → domainUp { t with eclk := s.eclk + 1 } d = true)) ∧
    (bit s.power.pgood d = true → Completes (.pgoodFall d) s fun t =>
      bit t.power.pgood d = false ∧ bit t.power.down d = true ∧ bit t.power.window d = false ∧
      ∀ n, (wiring s n).domv = true → (wiring s n).dom = d.val → qok t n = false) ∧
    (quiet s = false → bit s.power.pdreq d = false → Completes (.domainReturn d) s fun t =>
      bit t.power.pgood d = true ∧ bit t.power.down d = false ∧ t.ctxs = s.ctxs ∧
      ∀ n, (wiring s n).domv = true → (wiring s n).dom = d.val → (wiring s n).qual = false → 2 ≤ s.eclk → qok t n = true) ∧
    (∀ c, quiet s = false → bit s.power.pdreq d = false → heldIn s d = [c] → (ctx s c).w.phase = .single → s.power.back = [] →
      Completes (.domainReturn d) s fun t =>
        bit t.power.down d = false ∧ (ctx t c).r.state = .held ∧ (ctx (backNow { t with eclk := s.eclk + 1 }) c).r.state = .active)

/-- BANKBUSY_SET drops the prefetches of the bank that wait (R384), and BANKBUSY_CLEAR frees it; FLASH_TIMEOUT raises
fault 0x22 in a channel that has waited FTMO for a bank (R386); DEBUG_ACCESS puts an access of colour 14 on the debug
path (R391, R392). -/
def Obligations.FlashAndDebug : Prop :=
  ∀ (s : State) (b : Fin 4) (c : Fin 1024) (wr : Bool) (addr : W32) (size : Nat) (d : W128),
    (bit s.flash.busy b = false → Completes (.bankbusySet b) s fun t => bit t.flash.busy b = true ∧ t.flash.tmocnt = s.flash.tmocnt ∧
      (∀ f ∈ t.fetches, inBank s b f = true → f.kind = .prefetch → f.denied = false → f.issued = true)) ∧
    (bit s.flash.busy b = true → Completes (.bankbusyClear b) s fun t => bit t.flash.busy b = false ∧
      ∀ k, k ≠ b.val → bit t.flash.busy k = bit s.flash.busy k) ∧
    ((ctx s c).r.state = .wait → (ctx s c).r.wait = .flashBusy → s.flash.tmo * 800 ≤ (ctx s c).w.flashCnt → (ctx s c).w.faulting = none →
      Completes (.flashTimeout c) s fun t => (ctx t c).r.fcode = 0x22 ∧ (ctx t c).w.faulting.isSome = true ∧
        t.flash.tmocnt = sat16 s.flash.tmocnt) ∧
    (debugOk addr size = true → inReset s = false → s.dbg.path.length < 4 → Completes (.debugAccess wr addr size d) s fun t =>
        t.dbg.path = s.dbg.path ++ [⟨s.dbg.nextId, wr, addr, size, none⟩] ∧
        ∃ a, t.offered = s.offered ++ [a] ∧ a.owner = .debug s.dbg.nextId ∧ a.wr = wr ∧ a.colour = 14 ∧ a.mask = maskAt (addr.toNat % 16) size)

/-! ### Resets and clocks -/

/-- Every register, table and store is at its reset state after a cold reset, with the commands that wait, the wiring and
the levels of the ZR7's signals and the errors that it brings in (log entry 46) as they were (R396, R397); a warm one keeps WARMCNT + 1, ENGCNT and DEPTH. The engine
reset (R398): its request with the key begins it, and with another does nothing; it waits for the local tags, at most
51,200 ECLK, and TAGTMO says whether they were all free; its release is ECLK 0, counted in ENGCNT. -/
def Obligations.Resets : Prop :=
  (∀ s : State,
      let levels := fun (t : State) => t.pending = s.pending ∧ t.straps = s.straps ∧ t.power.pdreq = s.power.pdreq ∧ t.power.pgood = s.power.pgood ∧
        t.power.pdack = s.power.pdreq ∧ t.flash.busy = s.flash.busy ∧ t.dbg.unlock = s.dbg.unlock ∧ t.upsets = s.upsets
      let fresh := fun (t : State) => t.ctxs = [] ∧ t.legends = [] ∧ t.slots = [] ∧ t.swap = none ∧ t.ctl = [] ∧ t.arrivals = [] ∧ t.remotes = [] ∧ t.lcache = [] ∧ t.fetches = [] ∧ t.lanes = [] ∧ t.offered = [] ∧
        t.outst = [] ∧ t.mer = State.reset.mer ∧ t.grat = State.reset.grat ∧ t.books = [] ∧ t.staged = [] ∧ t.heldRecs = [] ∧ t.inputs = [] ∧
        t.evos = [] ∧ t.queues = [] ∧ t.spill = State.reset.spill ∧ t.atlas = State.reset.atlas ∧ t.halt = State.reset.halt ∧ t.errs = [] ∧
        t.fences = State.reset.fences ∧ t.fab = State.reset.fab ∧ t.sync = State.reset.sync ∧ t.mgt = State.reset.mgt ∧ t.port = State.reset.port
      Completes .coldReset s (fun t => levels t ∧ fresh t ∧ t.glob = State.reset.glob ∧ t.eclk = 0) ∧
      Completes .warmReset s (fun t => levels t ∧ fresh t ∧ t.eclk = 0 ∧ t.glob.cause = 1 ∧ t.glob.warmcnt = s.glob.warmcnt + 1 ∧
        t.glob.engcnt = s.glob.engcnt ∧ t.glob.depth = depthRead s)) ∧
  (∀ (s : State) (b : Initiator) (key : W8) (a : Nat),
      (HostOpen s b false true 0x20 → Completes (.engineResetRequest b key) s fun t =>
        t.glob.phase = if key = 0xA5 then .stopping s.eclk else s.glob.phase) ∧
      (s.glob.phase = .stopping a → a + 4 ≤ s.eclk → (locUse s = 0 ∨ a + 51204 ≤ s.eclk) → Completes .engineResetWaitEnd s fun t =>
        t.glob.phase = .internal s.eclk ∧ t.glob.tagtmo = decide (locUse s ≠ 0) ∧ t.glob.warmcnt = s.glob.warmcnt ∧
        t.glob.engcnt = s.glob.engcnt ∧ t.ctxs = [] ∧ t.outst = [] ∧ t.eclk = s.eclk) ∧
      (s.glob.phase = .internal a → a + 17 ≤ s.eclk → Completes .resetRelease s fun t =>
        t.glob.phase = .running ∧ t.eclk = 0 ∧ t.mer = State.reset.mer ∧ t.glob.cause = 2 ∧ t.glob.engcnt = s.glob.engcnt + 1 ∧
        t.glob.tagtmo = s.glob.tagtmo))

/-- A readiness bit that is set reads 1 (R402); SPREAD_WRITE leaves a new depth waiting, none for that in force and
nothing for 3, and SPREAD_APPLY puts it in force at the top of the profile, which begins anew (R406, R407); LEG_INV_WRITE takes its line out of the leg cache
(R64). -/
def Obligations.ReadinessSpreadAndInvalidation : Prop :=
  ∀ (s : State) (b : Initiator) (l : Fin 8) (n : Fin 64) (depth : BitVec 2) (addr : W32),
    (inReset s = false →
      Completes (.readyBitSet .ctx) s (fun t => t.glob = { s.glob with readyCtx := true }) ∧
      Completes (.readyBitSet .grid) s (fun t => t.glob = { s.glob with readyGrid := true }) ∧
      Completes (.readyBitSet .grat) s (fun t => t.glob = { s.glob with readyGrat := true }) ∧
      Completes (.readyBitSet (.slot n)) s (fun t => t.glob = { s.glob with readySlot := setBit s.glob.readySlot n true }) ∧
      Completes (.readyBitSet (.lane l)) s (fun t => lane t l = { lane s l with ready := true })) ∧
    (HostOpen s b false true 0x28 → Completes (.spreadWrite b depth) s fun t =>
      t.glob = if depth = 3 then s.glob else { s.glob with depthNew := if depth = s.glob.depth then none else some depth }) ∧
    (∀ d, s.glob.depthNew = some d → (s.glob.depth = 0 ∨ s.glob.profile < eclkTime s) → Completes .spreadApply s fun t =>
      t.glob = { s.glob with depth := d, depthNew := none, profile := 0 }) ∧
    (HostOpen s b false true 0x90 → Completes (.legInvWrite b addr) s fun t =>
      (∀ e, e ∈ t.lcache ↔ e ∈ s.lcache ∧ e.addr ≠ lineOf addr) ∧
      ∀ f ∈ t.fetches, f.addr = lineOf addr → (f.kind = .demand ∨ f.kind = .prefetch ∨ f.kind = .retry) → f.stale = true)

/-! ### The management plane -/

/-- A scrub step of a store whose turn has come reads one codeword and goes on to the next, and the walk's last one ends a
pass (R414, R417); a step that has waited 4,096 ECLK is forced and counted (R415). SELFTEST_GO starts a test in the next MCLK
period (R412), or answers code 2 for a lane that is not fenced or not free and 3 for a unit that has none, or CMDLOST while one runs
(R423); SELFTEST_STOPPED ends it with code 4, and SELFTEST_COMPLETE with 0 or, with the failure's result in RES, 1 (R424, R425). -/
def Obligations.ScrubAndSelfTest : Prop :=
  (∀ (s : State) (n : Fin 19) (m : Fin 11) (found : Found),
      let pos := tget 0 s.mgt.scrub.pos n
      (quiet s = false → scrubSkips s n = false → tget 0 s.mgt.scrub.nextAt (scrubPort n) ≤ mclk s → Completes (.scrubStep n found) s fun t =>
        tget 0 t.mgt.scrub.pos n = (if storeSize n ≤ pos + 1 then 0 else pos + 1) ∧
        tget 0 t.mgt.scrub.nextAt (scrubPort n) = mclk s + s.mgt.scrub.gap ∧
        t.mgt.scrub.passes = (if storeSize n ≤ pos + 1 then s.mgt.scrub.passes + 1 else s.mgt.scrub.passes)) ∧
      (quiet s = false → scrubSkips s n = false → tget 0 s.mgt.scrub.nextAt (scrubPort n) ≤ mclk s → uninitialised s n pos = false →
        Completes (.scrubStep n .corrected) s fun t => (errCls t (2 * n)).total = sat16 (errCls s (2 * n)).total ∧
          (errCls t (2 * n + 1)).total = (errCls s (2 * n + 1)).total) ∧
      (quiet s = false → scrubSkips s m = false → tget 0 s.mgt.scrub.waitFrom m + 4096 ≤ s.eclk → (m ≠ 0 ∨ captureDue s = false) →
        Completes (.scrubForcedSlot m found) s fun t => t.mgt.scrub.forced = sat16 s.mgt.scrub.forced ∧
          tget 0 t.mgt.scrub.pos m = if storeSize m ≤ tget 0 s.mgt.scrub.pos m + 1 then 0 else tget 0 s.mgt.scrub.pos m + 1)) ∧
  (∀ (s : State) (b : Initiator) (u : BitVec 5) (res : W64),
      (HostOpen s b false true 0x7020 → Completes (.selftestGo b u) s fun t =>
        let n := (atNextMclk t).mgt.test
        t.mgt.test = s.mgt.test ∧
        if s.mgt.test.busy then n = { s.mgt.test with target := u, cmdlost := true }
        else match testRefused s u.toNat with
          | some code => n = { s.mgt.test with target := u, code := code, res := 0 }
          | none => n.busy = true ∧ n.unit = u ∧ n.target = u ∧ n.code = s.mgt.test.code) ∧
      (s.mgt.test.busy = true → (s.mgt.test.liftPend = true ∨ commitWaits s = true) → Completes .selftestStopped s fun t =>
        t.mgt.test.busy = false ∧ t.mgt.test.code = 4 ∧ t.mgt.test.res = 0) ∧
      (s.mgt.test.busy = true → Completes (.selftestComplete true res) s fun t =>
        t.mgt.test.busy = false ∧ t.mgt.test.code = 0 ∧ t.mgt.test.res = 0 ∧ ∀ k, errCls t k = errCls s k) ∧
      (s.mgt.test.busy = true → Completes (.selftestComplete false res) s fun t =>
        t.mgt.test.busy = false ∧ t.mgt.test.code = 1 ∧ t.mgt.test.res = res ∧
        (errCls t (2 * s.mgt.test.unit.toNat + 1)).total = sat16 (errCls s (2 * s.mgt.test.unit.toNat + 1)).total))

/-- TELE_SNAP, which takes effect in the next MCLK period (R412), and the period's expiry request a snapshot, and TELE_CAPTURE
takes one from the MCLK period after the write or the expiry on: the
time, the engine's energy and bytes, and those of the channel (R421, R422). -/
def Obligations.TelemetrySnapshots : Prop :=
  ∀ (s : State) (b : Initiator),
    let x := s.mgt.tele
    (HostOpen s b false true 0x7040 → Completes (.teleSnap b) s fun t =>
      t.mgt.tele = x ∧ (atNextMclk t).mgt.tele = { x with pend := some (x.pend.getD (mclk s)) }) ∧
    (quiet s = false → x.per ≠ 0 → x.periodAt + x.per * 200000 ≤ mclk s → Completes .telePeriodExpiry s fun t =>
      t.mgt.tele = { x with periodAt := mclk s, pend := some (x.pend.getD (mclk s)) }) ∧
    (quiet s = false → captureDue s = true → Completes .teleCapture s fun t =>
      t.mgt.tele.pend = none ∧ t.mgt.tele.snapv = true ∧ t.mgt.tele.stamp = merWord s ∧ t.mgt.tele.bytes = x.blkBytes ∧
      t.mgt.tele.energy = BitVec.ofNat 64 (x.blkEnergy16 / 16) ∧ t.mgt.tele.chBytes = (ctx s x.ch).r.bytes ∧
      (trising s.lanes = true → ∀ l, tget 0 t.mgt.tele.laneBusy l = (lane s l).busy))

/-! ### Host accesses -/

/-- An access of the host target port ends with an error during a reset (R398), and when the Atlas denies it changes
nothing but what a denial changes, and ends with an error (R309). One of another size or alignment than the window
takes ends with an error and changes nothing (R4). -/
def Obligations.HostPortHoldsAndRefuses : Prop :=
  ∀ (s : State) (b : Initiator) (c : Fin 1024) (found : Found),
    (inReset s = true → Completes (.chStart b c) s fun t => t = setResp b 0 true s) ∧
    (inReset s = false → portWaits s false (chOff c 0) = false → allowed (check (hostAsk s b false true (chOff c 0)) s).2 = false →
      Completes (.chStart b c) s fun t => Only hostAreas s t ∧ t = portAnswer b true (check (hostAsk s b false true (chOff c 0)) s).1) ∧
    (∀ (off : W16) (at_ : BitVec 21) (size : Nat) (d : W64) (x : BitVec 512),
      let ends := fun (t : State) => t = if inReset s then setResp b 0 true s else portAnswer b true s
      (inReset s = true ∨ portWaits s false off.toNat = false → (size ≠ 4 ∧ size ≠ 8) ∨ off.toNat % size ≠ 0 →
        Completes (.hostRegisterWrite b off size d x) s ends ∧ Completes (.lowWordRead b ⟨off, size⟩) s ends) ∧
      (inReset s = true ∨ portWaits s true at_.toNat = false → (size ≠ 4 ∧ size ≠ 8) ∨ at_.toNat % size ≠ 0 →
        Completes (.hostTableRead b at_ size found) s ends ∧ Completes (.atlasStageWrite b at_ size d) s ends))

/-- An access of the host target port that comes before ECLK 16, or in the ECLK of another that the port has accepted, is held,
whatever it is, and nothing else comes of it (R405, R441); one to the management page is held until the write before it to that
page has taken effect, which it does in the first ECLK of the next MCLK period (R412, R441). Those held go on from ECLK 16, the
host's before the debug port's, and else in the order in which they came (R405, R441). -/
def Obligations.EarlyAccessesAreHeld : Prop :=
  (∀ (i : Instr) (s : State), isAccess i = true → inReset s = false → (s.eclk < 16 ∨ s.port.lastAt = some s.eclk) →
      Completes i s fun t => t = { s with port := { s.port with early := s.port.early ++ [i] } }) ∧
  (∀ (s : State) (b : Initiator) (off : W16) (size : Nat) (d : W64) (x : BitVec 512) (k : Fin 50) (u : BitVec 5) (w : W32),
      0x7000 ≤ off.toNat → off.toNat < 0x8000 → inReset s = false → s.eclk < s.port.mgtFrom →
      ∀ i ∈ [Instr.lowWordRead b ⟨off, size⟩, .hostRegisterWrite b off size d x, .fenceWrite b w, .errcCfgWrite b k d, .selftestGo b u, .teleSnap b],
        Completes i s fun t => t = { s with port := { s.port with early := s.port.early ++ [i] } }) ∧
  (∀ s : State, s.pending = [] →
      (s.eclk + 1 < 16 → ∃ t, step s = .next t ∧ t.pending = [] ∧ t.port.early = s.port.early) ∧
      (16 ≤ s.eclk + 1 → ∃ t, step s = .next t ∧ t.pending = hostFirst s.port.early ∧ t.port.early = []) ∧
      ∃ t, step s = .next t ∧ t.port.mgtWait = if (s.eclk + 1) % 4 = 0 then none else s.port.mgtWait)

/-- A register read answers its word: a 64-bit access all of a 64-bit register or two 32-bit ones, with the snapshots as they are (log entry 45), a 32-bit access a 32-bit
register or the low word of a 64-bit one with a snapshot of its high word, and the read of the high word that snapshot,
which it ends (R4, R5, R445); a write of half a 64-bit register is held until its high word comes (R443). A read of the
table window answers the word, or after an uncorrected error an error, which is counted (R340, R440). -/
def Obligations.ReadsOfRegistersAndTables : Prop :=
  (∀ (s : State) (off : W16) (d : W64) (x : BitVec 512),
      let o := off.toNat
      let base := o / 8 * 8
      let u := atPort s .host false false o
      let plain := o ≠ 0x3010 ∧ ¬ (0x4000 ≤ o ∧ o < 0x5000 ∧ o % 64 = 0x30)
      (HostOpen s .host false false o → o % 4 = 0 → wide base = false → Completes (.lowWordRead .host ⟨off, 4⟩) s fun t =>
        t.port.resp = ⟨BitVec.setWidth 64 (read32 u o), false⟩) ∧
      (HostOpen s .host false false o → o % 8 = 0 → wide o = false → Completes (.lowWordRead .host ⟨off, 8⟩) s fun t =>
        t.port.resp = ⟨join (read32 u (o + 4)) (read32 u o), false⟩) ∧
      (HostOpen s .host false false o → o % 8 = 0 → wide o = true → plain → Completes (.lowWordRead .host ⟨off, 8⟩) s fun t =>
        t.port.resp = ⟨read64 u o, false⟩ ∧ t.port.snaps = s.port.snaps) ∧
      (HostOpen s .host false false o → o % 8 = 0 → wide o = true → plain → Completes (.lowWordRead .host ⟨off, 4⟩) s fun t =>
        t.port.resp = ⟨BitVec.ofNat 64 (fld (read64 u o) 31 0), false⟩ ∧
        tget none t.port.snaps (keySnap .host o) = some (BitVec.ofNat 32 (fld (read64 u o) 63 32))) ∧
      (∀ v, HostOpen s .host false false o → o % 8 = 4 → wide base = true → tget none s.port.snaps (keySnap .host base) = some v →
        Completes (.lowWordRead .host ⟨off, 4⟩) s fun t => t.port.resp = ⟨BitVec.setWidth 64 v, false⟩ ∧
          tget none t.port.snaps (keySnap .host base) = none) ∧
      (HostOpen s .host false true o → o % 8 = 0 → wide o = true → Completes (.hostRegisterWrite .host off 4 d x) s fun t =>
        let v := if mgtPage o then atNextMclk t else t
        heldLow v (keySnap .host o) = some (BitVec.setWidth 32 d) ∧ v.mer = s.mer ∧ v.ctxs = s.ctxs ∧ v.queues = s.queues) ∧
      (HostOpen s .host false true 0x8004 → off = 0x8004 → Completes (.hostRegisterWrite .host off 4 d x) s fun t =>
        (ctx t 0).r = { (ctx s 0).r with start := BitVec.setWidth 32 d &&& 0xFFFFFFE0 })) ∧
  (∀ (s : State) (off : BitVec 21) (store : Nat),
      let o := off.toNat
      let u := atPort s .host true false o
      HostOpen s .host true false o → o % 8 = 0 → tableStore (o / 8) = some store →
      (tableFinds u store (o / 8) .clean = .clean → (o < 0x120000 ∨ 0x160000 ≤ o) → Completes (.hostTableRead .host off 8 .clean) s fun t =>
        t.port.resp = ⟨tableWord u (o / 8), false⟩) ∧
      (tableFinds u store (o / 8) .uncorrected = .uncorrected → Completes (.hostTableRead .host off 8 .uncorrected) s fun t =>
        t.port.resp = ⟨0, true⟩ ∧ (errCls t (2 * store + 1)).total = sat16 (errCls u (2 * store + 1)).total))

/-! ### Frames -/

/-- A command of a leg changes its own channel, what its sequencer may change, and what the leg names (R59 to R72). -/
def Obligations.LegCommandsChangeOnlyTheirs : Prop :=
  ∀ (i : Instr) (s t : State), isLegCmd i = true → exec i s = .next t → Only (legMay i s) s t

/-- An access of the host target port changes what its register acts on, and what the port itself changes. -/
def Obligations.AccessesChangeOnlyTheirs : Prop :=
  ∀ (i : Instr) (s t : State), isAccess i = true → exec i s = .next t → Only (fun p => hostAreas p ∨ accessMay i p) s t

/-- A command of the links changes the router, and what the frame that it brings acts on. -/
def Obligations.LinkCommandsChangeOnlyTheirs : Prop :=
  ∀ (i : Instr) (s t : State), isLinkCmd i = true → exec i s = .next t → Only (linkMay i) s t

/-- A step of the engine's own, an event on a pin or a reset changes what its row names. -/
def Obligations.EngineStepsChangeOnlyTheirs : Prop :=
  ∀ (i : Instr) (s t : State), isLegCmd i = false → isAccess i = false → isLinkCmd i = false → exec i s = .next t →
    Only (engineMay i s) s t

/-! ### Invariants -/

/-- Whatever the step, the legends stay well kept: one canonical entry a channel, no colour above 13, at most 32 channels
pinned (R38 to R40). -/
def Obligations.LegendsStayLegal : Prop :=
  ∀ s t : State, legendsLegal s → step s = .next t → legendsLegal t

/-- Meridian never goes back: a step that is no reset leaves its count at least where it stood before this ECLK's
corrections, and one that does not write SRC, which takes those back, at least where it was; and the bound on its slew
as it was (R232, R236 to R239, R241). -/
def Obligations.MeridianNeverGoesBack : Prop :=
  ∀ s t : State, slewSmall s → step s = .next t →
    slewSmall t ∧ ((∀ i rest, s.pending = i :: rest → isReset i = false) →
      (merKept s).now ≤ t.mer.now ∧ ((∀ i rest, s.pending = i :: rest → writesSrc i = false) → s.mer.now ≤ t.mer.now))

/-- Both invariants hold at reset, where the spec's values stand: legends, rates and thresholds, the host's ECLK count,
and a queue without commands. -/
def Obligations.ResetState : Prop :=
  legendsLegal State.reset ∧ slewSmall State.reset ∧ State.reset.pending = [] ∧ State.reset.eclk = 0 ∧ State.reset.mer.now = 0 ∧
  (∀ c, (ctx State.reset c).r.state = .off ∧ (ctx State.reset c).r.en = false ∧ legend State.reset c = 0x000FF070) ∧
  State.reset.halt.st = 0 ∧ State.reset.fences.lane = 0 ∧ State.reset.fab.en = false ∧ State.reset.fab.idv = false ∧
  (∀ b, (book State.reset b).en = false) ∧ (∀ q, (queue State.reset q).en = false) ∧ State.reset.grat.en = true ∧
  State.reset.atlas.staging = [] ∧ ∀ p, (port State.reset p).up = false
end

