-- ==== Sys2Proof/Laws/Table.lean ====
section
/-! SUPPORT. The laws of the sparse tables: a read after a write, and the canonical form that every write keeps. -/

namespace Sys2Proof.Laws
open Sys2Proof.Machine

variable {α : Type}

/-! ### A read after a write -/

@[simp] theorem tfind_nil (k : Nat) : tfind? ([] : Tbl α) k = none := rfl

theorem tfind_tdel_self (t : Tbl α) (k : Nat) : tfind? (tdel t k) k = none := by
  induction t with
  | nil => rfl
  | cons e t ih => unfold tdel; split <;> simp_all [tfind?]

theorem tfind_tdel_ne (t : Tbl α) {j k : Nat} (h : k ≠ j) : tfind? (tdel t j) k = tfind? t k := by
  induction t with
  | nil => rfl
  | cons e t ih => unfold tdel; split <;> grind [tfind?]

theorem tfind_tins_ne (t : Tbl α) {j k : Nat} (v : α) (h : k ≠ j) : tfind? (tins t j v) k = tfind? t k := by
  induction t with
  | nil => simp [tins, tfind?, h.symm]
  | cons e t ih => unfold tins; split <;> grind [tfind?]

theorem tfind_tins_self (t : Tbl α) {k : Nat} (v : α) (h : tfind? t k = none) : tfind? (tins t k v) k = some v := by
  induction t with
  | nil => simp [tins, tfind?]
  | cons e t ih => unfold tins; split <;> grind [tfind?]

@[simp] theorem tfind_tput_self (t : Tbl α) (k : Nat) (v : α) : tfind? (tput t k v) k = some v :=
  tfind_tins_self _ v (tfind_tdel_self t k)

theorem tfind_tput_ne (t : Tbl α) {j k : Nat} (v : α) (h : k ≠ j) : tfind? (tput t j v) k = tfind? t k := by
  rw [tput, tfind_tins_ne _ v h, tfind_tdel_ne _ h]

/-- A table reads as it was written, whether or not the value is the default. -/
@[simp] theorem tget_tset_self [DecidableEq α] (d : α) (t : Tbl α) (k : Nat) (v : α) : tget d (tset d t k v) k = v := by
  unfold tget tset; split
  · simp_all [tfind_tdel_self]
  · simp

theorem tget_tset_ne [DecidableEq α] (d : α) (t : Tbl α) {j k : Nat} (v : α) (h : k ≠ j) : tget d (tset d t j v) k = tget d t k := by
  unfold tget tset; split
  · rw [tfind_tdel_ne _ h]
  · rw [tfind_tput_ne _ v h]

theorem tget_tset [DecidableEq α] (d : α) (t : Tbl α) (j k : Nat) (v : α) :
    tget d (tset d t j v) k = if k = j then v else tget d t k := by
  split
  · subst_vars; simp
  · exact tget_tset_ne d t v ‹_›

@[simp] theorem tget_nil (d : α) (k : Nat) : tget d ([] : Tbl α) k = d := rfl

/-! ### The canonical form -/

theorem trising_iff (t : Tbl α) : trising t = true ↔ t.Pairwise (fun a b => a.1 < b.1) := by
  induction t with
  | nil => simp [trising]
  | cons e t ih =>
    cases t with
    | nil => simp [trising]
    | cons f t =>
      obtain ⟨j, v⟩ := e
      obtain ⟨k, w⟩ := f
      simp only [trising, Bool.and_eq_true, decide_eq_true_eq, ih, List.pairwise_cons, List.mem_cons, forall_eq_or_imp]
      constructor
      · exact fun ⟨h, g, r⟩ => ⟨⟨h, fun e he => Nat.lt_trans h (g e he)⟩, g, r⟩
      · exact fun ⟨⟨h, _⟩, g, r⟩ => ⟨h, g, r⟩

theorem mem_tdel {t : Tbl α} {k : Nat} {e : Nat × α} : e ∈ tdel t k ↔ e ∈ t ∧ e.1 ≠ k := by
  induction t with
  | nil => simp [tdel]
  | cons f t ih => unfold tdel; split <;> grind

theorem mem_tins {t : Tbl α} {k : Nat} {v : α} {e : Nat × α} : e ∈ tins t k v ↔ e = (k, v) ∨ e ∈ t := by
  induction t with
  | nil => simp [tins]
  | cons f t ih => unfold tins; split <;> grind

theorem mem_tput {t : Tbl α} {k : Nat} {v : α} {e : Nat × α} : e ∈ tput t k v ↔ e = (k, v) ∨ (e ∈ t ∧ e.1 ≠ k) := by
  rw [tput, mem_tins, mem_tdel]

theorem tdel_sublist (t : Tbl α) (k : Nat) : (tdel t k).Sublist t := by
  induction t with
  | nil => simp [tdel]
  | cons e t ih => unfold tdel; split <;> grind

theorem tdel_rising {t : Tbl α} (k : Nat) (h : trising t = true) : trising (tdel t k) = true := by
  rw [trising_iff] at *
  exact h.sublist (tdel_sublist t k)

theorem tins_rising {t : Tbl α} {k : Nat} (v : α) (h : trising t = true) (hk : ∀ e ∈ t, e.1 ≠ k) : trising (tins t k v) = true := by
  rw [trising_iff] at *
  induction t with
  | nil => simp [tins]
  | cons e t ih =>
    obtain ⟨j, w⟩ := e
    simp only [List.pairwise_cons] at h
    have hj : j ≠ k := hk (j, w) (by simp)
    unfold tins
    split
    · simp only [List.pairwise_cons, List.mem_cons, forall_eq_or_imp]
      exact ⟨⟨‹_›, fun f hf => Nat.lt_trans ‹_› (h.1 f hf)⟩, h⟩
    · refine List.pairwise_cons.2 ⟨fun f hf => ?_, ih h.2 (fun f hf => hk f (List.mem_cons_of_mem _ hf))⟩
      rcases mem_tins.1 hf with rfl | hf
      · simp only; omega
      · exact h.1 f hf

theorem tput_rising {t : Tbl α} (k : Nat) (v : α) (h : trising t = true) : trising (tput t k v) = true :=
  tins_rising v (tdel_rising k h) (fun _ he => (mem_tdel.1 he).2)

theorem tset_rising [DecidableEq α] (d : α) {t : Tbl α} (k : Nat) (v : α) (h : trising t = true) : trising (tset d t k v) = true := by
  unfold tset; split
  · exact tdel_rising k h
  · exact tput_rising k v h

theorem tcanon_iff [DecidableEq α] (d : α) (t : Tbl α) : tcanon d t = true ↔ trising t = true ∧ ∀ e ∈ t, e.2 ≠ d := by
  simp [tcanon]

/-- Writing keeps the canonical form. -/
theorem tset_canon [DecidableEq α] (d : α) {t : Tbl α} (k : Nat) (v : α) (h : tcanon d t = true) : tcanon d (tset d t k v) = true := by
  rw [tcanon_iff] at *
  refine ⟨tset_rising d k v h.1, fun e he => ?_⟩
  unfold tset at he; split at he
  · exact h.2 e (mem_tdel.1 he).1
  · rcases mem_tput.1 he with rfl | ⟨he, _⟩
    · assumption
    · exact h.2 e he

theorem filter_rising {t : Tbl α} (p : Nat × α → Bool) (h : trising t = true) : trising (t.filter p) = true := by
  rw [trising_iff] at *
  exact h.sublist List.filter_sublist

/-- A map that keeps the keys keeps their order. -/
theorem map_rising {β : Type} {t : Tbl α} (f : Nat × α → Nat × β) (hf : ∀ e, (f e).1 = e.1) (h : trising t = true) :
    trising (t.map f) = true := by
  rw [trising_iff] at *
  simpa [List.pairwise_map, hf] using h

/-- What a table in canonical form finds is what it lists. -/
theorem tfind_some {t : Tbl α} {k : Nat} {v : α} (h : trising t = true) : tfind? t k = some v ↔ (k, v) ∈ t := by
  rw [trising_iff] at h
  induction t with
  | nil => simp
  | cons e t ih =>
    obtain ⟨j, w⟩ := e
    simp only [List.pairwise_cons] at h
    simp only [tfind?, List.mem_cons, Prod.mk.injEq]
    split
    · subst_vars
      constructor
      · intro g; simp_all
      · rintro (⟨_, rfl⟩ | g)
        · rfl
        · exact absurd (h.1 _ g) (Nat.lt_irrefl _)
    · rw [ih h.2]; simp [Ne.symm ‹_›]

end Sys2Proof.Laws
end

