-- ==== Sys2Proof/Laws/Frame.lean ====
section
/-! SUPPORT. The calculus of frames: how `Only` composes, and the frame of every plain update of the state. -/

namespace Sys2Proof.Laws
open Sys2Proof.Machine

variable {S T : Set Area} {s t u : State}

theorem same_refl (p : Area) (s : State) : same p s s := by cases p <;> simp [same]
theorem same_trans {p : Area} (h : same p s t) (g : same p t u) : same p s u := by cases p <;> simp_all [same]

theorem only_refl : Only S s s := fun p _ => same_refl p s
theorem only_trans (H : Only S s t) (G : Only S t u) : Only S s u := fun p hp => same_trans (H p hp) (G p hp)
theorem only_mono (h : S ⊆ T) (H : Only S s t) : Only T s t := fun p hp => H p (fun hs => hp (h hs))
/-- A step that changes at most S, after one that changes at most S. -/
theorem only_step {f : State → State} (h : ∀ u, Only S u (f u)) (H : Only S s u) : Only S s (f u) := only_trans H (h u)

theorem only_ite {c : Prop} [Decidable c] {a b : State} (ha : Only S s a) (hb : Only S s b) : Only S s (if c then a else b) := by
  split <;> assumption

theorem only_foldl {β : Type} {f : State → β → State} (l : List β) (h : ∀ u x, Only S s u → Only S s (f u x)) (H : Only S s u) :
    Only S s (l.foldl f u) := by
  induction l generalizing u with
  | nil => exact H
  | cons x l ih => exact ih (h u x H)

/-! ### Plain updates -/

theorem put_pending {x} (h : .pending ∈ S) (H : Only S s u) : Only S s { u with pending := x } :=
  fun p hp => same_trans (H p hp) (by cases p <;> first | rfl | exact ⟨rfl, rfl⟩ | exact absurd h hp)
theorem put_eclk {x} (h : .eclk ∈ S) (H : Only S s u) : Only S s { u with eclk := x } :=
  fun p hp => same_trans (H p hp) (by cases p <;> first | rfl | exact ⟨rfl, rfl⟩ | exact absurd h hp)
theorem put_slots {x} (h : .slots ∈ S) (H : Only S s u) : Only S s { u with slots := x } :=
  fun p hp => same_trans (H p hp) (by cases p <;> first | rfl | exact ⟨rfl, rfl⟩ | exact absurd h hp)
theorem put_swap {x} (h : .swap ∈ S) (H : Only S s u) : Only S s { u with swap := x } :=
  fun p hp => same_trans (H p hp) (by cases p <;> first | rfl | exact ⟨rfl, rfl⟩ | exact absurd h hp)
theorem put_ctl {x} (h : .ctl ∈ S) (H : Only S s u) : Only S s { u with ctl := x } :=
  fun p hp => same_trans (H p hp) (by cases p <;> first | rfl | exact ⟨rfl, rfl⟩ | exact absurd h hp)
theorem put_remotes {x} (h : .remotes ∈ S) (H : Only S s u) : Only S s { u with remotes := x } :=
  fun p hp => same_trans (H p hp) (by cases p <;> first | rfl | exact ⟨rfl, rfl⟩ | exact absurd h hp)
theorem put_merWas {x} (h : .merWas ∈ S) (H : Only S s u) : Only S s { u with merWas := x } :=
  fun p hp => same_trans (H p hp) (by cases p <;> first | rfl | exact ⟨rfl, rfl⟩ | exact absurd h hp)
theorem put_arrivals {x} (h : .arrivals ∈ S) (H : Only S s u) : Only S s { u with arrivals := x } :=
  fun p hp => same_trans (H p hp) (by cases p <;> first | rfl | exact ⟨rfl, rfl⟩ | exact absurd h hp)
theorem put_upsets {x} (h : .upsets ∈ S) (H : Only S s u) : Only S s { u with upsets := x } :=
  fun p hp => same_trans (H p hp) (by cases p <;> first | rfl | exact ⟨rfl, rfl⟩ | exact absurd h hp)
/-- What hardware did in the present ECLK is no area. -/
theorem put_marks {x} (H : Only S s u) : Only S s { u with marks := x } :=
  fun p hp => same_trans (H p hp) (by cases p <;> first | rfl | exact ⟨rfl, rfl⟩)
theorem markSet_only {k} (H : Only S s u) : Only S s (markSet k u) := put_marks H
theorem markCount_only {k} (H : Only S s u) : Only S s (markCount k u) := put_marks H
theorem put_rr {x} (h : .rr ∈ S) (H : Only S s u) : Only S s { u with rr := x } :=
  fun p hp => same_trans (H p hp) (by cases p <;> first | rfl | exact ⟨rfl, rfl⟩ | exact absurd h hp)
theorem put_lcache {x} (h : .lcache ∈ S) (H : Only S s u) : Only S s { u with lcache := x } :=
  fun p hp => same_trans (H p hp) (by cases p <;> first | rfl | exact ⟨rfl, rfl⟩ | exact absurd h hp)
theorem put_fetches {x} (h : .fetches ∈ S) (H : Only S s u) : Only S s { u with fetches := x } :=
  fun p hp => same_trans (H p hp) (by cases p <;> first | rfl | exact ⟨rfl, rfl⟩ | exact absurd h hp)
theorem put_offered {x} (h : .offered ∈ S) (H : Only S s u) : Only S s { u with offered := x } :=
  fun p hp => same_trans (H p hp) (by cases p <;> first | rfl | exact ⟨rfl, rfl⟩ | exact absurd h hp)
theorem put_outst {x} (h : .outst ∈ S) (H : Only S s u) : Only S s { u with outst := x } :=
  fun p hp => same_trans (H p hp) (by cases p <;> first | rfl | exact ⟨rfl, rfl⟩ | exact absurd h hp)
theorem put_mer {x} (h : .mer ∈ S) (H : Only S s u) : Only S s { u with mer := x } :=
  fun p hp => same_trans (H p hp) (by cases p <;> first | rfl | exact ⟨rfl, rfl⟩ | exact absurd h hp)
theorem put_grat {x} (h : .grat ∈ S) (H : Only S s u) : Only S s { u with grat := x } :=
  fun p hp => same_trans (H p hp) (by cases p <;> first | rfl | exact ⟨rfl, rfl⟩ | exact absurd h hp)
theorem put_staged {x} (h : .staged ∈ S) (H : Only S s u) : Only S s { u with staged := x } :=
  fun p hp => same_trans (H p hp) (by cases p <;> first | rfl | exact ⟨rfl, rfl⟩ | exact absurd h hp)
theorem put_heldRecs {x} (h : .heldRecs ∈ S) (H : Only S s u) : Only S s { u with heldRecs := x } :=
  fun p hp => same_trans (H p hp) (by cases p <;> first | rfl | exact ⟨rfl, rfl⟩ | exact absurd h hp)
theorem put_recClk {x} (h : .recClk ∈ S) (H : Only S s u) : Only S s { u with recClk := x } :=
  fun p hp => same_trans (H p hp) (by cases p <;> first | rfl | exact ⟨rfl, rfl⟩ | exact absurd h hp)
theorem put_spill {x} (h : .spill ∈ S) (H : Only S s u) : Only S s { u with spill := x } :=
  fun p hp => same_trans (H p hp) (by cases p <;> first | rfl | exact ⟨rfl, rfl⟩ | exact absurd h hp)
theorem put_halt {x} (h : .halt ∈ S) (H : Only S s u) : Only S s { u with halt := x } :=
  fun p hp => same_trans (H p hp) (by cases p <;> first | rfl | exact ⟨rfl, rfl⟩ | exact absurd h hp)
theorem put_fences {x} (h : .fences ∈ S) (H : Only S s u) : Only S s { u with fences := x } :=
  fun p hp => same_trans (H p hp) (by cases p <;> first | rfl | exact ⟨rfl, rfl⟩ | exact absurd h hp)
theorem put_sync {x} (h : .sync ∈ S) (H : Only S s u) : Only S s { u with sync := x } :=
  fun p hp => same_trans (H p hp) (by cases p <;> first | rfl | exact ⟨rfl, rfl⟩ | exact absurd h hp)
theorem put_power {x} (h : .power ∈ S) (H : Only S s u) : Only S s { u with power := x } :=
  fun p hp => same_trans (H p hp) (by cases p <;> first | rfl | exact ⟨rfl, rfl⟩ | exact absurd h hp)
theorem put_flash {x} (h : .flash ∈ S) (H : Only S s u) : Only S s { u with flash := x } :=
  fun p hp => same_trans (H p hp) (by cases p <;> first | rfl | exact ⟨rfl, rfl⟩ | exact absurd h hp)
theorem put_dbg {x} (h : .dbg ∈ S) (H : Only S s u) : Only S s { u with dbg := x } :=
  fun p hp => same_trans (H p hp) (by cases p <;> first | rfl | exact ⟨rfl, rfl⟩ | exact absurd h hp)
theorem put_free {x} (h : .free ∈ S) (H : Only S s u) : Only S s { u with free := x } :=
  fun p hp => same_trans (H p hp) (by cases p <;> first | rfl | exact ⟨rfl, rfl⟩ | exact absurd h hp)

/-! ### Updates of one entry of a table -/

theorem ctx_setCtx (u : State) (c d : Nat) (x : Ctx) : ctx (setCtx u c x) d = if d = c then x else ctx u d := tget_tset _ _ _ _ _
@[simp] theorem ctx_setCtx_self (u : State) (c : Nat) (x : Ctx) : ctx (setCtx u c x) c = x := tget_tset_self _ _ _ _
theorem ctx_setCtx_ne (u : State) {c d : Nat} (x : Ctx) (h : d ≠ c) : ctx (setCtx u c x) d = ctx u d := tget_tset_ne _ _ _ h

theorem put_setCtx {c : Nat} {x : Ctx} (h : .ctx c ∈ S) (H : Only S s u) : Only S s (setCtx u c x) :=
  fun p hp => same_trans (H p hp) (by
    cases p <;> first | rfl | exact ⟨rfl, rfl⟩ | exact ctx_setCtx_ne u x (fun e => hp (e ▸ h)))
theorem put_modR {c : Nat} {f} (h : .ctx c ∈ S) (H : Only S s u) : Only S s (modR c f u) := put_setCtx h H
theorem put_modW {c : Nat} {f} (h : .ctx c ∈ S) (H : Only S s u) : Only S s (modW c f u) := put_setCtx h H

/-- A lane, and with it the table of the lanes, is in the set. -/
abbrev laneIn (l : Nat) (S : Set Area) : Prop := Area.lane l ∈ S ∧ Area.lanes ∈ S
theorem put_setLane {l : Nat} {x} (h : laneIn l S) (H : Only S s u) : Only S s (setLane l x u) :=
  fun p hp => same_trans (H p hp) (by
    cases p <;> first | rfl | exact ⟨rfl, rfl⟩ | exact absurd h.2 hp | exact tget_tset_ne _ _ _ (fun e => hp (e ▸ h.1)))
theorem put_setBook {b : Nat} {x} (h : .book b ∈ S) (H : Only S s u) : Only S s (setBook b x u) :=
  fun p hp => same_trans (H p hp) (by
    cases p <;> first | rfl | exact ⟨rfl, rfl⟩ | exact tget_tset_ne _ _ _ (fun e => hp (e ▸ h)))
theorem put_setInp {n : Nat} {x} (h : .input n ∈ S) (H : Only S s u) : Only S s (setInp n x u) :=
  fun p hp => same_trans (H p hp) (by
    cases p <;> first | rfl | exact ⟨rfl, rfl⟩ | exact tget_tset_ne _ _ _ (fun e => hp (e ▸ h)))
theorem put_setEvo {m : Nat} {x} (h : .evo m ∈ S) (H : Only S s u) : Only S s (setEvo m x u) :=
  fun p hp => same_trans (H p hp) (by
    cases p <;> first | rfl | exact ⟨rfl, rfl⟩ | exact tget_tset_ne _ _ _ (fun e => hp (e ▸ h)))
theorem put_setQueue {q : Nat} {x} (h : .queue q ∈ S) (H : Only S s u) : Only S s (setQueue q x u) :=
  fun p hp => same_trans (H p hp) (by
    cases p <;> first | rfl | exact ⟨rfl, rfl⟩ | exact tget_tset_ne _ _ _ (fun e => hp (e ▸ h)))
theorem put_modQ {q : Nat} {f} (h : .queue q ∈ S) (H : Only S s u) : Only S s (modQ q f u) := put_setQueue h H
theorem put_setPort {q : Nat} {x} (h : .link q ∈ S) (H : Only S s u) : Only S s (setPort q x u) :=
  fun p hp => same_trans (H p hp) (by
    cases p <;> first | rfl | exact ⟨rfl, rfl⟩ | exact tget_tset_ne _ _ _ (fun e => hp (e ▸ h)))
theorem put_modP {q : Nat} {f} (h : .link q ∈ S) (H : Only S s u) : Only S s (modP q f u) := put_setPort h H

theorem errCls_setErr_ne (u : State) {j k : Nat} (e : ErrClass) (h : k ≠ j) : errCls (setErr j e u) k = errCls u k := by
  unfold errCls setErr tget tset
  simp only
  split
  · rw [tfind_tdel_ne _ h]
  · rw [tfind_tput_ne _ _ h]
@[simp] theorem errCls_setErr_self (u : State) (k : Nat) (e : ErrClass) : errCls (setErr k e u) k = e := tget_tset_self _ _ _ _
theorem put_setErr {k : Nat} {x} (h : .err k ∈ S) (H : Only S s u) : Only S s (setErr k x u) :=
  fun p hp => same_trans (H p hp) (by
    cases p <;> first | rfl | exact ⟨rfl, rfl⟩ | exact errCls_setErr_ne u x (fun e => hp (e ▸ h)))
theorem put_legend {c : Nat} {x : W32} (h : .legend c ∈ S) (hl : .legends ∈ S) (H : Only S s u) :
    Only S s { u with legends := tset legendReset u.legends c x } :=
  fun p hp => same_trans (H p hp) (by
    cases p <;> first | rfl | exact ⟨rfl, rfl⟩ | exact absurd hl hp | exact tget_tset_ne _ _ _ (fun e => hp (e ▸ h)))

/-! ### Updates of a part of the Atlas, the router, the global page, the management plane and the host port -/

theorem put_caches {x} (h : .cache ∈ S) (H : Only S s u) : Only S s { u with atlas := { u.atlas with caches := x } } :=
  fun p hp => same_trans (H p hp) (by cases p <;> first | rfl | exact ⟨rfl, rfl⟩ | exact absurd h hp)
theorem put_grid {x} (h : .grid ∈ S) (H : Only S s u) : Only S s { u with atlas := { u.atlas with grid := x } } :=
  fun p hp => same_trans (H p hp) (by cases p <;> first | rfl | exact ⟨rfl, rfl⟩ | exact absurd h hp)
theorem put_atlas {x} (h : .atlas ∈ S) (hc : .cache ∈ S) (hg : .grid ∈ S) (H : Only S s u) : Only S s { u with atlas := x } :=
  fun p hp => same_trans (H p hp) (by
    cases p <;> first | rfl | exact ⟨rfl, rfl⟩ | exact absurd h hp | exact absurd hc hp | exact absurd hg hp)
theorem put_out {x} (h : .out ∈ S) (H : Only S s u) : Only S s { u with fab := { u.fab with out := x } } :=
  fun p hp => same_trans (H p hp) (by cases p <;> first | rfl | exact ⟨rfl, rfl⟩ | exact absurd h hp)
theorem put_lochw {x y} (h : .tags ∈ S) (H : Only S s u) : Only S s { u with glob := { u.glob with lochw := x, fabhw := y } } :=
  fun p hp => same_trans (H p hp) (by cases p <;> first | rfl | exact ⟨rfl, rfl⟩ | exact absurd h hp)
theorem put_rdrop {x} (h : .rdrop ∈ S) (H : Only S s u) : Only S s { u with mgt := { u.mgt with rdrop := x } } :=
  fun p hp => same_trans (H p hp) (by cases p <;> first | rfl | exact ⟨rfl, rfl⟩ | exact absurd h hp)
theorem put_tele {x} (h : .tele ∈ S) (H : Only S s u) : Only S s { u with mgt := { u.mgt with tele := x } } :=
  fun p hp => same_trans (H p hp) (by cases p <;> first | rfl | exact ⟨rfl, rfl⟩ | exact absurd h hp)
theorem put_resp {by_ : Initiator} {d e} (h : .resp ∈ S) (H : Only S s u) : Only S s (setResp by_ d e u) :=
  fun p hp => same_trans (H p hp) (by
    cases by_ <;> cases p <;> first | rfl | exact ⟨rfl, rfl⟩ | exact absurd h hp)
theorem put_port {x : HostPort} (h : .port ∈ S) (hr : x.resp = u.port.resp) (hd : x.dbgResp = u.port.dbgResp) (H : Only S s u) :
    Only S s { u with port := x } :=
  fun p hp => same_trans (H p hp) (by cases p <;> first | rfl | exact ⟨rfl, rfl⟩ | exact ⟨hr, hd⟩ | exact absurd h hp)
theorem setLow_only {k x} (h : .port ∈ S) (H : Only S s u) : Only S s (setLow k x u) := put_port h rfl rfl H
theorem put_fab {x : Fab} (h : .fab ∈ S) (hp : x.ports = u.fab.ports) (ho : x.out = u.fab.out) (H : Only S s u) :
    Only S s { u with fab := x } :=
  fun p hp' => same_trans (H p hp') (by
    cases p <;> first | rfl | exact ⟨rfl, rfl⟩ | exact absurd h hp' | exact ho | (simp [same, Machine.port, hp]))
theorem put_glob {x : Glob} (h : .glob ∈ S) (hl : x.lochw = u.glob.lochw) (hf : x.fabhw = u.glob.fabhw) (H : Only S s u) :
    Only S s { u with glob := x } :=
  fun p hp => same_trans (H p hp) (by cases p <;> first | rfl | exact ⟨rfl, rfl⟩ | exact absurd h hp | exact ⟨hl, hf⟩)
theorem put_mgt {x : Mgt} (h : .mgt ∈ S) (hr : x.rdrop = u.mgt.rdrop) (ht : x.tele = u.mgt.tele) (H : Only S s u) :
    Only S s { u with mgt := x } :=
  fun p hp => same_trans (H p hp) (by cases p <;> first | rfl | exact ⟨rfl, rfl⟩ | exact absurd h hp | exact hr | exact ht)

end Sys2Proof.Laws
end

