-- ==== Sys2Proof/Laws/FrameOps.lean ====
section
/-! SUPPORT. The frames of the operations over records, error classes, event outputs, requests, the Atlas check points
and the ports.  Each lemma says what an operation can change at most; `…In S` says that S allows it. -/

namespace Sys2Proof.Laws
open Sys2Proof.Machine

variable {S : Set Area} {s u : State}

/-- What offering a record changes. -/
structure RecIn (S : Set Area) : Prop where
  heldRecs : .heldRecs ∈ S
  rdrop : .rdrop ∈ S
/-- What counting an error changes. -/
structure ErrIn (S : Set Area) : Prop extends RecIn S where
  err : ∀ k, .err k ∈ S
/-- What the start of a lookup changes. -/
structure LookIn (S : Set Area) : Prop where
  cache : .cache ∈ S
  grid : .grid ∈ S
/-- What a check point changes. -/
structure CheckIn (S : Set Area) : Prop extends ErrIn S, LookIn S where
  atlas : .atlas ∈ S
/-- What offering an access to a port changes. -/
structure SubmitIn (S : Set Area) : Prop extends LookIn S where
  offered : .offered ∈ S

/-- An update of several fields at once. -/
theorem only_put {t : State} (H : Only S s u) (h : ∀ p, p ∉ S → same p u t) : Only S s t := only_trans H h

/-! ### Records and error classes -/

theorem accept_only {p r} (h : .staged ∈ S) (hr : .recClk ∈ S) (H : Only S s u) : Only S s (accept p r u) :=
  only_put H (fun q hq => by
    cases q <;> first | rfl | exact ⟨rfl, rfl⟩ | exact absurd h hq | exact absurd hr hq)

theorem offer_only {p own r} (h : RecIn S) (H : Only S s u) : Only S s (offer p own r u) :=
  only_ite (markSet_only (put_rdrop h.rdrop H)) (put_heldRecs h.heldRecs H)
theorem offerNow_only {p b t k n d v e} (h : RecIn S) (H : Only S s u) : Only S s (offerNow p b t k n d v e u) := offer_only h H
theorem offerCh_only {c t d v e} (h : RecIn S) (H : Only S s u) : Only S s (offerCh c t d v e u) := offer_only h H

theorem countErr_only {k} (h : .err k ∈ S) (H : Only S s u) : Only S s (countErr k u) := put_setErr h (markCount_only H)
theorem uncorrected_only {n d v} (h : ErrIn S) (H : Only S s u) : Only S s (uncorrected n d v u) :=
  only_ite (offerNow_only h.toRecIn (countErr_only (h.err _) H)) (countErr_only (h.err _) H)
theorem corrected_only {n d v} (h : ErrIn S) (H : Only S s u) : Only S s (corrected n d v u) :=
  only_ite (offerNow_only h.toRecIn (countErr_only (h.err _) H)) (countErr_only (h.err _) H)

/-! ### Event outputs and requests -/

theorem fireEvo_only {m} (h : .evo m ∈ S) (H : Only S s u) : Only S s (fireEvo m u) :=
  only_ite H (only_ite (markSet_only (put_setEvo h H)) (put_setEvo h H))
theorem consume_only {c n} (h : .ctx c ∈ S) (H : Only S s u) : Only S s (consume c n u) := only_ite (put_modW h H) (put_modR h H)
theorem overrun_only {n c} (h : RecIn S) (hn : .input n ∈ S) (H : Only S s u) : Only S s (overrun n c u) :=
  only_ite (offerNow_only h (markCount_only (markSet_only (put_setInp hn H)))) (markCount_only (markSet_only (put_setInp hn H)))
theorem countOne_only {n} (h : RecIn S) (hn : .input n ∈ S) (hc : ∀ c, .ctx c ∈ S) (H : Only S s u) : Only S s (countOne n u) := by
  unfold countOne
  extract_lets i live full room s1
  have H1 : Only S s s1 := only_foldl _ (fun u c H => put_modR (hc c) H) H
  clear_value s1 full
  split
  · exact H1
  · exact overrun_only h hn H1
theorem request_only {n l} (h : .arrivals ∈ S) (H : Only S s u) : Only S s (request n l u) := only_ite H (put_arrivals h H)
theorem countArrivals_only (h : RecIn S) (ha : .arrivals ∈ S) (hn : ∀ n, .input n ∈ S) (hc : ∀ c, .ctx c ∈ S) (H : Only S s u) :
    Only S s (countArrivals u) := only_foldl _ (fun _ _ H => countOne_only h (hn _) hc H) (put_arrivals ha H)

/-! ### The Atlas check points -/

theorem putAtlas_only {x} (h : CheckIn S) (H : Only S s u) : Only S s { u with atlas := x } := put_atlas h.atlas h.cache h.grid H
theorem putWord_only {k v} (h : CheckIn S) (H : Only S s u) : Only S s (putWord k v u) := by
  unfold putWord
  refine only_ite ?_ (only_ite ?_ (only_ite ?_ (only_ite ?_ H))) <;> exact putAtlas_only h H
theorem touchCache_only {p e} (h : .cache ∈ S) (H : Only S s u) : Only S s (touchCache p e u).1 := put_caches h H

theorem putWord_grid {k v} (hk : k < 0x20000) (h : .grid ∈ S) (H : Only S s u) : Only S s (putWord k v u) := by
  unfold putWord; rw [if_pos hk]; exact put_grid h H

/-- The Grid word of an address has a key of the Grid's banks. -/
theorem gridPlace_lt {a n k j : Nat} (h : gridPlace u a = some (n, k, j)) : n < 4 ∧ k < 0x20000 ∧ j < 16 := by
  unfold gridPlace at h
  simp only [Option.map_eq_some_iff, Prod.mk.injEq] at h
  obtain ⟨m, hm, rfl, rfl, rfl⟩ := h
  have := List.mem_of_find?_eq_some hm
  have : m < 4 := by simp at this; omega
  have hlt : a % 2 ^ 24 / 32 / 16 < 32768 := by omega
  exact ⟨this, by omega, by omega⟩

theorem initGrid_only {a} (h : .grid ∈ S) (H : Only S s u) : Only S s (initGrid a u).1 := by
  unfold initGrid
  split
  · exact H
  · rename_i n k j heq
    split
    · exact H
    · split
      · exact H
      · exact putWord_grid (gridPlace_lt heq).2.1 h H

theorem beginLookup_only {q} (h : LookIn S) (H : Only S s u) : Only S s (beginLookup q u).1 :=
  initGrid_only h.grid (touchCache_only h.cache H)
theorem foundSoft_only {w} (h : CheckIn S) (H : Only S s u) : Only S s (foundSoft u w) :=
  only_ite (corrected_only h.toErrIn (putAtlas_only h H)) H
theorem cleanWord_only {w} (h : .atlas ∈ S) (H : Only S s u) : Only S s (cleanWord w u) :=
  only_put H (fun q hq => by cases q <;> first | rfl | exact ⟨rfl, rfl⟩ | exact absurd h hq)

theorem ruleError_only {a b c} (h : CheckIn S) (H : Only S s u) : Only S s (ruleError a b c u) := by
  have H1 := markSet_only (k := w1cKey 0x5018 14) (putAtlas_only (x := { u.atlas with ruleerr := true }) h H)
  unfold ruleError
  exact only_ite (uncorrected_only h.toErrIn (only_ite (offerNow_only h.toRecIn H1) H1)) (only_ite (offerNow_only h.toRecIn H1) H1)
theorem noteViolation_only {q v w} (h : CheckIn S) (H : Only S s u) : Only S s (noteViolation q v w u) := by
  unfold noteViolation
  repeat' split
  · exact H
  · exact putAtlas_only h H
  · exact putAtlas_only h H
theorem amendCapture_only {r} (h : RecIn S) (H : Only S s u) : Only S s (amendCapture r u) := put_heldRecs h.heldRecs H
theorem captureViol_only (h : CheckIn S) (H : Only S s u) : Only S s (captureViol u) := by
  unfold captureViol
  split
  · exact H
  · exact only_ite (only_ite (amendCapture_only h.toRecIn (putAtlas_only h H)) (offer_only h.toRecIn (putAtlas_only h H)))
      (putAtlas_only h H)
theorem clearValid_only (h : CheckIn S) (H : Only S s u) : Only S s (clearValid u) := by
  unfold clearValid
  split
  · exact only_ite (only_ite H (captureViol_only h H)) (putAtlas_only h H)
  · exact putAtlas_only h H
theorem reportBad_only {v} (h : CheckIn S) (H : Only S s u) : Only S s (reportBad v u) := by
  unfold reportBad; split
  · exact ruleError_only h H
  · exact H
theorem countViolation_only {v} (h : CheckIn S) (H : Only S s u) : Only S s (countViolation v u) :=
  reportBad_only h (markCount_only (putAtlas_only h H))
theorem captureFirst_only {q i} (h : CheckIn S) (H : Only S s u) : Only S s (captureFirst q i u) :=
  only_ite (noteViolation_only h H) (captureViol_only h (noteViolation_only h H))
theorem debugDenied_only {q i} (h : CheckIn S) (H : Only S s u) : Only S s (debugDenied q i u) :=
  only_ite (offerNow_only h.toRecIn (markCount_only (markSet_only (putAtlas_only h H)))) (markCount_only (markSet_only (putAtlas_only h H)))
theorem violation_only {q v} (h : CheckIn S) (H : Only S s u) : Only S s (violation q v u) :=
  have H1 := captureFirst_only h (countViolation_only h H)
  only_ite (debugDenied_only h H1) H1
theorem settle_only {q f} (h : CheckIn S) (H : Only S s u) : Only S s (settle q f u).1 :=
  have H1 := only_foldl (f := foundSoft) (lookupWords u q) (fun _ _ H => foundSoft_only h H) H
  only_ite H1 (only_ite (reportBad_only h H1) (violation_only h H1))
theorem check_only {q} (h : CheckIn S) (H : Only S s u) : Only S s (check q u).1 := settle_only h (beginLookup_only h.toLookIn H)

/-! ### The ports -/

theorem enqueue_only {a} (h : .offered ∈ S) (H : Only S s u) : Only S s (enqueue a u) := put_offered h H
theorem submit_only {w} (h : SubmitIn S) (H : Only S s u) : Only S s (submit w u) :=
  only_ite (enqueue_only h.offered (beginLookup_only h.toLookIn H)) (enqueue_only h.offered H)
theorem orphanReads_only {p} (ho : .offered ∈ S) (ht : .outst ∈ S) (hf : .out ∈ S) (H : Only S s u) : Only S s (orphanReads p u) :=
  only_put H (fun q hq => by
    cases q <;> first | rfl | exact ⟨rfl, rfl⟩ | exact absurd ho hq | exact absurd ht hq | exact absurd hf hq)
theorem markTags_only (h : .tags ∈ S) (H : Only S s u) : Only S s (markTags u) := put_lochw h H

end Sys2Proof.Laws
end

