-- ==== Sys2Proof/Laws/FrameSeq.lean ====
section
/-! SUPPORT. The frames of the slot sequencers' operations: each changes its own channel's context, the leg-fetch port,
the leg cache and the records it offers, and a fault its bursts and reads. -/

namespace Sys2Proof.Laws
open Sys2Proof.Machine

variable {S : Set Area} {s u : State}

/-- What the sequencer of channel c changes as it fetches, waits and goes on. -/
structure SeqIn (c : Nat) (S : Set Area) : Prop extends ErrIn S, LookIn S where
  ctx : .ctx c ∈ S
  fetches : .fetches ∈ S
  lcache : .lcache ∈ S
  power : .power ∈ S
  grat : .grat ∈ S
/-- What a fault of channel c, or the end of its leg, changes. -/
structure FaultIn (c : Nat) (S : Set Area) : Prop extends SeqIn c S where
  lane : ∀ l, laneIn l S
  offered : .offered ∈ S
  outst : .outst ∈ S
  out : .out ∈ S
/-- What a data leg's events change besides. -/
structure LegIn (c : Nat) (S : Set Area) : Prop extends FaultIn c S where
  evo : ∀ m, .evo m ∈ S

theorem FaultIn.submit {c} (h : FaultIn c S) : SubmitIn S := ⟨h.toLookIn, h.offered⟩

/-! ### Lanes, missed firings, faults -/

theorem abortBurst_only {c} (h : FaultIn c S) (H : Only S s u) : Only S s (abortBurst c u) := by
  unfold abortBurst
  split
  · exact H
  · split
    · exact H
    · exact orphanReads_only h.offered h.outst h.out (put_setLane (h.lane _) H)
theorem addCovered_only {c l} (h : .ctx c ∈ S) (H : Only S s u) : Only S s (addCovered c l u) := put_modW h H
theorem dropCovered_only {c l} (h : .ctx c ∈ S) (H : Only S s u) : Only S s (dropCovered c l u) := put_modW h H
theorem noteQuiet_only {c} (h : .ctx c ∈ S) (H : Only S s u) : Only S s (noteQuiet c u) := by
  unfold noteQuiet; dsimp only; split
  · exact only_ite (put_modW h H) H
  · exact H
theorem noteAcc_only {c n} (h : .ctx c ∈ S) (H : Only S s u) : Only S s (noteAcc c n u) := only_ite (noteQuiet_only h (put_modW h H)) H

theorem missed_only {c r f} (h : RecIn S) (hg : .grat ∈ S) (H : Only S s u) : Only S s (missed c r f u) :=
  only_ite (offer_only h (markCount_only (put_grat hg H))) (markCount_only (put_grat hg H))
theorem dropFire_only {c r} (h : SeqIn c S) (H : Only S s u) : Only S s (dropFire c r u) := by
  unfold dropFire; split
  · exact missed_only h.toRecIn h.grat (put_modW h.ctx H)
  · exact H

theorem leaveFetch_only {c} (h : .fetches ∈ S) (H : Only S s u) : Only S s (leaveFetch c u) := put_fetches h H
theorem dropEndRead_only {c} (h : .fetches ∈ S) (H : Only S s u) : Only S s (dropEndRead c u) := put_fetches h H
theorem raiseFault_only {c k a l} (h : FaultIn c S) (H : Only S s u) : Only S s (raiseFault c k a l u) :=
  only_ite H (leaveFetch_only h.fetches (orphanReads_only h.offered h.outst h.out (abortBurst_only h (put_setCtx h.ctx H))))
theorem faultPc_only {c k} (h : FaultIn c S) (H : Only S s u) : Only S s (faultPc c k u) := raiseFault_only h H
theorem offerFault_only {c f} (h : RecIn S) (H : Only S s u) : Only S s (offerFault c f u) := offer_only h H

/-! ### The leg cache and the leg-fetch port -/

theorem touchLine_only {l k} (h : .lcache ∈ S) (H : Only S s u) : Only S s (touchLine l k u) := put_lcache h H
theorem fillLine_only {e} (h : .lcache ∈ S) (H : Only S s u) : Only S s (fillLine e u) := put_lcache h H
theorem invalidate_only {a} (h : .lcache ∈ S) (hf : .fetches ∈ S) (H : Only S s u) : Only S s (invalidate a u) :=
  only_put H (fun q hq => by cases q <;> first | rfl | exact ⟨rfl, rfl⟩ | exact absurd h hq | exact absurd hf hq)
theorem newFetch_only {k c a w} (h : LookIn S) (hf : .fetches ∈ S) (H : Only S s u) : Only S s (newFetch k c a w u) :=
  put_fetches hf (beginLookup_only h H)
theorem prefetch_only {c a} (h : LookIn S) (hf : .fetches ∈ S) (H : Only S s u) : Only S s (prefetch c a u) :=
  only_ite H (newFetch_only h hf H)
theorem demand_only {c l} (h : LookIn S) (hf : .fetches ∈ S) (H : Only S s u) : Only S s (demand c l u) := by
  unfold demand; extract_lets; split
  · exact put_fetches hf H
  · exact newFetch_only h hf H
theorem readLine_only {e} (h : ErrIn S) (hl : .lcache ∈ S) (H : Only S s u) : Only S s (readLine e u) :=
  only_ite (uncorrected_only h (put_lcache hl H)) (only_ite (corrected_only h (put_lcache hl H)) H)

/-! ### Waits, and the way through the legs -/

theorem enterWait_only {c w d} (h : .ctx c ∈ S) (H : Only S s u) : Only S s (enterWait c w d u) := put_setCtx h H
theorem leaveWait_only {c} (h : .ctx c ∈ S) (H : Only S s u) : Only S s (leaveWait c u) := put_setCtx h H
theorem rankMet_only {c} (h : .ctx c ∈ S) (H : Only S s u) : Only S s (rankMet c u) := put_modW h H
theorem goHeld_only {c d a} (h : .ctx c ∈ S) (hp : .power ∈ S) (H : Only S s u) : Only S s (goHeld c d a u) :=
  only_ite (only_ite (put_power hp (put_setCtx h H)) (put_setCtx h H)) H
theorem flashHold_only {c a} (h : .ctx c ∈ S) (H : Only S s u) : Only S s (flashHold c a u) := by
  unfold flashHold; split
  · exact only_ite (put_modW h (enterWait_only h H)) H
  · exact H
theorem fetchPort_only {c} (h : SeqIn c S) (H : Only S s u) : Only S s (fetchPort c u) := by
  unfold fetchPort; extract_lets; split
  · exact goHeld_only h.ctx h.power H
  · exact flashHold_only h.ctx (demand_only h.toLookIn h.fetches H)
theorem startFetch_only {c} (h : SeqIn c S) (H : Only S s u) : Only S s (startFetch c u) := by
  have H1 : Only S s (modW c (fun w => { w with phase := .fetch }) u) := put_modW h.ctx H
  unfold startFetch
  generalize modW c (fun w => { w with phase := .fetch }) u = t at H1
  refine only_ite H1 ?_
  split
  · exact only_ite (fetchPort_only h (touchLine_only h.lcache (readLine_only h.toErrIn h.lcache H1)))
      (put_setCtx h.ctx (touchLine_only h.lcache (readLine_only h.toErrIn h.lcache H1)))
  · exact fetchPort_only h H1
theorem deliverLeg_only {c l} (h : .ctx c ∈ S) (H : Only S s u) : Only S s (deliverLeg c l u) :=
  only_ite (put_setCtx h (only_ite (leaveWait_only h H) H)) H
theorem goto_only {c p} (h : SeqIn c S) (H : Only S s u) : Only S s (goto c p u) :=
  only_ite (put_modW h.ctx (put_modR h.ctx H)) (startFetch_only h (put_modR h.ctx H))
theorem finishTo_only {c t} (h : FaultIn c S) (H : Only S s u) : Only S s (finishTo c t u) := by
  have H1 : Only S s (modW c (fun w => { w with legNo := w.legNo + 1, progressed := true, legAt := none, acting := false }) u) := put_modW h.ctx H
  unfold finishTo
  generalize modW c (fun w => { w with legNo := w.legNo + 1, progressed := true, legAt := none, acting := false }) u = v at H1
  refine only_ite (put_modW h.ctx H1) ?_
  cases t with
  | some t => exact goto_only h.toSeqIn H1
  | none => exact only_ite (goto_only h.toSeqIn H1) (only_ite (faultPc_only h H1) (goto_only h.toSeqIn H1))
theorem finish_only {c} (h : FaultIn c S) (H : Only S s u) : Only S s (finish c u) :=
  only_ite (put_modW h.ctx H) (finishTo_only h H)
theorem finishZ_only {c z} (h : FaultIn c S) (H : Only S s u) : Only S s (finishZ c z u) :=
  finish_only h (rankMet_only h.ctx (put_modR h.ctx (leaveWait_only h.ctx H)))

theorem legEvent_only {c t} (h : RecIn S) (he : ∀ m, .evo m ∈ S) (H : Only S s u) : Only S s (legEvent c t u) :=
  have H1 := only_ite (fireEvo_only (m := evoOf (ctx u c).r.leg) (he _) H) H
  only_ite (offerCh_only h H1) H1
theorem completeData_only {c} (h : LegIn c S) (H : Only S s u) : Only S s (completeData c u) :=
  only_ite (finishTo_only h.toFaultIn H) (finish_only h.toFaultIn (only_ite (legEvent_only h.toRecIn h.evo H) H))
theorem dataDone_only {c} (h : LegIn c S) (H : Only S s u) : Only S s (dataDone c u) :=
  only_ite (finishTo_only h.toFaultIn H)
    (only_ite (put_modW h.ctx (enterWait_only h.ctx H)) (completeData_only h H))

theorem toBoundary_only {c} (h : .ctx c ∈ S) (H : Only S s u) : Only S s (toBoundary c u) := by
  have H1 : Only S s (modW c (fun w => { w with phase := .data }) u) := put_modW h H
  unfold toBoundary
  generalize modW c (fun w => { w with phase := .data }) u = t at H1
  exact only_ite H1 (only_ite (enterWait_only h H1) (only_ite (enterWait_only h H1)
    (only_ite (only_ite H1 (only_ite (put_modW h (consume_only h H1)) (enterWait_only h H1))) H1)))
theorem rearmNow_only {c} (h : .ctx c ∈ S) (H : Only S s u) : Only S s (rearmNow c u) := only_ite H (put_modW h H)

theorem satisfied_only {c d} (h : LegIn c S) (H : Only S s u) : Only S s (satisfied c d u) := by
  have B := toBoundary_only h.ctx (rankMet_only h.ctx (leaveWait_only h.ctx H))
  have F := finishZ_only (z := true) h.toFaultIn H
  cases d with
  | request n => exact finishZ_only h.toFaultIn (rearmNow_only h.ctx (consume_only h.ctx H))
  | barBefore => exact only_ite (put_modW h.ctx (put_modR h.ctx H)) (put_modW h.ctx (rankMet_only h.ctx (leaveWait_only h.ctx H)))
  | barAfter => exact completeData_only h (rankMet_only h.ctx (leaveWait_only h.ctx H))
  | flash _ => exact leaveWait_only h.ctx H
  | burstRequest => exact B
  | popItem _ => exact B
  | pushRoom _ => exact B
  | domain _ => exact H
  | none => exact H
  | _ => exact F

/-! ### END, parking, wakes, diverts and fires -/

theorem startEndRead_only {c} (h : SeqIn c S) (H : Only S s u) : Only S s (startEndRead c u) := by
  have H1 : Only S s (dropEndRead c (modW c (fun w => { w with phase := .endRead }) u)) := dropEndRead_only h.fetches (put_modW h.ctx H)
  unfold startEndRead
  generalize dropEndRead c (modW c (fun w => { w with phase := .endRead }) u) = t at H1
  dsimp only
  refine only_ite (only_ite (put_modW h.ctx H1) H1) ?_
  have H2 := put_modW (f := fun w => { w with urgent := false }) h.ctx H1
  generalize modW c (fun w => { w with urgent := false }) t = t2 at H2 ⊢
  split
  · exact goHeld_only h.ctx h.power H2
  · exact flashHold_only h.ctx (newFetch_only h.toLookIn h.fetches H2)

theorem takeDivert_only {c w} (h : SeqIn c S) (H : Only S s u) : Only S s (takeDivert c w u) := by
  have H1 := leaveFetch_only (c := c) h.fetches (leaveWait_only h.ctx H)
  unfold takeDivert
  have H2 : Only S s (if w then modW c (fun w => { w with woken := false, urgent := false }) (modR c (fun r => { r with wake := false })
      (leaveFetch c (leaveWait c u))) else leaveFetch c (leaveWait c u)) := only_ite (put_modW h.ctx (put_modR h.ctx H1)) H1
  refine only_ite (goto_only h (dropFire_only h (put_modR h.ctx (offerNow_only h.toRecIn H2)))) ?_
  split
  · exact goto_only h (put_modW h.ctx H2)
  · exact H2

theorem divertNow_only {c} (h : SeqIn c S) (H : Only S s u) : Only S s (divertNow c u) :=
  only_ite (only_ite (takeDivert_only h H) (only_ite (takeDivert_only h H) H)) H
theorem afterPark_only {c} (h : SeqIn c S) (H : Only S s u) : Only S s (afterPark c u) :=
  only_ite H (only_ite (takeDivert_only h H) (only_ite (startEndRead_only h (put_modW h.ctx (put_modR h.ctx H))) H))

theorem park_only {c} (h : SeqIn c S) (H : Only S s u) : Only S s (park c u) :=
  have H1 := put_modW (f := fun w => { w with phase := .parked, progressed := true }) h.ctx
    (put_modR (f := fun r => { r with state := .parked, wait := .none, desc := .none }) h.ctx H)
  only_ite (takeDivert_only h H) (afterPark_only h (only_ite (offerCh_only h.toRecIn H1) H1))

theorem wake_only {c} (h : SeqIn c S) (H : Only S s u) : Only S s (wake c u) := by
  unfold wake; extract_lets x; clear_value x; split
  · exact only_ite (put_modR h.ctx H) (only_ite (put_modW h.ctx H) (startEndRead_only h H))
  all_goals first | exact put_modR h.ctx H | exact H
theorem sendWake_only {c} (h : SeqIn c S) (hc : .ctl ∈ S) (H : Only S s u) : Only S s (sendWake c u) := only_ite (put_ctl hc H) (wake_only h H)

theorem fireAt_only {c f} (h : SeqIn c S) (H : Only S s u) : Only S s (fireAt c f u) := by
  have M : ∀ r, Only S s (missed c r f u) := fun r => missed_only h.toRecIn h.grat H
  have D := divertNow_only h (put_modW (f := fun w => { w with fire := some f }) h.ctx H)
  unfold fireAt; extract_lets x; clear_value x; split
  all_goals first | exact M _ | exact only_ite (M _) (only_ite (put_modW h.ctx D) D)

/-! ### Starts and stops -/

theorem startChannel_only {c} (h : SeqIn c S) (H : Only S s u) : Only S s (startChannel c u) :=
  have H1 := dropFire_only (r := 4) h H
  only_ite (put_setCtx h.ctx H1) (startFetch_only h (put_setCtx h.ctx H1))

theorem releaseSlot_only {c} (h : .ctx c ∈ S) (hs : .slots ∈ S) (H : Only S s u) : Only S s (releaseSlot c u) := by
  unfold releaseSlot; split
  · exact only_ite H (put_modR h (put_slots hs H))
  · exact H
theorem enterOff_only {c a} (h : .ctx c ∈ S) (hs : .slots ∈ S) (H : Only S s u) : Only S s (enterOff c a u) :=
  releaseSlot_only h hs (put_setCtx h H)
theorem enterPaused_only {c} (h : .ctx c ∈ S) (hf : .fetches ∈ S) (H : Only S s u) : Only S s (enterPaused c u) :=
  dropEndRead_only hf (put_setCtx h H)
theorem tryPause_only {c} (h : .ctx c ∈ S) (hf : .fetches ∈ S) (H : Only S s u) : Only S s (tryPause c u) := only_ite (enterPaused_only h hf H) H
theorem enterHalted_only {c} (h : .ctx c ∈ S) (hf : .fetches ∈ S) (H : Only S s u) : Only S s (enterHalted c u) :=
  only_ite (put_setCtx h H) (dropEndRead_only hf (put_setCtx h H))
theorem endAgain_only {c} (h : SeqIn c S) (H : Only S s u) : Only S s (endAgain c u) :=
  only_ite (takeDivert_only h H) (only_ite H (startEndRead_only h H))
theorem continueCh_only {c} (h : SeqIn c S) (H : Only S s u) : Only S s (continueCh c u) := by
  unfold continueCh; split
  · exact startFetch_only h H
  · exact toBoundary_only h.ctx H
  · exact endAgain_only h H
  · exact H

theorem reenter_only {c st} (h : LegIn c S) (H : Only S s u) : Only S s (reenter c st u) := by
  have H1 : Only S s (modR c (fun r => { r with state := st, wait := if decide (st = .wait) || decide (st = .held) then waitReason r.desc else .none }) u) :=
    put_modR h.ctx H
  unfold reenter
  generalize modR c (fun r => { r with state := st, wait := if decide (st = .wait) || decide (st = .held) then waitReason r.desc else .none }) u = t at H1
  have X : ∀ d, Only S s (if condMet t c d then satisfied c d t else if deadlineReached t c then finishZ c false t else divertNow c t) :=
    fun d => only_ite (satisfied_only h H1) (only_ite (finishZ_only h.toFaultIn H1) (divertNow_only h.toSeqIn H1))
  cases st with
  | active => exact continueCh_only h.toSeqIn (put_modW h.ctx H1)
  | wait =>
    dsimp only
    generalize (ctx t c).r.desc = d
    cases d with
    | flash _ => exact continueCh_only h.toSeqIn (leaveWait_only h.ctx H1)
    | barBefore => exact satisfied_only h H1
    | _ => exact X _
  | held => exact only_ite (continueCh_only h.toSeqIn (leaveWait_only h.ctx H1)) H1
  | parked => exact only_ite (endAgain_only h.toSeqIn H1) (afterPark_only h.toSeqIn H1)
  | _ => exact H1
theorem resume_only {c} (h : LegIn c S) (H : Only S s u) : Only S s (resume c u) := reenter_only h (put_modR h.ctx H)
theorem unhalt_only {c} (h : LegIn c S) (H : Only S s u) : Only S s (unhalt c u) := only_ite (put_modR h.ctx H) (resume_only h H)

theorem dropSingles_only {c} (h : .ctx c ∈ S) (ho : .offered ∈ S) (H : Only S s u) : Only S s (dropSingles c u) :=
  only_foldl _ (fun _ _ H => dropCovered_only h H) (put_offered ho H)
theorem drain_only {c} (h : FaultIn c S) (H : Only S s u) : Only S s (drain c u) :=
  have H1 := only_ite (c := (match (ctx u c).r.state with | .halted | .paused | .held => true | _ => false) = true)
    (dropSingles_only h.ctx h.offered H) H
  only_ite (put_setCtx h.ctx H1) (leaveFetch_only h.fetches (put_setCtx h.ctx H1))
theorem abort_only {c} (h : FaultIn c S) (H : Only S s u) : Only S s (abort c u) :=
  have H1 := dropSingles_only h.ctx h.offered (dropFire_only (r := 4) h.toSeqIn H)
  leaveFetch_only h.fetches (orphanReads_only h.offered h.outst h.out (abortBurst_only h (put_heldRecs h.heldRecs (put_setCtx h.ctx H1))))

end Sys2Proof.Laws
end

