-- ==== Sys2Proof/Laws/FrameQueue.lean ====
section
/-! SUPPORT. The frames of the stream queues' operations: each changes its own queue, the spill pool, and the accesses,
records and error counts that come of them. -/

namespace Sys2Proof.Laws
open Sys2Proof.Machine

variable {S : Set Area} {s u : State}

/-- What an operation on queue q changes. -/
structure QueueIn (q : Nat) (S : Set Area) : Prop extends ErrIn S, SubmitIn S where
  queue : .queue q ∈ S
  spill : .spill ∈ S

/-- What freeing items of queue q changes: no record comes of it. -/
structure FreeIn (q : Nat) (S : Set Area) : Prop extends SubmitIn S where
  queue : .queue q ∈ S
  spill : .spill ∈ S

theorem QueueIn.free {q : Nat} (h : QueueIn q S) : FreeIn q S := ⟨h.toSubmitIn, h.queue, h.spill⟩

theorem qRec_only {q t d v} (h : RecIn S) (H : Only S s u) : Only S s (qRec q t d v u) := only_ite (offerNow_only h H) H
theorem force_only {q} (h : .queue q ∈ S) (H : Only S s u) : Only S s (force q u) := only_ite (markSet_only (put_setQueue h H)) H
theorem forceAll_only (h : ∀ q, .queue q ∈ S) (H : Only S s u) : Only S s (forceAll u) := only_foldl _ (fun _ _ H => force_only (h _) H) H
theorem place_only {q it} (h : .queue q ∈ S) (H : Only S s u) : Only S s (place q it u) :=
  only_ite (put_setQueue h H) (force_only h (put_setQueue h H))
theorem parityCheck_only {q a it} (h : ErrIn S) (hq : .queue q ∈ S) (H : Only S s u) : Only S s (parityCheck q a it u).2 := by
  unfold parityCheck; split
  · exact H
  · exact qRec_only h.toRecIn (uncorrected_only h (markSet_only (put_modQ hq H)))
theorem blockEnergy_only {b} (h : .tele ∈ S) (H : Only S s u) : Only S s (blockEnergy b u) := put_tele h H

theorem putFree_only {q p} (h : SubmitIn S) (hs : .spill ∈ S) (H : Only S s u) : Only S s (putFree q p u) :=
  submit_only h (put_spill hs H)
theorem freePage_only {q p} (h : SubmitIn S) (hs : .spill ∈ S) (H : Only S s u) : Only S s (freePage q p u) :=
  only_ite (put_spill hs (put_spill hs H)) (putFree_only h hs (put_spill hs H))
theorem endListRead_only (h : SubmitIn S) (hs : .spill ∈ S) (H : Only S s u) : Only S s (endListRead u) :=
  only_foldl _ (fun _ _ H => putFree_only h hs H) (put_spill hs H)
theorem freePages_only {q} (h : FreeIn q S) (H : Only S s u) : Only S s (freePages q u) :=
  only_foldl _ (fun _ _ H => freePage_only h.toSubmitIn h.spill H) (put_setQueue h.queue H)
theorem freeGroup_only {q g} (h : FreeIn q S) (H : Only S s u) : Only S s (freeGroup q g u) :=
  only_ite H (freePages_only h (put_setQueue h.queue H))
theorem freeItem_only {q i} (h : FreeIn q S) (H : Only S s u) : Only S s (freeItem q i u) := by
  unfold freeItem; split
  · exact H
  · exact freeGroup_only h H
theorem freeHeld_only {q} (h : FreeIn q S) (H : Only S s u) : Only S s (freeHeld q u) :=
  only_foldl _ (fun _ _ H => freeGroup_only h H) (put_modQ h.queue H)

theorem take_only {q it} {t : State} (h : QueueIn q S) (H : Only S s u) (ht : take? q u = some (it, t)) : Only S s t := by
  have X : ∀ a i, Only S s (parityCheck q a i u).2 := fun _ _ => parityCheck_only h.toErrIn h.queue H
  unfold take? at ht
  extract_lets x at ht
  clear_value x
  cases hx : x.head with
  | nil => simp [hx] at ht
  | cons i rest =>
    simp only [hx] at ht
    split at ht
    · split at ht <;> (simp only [Option.some.injEq, Prod.mk.injEq] at ht; obtain ⟨_, rfl⟩ := ht)
      · exact put_setQueue h.queue (X _ _)
      · exact freeItem_only h.free (put_setQueue h.queue (X _ _))
    · simp at ht

theorem markQ_only {q} (h : QueueIn q S) (H : Only S s u) : Only S s (markQ q u) := put_modQ h.queue (freeHeld_only h.free H)
theorem noMark_only {q} (h : .queue q ∈ S) (H : Only S s u) : Only S s (noMark q u) := markSet_only (put_modQ h H)
theorem rewindQ_only {q} (h : .queue q ∈ S) (H : Only S s u) : Only S s (rewindQ q u) := only_ite (put_modQ h H) (noMark_only h H)
theorem releaseQ_only {q} (h : QueueIn q S) (H : Only S s u) : Only S s (releaseQ q u) :=
  only_ite (freeHeld_only h.free H) (noMark_only h.queue H)
theorem unmarkQ_only {q} (h : QueueIn q S) (H : Only S s u) : Only S s (unmarkQ q u) := put_modQ h.queue (freeHeld_only h.free H)

/-! ### Movements -/

theorem allocFails_only {q d a} (h : QueueIn q S) (H : Only S s u) : Only S s (allocFails q d a u) :=
  have H1 := put_modQ (f := fun x => { x with allocf := true, wrMove := .none }) h.queue
    (put_spill (x := { u.spill with fails := sat32 u.spill.fails }) h.spill H)
  only_ite H1 (qRec_only h.toRecIn H1)
theorem spillFails_only {q a} (h : QueueIn q S) (H : Only S s u) : Only S s (spillFails q a u) :=
  have H1 := put_modQ (f := fun x => { x with sperr := true, wrMove := .none }) h.queue H
  only_ite H1 (qRec_only h.toRecIn H1)

theorem parityFold_only {q : Nat} {a : Bool} (h : ErrIn S) (hq : .queue q ∈ S) (l : List Item) (acc : List Item × State) (H : Only S s acc.2) :
    Only S s (l.foldl (fun (acc : List Item × State) it => let (it', s') := parityCheck q a it acc.2; (acc.1 ++ [it'], s')) acc).2 := by
  induction l generalizing acc with
  | nil => exact H
  | cons it l ih => exact ih _ (parityCheck_only h hq H)

theorem spillData_only {q n} (h : QueueIn q S) (H : Only S s u) : Only S s (spillData q n u) := by
  unfold spillData
  split
  · exact H
  · rename_i p _
    have Y := parityFold_only (a := false) h.toErrIn h.queue ((queue u q).tail.take n) ([], u) H
    generalize List.foldl _ _ _ = r at Y ⊢
    obtain ⟨items, v⟩ := r
    exact submit_only h.toSubmitIn (submit_only h.toSubmitIn (put_modQ h.queue Y))

theorem takePage_only {q p n} (h : QueueIn q S) (H : Only S s u) : Only S s (takePage q p n u) := by
  unfold takePage
  extract_lets prev inuse sp s1 s2
  have H1 : Only S s s1 := put_spill h.spill H
  have H2 : Only S s s2 := put_modQ h.queue H1
  clear_value s2 prev
  cases prev with
  | none => exact spillData_only h H2
  | some g => exact spillData_only h (submit_only h.toSubmitIn H2)

theorem startSpill_only {q} (h : QueueIn q S) (H : Only S s u) : Only S s (startSpill q u) := by
  unfold startSpill
  extract_lets x n
  refine only_ite H (only_ite (spillData_only h H) (only_ite H (only_ite (only_ite H ?_) (only_ite ?_ (allocFails_only h H)))))
  · exact submit_only h.toSubmitIn (put_modQ h.queue (put_spill h.spill H))
  · exact takePage_only h (put_spill h.spill H)

theorem moveDirect_only {q} (h : QueueIn q S) (H : Only S s u) : Only S s (moveDirect q u) := by
  unfold moveDirect; split
  · exact put_modQ h.queue (parityCheck_only h.toErrIn h.queue H)
  · exact H

theorem refillDone_only {q p sl d0 d1 hd po} (h : .queue q ∈ S) (H : Only S s u) : Only S s (refillDone q p sl d0 d1 hd po u) := by
  unfold refillDone; extract_lets
  refine only_ite (put_setQueue h H) ?_
  split
  · exact only_ite (put_setQueue h H) (put_setQueue h H)
  · exact put_setQueue h H

theorem startRefill_only {q} (h : QueueIn q S) (H : Only S s u) : Only S s (startRefill q u) := by
  unfold startRefill; extract_lets x
  split
  · exact H
  · exact only_ite H (submit_only h.toSubmitIn (submit_only h.toSubmitIn (submit_only h.toSubmitIn (put_setQueue h.queue H))))

theorem dropSpill_only {q} (h : .offered ∈ S) (ho : .outst ∈ S) (H : Only S s u) : Only S s (dropSpill q u) :=
  only_put H (fun q hq => by
    cases q <;> first | rfl | exact ⟨rfl, rfl⟩ | exact absurd h hq | exact absurd ho hq)

theorem resetQueue_only {q} (h : QueueIn q S) (ho : .outst ∈ S) (H : Only S s u) : Only S s (resetQueue q u) := by
  unfold resetQueue
  extract_lets x busy s1 s2
  have H1 : Only S s s1 := put_setQueue h.queue (dropSpill_only h.offered ho H)
  have H2 : Only S s s2 := only_ite (endListRead_only h.toSubmitIn h.spill H1) H1
  clear_value s2 x
  exact only_foldl _ (fun _ _ H => freePage_only h.toSubmitIn h.spill H) H2

end Sys2Proof.Laws
end

