-- ==== Sys2Proof/Laws/Areas.lean ====
section
/-! SUPPORT. The sets of areas of Safety allow what they name, and nothing of a lane, a context or a queue besides. -/

namespace Sys2Proof.Laws
open Sys2Proof.Machine

theorem recIn_self : RecIn recAreas := ⟨.inl rfl, .inr rfl⟩
theorem RecIn.mono {S T : Set Area} (h : RecIn S) (hs : S ⊆ T) : RecIn T := ⟨hs h.heldRecs, hs h.rdrop⟩
theorem errIn_self : ErrIn errAreas := ⟨recIn_self.mono (fun _ h => .inl h), fun k => .inr ⟨k, rfl⟩⟩
theorem ErrIn.mono {S T : Set Area} (h : ErrIn S) (hs : S ⊆ T) : ErrIn T := ⟨h.toRecIn.mono hs, fun k => hs (h.err k)⟩
theorem lookIn_self : LookIn lookAreas := ⟨.inl rfl, .inr rfl⟩
theorem LookIn.mono {S T : Set Area} (h : LookIn S) (hs : S ⊆ T) : LookIn T := ⟨hs h.cache, hs h.grid⟩
theorem checkIn_self : CheckIn checkAreas :=
  ⟨errIn_self.mono (fun _ h => .inl h), lookIn_self.mono (fun _ h => .inr (.inl h)), .inr (.inr rfl)⟩
theorem CheckIn.mono {S T : Set Area} (h : CheckIn S) (hs : S ⊆ T) : CheckIn T := ⟨h.toErrIn.mono hs, h.toLookIn.mono hs, hs h.atlas⟩
theorem submitIn_self : SubmitIn submitAreas := ⟨lookIn_self.mono (fun _ h => .inl h), .inr rfl⟩
theorem SubmitIn.mono {S T : Set Area} (h : SubmitIn S) (hs : S ⊆ T) : SubmitIn T := ⟨h.toLookIn.mono hs, hs h.offered⟩
theorem queueIn_self (q : Nat) : QueueIn q (queueAreas q) :=
  ⟨errIn_self.mono (fun _ h => .inl h), submitIn_self.mono (fun _ h => .inr (.inl h)), .inr (.inr (.inl rfl)), .inr (.inr (.inr rfl))⟩
theorem QueueIn.mono {q : Nat} {S T : Set Area} (h : QueueIn q S) (hs : S ⊆ T) : QueueIn q T :=
  ⟨h.toErrIn.mono hs, h.toSubmitIn.mono hs, hs h.queue, hs h.spill⟩
theorem seqIn_self (c : Nat) : SeqIn c (seqAreas c) :=
  ⟨errIn_self.mono (fun _ h => .inl h), lookIn_self.mono (fun _ h => .inr (.inl h)), .inr (.inr (.inl rfl)), .inr (.inr (.inr (.inl rfl))),
    .inr (.inr (.inr (.inr (.inl rfl)))), .inr (.inr (.inr (.inr (.inr (.inl rfl))))), .inr (.inr (.inr (.inr (.inr (.inr rfl)))))⟩
theorem SeqIn.mono {c : Nat} {S T : Set Area} (h : SeqIn c S) (hs : S ⊆ T) : SeqIn c T :=
  ⟨h.toErrIn.mono hs, h.toLookIn.mono hs, hs h.ctx, hs h.fetches, hs h.lcache, hs h.power, hs h.grat⟩
theorem faultIn_self (c : Nat) : FaultIn c (faultAreas c) :=
  ⟨(seqIn_self c).mono (fun _ h => .inl h), fun l => ⟨.inr (.inl ⟨l, rfl⟩), .inr (.inr (.inl rfl))⟩,
    .inr (.inr (.inr (.inl rfl))), .inr (.inr (.inr (.inr (.inl rfl)))), .inr (.inr (.inr (.inr (.inr rfl))))⟩
theorem FaultIn.mono {c : Nat} {S T : Set Area} (h : FaultIn c S) (hs : S ⊆ T) : FaultIn c T :=
  ⟨h.toSeqIn.mono hs, fun l => ⟨hs (h.lane l).1, hs (h.lane l).2⟩, hs h.offered, hs h.outst, hs h.out⟩
theorem legIn_self (c : Nat) : LegIn c (legAreas c) := ⟨(faultIn_self c).mono (fun _ h => .inl h), fun m => .inr ⟨m, rfl⟩⟩
theorem LegIn.mono {c : Nat} {S T : Set Area} (h : LegIn c S) (hs : S ⊆ T) : LegIn c T :=
  ⟨h.toFaultIn.mono hs, fun m => hs (h.evo m)⟩

theorem recAreas_sub {S : Set Area} (h : RecIn S) : recAreas ⊆ S := by
  rintro p (rfl | rfl)
  exacts [h.heldRecs, h.rdrop]
theorem errAreas_sub {S : Set Area} (h : ErrIn S) : errAreas ⊆ S := by
  rintro p (hp | ⟨k, rfl⟩)
  exacts [recAreas_sub h.toRecIn hp, h.err k]
theorem lookAreas_sub {S : Set Area} (h : LookIn S) : lookAreas ⊆ S := by
  rintro p (rfl | rfl)
  exacts [h.cache, h.grid]
theorem checkAreas_sub {S : Set Area} (h : CheckIn S) : checkAreas ⊆ S := by
  rintro p (hp | hp | rfl)
  exacts [errAreas_sub h.toErrIn hp, lookAreas_sub h.toLookIn hp, h.atlas]
theorem submitAreas_sub {S : Set Area} (h : SubmitIn S) : submitAreas ⊆ S := by
  rintro p (hp | rfl)
  exacts [lookAreas_sub h.toLookIn hp, h.offered]
theorem queueAreas_sub {q : Nat} {S : Set Area} (h : QueueIn q S) : queueAreas q ⊆ S := by
  rintro p (hp | hp | rfl | rfl)
  exacts [errAreas_sub h.toErrIn hp, submitAreas_sub h.toSubmitIn hp, h.queue, h.spill]

theorem lane_notMem_submit (l : Nat) : Area.lane l ∉ submitAreas := by
  rintro ((h | h) | h) <;> cases h
theorem lane_notMem_err (l : Nat) : Area.lane l ∉ errAreas := by
  rintro ((h | h) | ⟨k, h⟩) <;> cases h
theorem lane_notMem_queue (l q : Nat) : Area.lane l ∉ queueAreas q := by
  rintro (h | h | h | h)
  · exact lane_notMem_err l h
  · exact lane_notMem_submit l h
  all_goals cases h

end Sys2Proof.Laws
end

