-- ==== Sys2Proof/Laws/FrameLane.lean ====
section
/-! SUPPORT. The frames of the lanes' operations: a burst changes its own lane, the covered counts of its channel, and the
accesses, records and error counts that come of its elements; PUSH and POP their queue besides. -/

namespace Sys2Proof.Laws
open Sys2Proof.Machine

variable {S : Set Area} {s u : State} {l c : Nat}

/-- What a burst of channel c on lane l changes. -/
structure LaneIn (l c : Nat) (S : Set Area) : Prop extends ErrIn S, SubmitIn S where
  lane : laneIn l S
  ctx : .ctx c ∈ S

/-- A state reached by changing at most S, in which any burst on lane l is one of channel c. -/
structure On (l c : Nat) (S : Set Area) (s u : State) : Prop where
  only : Only S s u
  own : ∀ b, burstOn u l = some b → b.ch = c

theorem on_keep {t : State} {T : Set Area} (H : On l c S s u) (hT : T ⊆ S) (hl : .lane l ∉ T) (h : Only T u t) : On l c S s t :=
  ⟨only_trans H.only (only_mono hT h), fun b hb => H.own b (by
    have e : lane t l = lane u l := h (.lane l) hl
    simpa [burstOn, e] using hb)⟩

theorem on_ite {p : Prop} [Decidable p] {a b : State} (ha : On l c S s a) (hb : On l c S s b) : On l c S s (if p then a else b) := by
  split <;> assumption
theorem on_foldl {β : Type} {f : State → β → State} (L : List β) (h : ∀ u x, On l c S s u → On l c S s (f u x)) (H : On l c S s u) :
    On l c S s (L.foldl f u) := by
  induction L generalizing u with
  | nil => exact H
  | cons x L ih => exact ih (h u x H)

theorem on_submit {w} (h : LaneIn l c S) (H : On l c S s u) : On l c S s (submit w u) :=
  on_keep H (submitAreas_sub h.toSubmitIn) (lane_notMem_submit l) (submit_only submitIn_self only_refl)
theorem on_uncorrected {n d v} (h : LaneIn l c S) (H : On l c S s u) : On l c S s (uncorrected n d v u) :=
  on_keep H (errAreas_sub h.toErrIn) (lane_notMem_err l) (uncorrected_only errIn_self only_refl)
theorem on_corrected {n d v} (h : LaneIn l c S) (H : On l c S s u) : On l c S s (corrected n d v u) :=
  on_keep H (errAreas_sub h.toErrIn) (lane_notMem_err l) (corrected_only errIn_self only_refl)
theorem on_markTags (ht : .tags ∈ S) (H : On l c S s u) : On l c S s (markTags u) :=
  on_keep H (T := {.tags}) (by rintro _ rfl; exact ht) (fun e => nomatch e) (markTags_only (Set.mem_singleton _) only_refl)

theorem burstOn_modB (u : State) (l : Nat) (f : Burst → Burst) : burstOn (modB l f u) l = (burstOn u l).map f := by
  simp [burstOn, modB, lane, setLane, tget_tset_self]
theorem on_modB {f : Burst → Burst} (h : laneIn l S) (hf : ∀ b, (f b).ch = b.ch) (H : On l c S s u) : On l c S s (modB l f u) :=
  ⟨put_setLane h H.only, fun b hb => by
    rw [burstOn_modB] at hb
    obtain ⟨a, ha, rfl⟩ := Option.map_eq_some_iff.mp hb
    rw [hf a]; exact H.own a ha⟩
/-- A change of the lane that keeps its burst. -/
theorem on_setLane {x : LaneSt} (h : laneIn l S) (hx : x.burst = burstOn u l) (H : On l c S s u) : On l c S s (setLane l x u) :=
  ⟨put_setLane h H.only, fun b hb => H.own b (by
    have : burstOn (setLane l x u) l = x.burst := by simp [burstOn, lane, setLane, tget_tset_self]
    rw [this, hx] at hb; exact hb)⟩
theorem on_covered {b : Burst} {loc : Bool} (h : LaneIn l c S) (hb : b.ch = c) (H : On l c S s u) :
    On l c S s (addCovered b.ch loc u) :=
  on_keep H (T := {.ctx c}) (by rintro _ rfl; exact h.ctx) (fun e => nomatch e) (hb ▸ addCovered_only (Set.mem_singleton _) only_refl)
theorem on_modW {f} (h : LaneIn l c S) (H : On l c S s u) : On l c S s (modW c f u) :=
  on_keep H (T := {.ctx c}) (by rintro _ rfl; exact h.ctx) (fun e => nomatch e) (put_modW (Set.mem_singleton _) only_refl)

theorem cutAt_own (j : Nat) (why : BurstEnd) (b : Burst) : (cutAt j why b).ch = b.ch := by
  unfold cutAt; split <;> rfl
theorem on_cut {j why} (h : laneIn l S) (H : On l c S s u) : On l c S s (cut l j why u) := on_modB h (cutAt_own j why) H

/-! ### Reads -/

theorem on_readAcc {side a} (h : LaneIn l c S) (H : On l c S s u) : On l c S s (readAcc l side u a) := by
  unfold readAcc
  split
  · exact H
  · refine on_ite H (on_ite (on_cut h.lane H) ?_)
    dsimp only
    split
    · exact on_cut h.lane H
    · exact on_submit h H
theorem on_readSide {side accs} (h : LaneIn l c S) (H : On l c S s u) : On l c S s (readSide l side accs u) :=
  on_foldl _ (fun _ _ H => on_readAcc h H) H
theorem on_crossCut {base w offs} (h : LaneIn l c S) (H : On l c S s u) : On l c S s (crossCut u l base w offs) := by
  unfold crossCut
  split
  · exact H
  · split
    · exact on_cut h.lane H
    · exact H
theorem on_checkOnly {wr a} (h : LaneIn l c S) (H : On l c S s u) : On l c S s (checkOnly l wr u a) := by
  unfold checkOnly
  split
  · exact H
  · exact on_keep H (submitAreas_sub h.toSubmitIn) (lane_notMem_submit l) (enqueue_only submitIn_self.offered (beginLookup_only submitIn_self.toLookIn only_refl))
theorem on_startCopy (h : LaneIn l c S) (ht : .tags ∈ S) (H : On l c S s u) : On l c S s (startCopy l u) := by
  unfold startCopy
  split
  · exact H
  · dsimp only
    split
    · exact H
    · split
      · exact on_cut h.lane H
      · refine on_ite (on_cut h.lane H) (on_ite H (on_markTags ht (on_foldl _ (fun _ _ H => on_checkOnly h H) (on_foldl _ (fun _ _ H => on_checkOnly h H)
          (on_modB h.lane (fun _ => rfl) H)))))

theorem on_dispatch {k} (h : LaneIn l c S) (ht : .tags ∈ S) (H : On l c S s u) : On l c S s (dispatch l k u) := by
  unfold dispatch
  split
  · exact H
  · rename_i b hb
    refine on_ite (on_startCopy h ht (on_modB h.lane (fun _ => rfl) H)) ?_
    extract_lets s1 s2 s3 s4 s5 idx s6
    have H1 : On l c S s s1 := on_ite (on_crossCut h H) H
    have H2 : On l c S s s2 := on_ite (on_crossCut h H1) H1
    have H3 : On l c S s s3 := on_ite (on_readSide h H2) H2
    have H4 : On l c S s s4 := on_ite (on_readSide h H3) H3
    have H5 : On l c S s s5 := on_ite (on_readSide h H4) H4
    have H6 : On l c S s s6 := on_ite (on_readSide h H5) H5
    exact on_ite (on_modB h.lane (fun _ => rfl) H6) H6

/-! ### Data, writes and elements -/

theorem takePart_own (side : Side) (d : W128) (po : Bool) (parts : List Part) (b : Burst) :
    (parts.foldl (takePart side d po) b).ch = b.ch := by
  induction parts generalizing b with
  | nil => rfl
  | cons p parts ih => exact ih _
theorem on_laneData {side parts d po} (h : laneIn l S) (H : On l c S s u) : On l c S s (laneData l side parts d po u) :=
  on_modB h (takePart_own side d po parts) H
theorem on_laneFail {k parts blk} (h : laneIn l S) (H : On l c S s u) : On l c S s (laneFail l k parts blk u) := on_cut h H

theorem on_writeAcc {side a d po} (h : LaneIn l c S) (H : On l c S s u) : On l c S s (writeAcc l side a d po u) := by
  unfold writeAcc
  split
  · exact H
  · rename_i b hb
    dsimp only
    split
    · exact on_cut h.lane H
    · exact on_covered h (H.own b hb) (on_submit h H)

theorem on_flushWrites (h : LaneIn l c S) (n : Nat) (H : On l c S s u) : On l c S s (flushWrites l n u) := by
  induction n generalizing u with
  | zero => exact H
  | succ n ih =>
    unfold flushWrites
    split
    · exact H
    · split
      · exact H
      · exact on_ite (ih (on_modB h.lane (fun _ => rfl) H))
          (on_ite (ih (on_writeAcc h (on_modB h.lane (fun _ => rfl) H))) H)

theorem on_formIndexed (h : LaneIn l c S) (H : On l c S s u) : On l c S s (formIndexed l u) := by
  unfold formIndexed
  split
  · exact H
  · rename_i b hb
    refine on_ite H ?_
    extract_lets s1 off offs at_ place s2 s3 s4
    have H1 : On l c S s s1 := by
      simp only [s1]
      split
      · exact on_cut h.lane H
      · exact H
    have H2 : On l c S s s2 := on_modB h.lane (fun _ => rfl) H1
    exact on_ite (on_modB h.lane (fun _ => rfl) (on_crossCut h H2)) (on_readSide h (on_crossCut h H2))

theorem judge_own (j : Nat) (e : El) (b : Burst) : (judge j e b).ch = b.ch := by
  unfold judge cutAt
  dsimp only
  repeat' split
  all_goals rfl
theorem foldEl_own (r : CtxRegs) (j : Nat) (e : El) (b : Burst) : (foldEl r j e b).ch = b.ch := by
  unfold foldEl cutAt
  dsimp only
  repeat' split
  all_goals rfl

theorem on_readHolding {j} (h : LaneIn l c S) (H : On l c S s u) : On l c S s (readHolding l j u) := by
  unfold readHolding
  exact on_ite (on_uncorrected h (on_modB h.lane (fun _ => rfl) (on_setLane h.lane rfl H))) (on_ite (on_corrected h (on_setLane h.lane rfl H)) H)

theorem on_elideStep {j b e} {t : State} (h : LaneIn l c S) (H : On l c S s u) (ht : elideStep l j b e u = some t) : On l c S s t := by
  unfold elideStep at ht
  dsimp only at ht
  split at ht
  · split at ht
    · cases ht; exact on_cut h.lane H
    · split at ht
      · cases ht; exact on_cut h.lane H
      · cases ht
        exact on_readSide h (on_modB h.lane (fun _ => rfl) H)
  · have A := on_modB (f := fun b => { b with elide := .idle, nxt := j + 1, fD := true }) h.lane (fun _ => rfl) H
    cases hp : sameDest b j e.dst <;> simp only [hp] at ht <;>
    · split at ht
      · cases ht
      · split at ht
        · split at ht
          · cases ht; exact on_cut h.lane H
          · cases ht; exact A
        · cases ht
          exact on_modB h.lane (fun _ => rfl) (on_foldl _ (fun _ _ H => on_writeAcc h H) H)
  · split at ht
    · cases ht
    · cases ht
      refine on_modB h.lane (fun _ => rfl) (on_foldl _ (fun _ _ H => ?_) H)
      split
      · exact on_ite (on_writeAcc h H) H
      · exact H

/-! ### PUSH and POP, which their queue serves -/

theorem on_place {q it} (hq : ∀ q, QueueIn q S) (H : On l c S s u) : On l c S s (place q it u) :=
  on_keep H (T := {.queue q}) (by rintro _ rfl; exact (hq q).queue) (fun e => nomatch e) (place_only (Set.mem_singleton _) only_refl)
theorem on_take {q it} {t : State} (hq : ∀ q, QueueIn q S) (H : On l c S s u) (ht : take? q u = some (it, t)) : On l c S s t :=
  on_keep H (queueAreas_sub (hq q)) (lane_notMem_queue l _) (take_only (queueIn_self _) only_refl ht)

theorem on_pushEl {j b e} {t : State} (h : LaneIn l c S) (hq : ∀ q, QueueIn q S) (H : On l c S s u) (ht : pushEl l j b e u = some t) :
    On l c S s t := by
  unfold pushEl at ht
  dsimp only at ht
  split at ht
  · cases ht; exact on_cut h.lane H
  · split at ht
    · cases ht
    · split at ht
      · cases ht; exact on_modB h.lane (fun _ => rfl) (on_place hq H)
      · split at ht
        · cases ht; exact on_cut h.lane H
        · cases ht

theorem stop_own (j : Nat) (b : Burst) :
    (if b.limit = j + 1 then { b with why := .legEnd, onPacket := true } else { cutAt (j + 1) .legEnd b with onPacket := true }).ch = b.ch := by
  unfold cutAt
  repeat' split
  all_goals rfl
theorem on_popItem {j b it} (h : LaneIn l c S) (H : On l c S s u) : On l c S s (popItem l j b it u) := by
  unfold popItem
  exact on_ite (on_cut h.lane (on_modB h.lane (fun _ => rfl) H))
    (on_ite (on_modB h.lane (stop_own j) (on_modB h.lane (fun _ => rfl) H)) (on_modB h.lane (fun _ => rfl) H))

theorem on_popEl {j b} {t : State} (h : LaneIn l c S) (hq : ∀ q, QueueIn q S) (hb : b.ch = c) (H : On l c S s u) (ht : popEl l j b u = some t) :
    On l c S s t := by
  subst hb
  unfold popEl at ht
  dsimp only at ht
  split at ht
  · cases ht; exact on_cut h.lane H
  · cases ht; exact on_popItem h (on_modW h H)
  · split at ht
    · split at ht
      · cases ht; exact on_modB h.lane (fun _ => rfl) H
      · cases ht; exact on_cut h.lane H
    · split at ht
      · split at ht
        · cases ht; exact on_cut h.lane H
        · cases ht
      · rename_i it v hv
        cases ht; exact on_popItem h (on_take hq H hv)

theorem nextEl_burst {f : Bool} {b : Burst} {e : El} (h : nextEl u l f = some (b, e)) : burstOn u l = some b := by
  unfold nextEl at h
  split at h
  · cases h
  · rename_i b' hb
    split at h
    · cases h
    · split at h
      · split at h
        · cases h
        · cases h; exact hb
      · cases h

theorem on_queueStep (h : LaneIn l c S) (hq : ∀ q, QueueIn q S) (H : On l c S s u) : On l c S s (queueStep l u) := by
  unfold queueStep
  split
  · exact H
  · rename_i b0 _ _
    dsimp only
    have H1 : On l c S s (if usesSrc b0.leg then readHolding l b0.nxt u else u) := on_ite (on_readHolding h H) H
    generalize (if usesSrc b0.leg then readHolding l b0.nxt u else u) = v at H1 ⊢
    split
    · exact H1
    · rename_i b e hb
      have hc := H1.own b (nextEl_burst hb)
      split
      · cases hp : pushEl l b.nxt b e v with
        | none => exact H1
        | some t => exact on_pushEl h hq H1 hp
      · cases hp : popEl l b.nxt b v with
        | none => exact H1
        | some t => exact on_popEl h hq hc H1 hp

/-! ### The elements of the other legs -/

theorem on_elementStep {t : State} (h : LaneIn l c S) (H : On l c S s u) (ht : elementStep l u = some t) : On l c S s t := by
  unfold elementStep at ht
  split at ht
  · cases ht
  · rename_i b0 _ _
    dsimp only at ht
    have H1 : On l c S s (if usesSrc b0.leg then readHolding l b0.nxt u else u) := on_ite (on_readHolding h H) H
    generalize (if usesSrc b0.leg then readHolding l b0.nxt u else u) = v at H1 ht
    split at ht
    · cases ht
    · split at ht
      · split at ht
        · cases ht
        · cases ht; exact on_modB h.lane (judge_own _ _) H1
      · cases ht; exact on_modB h.lane (judge_own _ _) H1
      · cases ht; exact on_modB h.lane (foldEl_own _ _ _) H1
      · split at ht
        · exact on_elideStep h H1 ht
        · split at ht
          · cases ht; exact on_cut h.lane H1
          · cases ht; exact on_modB h.lane (fun _ => rfl) H1

theorem on_elementLoop (h : LaneIn l c S) (n : Nat) (H : On l c S s u) : On l c S s (elementLoop l n u) := by
  induction n generalizing u with
  | zero => exact H
  | succ n ih =>
    unfold elementLoop
    split
    · rename_i t ht
      exact ih (on_elementStep h H ht)
    · exact H

theorem on_resultWrite (h : LaneIn l c S) (H : On l c S s u) : On l c S s (resultWrite l u) := by
  unfold resultWrite
  split
  · exact H
  · rename_i b hb
    have hc := H.own b hb
    have H1 := on_modB (f := fun b => { b with resDone := true }) h.lane (fun _ => rfl) H
    refine on_ite H (on_ite H1 (on_ite (on_modB h.lane (fun _ => rfl) H1) ?_))
    refine on_foldl _ (fun v a H => ?_) (on_modB h.lane (fun _ => rfl) H1)
    dsimp only
    split
    · exact on_modB h.lane (fun _ => rfl) H
    · exact on_covered h hc (on_submit h H)

/-- A lane that goes on changes its lane and its channel's covered counts. -/
theorem on_advance (h : LaneIn l c S) (H : On l c S s u) : On l c S s (advance l u) := by
  unfold advance
  split
  · exact H
  · exact on_resultWrite h (on_flushWrites h _ (on_elementLoop h _ (on_formIndexed h H)))

theorem advance_only (h : ∀ b, burstOn u l = some b → LaneIn l b.ch S) (H : Only S s u) : Only S s (advance l u) := by
  cases hb : burstOn u l with
  | none => unfold advance; rw [hb]; exact H
  | some b =>
    exact (on_advance (h b hb) ⟨H, fun a ha => by rw [hb] at ha; cases ha; rfl⟩).only
/-- The same of a lane that starts a copy, or whose queue serves it. -/
theorem startCopy_only (h : ∀ b, burstOn u l = some b → LaneIn l b.ch S) (ht : .tags ∈ S) (H : Only S s u) : Only S s (startCopy l u) := by
  cases hb : burstOn u l with
  | none => unfold startCopy; rw [hb]; exact H
  | some b => exact (on_startCopy (h b hb) ht ⟨H, fun a ha => by rw [hb] at ha; cases ha; rfl⟩).only
theorem queueStep_only (h : ∀ b, burstOn u l = some b → LaneIn l b.ch S) (hq : ∀ q, QueueIn q S) (H : Only S s u) : Only S s (queueStep l u) := by
  cases hb : burstOn u l with
  | none => unfold queueStep nextEl; rw [hb]; exact H
  | some b => exact (on_queueStep (h b hb) hq ⟨H, fun a ha => by rw [hb] at ha; cases ha; rfl⟩).only

/-- A lane's own update keeps whose burst it runs. -/
theorem burstOn_own {f : Burst → Burst} (hf : ∀ b, (f b).ch = b.ch)
    (h : ∀ b, burstOn u l = some b → LaneIn l b.ch S) : ∀ b, burstOn (modB l f u) l = some b → LaneIn l b.ch S := by
  intro b hb
  rw [burstOn_modB] at hb
  obtain ⟨a, ha, rfl⟩ := Option.map_eq_some_iff.mp hb
  rw [hf a]; exact h a ha

end Sys2Proof.Laws
end

