-- ==== Sys2Proof/Laws/FrameFab.lean ====
section
/-! SUPPORT. The frames of the field-book writer, of the router's operations and of the root's work. -/

namespace Sys2Proof.Laws
open Sys2Proof.Machine

variable {S : Set Area} {s u : State}

/-- What sending frames changes: the lookup of a route besides. -/
structure SendIn (S : Set Area) : Prop extends CheckIn S where
  fab : .fab ∈ S
  link : ∀ p, .link p ∈ S
/-- What the accesses and frames of the router and the root change. -/
structure FabIn (S : Set Area) : Prop extends SendIn S where
  offered : .offered ∈ S
  outst : .outst ∈ S
  out : .out ∈ S
  tele : .tele ∈ S
/-- What a book's writer changes. -/
structure BookIn (b : Nat) (S : Set Area) : Prop extends SubmitIn S where
  book : .book b ∈ S
  tele : .tele ∈ S

theorem FabIn.submit (h : FabIn S) : SubmitIn S := ⟨h.toLookIn, h.offered⟩

/-! ### The field books -/

theorem writeRecord_only {b r} (h : BookIn b S) (H : Only S s u) : Only S s (writeRecord b r u) :=
  blockEnergy_only h.tele (submit_only h.toSubmitIn (submit_only h.toSubmitIn (put_setBook h.book H)))
theorem takeLost_only {b} (h : BookIn b S) (H : Only S s u) : Only S s (takeLost b u) := writeRecord_only h (put_setBook h.book H)
theorem released_only {c} (h : FaultIn c S) (H : Only S s u) : Only S s (released c u) := by
  unfold released; split
  · exact finishTo_only h H
  · exact only_ite (afterPark_only h.toSeqIn H) H
  · exact H
theorem acceptHeld_only (h : .heldRecs ∈ S) (hs : .staged ∈ S) (hr : .recClk ∈ S) (hc : ∀ c, FaultIn c S) (H : Only S s u) :
    Only S s (acceptHeld u) := by
  unfold acceptHeld
  refine only_ite H ?_
  split
  · exact H
  · have H1 := fun p r x => accept_only (p := p) (r := r) hs hr (put_heldRecs (x := x) h H)
    dsimp only
    split
    · exact only_ite (H1 _ _ _) (released_only (hc _) (H1 _ _ _))
    · exact H1 _ _ _
theorem taken_only (h : .recClk ∈ S) (H : Only S s u) : Only S s (taken u) := put_recClk h H
theorem takeRecord_only (h : ∀ b, BookIn b S) (hs : .staged ∈ S) (hr : .recClk ∈ S) (H : Only S s u) : Only S s (takeRecord u) := by
  unfold takeRecord
  split
  · split
    · exact takeLost_only (h _) (taken_only hr H)
    · exact H
  · have H1 := fun x => taken_only hr (put_staged (x := x) hs H)
    exact only_ite H (only_ite (takeLost_only (h _) (taken_only hr H))
      (only_ite (put_setBook (h _).book (H1 _)) (only_ite (put_setBook (h _).book (H1 _)) (writeRecord_only (h _) (H1 _)))))
theorem recordDone_only {b} (h : .book b ∈ S) (H : Only S s u) : Only S s (recordDone b u) := markCount_only (put_setBook h H)
theorem recordFailed_only {b} (h : .book b ∈ S) (ho : .offered ∈ S) (H : Only S s u) : Only S s (recordFailed b u) :=
  markSet_only (put_setBook h (put_offered ho H))
theorem recordFirst_only {b} (h : .book b ∈ S) (H : Only S s u) : Only S s (recordFirst b u) := by
  unfold recordFirst
  split
  · exact H
  · exact put_setBook h H
theorem enableBook_only {b} (h : .book b ∈ S) (H : Only S s u) : Only S s (enableBook b u) :=
  only_ite H (only_ite (put_setBook h H) (put_setBook h H))
theorem writeRidx_only {b v} (h : .book b ∈ S) (H : Only S s u) : Only S s (writeRidx b v u) :=
  only_ite (put_setBook h H) (markSet_only (put_setBook h H))

/-! ### Frames -/

theorem fabRec_only {t k n d w} (h : RecIn S) (H : Only S s u) : Only S s (fabRec t k n d w u) := only_ite (offerNow_only h H) H
theorem lookRoute_only {n} (h : CheckIn S) (H : Only S s u) : Only S s (lookRoute n u).1 :=
  only_ite (uncorrected_only h.toErrIn H) (foundSoft_only h H)
theorem queueTx_only {p t} (h : .link p ∈ S) (H : Only S s u) : Only S s (queueTx p t u) := put_modP h H
theorem queueFrame_only {p f} (h : .link p ∈ S) (H : Only S s u) : Only S s (queueFrame p f u) := queueTx_only h H
theorem owe_only {p w} (h : .link p ∈ S) (H : Only S s u) : Only S s (owe p w u) := put_modP h H
theorem freeFlits_only {a f} (h : ∀ p, .link p ∈ S) (H : Only S s u) : Only S s (freeFlits a f u) := by
  unfold freeFlits; split
  · exact only_ite (owe_only (h _) H) H
  · exact H
theorem refuse_only {a d sr r} (h : RecIn S) (hf : .fab ∈ S) (H : Only S s u) : Only S s (refuse a d sr r u) :=
  have H1 := put_fab (x := { u.fab with refused := sat32 u.fab.refused, noroute := u.fab.noroute || r == 0, ttlx := u.fab.ttlx || r == 1,
                                        badkind := u.fab.badkind || r == 2 }) hf rfl rfl H
  only_ite (markSet_only H1) (fabRec_only h (markSet_only H1))
theorem sendFrame_only {f} (h : SendIn S) (H : Only S s u) : Only S s (sendFrame f u).1 := by
  unfold sendFrame
  have H1 := lookRoute_only (n := f.hdr.dst.toNat) h.toCheckIn H
  generalize lookRoute f.hdr.dst.toNat u = r at H1
  split
  · exact H
  · split
    · exact queueFrame_only (h.link _) H1
    · exact refuse_only h.toRecIn h.fab H1
theorem sendPath_only {p f} (h : ∀ p, .link p ∈ S) (H : Only S s u) : Only S s (sendPath p f u) := by
  unfold sendPath
  split
  · exact only_ite (queueFrame_only (h _) H) H
  · exact H

/-! ### Outbound accesses -/

theorem lateRecord_only {c f k r a} (h : RecIn S) (H : Only S s u) : Only S s (lateRecord c f k r a u) := offerNow_only h H
theorem writeFails_only {c r n k f a} (h : FaultIn c S) (H : Only S s u) : Only S s (writeFails c r n k f a u) := by
  unfold writeFails
  refine only_ite (lateRecord_only h.toRecIn H) (only_ite (raiseFault_only h H) (lateRecord_only h.toRecIn (raiseFault_only h H)))
theorem loadPart_only {c p d q} (h : .ctx c ∈ S) (H : Only S s u) : Only S s (loadPart c p d q u) := put_modW h H
theorem loadFails_only {c k a} (h : .ctx c ∈ S) (H : Only S s u) : Only S s (loadFails c k a u) := put_modW h H
theorem takeOut_only {t} (h : .out ∈ S) (H : Only S s u) : Only S s (takeOut t u) := put_out h H
theorem dropCoveredN_only {n c} (h : .ctx c ∈ S) (H : Only S s u) : Only S s (outFails.dropCoveredN n c u) := by
  induction n generalizing u with
  | zero => exact H
  | succ n ih => exact ih (dropCovered_only h H)

theorem accDone_only {ch n} (h : ∀ c r m, ch = some (c, r, m) → .ctx c ∈ S) (H : Only S s u) : Only S s (accDone ch n u) := by
  unfold accDone; split
  · exact noteAcc_only (h _ _ _ rfl) H
  · exact H

/-- What the end of an access changes: the channel whose access it is, and for a lane's access that lane with its
burst. -/
structure EndsIn (o : Owner) (ch : Option (Nat × Nat × Nat)) (u : State) (S : Set Area) : Prop where
  ch : ∀ c r n, ch = some (c, r, n) → FaultIn c S
  load : ∀ c, o = .load c → .ctx c ∈ S
  store : ∀ c, o = .store c → FaultIn c S
  lane : ∀ l side, o = .lane l side → laneIn l S
  own : ∀ l side, o = .lane l side → ∀ b, burstOn u l = some b → LaneIn l b.ch S

theorem EndsIn.done {o ch n} {v : State} (h : EndsIn o ch v S) (H : Only S s u) : Only S s (accDone ch n u) :=
  accDone_only (fun _ _ _ e => (h.ch _ _ _ e).ctx) H

theorem outFails_only {f n k} (h : EndsIn f.owner f.ch u S) (H : Only S s u) : Only S s (outFails f n k u) := by
  unfold outFails
  refine h.done (only_ite H ?_)
  split
  · rename_i l side c r m ho hc
    have hF := h.ch c r m hc
    have hl := h.own l side ho
    split
    · exact writeFails_only hF (dropCoveredN_only hF.ctx H)
    · split
      · exact advance_only (burstOn_own (cutAt_own _ _) hl) (put_setLane (h.lane l side ho) H)
      · exact H
  · exact loadFails_only (h.load _ ‹_›) H
  · rename_i c _ _ _ ho _
    have hF := h.store c ho
    exact writeFails_only hF (dropCovered_only hF.ctx H)
  · exact H
theorem outAccepted_only {f} (h : ∀ c r n, f.ch = some (c, r, n) → .ctx c ∈ S) (H : Only S s u) : Only S s (outAccepted f u) := by
  unfold outAccepted
  split
  · rename_i c r n hc
    exact accDone_only h (only_foldl _ (fun _ _ H => dropCovered_only (h c r n hc) H) H)
  · exact H
theorem outData_only {f d q} (h : EndsIn f.owner f.ch u S) (H : Only S s u) : Only S s (outData f d q u) := by
  unfold outData
  refine h.done (only_ite H ?_)
  dsimp only
  split
  · rename_i l side ho
    exact advance_only (burstOn_own (takePart_own _ _ _ _) (h.own l side ho)) (put_setLane (h.lane l side ho) H)
  · exact loadPart_only (h.load _ ‹_›) H
  · exact H

/-- Every channel, lane and queue may change, with the router and its links. -/
structure AnyIn (S : Set Area) : Prop extends FabIn S where
  leg : ∀ c, LegIn c S
  queue : ∀ q, .queue q ∈ S
  spill : .spill ∈ S

theorem AnyIn.laneIn (h : AnyIn S) (l c : Nat) : LaneIn l c S := ⟨h.toErrIn, h.submit, (h.leg c).lane l, (h.leg c).ctx⟩
theorem AnyIn.queueIn (h : AnyIn S) (q : Nat) : QueueIn q S := ⟨h.toErrIn, h.submit, h.queue q, h.spill⟩
theorem AnyIn.ends (h : AnyIn S) (o : Owner) (ch : Option (Nat × Nat × Nat)) (u : State) : EndsIn o ch u S :=
  ⟨fun c _ _ _ => (h.leg c).toFaultIn, fun c _ => (h.leg c).ctx, fun c _ => (h.leg c).toFaultIn, fun l _ _ => (h.leg 0).lane l,
    fun _ _ _ _ _ => h.laneIn _ _⟩

theorem unroutable_only {t} (h : AnyIn S) (H : Only S s u) : Only S s (unroutable t u) := by
  have H1 := freeFlits_only (a := t.arr) (f := t.f) h.link
    (refuse_only (a := t.arr.getD 0) (d := t.f.hdr.dst.toNat) (sr := t.f.hdr.src.toNat) (r := 0) h.toRecIn h.fab H)
  unfold unroutable
  dsimp only
  refine only_ite ?_ ?_
  · split
    · exact outFails_only (h.ends _ _ _) (takeOut_only h.out H1)
    · exact H1
  · split
    · exact sendFrame_only h.toSendIn H1
    · exact sendFrame_only h.toSendIn H1
    · exact sendFrame_only h.toSendIn H1
    · exact H1
theorem routeTx_only {t} (h : AnyIn S) (H : Only S s u) : Only S s (routeTx t u) := by
  unfold routeTx
  have H1 := lookRoute_only (n := t.f.hdr.dst.toNat) h.toCheckIn H
  generalize lookRoute t.f.hdr.dst.toNat u = r at H1
  split
  · exact queueTx_only (h.link _) H1
  · exact unroutable_only h H1
theorem routeFrame_only {f} (h : AnyIn S) (H : Only S s u) : Only S s (routeFrame f u) := routeTx_only h H

/-- A frame that is forwarded ends no access of this node when it finds no way. -/
theorem forwarded_only {t} (ht : t.own = false) (h : SendIn S) (H : Only S s u) : Only S s (routeTx t u) := by
  unfold routeTx
  have H1 := lookRoute_only (n := t.f.hdr.dst.toNat) h.toCheckIn H
  generalize lookRoute t.f.hdr.dst.toNat u = r at H1
  split
  · exact queueTx_only (h.link _) H1
  · rename_i v _
    have H2 := freeFlits_only (a := t.arr) (f := t.f) h.link
      (refuse_only (a := t.arr.getD 0) (d := t.f.hdr.dst.toNat) (sr := t.f.hdr.src.toNat) (r := 0) h.toRecIn h.fab H1)
    unfold unroutable
    dsimp only
    rw [if_neg (by simp [ht])]
    split
    · exact sendFrame_only h H2
    · exact sendFrame_only h H2
    · exact sendFrame_only h H2
    · exact H2

/-! ### Inbound accesses -/

theorem respond_only {i b} (h : SendIn S) (H : Only S s u) : Only S s (respond i b u) := sendFrame_only h H
theorem inboundEnd_only {id} (h : SendIn S) (H : Only S s u) : Only S s (inboundEnd id u) := by
  unfold inboundEnd
  split
  · exact H
  · have H1 := put_fab (x := { u.fab with inb := u.fab.inb.filter (fun j => j.id != id) }) h.fab rfl rfl H
    refine only_ite H (only_ite H1 ?_)
    split
    · exact respond_only h H1
    · exact respond_only h H1
theorem inboundUnit_only {id n f d q} (h : SendIn S) (H : Only S s u) : Only S s (inboundUnit id n f d q u) :=
  inboundEnd_only h (put_fab h.fab rfl rfl H)
theorem inboundOffer_only {id hd wr blk n m d q} (h : SubmitIn S) (H : Only S s u) : Only S s (inboundOffer id hd wr blk n m d q u) :=
  enqueue_only h.offered (beginLookup_only h.toLookIn H)
theorem inboundStart_only {p hd a t wr n} (h : .fab ∈ S) (ht : .tele ∈ S) (H : Only S s u) : Only S s (inboundStart p hd a t wr n u).1 :=
  blockEnergy_only ht (put_fab h rfl rfl H)

/-! ### The root's work -/

theorem setSurvey_only {f} (h : .fab ∈ S) (H : Only S s u) : Only S s (setSurvey f u) := put_fab h rfl rfl H
theorem setLoad_only {f} (h : .fab ∈ S) (H : Only S s u) : Only S s (setLoad f u) := put_fab h rfl rfl H
theorem endSurvey_only {k} (h : SendIn S) (H : Only S s u) : Only S s (endSurvey k u) :=
  fabRec_only h.toRecIn (put_fab h.fab rfl rfl (setSurvey_only h.fab H))
theorem surveyOver_only (h : SendIn S) (H : Only S s u) : Only S s (surveyOver u) := only_ite (endSurvey_only h H) H
theorem writeMap_only {n e v} (h : SubmitIn S) (H : Only S s u) : Only S s (writeMap n e v u) :=
  submit_only h (submit_only h H)
theorem sendSv_only {p a i} (h : ∀ p, .link p ∈ S) (H : Only S s u) : Only S s (sendSv p a i u) := sendPath_only h H
theorem walk_only (h : SendIn S) (n : Nat) (H : Only S s u) : Only S s (walk n u) := by
  induction n generalizing u with
  | zero => exact H
  | succ n ih =>
    unfold walk
    split
    · exact surveyOver_only h H
    · refine only_ite (ih (setSurvey_only h.fab H)) ?_
      have H1 := fun f => setSurvey_only (f := f) h.fab H
      exact only_ite (ih (H1 _)) (only_ite (ih (setSurvey_only h.fab (H1 _))) (sendSv_only h.link (setSurvey_only h.fab (H1 _))))
theorem walkOn_only (h : SendIn S) (H : Only S s u) : Only S s (walkOn u) := walk_only h _ H
theorem mapNode_only {p i w a wt wl ps} (h : FabIn S) (H : Only S s u) : Only S s (mapNode p i w a wt wl ps u) := by
  unfold mapNode
  extract_lets s1 e sv s2 s3 s4
  have H3 : Only S s s3 := setSurvey_only h.fab (put_fab h.fab rfl rfl (sendSv_only h.link H))
  have H4 : Only S s s4 := only_ite (fabRec_only h.toRecIn H3) H3
  clear_value s4
  exact walkOn_only h.toSendIn (writeMap_only h.submit H4)
theorem svrCame_only {p w i v wt wv a ps} (h : FabIn S) (H : Only S s u) : Only S s (svrCame p w i v wt wv a ps u) := by
  unfold svrCame
  have H1 := fun f => setSurvey_only (f := f) h.fab H
  refine only_ite (walkOn_only h.toSendIn (H1 _)) ?_
  dsimp only
  split
  · exact mapNode_only h (H1 _)
  · exact walkOn_only h.toSendIn (setSurvey_only h.fab (H1 _))
theorem startSurvey_only (h : FabIn S) (H : Only S s u) : Only S s (startSurvey u) := by
  unfold startSurvey
  extract_lets me sv s1 s2
  have H2 : Only S s s2 := setSurvey_only h.fab (put_fab h.fab rfl rfl H)
  clear_value s2
  exact walkOn_only h.toSendIn (writeMap_only h.submit H2)
theorem nextNote_only (h : SendIn S) (H : Only S s u) : Only S s (nextNote u) := by
  unfold nextNote
  split
  · exact H
  · split
    · exact H
    · have H1 := fun f => setSurvey_only (f := f) h.fab H
      dsimp only
      split
      · split
        · exact sendSv_only h.link (setSurvey_only h.fab (H1 _))
        · exact H1 _
      · split
        · exact only_ite (walkOn_only h (setSurvey_only h.fab (setSurvey_only h.fab (H1 _))))
            (sendSv_only h.link (setSurvey_only h.fab (setSurvey_only h.fab (H1 _))))
        · exact H1 _
theorem leaveEnds_only {n a} (h : FabIn S) (H : Only S s u) : Only S s (leaveEnds n a u) := by
  unfold leaveEnds
  have H1 := fun f => setSurvey_only (f := f) h.fab H
  refine only_ite (H1 _) ?_
  split
  · exact H1 _
  · exact fabRec_only h.toRecIn (writeMap_only h.submit (put_fab h.fab rfl rfl (H1 _)))
theorem endLoad_only {k} (h : FabIn S) (H : Only S s u) : Only S s (endLoad k u) :=
  setLoad_only h.fab (orphanReads_only h.offered h.outst h.out H)
theorem readImage_only (h : FabIn S) (H : Only S s u) : Only S s (readImage u) :=
  only_foldl _ (fun _ _ H => submit_only h.submit H) (setLoad_only h.fab H)
theorem startLoad_only {n i} (h : FabIn S) (H : Only S s u) : Only S s (startLoad n i u) :=
  only_ite (readImage_only h (setLoad_only h.fab H)) (endLoad_only h (setLoad_only h.fab H))
theorem sendRl_only (h : FabIn S) (H : Only S s u) : Only S s (sendRl u) := by
  unfold sendRl
  dsimp only
  split
  · exact endLoad_only h H
  · exact sendPath_only h.link (setLoad_only h.fab H)
theorem imageBlock_only {n i d} (h : FabIn S) (H : Only S s u) : Only S s (imageBlock n i d u) :=
  only_ite H (only_ite (sendRl_only h (setLoad_only h.fab H)) (setLoad_only h.fab H))
theorem rlAnswered_only {o} (h : FabIn S) (H : Only S s u) : Only S s (rlAnswered o u) :=
  only_ite (endLoad_only h H) (only_ite (endLoad_only h H) (readImage_only h (setLoad_only h.fab H)))

end Sys2Proof.Laws
end

