-- ==== Sys2Proof/Laws/FrameEnds.lean ====
section
/-! SUPPORT. The frames of the ends of accesses, by their owner, and of the grant and the return of bursts. -/

namespace Sys2Proof.Laws
open Sys2Proof.Machine

variable {S : Set Area} {s u : State}

/-! ### Spill accesses and debug accesses -/

theorem sendHeader_only {q n p k} (h : QueueIn q S) (H : Only S s u) : Only S s (sendHeader q n p k u) :=
  submit_only h.toSubmitIn (put_modQ h.queue H)
theorem spillDone_only {q n p k} (h : .queue q ∈ S) (H : Only S s u) : Only S s (spillDone q n p k u) := put_modQ h H
theorem listRead_only {q n} (h : QueueIn q S) (H : Only S s u) : Only S s (listRead q n u) := by
  unfold listRead
  split
  · dsimp only
    split
    · exact takePage_only h (endListRead_only h.toSubmitIn h.spill (put_modQ h.queue (put_spill h.spill H)))
    · exact allocFails_only h (endListRead_only h.toSubmitIn h.spill (put_spill h.spill H))
  · exact H
theorem refillRead_only {q op d po} (h : .queue q ∈ S) (H : Only S s u) : Only S s (refillRead q op d po u) := by
  unfold refillRead
  split
  · exact only_ite (refillDone_only h H) (put_modQ h H)
  · exact H
theorem spillReadEnd_only {q op d po} (h : QueueIn q S) (H : Only S s u) : Only S s (spillReadEnd q op d po u) := by
  unfold spillReadEnd
  split
  · exact listRead_only h H
  · exact refillRead_only h.queue H
  · exact refillRead_only h.queue H
  · exact H
theorem spillWriteEnd_only {q op ok a} (h : QueueIn q S) (H : Only S s u) : Only S s (spillWriteEnd q op ok a u) := by
  unfold spillWriteEnd
  split
  · exact only_ite (spillFails_only h H) (only_ite (sendHeader_only h H) (put_modQ h.queue H))
  · exact only_ite (spillDone_only h.queue H) (spillFails_only h H)
  · exact H
theorem debugReturn_only (h : .dbg ∈ S) (n : Nat) (H : Only S s u) : Only S s (debugReturn n u) := by
  induction n generalizing u with
  | zero => exact H
  | succ n ih =>
    unfold debugReturn
    split
    · split
      · exact ih (put_dbg h H)
      · exact H
    · exact H
theorem debugEnd_only {i d e p} (h : .dbg ∈ S) (H : Only S s u) : Only S s (debugEnd i d e p u) :=
  debugReturn_only h _ (put_dbg h H)

/-! ### Every owner -/

/-- What the end of access a changes. -/
structure AccIn (a : Acc) (u : State) (S : Set Area) : Prop extends EndsIn a.owner a.ch u S where
  cov : ∀ l side, a.owner = .lane l side → .ctx (chOf a).1 ∈ S
  spill : ∀ q op, a.owner = .spill q op → QueueIn q S
  img : ∀ n i, a.owner = .imgRd n i → FabIn S
  inb : ∀ i n, a.owner = .inbound i n → SendIn S
  map : a.owner = .mapWr → SendIn S
  dbg : ∀ i, a.owner = .debug i → .dbg ∈ S
  record : ∀ b x, a.owner = .record b x → .book b ∈ S ∧ .offered ∈ S

theorem AnyIn.acc (h : AnyIn S) (hd : .dbg ∈ S) (hb : ∀ b, .book b ∈ S) (a : Acc) (u : State) : AccIn a u S :=
  ⟨h.ends _ _ _, fun _ _ _ => (h.leg _).ctx, fun q _ _ => h.queueIn q, fun _ _ _ => h.toFabIn, fun _ _ _ => h.toSendIn, fun _ => h.toSendIn,
    fun _ _ => hd, fun b _ _ => ⟨hb b, h.offered⟩⟩

theorem mapWritten_only {ok} (h : SendIn S) (H : Only S s u) : Only S s (mapWritten ok u) :=
  only_ite H (nextNote_only h (only_ite (surveyOver_only h H) (endSurvey_only h H)))

theorem readEnd_only {a r} (h : AccIn a u S) (H : Only S s u) : Only S s (readEnd a r u) := by
  unfold readEnd
  refine h.done (only_ite H ?_)
  split
  · rename_i l side ho
    have hl := h.own l side ho
    have hL := h.lane l side ho
    split
    · exact advance_only (burstOn_own (takePart_own _ _ _ _) hl) (put_setLane hL H)
    · exact advance_only (burstOn_own (cutAt_own _ _) hl) (put_setLane hL H)
  · split
    · exact loadPart_only (h.load _ ‹_›) H
    · exact loadFails_only (h.load _ ‹_›) H
  · exact spillReadEnd_only (h.spill _ _ ‹_›) H
  · split
    · exact imageBlock_only (h.img _ _ ‹_›) H
    · exact only_ite (endLoad_only (h.img _ _ ‹_›) H) H
  · split
    · exact inboundUnit_only (h.inb _ _ ‹_›) H
    · exact inboundUnit_only (h.inb _ _ ‹_›) H
  · split
    · exact debugEnd_only (h.dbg _ ‹_›) H
    · exact debugEnd_only (h.dbg _ ‹_›) H
  all_goals exact H

/-- A lane's update, when its channel's covered counts have changed before it. -/
theorem own_dropCovered {l c : Nat} {x : Bool} (h : ∀ b, burstOn u l = some b → LaneIn l b.ch S) :
    ∀ b, burstOn (dropCovered c x u) l = some b → LaneIn l b.ch S := h

theorem writeEnd_only {a ok} (h : AccIn a u S) (H : Only S s u) : Only S s (writeEnd a ok u) := by
  unfold writeEnd
  refine h.done ?_
  split
  · rename_i l side ho
    have hl := h.own l side ho
    have hL := h.lane l side ho
    have hc := h.cov l side ho
    dsimp only
    have H1 : Only S s (dropCovered (chOf a).1 true u) := dropCovered_only hc H
    have hl1 := own_dropCovered (c := (chOf a).1) (x := true) hl
    generalize dropCovered (chOf a).1 true u = v at H1 hl1
    split
    · exact advance_only hl1 H1
    · split
      · exact advance_only (burstOn_own (fun _ => rfl) hl1) (put_setLane hL H1)
      · exact advance_only (burstOn_own (cutAt_own _ _) hl1) (put_setLane hL H1)
  · rename_i c ho
    have hF := h.store c ho
    exact only_ite (dropCovered_only hF.ctx H) (writeFails_only hF (dropCovered_only hF.ctx H))
  · exact only_ite H (spillWriteEnd_only (h.spill _ _ ‹_›) H)
  · rename_i b x ho
    have hb := h.record b x ho
    exact only_ite H (only_ite (recordFailed_only hb.1 hb.2 H) (only_ite (recordDone_only hb.1 H) (recordFirst_only hb.1 H)))
  · exact mapWritten_only (h.map ‹_›) H
  · exact inboundUnit_only (h.inb _ _ ‹_›) H
  · exact debugEnd_only (h.dbg _ ‹_›) H
  all_goals exact H

/-- The other part of an element is taken out: the accesses that wait, and its channel's covered count. -/
theorem dropDest_only {l c ps} (ho : .offered ∈ S) (hc : .ctx c ∈ S) (H : Only S s u) : Only S s (dropDest l c ps u) :=
  only_foldl _ (fun _ _ H => dropCovered_only hc H) (put_offered ho H)
theorem burstOn_dropDest (u : State) (l c k : Nat) (ps : List Part) : burstOn (dropDest l c ps u) k = burstOn u k := by
  have h : lane (dropDest l c ps u) k = lane u k :=
    dropDest_only (S := {.offered, .ctx c}) (.inl rfl) (.inr rfl) only_refl (.lane k) (by rintro (h | h) <;> cases h)
  unfold burstOn; rw [h]

theorem denyAcc_only {a k} (h : AccIn a u S) (ho' : .offered ∈ S) (H : Only S s u) : Only S s (denyAcc a k u) := by
  unfold denyAcc
  extract_lets at_ v
  have H0 : Only S s v := put_offered ho' H
  clear_value at_
  have own : ∀ l side, a.owner = .lane l side → ∀ b, burstOn v l = some b → LaneIn l b.ch S := h.own
  clear_value v
  split
  · rename_i l side ho
    have hL := h.lane l side ho
    have hc := h.cov l side ho
    have hl := own l side ho
    dsimp only
    have X : Only S s (if (a.wr && !a.only) = true then dropCovered (chOf a).1 true v else v) ∧
        ∀ b, burstOn (if (a.wr && !a.only) = true then dropCovered (chOf a).1 true v else v) l = some b → LaneIn l b.ch S := by
      split
      · exact ⟨dropCovered_only hc H0, hl⟩
      · exact ⟨H0, hl⟩
    generalize (if (a.wr && !a.only) = true then dropCovered (chOf a).1 true v else v) = v1 at X
    have Y : Only S s (if k = 4 then dropDest l (chOf a).1 a.parts v1 else v1) ∧
        ∀ b, burstOn (if k = 4 then dropDest l (chOf a).1 a.parts v1 else v1) l = some b → LaneIn l b.ch S := by
      split
      · exact ⟨dropDest_only ho' hc X.1, fun b hb => X.2 b (by rw [burstOn_dropDest] at hb; exact hb)⟩
      · exact X
    generalize (if k = 4 then dropDest l (chOf a).1 a.parts v1 else v1) = v2 at Y
    refine h.done ?_
    split
    · exact advance_only (burstOn_own (fun _ => rfl) Y.2) (put_setLane hL Y.1)
    · exact advance_only (burstOn_own (cutAt_own _ _) Y.2) (put_setLane hL Y.1)
  · exact loadFails_only (h.load _ ‹_›) H0
  · rename_i c ho
    have hF := h.store c ho
    exact raiseFault_only hF (dropCovered_only hF.ctx H0)
  · exact only_ite (spillWriteEnd_only (h.spill _ _ ‹_›) H0) (spillReadEnd_only (h.spill _ _ ‹_›) H0)
  · rename_i b x ho
    have hb := (h.record b x ho).1
    split
    · exact put_setBook hb (only_ite H0 (put_offered ho' H0))
    · exact H0
  · exact mapWritten_only (h.map ‹_›) H0
  · exact only_ite (endLoad_only (h.img _ _ ‹_›) H0) H0
  · exact inboundUnit_only (h.inb _ _ ‹_›) H0
  · exact debugEnd_only (h.dbg _ ‹_›) H0

theorem freeTag_only {t} (h : .outst ∈ S) (H : Only S s u) : Only S s (freeTag t u) := put_outst h H

theorem loadReturn_only {c} (h : FaultIn c S) (H : Only S s u) : Only S s (loadReturn c u) := by
  unfold loadReturn
  dsimp only
  refine only_ite H ?_
  split
  · exact raiseFault_only h H
  · exact only_ite H (only_ite (raiseFault_only h H) (finish_only h (put_modR h.ctx H)))
theorem addEnergy_only {c e b} (h : .ctx c ∈ S) (ht : .tele ∈ S) (H : Only S s u) : Only S s (addEnergy c e b u) :=
  put_tele ht (put_modR h H)

/-! ### Bursts -/

theorem grant_only (h : ∀ l c, nextGrant u = some (l, c) → LaneIn l c S) (hr : .rr ∈ S) (ht : .tags ∈ S)
    (H : Only S s u) : Only S s (grant u) := by
  unfold grant
  split
  · exact H
  · rename_i l c hg
    have hL := h l c hg
    refine markTags_only ht (on_advance hL (on_dispatch hL ht ?_)).only
    refine ⟨put_rr hr (put_modW hL.ctx (put_setLane hL.lane H)), fun b hb => ?_⟩
    have : burstOn (setLane l { lane u l with burst := some (newBurst u c) } u) l = some (newBurst u c) := by
      simp [burstOn, lane, setLane, tget_tset_self]
    have hb' : burstOn (setLane l { lane u l with burst := some (newBurst u c) } u) l = some b := hb
    rw [this] at hb'; cases hb'; rfl

theorem legEnds_only {c} (h : LegIn c S) (H : Only S s u) : Only S s (legEnds c u) := dataDone_only h (put_modR h.ctx H)
theorem halfEvent_only {c b} (h : LegIn c S) (H : Only S s u) : Only S s (halfEvent c b u) :=
  only_ite (put_modW h.ctx (legEvent_only h.toRecIn h.evo H)) H

theorem burstStatus_only {c} {b : Burst} (h : LegIn c S) (H : Only S s u) : Only S s (burstStatus c b u) := by
  unfold burstStatus
  have I : Only S s (modW c (fun w => { w with phase := .idle }) u) := put_modW h.ctx H
  dsimp only
  split
  · exact I
  · exact raiseFault_only h.toFaultIn H
  · exact only_ite I (goHeld_only h.ctx h.power (put_modW h.ctx H))
  · exact only_ite I (toBoundary_only h.ctx (put_modW h.ctx H))
  · exact only_ite I (only_ite (enterWait_only h.ctx (put_modW h.ctx H)) (enterWait_only h.ctx (put_modW h.ctx H)))
  · exact legEnds_only h H
  · exact only_ite (legEnds_only h H) (only_ite I (toBoundary_only h.ctx H))

theorem applyReturn_only {l} {b : Burst} (h : LegIn b.ch S) (ht : .tele ∈ S) (H : Only S s u) : Only S s (applyReturn l b u) := by
  unfold applyReturn
  extract_lets c s0 y s1 s2 s3 x s4
  have H0 : Only S s s0 := orphanReads_only h.offered h.outst h.out H
  have H1 : Only S s s1 := put_modW h.ctx (put_setLane (h.lane l) H0)
  clear_value s1
  have H2 : Only S s s2 := put_modW h.ctx (put_modR h.ctx H1)
  clear_value s2
  have H3 : Only S s s3 := put_modW h.ctx (addEnergy_only h.ctx ht H2)
  clear_value s3 x
  refine noteQuiet_only h.ctx (put_modW h.ctx ?_)
  simp only [s4]
  refine only_ite ?_ (burstStatus_only h (only_ite H3 (halfEvent_only h H3)))
  split
  · exact put_modW h.ctx (raiseFault_only h.toFaultIn H3)
  · exact put_modW h.ctx H3

end Sys2Proof.Laws
end

