-- ==== Sys2Proof/Laws/FrameLegs.lean ====
section
/-! SUPPORT. The frames of the legs: each changes its own channel, what its sequencer may change, and what the leg
names. -/

namespace Sys2Proof.Laws
open Sys2Proof.Machine

variable {S : Set Area} {s u : State} {c : Nat}

theorem prefetchFor_only (h : SeqIn c S) (H : Only S s u) : Only S s (prefetchFor c u) := by
  unfold prefetchFor
  refine only_ite H ?_
  have H1 := fun a => prefetch_only (c := c) (a := a) h.toLookIn h.fetches H
  dsimp only
  split
  · exact prefetch_only h.toLookIn h.fetches (H1 _)
  · exact H1 _

/-- A leg that begins changes what its own action changes, and what a fault changes. -/
theorem beginLeg_only {op} {act : State → State} (h : FaultIn c S) (ha : ∀ {v}, Only S s v → Only S s (act v)) (H : Only S s u) :
    Only S s (beginLeg op c act u) := by
  have H1 : Only S s (modW c (fun w => { w with legAt := some (startOf u c) }) u) := put_modW h.ctx H
  unfold beginLeg
  generalize modW c (fun w => { w with legAt := some (startOf u c) }) u = t at H1
  refine only_ite H (only_ite (takeDivert_only h.toSeqIn H) (only_ite (faultPc_only h H) ?_))
  dsimp only
  split
  · exact faultPc_only h H1
  · exact only_ite (put_modW h.ctx (enterWait_only h.ctx (prefetchFor_only h.toSeqIn H1))) (ha (prefetchFor_only h.toSeqIn H1))

theorem beginPatterned_only (h : .ctx c ∈ S) (H : Only S s u) : Only S s (beginPatterned c u) := toBoundary_only h (put_setCtx h H)
theorem waitFor_only {d n} (h : LegIn c S) (H : Only S s u) : Only S s (waitFor c d n u) := by
  unfold waitFor
  split
  · exact satisfied_only h H
  · exact only_ite (put_modW h.ctx (enterWait_only h.ctx H)) (put_modR h.ctx (put_modW h.ctx (enterWait_only h.ctx H)))
theorem waittime_only (h : LegIn c S) (H : Only S s u) : Only S s (waittime c u) := by
  unfold waittime
  extract_lets t g s1
  have H1 : Only S s s1 := only_ite (put_modR h.ctx H) H
  clear_value s1 t
  exact only_ite (finishZ_only h.toFaultIn H1) (waitFor_only h H1)
theorem remoteEvent_only {n k} (h : SendIn S) (hn : .arrivals ∈ S) (H : Only S s u) : Only S s (remoteEvent c n k u) :=
  only_ite (request_only hn H) (sendFrame_only h H)
theorem logLeg_only (h : FaultIn c S) (H : Only S s u) : Only S s (logLeg c u) := finish_only h (offer_only h.toRecIn H)
theorem callLeg_only (h : FaultIn c S) (H : Only S s u) : Only S s (callLeg c u) := finishTo_only h (put_modR h.ctx H)
theorem branchLeg_only (h : FaultIn c S) (H : Only S s u) : Only S s (branchLeg c u) := finishTo_only h (put_modR h.ctx H)
theorem loopLeg_only (h : FaultIn c S) (H : Only S s u) : Only S s (loopLeg c u) := finishTo_only h (put_modR h.ctx H)
theorem illegalLeg_only (h : FaultIn c S) (H : Only S s u) : Only S s (illegalLeg c u) :=
  only_ite H (only_ite (takeDivert_only h.toSeqIn H) (faultPc_only h H))

/-! ### LOAD and STORE -/

theorem holdIfShut_only {ps} (h : .ctx c ∈ S) (hp : .power ∈ S) (H : Only S s u) : Only S s (holdIfShut c ps u) := by
  refine only_foldl _ (fun v x H => ?_) H
  dsimp only
  split
  · split
    · exact goHeld_only h hp H
    · exact H
  · exact H
theorem loadMemory_only (h : FaultIn c S) (H : Only S s u) : Only S s (loadMemory c u) :=
  only_ite (raiseFault_only h H) (holdIfShut_only h.ctx h.power (only_foldl _ (fun _ _ H => submit_only h.submit H) (put_modW h.ctx H)))
theorem loadLeg_only (h : FaultIn c S) (H : Only S s u) : Only S s (loadLeg c u) := by
  unfold loadLeg
  dsimp only
  split
  · exact loadMemory_only h H
  · exact finish_only h (put_modR h.ctx H)
  · exact finish_only h (put_modR h.ctx H)

theorem storeLeg_only (h : FaultIn c S) (H : Only S s u) : Only S s (storeLeg c u) :=
  only_ite (raiseFault_only h H) (holdIfShut_only h.ctx h.power
    (only_foldl _ (fun _ _ H => addCovered_only h.ctx (submit_only h.submit H)) (put_modW h.ctx H)))

/-! ### SIGNAL -/

/-- What SIGNAL of leg l changes besides its own channel. -/
structure SignalIn (c : Nat) (l : Leg) (S : Set Area) : Prop extends FaultIn c S where
  evo : bit l.w1 7 = true → .evo (fld l.w1 6 0) ∈ S
  wake : bit l.w1 18 = true → SeqIn (fld l.w1 17 8) S ∧ .ctl ∈ S
  remote : bit l.w2 44 = true → .remotes ∈ S

theorem signal_only (h : SignalIn c (ctx u c).r.leg S) (H : Only S s u) : Only S s (signal c u) := by
  unfold signal
  extract_lets l s1 s2
  have H1 : Only S s s1 := by
    simp only [s1]; split
    · exact fireEvo_only (h.evo ‹_›) H
    · exact H
  clear_value s1
  have H2 : Only S s s2 := by
    simp only [s2]; split
    · exact sendWake_only (h.wake ‹_›).1 (h.wake ‹_›).2 H1
    · exact H1
  clear_value s2
  split
  · exact put_remotes (h.remote ‹_›) (put_modW h.ctx H2)
  · exact finish_only h.toFaultIn H2

/-! ### The hand-over of remote events -/

theorem handOver_only {c} (h : FaultIn c S) (g : SendIn S) (ha : .arrivals ∈ S) (H : Only S s u) : Only S s (handOver c u) :=
  only_ite (finish_only h (remoteEvent_only g ha H)) H
theorem handOvers_only (h : ∀ c, FaultIn c S) (g : SendIn S) (ha : .arrivals ∈ S) (hr : .remotes ∈ S) (H : Only S s u) :
    Only S s (handOvers u) := only_foldl _ (fun _ _ H => handOver_only (h _) g ha H) (put_remotes hr H)

end Sys2Proof.Laws
end

