-- ==== Sys2Proof/Laws/FrameHost.lean ====
section
/-! SUPPORT. The frames of the host target port, of the channels' control and waits, of the pager, and of the inputs,
outputs, Meridian, the Graticule, the field books and the stream queues. -/

namespace Sys2Proof.Laws
open Sys2Proof.Machine

variable {S : Set Area} {s u : State} {c : Nat}

/-- What the host target port itself changes. -/
structure HostIn (S : Set Area) : Prop extends CheckIn S where
  resp : .resp ∈ S
  port : .port ∈ S

/-- What the port itself changes on the way of an access that it takes. -/
def openAreas : Set Area := fun p => checkAreas p ∨ p = .resp
/-- An access that the port takes acts, on a state that the check alone has touched. -/
theorem host_act {b t w o k} {act : State → State} (h : HostOpen s b t w o) :
    ∃ v, Only openAreas s v ∧ v.port.early = s.port.early ∧ hostAccess b t w o k act s = act (portAnswer b false v) := by
  obtain ⟨h1, h2, h3⟩ := h
  unfold hostAccess
  rw [h1, h2, if_neg (by simp), if_neg (by simp)]
  by_cases e : exempt b t o = true
  · rw [if_pos e]; exact ⟨s, only_refl, rfl, rfl⟩
  · rw [if_neg e]
    have h3 := h3.resolve_left e
    have H : Only openAreas s (check (hostAsk s b t w o) s).1 := check_only (checkIn_self.mono (fun _ h => .inl h)) only_refl
    refine ⟨_, H, ?_, if_pos h3⟩
    have := H .port (by rintro ((((h | h) | ⟨_, h⟩) | (h | h) | h) | h) <;> cases h)
    simp only [same] at this
    exact (congrArg HostPort.early this :)
theorem portAnswer_only {b e} (h : HostIn S) (H : Only S s u) : Only S s (portAnswer b e u) := put_resp h.resp (put_port h.port rfl rfl H)
theorem hold_only {k} (h : .port ∈ S) (H : Only S s u) : Only S s (hold k u) := put_port h rfl rfl H
/-- An access that the port cannot accept now is held, and nothing else comes of it (R405, R441). -/
theorem hostAccess_held {b t w o k} {act : State → State} (hr : inReset u = false) (hw : portWaits u t o = true) :
    hostAccess b t w o k act u = hold k u := by
  unfold hostAccess; rw [hr, hw]; rfl
theorem badAccess_held {b t o k} (hr : inReset u = false) (hw : portWaits u t o = true) : badAccess b t o k u = hold k u := by
  unfold badAccess; rw [hr, hw]; rfl
/-- An access of the port changes what its register changes, and what the port does. -/
theorem hostAccess_only {b t w o k} {act : State → State} (h : HostIn S) (ha : ∀ {v}, Only S s v → Only S s (act v)) (H : Only S s u) :
    Only S s (hostAccess b t w o k act u) :=
  only_ite (put_resp h.resp H) (only_ite (hold_only h.port H) (only_ite (ha (portAnswer_only h H))
    (only_ite (ha (portAnswer_only h (check_only h.toCheckIn H))) (portAnswer_only h (check_only h.toCheckIn H)))))
theorem badAccess_only {b t o k} (h : HostIn S) (H : Only S s u) : Only S s (badAccess b t o k u) :=
  only_ite (put_resp h.resp H) (only_ite (hold_only h.port H) (portAnswer_only h H))
theorem mgtWrite_only {b o k} (h : HostIn S) (H : Only S s u) : Only S s (mgtWrite b o k u) :=
  hostAccess_only h (fun H => put_port h.port rfl rfl H) H
theorem regWrite_only {b o k} {act : State → State} (h : HostIn S) (ha : ∀ {v}, Only S s v → Only S s (act v)) (H : Only S s u) :
    Only S s (regWrite b o k act u) := hostAccess_only h (fun H => ha (only_ite (setLow_only h.port H) H)) H

/-- What the port itself changes on the way of a register's write that it takes. -/
def writeOpenAreas : Set Area := fun p => openAreas p ∨ p = .port
/-- A register's write that the port takes acts, on a state that only the port has touched. -/
theorem reg_act {b o k} {act : State → State} (h : HostOpen s b false true o) :
    ∃ v, Only writeOpenAreas s v ∧ regWrite b o k act s = act v := by
  obtain ⟨v, H, _, e⟩ := host_act (k := k) (act := fun s => act (if wide o then setLow (keySnap b o) none s else s)) h
  have hw : HostIn writeOpenAreas := ⟨checkIn_self.mono (fun _ h => .inl (.inl h)), .inl (.inr rfl), .inr rfl⟩
  have H1 : Only writeOpenAreas s (portAnswer b false v) := portAnswer_only hw (only_mono (fun _ h => .inl h) H)
  exact ⟨_, only_ite (setLow_only (.inr rfl) H1) H1, e⟩

/-! ### Waits and channel control -/

/-- What the control of channel c changes. -/
structure ControlIn (c : Nat) (S : Set Area) : Prop extends LegIn c S where
  slots : .slots ∈ S

theorem waitSatisfied_only (h : LegIn c S) (H : Only S s u) : Only S s (waitSatisfied c u) := only_ite (satisfied_only h H) H
theorem targetReached_only (h : LegIn c S) (H : Only S s u) : Only S s (targetReached c u) := only_ite (satisfied_only h H) H
theorem deadlineEnds_only (h : LegIn c S) (H : Only S s u) : Only S s (deadlineEnds c u) :=
  only_ite (only_ite (satisfied_only h H) (finishZ_only h.toFaultIn H)) H

theorem enOne_only (h : ControlIn c S) (H : Only S s u) : Only S s (enOne c u) := by
  unfold enOne
  refine only_ite (only_ite (put_modR h.ctx H) H) ?_
  split
  · exact startChannel_only h.toSeqIn H
  · exact put_modR h.ctx H
  · exact only_ite (startChannel_only h.toSeqIn (enterOff_only h.ctx h.slots H)) H
  · exact H
theorem enZero_only (h : ControlIn c S) (H : Only S s u) : Only S s (enZero c u) := by
  unfold enZero
  refine only_ite H ?_
  split
  · exact put_modR h.ctx H
  · exact enterOff_only h.ctx h.slots (put_modR h.ctx H)
  · exact put_modR h.ctx H
  · exact only_ite (put_modR h.ctx H) (drain_only h.toFaultIn H)
theorem abortedRecord_only (h : RecIn S) (H : Only S s u) : Only S s (abortedRecord c u) := markSet_only (offerNow_only h H)
theorem abortCh_only (h : ControlIn c S) (H : Only S s u) : Only S s (abortCh c u) := by
  unfold abortCh
  split
  · exact put_modR h.ctx H
  · exact enterOff_only h.ctx h.slots (put_modR h.ctx (abortedRecord_only h.toRecIn (dropFire_only h.toSeqIn H)))
  · exact abort_only h.toFaultIn H
theorem pauseCh_only (h : .ctx c ∈ S) (hf : .fetches ∈ S) (H : Only S s u) : Only S s (pauseCh c u) := by
  have A := tryPause_only (c := c) h hf (put_modW (f := fun w => { w with pausePend := true }) h H)
  unfold pauseCh
  dsimp only
  split
  · exact only_ite H A
  · exact only_ite H A
  · exact only_ite H A
  · exact only_ite H A
  · exact only_ite H (put_modR h H)
  · exact H
theorem resumeCh_only (h : LegIn c S) (H : Only S s u) : Only S s (resumeCh c u) := by
  unfold resumeCh
  dsimp only
  split
  · exact only_ite H (resume_only h H)
  · exact only_ite (put_modR h.ctx H) H
  · exact H
theorem writeCtrl_only {v} (h : ControlIn c S) (H : Only S s u) : Only S s (writeCtrl c v u) := by
  have H1 := only_ite (c := bit v 0 = true) (enOne_only h H) H
  exact only_ite (abortCh_only h H) (only_ite (enZero_only h H) (only_ite H1 (only_ite (pauseCh_only h.ctx h.fetches H1)
    (only_ite (resumeCh_only h.toLegIn H1) H1))))
theorem writeDivert_only {v} (h : SeqIn c S) (H : Only S s u) : Only S s (writeDivert c v u) := by
  unfold writeDivert
  split
  all_goals first | exact H | exact divertNow_only h (put_modR h.ctx H)
theorem applyCtl_only {w} (h : ControlIn c S) (H : Only S s u) : Only S s (applyCtl c w u) := by
  unfold applyCtl
  split
  · exact writeCtrl_only h H
  · exact wake_only h.toSeqIn H
  · exact writeDivert_only h.toSeqIn H
  · exact fireAt_only h.toSeqIn H
theorem control_only {w} (hl : .ctl ∈ S) (H : Only S s u) : Only S s (control c w u) := put_ctl hl H
theorem ctlEnd_only (h : ∀ c, ControlIn c S) (hl : .ctl ∈ S) (H : Only S s u) : Only S s (ctlEnd u) :=
  only_foldl _ (fun _ _ H => applyCtl_only (h _) H) (put_ctl hl H)

theorem writeLegend_only {v} (h : .ctx c ∈ S) (hl : .legend c ∈ S) (ht : .legends ∈ S) (hs : .slots ∈ S) (H : Only S s u) : Only S s (writeLegend c v u) := by
  unfold writeLegend
  extract_lets old s1 s2
  have H2 : Only S s s2 := only_ite (put_modW h (put_legend hl ht H)) (put_legend hl ht H)
  exact only_ite (releaseSlot_only h hs H2) H2
theorem clearRearm_only (h : .ctx c ∈ S) (H : Only S s u) : Only S s (clearRearm c u) := put_modR h H
theorem drainComplete_only (h : ControlIn c S) (H : Only S s u) : Only S s (drainComplete c u) := by
  unfold drainComplete
  refine only_ite ?_ H
  cases (ctx u c).w.faulting with
  | none =>
    have H1 := only_ite (c := (ctx u c).w.aborting = true) (abortedRecord_only (c := c) h.toRecIn H) H
    exact only_ite (startChannel_only h.toSeqIn H1) (enterOff_only h.ctx h.slots H1)
  | some f =>
    have H0 := offerFault_only (c := c) (f := f) h.toRecIn H
    have H1 := only_ite (c := (ctx u c).w.aborting = true) (abortedRecord_only (c := c) h.toRecIn H0) H0
    exact only_ite (startChannel_only h.toSeqIn H1) (enterOff_only h.ctx h.slots H1)
theorem faultEntry_only (h : RecIn S) (hc : .ctx c ∈ S) (H : Only S s u) : Only S s (faultEntry c u) := by
  unfold faultEntry
  dsimp only
  split
  · exact H
  · exact only_ite H (offerFault_only h (put_setCtx hc H))
theorem faultToOff_only (h : .ctx c ∈ S) (hs : .slots ∈ S) (H : Only S s u) : Only S s (faultToOff c u) :=
  only_ite (enterOff_only h hs H) H

/-! ### The pager -/

/-- What an uncorrectable word of the context store may change. -/
structure LoseIn (S : Set Area) : Prop where
  fault : ∀ c, FaultIn c S
  legend : ∀ c, .legend c ∈ S
  legends : .legends ∈ S
  atlas : .atlas ∈ S

theorem loseContext_only {k} (h : LoseIn S) (H : Only S s u) : Only S s (loseContext k u) := by
  have H1 := only_ite (c := k % 32 = 0) (put_legend (x := 0) (h.legend (k / 32)) h.legends H) H
  exact only_ite (put_modR (h.fault _).ctx H1) (faultPc_only (h.fault _) H)
theorem contextFound_only {k f} (h : LoseIn S) (H : Only S s u) : Only S s (contextFound k f u) := by
  have h0 := (h.fault 0).toErrIn
  unfold contextFound
  split
  · exact H
  · exact corrected_only h0 H
  · exact loseContext_only h (uncorrected_only h0 H)
theorem contextRead_only {c k f} (h : LoseIn S) (H : Only S s u) : Only S s (contextRead c k f u) :=
  only_foldl _ (fun _ _ H => contextFound_only h (cleanWord_only h.atlas H)) H

/-- Every channel may be the one that moves. -/
structure PagerIn (S : Set Area) : Prop extends LoseIn S where
  ctl : ∀ c, ControlIn c S
  swap : .swap ∈ S
  glob : .glob ∈ S
  ctls : .ctl ∈ S

theorem pageSwap_only (h : .swap ∈ S) (H : Only S s u) : Only S s (pageSwap u) := by
  unfold pageSwap
  split
  · exact only_ite (put_swap h H) H
  · split
    · exact put_swap h H
    · split
      · exact put_swap h H
      · exact H
theorem pagedIn_only {n} (h : ControlIn c S) (H : Only S s u) : Only S s (pagedIn c n u) :=
  put_modW h.ctx (put_modR h.ctx (put_slots h.slots H))
theorem afterPageIn_only (h : ControlIn c S) (H : Only S s u) : Only S s (afterPageIn c u) := by
  unfold afterPageIn
  refine only_ite H ?_
  split
  · exact continueCh_only h.toSeqIn H
  · exact only_ite (endAgain_only h.toSeqIn H) (afterPark_only h.toSeqIn H)
  · exact only_ite H (releaseSlot_only h.ctx h.slots H)
  · exact H
theorem pagedOut_only (h : .ctx c ∈ S) (hf : .fetches ∈ S) (ha : .atlas ∈ S) (H : Only S s u) : Only S s (pagedOut c u) :=
  only_foldl _ (fun _ _ H => cleanWord_only ha H) (put_modW h (put_modR h (dropEndRead_only hf H)))
theorem transferDone_only {f k} (h : PagerIn S) (H : Only S s u) : Only S s (transferDone f k u) := by
  unfold transferDone
  split
  · exact H
  · rename_i w _
    split
    · exact H
    · refine only_ite H ?_
      extract_lets g s1 wb s2 s3 moved s4
      have H1 : Only S s s1 := put_glob (u := { u with swap := none }) h.glob rfl rfl (put_swap h.swap H)
      clear_value s1 wb
      have H2 : Only S s s2 := by
        simp only [s2]; split
        · exact only_ite H1 (pagedOut_only (h.ctl _).ctx (h.ctl 0).fetches h.atlas H1)
        · exact H1
      clear_value s2
      have H3 : Only S s s3 := by
        simp only [s3]; split
        · exact pagedIn_only (h.ctl _) (contextRead_only h.toLoseIn H2)
        · exact put_slots (h.ctl 0).slots H2
      clear_value s3
      have H4 : Only S s s4 := only_foldl _ (fun _ _ H => applyCtl_only (h.ctl _) H) (put_ctl h.ctls H3)
      clear_value s4
      split
      · exact afterPageIn_only (h.ctl _) H4
      · exact H4

end Sys2Proof.Laws
end

