-- ==== Sys2Proof/Laws/FrameTime.lean ====
section
/-! SUPPORT. The frames of the inputs' and outputs' operations, of Meridian, the Graticule, the field books' and the
stream queues' commands. -/

namespace Sys2Proof.Laws
open Sys2Proof.Machine

variable {S : Set Area} {s u : State}

/-! ### Inputs and outputs -/

theorem watchPin_only {n q ps} (h : .input n ∈ S) (H : Only S s u) : Only S s (watchPin n q ps u) := only_ite H (put_setInp h H)
theorem pinRequest_only {n q ps} (ha : .arrivals ∈ S) (h : .input n ∈ S) (H : Only S s u) : Only S s (pinRequest n q ps u) := by
  unfold pinRequest; split
  · exact only_ite (only_ite (put_setInp h H) (request_only ha (put_setInp h H))) H
  · exact watchPin_only h H
theorem filterChange_only {n q ps} (h : .input n ∈ S) (H : Only S s u) : Only S s (filterChange n q ps u) := by
  unfold filterChange; split
  · exact only_ite H (put_setInp h H)
  · exact watchPin_only h H
theorem requalify_only {n w} (h : RecIn S) (hn : .input n ∈ S) (H : Only S s u) : Only S s (requalify n w u) :=
  only_ite (put_setInp hn H) (only_ite (only_ite (offerNow_only h (put_setInp hn H)) (put_setInp hn H)) H)
theorem qualGained_only {n q ps} (h : RecIn S) (hn : .input n ∈ S) (H : Only S s u) : Only S s (qualGained n q ps u) :=
  only_ite H (requalify_only h hn (put_setInp hn H))
theorem qualLost_only {n} (h : RecIn S) (hn : .input n ∈ S) (H : Only S s u) : Only S s (qualLost n u) :=
  only_ite H (requalify_only h hn (put_setInp hn H))
theorem requalifyAll_only {v d} (h : RecIn S) (hn : ∀ n, .input n ∈ S) (H : Only S s u) : Only S s (requalifyAll v d u) :=
  only_foldl _ (fun _ _ H => requalify_only h (hn _) (put_setInp (hn _) H)) H
theorem levelRearm_only {c} (h : .ctx c ∈ S) (H : Only S s u) : Only S s (levelRearm c u) := by
  unfold levelRearm
  split
  · exact only_ite (put_modW h H) H
  · exact H
theorem swreq_only {n} (h : .arrivals ∈ S) (H : Only S s u) : Only S s (swreq n u) := only_ite H (request_only h H)
theorem clearOvr_only {n} (h : .input n ∈ S) (H : Only S s u) : Only S s (clearOvr n u) := put_setInp h H
theorem writeReqin_only {n v q ps} (h : .input n ∈ S) (ha : .arrivals ∈ S) (H : Only S s u) : Only S s (writeReqin n v q ps u) := by
  unfold writeReqin
  extract_lets old i j s1 s2
  have H1 : Only S s s1 := put_setInp h H
  have H2 : Only S s s2 := only_ite (clearOvr_only h H1) H1
  clear_value s2
  exact only_ite (swreq_only ha H2) H2
theorem writeEvo_only {m v} (h : .evo m ∈ S) (H : Only S s u) : Only S s (writeEvo m v u) :=
  only_ite (fireEvo_only h (put_setEvo h H)) (put_setEvo h H)
theorem pulseEnd_only {m} (h : .evo m ∈ S) (H : Only S s u) : Only S s (pulseEnd m u) := by
  unfold pulseEnd
  dsimp only
  split
  · exact only_ite (put_setEvo h H) H
  · exact H
theorem clearTagHw_only (h : .tags ∈ S) (H : Only S s u) : Only S s (clearTagHw u) := put_lochw h H

/-! ### Meridian -/

/-- What Meridian's operations change. -/
structure MerIn (S : Set Area) : Prop extends RecIn S where
  mer : .mer ∈ S

theorem merRec_only {t d w} (h : RecIn S) (H : Only S s u) : Only S s (merRec t d w u) := only_ite (offerNow_only h H) H
theorem snapshot_only {b o w} (h : .port ∈ S) (H : Only S s u) : Only S s (snapshot b o w u) := put_port h rfl rfl H
theorem nowRead_only {b w} (h : HostIn S) (hm : .mer ∈ S) (H : Only S s u) : Only S s (nowRead b w u) :=
  only_ite (put_resp h.resp (put_mer hm H)) (put_resp h.resp (snapshot_only h.port (put_mer hm H)))
theorem rejected_only (h : .mer ∈ S) (H : Only S s u) : Only S s (rejected u) := markSet_only (put_mer h H)
theorem setMer_only {v} (h : .mer ∈ S) (H : Only S s u) : Only S s (setMer v u) := only_ite (rejected_only h H) (put_mer h H)
theorem trySync_only (h : MerIn S) (H : Only S s u) : Only S s (trySync u) := only_ite (put_mer h.mer (merRec_only h.toRecIn H)) H
theorem stepped_only {d} (h : MerIn S) (H : Only S s u) : Only S s (stepped d u) := merRec_only h.toRecIn (markSet_only (put_mer h.mer H))
theorem keepMer_only (h : .merWas ∈ S) (H : Only S s u) : Only S s (keepMer u) := by
  unfold keepMer; split
  · exact only_ite H (put_merWas h H)
  · exact put_merWas h H
theorem dropCorr_only (h : MerIn S) (hw : .merWas ∈ S) (H : Only S s u) : Only S s (dropCorr u) := by
  unfold dropCorr; split
  · exact only_ite (only_put H (fun q hq => by
      cases q <;> first | rfl | exact ⟨rfl, rfl⟩ | exact absurd h.mer hq | exact absurd h.heldRecs hq | exact absurd hw hq)) H
  · exact H
theorem correct_only {o r} (h : MerIn S) (hw : .merWas ∈ S) (H : Only S s u) : Only S s (correct o r u) := by
  have X : ∀ v, Only S s v → Only S s (if (1000 * 2 ^ 32 : Int) ≤ o * 256 then
        stepped o { v with mer := { v.mer with now := ((v.mer.now : Int) - v.mer.slewed + o * 256).toNat, slewed := 0, remain := 0 } }
      else if o * 256 ≤ (-1000 * 2 ^ 32 : Int) then
        let s := if v.mer.backoff then v else merRec 0x5B 0 o v
        markSet (w1cKey 0x3008 4) { s with mer := { s.mer with remain := o * 256, backoff := true } }
      else { v with mer := { v.mer with remain := o * 256 } }) := fun v H =>
    only_ite (stepped_only h (put_mer h.mer H)) (only_ite (markSet_only (put_mer h.mer (only_ite H (merRec_only h.toRecIn H)))) (put_mer h.mer H))
  have K := keepMer_only hw H
  unfold correct
  refine only_ite H ?_
  cases r with
  | none => exact put_mer h.mer (X _ (put_mer h.mer K))
  | some r => exact put_mer h.mer (X _ (put_mer h.mer (put_mer h.mer K)))
theorem adjMer_only {v} (h : MerIn S) (hw : .merWas ∈ S) (H : Only S s u) : Only S s (adjMer v u) := by
  have H1 := correct_only (o := signed 63 v.toNat) (r := none) h hw H
  exact only_ite (only_ite H1 (trySync_only h (only_ite (put_mer h.mer H1) H1))) (rejected_only h.mer H)
theorem loseSync_only {r} (h : MerIn S) (H : Only S s u) : Only S s (loseSync r u) :=
  put_mer h.mer (only_ite (merRec_only h.toRecIn H) H)
theorem writeSrc_only {x} (h : MerIn S) (hw : .merWas ∈ S) (H : Only S s u) : Only S s (writeSrc x u) :=
  only_ite H (put_mer h.mer (loseSync_only h (dropCorr_only h hw H)))
theorem startHoldover_only (h : .mer ∈ S) (H : Only S s u) : Only S s (startHoldover u) := put_mer h H
theorem pathLost_only (h : .mer ∈ S) (hs : .sync ∈ S) (H : Only S s u) : Only S s (pathLost u) := by
  have H1 : Only S s { u with sync := { u.sync with lock := false, good := 0 } } := put_sync hs H
  unfold pathLost
  exact only_ite (only_ite (put_mer h H1) (startHoldover_only h (put_mer h H1))) H1
theorem checkParent_only (h : .mer ∈ S) (hs : .sync ∈ S) (H : Only S s u) : Only S s (checkParent u) :=
  only_ite (pathLost_only h hs H) H
theorem holdoverStart_only {p} (h : .mer ∈ S) (H : Only S s u) : Only S s (holdoverStart p u) := only_ite (startHoldover_only h H) H
theorem holdoverExpiry_only (h : MerIn S) (H : Only S s u) : Only S s (holdoverExpiry u) := only_ite (loseSync_only h H) H

/-! ### The Graticule -/

/-- What the Graticule's entries change: their codewords are written with them. -/
structure GratIn (S : Set Area) : Prop extends ErrIn S where
  grat : .grat ∈ S
  atlas : .atlas ∈ S

theorem cleanEntry_only {i} (h : .atlas ∈ S) (H : Only S s u) : Only S s (cleanEntry i u) := only_foldl _ (fun _ _ H => cleanWord_only h H) H
theorem setEntry_only {i e} (h : GratIn S) (H : Only S s u) : Only S s (setEntry i e u) := cleanEntry_only h.atlas (put_grat h.grat H)
theorem freeEntry_only {i} (h : GratIn S) (H : Only S s u) : Only S s (freeEntry i u) := cleanEntry_only h.atlas (put_grat h.grat H)
theorem gratCmd_only {o i} (h : .grat ∈ S) (H : Only S s u) : Only S s (gratCmd o i u) :=
  only_ite H (only_ite (markSet_only (put_grat h H)) (put_grat h H))
theorem gratEnd_only {k i} (h : .grat ∈ S) (H : Only S s u) : Only S s (gratEnd k i u) := put_grat h H
theorem gratComplete_only (h : GratIn S) (H : Only S s u) : Only S s (gratComplete u) := by
  have E := fun k i => gratEnd_only (k := k) (i := i) h.grat H
  unfold gratComplete
  split
  · exact H
  · refine only_ite H (only_ite (only_ite (E _ _) ?_) (only_ite (E _ _) (only_ite (freeEntry_only h (E _ _))
      (only_ite (E _ _) (setEntry_only h (E _ _))))))
    split
    · exact E _ _
    · exact setEntry_only h (E _ _)
theorem fireEntry_only {i e} (h : GratIn S) (H : Only S s u) : Only S s (fireEntry i e u) := by
  unfold fireEntry
  extract_lets late n f g s1 s2 g3 s3
  have H2 : Only S s s2 := only_ite (freeEntry_only h (put_grat h.grat H)) (setEntry_only h (put_grat h.grat H))
  clear_value s2 f n late
  have H3 : Only S s s3 := markCount_only (put_grat h.grat H2)
  exact only_ite (only_ite (offer_only h.toRecIn H3) H3) H2
theorem loseEntry_only {i} (h : GratIn S) (H : Only S s u) : Only S s (loseEntry i u) :=
  offerNow_only h.toRecIn (freeEntry_only h H)
theorem readEntry_only {i f} {act : State → State} (h : GratIn S) (ha : ∀ {v}, Only S s v → Only S s (act v)) (H : Only S s u) :
    Only S s (readEntry i f act u) := by
  unfold readEntry; split
  · exact ha H
  · exact ha (corrected_only h.toErrIn (cleanEntry_only h.atlas H))
  · exact loseEntry_only h (uncorrected_only h.toErrIn H)
theorem gratFire_only {f} (h : GratIn S) (H : Only S s u) : Only S s (gratFire f u) := by
  unfold gratFire
  refine only_ite H ?_
  split
  · exact H
  · exact only_foldl _ (fun _ _ H => readEntry_only h (fun H => fireEntry_only h H) H)
      (readEntry_only h (fun H => fireEntry_only h H) (put_grat h.grat H))
theorem sendFire_only {c f} (h : SeqIn c S) (hl : .ctl ∈ S) (H : Only S s u) : Only S s (sendFire c f u) := only_ite (put_ctl hl H) (fireAt_only h H)
theorem deliverActs_only (h : ∀ c, SeqIn c S) (hl : .ctl ∈ S) (H : Only S s u) : Only S s (deliverActs u) :=
  only_foldl _ (fun _ _ H => only_ite (sendWake_only (h _) hl H) (sendFire_only (h _) hl H)) (put_grat (h 0).grat H)
theorem leadActs_only {i e} (h : GratIn S) (hl : LookIn S) (hf : .fetches ∈ S) (hc : ∀ c, .ctx c ∈ S) (H : Only S s u) :
    Only S s (leadActs i e u) := by
  have H1 : Only S s (setEntry i { e with leadDone := true } u) := setEntry_only h H
  have H2 := only_ite (c := e.wake = true) H1 (prefetch_only (c := e.ch) (a := e.leg) hl hf H1)
  exact only_ite H2 (put_modW (hc _) H2)
theorem lead_only {i} (h : GratIn S) (hl : LookIn S) (hf : .fetches ∈ S) (hc : ∀ c, .ctx c ∈ S) (H : Only S s u) :
    Only S s (lead i u) := by
  unfold lead
  split
  · exact H
  · exact only_ite H (readEntry_only h (fun H => leadActs_only h hl hf hc H) H)
theorem gratOn_only (h : .grat ∈ S) (H : Only S s u) : Only S s (gratOn u) := put_grat h H
theorem gratClear_only (h : .grat ∈ S) (H : Only S s u) : Only S s (gratClear u) := put_grat h H

/-! ### The field books -/

theorem recordTake_only (h : ∀ b, BookIn b S) (hs : .staged ∈ S) (hr : .recClk ∈ S) (H : Only S s u) : Only S s (recordTake u) :=
  only_ite (takeRecord_only h hs hr H) H
theorem recordWriteDone_only {b} (h : .book b ∈ S) (ho : .outst ∈ S) (H : Only S s u) : Only S s (recordWriteDone b u) := by
  unfold recordWriteDone
  split
  · exact only_ite (recordDone_only h (freeTag_only ho H)) H
  · exact H
theorem recordWriteFailed_only {b} (h : .book b ∈ S) (hf : .offered ∈ S) (ho : .outst ∈ S) (H : Only S s u) :
    Only S s (recordWriteFailed b u) := by
  unfold recordWriteFailed
  split
  · exact recordFailed_only h hf (freeTag_only ho H)
  · exact only_ite (recordFailed_only h hf H) H
theorem timerExpiry_only {b} (h : .book b ∈ S) (H : Only S s u) : Only S s (timerExpiry b u) := only_ite (put_setBook h H) H

/-! ### The stream queues -/

theorem pushItem_only {q d p} (h : QueueIn q S) (H : Only S s u) : Only S s (pushItem q d p u) := by
  unfold pushItem
  dsimp only
  have H1 := fun x => markSet_only (k := w1cKey (qStatus q) 59) (put_setQueue (x := x) h.queue H)
  exact only_ite (place_only h.queue H) (only_ite (H1 _) (qRec_only h.toRecIn (H1 _)))
theorem pushHost_only {q d p} (h : QueueIn q S) (H : Only S s u) : Only S s (pushHost q d p u) :=
  only_ite (pushItem_only h H) (put_setQueue h.queue H)
theorem hostStep_only {q} (h : QueueIn q S) (H : Only S s u) : Only S s (hostStep q u) := by
  unfold hostStep
  dsimp only
  split
  · exact only_ite (pushItem_only h (put_setQueue h.queue H)) H
  · exact H
theorem readResp_only {b w o d} (hr : .resp ∈ S) (hp : .port ∈ S) (H : Only S s u) : Only S s (readResp b w o d u) :=
  only_ite (put_resp hr H) (put_resp hr (snapshot_only hp H))
theorem popHost_only {b q w k} (h : QueueIn q S) (hr : .resp ∈ S) (hp : .port ∈ S) (H : Only S s u) : Only S s (popHost b q w k u) := by
  unfold popHost
  refine only_ite (readResp_only hr hp (put_modQ h.queue H)) ?_
  split
  · rename_i it v hv
    exact readResp_only hr hp (put_modQ h.queue (take_only h H hv))
  · exact hold_only hp (put_port hp rfl rfl H)
theorem writeQcfg_only {q v} (h : QueueIn q S) (ho : .outst ∈ S) (H : Only S s u) : Only S s (writeQcfg q v u) := by
  have H1 := put_modQ (f := qcfgRw v) h.queue H
  have H2 := only_ite (c := bit v 49 = true) (unmarkQ_only h H1) H1
  exact only_ite (resetQueue_only h ho H2) H2
theorem tailToHead_only {q} (h : QueueIn q S) (H : Only S s u) : Only S s (tailToHead q u) := only_ite (moveDirect_only h H) H
theorem halfGroupSpill_only {q} (h : QueueIn q S) (H : Only S s u) : Only S s (halfGroupSpill q u) := only_ite (startSpill_only h H) H
theorem tailIdleFlush_only {q} (h : QueueIn q S) (H : Only S s u) : Only S s (tailIdleFlush q u) := only_ite (startSpill_only h H) H
theorem writeSpillBase_only {v} (hq : ∀ q, .queue q ∈ S) (hs : .spill ∈ S) (hf : .offered ∈ S) (ht : .outst ∈ S) (ho : .out ∈ S)
    (H : Only S s u) : Only S s (writeSpillBase v u) :=
  only_ite H (put_spill hs (only_foldl _ (fun _ _ H => put_modQ (hq _) H) (orphanReads_only hf ht ho H)))
theorem clearHwm_only (h : .spill ∈ S) (H : Only S s u) : Only S s (clearHwm u) := put_spill h H

end Sys2Proof.Laws
end

