-- ==== Sys2Proof/Laws/FrameRules.lean ====
section
/-! SUPPORT. The frames of the Atlas's commands, of the leg fetches' ends, and of the global halt. -/

namespace Sys2Proof.Laws
open Sys2Proof.Machine

variable {S : Set Area} {s u : State} {c : Nat}

/-! ### The table window and COMMIT -/

theorem stage_only {b k v} (h : HostIn S) (H : Only S s u) : Only S s (stage b k v u) :=
  only_ite (put_resp h.resp (markSet_only (putAtlas_only h.toCheckIn H))) (putAtlas_only h.toCheckIn H)
/-- What a write to the table window changes besides: a route, and with it the time parent. -/
structure TableIn (S : Set Area) : Prop extends HostIn S where
  fab : .fab ∈ S
  sync : .sync ∈ S
  mer : .mer ∈ S

theorem writeRoute_only {n v} (h : TableIn S) (H : Only S s u) : Only S s (writeRoute n v u) :=
  checkParent_only h.mer h.sync (cleanWord_only h.atlas (put_fab h.fab rfl rfl H))
theorem tableWrite_only {b o z d} (h : TableIn S) (H : Only S s u) : Only S s (tableWrite b o z d u) := by
  have R : ∀ n v, Only S s (writeRoute n v u) := fun _ _ => writeRoute_only h H
  unfold tableWrite
  refine only_ite (only_ite (writeRoute_only h (R _ _)) (R _ _)) (only_ite (only_ite ?_ (only_ite ?_ (only_ite ?_ ?_))) H)
  · exact setLow_only h.port (stage_only h.toHostIn H)
  · exact setLow_only h.port H
  · exact stage_only h.toHostIn H
  · exact setLow_only h.port (stage_only h.toHostIn H)
theorem commitGo_only {g} (h : CheckIn S) (H : Only S s u) : Only S s (commitGo g u) :=
  only_ite (markSet_only (putAtlas_only h H)) (putAtlas_only h H)
theorem stagingLost_only {k} (h : CheckIn S) (H : Only S s u) : Only S s (stagingLost k u) :=
  have H1 := markSet_only (k := w1cKey 0x5018 11) (putAtlas_only h H)
  only_ite (offerNow_only h.toRecIn H1) H1
theorem refuseCommit_only {k i} (h : CheckIn S) (H : Only S s u) : Only S s (refuseCommit k i u) := by
  unfold refuseCommit
  have H1 := putAtlas_only (x := { u.atlas with phase := .idle, code := k, index := i }) h H
  dsimp only
  split
  · exact stagingLost_only h H1
  · exact H1
theorem liftBank_only {n} (h : RecIn S) (hf : .fences ∈ S) (H : Only S s u) : Only S s (liftBank n u) :=
  only_ite (offerNow_only h (put_fences hf H)) H
theorem resetBank_only {n} (h : CheckIn S) (hf : .fences ∈ S) (H : Only S s u) : Only S s (resetBank u n) :=
  putAtlas_only h (only_ite H (liftBank_only h.toRecIn hf H))
theorem switch_only {g} (h : CheckIn S) (hf : .fences ∈ S) (hl : .lcache ∈ S) (H : Only S s u) : Only S s (switch g u) := by
  unfold switch
  exact only_put (only_foldl (f := resetBank) _ (fun _ _ H => resetBank_only h hf H) H) (fun q hq => by
    cases q <;> first | rfl | exact ⟨rfl, rfl⟩ | exact absurd hl hq | exact absurd h.cache hq | exact absurd h.atlas hq)

/-- What lookups that begin again change: they wait anew. -/
structure SwitchIn (S : Set Area) : Prop extends CheckIn S where
  offered : .offered ∈ S
  fetches : .fetches ∈ S
  lcache : .lcache ∈ S
  fences : .fences ∈ S

theorem lookAgain_only {a} (h : SwitchIn S) (H : Only S s u) : Only S s (lookAgain u a) := by
  unfold lookAgain
  split
  · rename_i q _
    exact only_ite H (put_offered h.offered (beginLookup_only (q := q) h.toLookIn H))
  · exact H
theorem endRetry_only {a b} (h : .halt ∈ S) (H : Only S s u) : Only S s (endRetry a b u) := put_halt h H
theorem fetchAgain_only {f} (h : SwitchIn S) (H : Only S s u) : Only S s (fetchAgain u f) :=
  only_ite H (put_fetches h.fetches (beginLookup_only h.toLookIn H))
theorem lookupsAgain_only (h : SwitchIn S) (H : Only S s u) : Only S s (lookupsAgain u) :=
  only_foldl _ (fun _ _ H => fetchAgain_only h H) (only_foldl _ (fun _ _ H => lookAgain_only h H) H)
theorem commitSwitch_only (h : SwitchIn S) (H : Only S s u) : Only S s (commitSwitch u) := by
  unfold commitSwitch
  split
  · refine only_ite H ?_
    split
    · exact refuseCommit_only h.toCheckIn H
    · exact lookupsAgain_only h (switch_only h.toCheckIn h.fences h.lcache H)
  · exact H
theorem copyEnds_only (h : CheckIn S) (H : Only S s u) : Only S s (copyEnds u) := by
  unfold copyEnds; split
  · exact only_ite (putAtlas_only h H) H
  · exact H
theorem copyWord_only {t} (h : CheckIn S) (H : Only S s u) : Only S s (copyWord t u) := by
  unfold copyWord; split
  · exact only_ite (putAtlas_only h (cleanWord_only h.atlas (putWord_only h H))) H
  · exact H
theorem copyIn_only (h : CheckIn S) (H : Only S s u) : Only S s (copyIn u) := by
  unfold copyIn; split
  · exact copyEnds_only h (copyWord_only h H)
  · exact H
theorem commitDrained_only (h : CheckIn S) (H : Only S s u) : Only S s (commitDrained u) :=
  only_ite H (only_ite (offerNow_only h.toRecIn (putAtlas_only h H)) (putAtlas_only h H))
theorem clearAtlas_only (h : CheckIn S) (H : Only S s u) : Only S s (clearAtlas u) := putAtlas_only h H
theorem lifecycle_only {l} (h : .dbg ∈ S) (H : Only S s u) : Only S s (lifecycle l u) := only_ite H (put_dbg h H)

/-! ### The global halt -/

/-- What entering a global halt, and leaving it, changes. -/
structure HaltIn (S : Set Area) : Prop where
  leg : ∀ c, LegIn c S
  halt : .halt ∈ S
  flash : .flash ∈ S

theorem HaltIn.errIn (h : HaltIn S) : ErrIn S := (h.leg 0).toErrIn
theorem HaltIn.fetches (h : HaltIn S) : .fetches ∈ S := (h.leg 0).fetches
theorem HaltIn.lcache (h : HaltIn S) : .lcache ∈ S := (h.leg 0).lcache

theorem haltRec_only {d} (h : RecIn S) (H : Only S s u) : Only S s (haltRec d u) := only_ite (offerNow_only h H) H
theorem channelHalted_only (h : .ctx c ∈ S) (hf : .fetches ∈ S) (H : Only S s u) : Only S s (channelHalted c u) := only_ite (enterHalted_only h hf H) H
theorem busError_only {a k} (h : HaltIn S) (H : Only S s u) : Only S s (busError a k u) := by
  have H1 := uncorrected_only (n := 24) (d := 0) (v := BitVec.setWidth 64 a) h.errIn H
  exact only_ite H1 (only_foldl _ (fun _ _ H => channelHalted_only (h.leg _).ctx h.fetches H) (haltRec_only h.errIn.toRecIn (put_halt h.halt H1)))
theorem dropFetch_only {f} (h : .fetches ∈ S) (H : Only S s u) : Only S s (dropFetch f u) := put_fetches h H
theorem globalHalt_only {a k} (h : HaltIn S) (H : Only S s u) : Only S s (globalHalt a k u) := by
  unfold globalHalt
  split
  · exact busError_only h (dropFetch_only h.fetches H)
  · exact H
theorem fillFaults_only {k f} (h : ∀ c, FaultIn c S) (H : Only S s u) : Only S s (fillFaults k f u) :=
  only_ite (only_foldl _ (fun _ _ H => only_ite (faultPc_only (h _) H) H) H) H
theorem busyErr_only (h : .flash ∈ S) (H : Only S s u) : Only S s (busyErr u) := put_flash h H
theorem reissue_only {f} (hc : ∀ c, .ctx c ∈ S) (hf : .fetches ∈ S) (H : Only S s u) : Only S s (reissue f u) :=
  only_foldl _ (fun _ _ H => flashHold_only (hc _) H) (put_fetches hf H)
theorem fillData_only {f l} (hc : ∀ c, .ctx c ∈ S) (hl : .lcache ∈ S) (H : Only S s u) : Only S s (fillData f l u) :=
  only_foldl _ (fun _ _ H => deliverLeg_only (hc _) H) (only_ite H (fillLine_only hl H))
theorem fillReturn_only {a k r} (h : HaltIn S) (H : Only S s u) : Only S s (fillReturn a k r u) := by
  have hc : ∀ c, .ctx c ∈ S := fun c => (h.leg c).ctx
  have hF : ∀ c, FaultIn c S := fun c => (h.leg c).toFaultIn
  unfold fillReturn
  split
  · exact H
  · have D := fun f => dropFetch_only (f := f) h.fetches H
    refine only_ite (fillFaults_only hF (D _)) ?_
    split
    · exact only_ite (D _) (fillData_only hc h.lcache (D _))
    · exact only_ite (D _) (fillFaults_only hF (D _))
    · exact only_ite (busError_only h (D _)) (only_ite (reissue_only hc h.fetches (busyErr_only h.flash H)) (busyErr_only h.flash (D _)))

theorem endData_only {w} (h : FaultIn c S) (H : Only S s u) : Only S s (endData c w u) := by
  have H1 := put_modR (f := fun r => { r with leg := { r.leg with w0 := w } }) h.ctx H
  exact only_ite (finishTo_only h (only_ite H1 (invalidate_only h.lcache h.fetches H1)))
    (only_ite (park_only h.toSeqIn H1) (only_ite (faultPc_only h (put_modW h.ctx H1))
      (finishTo_only h (leaveWait_only h.ctx (invalidate_only h.lcache h.fetches H1)))))
theorem endReturn_only {r} (h : FaultIn c S) (hl : ∀ c, .ctx c ∈ S) (hf : .flash ∈ S) (H : Only S s u) : Only S s (endReturn c r u) := by
  unfold endReturn
  split
  · exact H
  · have D := fun f => dropFetch_only (f := f) h.fetches H
    refine only_ite (D _) (only_ite (faultPc_only h (D _)) ?_)
    split
    · exact endData_only h (D _)
    · exact faultPc_only h (D _)
    · exact only_ite (reissue_only hl h.fetches (busyErr_only hf H)) (faultPc_only h (D _))

theorem stopReads_only {l} (hl : laneIn l S) (ho : .offered ∈ S) (H : Only S s u) : Only S s (stopReads u l) := by
  unfold stopReads
  split
  · exact H
  · exact put_offered ho (only_ite H (put_setLane hl H))
theorem haltIssueStop_only (h : HaltIn S) (ha : ∀ l c, LaneIn l c S) (H : Only S s u) : Only S s (haltIssueStop u) := by
  unfold haltIssueStop
  refine only_ite H ?_
  refine only_foldl _ (fun _ _ H => advance_only (fun _ _ => ha _ _) H) (only_put
    (only_foldl (f := stopReads) (u.lanes.map (·.1)) (fun _ _ H => stopReads_only ((h.leg 0).lane _) (h.leg 0).offered H) H)
    (fun q hq => ?_))
  have hh := h.halt
  have hf := h.fetches
  cases q <;> first | rfl | exact ⟨rfl, rfl⟩ | exact absurd hh hq | exact absurd hf hq
theorem haltRetry_only (h : LookIn S) (hh : .halt ∈ S) (hf : .fetches ∈ S) (H : Only S s u) : Only S s (haltRetry u) := by
  unfold haltRetry
  have H1 := beginLookup_only (q := fetchAsk u.halt.addr u.halt.colour 3 2) h H
  refine only_ite H (only_put H1 (fun q hq => ?_))
  cases q <;> first | rfl | exact ⟨rfl, rfl⟩ | exact absurd hh hq | exact absurd hf hq
theorem retryLate_only (hh : .halt ∈ S) (hf : .fetches ∈ S) (H : Only S s u) : Only S s (retryLate u) := endRetry_only hh (put_fetches hf H)
theorem retryEnds_only {f r} (h : HaltIn S) (H : Only S s u) : Only S s (retryEnds f r u) := by
  have hc : ∀ c, .ctx c ∈ S := fun c => (h.leg c).ctx
  have D := dropFetch_only (f := f) h.fetches H
  cases r with
  | data l => exact endRetry_only h.halt (fillData_only hc h.lcache D)
  | poison => exact endRetry_only h.halt D
  | err => exact only_ite (reissue_only hc h.fetches (busyErr_only h.flash H)) (endRetry_only h.halt (uncorrected_only h.errIn D))
theorem haltRetryEnd_only {r} (h : HaltIn S) (H : Only S s u) : Only S s (haltRetryEnd r u) := by
  unfold haltRetryEnd
  refine only_ite H ?_
  split
  · exact only_ite H (retryLate_only h.halt h.fetches H)
  · exact H
  · exact only_ite (retryLate_only h.halt h.fetches H) (retryEnds_only h H)
theorem haltDecision_only (h : RecIn S) (hh : .halt ∈ S) (H : Only S s u) : Only S s (haltDecision u) := by
  unfold haltDecision
  split
  · exact H
  · exact only_ite H (only_ite (haltRec_only h (put_halt hh H)) (only_ite (haltRec_only h (put_halt hh H)) (put_halt hh H)))
theorem goOn_only (h : LegIn c S) (H : Only S s u) : Only S s (goOn c u) := by
  unfold goOn
  split
  · exact only_ite (put_modR h.ctx H) (unhalt_only h H)
  · exact only_ite (startFetch_only h.toSeqIn H) H
  · exact H
theorem recover_only (h : HaltIn S) (H : Only S s u) : Only S s (recover u) :=
  haltRec_only h.errIn.toRecIn (only_foldl _ (fun _ _ H => goOn_only (h.leg _) H) (put_halt h.halt H))
theorem recovery_only (h : HaltIn S) (H : Only S s u) : Only S s (recovery u) := by
  unfold recovery
  split
  · exact only_ite (recover_only h H) H
  · exact H
theorem globalResume_only (h : HaltIn S) (H : Only S s u) : Only S s (globalResume u) := only_ite (recover_only h H) H

end Sys2Proof.Laws
end

