-- ==== Sys2Proof/Laws/FrameLinks.lean ====
section
/-! SUPPORT. The frames of the links, of frames as they arrive, and of windowed counting and fences. -/

namespace Sys2Proof.Laws
open Sys2Proof.Machine

variable {S : Set Area} {s u : State} {c p : Nat}

/-- What the loss of a link, or of a path, changes. -/
structure LinkIn (S : Set Area) : Prop extends AnyIn S where
  sync : .sync ∈ S
  mer : .mer ∈ S

theorem LinkIn.merIn (h : LinkIn S) : MerIn S := ⟨h.toRecIn, h.mer⟩

theorem sendNote_only {l n v} (h : SendIn S) (H : Only S s u) : Only S s (sendNote l p n v u) := by
  unfold sendNote
  refine only_ite H (only_ite (only_ite (nextNote_only h (setSurvey_only h.fab H)) H) ?_)
  split
  · exact queueFrame_only (h.link _) H
  · exact H
theorem reroute_only (h : AnyIn S) (H : Only S s u) : Only S s (reroute p u) :=
  only_foldl _ (fun _ _ H => only_ite (routeTx_only h H) (freeFlits_only h.link H)) (put_modP (h.link p) H)
theorem failover_only (h : RecIn S) (H : Only S s u) : Only S s (failover p u) := only_ite H (fabRec_only h H)
theorem portLost_only (h : LinkIn S) (H : Only S s u) : Only S s (portLost p u) :=
  checkParent_only h.mer h.sync (failover_only h.toRecIn (reroute_only h.toAnyIn H))
theorem linkUp_only {n v} (h : SendIn S) (H : Only S s u) : Only S s (linkUp p n v u) :=
  only_ite H (only_ite (fabRec_only h.toRecIn (put_setPort (h.link p) H)) (sendNote_only h (fabRec_only h.toRecIn (put_setPort (h.link p) H))))
theorem countUncorrected_only {k} (h : ErrIn S) (n : Nat) (H : Only S s u) : Only S s (countUncorrected k n u) := by
  induction n generalizing u with
  | zero => exact H
  | succ n ih => exact ih (uncorrected_only h H)
theorem portDown_only {k} (h : LinkIn S) (H : Only S s u) : Only S s (portDown p k u) :=
  sendNote_only h.toSendIn (portLost_only h (fabRec_only h.toRecIn (countUncorrected_only h.toErrIn _ (put_setPort (h.link p) H))))
theorem linkDown_only {k} (h : LinkIn S) (H : Only S s u) : Only S s (linkDown p k u) := only_ite H (only_ite (portDown_only h H) H)
theorem enablePort_only {e} (h : LinkIn S) (H : Only S s u) : Only S s (enablePort p e u) :=
  only_ite (portDown_only h (put_modP (h.link p) H)) (put_modP (h.link p) H)
theorem clearPstat_only (h : .link p ∈ S) (H : Only S s u) : Only S s (clearPstat p u) := put_modP h H
theorem nakWord_only {x} (h : .link p ∈ S) (H : Only S s u) : Only S s (nakWord p x u) := only_ite H (put_setPort h H)
theorem ackWord_only {x} (h : .link p ∈ S) (H : Only S s u) : Only S s (ackWord p x u) := only_ite H (put_setPort h H)
theorem creditWord_only {x n} (h : .link p ∈ S) (H : Only S s u) : Only S s (creditWord p x n u) := only_ite H (put_modP h H)
theorem identWord_only {n v} (h : SendIn S) (H : Only S s u) : Only S s (identWord p n v u) :=
  only_ite H (only_ite (sendNote_only h (put_setPort (h.link p) H)) (put_setPort (h.link p) H))
theorem skipDue_only (h : .link p ∈ S) (H : Only S s u) : Only S s (skipDue p u) := only_ite (put_setPort h H) H
theorem identDue_only (h : .link p ∈ S) (H : Only S s u) : Only S s (identDue p u) := only_ite (put_setPort h H) H

/-! ### Frames as they arrive -/

theorem takeFrame_only {f} {t : State} (h : .link p ∈ S) (H : Only S s u) (ht : takeFrame p f u = some t) : Only S s t := by
  unfold takeFrame at ht
  dsimp only at ht
  split at ht
  · cases ht
  · cases ht; exact owe_only h (put_setPort h H)
theorem sendOn_only {q t} (ht : t.own = false) (h : SendIn S) (H : Only S s u) : Only S s (sendOn q t u) := by
  unfold sendOn; split
  · exact only_ite (queueTx_only (h.link _) H) (freeFlits_only h.link H)
  · exact forwarded_only ht h H
theorem forward_only {f g q} (h : SendIn S) (H : Only S s u) : Only S s (forward p f g q u) :=
  only_ite (freeFlits_only h.link (refuse_only h.toRecIn h.fab H)) (sendOn_only rfl h H)
theorem stompOn_only {b f} (h : ∀ p, .link p ∈ S) (H : Only S s u) : Only S s (stompOn p b f u) := by
  unfold stompOn
  dsimp only
  split
  · exact freeFlits_only h H
  · split
    · exact queueTx_only (h _) H
    · exact freeFlits_only h H
theorem crcBad_only {f} (h : ErrIn S) (hp : ∀ p, .link p ∈ S) (H : Only S s u) : Only S s (crcBad p f u) :=
  have H1 := corrected_only h (owe_only (hp p) (put_setPort (hp p) H))
  only_ite H (only_ite (stompOn_only hp H1) H1)
theorem crcFail_only {x f} (h : ErrIn S) (hp : ∀ p, .link p ∈ S) (H : Only S s u) : Only S s (crcFail p x f u) := by
  unfold crcFail
  refine only_ite H (only_ite ?_ (crcBad_only h hp H))
  split
  · exact stompOn_only hp (takeFrame_only (hp p) H ‹_›)
  · exact H

theorem inWrs_only {hd a t q m d} (h : FabIn S) (H : Only S s u) : Only S s (inWrs p hd a t q m d u) :=
  inboundOffer_only h.submit (inboundStart_only h.fab h.tele H)
theorem inWr_only {hd a t l} (h : FabIn S) (H : Only S s u) : Only S s (inWr p hd a t l u) :=
  only_foldl _ (fun _ _ H => inboundOffer_only h.submit H) (inboundStart_only h.fab h.tele H)
theorem inRd_only {hd a t m} (h : FabIn S) (H : Only S s u) : Only S s (inRd p hd a t m u) :=
  inboundOffer_only h.submit (inboundStart_only h.fab h.tele H)
theorem inEv_only {hd n} (h : SendIn S) (ha : .arrivals ∈ S) (H : Only S s u) : Only S s (inEv p hd n u) := by
  unfold inEv
  extract_lets g bad c words s1 s2 was f3 s3
  have H1 : Only S s s1 := only_foldl _ (fun _ _ H => foundSoft_only h.toCheckIn H) H
  have H2 : Only S s s2 := by
    simp only [s2]; split
    · exact ruleError_only h.toCheckIn H1
    · exact H1
  clear_value s2
  have H3 : Only S s s3 := markSet_only (put_fab h.fab rfl rfl H2)
  exact only_ite (request_only ha H2) (only_ite H3 (fabRec_only h.toRecIn H3))
theorem destTimeout_only {i} (h : SendIn S) (H : Only S s u) : Only S s (destTimeout i u) := by
  unfold destTimeout
  split
  · exact respond_only h (put_fab h.fab rfl rfl H)
  · exact H
theorem cameAck_only {hd a t} (h : FabIn S) (hc : ∀ c, .ctx c ∈ S) (H : Only S s u) : Only S s (cameAck hd a t u) := by
  unfold cameAck
  split
  · exact only_ite (outAccepted_only (fun _ _ _ _ => hc _) (takeOut_only h.out H)) H
  · exact only_ite (rlAnswered_only h H) H
theorem domainNak_only {f n d} (h : RecIn S) (H : Only S s u) : Only S s (domainNak f n d u) := by
  unfold domainNak
  split
  · exact only_ite (offerNow_only h H) H
  · exact H
theorem cameNak_only {hd a t r d n} (h : AnyIn S) (H : Only S s u) : Only S s (cameNak hd a t r d n u) := by
  unfold cameNak
  split
  · exact outFails_only (h.ends _ _ _) (takeOut_only h.out (only_ite (domainNak_only h.toRecIn H) H))
  · exact only_ite (rlAnswered_only h.toFabIn H) H
theorem cameRdr_only {a t q d} (h : AnyIn S) (H : Only S s u) : Only S s (cameRdr a t q d u) := by
  unfold cameRdr
  split
  · exact only_ite H (outData_only (h.ends _ _ _) (takeOut_only h.out H))
  · exact H
theorem remoteTimeout_only {t} (h : AnyIn S) (H : Only S s u) : Only S s (remoteTimeout t u) := by
  unfold remoteTimeout
  split
  · exact outFails_only (h.ends _ _ _) (takeOut_only h.out H)
  · exact H
theorem cameSv_only {x a i} (h : SendIn S) (H : Only S s u) : Only S s (cameSv p x a i u) :=
  only_ite (put_fab h.fab rfl rfl H) (sendPath_only h.link H)
theorem cameSvr_only {x w i v wt wv a ps} (h : FabIn S) (H : Only S s u) : Only S s (cameSvr p x w i v wt wv a ps u) := by
  unfold cameSvr
  refine only_ite (nextNote_only h.toSendIn ?_) H
  split
  · exact leaveEnds_only h H
  · exact svrCame_only h H
theorem svTimeout_only (h : FabIn S) (H : Only S s u) : Only S s (svTimeout u) := by
  unfold svTimeout
  refine only_ite (nextNote_only h.toSendIn ?_) H
  split
  · exact leaveEnds_only h H
  · exact walkOn_only h.toSendIn (setSurvey_only h.fab H)
theorem cameRl_only {hd l f es} (h : SendIn S) (hs : .sync ∈ S) (hm : .mer ∈ S) (H : Only S s u) : Only S s (cameRl p hd l f es u) := by
  unfold cameRl
  refine only_ite ?_ (sendPath_only h.link H)
  extract_lets s1 s2
  have W : ∀ n v u, Only S s u → Only S s (writeRoute n v u) := fun n v u H =>
    checkParent_only hm hs (cleanWord_only h.atlas (put_fab h.fab rfl rfl H))
  have H1 : Only S s s1 := only_foldl (f := fun s e => if f.toNat + e.2 < 4096 then writeRoute (f.toNat + e.2) e.1 s else s) es.zipIdx
    (fun _ _ H => only_ite (W _ _ _ H) H) H
  have H2 : Only S s s2 := sendPath_only h.link H1
  clear_value s2
  exact only_ite (fabRec_only h.toRecIn (put_fab h.fab rfl rfl H2)) H2
theorem rlTimeout_only (h : FabIn S) (H : Only S s u) : Only S s (rlTimeout u) := by
  unfold rlTimeout
  split
  · exact only_ite (endLoad_only h H) H
  · exact H
theorem cameNote_only {hd l q n} (h : SendIn S) (H : Only S s u) : Only S s (cameNote hd l q n u) :=
  only_ite (nextNote_only h (setSurvey_only h.fab H)) H

theorem syncExchange_only {k} (hs : .sync ∈ S) (hl : ∀ p, .link p ∈ S) (H : Only S s u) : Only S s (syncExchange k u) := by
  unfold syncExchange
  split
  · exact H
  · exact only_ite H (queueTx_only (hl _) (put_sync hs H))
theorem syncFailed_only (hs : .sync ∈ S) (hm : .mer ∈ S) (H : Only S s u) : Only S s (syncFailed u) :=
  only_ite (pathLost_only hm hs (put_sync hs H)) (put_sync hs H)
theorem synrTimeout_only (hs : .sync ∈ S) (hm : .mer ∈ S) (H : Only S s u) : Only S s (synrTimeout u) :=
  only_ite (syncFailed_only hs hm H) H
theorem cameSynq_only {hd k l} (h : .link p ∈ S) (H : Only S s u) : Only S s (cameSynq p hd k l u) := queueTx_only h H
theorem syncCorrect_only {o} (h : MerIn S) (hw : .merWas ∈ S) (H : Only S s u) : Only S s (syncCorrect o u) :=
  have H1 := correct_only (o := o) (r := some (syncRate u.mer.rate o u.sync.per)) h hw H
  only_ite (trySync_only h (only_ite (put_mer h.mer H1) H1)) H
theorem cameSynr_only {n a b k} (h : MerIn S) (hw : .merWas ∈ S) (hs : .sync ∈ S) (H : Only S s u) : Only S s (cameSynr p n a b k u) := by
  unfold cameSynr
  dsimp only
  split
  · exact H
  · exact only_ite H (only_ite (syncFailed_only hs h.mer H) (syncCorrect_only h hw (put_sync hs H)))

/-- What a frame that the router acts on changes. -/
structure ActIn (S : Set Area) : Prop extends LinkIn S where
  arrivals : .arrivals ∈ S
  merWas : .merWas ∈ S

theorem act_only {k l f} (h : ActIn S) (H : Only S s u) : Only S s (act p k l f u) := by
  unfold act
  split
  · exact inWrs_only h.toFabIn H
  · exact inWr_only h.toFabIn H
  · exact inRd_only h.toFabIn H
  · exact inEv_only h.toSendIn h.arrivals H
  · exact cameAck_only h.toFabIn (fun c => (h.leg c).ctx) H
  · exact cameNak_only h.toAnyIn H
  · exact cameRdr_only h.toAnyIn H
  · exact cameNote_only h.toSendIn H
  · exact refuse_only h.toRecIn h.fab H
  · exact cameSynq_only (h.link p) H
  · exact cameSynr_only h.merIn h.merWas h.sync H
  · exact cameSv_only h.toSendIn H
  · exact cameSvr_only h.toFabIn H
  · exact cameRl_only h.toSendIn h.sync h.mer H

/-- A frame that comes by a link, whatever becomes of it: `ha` says what it changes where the router acts on it. -/
theorem receiveAt_act {k l f} (h : SendIn S) (ha : ∀ {v}, Only S s v → Only S s (act p k l f v)) (H : Only S s u) :
    Only S s (receiveAt p k l f u) := by
  unfold receiveAt
  split
  · exact H
  · have H1 := takeFrame_only (h.link p) H ‹_›
    refine only_ite (freeFlits_only h.link H1) ?_
    split
    · exact forward_only h H1
    · exact ha (freeFlits_only h.link H1)
theorem receiveAt_only {k l f} (h : ActIn S) (H : Only S s u) : Only S s (receiveAt p k l f u) :=
  receiveAt_act h.toSendIn (fun H => act_only h H) H
theorem receive_only {f} (h : ActIn S) (H : Only S s u) : Only S s (receive p f u) := receiveAt_only h H
theorem surveyGo_only (h : FabIn S) (H : Only S s u) : Only S s (surveyGo u) :=
  only_ite H (only_ite (put_fab h.fab rfl rfl H) (startSurvey_only h (put_fab h.fab rfl rfl H)))
theorem writeLoad_only {v} (h : FabIn S) (H : Only S s u) : Only S s (writeLoad v u) :=
  only_ite (startLoad_only h (setLoad_only h.fab H)) (setLoad_only h.fab H)

/-! ### Windowed counting and fences -/

theorem windowEnd_only {k} (h : .err k ∈ S) (H : Only S s u) : Only S s (windowEnd k u) := put_setErr h H
theorem writeErrc_only {k v} (h : .err k ∈ S) (H : Only S s u) : Only S s (writeErrc k v u) := put_setErr h H
theorem fenceRec_only {t n d k} (h : RecIn S) (H : Only S s u) : Only S s (fenceRec t n d k u) := offerNow_only h H
theorem setGridFence_only {n} (h : .fences ∈ S) (H : Only S s u) : Only S s (setGridFence n u) := put_fences h H
theorem setFence_only {n} (h : .fences ∈ S) (H : Only S s u) : Only S s (setFence n u) :=
  only_ite (setGridFence_only h H) (only_ite (put_fences h H) (put_fences h H))
theorem hardFence_only {k} (h : RecIn S) (hf : .fences ∈ S) (H : Only S s u) : Only S s (hardFence k u) :=
  only_ite H (fenceRec_only h (setFence_only hf H))
theorem setLasting_only {k n} (h : RecIn S) (hk : .err k ∈ S) (H : Only S s u) : Only S s (setLasting k n u) :=
  offerNow_only h (put_setErr hk (markSet_only H))
theorem applyFence_only {k} (h : RecIn S) (hk : .err k ∈ S) (hf : .fences ∈ S) (H : Only S s u) : Only S s (applyFence k u) :=
  only_ite H (hardFence_only h hf (put_setErr hk H))
theorem lastingFault_only {k} (h : RecIn S) (hk : .err k ∈ S) (hf : .fences ∈ S) (H : Only S s u) : Only S s (lastingFault k u) := by
  unfold lastingFault
  split
  · exact only_ite (applyFence_only h hk hf (setLasting_only h hk H)) H
  · exact applyFence_only h hk hf H
theorem writeFence_only {v} (h : RecIn S) (hf : .fences ∈ S) (hm : .mgt ∈ S) (H : Only S s u) : Only S s (writeFence v u) := by
  unfold writeFence
  refine only_foldl _ (fun _ _ H => fenceRec_only h H) ?_
  refine only_foldl _ (fun _ _ H => fenceRec_only h H) ?_
  refine only_foldl _ (fun _ _ H => fenceRec_only h H) ?_
  refine only_foldl _ (fun _ _ H => fenceRec_only h H) ?_
  refine only_foldl _ (fun _ _ H => fenceRec_only h H) ?_
  exact put_fences hf (only_foldl _ (fun _ _ H => setGridFence_only hf H) (put_mgt hm rfl rfl H))
theorem fencesInForce_only (h : LinkIn S) (hf : .fences ∈ S) (H : Only S s u) : Only S s (fencesInForce u) :=
  only_foldl _ (fun _ _ H => portLost_only h H) (put_fences hf H)
theorem fencesAgain_only (h : ErrIn S) (hf : .fences ∈ S) (H : Only S s u) : Only S s (fencesAgain u) :=
  only_foldl _ (fun _ _ H => applyFence_only h.toRecIn (h.err _) hf H) H

end Sys2Proof.Laws
end

