-- ==== Sys2Proof/Laws/FrameMgmt.lean ====
section
/-! SUPPORT. The frames of the boundary with the ZR7, of the resets' requests and readiness, of the management plane and
of the reads of the register window. -/

namespace Sys2Proof.Laws
open Sys2Proof.Machine

variable {S : Set Area} {s u : State} {c : Nat}

/-! ### Power, flash and the debug path -/

theorem setPower_only {f} (h : .power ∈ S) (H : Only S s u) : Only S s (setPower f u) := put_power h H
theorem pdreqRise_only {d} (h : .power ∈ S) (H : Only S s u) : Only S s (pdreqRise d u) :=
  only_ite H (only_ite (setPower_only h H) (setPower_only h H))
theorem domainBack_only {d} (h : RecIn S) (hp : .power ∈ S) (hn : ∀ n, .input n ∈ S) (H : Only S s u) : Only S s (domainBack d u) :=
  requalifyAll_only h hn (setPower_only hp H)
theorem pdreqDrop_only {d} (h : RecIn S) (hp : .power ∈ S) (hn : ∀ n, .input n ∈ S) (H : Only S s u) : Only S s (pdreqDrop d u) := by
  unfold pdreqDrop
  extract_lets ends
  have H1 : Only S s (ends u) := setPower_only hp H
  exact only_ite H (only_ite (setPower_only hp H1) (only_ite (domainBack_only h hp hn H1) H1))
theorem pgoodFall_only {d} (h : RecIn S) (hp : .power ∈ S) (hn : ∀ n, .input n ∈ S) (H : Only S s u) : Only S s (pgoodFall d u) :=
  only_ite H (requalifyAll_only h hn (setPower_only hp H))
theorem pdRec_only {t d n w} (h : RecIn S) (H : Only S s u) : Only S s (pdRec t d n w u) := only_ite (offerNow_only h H) H
theorem domainReturn_only {d} (h : RecIn S) (hp : .power ∈ S) (hn : ∀ n, .input n ∈ S) (H : Only S s u) : Only S s (domainReturn d u) :=
  only_ite H (only_ite (setPower_only hp H) (domainBack_only h hp hn H))
theorem comeBack_only {d o} (h : ∀ c, SeqIn c S) (H : Only S s u) : Only S s (comeBack d o u) := by
  have H1 : Only S s ((heldIn u d).foldl (fun s c => continueCh c (leaveWait c s)) u) :=
    only_foldl _ (fun _ _ H => continueCh_only (h _) (leaveWait_only (h _).ctx H)) H
  exact only_ite (pdRec_only (h 0).toRecIn H1) H1
theorem backNow_only (h : ∀ c, SeqIn c S) (H : Only S s u) : Only S s (backNow u) :=
  only_foldl _ (fun _ _ H => comeBack_only h H) (setPower_only (h 0).power H)
theorem pdackNow_only {d} (h : RecIn S) (hp : .power ∈ S) (hn : ∀ n, .input n ∈ S) (H : Only S s u) : Only S s (pdackNow d u) :=
  only_ite H (pdRec_only h (requalifyAll_only h hn (setPower_only hp H)))
theorem pdnakNow_only {d} (h : RecIn S) (hp : .power ∈ S) (H : Only S s u) : Only S s (pdnakNow d u) := by
  unfold pdnakNow
  split
  · exact H
  · exact only_ite H (pdRec_only h (setPower_only hp (markSet_only H)))
theorem bankSet_only {b} (hf : .flash ∈ S) (hF : .fetches ∈ S) (hc : ∀ c, .ctx c ∈ S) (H : Only S s u) : Only S s (bankSet b u) :=
  only_ite H (only_foldl _ (fun _ _ H => only_foldl _ (fun _ _ H => flashHold_only (hc _) H) H) (put_fetches hF (put_flash hf H)))
theorem bankClear_only {b} (h : ∀ c, SeqIn c S) (hf : .flash ∈ S) (H : Only S s u) : Only S s (bankClear b u) :=
  only_ite H (only_foldl _ (fun _ _ H => continueCh_only (h _) (leaveWait_only (h _).ctx H)) (put_flash hf H))
theorem flashTimeout_only (h : FaultIn c S) (hf : .flash ∈ S) (H : Only S s u) : Only S s (flashTimeout c u) :=
  only_ite (put_flash hf (faultPc_only h H)) H
theorem debugStart_only {w a z d} (h : SubmitIn S) (hd : .dbg ∈ S) (H : Only S s u) : Only S s (debugStart w a z d u) :=
  only_ite H (submit_only h (put_dbg hd H))

/-! ### Resets, readiness and spread -/

theorem resetRequest_only {k} (h : .glob ∈ S) (H : Only S s u) : Only S s (resetRequest k u) := only_ite (put_glob h rfl rfl H) H
theorem setReady_only {b} (h : .glob ∈ S) (hl : ∀ l, laneIn l S) (H : Only S s u) : Only S s (setReady b u) := by
  cases b with
  | lane l => exact put_setLane (hl l) H
  | _ => exact put_glob h rfl rfl H
theorem writeSpread_only {d} (h : .glob ∈ S) (H : Only S s u) : Only S s (writeSpread d u) := only_ite H (put_glob h rfl rfl H)
theorem spreadApply_only (h : .glob ∈ S) (H : Only S s u) : Only S s (spreadApply u) := by
  unfold spreadApply
  split
  · exact only_ite (put_glob h rfl rfl H) H
  · exact H

/-! ### The management plane -/

theorem setScrub_only {f} (h : .mgt ∈ S) (H : Only S s u) : Only S s (setScrub f u) := put_mgt h rfl rfl H
theorem setTest_only {f} (h : .mgt ∈ S) (H : Only S s u) : Only S s (setTest f u) := put_mgt h rfl rfl H
theorem setTele_only {f} (h : .tele ∈ S) (H : Only S s u) : Only S s (setTele f u) := put_tele h H
theorem teleAsk_only {m} (h : .tele ∈ S) (H : Only S s u) : Only S s (teleAsk m u) := setTele_only h H
theorem telePeriod_only (h : .tele ∈ S) (H : Only S s u) : Only S s (telePeriod u) := only_ite H (teleAsk_only h (setTele_only h H))
theorem capture_only (h : .tele ∈ S) (H : Only S s u) : Only S s (capture u) := setTele_only h H
theorem teleCapture_only (h : .tele ∈ S) (H : Only S s u) : Only S s (teleCapture u) := only_ite (capture_only h H) H

/-- What an uncorrectable word that the scrubber finds may change. -/
structure ScrubIn (S : Set Area) : Prop extends LoseIn S where
  mgt : .mgt ∈ S

theorem addBad_only {w} (h : .atlas ∈ S) (H : Only S s u) : Only S s (loseWord.addBad w u) :=
  only_ite H (only_put H (fun q hq => by cases q <;> first | rfl | exact ⟨rfl, rfl⟩ | exact absurd h hq))
theorem LoseIn.grat (h : LoseIn S) : GratIn S := ⟨(h.fault 0).toErrIn, (h.fault 0).grat, h.atlas⟩
theorem loseWord_only {a k} (h : LoseIn S) (H : Only S s u) : Only S s (loseWord a k u) := by
  have h0 := h.fault 0
  unfold loseWord
  split
  · exact cleanWord_only h.atlas (loseContext_only h H)
  · split
    · exact put_lcache h0.lcache H
    · exact H
  · exact only_ite (loseEntry_only h.grat H) (cleanWord_only h.atlas H)
  all_goals first | exact addBad_only h.atlas H | exact put_setLane (h0.lane _) H
theorem fixWord_only {a k} (h : LoseIn S) (H : Only S s u) : Only S s (fixWord a k u) := by
  have h0 := h.fault 0
  have ha := h.atlas
  unfold fixWord
  split
  · split
    · exact put_lcache h0.lcache H
    · exact H
  all_goals first
    | exact put_setLane (h0.lane _) H
    | exact only_put H (fun q hq => by cases q <;> first | rfl | exact ⟨rfl, rfl⟩ | exact absurd ha hq)
theorem passDone_only {a} (h : RecIn S) (hm : .mgt ∈ S) (H : Only S s u) : Only S s (passDone a u) :=
  only_ite (offerNow_only h (setScrub_only hm H)) (setScrub_only hm H)
theorem scrubWord_only {a f} (h : ScrubIn S) (H : Only S s u) : Only S s (scrubWord a f u) := by
  have h0 := (h.fault 0).toErrIn
  unfold scrubWord
  extract_lets k at_ s1 last x
  have H1 : Only S s s1 := by
    simp only [s1]
    split
    · exact H
    · exact setScrub_only h.mgt (fixWord_only h.toLoseIn (corrected_only h0 H))
    · exact loseWord_only h.toLoseIn (uncorrected_only h0 H)
  clear_value s1
  exact only_ite (passDone_only h0.toRecIn h.mgt (setScrub_only h.mgt H1)) (setScrub_only h.mgt H1)
theorem scrubStep_only {a f} (h : ScrubIn S) (H : Only S s u) : Only S s (scrubStep a f u) := only_ite H (scrubWord_only h H)
theorem forcedSlot_only {a f} (h : ScrubIn S) (ht : .tele ∈ S) (H : Only S s u) : Only S s (forcedSlot a f u) :=
  only_ite H (only_ite (capture_only ht (setScrub_only h.mgt H)) (scrubWord_only h (setScrub_only h.mgt H)))

theorem testGo_only (h : .mgt ∈ S) (H : Only S s u) : Only S s (testGo u) := by
  unfold testGo
  refine only_ite (markSet_only (setTest_only h H)) ?_
  split
  · exact setTest_only h H
  · exact setTest_only h H
theorem spoilBank_only (hg : .grid ∈ S) (ha : .atlas ∈ S) (hf : .free ∈ S) (H : Only S s u) : Only S s (spoilBank u) :=
  only_ite (only_put H (fun q hq => by
    cases q <;> first | rfl | exact ⟨rfl, rfl⟩ | exact absurd hf hq | exact absurd hg hq | exact absurd ha hq)) H

/-- What the end of a self-test changes. -/
structure TestIn (S : Set Area) : Prop extends CheckIn S where
  mgt : .mgt ∈ S
  free : .free ∈ S
  fences : .fences ∈ S

theorem testEnd_only {k w} (h : TestIn S) (H : Only S s u) : Only S s (testEnd k w u) := by
  have H1 := spoilBank_only h.grid h.atlas h.free (setTest_only (f := fun t => { t with busy := false, code := k, res := w }) h.mgt H)
  exact only_ite (offerNow_only h.toRecIn H1) H1
theorem liftTested_only (h : TestIn S) (H : Only S s u) : Only S s (liftTested u) :=
  only_ite (fenceRec_only h.toRecIn (setTest_only h.mgt (put_fences h.fences H))) H
theorem testStop_only (h : TestIn S) (H : Only S s u) : Only S s (testStop u) := only_ite (liftTested_only h (testEnd_only h H)) H
theorem testComplete_only {p w} (h : TestIn S) (H : Only S s u) : Only S s (testComplete p w u) :=
  only_ite H (liftTested_only h (only_ite (testEnd_only h H) (uncorrected_only h.toErrIn (testEnd_only h H))))

/-! ### Reads -/

theorem readHigh_only {b k w} (hr : .resp ∈ S) (hp : .port ∈ S) (H : Only S s u) : Only S s (readHigh b k w u) := by
  unfold readHigh
  split
  · exact put_resp hr (put_port hp rfl rfl H)
  · exact put_resp hr H
theorem wideRead_only {b w o k} (h : HostIn S) (hm : .mer ∈ S) (hq : ∀ q, QueueIn q S) (H : Only S s u) : Only S s (wideRead b w o k u) :=
  only_ite (nowRead_only h hm H) (only_ite (popHost_only (hq _) h.resp h.port H) (readResp_only h.resp h.port H))
theorem windowRead_only {b o z k} (h : HostIn S) (hm : .mer ∈ S) (hq : ∀ q, QueueIn q S) (H : Only S s u) : Only S s (windowRead b o z k u) :=
  only_ite (only_ite (wideRead_only h hm hq H) (put_resp h.resp H)) (only_ite (put_resp h.resp H)
    (only_ite (readHigh_only h.resp h.port H) (wideRead_only h hm hq H)))
theorem tableResp_only {b o z} (hr : .resp ∈ S) (hp : .port ∈ S) (H : Only S s u) : Only S s (tableResp b o z u) :=
  only_ite (put_resp hr H) (only_ite (put_resp hr H) (only_ite (put_resp hr (put_port hp rfl rfl H)) (readHigh_only hr hp H)))
theorem showFree_only {o} (h : .free ∈ S) (H : Only S s u) : Only S s (showFree o u) := only_ite (put_free h H) H
theorem tableFixed_only {a k} (h : CheckIn S) (H : Only S s u) : Only S s (tableFixed a k u) :=
  only_ite (foundSoft_only h H) (corrected_only h.toErrIn H)
theorem tableRead_only {b o z f} (h : HostIn S) (hf : .free ∈ S) (H : Only S s u) : Only S s (tableRead b o z f u) := by
  unfold tableRead
  split
  · exact H
  · refine only_ite (readHigh_only h.resp h.port H) ?_
    split
    · exact showFree_only hf (tableResp_only h.resp h.port H)
    · exact showFree_only hf (tableResp_only h.resp h.port (tableFixed_only h.toCheckIn H))
    · exact put_resp h.resp (uncorrected_only h.toErrIn H)

end Sys2Proof.Laws
end

