-- ==== Sys2Proof/Laws/FrameWrite.lean ====
section
/-! SUPPORT. The frames of the writes to the registers, page by page. -/

namespace Sys2Proof.Laws
open Sys2Proof.Machine

variable {S : Set Area} {s u : State}

/-- What a write to some register may change: everything that a register of any page acts on. -/
structure WriteIn (S : Set Area) : Prop extends ActIn S where
  resp : .resp ∈ S
  port : .port ∈ S
  ctl : .ctl ∈ S
  slots : .slots ∈ S
  legend : ∀ c, .legend c ∈ S
  legends : .legends ∈ S
  book : ∀ b, .book b ∈ S
  input : ∀ n, .input n ∈ S
  halt : .halt ∈ S
  flash : .flash ∈ S
  tags : .tags ∈ S
  glob : .glob ∈ S

section Window
variable (h : WriteIn S)
include h

theorem WriteIn.host : HostIn S := ⟨h.toCheckIn, h.resp, h.port⟩
theorem WriteIn.control (c : Nat) : ControlIn c S := ⟨h.leg c, h.slots⟩
theorem WriteIn.haltIn : HaltIn S := ⟨h.leg, h.halt, h.flash⟩
theorem WriteIn.table : TableIn S := ⟨h.host, h.fab, h.sync, h.mer⟩
theorem WriteIn.grat : .grat ∈ S := (h.leg 0).grat
theorem WriteIn.power : .power ∈ S := (h.leg 0).power
theorem WriteIn.ctx (c : Nat) : .ctx c ∈ S := (h.leg c).ctx

theorem writeHard_only {v x} (H : Only S s u) : Only S s (writeHard v x u) := by
  unfold writeHard
  refine only_foldl _ (fun v n H => only_ite H (put_setInp (h.input _) H)) (put_glob h.glob ?_ ?_ H) <;> dsimp only <;> split <;> rfl
theorem writeGlobal32_only {o v x} (H : Only S s u) : Only S s (writeGlobal32 o v x u) := by
  unfold writeGlobal32
  split
  · exact only_ite (resetRequest_only h.glob (put_glob h.glob rfl rfl H)) (put_glob h.glob rfl rfl H)
  · exact writeSpread_only h.glob H
  · exact put_glob h.glob rfl rfl H
  · exact writeHard_only h H
  · exact only_ite H (put_glob h.glob rfl rfl H)
  · exact only_ite (globalResume_only h.haltIn H) H
  · exact put_halt h.halt H
  · exact invalidate_only (h.leg 0).lcache (h.leg 0).fetches H
  · exact only_ite (put_flash h.flash H) H
  · exact setPower_only h.power H
  · exact H
theorem writeGlobal64_only {o v} (H : Only S s u) : Only S s (writeGlobal64 o v u) := by
  unfold writeGlobal64
  split
  · exact only_ite (clearTagHw_only h.tags H) H
  · exact writeSpillBase_only h.queue h.spill h.offered h.outst h.out H
  · exact only_ite (clearHwm_only h.spill H) H
  · exact setPower_only h.power H
  · exact H
theorem writeReqin64_only {n v b} (H : Only S s u) : Only S s (writeReqin64 n v b u) :=
  writeReqin_only (h.input n) h.arrivals (put_setInp (h.input n) H)
theorem writeBook32_only {b a v} (H : Only S s u) : Only S s (writeBook32 b a v u) := by
  unfold writeBook32
  split
  · have H1 := fun x => put_setBook (x := x) (h.book b) (markSet_only (k := w1cKey (bookStatus b) 63) H)
    exact only_ite (enableBook_only (h.book b) (H1 _)) (put_setBook (h.book b) (H1 _))
  · exact writeRidx_only (h.book b) H
  · exact H
theorem writeBook64_only {b a v} (H : Only S s u) : Only S s (writeBook64 b a v u) := by
  unfold writeBook64
  dsimp only
  split
  · exact only_ite H (put_setBook (h.book b) H)
  · exact put_setBook (h.book b) H
  · exact H
theorem writeMer32_only {o v} (H : Only S s u) : Only S s (writeMer32 o v u) := by
  unfold writeMer32
  split
  · exact writeSrc_only h.merIn h.merWas (put_mer h.mer H)
  · exact put_mer h.mer H
  · exact only_ite H (put_mer h.mer H)
  · exact put_grat h.grat H
  · exact gratCmd_only h.grat H
  · exact H
theorem writeMer64_only {o v} (H : Only S s u) : Only S s (writeMer64 o v u) := by
  unfold writeMer64
  split
  · exact setMer_only h.mer H
  · exact adjMer_only h.merIn h.merWas H
  · exact only_ite (gratClear_only h.grat (put_grat h.grat H)) (put_grat h.grat H)
  · exact put_grat h.grat H
  · exact put_grat h.grat H
  · exact put_grat h.grat H
  · exact put_grat h.grat H
  · exact H
theorem writeQueue32_only {q a v} (H : Only S s u) : Only S s (writeQueue32 q a v u) := by
  unfold writeQueue32
  split
  · exact put_modQ (h.queue q) H
  · exact H
theorem writeQueue64_only {q a v} (H : Only S s u) : Only S s (writeQueue64 q a v u) := by
  unfold writeQueue64
  split
  · exact writeQcfg_only (h.toAnyIn.queueIn q) h.outst H
  · exact put_modQ (h.queue q) H
  · exact put_modQ (h.queue q) H
  · exact pushHost_only (h.toAnyIn.queueIn q) H
  · exact pushHost_only (h.toAnyIn.queueIn q) H
  · exact H
theorem writeAtlas32_only {o v} (H : Only S s u) : Only S s (writeAtlas32 o v u) := by
  have h1 := h.toCheckIn
  unfold writeAtlas32
  split
  · exact only_ite (clearAtlas_only h1 (putAtlas_only h1 H)) (putAtlas_only h1 H)
  · exact only_ite (commitGo_only h1 H) H
  · exact putAtlas_only h1 H
  · exact putAtlas_only h1 H
  · exact putAtlas_only h1 H
  · exact H
theorem writeAtlas64_only {o v} (H : Only S s u) : Only S s (writeAtlas64 o v u) := by
  have h1 := h.toCheckIn
  unfold writeAtlas64
  split
  · exact putAtlas_only h1 H
  · exact only_ite (clearValid_only h1 H) H
  · exact H
theorem writePort_only {p v} (H : Only S s u) : Only S s (writePort p v u) := by
  have H1 := put_modP (f := fun x => { x with asym := BitVec.ofNat 16 (fld v 47 32) }) (h.link p) H
  exact enablePort_only h.toLinkIn (only_ite (clearPstat_only (h.link p) H1) H1)
theorem writeFab32_only {o v} (H : Only S s u) : Only S s (writeFab32 o v u) := by
  unfold writeFab32
  split
  · exact put_fab h.fab rfl rfl H
  · exact put_fab h.fab rfl rfl (markSet_only H)
  · exact checkParent_only h.mer h.sync (put_sync h.sync H)
  · exact put_fab h.fab rfl rfl H
  · exact H
theorem writeFab64_only {o v} (H : Only S s u) : Only S s (writeFab64 o v u) := by
  unfold writeFab64
  split
  · exact put_fab h.fab rfl rfl H
  · exact only_ite (surveyGo_only h.toFabIn (setSurvey_only h.fab H)) (setSurvey_only h.fab H)
  · exact writeLoad_only h.toFabIn H
  · exact only_ite (put_fab h.fab rfl rfl H) (only_ite (writePort_only h H) H)
theorem writeChannel_only {c a v} (H : Only S s u) : Only S s (writeChannel c a v u) := by
  unfold writeChannel
  split
  · exact control_only h.ctl H
  · exact put_modW (h.ctx c) (put_modR (h.ctx c) H)
  · exact only_ite (put_modR (h.ctx c) H) H
  · exact control_only h.ctl H
  · exact writeLegend_only (h.ctx c) (h.legend c) h.legends h.slots H
  · exact control_only h.ctl H
  · exact only_ite (clearRearm_only (h.ctx c) H) H
  · exact H
theorem write32_only {o v x} (H : Only S s u) : Only S s (write32 o v x u) :=
  only_ite (writeGlobal32_only h H) (only_ite H (only_ite (writeEvo_only ((h.leg 0).evo _) H) (only_ite H (only_ite (writeBook32_only h H)
    (only_ite H (only_ite (writeMer32_only h H) (only_ite (writeQueue32_only h H) (only_ite (writeAtlas32_only h H)
      (only_ite (writeFab32_only h H) (only_ite H (writeChannel_only h H)))))))))))
theorem write64_only {o v x} (H : Only S s u) : Only S s (write64 o v x u) :=
  only_ite (writeGlobal64_only h H) (only_ite (writeReqin64_only h H) (only_ite (writeBook64_only h H) (only_ite (writeMer64_only h H)
    (only_ite (writeQueue64_only h H) (only_ite (writeAtlas64_only h H) (only_ite (writeFab64_only h H) H))))))
omit h in
/-- A write changes what the registers that it falls on change, and the low word that the initiator holds (R442, R443). -/
theorem splitWrite_only {w32 : Nat → W32 → State → State} {w64 : Nat → W64 → State → State} {b o z d} (hp : .port ∈ S)
    (h32 : ∀ o v {u}, Only S s u → Only S s (w32 o v u)) (h64 : ∀ o v {u}, Only S s u → Only S s (w64 o v u)) (H : Only S s u) :
    Only S s (splitWrite w32 w64 b o z d u) :=
  only_ite (only_ite (h64 _ _ (setLow_only hp H)) (h32 _ _ (h32 _ _ H)))
    (only_ite (h32 _ _ H) (only_ite (setLow_only hp H) (h64 _ _ (setLow_only hp H))))
/-- A write to the register window changes what the registers act on, and neither the leg cache's other lines, the
swap under way, the class pointers, the records' clock nor the straps. -/
theorem registerWrite_only {b o z d x} (H : Only S s u) : Only S s (registerWrite b o z d x u) :=
  splitWrite_only h.port (fun _ _ _ H => write32_only h H) (fun _ _ _ H => write64_only h H) H

end Window

/-! ### The management page -/

/-- What a write to the management page may change. -/
structure MgtIn (S : Set Area) : Prop extends ErrIn S where
  port : .port ∈ S
  fences : .fences ∈ S
  mgt : .mgt ∈ S
  tele : .tele ∈ S

variable (h : MgtIn S)
include h

theorem writeMgtCtrl_only {v} (H : Only S s u) : Only S s (writeMgtCtrl v u) :=
  only_put H (fun q hq => by
    have hr := h.rdrop
    have hm := h.mgt
    cases q <;> first | rfl | exact ⟨rfl, rfl⟩ | exact absurd hr hq | exact absurd hm hq)
theorem writeMgt32_only {o v} (H : Only S s u) : Only S s (writeMgt32 o v u) := by
  unfold writeMgt32
  split
  · exact writeMgtCtrl_only h H
  · exact setScrub_only h.mgt H
  · exact only_ite (testGo_only h.mgt (setTest_only h.mgt H)) (setTest_only h.mgt H)
  · exact only_ite (teleAsk_only h.tele (setTele_only h.tele H)) (setTele_only h.tele H)
  · exact writeFence_only h.toRecIn h.fences h.mgt H
  · exact H
theorem writeMgt64_only {o v} (H : Only S s u) : Only S s (writeMgt64 o v u) :=
  only_ite (only_ite (writeErrc_only (h.err _) H) (put_setErr (h.err _) H)) H
theorem mgtEffect_only {i} (H : Only S s u) : Only S s (mgtEffect i u) := by
  unfold mgtEffect
  split
  · exact writeFence_only h.toRecIn h.fences h.mgt H
  · exact writeErrc_only (h.err _) (setLow_only h.port H)
  · exact testGo_only h.mgt (setTest_only h.mgt H)
  · exact teleAsk_only h.tele H
  · exact splitWrite_only h.port (fun _ _ _ H => writeMgt32_only h H) (fun _ _ _ H => writeMgt64_only h H) H
  · exact H
theorem mgtDue_only (H : Only S s u) : Only S s (mgtDue u) := by
  unfold mgtDue
  split
  · exact mgtEffect_only h (put_port h.port rfl rfl H)
  · exact H

end Sys2Proof.Laws
end

