-- ==== Sys2Proof/Laws/FrameTick.lean ====
section
/-! SUPPORT. The frame of one ECLK: what time alone may change. -/

namespace Sys2Proof.Laws
open Sys2Proof.Machine

variable {S : Set Area} {s u : State}

/-- What one ECLK may change: everything but the legends, the swap under way, the class pointers, Meridian as kept for a change
of SRC, the flash, the host port's responses, the straps and the count of free values. -/
structure TickIn (S : Set Area) : Prop extends LinkIn S where
  pending : .pending ∈ S
  eclk : .eclk ∈ S
  port : .port ∈ S
  nextTag : .nextTag ∈ S
  dbg : .dbg ∈ S
  book : ∀ b, .book b ∈ S
  fences : .fences ∈ S
  tags : .tags ∈ S
  glob : .glob ∈ S
  slots : .slots ∈ S
  ctl : .ctl ∈ S
  remotes : .remotes ∈ S
  arrivals : .arrivals ∈ S
  input : ∀ n, .input n ∈ S
  halt : .halt ∈ S
  staged : .staged ∈ S
  recClk : .recClk ∈ S
  upsets : .upsets ∈ S
  mgt : .mgt ∈ S

variable (h : TickIn S)
include h

theorem TickIn.acc (a : Acc) (u : State) : AccIn a u S := h.toAnyIn.acc h.dbg h.book a u
theorem TickIn.ctx (c : Nat) : .ctx c ∈ S := (h.leg c).ctx
theorem TickIn.lane (l : Nat) : laneIn l S := (h.leg 0).lane l
theorem TickIn.power : .power ∈ S := (h.leg 0).power
theorem TickIn.fetches : .fetches ∈ S := (h.leg 0).fetches
theorem TickIn.control (c : Nat) : ControlIn c S := ⟨h.leg c, h.slots⟩

theorem applySet_only (H : Only S s u) : Only S s (applySet u) := by
  unfold applySet
  split
  · exact H
  · exact only_ite (stepped_only h.merIn (put_mer h.mer (put_mer h.mer H))) (rejected_only h.mer (put_mer h.mer H))
theorem merTick_only (H : Only S s u) : Only S s (merTick u) := applySet_only h (only_put H (fun q hq => by
    have hm := h.mer
    have hg := h.glob
    cases q <;> first | rfl | exact ⟨rfl, rfl⟩ | exact absurd hm hq | exact absurd hg hq))

/-! ### Errors, and lookups that complete -/

theorem upsetWord_only {x} (H : Only S s u) : Only S s (upsetWord x u) := by
  unfold upsetWord
  split
  · split
    · exact put_lcache (h.leg 0).lcache H
    · exact H
  all_goals first
    | exact only_ite H (only_ite (only_ite H (putAtlas_only h.toCheckIn H)) (addBad_only h.atlas H))
    | exact put_modQ (h.queue _) H
    | exact only_ite (putAtlas_only h.toCheckIn H) H
    | exact put_setLane (h.lane _) H
theorem applyUpsets_only (H : Only S s u) : Only S s (applyUpsets u) :=
  only_foldl _ (fun _ _ H => upsetWord_only h H) (put_upsets h.upsets H)
theorem allowAcc_only {a v} (H : Only S s u) : Only S s (allowAcc a v u) := by
  unfold allowAcc
  refine only_ite ?_ (put_offered h.offered H)
  extract_lets ps s1
  have H1 : Only S s s1 := put_offered h.offered H
  clear_value s1
  split
  · exact only_foldl _ (fun _ _ H => addCovered_only (h.ctx _) H) H1
  · exact H1
theorem allowOnly_only {a} (H : Only S s u) : Only S s (allowOnly a u) := by
  unfold allowOnly
  extract_lets first s1
  refine put_offered h.offered ?_
  simp only [s1]
  split
  · simp only [first]
    split
    · exact only_ite H (put_setLane (h.lane _) H)
    · exact H
  · exact H
theorem matureAcc_only {a} (H : Only S s u) : Only S s (matureAcc u a) := by
  unfold matureAcc
  split
  · rename_i q _
    refine only_ite H ?_
    have H1 := settle_only (q := q) (f := false) h.toCheckIn H
    generalize settle q false u = r at H1
    obtain ⟨t, v⟩ := r
    dsimp only
    split
    · exact denyAcc_only (h.acc a t) h.offered H1
    · exact only_ite (allowOnly_only h H1) (allowAcc_only h H1)
  · exact H
theorem denyFetch_only {f} (H : Only S s u) : Only S s (denyFetch f u) := by
  unfold denyFetch
  split
  · exact dropFetch_only h.fetches H
  · exact endRetry_only h.halt (dropFetch_only h.fetches H)
  · exact put_fetches h.fetches H
theorem matureFetch_only {f} (H : Only S s u) : Only S s (matureFetch u f) := by
  unfold matureFetch
  refine only_ite H ?_
  have H1 := settle_only (q := askFetch f) (f := decide (f.kind = .prefetch)) h.toCheckIn H
  generalize settle (askFetch f) (decide (f.kind = .prefetch)) u = r at H1
  obtain ⟨t, v⟩ := r
  exact only_ite (put_fetches h.fetches H1) (denyFetch_only h H1)
theorem lookups_only (H : Only S s u) : Only S s (lookups u) :=
  only_foldl _ (fun _ _ H => matureFetch_only h H) (only_foldl _ (fun _ _ H => matureAcc_only h H) H)

/-! ### Accesses that are not issued -/

theorem withdraw_only {a} (H : Only S s u) : Only S s (withdraw a u) := by
  have H1 : Only S s { u with offered := u.offered.erase a } := put_offered h.offered H
  unfold withdraw
  dsimp only
  split
  · exact only_ite (dropCovered_only (h.ctx _) H1) H1
  · exact dropCovered_only (h.ctx _) H1
  · exact H1
theorem trimAcc_only {a} (H : Only S s u) : Only S s (trimAcc u a) := by
  unfold trimAcc
  split
  · split
    · exact only_ite (withdraw_only h H) (only_ite H (put_offered h.offered H))
    · exact H
  · exact H
theorem noteDown_only {d n a} (H : Only S s u) : Only S s (noteDown d n a u) :=
  have H1 := markSet_only (k := w1cKey 0xB8 48) (setPower_only h.power H)
  only_ite H1 (pdRec_only h.toRecIn H1)
theorem endsDown_only {a d} (H : Only S s u) : Only S s (endsDown a d u) := by
  have H1 : Only S s { u with offered := u.offered.erase a } := put_offered h.offered H
  unfold endsDown
  dsimp only
  split
  · exact inboundUnit_only h.toSendIn (noteDown_only h H1)
  · exact only_ite (writeEnd_only (h.acc _ _) (noteDown_only h H1)) (readEnd_only (h.acc _ _) (noteDown_only h H1))
theorem meetsShut_only {a d} (H : Only S s u) : Only S s (meetsShut a d u) := by
  unfold meetsShut
  dsimp only
  split
  · exact only_ite (put_setLane (h.lane _) (withdraw_only h H)) (put_setLane (h.lane _) (withdraw_only h H))
  · exact goHeld_only (h.ctx _) h.power H
  · exact only_ite (withdraw_only h H) (goHeld_only (h.ctx _) h.power H)
  · exact only_ite (endsDown_only h H) H
theorem sweepOne_only {a} (H : Only S s u) : Only S s (sweepOne u a) := by
  unfold sweepOne
  refine only_ite H ?_
  split
  · exact meetsShut_only h H
  · exact H
theorem sweep_only (H : Only S s u) : Only S s (sweep u) :=
  only_foldl _ (fun _ _ H => trimAcc_only h H) (only_foldl _ (fun _ _ H => sweepOne_only h H) (only_foldl _ (fun _ _ H => trimAcc_only h H) H))

theorem storeIssued_only {c l} (H : Only S s u) : Only S s (storeIssued c l u) :=
  only_ite (finish_only (h.leg c).toFaultIn (addEnergy_only (h.ctx c) h.tele (put_modW (h.ctx c) H))) (put_modW (h.ctx c) H)
theorem countIssue_only {a} (H : Only S s u) : Only S s (countIssue a u) := by
  unfold countIssue
  dsimp only
  split
  · exact put_setLane (h.lane _) H
  · exact blockEnergy_only h.tele H
  · exact blockEnergy_only h.tele H
  · exact blockEnergy_only h.tele H
  · exact H
theorem issueAcc_only {a p} (H : Only S s u) : Only S s (issueAcc a p u) := by
  unfold issueAcc
  extract_lets a' s1 s2
  have H1 : Only S s s1 := only_put H (fun q hq => by
    have ho := h.offered
    have ht := h.outst
    have hn := h.nextTag
    cases q <;> first | rfl | exact ⟨rfl, rfl⟩ | exact absurd ho hq | exact absurd ht hq | exact absurd hn hq)
  have H2 : Only S s s2 := countIssue_only h (markTags_only h.tags H1)
  clear_value s2
  split
  · split
    · exact put_setLane (h.lane _) H2
    · exact H2
  · exact storeIssued_only h H2
  · exact H2
theorem issuePorts_only {t} (n : Nat) (x y : List Nat) (H : Only S s u) : Only S s (issuePorts t n x y u) := by
  induction n generalizing x y u with
  | zero => exact H
  | succ n ih =>
    unfold issuePorts
    dsimp only
    split
    · exact H
    · exact only_ite (ih _ _ (issueAcc_only h H)) (ih _ _ (issueAcc_only h H))
theorem sweepFetch_only {f} (H : Only S s u) : Only S s (sweepFetch u f) := by
  unfold sweepFetch
  refine only_ite H ?_
  split
  · exact only_foldl _ (fun _ _ H => goHeld_only (h.ctx _) h.power H) (dropFetch_only h.fetches H)
  · exact only_ite (dropFetch_only h.fetches H) H
theorem issueFetch_only (H : Only S s u) : Only S s (issueFetch u) := by
  unfold issueFetch
  dsimp only
  split
  · exact H
  · split
    · exact put_modR (h.ctx _) (put_fetches h.fetches H)
    · exact put_fetches h.fetches H
theorem countSent_only {l} (H : Only S s u) : Only S s (countSent l u) :=
  only_foldl _ (fun _ _ H => by
    dsimp only
    split
    · exact put_setLane (h.lane _) H
    · exact H) H
theorem sendAcc_only {a c} (H : Only S s u) : Only S s (sendAcc a c u) := by
  unfold sendAcc
  extract_lets us rt eld tag o fb s1 s2 s3
  have H1 : Only S s s1 := only_put H (fun q hq => by
    have ho := h.offered
    have ht := h.out
    cases q <;> first | rfl | exact ⟨rfl, rfl⟩ | exact absurd ho hq | exact absurd ht hq)
  have H2 : Only S s s2 := countSent_only h (markTags_only h.tags H1)
  clear_value s2
  have H3 : Only S s s3 := only_ite (routeFrame_only h.toAnyIn H2) (outFails_only (h.toAnyIn.ends _ _ _) (takeOut_only h.out H2))
  clear_value s3
  split
  · exact storeIssued_only h H3
  · exact H3
theorem outOne_only {a} (H : Only S s u) : Only S s (outOne u a) := by
  unfold outOne
  split
  · exact only_ite (sendAcc_only h H) H
  · exact H
theorem issueAll_only (H : Only S s u) : Only S s (issueAll u) :=
  only_ite (only_foldl _ (fun _ _ H => outOne_only h H) (issueFetch_only h (issuePorts_only h _ _ _
    (sweep_only h (only_foldl _ (fun _ _ H => sweepFetch_only h H) H))))) H

theorem txPort_only {p} (H : Only S s u) : Only S s (txPort p u) := by
  unfold txPort
  extract_lets x s1
  have H1 : Only S s s1 := put_setPort (h.link p) H
  clear_value s1
  split
  · exact freeFlits_only h.link (only_ite (put_sync h.sync H1) H1)
  · exact H1
theorem txPorts_only (H : Only S s u) : Only S s (txPorts u) := only_foldl _ (fun _ _ H => txPort_only h H) H
theorem countBusy_only (H : Only S s u) : Only S s (countBusy u) :=
  only_put H (fun q hq => by
    have hl := h.lane
    cases q <;> first | rfl | exact ⟨rfl, rfl⟩ | exact absurd (hl _).1 hq | exact absurd (hl 0).2 hq)
theorem countFlash_only (H : Only S s u) : Only S s (countFlash u) :=
  only_put H (fun q hq => by
    have hc := h.ctx
    cases q <;> first | rfl | exact ⟨rfl, rfl⟩ | exact absurd (hc _) hq)
theorem represent_only (H : Only S s u) : Only S s (represent u) :=
  only_ite H (only_put H (fun q hq => by
    have hp := h.pending
    have hq' := h.port
    cases q <;> first | rfl | exact ⟨rfl, rfl⟩ | exact absurd hp hq | exact absurd hq' hq))
theorem resetTick_only (H : Only S s u) : Only S s (resetTick u) := by
  unfold resetTick
  split
  · refine only_ite (only_put H (fun q hq => ?_)) H
    have he := (h.leg 0).evo
    have hl := h.link
    have hp := h.power
    cases q <;> first | rfl | exact ⟨rfl, rfl⟩ | exact absurd (he _) hq | exact absurd (hl _) hq | exact absurd hp hq
  · exact H

theorem endOfEclk_only (H : Only S s u) : Only S s (endOfEclk u) :=
  only_ite H (ctlEnd_only h.control h.ctl (countArrivals_only h.toRecIn h.arrivals h.input h.ctx
    (acceptHeld_only h.heldRecs h.staged h.recClk (fun c => (h.leg c).toFaultIn) H)))
omit h in
theorem eachLane_only {f : Nat → State → State} (hf : ∀ l v, Only S s v → Only S s (f l v)) (H : Only S s u) : Only S s (eachLane f u) :=
  only_foldl _ (fun _ _ H => hf _ _ H) H
theorem serveQueues_only (H : Only S s u) : Only S s (serveQueues u) :=
  only_foldl _ (fun _ _ H => hostStep_only (h.toAnyIn.queueIn _) H)
    (eachLane_only (fun _ _ H => queueStep_only (fun _ _ => h.toAnyIn.laneIn _ _) h.toAnyIn.queueIn H) (forceAll_only h.queue H))
theorem works_only (H : Only S s u) : Only S s (works u) :=
  only_ite H (eachLane_only (fun _ _ H => advance_only (fun _ _ => h.toAnyIn.laneIn _ _) H)
    (eachLane_only (fun _ _ H => startCopy_only (fun _ _ => h.toAnyIn.laneIn _ _) h.tags H)
      (serveQueues_only h (lookups_only h (handOvers_only (fun c => (h.leg c).toFaultIn) h.toSendIn h.arrivals h.remotes
        (copyEnds_only h.toCheckIn (applyUpsets_only h H)))))))

theorem tick_only (H : Only S s u) : Only S s (tick u) := by
  have R : ∀ {b v}, Only S s v → Only S s (setReady b v) := fun H => setReady_only h.glob (h.leg 0).lane H
  unfold tick
  extract_lets s0 s1 s2 s3 s4 s5 s6
  have H1 : Only S s s1 := merTick_only h (put_eclk h.eclk (endOfEclk_only h H))
  clear_value s1
  have H2 : Only S s s2 := resetTick_only h H1
  clear_value s2
  have hm : MgtIn S := ⟨h.toErrIn, h.port, h.fences, h.mgt, h.tele⟩
  have H3 : Only S s s3 := only_ite (fencesAgain_only h.toErrIn h.fences (mgtDue_only hm (fencesInForce_only h.toLinkIn h.fences H2))) H2
  clear_value s3
  have H4 : Only S s s4 := only_ite H3 (by
    unfold slotByNow
    have A : Only S s (readyByNow s3) := only_ite (R (R H3)) (only_ite (only_foldl _ (fun _ _ H => R H) H3) (only_ite (R H3) H3))
    exact only_ite (put_glob h.glob rfl rfl A) A)
  clear_value s4
  exact represent_only h (txPorts_only h (issueAll_only h (countFlash_only h (countBusy_only h (works_only h (only_ite (backNow_only (fun c => (h.leg c).toSeqIn) H4) H4))))))

end Sys2Proof.Laws
end

