-- ==== Sys2Proof/Laws/State.lean ====
section
/-! SUPPORT. Every named update of the state leaves every other field as it was, and reads back what it put. -/

namespace Sys2Proof.Laws
open Sys2Proof.Machine

/-! ### What an update puts -/

@[simp] theorem ctx_modR_self (u : State) (c : Nat) (f : CtxRegs → CtxRegs) : ctx (modR c f u) c = { ctx u c with r := f (ctx u c).r } :=
  tget_tset_self _ _ _ _
@[simp] theorem ctx_modW_self (u : State) (c : Nat) (f : Work → Work) : ctx (modW c f u) c = { ctx u c with w := f (ctx u c).w } :=
  tget_tset_self _ _ _ _
@[simp] theorem lane_setLane_self (u : State) (l : Nat) (x : LaneSt) : lane (setLane l x u) l = x := tget_tset_self _ _ _ _
@[simp] theorem book_setBook_self (u : State) (b : Nat) (x : Book) : book (setBook b x u) b = x := tget_tset_self _ _ _ _
@[simp] theorem inp_setInp_self (u : State) (n : Nat) (x : Inp) : inp (setInp n x u) n = x := tget_tset_self _ _ _ _
@[simp] theorem evo_setEvo_self (u : State) (m : Nat) (x : Evo) : evo (setEvo m x u) m = x := tget_tset_self _ _ _ _
@[simp] theorem queue_setQueue_self (u : State) (q : Nat) (x : Queue) : queue (setQueue q x u) q = x := tget_tset_self _ _ _ _
@[simp] theorem queue_modQ_self (u : State) (q : Nat) (f : Queue → Queue) : queue (modQ q f u) q = f (queue u q) := tget_tset_self _ _ _ _
@[simp] theorem port_setPort_self (u : State) (p : Nat) (x : LinkPort) : Machine.port (setPort p x u) p = x := tget_tset_self _ _ _ _
@[simp] theorem port_modP_self (u : State) (p : Nat) (f : LinkPort → LinkPort) : Machine.port (modP p f u) p = f (Machine.port u p) :=
  tget_tset_self _ _ _ _
@[simp] theorem entry_setEntry_self (u : State) (i : Nat) (e : GEntry) : entry (setEntry i e u) i = some e := by
  rw [entry, setEntry]; simp only [cleanEntry, List.foldl_cons, List.foldl_nil, cleanWord]; exact tfind_tput_self _ _ _

/-! ### What an update leaves -/

@[simp] theorem setCtx_pending (u : State) (c : Nat) (x : Ctx) : (setCtx u c x).pending = u.pending := rfl
@[simp] theorem setCtx_eclk (u : State) (c : Nat) (x : Ctx) : (setCtx u c x).eclk = u.eclk := rfl
@[simp] theorem setCtx_legends (u : State) (c : Nat) (x : Ctx) : (setCtx u c x).legends = u.legends := rfl
@[simp] theorem setCtx_slots (u : State) (c : Nat) (x : Ctx) : (setCtx u c x).slots = u.slots := rfl
@[simp] theorem setCtx_swap (u : State) (c : Nat) (x : Ctx) : (setCtx u c x).swap = u.swap := rfl
@[simp] theorem setCtx_remotes (u : State) (c : Nat) (x : Ctx) : (setCtx u c x).remotes = u.remotes := rfl
@[simp] theorem setCtx_ctl (u : State) (c : Nat) (x : Ctx) : (setCtx u c x).ctl = u.ctl := rfl
@[simp] theorem setCtx_rr (u : State) (c : Nat) (x : Ctx) : (setCtx u c x).rr = u.rr := rfl
@[simp] theorem setCtx_lcache (u : State) (c : Nat) (x : Ctx) : (setCtx u c x).lcache = u.lcache := rfl
@[simp] theorem setCtx_fetches (u : State) (c : Nat) (x : Ctx) : (setCtx u c x).fetches = u.fetches := rfl
@[simp] theorem setCtx_lanes (u : State) (c : Nat) (x : Ctx) : (setCtx u c x).lanes = u.lanes := rfl
@[simp] theorem setCtx_offered (u : State) (c : Nat) (x : Ctx) : (setCtx u c x).offered = u.offered := rfl
@[simp] theorem setCtx_outst (u : State) (c : Nat) (x : Ctx) : (setCtx u c x).outst = u.outst := rfl
@[simp] theorem setCtx_nextTag (u : State) (c : Nat) (x : Ctx) : (setCtx u c x).nextTag = u.nextTag := rfl
@[simp] theorem setCtx_mer (u : State) (c : Nat) (x : Ctx) : (setCtx u c x).mer = u.mer := rfl
@[simp] theorem setCtx_merWas (u : State) (c : Nat) (x : Ctx) : (setCtx u c x).merWas = u.merWas := rfl
@[simp] theorem setCtx_grat (u : State) (c : Nat) (x : Ctx) : (setCtx u c x).grat = u.grat := rfl
@[simp] theorem setCtx_books (u : State) (c : Nat) (x : Ctx) : (setCtx u c x).books = u.books := rfl
@[simp] theorem setCtx_staged (u : State) (c : Nat) (x : Ctx) : (setCtx u c x).staged = u.staged := rfl
@[simp] theorem setCtx_heldRecs (u : State) (c : Nat) (x : Ctx) : (setCtx u c x).heldRecs = u.heldRecs := rfl
@[simp] theorem setCtx_recClk (u : State) (c : Nat) (x : Ctx) : (setCtx u c x).recClk = u.recClk := rfl
@[simp] theorem setCtx_inputs (u : State) (c : Nat) (x : Ctx) : (setCtx u c x).inputs = u.inputs := rfl
@[simp] theorem setCtx_arrivals (u : State) (c : Nat) (x : Ctx) : (setCtx u c x).arrivals = u.arrivals := rfl
@[simp] theorem setCtx_evos (u : State) (c : Nat) (x : Ctx) : (setCtx u c x).evos = u.evos := rfl
@[simp] theorem setCtx_queues (u : State) (c : Nat) (x : Ctx) : (setCtx u c x).queues = u.queues := rfl
@[simp] theorem setCtx_spill (u : State) (c : Nat) (x : Ctx) : (setCtx u c x).spill = u.spill := rfl
@[simp] theorem setCtx_atlas (u : State) (c : Nat) (x : Ctx) : (setCtx u c x).atlas = u.atlas := rfl
@[simp] theorem setCtx_halt (u : State) (c : Nat) (x : Ctx) : (setCtx u c x).halt = u.halt := rfl
@[simp] theorem setCtx_errs (u : State) (c : Nat) (x : Ctx) : (setCtx u c x).errs = u.errs := rfl
@[simp] theorem setCtx_fences (u : State) (c : Nat) (x : Ctx) : (setCtx u c x).fences = u.fences := rfl
@[simp] theorem setCtx_fab (u : State) (c : Nat) (x : Ctx) : (setCtx u c x).fab = u.fab := rfl
@[simp] theorem setCtx_sync (u : State) (c : Nat) (x : Ctx) : (setCtx u c x).sync = u.sync := rfl
@[simp] theorem setCtx_power (u : State) (c : Nat) (x : Ctx) : (setCtx u c x).power = u.power := rfl
@[simp] theorem setCtx_flash (u : State) (c : Nat) (x : Ctx) : (setCtx u c x).flash = u.flash := rfl
@[simp] theorem setCtx_dbg (u : State) (c : Nat) (x : Ctx) : (setCtx u c x).dbg = u.dbg := rfl
@[simp] theorem setCtx_glob (u : State) (c : Nat) (x : Ctx) : (setCtx u c x).glob = u.glob := rfl
@[simp] theorem setCtx_mgt (u : State) (c : Nat) (x : Ctx) : (setCtx u c x).mgt = u.mgt := rfl
@[simp] theorem setCtx_port (u : State) (c : Nat) (x : Ctx) : (setCtx u c x).port = u.port := rfl
@[simp] theorem setCtx_straps (u : State) (c : Nat) (x : Ctx) : (setCtx u c x).straps = u.straps := rfl
@[simp] theorem setCtx_upsets (u : State) (c : Nat) (x : Ctx) : (setCtx u c x).upsets = u.upsets := rfl
@[simp] theorem setCtx_marks (u : State) (c : Nat) (x : Ctx) : (setCtx u c x).marks = u.marks := rfl
@[simp] theorem setCtx_free (u : State) (c : Nat) (x : Ctx) : (setCtx u c x).free = u.free := rfl

@[simp] theorem modR_pending (u : State) (c : Nat) (f : CtxRegs → CtxRegs) : (modR c f u).pending = u.pending := rfl
@[simp] theorem modR_eclk (u : State) (c : Nat) (f : CtxRegs → CtxRegs) : (modR c f u).eclk = u.eclk := rfl
@[simp] theorem modR_legends (u : State) (c : Nat) (f : CtxRegs → CtxRegs) : (modR c f u).legends = u.legends := rfl
@[simp] theorem modR_slots (u : State) (c : Nat) (f : CtxRegs → CtxRegs) : (modR c f u).slots = u.slots := rfl
@[simp] theorem modR_swap (u : State) (c : Nat) (f : CtxRegs → CtxRegs) : (modR c f u).swap = u.swap := rfl
@[simp] theorem modR_remotes (u : State) (c : Nat) (f : CtxRegs → CtxRegs) : (modR c f u).remotes = u.remotes := rfl
@[simp] theorem modR_ctl (u : State) (c : Nat) (f : CtxRegs → CtxRegs) : (modR c f u).ctl = u.ctl := rfl
@[simp] theorem modR_rr (u : State) (c : Nat) (f : CtxRegs → CtxRegs) : (modR c f u).rr = u.rr := rfl
@[simp] theorem modR_lcache (u : State) (c : Nat) (f : CtxRegs → CtxRegs) : (modR c f u).lcache = u.lcache := rfl
@[simp] theorem modR_fetches (u : State) (c : Nat) (f : CtxRegs → CtxRegs) : (modR c f u).fetches = u.fetches := rfl
@[simp] theorem modR_lanes (u : State) (c : Nat) (f : CtxRegs → CtxRegs) : (modR c f u).lanes = u.lanes := rfl
@[simp] theorem modR_offered (u : State) (c : Nat) (f : CtxRegs → CtxRegs) : (modR c f u).offered = u.offered := rfl
@[simp] theorem modR_outst (u : State) (c : Nat) (f : CtxRegs → CtxRegs) : (modR c f u).outst = u.outst := rfl
@[simp] theorem modR_nextTag (u : State) (c : Nat) (f : CtxRegs → CtxRegs) : (modR c f u).nextTag = u.nextTag := rfl
@[simp] theorem modR_mer (u : State) (c : Nat) (f : CtxRegs → CtxRegs) : (modR c f u).mer = u.mer := rfl
@[simp] theorem modR_merWas (u : State) (c : Nat) (f : CtxRegs → CtxRegs) : (modR c f u).merWas = u.merWas := rfl
@[simp] theorem modR_grat (u : State) (c : Nat) (f : CtxRegs → CtxRegs) : (modR c f u).grat = u.grat := rfl
@[simp] theorem modR_books (u : State) (c : Nat) (f : CtxRegs → CtxRegs) : (modR c f u).books = u.books := rfl
@[simp] theorem modR_staged (u : State) (c : Nat) (f : CtxRegs → CtxRegs) : (modR c f u).staged = u.staged := rfl
@[simp] theorem modR_heldRecs (u : State) (c : Nat) (f : CtxRegs → CtxRegs) : (modR c f u).heldRecs = u.heldRecs := rfl
@[simp] theorem modR_recClk (u : State) (c : Nat) (f : CtxRegs → CtxRegs) : (modR c f u).recClk = u.recClk := rfl
@[simp] theorem modR_inputs (u : State) (c : Nat) (f : CtxRegs → CtxRegs) : (modR c f u).inputs = u.inputs := rfl
@[simp] theorem modR_arrivals (u : State) (c : Nat) (f : CtxRegs → CtxRegs) : (modR c f u).arrivals = u.arrivals := rfl
@[simp] theorem modR_evos (u : State) (c : Nat) (f : CtxRegs → CtxRegs) : (modR c f u).evos = u.evos := rfl
@[simp] theorem modR_queues (u : State) (c : Nat) (f : CtxRegs → CtxRegs) : (modR c f u).queues = u.queues := rfl
@[simp] theorem modR_spill (u : State) (c : Nat) (f : CtxRegs → CtxRegs) : (modR c f u).spill = u.spill := rfl
@[simp] theorem modR_atlas (u : State) (c : Nat) (f : CtxRegs → CtxRegs) : (modR c f u).atlas = u.atlas := rfl
@[simp] theorem modR_halt (u : State) (c : Nat) (f : CtxRegs → CtxRegs) : (modR c f u).halt = u.halt := rfl
@[simp] theorem modR_errs (u : State) (c : Nat) (f : CtxRegs → CtxRegs) : (modR c f u).errs = u.errs := rfl
@[simp] theorem modR_fences (u : State) (c : Nat) (f : CtxRegs → CtxRegs) : (modR c f u).fences = u.fences := rfl
@[simp] theorem modR_fab (u : State) (c : Nat) (f : CtxRegs → CtxRegs) : (modR c f u).fab = u.fab := rfl
@[simp] theorem modR_sync (u : State) (c : Nat) (f : CtxRegs → CtxRegs) : (modR c f u).sync = u.sync := rfl
@[simp] theorem modR_power (u : State) (c : Nat) (f : CtxRegs → CtxRegs) : (modR c f u).power = u.power := rfl
@[simp] theorem modR_flash (u : State) (c : Nat) (f : CtxRegs → CtxRegs) : (modR c f u).flash = u.flash := rfl
@[simp] theorem modR_dbg (u : State) (c : Nat) (f : CtxRegs → CtxRegs) : (modR c f u).dbg = u.dbg := rfl
@[simp] theorem modR_glob (u : State) (c : Nat) (f : CtxRegs → CtxRegs) : (modR c f u).glob = u.glob := rfl
@[simp] theorem modR_mgt (u : State) (c : Nat) (f : CtxRegs → CtxRegs) : (modR c f u).mgt = u.mgt := rfl
@[simp] theorem modR_port (u : State) (c : Nat) (f : CtxRegs → CtxRegs) : (modR c f u).port = u.port := rfl
@[simp] theorem modR_straps (u : State) (c : Nat) (f : CtxRegs → CtxRegs) : (modR c f u).straps = u.straps := rfl
@[simp] theorem modR_upsets (u : State) (c : Nat) (f : CtxRegs → CtxRegs) : (modR c f u).upsets = u.upsets := rfl
@[simp] theorem modR_marks (u : State) (c : Nat) (f : CtxRegs → CtxRegs) : (modR c f u).marks = u.marks := rfl
@[simp] theorem modR_free (u : State) (c : Nat) (f : CtxRegs → CtxRegs) : (modR c f u).free = u.free := rfl

@[simp] theorem modW_pending (u : State) (c : Nat) (f : Work → Work) : (modW c f u).pending = u.pending := rfl
@[simp] theorem modW_eclk (u : State) (c : Nat) (f : Work → Work) : (modW c f u).eclk = u.eclk := rfl
@[simp] theorem modW_legends (u : State) (c : Nat) (f : Work → Work) : (modW c f u).legends = u.legends := rfl
@[simp] theorem modW_slots (u : State) (c : Nat) (f : Work → Work) : (modW c f u).slots = u.slots := rfl
@[simp] theorem modW_swap (u : State) (c : Nat) (f : Work → Work) : (modW c f u).swap = u.swap := rfl
@[simp] theorem modW_remotes (u : State) (c : Nat) (f : Work → Work) : (modW c f u).remotes = u.remotes := rfl
@[simp] theorem modW_ctl (u : State) (c : Nat) (f : Work → Work) : (modW c f u).ctl = u.ctl := rfl
@[simp] theorem modW_rr (u : State) (c : Nat) (f : Work → Work) : (modW c f u).rr = u.rr := rfl
@[simp] theorem modW_lcache (u : State) (c : Nat) (f : Work → Work) : (modW c f u).lcache = u.lcache := rfl
@[simp] theorem modW_fetches (u : State) (c : Nat) (f : Work → Work) : (modW c f u).fetches = u.fetches := rfl
@[simp] theorem modW_lanes (u : State) (c : Nat) (f : Work → Work) : (modW c f u).lanes = u.lanes := rfl
@[simp] theorem modW_offered (u : State) (c : Nat) (f : Work → Work) : (modW c f u).offered = u.offered := rfl
@[simp] theorem modW_outst (u : State) (c : Nat) (f : Work → Work) : (modW c f u).outst = u.outst := rfl
@[simp] theorem modW_nextTag (u : State) (c : Nat) (f : Work → Work) : (modW c f u).nextTag = u.nextTag := rfl
@[simp] theorem modW_mer (u : State) (c : Nat) (f : Work → Work) : (modW c f u).mer = u.mer := rfl
@[simp] theorem modW_merWas (u : State) (c : Nat) (f : Work → Work) : (modW c f u).merWas = u.merWas := rfl
@[simp] theorem modW_grat (u : State) (c : Nat) (f : Work → Work) : (modW c f u).grat = u.grat := rfl
@[simp] theorem modW_books (u : State) (c : Nat) (f : Work → Work) : (modW c f u).books = u.books := rfl
@[simp] theorem modW_staged (u : State) (c : Nat) (f : Work → Work) : (modW c f u).staged = u.staged := rfl
@[simp] theorem modW_heldRecs (u : State) (c : Nat) (f : Work → Work) : (modW c f u).heldRecs = u.heldRecs := rfl
@[simp] theorem modW_recClk (u : State) (c : Nat) (f : Work → Work) : (modW c f u).recClk = u.recClk := rfl
@[simp] theorem modW_inputs (u : State) (c : Nat) (f : Work → Work) : (modW c f u).inputs = u.inputs := rfl
@[simp] theorem modW_arrivals (u : State) (c : Nat) (f : Work → Work) : (modW c f u).arrivals = u.arrivals := rfl
@[simp] theorem modW_evos (u : State) (c : Nat) (f : Work → Work) : (modW c f u).evos = u.evos := rfl
@[simp] theorem modW_queues (u : State) (c : Nat) (f : Work → Work) : (modW c f u).queues = u.queues := rfl
@[simp] theorem modW_spill (u : State) (c : Nat) (f : Work → Work) : (modW c f u).spill = u.spill := rfl
@[simp] theorem modW_atlas (u : State) (c : Nat) (f : Work → Work) : (modW c f u).atlas = u.atlas := rfl
@[simp] theorem modW_halt (u : State) (c : Nat) (f : Work → Work) : (modW c f u).halt = u.halt := rfl
@[simp] theorem modW_errs (u : State) (c : Nat) (f : Work → Work) : (modW c f u).errs = u.errs := rfl
@[simp] theorem modW_fences (u : State) (c : Nat) (f : Work → Work) : (modW c f u).fences = u.fences := rfl
@[simp] theorem modW_fab (u : State) (c : Nat) (f : Work → Work) : (modW c f u).fab = u.fab := rfl
@[simp] theorem modW_sync (u : State) (c : Nat) (f : Work → Work) : (modW c f u).sync = u.sync := rfl
@[simp] theorem modW_power (u : State) (c : Nat) (f : Work → Work) : (modW c f u).power = u.power := rfl
@[simp] theorem modW_flash (u : State) (c : Nat) (f : Work → Work) : (modW c f u).flash = u.flash := rfl
@[simp] theorem modW_dbg (u : State) (c : Nat) (f : Work → Work) : (modW c f u).dbg = u.dbg := rfl
@[simp] theorem modW_glob (u : State) (c : Nat) (f : Work → Work) : (modW c f u).glob = u.glob := rfl
@[simp] theorem modW_mgt (u : State) (c : Nat) (f : Work → Work) : (modW c f u).mgt = u.mgt := rfl
@[simp] theorem modW_port (u : State) (c : Nat) (f : Work → Work) : (modW c f u).port = u.port := rfl
@[simp] theorem modW_straps (u : State) (c : Nat) (f : Work → Work) : (modW c f u).straps = u.straps := rfl
@[simp] theorem modW_upsets (u : State) (c : Nat) (f : Work → Work) : (modW c f u).upsets = u.upsets := rfl
@[simp] theorem modW_marks (u : State) (c : Nat) (f : Work → Work) : (modW c f u).marks = u.marks := rfl
@[simp] theorem modW_free (u : State) (c : Nat) (f : Work → Work) : (modW c f u).free = u.free := rfl

@[simp] theorem setLane_pending (u : State) (l : Nat) (x : LaneSt) : (setLane l x u).pending = u.pending := rfl
@[simp] theorem setLane_eclk (u : State) (l : Nat) (x : LaneSt) : (setLane l x u).eclk = u.eclk := rfl
@[simp] theorem setLane_ctxs (u : State) (l : Nat) (x : LaneSt) : (setLane l x u).ctxs = u.ctxs := rfl
@[simp] theorem setLane_legends (u : State) (l : Nat) (x : LaneSt) : (setLane l x u).legends = u.legends := rfl
@[simp] theorem setLane_slots (u : State) (l : Nat) (x : LaneSt) : (setLane l x u).slots = u.slots := rfl
@[simp] theorem setLane_swap (u : State) (l : Nat) (x : LaneSt) : (setLane l x u).swap = u.swap := rfl
@[simp] theorem setLane_remotes (u : State) (l : Nat) (x : LaneSt) : (setLane l x u).remotes = u.remotes := rfl
@[simp] theorem setLane_ctl (u : State) (l : Nat) (x : LaneSt) : (setLane l x u).ctl = u.ctl := rfl
@[simp] theorem setLane_rr (u : State) (l : Nat) (x : LaneSt) : (setLane l x u).rr = u.rr := rfl
@[simp] theorem setLane_lcache (u : State) (l : Nat) (x : LaneSt) : (setLane l x u).lcache = u.lcache := rfl
@[simp] theorem setLane_fetches (u : State) (l : Nat) (x : LaneSt) : (setLane l x u).fetches = u.fetches := rfl
@[simp] theorem setLane_offered (u : State) (l : Nat) (x : LaneSt) : (setLane l x u).offered = u.offered := rfl
@[simp] theorem setLane_outst (u : State) (l : Nat) (x : LaneSt) : (setLane l x u).outst = u.outst := rfl
@[simp] theorem setLane_nextTag (u : State) (l : Nat) (x : LaneSt) : (setLane l x u).nextTag = u.nextTag := rfl
@[simp] theorem setLane_mer (u : State) (l : Nat) (x : LaneSt) : (setLane l x u).mer = u.mer := rfl
@[simp] theorem setLane_merWas (u : State) (l : Nat) (x : LaneSt) : (setLane l x u).merWas = u.merWas := rfl
@[simp] theorem setLane_grat (u : State) (l : Nat) (x : LaneSt) : (setLane l x u).grat = u.grat := rfl
@[simp] theorem setLane_books (u : State) (l : Nat) (x : LaneSt) : (setLane l x u).books = u.books := rfl
@[simp] theorem setLane_staged (u : State) (l : Nat) (x : LaneSt) : (setLane l x u).staged = u.staged := rfl
@[simp] theorem setLane_heldRecs (u : State) (l : Nat) (x : LaneSt) : (setLane l x u).heldRecs = u.heldRecs := rfl
@[simp] theorem setLane_recClk (u : State) (l : Nat) (x : LaneSt) : (setLane l x u).recClk = u.recClk := rfl
@[simp] theorem setLane_inputs (u : State) (l : Nat) (x : LaneSt) : (setLane l x u).inputs = u.inputs := rfl
@[simp] theorem setLane_arrivals (u : State) (l : Nat) (x : LaneSt) : (setLane l x u).arrivals = u.arrivals := rfl
@[simp] theorem setLane_evos (u : State) (l : Nat) (x : LaneSt) : (setLane l x u).evos = u.evos := rfl
@[simp] theorem setLane_queues (u : State) (l : Nat) (x : LaneSt) : (setLane l x u).queues = u.queues := rfl
@[simp] theorem setLane_spill (u : State) (l : Nat) (x : LaneSt) : (setLane l x u).spill = u.spill := rfl
@[simp] theorem setLane_atlas (u : State) (l : Nat) (x : LaneSt) : (setLane l x u).atlas = u.atlas := rfl
@[simp] theorem setLane_halt (u : State) (l : Nat) (x : LaneSt) : (setLane l x u).halt = u.halt := rfl
@[simp] theorem setLane_errs (u : State) (l : Nat) (x : LaneSt) : (setLane l x u).errs = u.errs := rfl
@[simp] theorem setLane_fences (u : State) (l : Nat) (x : LaneSt) : (setLane l x u).fences = u.fences := rfl
@[simp] theorem setLane_fab (u : State) (l : Nat) (x : LaneSt) : (setLane l x u).fab = u.fab := rfl
@[simp] theorem setLane_sync (u : State) (l : Nat) (x : LaneSt) : (setLane l x u).sync = u.sync := rfl
@[simp] theorem setLane_power (u : State) (l : Nat) (x : LaneSt) : (setLane l x u).power = u.power := rfl
@[simp] theorem setLane_flash (u : State) (l : Nat) (x : LaneSt) : (setLane l x u).flash = u.flash := rfl
@[simp] theorem setLane_dbg (u : State) (l : Nat) (x : LaneSt) : (setLane l x u).dbg = u.dbg := rfl
@[simp] theorem setLane_glob (u : State) (l : Nat) (x : LaneSt) : (setLane l x u).glob = u.glob := rfl
@[simp] theorem setLane_mgt (u : State) (l : Nat) (x : LaneSt) : (setLane l x u).mgt = u.mgt := rfl
@[simp] theorem setLane_port (u : State) (l : Nat) (x : LaneSt) : (setLane l x u).port = u.port := rfl
@[simp] theorem setLane_straps (u : State) (l : Nat) (x : LaneSt) : (setLane l x u).straps = u.straps := rfl
@[simp] theorem setLane_upsets (u : State) (l : Nat) (x : LaneSt) : (setLane l x u).upsets = u.upsets := rfl
@[simp] theorem setLane_marks (u : State) (l : Nat) (x : LaneSt) : (setLane l x u).marks = u.marks := rfl
@[simp] theorem setLane_free (u : State) (l : Nat) (x : LaneSt) : (setLane l x u).free = u.free := rfl

@[simp] theorem setBook_pending (u : State) (b : Nat) (x : Book) : (setBook b x u).pending = u.pending := rfl
@[simp] theorem setBook_eclk (u : State) (b : Nat) (x : Book) : (setBook b x u).eclk = u.eclk := rfl
@[simp] theorem setBook_ctxs (u : State) (b : Nat) (x : Book) : (setBook b x u).ctxs = u.ctxs := rfl
@[simp] theorem setBook_legends (u : State) (b : Nat) (x : Book) : (setBook b x u).legends = u.legends := rfl
@[simp] theorem setBook_slots (u : State) (b : Nat) (x : Book) : (setBook b x u).slots = u.slots := rfl
@[simp] theorem setBook_swap (u : State) (b : Nat) (x : Book) : (setBook b x u).swap = u.swap := rfl
@[simp] theorem setBook_remotes (u : State) (b : Nat) (x : Book) : (setBook b x u).remotes = u.remotes := rfl
@[simp] theorem setBook_ctl (u : State) (b : Nat) (x : Book) : (setBook b x u).ctl = u.ctl := rfl
@[simp] theorem setBook_rr (u : State) (b : Nat) (x : Book) : (setBook b x u).rr = u.rr := rfl
@[simp] theorem setBook_lcache (u : State) (b : Nat) (x : Book) : (setBook b x u).lcache = u.lcache := rfl
@[simp] theorem setBook_fetches (u : State) (b : Nat) (x : Book) : (setBook b x u).fetches = u.fetches := rfl
@[simp] theorem setBook_lanes (u : State) (b : Nat) (x : Book) : (setBook b x u).lanes = u.lanes := rfl
@[simp] theorem setBook_offered (u : State) (b : Nat) (x : Book) : (setBook b x u).offered = u.offered := rfl
@[simp] theorem setBook_outst (u : State) (b : Nat) (x : Book) : (setBook b x u).outst = u.outst := rfl
@[simp] theorem setBook_nextTag (u : State) (b : Nat) (x : Book) : (setBook b x u).nextTag = u.nextTag := rfl
@[simp] theorem setBook_mer (u : State) (b : Nat) (x : Book) : (setBook b x u).mer = u.mer := rfl
@[simp] theorem setBook_merWas (u : State) (b : Nat) (x : Book) : (setBook b x u).merWas = u.merWas := rfl
@[simp] theorem setBook_grat (u : State) (b : Nat) (x : Book) : (setBook b x u).grat = u.grat := rfl
@[simp] theorem setBook_staged (u : State) (b : Nat) (x : Book) : (setBook b x u).staged = u.staged := rfl
@[simp] theorem setBook_heldRecs (u : State) (b : Nat) (x : Book) : (setBook b x u).heldRecs = u.heldRecs := rfl
@[simp] theorem setBook_recClk (u : State) (b : Nat) (x : Book) : (setBook b x u).recClk = u.recClk := rfl
@[simp] theorem setBook_inputs (u : State) (b : Nat) (x : Book) : (setBook b x u).inputs = u.inputs := rfl
@[simp] theorem setBook_arrivals (u : State) (b : Nat) (x : Book) : (setBook b x u).arrivals = u.arrivals := rfl
@[simp] theorem setBook_evos (u : State) (b : Nat) (x : Book) : (setBook b x u).evos = u.evos := rfl
@[simp] theorem setBook_queues (u : State) (b : Nat) (x : Book) : (setBook b x u).queues = u.queues := rfl
@[simp] theorem setBook_spill (u : State) (b : Nat) (x : Book) : (setBook b x u).spill = u.spill := rfl
@[simp] theorem setBook_atlas (u : State) (b : Nat) (x : Book) : (setBook b x u).atlas = u.atlas := rfl
@[simp] theorem setBook_halt (u : State) (b : Nat) (x : Book) : (setBook b x u).halt = u.halt := rfl
@[simp] theorem setBook_errs (u : State) (b : Nat) (x : Book) : (setBook b x u).errs = u.errs := rfl
@[simp] theorem setBook_fences (u : State) (b : Nat) (x : Book) : (setBook b x u).fences = u.fences := rfl
@[simp] theorem setBook_fab (u : State) (b : Nat) (x : Book) : (setBook b x u).fab = u.fab := rfl
@[simp] theorem setBook_sync (u : State) (b : Nat) (x : Book) : (setBook b x u).sync = u.sync := rfl
@[simp] theorem setBook_power (u : State) (b : Nat) (x : Book) : (setBook b x u).power = u.power := rfl
@[simp] theorem setBook_flash (u : State) (b : Nat) (x : Book) : (setBook b x u).flash = u.flash := rfl
@[simp] theorem setBook_dbg (u : State) (b : Nat) (x : Book) : (setBook b x u).dbg = u.dbg := rfl
@[simp] theorem setBook_glob (u : State) (b : Nat) (x : Book) : (setBook b x u).glob = u.glob := rfl
@[simp] theorem setBook_mgt (u : State) (b : Nat) (x : Book) : (setBook b x u).mgt = u.mgt := rfl
@[simp] theorem setBook_port (u : State) (b : Nat) (x : Book) : (setBook b x u).port = u.port := rfl
@[simp] theorem setBook_straps (u : State) (b : Nat) (x : Book) : (setBook b x u).straps = u.straps := rfl
@[simp] theorem setBook_upsets (u : State) (b : Nat) (x : Book) : (setBook b x u).upsets = u.upsets := rfl
@[simp] theorem setBook_marks (u : State) (b : Nat) (x : Book) : (setBook b x u).marks = u.marks := rfl
@[simp] theorem setBook_free (u : State) (b : Nat) (x : Book) : (setBook b x u).free = u.free := rfl

@[simp] theorem setInp_pending (u : State) (n : Nat) (x : Inp) : (setInp n x u).pending = u.pending := rfl
@[simp] theorem setInp_eclk (u : State) (n : Nat) (x : Inp) : (setInp n x u).eclk = u.eclk := rfl
@[simp] theorem setInp_ctxs (u : State) (n : Nat) (x : Inp) : (setInp n x u).ctxs = u.ctxs := rfl
@[simp] theorem setInp_legends (u : State) (n : Nat) (x : Inp) : (setInp n x u).legends = u.legends := rfl
@[simp] theorem setInp_slots (u : State) (n : Nat) (x : Inp) : (setInp n x u).slots = u.slots := rfl
@[simp] theorem setInp_swap (u : State) (n : Nat) (x : Inp) : (setInp n x u).swap = u.swap := rfl
@[simp] theorem setInp_remotes (u : State) (n : Nat) (x : Inp) : (setInp n x u).remotes = u.remotes := rfl
@[simp] theorem setInp_ctl (u : State) (n : Nat) (x : Inp) : (setInp n x u).ctl = u.ctl := rfl
@[simp] theorem setInp_rr (u : State) (n : Nat) (x : Inp) : (setInp n x u).rr = u.rr := rfl
@[simp] theorem setInp_lcache (u : State) (n : Nat) (x : Inp) : (setInp n x u).lcache = u.lcache := rfl
@[simp] theorem setInp_fetches (u : State) (n : Nat) (x : Inp) : (setInp n x u).fetches = u.fetches := rfl
@[simp] theorem setInp_lanes (u : State) (n : Nat) (x : Inp) : (setInp n x u).lanes = u.lanes := rfl
@[simp] theorem setInp_offered (u : State) (n : Nat) (x : Inp) : (setInp n x u).offered = u.offered := rfl
@[simp] theorem setInp_outst (u : State) (n : Nat) (x : Inp) : (setInp n x u).outst = u.outst := rfl
@[simp] theorem setInp_nextTag (u : State) (n : Nat) (x : Inp) : (setInp n x u).nextTag = u.nextTag := rfl
@[simp] theorem setInp_mer (u : State) (n : Nat) (x : Inp) : (setInp n x u).mer = u.mer := rfl
@[simp] theorem setInp_merWas (u : State) (n : Nat) (x : Inp) : (setInp n x u).merWas = u.merWas := rfl
@[simp] theorem setInp_grat (u : State) (n : Nat) (x : Inp) : (setInp n x u).grat = u.grat := rfl
@[simp] theorem setInp_books (u : State) (n : Nat) (x : Inp) : (setInp n x u).books = u.books := rfl
@[simp] theorem setInp_staged (u : State) (n : Nat) (x : Inp) : (setInp n x u).staged = u.staged := rfl
@[simp] theorem setInp_heldRecs (u : State) (n : Nat) (x : Inp) : (setInp n x u).heldRecs = u.heldRecs := rfl
@[simp] theorem setInp_recClk (u : State) (n : Nat) (x : Inp) : (setInp n x u).recClk = u.recClk := rfl
@[simp] theorem setInp_arrivals (u : State) (n : Nat) (x : Inp) : (setInp n x u).arrivals = u.arrivals := rfl
@[simp] theorem setInp_evos (u : State) (n : Nat) (x : Inp) : (setInp n x u).evos = u.evos := rfl
@[simp] theorem setInp_queues (u : State) (n : Nat) (x : Inp) : (setInp n x u).queues = u.queues := rfl
@[simp] theorem setInp_spill (u : State) (n : Nat) (x : Inp) : (setInp n x u).spill = u.spill := rfl
@[simp] theorem setInp_atlas (u : State) (n : Nat) (x : Inp) : (setInp n x u).atlas = u.atlas := rfl
@[simp] theorem setInp_halt (u : State) (n : Nat) (x : Inp) : (setInp n x u).halt = u.halt := rfl
@[simp] theorem setInp_errs (u : State) (n : Nat) (x : Inp) : (setInp n x u).errs = u.errs := rfl
@[simp] theorem setInp_fences (u : State) (n : Nat) (x : Inp) : (setInp n x u).fences = u.fences := rfl
@[simp] theorem setInp_fab (u : State) (n : Nat) (x : Inp) : (setInp n x u).fab = u.fab := rfl
@[simp] theorem setInp_sync (u : State) (n : Nat) (x : Inp) : (setInp n x u).sync = u.sync := rfl
@[simp] theorem setInp_power (u : State) (n : Nat) (x : Inp) : (setInp n x u).power = u.power := rfl
@[simp] theorem setInp_flash (u : State) (n : Nat) (x : Inp) : (setInp n x u).flash = u.flash := rfl
@[simp] theorem setInp_dbg (u : State) (n : Nat) (x : Inp) : (setInp n x u).dbg = u.dbg := rfl
@[simp] theorem setInp_glob (u : State) (n : Nat) (x : Inp) : (setInp n x u).glob = u.glob := rfl
@[simp] theorem setInp_mgt (u : State) (n : Nat) (x : Inp) : (setInp n x u).mgt = u.mgt := rfl
@[simp] theorem setInp_port (u : State) (n : Nat) (x : Inp) : (setInp n x u).port = u.port := rfl
@[simp] theorem setInp_straps (u : State) (n : Nat) (x : Inp) : (setInp n x u).straps = u.straps := rfl
@[simp] theorem setInp_upsets (u : State) (n : Nat) (x : Inp) : (setInp n x u).upsets = u.upsets := rfl
@[simp] theorem setInp_marks (u : State) (n : Nat) (x : Inp) : (setInp n x u).marks = u.marks := rfl
@[simp] theorem setInp_free (u : State) (n : Nat) (x : Inp) : (setInp n x u).free = u.free := rfl

@[simp] theorem setEvo_pending (u : State) (m : Nat) (x : Evo) : (setEvo m x u).pending = u.pending := rfl
@[simp] theorem setEvo_eclk (u : State) (m : Nat) (x : Evo) : (setEvo m x u).eclk = u.eclk := rfl
@[simp] theorem setEvo_ctxs (u : State) (m : Nat) (x : Evo) : (setEvo m x u).ctxs = u.ctxs := rfl
@[simp] theorem setEvo_legends (u : State) (m : Nat) (x : Evo) : (setEvo m x u).legends = u.legends := rfl
@[simp] theorem setEvo_slots (u : State) (m : Nat) (x : Evo) : (setEvo m x u).slots = u.slots := rfl
@[simp] theorem setEvo_swap (u : State) (m : Nat) (x : Evo) : (setEvo m x u).swap = u.swap := rfl
@[simp] theorem setEvo_remotes (u : State) (m : Nat) (x : Evo) : (setEvo m x u).remotes = u.remotes := rfl
@[simp] theorem setEvo_ctl (u : State) (m : Nat) (x : Evo) : (setEvo m x u).ctl = u.ctl := rfl
@[simp] theorem setEvo_rr (u : State) (m : Nat) (x : Evo) : (setEvo m x u).rr = u.rr := rfl
@[simp] theorem setEvo_lcache (u : State) (m : Nat) (x : Evo) : (setEvo m x u).lcache = u.lcache := rfl
@[simp] theorem setEvo_fetches (u : State) (m : Nat) (x : Evo) : (setEvo m x u).fetches = u.fetches := rfl
@[simp] theorem setEvo_lanes (u : State) (m : Nat) (x : Evo) : (setEvo m x u).lanes = u.lanes := rfl
@[simp] theorem setEvo_offered (u : State) (m : Nat) (x : Evo) : (setEvo m x u).offered = u.offered := rfl
@[simp] theorem setEvo_outst (u : State) (m : Nat) (x : Evo) : (setEvo m x u).outst = u.outst := rfl
@[simp] theorem setEvo_nextTag (u : State) (m : Nat) (x : Evo) : (setEvo m x u).nextTag = u.nextTag := rfl
@[simp] theorem setEvo_mer (u : State) (m : Nat) (x : Evo) : (setEvo m x u).mer = u.mer := rfl
@[simp] theorem setEvo_merWas (u : State) (m : Nat) (x : Evo) : (setEvo m x u).merWas = u.merWas := rfl
@[simp] theorem setEvo_grat (u : State) (m : Nat) (x : Evo) : (setEvo m x u).grat = u.grat := rfl
@[simp] theorem setEvo_books (u : State) (m : Nat) (x : Evo) : (setEvo m x u).books = u.books := rfl
@[simp] theorem setEvo_staged (u : State) (m : Nat) (x : Evo) : (setEvo m x u).staged = u.staged := rfl
@[simp] theorem setEvo_heldRecs (u : State) (m : Nat) (x : Evo) : (setEvo m x u).heldRecs = u.heldRecs := rfl
@[simp] theorem setEvo_recClk (u : State) (m : Nat) (x : Evo) : (setEvo m x u).recClk = u.recClk := rfl
@[simp] theorem setEvo_inputs (u : State) (m : Nat) (x : Evo) : (setEvo m x u).inputs = u.inputs := rfl
@[simp] theorem setEvo_arrivals (u : State) (m : Nat) (x : Evo) : (setEvo m x u).arrivals = u.arrivals := rfl
@[simp] theorem setEvo_queues (u : State) (m : Nat) (x : Evo) : (setEvo m x u).queues = u.queues := rfl
@[simp] theorem setEvo_spill (u : State) (m : Nat) (x : Evo) : (setEvo m x u).spill = u.spill := rfl
@[simp] theorem setEvo_atlas (u : State) (m : Nat) (x : Evo) : (setEvo m x u).atlas = u.atlas := rfl
@[simp] theorem setEvo_halt (u : State) (m : Nat) (x : Evo) : (setEvo m x u).halt = u.halt := rfl
@[simp] theorem setEvo_errs (u : State) (m : Nat) (x : Evo) : (setEvo m x u).errs = u.errs := rfl
@[simp] theorem setEvo_fences (u : State) (m : Nat) (x : Evo) : (setEvo m x u).fences = u.fences := rfl
@[simp] theorem setEvo_fab (u : State) (m : Nat) (x : Evo) : (setEvo m x u).fab = u.fab := rfl
@[simp] theorem setEvo_sync (u : State) (m : Nat) (x : Evo) : (setEvo m x u).sync = u.sync := rfl
@[simp] theorem setEvo_power (u : State) (m : Nat) (x : Evo) : (setEvo m x u).power = u.power := rfl
@[simp] theorem setEvo_flash (u : State) (m : Nat) (x : Evo) : (setEvo m x u).flash = u.flash := rfl
@[simp] theorem setEvo_dbg (u : State) (m : Nat) (x : Evo) : (setEvo m x u).dbg = u.dbg := rfl
@[simp] theorem setEvo_glob (u : State) (m : Nat) (x : Evo) : (setEvo m x u).glob = u.glob := rfl
@[simp] theorem setEvo_mgt (u : State) (m : Nat) (x : Evo) : (setEvo m x u).mgt = u.mgt := rfl
@[simp] theorem setEvo_port (u : State) (m : Nat) (x : Evo) : (setEvo m x u).port = u.port := rfl
@[simp] theorem setEvo_straps (u : State) (m : Nat) (x : Evo) : (setEvo m x u).straps = u.straps := rfl
@[simp] theorem setEvo_upsets (u : State) (m : Nat) (x : Evo) : (setEvo m x u).upsets = u.upsets := rfl
@[simp] theorem setEvo_marks (u : State) (m : Nat) (x : Evo) : (setEvo m x u).marks = u.marks := rfl
@[simp] theorem setEvo_free (u : State) (m : Nat) (x : Evo) : (setEvo m x u).free = u.free := rfl

@[simp] theorem setQueue_pending (u : State) (q : Nat) (x : Queue) : (setQueue q x u).pending = u.pending := rfl
@[simp] theorem setQueue_eclk (u : State) (q : Nat) (x : Queue) : (setQueue q x u).eclk = u.eclk := rfl
@[simp] theorem setQueue_ctxs (u : State) (q : Nat) (x : Queue) : (setQueue q x u).ctxs = u.ctxs := rfl
@[simp] theorem setQueue_legends (u : State) (q : Nat) (x : Queue) : (setQueue q x u).legends = u.legends := rfl
@[simp] theorem setQueue_slots (u : State) (q : Nat) (x : Queue) : (setQueue q x u).slots = u.slots := rfl
@[simp] theorem setQueue_swap (u : State) (q : Nat) (x : Queue) : (setQueue q x u).swap = u.swap := rfl
@[simp] theorem setQueue_remotes (u : State) (q : Nat) (x : Queue) : (setQueue q x u).remotes = u.remotes := rfl
@[simp] theorem setQueue_ctl (u : State) (q : Nat) (x : Queue) : (setQueue q x u).ctl = u.ctl := rfl
@[simp] theorem setQueue_rr (u : State) (q : Nat) (x : Queue) : (setQueue q x u).rr = u.rr := rfl
@[simp] theorem setQueue_lcache (u : State) (q : Nat) (x : Queue) : (setQueue q x u).lcache = u.lcache := rfl
@[simp] theorem setQueue_fetches (u : State) (q : Nat) (x : Queue) : (setQueue q x u).fetches = u.fetches := rfl
@[simp] theorem setQueue_lanes (u : State) (q : Nat) (x : Queue) : (setQueue q x u).lanes = u.lanes := rfl
@[simp] theorem setQueue_offered (u : State) (q : Nat) (x : Queue) : (setQueue q x u).offered = u.offered := rfl
@[simp] theorem setQueue_outst (u : State) (q : Nat) (x : Queue) : (setQueue q x u).outst = u.outst := rfl
@[simp] theorem setQueue_nextTag (u : State) (q : Nat) (x : Queue) : (setQueue q x u).nextTag = u.nextTag := rfl
@[simp] theorem setQueue_mer (u : State) (q : Nat) (x : Queue) : (setQueue q x u).mer = u.mer := rfl
@[simp] theorem setQueue_merWas (u : State) (q : Nat) (x : Queue) : (setQueue q x u).merWas = u.merWas := rfl
@[simp] theorem setQueue_grat (u : State) (q : Nat) (x : Queue) : (setQueue q x u).grat = u.grat := rfl
@[simp] theorem setQueue_books (u : State) (q : Nat) (x : Queue) : (setQueue q x u).books = u.books := rfl
@[simp] theorem setQueue_staged (u : State) (q : Nat) (x : Queue) : (setQueue q x u).staged = u.staged := rfl
@[simp] theorem setQueue_heldRecs (u : State) (q : Nat) (x : Queue) : (setQueue q x u).heldRecs = u.heldRecs := rfl
@[simp] theorem setQueue_recClk (u : State) (q : Nat) (x : Queue) : (setQueue q x u).recClk = u.recClk := rfl
@[simp] theorem setQueue_inputs (u : State) (q : Nat) (x : Queue) : (setQueue q x u).inputs = u.inputs := rfl
@[simp] theorem setQueue_arrivals (u : State) (q : Nat) (x : Queue) : (setQueue q x u).arrivals = u.arrivals := rfl
@[simp] theorem setQueue_evos (u : State) (q : Nat) (x : Queue) : (setQueue q x u).evos = u.evos := rfl
@[simp] theorem setQueue_spill (u : State) (q : Nat) (x : Queue) : (setQueue q x u).spill = u.spill := rfl
@[simp] theorem setQueue_atlas (u : State) (q : Nat) (x : Queue) : (setQueue q x u).atlas = u.atlas := rfl
@[simp] theorem setQueue_halt (u : State) (q : Nat) (x : Queue) : (setQueue q x u).halt = u.halt := rfl
@[simp] theorem setQueue_errs (u : State) (q : Nat) (x : Queue) : (setQueue q x u).errs = u.errs := rfl
@[simp] theorem setQueue_fences (u : State) (q : Nat) (x : Queue) : (setQueue q x u).fences = u.fences := rfl
@[simp] theorem setQueue_fab (u : State) (q : Nat) (x : Queue) : (setQueue q x u).fab = u.fab := rfl
@[simp] theorem setQueue_sync (u : State) (q : Nat) (x : Queue) : (setQueue q x u).sync = u.sync := rfl
@[simp] theorem setQueue_power (u : State) (q : Nat) (x : Queue) : (setQueue q x u).power = u.power := rfl
@[simp] theorem setQueue_flash (u : State) (q : Nat) (x : Queue) : (setQueue q x u).flash = u.flash := rfl
@[simp] theorem setQueue_dbg (u : State) (q : Nat) (x : Queue) : (setQueue q x u).dbg = u.dbg := rfl
@[simp] theorem setQueue_glob (u : State) (q : Nat) (x : Queue) : (setQueue q x u).glob = u.glob := rfl
@[simp] theorem setQueue_mgt (u : State) (q : Nat) (x : Queue) : (setQueue q x u).mgt = u.mgt := rfl
@[simp] theorem setQueue_port (u : State) (q : Nat) (x : Queue) : (setQueue q x u).port = u.port := rfl
@[simp] theorem setQueue_straps (u : State) (q : Nat) (x : Queue) : (setQueue q x u).straps = u.straps := rfl
@[simp] theorem setQueue_upsets (u : State) (q : Nat) (x : Queue) : (setQueue q x u).upsets = u.upsets := rfl
@[simp] theorem setQueue_marks (u : State) (q : Nat) (x : Queue) : (setQueue q x u).marks = u.marks := rfl
@[simp] theorem setQueue_free (u : State) (q : Nat) (x : Queue) : (setQueue q x u).free = u.free := rfl

@[simp] theorem modQ_pending (u : State) (q : Nat) (f : Queue → Queue) : (modQ q f u).pending = u.pending := rfl
@[simp] theorem modQ_eclk (u : State) (q : Nat) (f : Queue → Queue) : (modQ q f u).eclk = u.eclk := rfl
@[simp] theorem modQ_ctxs (u : State) (q : Nat) (f : Queue → Queue) : (modQ q f u).ctxs = u.ctxs := rfl
@[simp] theorem modQ_legends (u : State) (q : Nat) (f : Queue → Queue) : (modQ q f u).legends = u.legends := rfl
@[simp] theorem modQ_slots (u : State) (q : Nat) (f : Queue → Queue) : (modQ q f u).slots = u.slots := rfl
@[simp] theorem modQ_swap (u : State) (q : Nat) (f : Queue → Queue) : (modQ q f u).swap = u.swap := rfl
@[simp] theorem modQ_remotes (u : State) (q : Nat) (f : Queue → Queue) : (modQ q f u).remotes = u.remotes := rfl
@[simp] theorem modQ_ctl (u : State) (q : Nat) (f : Queue → Queue) : (modQ q f u).ctl = u.ctl := rfl
@[simp] theorem modQ_rr (u : State) (q : Nat) (f : Queue → Queue) : (modQ q f u).rr = u.rr := rfl
@[simp] theorem modQ_lcache (u : State) (q : Nat) (f : Queue → Queue) : (modQ q f u).lcache = u.lcache := rfl
@[simp] theorem modQ_fetches (u : State) (q : Nat) (f : Queue → Queue) : (modQ q f u).fetches = u.fetches := rfl
@[simp] theorem modQ_lanes (u : State) (q : Nat) (f : Queue → Queue) : (modQ q f u).lanes = u.lanes := rfl
@[simp] theorem modQ_offered (u : State) (q : Nat) (f : Queue → Queue) : (modQ q f u).offered = u.offered := rfl
@[simp] theorem modQ_outst (u : State) (q : Nat) (f : Queue → Queue) : (modQ q f u).outst = u.outst := rfl
@[simp] theorem modQ_nextTag (u : State) (q : Nat) (f : Queue → Queue) : (modQ q f u).nextTag = u.nextTag := rfl
@[simp] theorem modQ_mer (u : State) (q : Nat) (f : Queue → Queue) : (modQ q f u).mer = u.mer := rfl
@[simp] theorem modQ_merWas (u : State) (q : Nat) (f : Queue → Queue) : (modQ q f u).merWas = u.merWas := rfl
@[simp] theorem modQ_grat (u : State) (q : Nat) (f : Queue → Queue) : (modQ q f u).grat = u.grat := rfl
@[simp] theorem modQ_books (u : State) (q : Nat) (f : Queue → Queue) : (modQ q f u).books = u.books := rfl
@[simp] theorem modQ_staged (u : State) (q : Nat) (f : Queue → Queue) : (modQ q f u).staged = u.staged := rfl
@[simp] theorem modQ_heldRecs (u : State) (q : Nat) (f : Queue → Queue) : (modQ q f u).heldRecs = u.heldRecs := rfl
@[simp] theorem modQ_recClk (u : State) (q : Nat) (f : Queue → Queue) : (modQ q f u).recClk = u.recClk := rfl
@[simp] theorem modQ_inputs (u : State) (q : Nat) (f : Queue → Queue) : (modQ q f u).inputs = u.inputs := rfl
@[simp] theorem modQ_arrivals (u : State) (q : Nat) (f : Queue → Queue) : (modQ q f u).arrivals = u.arrivals := rfl
@[simp] theorem modQ_evos (u : State) (q : Nat) (f : Queue → Queue) : (modQ q f u).evos = u.evos := rfl
@[simp] theorem modQ_spill (u : State) (q : Nat) (f : Queue → Queue) : (modQ q f u).spill = u.spill := rfl
@[simp] theorem modQ_atlas (u : State) (q : Nat) (f : Queue → Queue) : (modQ q f u).atlas = u.atlas := rfl
@[simp] theorem modQ_halt (u : State) (q : Nat) (f : Queue → Queue) : (modQ q f u).halt = u.halt := rfl
@[simp] theorem modQ_errs (u : State) (q : Nat) (f : Queue → Queue) : (modQ q f u).errs = u.errs := rfl
@[simp] theorem modQ_fences (u : State) (q : Nat) (f : Queue → Queue) : (modQ q f u).fences = u.fences := rfl
@[simp] theorem modQ_fab (u : State) (q : Nat) (f : Queue → Queue) : (modQ q f u).fab = u.fab := rfl
@[simp] theorem modQ_sync (u : State) (q : Nat) (f : Queue → Queue) : (modQ q f u).sync = u.sync := rfl
@[simp] theorem modQ_power (u : State) (q : Nat) (f : Queue → Queue) : (modQ q f u).power = u.power := rfl
@[simp] theorem modQ_flash (u : State) (q : Nat) (f : Queue → Queue) : (modQ q f u).flash = u.flash := rfl
@[simp] theorem modQ_dbg (u : State) (q : Nat) (f : Queue → Queue) : (modQ q f u).dbg = u.dbg := rfl
@[simp] theorem modQ_glob (u : State) (q : Nat) (f : Queue → Queue) : (modQ q f u).glob = u.glob := rfl
@[simp] theorem modQ_mgt (u : State) (q : Nat) (f : Queue → Queue) : (modQ q f u).mgt = u.mgt := rfl
@[simp] theorem modQ_port (u : State) (q : Nat) (f : Queue → Queue) : (modQ q f u).port = u.port := rfl
@[simp] theorem modQ_straps (u : State) (q : Nat) (f : Queue → Queue) : (modQ q f u).straps = u.straps := rfl
@[simp] theorem modQ_upsets (u : State) (q : Nat) (f : Queue → Queue) : (modQ q f u).upsets = u.upsets := rfl
@[simp] theorem modQ_marks (u : State) (q : Nat) (f : Queue → Queue) : (modQ q f u).marks = u.marks := rfl
@[simp] theorem modQ_free (u : State) (q : Nat) (f : Queue → Queue) : (modQ q f u).free = u.free := rfl

@[simp] theorem setErr_pending (u : State) (k : Nat) (x : ErrClass) : (setErr k x u).pending = u.pending := rfl
@[simp] theorem setErr_eclk (u : State) (k : Nat) (x : ErrClass) : (setErr k x u).eclk = u.eclk := rfl
@[simp] theorem setErr_ctxs (u : State) (k : Nat) (x : ErrClass) : (setErr k x u).ctxs = u.ctxs := rfl
@[simp] theorem setErr_legends (u : State) (k : Nat) (x : ErrClass) : (setErr k x u).legends = u.legends := rfl
@[simp] theorem setErr_slots (u : State) (k : Nat) (x : ErrClass) : (setErr k x u).slots = u.slots := rfl
@[simp] theorem setErr_swap (u : State) (k : Nat) (x : ErrClass) : (setErr k x u).swap = u.swap := rfl
@[simp] theorem setErr_remotes (u : State) (k : Nat) (x : ErrClass) : (setErr k x u).remotes = u.remotes := rfl
@[simp] theorem setErr_ctl (u : State) (k : Nat) (x : ErrClass) : (setErr k x u).ctl = u.ctl := rfl
@[simp] theorem setErr_rr (u : State) (k : Nat) (x : ErrClass) : (setErr k x u).rr = u.rr := rfl
@[simp] theorem setErr_lcache (u : State) (k : Nat) (x : ErrClass) : (setErr k x u).lcache = u.lcache := rfl
@[simp] theorem setErr_fetches (u : State) (k : Nat) (x : ErrClass) : (setErr k x u).fetches = u.fetches := rfl
@[simp] theorem setErr_lanes (u : State) (k : Nat) (x : ErrClass) : (setErr k x u).lanes = u.lanes := rfl
@[simp] theorem setErr_offered (u : State) (k : Nat) (x : ErrClass) : (setErr k x u).offered = u.offered := rfl
@[simp] theorem setErr_outst (u : State) (k : Nat) (x : ErrClass) : (setErr k x u).outst = u.outst := rfl
@[simp] theorem setErr_nextTag (u : State) (k : Nat) (x : ErrClass) : (setErr k x u).nextTag = u.nextTag := rfl
@[simp] theorem setErr_mer (u : State) (k : Nat) (x : ErrClass) : (setErr k x u).mer = u.mer := rfl
@[simp] theorem setErr_merWas (u : State) (k : Nat) (x : ErrClass) : (setErr k x u).merWas = u.merWas := rfl
@[simp] theorem setErr_grat (u : State) (k : Nat) (x : ErrClass) : (setErr k x u).grat = u.grat := rfl
@[simp] theorem setErr_books (u : State) (k : Nat) (x : ErrClass) : (setErr k x u).books = u.books := rfl
@[simp] theorem setErr_staged (u : State) (k : Nat) (x : ErrClass) : (setErr k x u).staged = u.staged := rfl
@[simp] theorem setErr_heldRecs (u : State) (k : Nat) (x : ErrClass) : (setErr k x u).heldRecs = u.heldRecs := rfl
@[simp] theorem setErr_recClk (u : State) (k : Nat) (x : ErrClass) : (setErr k x u).recClk = u.recClk := rfl
@[simp] theorem setErr_inputs (u : State) (k : Nat) (x : ErrClass) : (setErr k x u).inputs = u.inputs := rfl
@[simp] theorem setErr_arrivals (u : State) (k : Nat) (x : ErrClass) : (setErr k x u).arrivals = u.arrivals := rfl
@[simp] theorem setErr_evos (u : State) (k : Nat) (x : ErrClass) : (setErr k x u).evos = u.evos := rfl
@[simp] theorem setErr_queues (u : State) (k : Nat) (x : ErrClass) : (setErr k x u).queues = u.queues := rfl
@[simp] theorem setErr_spill (u : State) (k : Nat) (x : ErrClass) : (setErr k x u).spill = u.spill := rfl
@[simp] theorem setErr_atlas (u : State) (k : Nat) (x : ErrClass) : (setErr k x u).atlas = u.atlas := rfl
@[simp] theorem setErr_halt (u : State) (k : Nat) (x : ErrClass) : (setErr k x u).halt = u.halt := rfl
@[simp] theorem setErr_fences (u : State) (k : Nat) (x : ErrClass) : (setErr k x u).fences = u.fences := rfl
@[simp] theorem setErr_fab (u : State) (k : Nat) (x : ErrClass) : (setErr k x u).fab = u.fab := rfl
@[simp] theorem setErr_sync (u : State) (k : Nat) (x : ErrClass) : (setErr k x u).sync = u.sync := rfl
@[simp] theorem setErr_power (u : State) (k : Nat) (x : ErrClass) : (setErr k x u).power = u.power := rfl
@[simp] theorem setErr_flash (u : State) (k : Nat) (x : ErrClass) : (setErr k x u).flash = u.flash := rfl
@[simp] theorem setErr_dbg (u : State) (k : Nat) (x : ErrClass) : (setErr k x u).dbg = u.dbg := rfl
@[simp] theorem setErr_glob (u : State) (k : Nat) (x : ErrClass) : (setErr k x u).glob = u.glob := rfl
@[simp] theorem setErr_mgt (u : State) (k : Nat) (x : ErrClass) : (setErr k x u).mgt = u.mgt := rfl
@[simp] theorem setErr_port (u : State) (k : Nat) (x : ErrClass) : (setErr k x u).port = u.port := rfl
@[simp] theorem setErr_straps (u : State) (k : Nat) (x : ErrClass) : (setErr k x u).straps = u.straps := rfl
@[simp] theorem setErr_upsets (u : State) (k : Nat) (x : ErrClass) : (setErr k x u).upsets = u.upsets := rfl
@[simp] theorem setErr_marks (u : State) (k : Nat) (x : ErrClass) : (setErr k x u).marks = u.marks := rfl
@[simp] theorem setErr_free (u : State) (k : Nat) (x : ErrClass) : (setErr k x u).free = u.free := rfl

@[simp] theorem setPort_pending (u : State) (p : Nat) (x : LinkPort) : (setPort p x u).pending = u.pending := rfl
@[simp] theorem setPort_eclk (u : State) (p : Nat) (x : LinkPort) : (setPort p x u).eclk = u.eclk := rfl
@[simp] theorem setPort_ctxs (u : State) (p : Nat) (x : LinkPort) : (setPort p x u).ctxs = u.ctxs := rfl
@[simp] theorem setPort_legends (u : State) (p : Nat) (x : LinkPort) : (setPort p x u).legends = u.legends := rfl
@[simp] theorem setPort_slots (u : State) (p : Nat) (x : LinkPort) : (setPort p x u).slots = u.slots := rfl
@[simp] theorem setPort_swap (u : State) (p : Nat) (x : LinkPort) : (setPort p x u).swap = u.swap := rfl
@[simp] theorem setPort_remotes (u : State) (p : Nat) (x : LinkPort) : (setPort p x u).remotes = u.remotes := rfl
@[simp] theorem setPort_ctl (u : State) (p : Nat) (x : LinkPort) : (setPort p x u).ctl = u.ctl := rfl
@[simp] theorem setPort_rr (u : State) (p : Nat) (x : LinkPort) : (setPort p x u).rr = u.rr := rfl
@[simp] theorem setPort_lcache (u : State) (p : Nat) (x : LinkPort) : (setPort p x u).lcache = u.lcache := rfl
@[simp] theorem setPort_fetches (u : State) (p : Nat) (x : LinkPort) : (setPort p x u).fetches = u.fetches := rfl
@[simp] theorem setPort_lanes (u : State) (p : Nat) (x : LinkPort) : (setPort p x u).lanes = u.lanes := rfl
@[simp] theorem setPort_offered (u : State) (p : Nat) (x : LinkPort) : (setPort p x u).offered = u.offered := rfl
@[simp] theorem setPort_outst (u : State) (p : Nat) (x : LinkPort) : (setPort p x u).outst = u.outst := rfl
@[simp] theorem setPort_nextTag (u : State) (p : Nat) (x : LinkPort) : (setPort p x u).nextTag = u.nextTag := rfl
@[simp] theorem setPort_mer (u : State) (p : Nat) (x : LinkPort) : (setPort p x u).mer = u.mer := rfl
@[simp] theorem setPort_merWas (u : State) (p : Nat) (x : LinkPort) : (setPort p x u).merWas = u.merWas := rfl
@[simp] theorem setPort_grat (u : State) (p : Nat) (x : LinkPort) : (setPort p x u).grat = u.grat := rfl
@[simp] theorem setPort_books (u : State) (p : Nat) (x : LinkPort) : (setPort p x u).books = u.books := rfl
@[simp] theorem setPort_staged (u : State) (p : Nat) (x : LinkPort) : (setPort p x u).staged = u.staged := rfl
@[simp] theorem setPort_heldRecs (u : State) (p : Nat) (x : LinkPort) : (setPort p x u).heldRecs = u.heldRecs := rfl
@[simp] theorem setPort_recClk (u : State) (p : Nat) (x : LinkPort) : (setPort p x u).recClk = u.recClk := rfl
@[simp] theorem setPort_inputs (u : State) (p : Nat) (x : LinkPort) : (setPort p x u).inputs = u.inputs := rfl
@[simp] theorem setPort_arrivals (u : State) (p : Nat) (x : LinkPort) : (setPort p x u).arrivals = u.arrivals := rfl
@[simp] theorem setPort_evos (u : State) (p : Nat) (x : LinkPort) : (setPort p x u).evos = u.evos := rfl
@[simp] theorem setPort_queues (u : State) (p : Nat) (x : LinkPort) : (setPort p x u).queues = u.queues := rfl
@[simp] theorem setPort_spill (u : State) (p : Nat) (x : LinkPort) : (setPort p x u).spill = u.spill := rfl
@[simp] theorem setPort_atlas (u : State) (p : Nat) (x : LinkPort) : (setPort p x u).atlas = u.atlas := rfl
@[simp] theorem setPort_halt (u : State) (p : Nat) (x : LinkPort) : (setPort p x u).halt = u.halt := rfl
@[simp] theorem setPort_errs (u : State) (p : Nat) (x : LinkPort) : (setPort p x u).errs = u.errs := rfl
@[simp] theorem setPort_fences (u : State) (p : Nat) (x : LinkPort) : (setPort p x u).fences = u.fences := rfl
@[simp] theorem setPort_sync (u : State) (p : Nat) (x : LinkPort) : (setPort p x u).sync = u.sync := rfl
@[simp] theorem setPort_power (u : State) (p : Nat) (x : LinkPort) : (setPort p x u).power = u.power := rfl
@[simp] theorem setPort_flash (u : State) (p : Nat) (x : LinkPort) : (setPort p x u).flash = u.flash := rfl
@[simp] theorem setPort_dbg (u : State) (p : Nat) (x : LinkPort) : (setPort p x u).dbg = u.dbg := rfl
@[simp] theorem setPort_glob (u : State) (p : Nat) (x : LinkPort) : (setPort p x u).glob = u.glob := rfl
@[simp] theorem setPort_mgt (u : State) (p : Nat) (x : LinkPort) : (setPort p x u).mgt = u.mgt := rfl
@[simp] theorem setPort_port (u : State) (p : Nat) (x : LinkPort) : (setPort p x u).port = u.port := rfl
@[simp] theorem setPort_straps (u : State) (p : Nat) (x : LinkPort) : (setPort p x u).straps = u.straps := rfl
@[simp] theorem setPort_upsets (u : State) (p : Nat) (x : LinkPort) : (setPort p x u).upsets = u.upsets := rfl
@[simp] theorem setPort_marks (u : State) (p : Nat) (x : LinkPort) : (setPort p x u).marks = u.marks := rfl
@[simp] theorem setPort_free (u : State) (p : Nat) (x : LinkPort) : (setPort p x u).free = u.free := rfl

@[simp] theorem modP_pending (u : State) (p : Nat) (f : LinkPort → LinkPort) : (modP p f u).pending = u.pending := rfl
@[simp] theorem modP_eclk (u : State) (p : Nat) (f : LinkPort → LinkPort) : (modP p f u).eclk = u.eclk := rfl
@[simp] theorem modP_ctxs (u : State) (p : Nat) (f : LinkPort → LinkPort) : (modP p f u).ctxs = u.ctxs := rfl
@[simp] theorem modP_legends (u : State) (p : Nat) (f : LinkPort → LinkPort) : (modP p f u).legends = u.legends := rfl
@[simp] theorem modP_slots (u : State) (p : Nat) (f : LinkPort → LinkPort) : (modP p f u).slots = u.slots := rfl
@[simp] theorem modP_swap (u : State) (p : Nat) (f : LinkPort → LinkPort) : (modP p f u).swap = u.swap := rfl
@[simp] theorem modP_remotes (u : State) (p : Nat) (f : LinkPort → LinkPort) : (modP p f u).remotes = u.remotes := rfl
@[simp] theorem modP_ctl (u : State) (p : Nat) (f : LinkPort → LinkPort) : (modP p f u).ctl = u.ctl := rfl
@[simp] theorem modP_rr (u : State) (p : Nat) (f : LinkPort → LinkPort) : (modP p f u).rr = u.rr := rfl
@[simp] theorem modP_lcache (u : State) (p : Nat) (f : LinkPort → LinkPort) : (modP p f u).lcache = u.lcache := rfl
@[simp] theorem modP_fetches (u : State) (p : Nat) (f : LinkPort → LinkPort) : (modP p f u).fetches = u.fetches := rfl
@[simp] theorem modP_lanes (u : State) (p : Nat) (f : LinkPort → LinkPort) : (modP p f u).lanes = u.lanes := rfl
@[simp] theorem modP_offered (u : State) (p : Nat) (f : LinkPort → LinkPort) : (modP p f u).offered = u.offered := rfl
@[simp] theorem modP_outst (u : State) (p : Nat) (f : LinkPort → LinkPort) : (modP p f u).outst = u.outst := rfl
@[simp] theorem modP_nextTag (u : State) (p : Nat) (f : LinkPort → LinkPort) : (modP p f u).nextTag = u.nextTag := rfl
@[simp] theorem modP_mer (u : State) (p : Nat) (f : LinkPort → LinkPort) : (modP p f u).mer = u.mer := rfl
@[simp] theorem modP_merWas (u : State) (p : Nat) (f : LinkPort → LinkPort) : (modP p f u).merWas = u.merWas := rfl
@[simp] theorem modP_grat (u : State) (p : Nat) (f : LinkPort → LinkPort) : (modP p f u).grat = u.grat := rfl
@[simp] theorem modP_books (u : State) (p : Nat) (f : LinkPort → LinkPort) : (modP p f u).books = u.books := rfl
@[simp] theorem modP_staged (u : State) (p : Nat) (f : LinkPort → LinkPort) : (modP p f u).staged = u.staged := rfl
@[simp] theorem modP_heldRecs (u : State) (p : Nat) (f : LinkPort → LinkPort) : (modP p f u).heldRecs = u.heldRecs := rfl
@[simp] theorem modP_recClk (u : State) (p : Nat) (f : LinkPort → LinkPort) : (modP p f u).recClk = u.recClk := rfl
@[simp] theorem modP_inputs (u : State) (p : Nat) (f : LinkPort → LinkPort) : (modP p f u).inputs = u.inputs := rfl
@[simp] theorem modP_arrivals (u : State) (p : Nat) (f : LinkPort → LinkPort) : (modP p f u).arrivals = u.arrivals := rfl
@[simp] theorem modP_evos (u : State) (p : Nat) (f : LinkPort → LinkPort) : (modP p f u).evos = u.evos := rfl
@[simp] theorem modP_queues (u : State) (p : Nat) (f : LinkPort → LinkPort) : (modP p f u).queues = u.queues := rfl
@[simp] theorem modP_spill (u : State) (p : Nat) (f : LinkPort → LinkPort) : (modP p f u).spill = u.spill := rfl
@[simp] theorem modP_atlas (u : State) (p : Nat) (f : LinkPort → LinkPort) : (modP p f u).atlas = u.atlas := rfl
@[simp] theorem modP_halt (u : State) (p : Nat) (f : LinkPort → LinkPort) : (modP p f u).halt = u.halt := rfl
@[simp] theorem modP_errs (u : State) (p : Nat) (f : LinkPort → LinkPort) : (modP p f u).errs = u.errs := rfl
@[simp] theorem modP_fences (u : State) (p : Nat) (f : LinkPort → LinkPort) : (modP p f u).fences = u.fences := rfl
@[simp] theorem modP_sync (u : State) (p : Nat) (f : LinkPort → LinkPort) : (modP p f u).sync = u.sync := rfl
@[simp] theorem modP_power (u : State) (p : Nat) (f : LinkPort → LinkPort) : (modP p f u).power = u.power := rfl
@[simp] theorem modP_flash (u : State) (p : Nat) (f : LinkPort → LinkPort) : (modP p f u).flash = u.flash := rfl
@[simp] theorem modP_dbg (u : State) (p : Nat) (f : LinkPort → LinkPort) : (modP p f u).dbg = u.dbg := rfl
@[simp] theorem modP_glob (u : State) (p : Nat) (f : LinkPort → LinkPort) : (modP p f u).glob = u.glob := rfl
@[simp] theorem modP_mgt (u : State) (p : Nat) (f : LinkPort → LinkPort) : (modP p f u).mgt = u.mgt := rfl
@[simp] theorem modP_port (u : State) (p : Nat) (f : LinkPort → LinkPort) : (modP p f u).port = u.port := rfl
@[simp] theorem modP_straps (u : State) (p : Nat) (f : LinkPort → LinkPort) : (modP p f u).straps = u.straps := rfl
@[simp] theorem modP_upsets (u : State) (p : Nat) (f : LinkPort → LinkPort) : (modP p f u).upsets = u.upsets := rfl
@[simp] theorem modP_marks (u : State) (p : Nat) (f : LinkPort → LinkPort) : (modP p f u).marks = u.marks := rfl
@[simp] theorem modP_free (u : State) (p : Nat) (f : LinkPort → LinkPort) : (modP p f u).free = u.free := rfl

@[simp] theorem setSurvey_pending (u : State) (f : Survey → Survey) : (setSurvey f u).pending = u.pending := rfl
@[simp] theorem setSurvey_eclk (u : State) (f : Survey → Survey) : (setSurvey f u).eclk = u.eclk := rfl
@[simp] theorem setSurvey_ctxs (u : State) (f : Survey → Survey) : (setSurvey f u).ctxs = u.ctxs := rfl
@[simp] theorem setSurvey_legends (u : State) (f : Survey → Survey) : (setSurvey f u).legends = u.legends := rfl
@[simp] theorem setSurvey_slots (u : State) (f : Survey → Survey) : (setSurvey f u).slots = u.slots := rfl
@[simp] theorem setSurvey_swap (u : State) (f : Survey → Survey) : (setSurvey f u).swap = u.swap := rfl
@[simp] theorem setSurvey_remotes (u : State) (f : Survey → Survey) : (setSurvey f u).remotes = u.remotes := rfl
@[simp] theorem setSurvey_ctl (u : State) (f : Survey → Survey) : (setSurvey f u).ctl = u.ctl := rfl
@[simp] theorem setSurvey_rr (u : State) (f : Survey → Survey) : (setSurvey f u).rr = u.rr := rfl
@[simp] theorem setSurvey_lcache (u : State) (f : Survey → Survey) : (setSurvey f u).lcache = u.lcache := rfl
@[simp] theorem setSurvey_fetches (u : State) (f : Survey → Survey) : (setSurvey f u).fetches = u.fetches := rfl
@[simp] theorem setSurvey_lanes (u : State) (f : Survey → Survey) : (setSurvey f u).lanes = u.lanes := rfl
@[simp] theorem setSurvey_offered (u : State) (f : Survey → Survey) : (setSurvey f u).offered = u.offered := rfl
@[simp] theorem setSurvey_outst (u : State) (f : Survey → Survey) : (setSurvey f u).outst = u.outst := rfl
@[simp] theorem setSurvey_nextTag (u : State) (f : Survey → Survey) : (setSurvey f u).nextTag = u.nextTag := rfl
@[simp] theorem setSurvey_mer (u : State) (f : Survey → Survey) : (setSurvey f u).mer = u.mer := rfl
@[simp] theorem setSurvey_merWas (u : State) (f : Survey → Survey) : (setSurvey f u).merWas = u.merWas := rfl
@[simp] theorem setSurvey_grat (u : State) (f : Survey → Survey) : (setSurvey f u).grat = u.grat := rfl
@[simp] theorem setSurvey_books (u : State) (f : Survey → Survey) : (setSurvey f u).books = u.books := rfl
@[simp] theorem setSurvey_staged (u : State) (f : Survey → Survey) : (setSurvey f u).staged = u.staged := rfl
@[simp] theorem setSurvey_heldRecs (u : State) (f : Survey → Survey) : (setSurvey f u).heldRecs = u.heldRecs := rfl
@[simp] theorem setSurvey_recClk (u : State) (f : Survey → Survey) : (setSurvey f u).recClk = u.recClk := rfl
@[simp] theorem setSurvey_inputs (u : State) (f : Survey → Survey) : (setSurvey f u).inputs = u.inputs := rfl
@[simp] theorem setSurvey_arrivals (u : State) (f : Survey → Survey) : (setSurvey f u).arrivals = u.arrivals := rfl
@[simp] theorem setSurvey_evos (u : State) (f : Survey → Survey) : (setSurvey f u).evos = u.evos := rfl
@[simp] theorem setSurvey_queues (u : State) (f : Survey → Survey) : (setSurvey f u).queues = u.queues := rfl
@[simp] theorem setSurvey_spill (u : State) (f : Survey → Survey) : (setSurvey f u).spill = u.spill := rfl
@[simp] theorem setSurvey_atlas (u : State) (f : Survey → Survey) : (setSurvey f u).atlas = u.atlas := rfl
@[simp] theorem setSurvey_halt (u : State) (f : Survey → Survey) : (setSurvey f u).halt = u.halt := rfl
@[simp] theorem setSurvey_errs (u : State) (f : Survey → Survey) : (setSurvey f u).errs = u.errs := rfl
@[simp] theorem setSurvey_fences (u : State) (f : Survey → Survey) : (setSurvey f u).fences = u.fences := rfl
@[simp] theorem setSurvey_sync (u : State) (f : Survey → Survey) : (setSurvey f u).sync = u.sync := rfl
@[simp] theorem setSurvey_power (u : State) (f : Survey → Survey) : (setSurvey f u).power = u.power := rfl
@[simp] theorem setSurvey_flash (u : State) (f : Survey → Survey) : (setSurvey f u).flash = u.flash := rfl
@[simp] theorem setSurvey_dbg (u : State) (f : Survey → Survey) : (setSurvey f u).dbg = u.dbg := rfl
@[simp] theorem setSurvey_glob (u : State) (f : Survey → Survey) : (setSurvey f u).glob = u.glob := rfl
@[simp] theorem setSurvey_mgt (u : State) (f : Survey → Survey) : (setSurvey f u).mgt = u.mgt := rfl
@[simp] theorem setSurvey_port (u : State) (f : Survey → Survey) : (setSurvey f u).port = u.port := rfl
@[simp] theorem setSurvey_straps (u : State) (f : Survey → Survey) : (setSurvey f u).straps = u.straps := rfl
@[simp] theorem setSurvey_upsets (u : State) (f : Survey → Survey) : (setSurvey f u).upsets = u.upsets := rfl
@[simp] theorem setSurvey_marks (u : State) (f : Survey → Survey) : (setSurvey f u).marks = u.marks := rfl
@[simp] theorem setSurvey_free (u : State) (f : Survey → Survey) : (setSurvey f u).free = u.free := rfl

@[simp] theorem setLoad_pending (u : State) (f : RouteLoad → RouteLoad) : (setLoad f u).pending = u.pending := rfl
@[simp] theorem setLoad_eclk (u : State) (f : RouteLoad → RouteLoad) : (setLoad f u).eclk = u.eclk := rfl
@[simp] theorem setLoad_ctxs (u : State) (f : RouteLoad → RouteLoad) : (setLoad f u).ctxs = u.ctxs := rfl
@[simp] theorem setLoad_legends (u : State) (f : RouteLoad → RouteLoad) : (setLoad f u).legends = u.legends := rfl
@[simp] theorem setLoad_slots (u : State) (f : RouteLoad → RouteLoad) : (setLoad f u).slots = u.slots := rfl
@[simp] theorem setLoad_swap (u : State) (f : RouteLoad → RouteLoad) : (setLoad f u).swap = u.swap := rfl
@[simp] theorem setLoad_remotes (u : State) (f : RouteLoad → RouteLoad) : (setLoad f u).remotes = u.remotes := rfl
@[simp] theorem setLoad_ctl (u : State) (f : RouteLoad → RouteLoad) : (setLoad f u).ctl = u.ctl := rfl
@[simp] theorem setLoad_rr (u : State) (f : RouteLoad → RouteLoad) : (setLoad f u).rr = u.rr := rfl
@[simp] theorem setLoad_lcache (u : State) (f : RouteLoad → RouteLoad) : (setLoad f u).lcache = u.lcache := rfl
@[simp] theorem setLoad_fetches (u : State) (f : RouteLoad → RouteLoad) : (setLoad f u).fetches = u.fetches := rfl
@[simp] theorem setLoad_lanes (u : State) (f : RouteLoad → RouteLoad) : (setLoad f u).lanes = u.lanes := rfl
@[simp] theorem setLoad_offered (u : State) (f : RouteLoad → RouteLoad) : (setLoad f u).offered = u.offered := rfl
@[simp] theorem setLoad_outst (u : State) (f : RouteLoad → RouteLoad) : (setLoad f u).outst = u.outst := rfl
@[simp] theorem setLoad_nextTag (u : State) (f : RouteLoad → RouteLoad) : (setLoad f u).nextTag = u.nextTag := rfl
@[simp] theorem setLoad_mer (u : State) (f : RouteLoad → RouteLoad) : (setLoad f u).mer = u.mer := rfl
@[simp] theorem setLoad_merWas (u : State) (f : RouteLoad → RouteLoad) : (setLoad f u).merWas = u.merWas := rfl
@[simp] theorem setLoad_grat (u : State) (f : RouteLoad → RouteLoad) : (setLoad f u).grat = u.grat := rfl
@[simp] theorem setLoad_books (u : State) (f : RouteLoad → RouteLoad) : (setLoad f u).books = u.books := rfl
@[simp] theorem setLoad_staged (u : State) (f : RouteLoad → RouteLoad) : (setLoad f u).staged = u.staged := rfl
@[simp] theorem setLoad_heldRecs (u : State) (f : RouteLoad → RouteLoad) : (setLoad f u).heldRecs = u.heldRecs := rfl
@[simp] theorem setLoad_recClk (u : State) (f : RouteLoad → RouteLoad) : (setLoad f u).recClk = u.recClk := rfl
@[simp] theorem setLoad_inputs (u : State) (f : RouteLoad → RouteLoad) : (setLoad f u).inputs = u.inputs := rfl
@[simp] theorem setLoad_arrivals (u : State) (f : RouteLoad → RouteLoad) : (setLoad f u).arrivals = u.arrivals := rfl
@[simp] theorem setLoad_evos (u : State) (f : RouteLoad → RouteLoad) : (setLoad f u).evos = u.evos := rfl
@[simp] theorem setLoad_queues (u : State) (f : RouteLoad → RouteLoad) : (setLoad f u).queues = u.queues := rfl
@[simp] theorem setLoad_spill (u : State) (f : RouteLoad → RouteLoad) : (setLoad f u).spill = u.spill := rfl
@[simp] theorem setLoad_atlas (u : State) (f : RouteLoad → RouteLoad) : (setLoad f u).atlas = u.atlas := rfl
@[simp] theorem setLoad_halt (u : State) (f : RouteLoad → RouteLoad) : (setLoad f u).halt = u.halt := rfl
@[simp] theorem setLoad_errs (u : State) (f : RouteLoad → RouteLoad) : (setLoad f u).errs = u.errs := rfl
@[simp] theorem setLoad_fences (u : State) (f : RouteLoad → RouteLoad) : (setLoad f u).fences = u.fences := rfl
@[simp] theorem setLoad_sync (u : State) (f : RouteLoad → RouteLoad) : (setLoad f u).sync = u.sync := rfl
@[simp] theorem setLoad_power (u : State) (f : RouteLoad → RouteLoad) : (setLoad f u).power = u.power := rfl
@[simp] theorem setLoad_flash (u : State) (f : RouteLoad → RouteLoad) : (setLoad f u).flash = u.flash := rfl
@[simp] theorem setLoad_dbg (u : State) (f : RouteLoad → RouteLoad) : (setLoad f u).dbg = u.dbg := rfl
@[simp] theorem setLoad_glob (u : State) (f : RouteLoad → RouteLoad) : (setLoad f u).glob = u.glob := rfl
@[simp] theorem setLoad_mgt (u : State) (f : RouteLoad → RouteLoad) : (setLoad f u).mgt = u.mgt := rfl
@[simp] theorem setLoad_port (u : State) (f : RouteLoad → RouteLoad) : (setLoad f u).port = u.port := rfl
@[simp] theorem setLoad_straps (u : State) (f : RouteLoad → RouteLoad) : (setLoad f u).straps = u.straps := rfl
@[simp] theorem setLoad_upsets (u : State) (f : RouteLoad → RouteLoad) : (setLoad f u).upsets = u.upsets := rfl
@[simp] theorem setLoad_marks (u : State) (f : RouteLoad → RouteLoad) : (setLoad f u).marks = u.marks := rfl
@[simp] theorem setLoad_free (u : State) (f : RouteLoad → RouteLoad) : (setLoad f u).free = u.free := rfl

@[simp] theorem setPower_pending (u : State) (f : Power → Power) : (setPower f u).pending = u.pending := rfl
@[simp] theorem setPower_eclk (u : State) (f : Power → Power) : (setPower f u).eclk = u.eclk := rfl
@[simp] theorem setPower_ctxs (u : State) (f : Power → Power) : (setPower f u).ctxs = u.ctxs := rfl
@[simp] theorem setPower_legends (u : State) (f : Power → Power) : (setPower f u).legends = u.legends := rfl
@[simp] theorem setPower_slots (u : State) (f : Power → Power) : (setPower f u).slots = u.slots := rfl
@[simp] theorem setPower_swap (u : State) (f : Power → Power) : (setPower f u).swap = u.swap := rfl
@[simp] theorem setPower_remotes (u : State) (f : Power → Power) : (setPower f u).remotes = u.remotes := rfl
@[simp] theorem setPower_ctl (u : State) (f : Power → Power) : (setPower f u).ctl = u.ctl := rfl
@[simp] theorem setPower_rr (u : State) (f : Power → Power) : (setPower f u).rr = u.rr := rfl
@[simp] theorem setPower_lcache (u : State) (f : Power → Power) : (setPower f u).lcache = u.lcache := rfl
@[simp] theorem setPower_fetches (u : State) (f : Power → Power) : (setPower f u).fetches = u.fetches := rfl
@[simp] theorem setPower_lanes (u : State) (f : Power → Power) : (setPower f u).lanes = u.lanes := rfl
@[simp] theorem setPower_offered (u : State) (f : Power → Power) : (setPower f u).offered = u.offered := rfl
@[simp] theorem setPower_outst (u : State) (f : Power → Power) : (setPower f u).outst = u.outst := rfl
@[simp] theorem setPower_nextTag (u : State) (f : Power → Power) : (setPower f u).nextTag = u.nextTag := rfl
@[simp] theorem setPower_mer (u : State) (f : Power → Power) : (setPower f u).mer = u.mer := rfl
@[simp] theorem setPower_merWas (u : State) (f : Power → Power) : (setPower f u).merWas = u.merWas := rfl
@[simp] theorem setPower_grat (u : State) (f : Power → Power) : (setPower f u).grat = u.grat := rfl
@[simp] theorem setPower_books (u : State) (f : Power → Power) : (setPower f u).books = u.books := rfl
@[simp] theorem setPower_staged (u : State) (f : Power → Power) : (setPower f u).staged = u.staged := rfl
@[simp] theorem setPower_heldRecs (u : State) (f : Power → Power) : (setPower f u).heldRecs = u.heldRecs := rfl
@[simp] theorem setPower_recClk (u : State) (f : Power → Power) : (setPower f u).recClk = u.recClk := rfl
@[simp] theorem setPower_inputs (u : State) (f : Power → Power) : (setPower f u).inputs = u.inputs := rfl
@[simp] theorem setPower_arrivals (u : State) (f : Power → Power) : (setPower f u).arrivals = u.arrivals := rfl
@[simp] theorem setPower_evos (u : State) (f : Power → Power) : (setPower f u).evos = u.evos := rfl
@[simp] theorem setPower_queues (u : State) (f : Power → Power) : (setPower f u).queues = u.queues := rfl
@[simp] theorem setPower_spill (u : State) (f : Power → Power) : (setPower f u).spill = u.spill := rfl
@[simp] theorem setPower_atlas (u : State) (f : Power → Power) : (setPower f u).atlas = u.atlas := rfl
@[simp] theorem setPower_halt (u : State) (f : Power → Power) : (setPower f u).halt = u.halt := rfl
@[simp] theorem setPower_errs (u : State) (f : Power → Power) : (setPower f u).errs = u.errs := rfl
@[simp] theorem setPower_fences (u : State) (f : Power → Power) : (setPower f u).fences = u.fences := rfl
@[simp] theorem setPower_fab (u : State) (f : Power → Power) : (setPower f u).fab = u.fab := rfl
@[simp] theorem setPower_sync (u : State) (f : Power → Power) : (setPower f u).sync = u.sync := rfl
@[simp] theorem setPower_flash (u : State) (f : Power → Power) : (setPower f u).flash = u.flash := rfl
@[simp] theorem setPower_dbg (u : State) (f : Power → Power) : (setPower f u).dbg = u.dbg := rfl
@[simp] theorem setPower_glob (u : State) (f : Power → Power) : (setPower f u).glob = u.glob := rfl
@[simp] theorem setPower_mgt (u : State) (f : Power → Power) : (setPower f u).mgt = u.mgt := rfl
@[simp] theorem setPower_port (u : State) (f : Power → Power) : (setPower f u).port = u.port := rfl
@[simp] theorem setPower_straps (u : State) (f : Power → Power) : (setPower f u).straps = u.straps := rfl
@[simp] theorem setPower_upsets (u : State) (f : Power → Power) : (setPower f u).upsets = u.upsets := rfl
@[simp] theorem setPower_marks (u : State) (f : Power → Power) : (setPower f u).marks = u.marks := rfl
@[simp] theorem setPower_free (u : State) (f : Power → Power) : (setPower f u).free = u.free := rfl

@[simp] theorem setScrub_pending (u : State) (f : Scrub → Scrub) : (setScrub f u).pending = u.pending := rfl
@[simp] theorem setScrub_eclk (u : State) (f : Scrub → Scrub) : (setScrub f u).eclk = u.eclk := rfl
@[simp] theorem setScrub_ctxs (u : State) (f : Scrub → Scrub) : (setScrub f u).ctxs = u.ctxs := rfl
@[simp] theorem setScrub_legends (u : State) (f : Scrub → Scrub) : (setScrub f u).legends = u.legends := rfl
@[simp] theorem setScrub_slots (u : State) (f : Scrub → Scrub) : (setScrub f u).slots = u.slots := rfl
@[simp] theorem setScrub_swap (u : State) (f : Scrub → Scrub) : (setScrub f u).swap = u.swap := rfl
@[simp] theorem setScrub_remotes (u : State) (f : Scrub → Scrub) : (setScrub f u).remotes = u.remotes := rfl
@[simp] theorem setScrub_ctl (u : State) (f : Scrub → Scrub) : (setScrub f u).ctl = u.ctl := rfl
@[simp] theorem setScrub_rr (u : State) (f : Scrub → Scrub) : (setScrub f u).rr = u.rr := rfl
@[simp] theorem setScrub_lcache (u : State) (f : Scrub → Scrub) : (setScrub f u).lcache = u.lcache := rfl
@[simp] theorem setScrub_fetches (u : State) (f : Scrub → Scrub) : (setScrub f u).fetches = u.fetches := rfl
@[simp] theorem setScrub_lanes (u : State) (f : Scrub → Scrub) : (setScrub f u).lanes = u.lanes := rfl
@[simp] theorem setScrub_offered (u : State) (f : Scrub → Scrub) : (setScrub f u).offered = u.offered := rfl
@[simp] theorem setScrub_outst (u : State) (f : Scrub → Scrub) : (setScrub f u).outst = u.outst := rfl
@[simp] theorem setScrub_nextTag (u : State) (f : Scrub → Scrub) : (setScrub f u).nextTag = u.nextTag := rfl
@[simp] theorem setScrub_mer (u : State) (f : Scrub → Scrub) : (setScrub f u).mer = u.mer := rfl
@[simp] theorem setScrub_merWas (u : State) (f : Scrub → Scrub) : (setScrub f u).merWas = u.merWas := rfl
@[simp] theorem setScrub_grat (u : State) (f : Scrub → Scrub) : (setScrub f u).grat = u.grat := rfl
@[simp] theorem setScrub_books (u : State) (f : Scrub → Scrub) : (setScrub f u).books = u.books := rfl
@[simp] theorem setScrub_staged (u : State) (f : Scrub → Scrub) : (setScrub f u).staged = u.staged := rfl
@[simp] theorem setScrub_heldRecs (u : State) (f : Scrub → Scrub) : (setScrub f u).heldRecs = u.heldRecs := rfl
@[simp] theorem setScrub_recClk (u : State) (f : Scrub → Scrub) : (setScrub f u).recClk = u.recClk := rfl
@[simp] theorem setScrub_inputs (u : State) (f : Scrub → Scrub) : (setScrub f u).inputs = u.inputs := rfl
@[simp] theorem setScrub_arrivals (u : State) (f : Scrub → Scrub) : (setScrub f u).arrivals = u.arrivals := rfl
@[simp] theorem setScrub_evos (u : State) (f : Scrub → Scrub) : (setScrub f u).evos = u.evos := rfl
@[simp] theorem setScrub_queues (u : State) (f : Scrub → Scrub) : (setScrub f u).queues = u.queues := rfl
@[simp] theorem setScrub_spill (u : State) (f : Scrub → Scrub) : (setScrub f u).spill = u.spill := rfl
@[simp] theorem setScrub_atlas (u : State) (f : Scrub → Scrub) : (setScrub f u).atlas = u.atlas := rfl
@[simp] theorem setScrub_halt (u : State) (f : Scrub → Scrub) : (setScrub f u).halt = u.halt := rfl
@[simp] theorem setScrub_errs (u : State) (f : Scrub → Scrub) : (setScrub f u).errs = u.errs := rfl
@[simp] theorem setScrub_fences (u : State) (f : Scrub → Scrub) : (setScrub f u).fences = u.fences := rfl
@[simp] theorem setScrub_fab (u : State) (f : Scrub → Scrub) : (setScrub f u).fab = u.fab := rfl
@[simp] theorem setScrub_sync (u : State) (f : Scrub → Scrub) : (setScrub f u).sync = u.sync := rfl
@[simp] theorem setScrub_power (u : State) (f : Scrub → Scrub) : (setScrub f u).power = u.power := rfl
@[simp] theorem setScrub_flash (u : State) (f : Scrub → Scrub) : (setScrub f u).flash = u.flash := rfl
@[simp] theorem setScrub_dbg (u : State) (f : Scrub → Scrub) : (setScrub f u).dbg = u.dbg := rfl
@[simp] theorem setScrub_glob (u : State) (f : Scrub → Scrub) : (setScrub f u).glob = u.glob := rfl
@[simp] theorem setScrub_port (u : State) (f : Scrub → Scrub) : (setScrub f u).port = u.port := rfl
@[simp] theorem setScrub_straps (u : State) (f : Scrub → Scrub) : (setScrub f u).straps = u.straps := rfl
@[simp] theorem setScrub_upsets (u : State) (f : Scrub → Scrub) : (setScrub f u).upsets = u.upsets := rfl
@[simp] theorem setScrub_marks (u : State) (f : Scrub → Scrub) : (setScrub f u).marks = u.marks := rfl
@[simp] theorem setScrub_free (u : State) (f : Scrub → Scrub) : (setScrub f u).free = u.free := rfl

@[simp] theorem setTest_pending (u : State) (f : SelfTest → SelfTest) : (setTest f u).pending = u.pending := rfl
@[simp] theorem setTest_eclk (u : State) (f : SelfTest → SelfTest) : (setTest f u).eclk = u.eclk := rfl
@[simp] theorem setTest_ctxs (u : State) (f : SelfTest → SelfTest) : (setTest f u).ctxs = u.ctxs := rfl
@[simp] theorem setTest_legends (u : State) (f : SelfTest → SelfTest) : (setTest f u).legends = u.legends := rfl
@[simp] theorem setTest_slots (u : State) (f : SelfTest → SelfTest) : (setTest f u).slots = u.slots := rfl
@[simp] theorem setTest_swap (u : State) (f : SelfTest → SelfTest) : (setTest f u).swap = u.swap := rfl
@[simp] theorem setTest_remotes (u : State) (f : SelfTest → SelfTest) : (setTest f u).remotes = u.remotes := rfl
@[simp] theorem setTest_ctl (u : State) (f : SelfTest → SelfTest) : (setTest f u).ctl = u.ctl := rfl
@[simp] theorem setTest_rr (u : State) (f : SelfTest → SelfTest) : (setTest f u).rr = u.rr := rfl
@[simp] theorem setTest_lcache (u : State) (f : SelfTest → SelfTest) : (setTest f u).lcache = u.lcache := rfl
@[simp] theorem setTest_fetches (u : State) (f : SelfTest → SelfTest) : (setTest f u).fetches = u.fetches := rfl
@[simp] theorem setTest_lanes (u : State) (f : SelfTest → SelfTest) : (setTest f u).lanes = u.lanes := rfl
@[simp] theorem setTest_offered (u : State) (f : SelfTest → SelfTest) : (setTest f u).offered = u.offered := rfl
@[simp] theorem setTest_outst (u : State) (f : SelfTest → SelfTest) : (setTest f u).outst = u.outst := rfl
@[simp] theorem setTest_nextTag (u : State) (f : SelfTest → SelfTest) : (setTest f u).nextTag = u.nextTag := rfl
@[simp] theorem setTest_mer (u : State) (f : SelfTest → SelfTest) : (setTest f u).mer = u.mer := rfl
@[simp] theorem setTest_merWas (u : State) (f : SelfTest → SelfTest) : (setTest f u).merWas = u.merWas := rfl
@[simp] theorem setTest_grat (u : State) (f : SelfTest → SelfTest) : (setTest f u).grat = u.grat := rfl
@[simp] theorem setTest_books (u : State) (f : SelfTest → SelfTest) : (setTest f u).books = u.books := rfl
@[simp] theorem setTest_staged (u : State) (f : SelfTest → SelfTest) : (setTest f u).staged = u.staged := rfl
@[simp] theorem setTest_heldRecs (u : State) (f : SelfTest → SelfTest) : (setTest f u).heldRecs = u.heldRecs := rfl
@[simp] theorem setTest_recClk (u : State) (f : SelfTest → SelfTest) : (setTest f u).recClk = u.recClk := rfl
@[simp] theorem setTest_inputs (u : State) (f : SelfTest → SelfTest) : (setTest f u).inputs = u.inputs := rfl
@[simp] theorem setTest_arrivals (u : State) (f : SelfTest → SelfTest) : (setTest f u).arrivals = u.arrivals := rfl
@[simp] theorem setTest_evos (u : State) (f : SelfTest → SelfTest) : (setTest f u).evos = u.evos := rfl
@[simp] theorem setTest_queues (u : State) (f : SelfTest → SelfTest) : (setTest f u).queues = u.queues := rfl
@[simp] theorem setTest_spill (u : State) (f : SelfTest → SelfTest) : (setTest f u).spill = u.spill := rfl
@[simp] theorem setTest_atlas (u : State) (f : SelfTest → SelfTest) : (setTest f u).atlas = u.atlas := rfl
@[simp] theorem setTest_halt (u : State) (f : SelfTest → SelfTest) : (setTest f u).halt = u.halt := rfl
@[simp] theorem setTest_errs (u : State) (f : SelfTest → SelfTest) : (setTest f u).errs = u.errs := rfl
@[simp] theorem setTest_fences (u : State) (f : SelfTest → SelfTest) : (setTest f u).fences = u.fences := rfl
@[simp] theorem setTest_fab (u : State) (f : SelfTest → SelfTest) : (setTest f u).fab = u.fab := rfl
@[simp] theorem setTest_sync (u : State) (f : SelfTest → SelfTest) : (setTest f u).sync = u.sync := rfl
@[simp] theorem setTest_power (u : State) (f : SelfTest → SelfTest) : (setTest f u).power = u.power := rfl
@[simp] theorem setTest_flash (u : State) (f : SelfTest → SelfTest) : (setTest f u).flash = u.flash := rfl
@[simp] theorem setTest_dbg (u : State) (f : SelfTest → SelfTest) : (setTest f u).dbg = u.dbg := rfl
@[simp] theorem setTest_glob (u : State) (f : SelfTest → SelfTest) : (setTest f u).glob = u.glob := rfl
@[simp] theorem setTest_port (u : State) (f : SelfTest → SelfTest) : (setTest f u).port = u.port := rfl
@[simp] theorem setTest_straps (u : State) (f : SelfTest → SelfTest) : (setTest f u).straps = u.straps := rfl
@[simp] theorem setTest_upsets (u : State) (f : SelfTest → SelfTest) : (setTest f u).upsets = u.upsets := rfl
@[simp] theorem setTest_marks (u : State) (f : SelfTest → SelfTest) : (setTest f u).marks = u.marks := rfl
@[simp] theorem setTest_free (u : State) (f : SelfTest → SelfTest) : (setTest f u).free = u.free := rfl

@[simp] theorem setTele_pending (u : State) (f : Tele → Tele) : (setTele f u).pending = u.pending := rfl
@[simp] theorem setTele_eclk (u : State) (f : Tele → Tele) : (setTele f u).eclk = u.eclk := rfl
@[simp] theorem setTele_ctxs (u : State) (f : Tele → Tele) : (setTele f u).ctxs = u.ctxs := rfl
@[simp] theorem setTele_legends (u : State) (f : Tele → Tele) : (setTele f u).legends = u.legends := rfl
@[simp] theorem setTele_slots (u : State) (f : Tele → Tele) : (setTele f u).slots = u.slots := rfl
@[simp] theorem setTele_swap (u : State) (f : Tele → Tele) : (setTele f u).swap = u.swap := rfl
@[simp] theorem setTele_remotes (u : State) (f : Tele → Tele) : (setTele f u).remotes = u.remotes := rfl
@[simp] theorem setTele_ctl (u : State) (f : Tele → Tele) : (setTele f u).ctl = u.ctl := rfl
@[simp] theorem setTele_rr (u : State) (f : Tele → Tele) : (setTele f u).rr = u.rr := rfl
@[simp] theorem setTele_lcache (u : State) (f : Tele → Tele) : (setTele f u).lcache = u.lcache := rfl
@[simp] theorem setTele_fetches (u : State) (f : Tele → Tele) : (setTele f u).fetches = u.fetches := rfl
@[simp] theorem setTele_lanes (u : State) (f : Tele → Tele) : (setTele f u).lanes = u.lanes := rfl
@[simp] theorem setTele_offered (u : State) (f : Tele → Tele) : (setTele f u).offered = u.offered := rfl
@[simp] theorem setTele_outst (u : State) (f : Tele → Tele) : (setTele f u).outst = u.outst := rfl
@[simp] theorem setTele_nextTag (u : State) (f : Tele → Tele) : (setTele f u).nextTag = u.nextTag := rfl
@[simp] theorem setTele_mer (u : State) (f : Tele → Tele) : (setTele f u).mer = u.mer := rfl
@[simp] theorem setTele_merWas (u : State) (f : Tele → Tele) : (setTele f u).merWas = u.merWas := rfl
@[simp] theorem setTele_grat (u : State) (f : Tele → Tele) : (setTele f u).grat = u.grat := rfl
@[simp] theorem setTele_books (u : State) (f : Tele → Tele) : (setTele f u).books = u.books := rfl
@[simp] theorem setTele_staged (u : State) (f : Tele → Tele) : (setTele f u).staged = u.staged := rfl
@[simp] theorem setTele_heldRecs (u : State) (f : Tele → Tele) : (setTele f u).heldRecs = u.heldRecs := rfl
@[simp] theorem setTele_recClk (u : State) (f : Tele → Tele) : (setTele f u).recClk = u.recClk := rfl
@[simp] theorem setTele_inputs (u : State) (f : Tele → Tele) : (setTele f u).inputs = u.inputs := rfl
@[simp] theorem setTele_arrivals (u : State) (f : Tele → Tele) : (setTele f u).arrivals = u.arrivals := rfl
@[simp] theorem setTele_evos (u : State) (f : Tele → Tele) : (setTele f u).evos = u.evos := rfl
@[simp] theorem setTele_queues (u : State) (f : Tele → Tele) : (setTele f u).queues = u.queues := rfl
@[simp] theorem setTele_spill (u : State) (f : Tele → Tele) : (setTele f u).spill = u.spill := rfl
@[simp] theorem setTele_atlas (u : State) (f : Tele → Tele) : (setTele f u).atlas = u.atlas := rfl
@[simp] theorem setTele_halt (u : State) (f : Tele → Tele) : (setTele f u).halt = u.halt := rfl
@[simp] theorem setTele_errs (u : State) (f : Tele → Tele) : (setTele f u).errs = u.errs := rfl
@[simp] theorem setTele_fences (u : State) (f : Tele → Tele) : (setTele f u).fences = u.fences := rfl
@[simp] theorem setTele_fab (u : State) (f : Tele → Tele) : (setTele f u).fab = u.fab := rfl
@[simp] theorem setTele_sync (u : State) (f : Tele → Tele) : (setTele f u).sync = u.sync := rfl
@[simp] theorem setTele_power (u : State) (f : Tele → Tele) : (setTele f u).power = u.power := rfl
@[simp] theorem setTele_flash (u : State) (f : Tele → Tele) : (setTele f u).flash = u.flash := rfl
@[simp] theorem setTele_dbg (u : State) (f : Tele → Tele) : (setTele f u).dbg = u.dbg := rfl
@[simp] theorem setTele_glob (u : State) (f : Tele → Tele) : (setTele f u).glob = u.glob := rfl
@[simp] theorem setTele_port (u : State) (f : Tele → Tele) : (setTele f u).port = u.port := rfl
@[simp] theorem setTele_straps (u : State) (f : Tele → Tele) : (setTele f u).straps = u.straps := rfl
@[simp] theorem setTele_upsets (u : State) (f : Tele → Tele) : (setTele f u).upsets = u.upsets := rfl
@[simp] theorem setTele_marks (u : State) (f : Tele → Tele) : (setTele f u).marks = u.marks := rfl
@[simp] theorem setTele_free (u : State) (f : Tele → Tele) : (setTele f u).free = u.free := rfl

@[simp] theorem setLow_pending (u : State) (k : Nat) (v : Option W32) : (setLow k v u).pending = u.pending := rfl
@[simp] theorem setLow_eclk (u : State) (k : Nat) (v : Option W32) : (setLow k v u).eclk = u.eclk := rfl
@[simp] theorem setLow_ctxs (u : State) (k : Nat) (v : Option W32) : (setLow k v u).ctxs = u.ctxs := rfl
@[simp] theorem setLow_legends (u : State) (k : Nat) (v : Option W32) : (setLow k v u).legends = u.legends := rfl
@[simp] theorem setLow_slots (u : State) (k : Nat) (v : Option W32) : (setLow k v u).slots = u.slots := rfl
@[simp] theorem setLow_swap (u : State) (k : Nat) (v : Option W32) : (setLow k v u).swap = u.swap := rfl
@[simp] theorem setLow_remotes (u : State) (k : Nat) (v : Option W32) : (setLow k v u).remotes = u.remotes := rfl
@[simp] theorem setLow_ctl (u : State) (k : Nat) (v : Option W32) : (setLow k v u).ctl = u.ctl := rfl
@[simp] theorem setLow_rr (u : State) (k : Nat) (v : Option W32) : (setLow k v u).rr = u.rr := rfl
@[simp] theorem setLow_lcache (u : State) (k : Nat) (v : Option W32) : (setLow k v u).lcache = u.lcache := rfl
@[simp] theorem setLow_fetches (u : State) (k : Nat) (v : Option W32) : (setLow k v u).fetches = u.fetches := rfl
@[simp] theorem setLow_lanes (u : State) (k : Nat) (v : Option W32) : (setLow k v u).lanes = u.lanes := rfl
@[simp] theorem setLow_offered (u : State) (k : Nat) (v : Option W32) : (setLow k v u).offered = u.offered := rfl
@[simp] theorem setLow_outst (u : State) (k : Nat) (v : Option W32) : (setLow k v u).outst = u.outst := rfl
@[simp] theorem setLow_nextTag (u : State) (k : Nat) (v : Option W32) : (setLow k v u).nextTag = u.nextTag := rfl
@[simp] theorem setLow_mer (u : State) (k : Nat) (v : Option W32) : (setLow k v u).mer = u.mer := rfl
@[simp] theorem setLow_merWas (u : State) (k : Nat) (v : Option W32) : (setLow k v u).merWas = u.merWas := rfl
@[simp] theorem setLow_grat (u : State) (k : Nat) (v : Option W32) : (setLow k v u).grat = u.grat := rfl
@[simp] theorem setLow_books (u : State) (k : Nat) (v : Option W32) : (setLow k v u).books = u.books := rfl
@[simp] theorem setLow_staged (u : State) (k : Nat) (v : Option W32) : (setLow k v u).staged = u.staged := rfl
@[simp] theorem setLow_heldRecs (u : State) (k : Nat) (v : Option W32) : (setLow k v u).heldRecs = u.heldRecs := rfl
@[simp] theorem setLow_recClk (u : State) (k : Nat) (v : Option W32) : (setLow k v u).recClk = u.recClk := rfl
@[simp] theorem setLow_inputs (u : State) (k : Nat) (v : Option W32) : (setLow k v u).inputs = u.inputs := rfl
@[simp] theorem setLow_arrivals (u : State) (k : Nat) (v : Option W32) : (setLow k v u).arrivals = u.arrivals := rfl
@[simp] theorem setLow_evos (u : State) (k : Nat) (v : Option W32) : (setLow k v u).evos = u.evos := rfl
@[simp] theorem setLow_queues (u : State) (k : Nat) (v : Option W32) : (setLow k v u).queues = u.queues := rfl
@[simp] theorem setLow_spill (u : State) (k : Nat) (v : Option W32) : (setLow k v u).spill = u.spill := rfl
@[simp] theorem setLow_atlas (u : State) (k : Nat) (v : Option W32) : (setLow k v u).atlas = u.atlas := rfl
@[simp] theorem setLow_halt (u : State) (k : Nat) (v : Option W32) : (setLow k v u).halt = u.halt := rfl
@[simp] theorem setLow_errs (u : State) (k : Nat) (v : Option W32) : (setLow k v u).errs = u.errs := rfl
@[simp] theorem setLow_fences (u : State) (k : Nat) (v : Option W32) : (setLow k v u).fences = u.fences := rfl
@[simp] theorem setLow_fab (u : State) (k : Nat) (v : Option W32) : (setLow k v u).fab = u.fab := rfl
@[simp] theorem setLow_sync (u : State) (k : Nat) (v : Option W32) : (setLow k v u).sync = u.sync := rfl
@[simp] theorem setLow_power (u : State) (k : Nat) (v : Option W32) : (setLow k v u).power = u.power := rfl
@[simp] theorem setLow_flash (u : State) (k : Nat) (v : Option W32) : (setLow k v u).flash = u.flash := rfl
@[simp] theorem setLow_dbg (u : State) (k : Nat) (v : Option W32) : (setLow k v u).dbg = u.dbg := rfl
@[simp] theorem setLow_glob (u : State) (k : Nat) (v : Option W32) : (setLow k v u).glob = u.glob := rfl
@[simp] theorem setLow_mgt (u : State) (k : Nat) (v : Option W32) : (setLow k v u).mgt = u.mgt := rfl
@[simp] theorem setLow_straps (u : State) (k : Nat) (v : Option W32) : (setLow k v u).straps = u.straps := rfl
@[simp] theorem setLow_upsets (u : State) (k : Nat) (v : Option W32) : (setLow k v u).upsets = u.upsets := rfl
@[simp] theorem setLow_marks (u : State) (k : Nat) (v : Option W32) : (setLow k v u).marks = u.marks := rfl
@[simp] theorem setLow_free (u : State) (k : Nat) (v : Option W32) : (setLow k v u).free = u.free := rfl

@[simp] theorem markSet_pending (u : State) (k : Nat) : (markSet k u).pending = u.pending := rfl
@[simp] theorem markSet_eclk (u : State) (k : Nat) : (markSet k u).eclk = u.eclk := rfl
@[simp] theorem markSet_ctxs (u : State) (k : Nat) : (markSet k u).ctxs = u.ctxs := rfl
@[simp] theorem markSet_legends (u : State) (k : Nat) : (markSet k u).legends = u.legends := rfl
@[simp] theorem markSet_slots (u : State) (k : Nat) : (markSet k u).slots = u.slots := rfl
@[simp] theorem markSet_swap (u : State) (k : Nat) : (markSet k u).swap = u.swap := rfl
@[simp] theorem markSet_remotes (u : State) (k : Nat) : (markSet k u).remotes = u.remotes := rfl
@[simp] theorem markSet_ctl (u : State) (k : Nat) : (markSet k u).ctl = u.ctl := rfl
@[simp] theorem markSet_rr (u : State) (k : Nat) : (markSet k u).rr = u.rr := rfl
@[simp] theorem markSet_lcache (u : State) (k : Nat) : (markSet k u).lcache = u.lcache := rfl
@[simp] theorem markSet_fetches (u : State) (k : Nat) : (markSet k u).fetches = u.fetches := rfl
@[simp] theorem markSet_lanes (u : State) (k : Nat) : (markSet k u).lanes = u.lanes := rfl
@[simp] theorem markSet_offered (u : State) (k : Nat) : (markSet k u).offered = u.offered := rfl
@[simp] theorem markSet_outst (u : State) (k : Nat) : (markSet k u).outst = u.outst := rfl
@[simp] theorem markSet_nextTag (u : State) (k : Nat) : (markSet k u).nextTag = u.nextTag := rfl
@[simp] theorem markSet_mer (u : State) (k : Nat) : (markSet k u).mer = u.mer := rfl
@[simp] theorem markSet_merWas (u : State) (k : Nat) : (markSet k u).merWas = u.merWas := rfl
@[simp] theorem markSet_grat (u : State) (k : Nat) : (markSet k u).grat = u.grat := rfl
@[simp] theorem markSet_books (u : State) (k : Nat) : (markSet k u).books = u.books := rfl
@[simp] theorem markSet_staged (u : State) (k : Nat) : (markSet k u).staged = u.staged := rfl
@[simp] theorem markSet_heldRecs (u : State) (k : Nat) : (markSet k u).heldRecs = u.heldRecs := rfl
@[simp] theorem markSet_recClk (u : State) (k : Nat) : (markSet k u).recClk = u.recClk := rfl
@[simp] theorem markSet_inputs (u : State) (k : Nat) : (markSet k u).inputs = u.inputs := rfl
@[simp] theorem markSet_arrivals (u : State) (k : Nat) : (markSet k u).arrivals = u.arrivals := rfl
@[simp] theorem markSet_evos (u : State) (k : Nat) : (markSet k u).evos = u.evos := rfl
@[simp] theorem markSet_queues (u : State) (k : Nat) : (markSet k u).queues = u.queues := rfl
@[simp] theorem markSet_spill (u : State) (k : Nat) : (markSet k u).spill = u.spill := rfl
@[simp] theorem markSet_atlas (u : State) (k : Nat) : (markSet k u).atlas = u.atlas := rfl
@[simp] theorem markSet_halt (u : State) (k : Nat) : (markSet k u).halt = u.halt := rfl
@[simp] theorem markSet_errs (u : State) (k : Nat) : (markSet k u).errs = u.errs := rfl
@[simp] theorem markSet_fences (u : State) (k : Nat) : (markSet k u).fences = u.fences := rfl
@[simp] theorem markSet_fab (u : State) (k : Nat) : (markSet k u).fab = u.fab := rfl
@[simp] theorem markSet_sync (u : State) (k : Nat) : (markSet k u).sync = u.sync := rfl
@[simp] theorem markSet_power (u : State) (k : Nat) : (markSet k u).power = u.power := rfl
@[simp] theorem markSet_flash (u : State) (k : Nat) : (markSet k u).flash = u.flash := rfl
@[simp] theorem markSet_dbg (u : State) (k : Nat) : (markSet k u).dbg = u.dbg := rfl
@[simp] theorem markSet_glob (u : State) (k : Nat) : (markSet k u).glob = u.glob := rfl
@[simp] theorem markSet_mgt (u : State) (k : Nat) : (markSet k u).mgt = u.mgt := rfl
@[simp] theorem markSet_port (u : State) (k : Nat) : (markSet k u).port = u.port := rfl
@[simp] theorem markSet_straps (u : State) (k : Nat) : (markSet k u).straps = u.straps := rfl
@[simp] theorem markSet_upsets (u : State) (k : Nat) : (markSet k u).upsets = u.upsets := rfl
@[simp] theorem markSet_free (u : State) (k : Nat) : (markSet k u).free = u.free := rfl

@[simp] theorem markCount_pending (u : State) (k : Nat) : (markCount k u).pending = u.pending := rfl
@[simp] theorem markCount_eclk (u : State) (k : Nat) : (markCount k u).eclk = u.eclk := rfl
@[simp] theorem markCount_ctxs (u : State) (k : Nat) : (markCount k u).ctxs = u.ctxs := rfl
@[simp] theorem markCount_legends (u : State) (k : Nat) : (markCount k u).legends = u.legends := rfl
@[simp] theorem markCount_slots (u : State) (k : Nat) : (markCount k u).slots = u.slots := rfl
@[simp] theorem markCount_swap (u : State) (k : Nat) : (markCount k u).swap = u.swap := rfl
@[simp] theorem markCount_remotes (u : State) (k : Nat) : (markCount k u).remotes = u.remotes := rfl
@[simp] theorem markCount_ctl (u : State) (k : Nat) : (markCount k u).ctl = u.ctl := rfl
@[simp] theorem markCount_rr (u : State) (k : Nat) : (markCount k u).rr = u.rr := rfl
@[simp] theorem markCount_lcache (u : State) (k : Nat) : (markCount k u).lcache = u.lcache := rfl
@[simp] theorem markCount_fetches (u : State) (k : Nat) : (markCount k u).fetches = u.fetches := rfl
@[simp] theorem markCount_lanes (u : State) (k : Nat) : (markCount k u).lanes = u.lanes := rfl
@[simp] theorem markCount_offered (u : State) (k : Nat) : (markCount k u).offered = u.offered := rfl
@[simp] theorem markCount_outst (u : State) (k : Nat) : (markCount k u).outst = u.outst := rfl
@[simp] theorem markCount_nextTag (u : State) (k : Nat) : (markCount k u).nextTag = u.nextTag := rfl
@[simp] theorem markCount_mer (u : State) (k : Nat) : (markCount k u).mer = u.mer := rfl
@[simp] theorem markCount_merWas (u : State) (k : Nat) : (markCount k u).merWas = u.merWas := rfl
@[simp] theorem markCount_grat (u : State) (k : Nat) : (markCount k u).grat = u.grat := rfl
@[simp] theorem markCount_books (u : State) (k : Nat) : (markCount k u).books = u.books := rfl
@[simp] theorem markCount_staged (u : State) (k : Nat) : (markCount k u).staged = u.staged := rfl
@[simp] theorem markCount_heldRecs (u : State) (k : Nat) : (markCount k u).heldRecs = u.heldRecs := rfl
@[simp] theorem markCount_recClk (u : State) (k : Nat) : (markCount k u).recClk = u.recClk := rfl
@[simp] theorem markCount_inputs (u : State) (k : Nat) : (markCount k u).inputs = u.inputs := rfl
@[simp] theorem markCount_arrivals (u : State) (k : Nat) : (markCount k u).arrivals = u.arrivals := rfl
@[simp] theorem markCount_evos (u : State) (k : Nat) : (markCount k u).evos = u.evos := rfl
@[simp] theorem markCount_queues (u : State) (k : Nat) : (markCount k u).queues = u.queues := rfl
@[simp] theorem markCount_spill (u : State) (k : Nat) : (markCount k u).spill = u.spill := rfl
@[simp] theorem markCount_atlas (u : State) (k : Nat) : (markCount k u).atlas = u.atlas := rfl
@[simp] theorem markCount_halt (u : State) (k : Nat) : (markCount k u).halt = u.halt := rfl
@[simp] theorem markCount_errs (u : State) (k : Nat) : (markCount k u).errs = u.errs := rfl
@[simp] theorem markCount_fences (u : State) (k : Nat) : (markCount k u).fences = u.fences := rfl
@[simp] theorem markCount_fab (u : State) (k : Nat) : (markCount k u).fab = u.fab := rfl
@[simp] theorem markCount_sync (u : State) (k : Nat) : (markCount k u).sync = u.sync := rfl
@[simp] theorem markCount_power (u : State) (k : Nat) : (markCount k u).power = u.power := rfl
@[simp] theorem markCount_flash (u : State) (k : Nat) : (markCount k u).flash = u.flash := rfl
@[simp] theorem markCount_dbg (u : State) (k : Nat) : (markCount k u).dbg = u.dbg := rfl
@[simp] theorem markCount_glob (u : State) (k : Nat) : (markCount k u).glob = u.glob := rfl
@[simp] theorem markCount_mgt (u : State) (k : Nat) : (markCount k u).mgt = u.mgt := rfl
@[simp] theorem markCount_port (u : State) (k : Nat) : (markCount k u).port = u.port := rfl
@[simp] theorem markCount_straps (u : State) (k : Nat) : (markCount k u).straps = u.straps := rfl
@[simp] theorem markCount_upsets (u : State) (k : Nat) : (markCount k u).upsets = u.upsets := rfl
@[simp] theorem markCount_free (u : State) (k : Nat) : (markCount k u).free = u.free := rfl

@[simp] theorem cleanWord_pending (u : State) (w : Nat × Nat) : (cleanWord w u).pending = u.pending := rfl
@[simp] theorem cleanWord_eclk (u : State) (w : Nat × Nat) : (cleanWord w u).eclk = u.eclk := rfl
@[simp] theorem cleanWord_ctxs (u : State) (w : Nat × Nat) : (cleanWord w u).ctxs = u.ctxs := rfl
@[simp] theorem cleanWord_legends (u : State) (w : Nat × Nat) : (cleanWord w u).legends = u.legends := rfl
@[simp] theorem cleanWord_slots (u : State) (w : Nat × Nat) : (cleanWord w u).slots = u.slots := rfl
@[simp] theorem cleanWord_swap (u : State) (w : Nat × Nat) : (cleanWord w u).swap = u.swap := rfl
@[simp] theorem cleanWord_remotes (u : State) (w : Nat × Nat) : (cleanWord w u).remotes = u.remotes := rfl
@[simp] theorem cleanWord_ctl (u : State) (w : Nat × Nat) : (cleanWord w u).ctl = u.ctl := rfl
@[simp] theorem cleanWord_rr (u : State) (w : Nat × Nat) : (cleanWord w u).rr = u.rr := rfl
@[simp] theorem cleanWord_lcache (u : State) (w : Nat × Nat) : (cleanWord w u).lcache = u.lcache := rfl
@[simp] theorem cleanWord_fetches (u : State) (w : Nat × Nat) : (cleanWord w u).fetches = u.fetches := rfl
@[simp] theorem cleanWord_lanes (u : State) (w : Nat × Nat) : (cleanWord w u).lanes = u.lanes := rfl
@[simp] theorem cleanWord_offered (u : State) (w : Nat × Nat) : (cleanWord w u).offered = u.offered := rfl
@[simp] theorem cleanWord_outst (u : State) (w : Nat × Nat) : (cleanWord w u).outst = u.outst := rfl
@[simp] theorem cleanWord_nextTag (u : State) (w : Nat × Nat) : (cleanWord w u).nextTag = u.nextTag := rfl
@[simp] theorem cleanWord_mer (u : State) (w : Nat × Nat) : (cleanWord w u).mer = u.mer := rfl
@[simp] theorem cleanWord_merWas (u : State) (w : Nat × Nat) : (cleanWord w u).merWas = u.merWas := rfl
@[simp] theorem cleanWord_grat (u : State) (w : Nat × Nat) : (cleanWord w u).grat = u.grat := rfl
@[simp] theorem cleanWord_books (u : State) (w : Nat × Nat) : (cleanWord w u).books = u.books := rfl
@[simp] theorem cleanWord_staged (u : State) (w : Nat × Nat) : (cleanWord w u).staged = u.staged := rfl
@[simp] theorem cleanWord_heldRecs (u : State) (w : Nat × Nat) : (cleanWord w u).heldRecs = u.heldRecs := rfl
@[simp] theorem cleanWord_recClk (u : State) (w : Nat × Nat) : (cleanWord w u).recClk = u.recClk := rfl
@[simp] theorem cleanWord_inputs (u : State) (w : Nat × Nat) : (cleanWord w u).inputs = u.inputs := rfl
@[simp] theorem cleanWord_arrivals (u : State) (w : Nat × Nat) : (cleanWord w u).arrivals = u.arrivals := rfl
@[simp] theorem cleanWord_evos (u : State) (w : Nat × Nat) : (cleanWord w u).evos = u.evos := rfl
@[simp] theorem cleanWord_queues (u : State) (w : Nat × Nat) : (cleanWord w u).queues = u.queues := rfl
@[simp] theorem cleanWord_spill (u : State) (w : Nat × Nat) : (cleanWord w u).spill = u.spill := rfl
@[simp] theorem cleanWord_halt (u : State) (w : Nat × Nat) : (cleanWord w u).halt = u.halt := rfl
@[simp] theorem cleanWord_errs (u : State) (w : Nat × Nat) : (cleanWord w u).errs = u.errs := rfl
@[simp] theorem cleanWord_fences (u : State) (w : Nat × Nat) : (cleanWord w u).fences = u.fences := rfl
@[simp] theorem cleanWord_fab (u : State) (w : Nat × Nat) : (cleanWord w u).fab = u.fab := rfl
@[simp] theorem cleanWord_sync (u : State) (w : Nat × Nat) : (cleanWord w u).sync = u.sync := rfl
@[simp] theorem cleanWord_power (u : State) (w : Nat × Nat) : (cleanWord w u).power = u.power := rfl
@[simp] theorem cleanWord_flash (u : State) (w : Nat × Nat) : (cleanWord w u).flash = u.flash := rfl
@[simp] theorem cleanWord_dbg (u : State) (w : Nat × Nat) : (cleanWord w u).dbg = u.dbg := rfl
@[simp] theorem cleanWord_glob (u : State) (w : Nat × Nat) : (cleanWord w u).glob = u.glob := rfl
@[simp] theorem cleanWord_mgt (u : State) (w : Nat × Nat) : (cleanWord w u).mgt = u.mgt := rfl
@[simp] theorem cleanWord_port (u : State) (w : Nat × Nat) : (cleanWord w u).port = u.port := rfl
@[simp] theorem cleanWord_straps (u : State) (w : Nat × Nat) : (cleanWord w u).straps = u.straps := rfl
@[simp] theorem cleanWord_upsets (u : State) (w : Nat × Nat) : (cleanWord w u).upsets = u.upsets := rfl
@[simp] theorem cleanWord_marks (u : State) (w : Nat × Nat) : (cleanWord w u).marks = u.marks := rfl
@[simp] theorem cleanWord_free (u : State) (w : Nat × Nat) : (cleanWord w u).free = u.free := rfl

@[simp] theorem cleanEntry_pending (u : State) (i : Nat) : (cleanEntry i u).pending = u.pending := by simp only [cleanEntry, List.foldl_cons, List.foldl_nil, cleanWord_pending]
@[simp] theorem cleanEntry_eclk (u : State) (i : Nat) : (cleanEntry i u).eclk = u.eclk := by simp only [cleanEntry, List.foldl_cons, List.foldl_nil, cleanWord_eclk]
@[simp] theorem cleanEntry_ctxs (u : State) (i : Nat) : (cleanEntry i u).ctxs = u.ctxs := by simp only [cleanEntry, List.foldl_cons, List.foldl_nil, cleanWord_ctxs]
@[simp] theorem cleanEntry_legends (u : State) (i : Nat) : (cleanEntry i u).legends = u.legends := by simp only [cleanEntry, List.foldl_cons, List.foldl_nil, cleanWord_legends]
@[simp] theorem cleanEntry_slots (u : State) (i : Nat) : (cleanEntry i u).slots = u.slots := by simp only [cleanEntry, List.foldl_cons, List.foldl_nil, cleanWord_slots]
@[simp] theorem cleanEntry_swap (u : State) (i : Nat) : (cleanEntry i u).swap = u.swap := by simp only [cleanEntry, List.foldl_cons, List.foldl_nil, cleanWord_swap]
@[simp] theorem cleanEntry_remotes (u : State) (i : Nat) : (cleanEntry i u).remotes = u.remotes := by simp only [cleanEntry, List.foldl_cons, List.foldl_nil, cleanWord_remotes]
@[simp] theorem cleanEntry_ctl (u : State) (i : Nat) : (cleanEntry i u).ctl = u.ctl := by simp only [cleanEntry, List.foldl_cons, List.foldl_nil, cleanWord_ctl]
@[simp] theorem cleanEntry_rr (u : State) (i : Nat) : (cleanEntry i u).rr = u.rr := by simp only [cleanEntry, List.foldl_cons, List.foldl_nil, cleanWord_rr]
@[simp] theorem cleanEntry_lcache (u : State) (i : Nat) : (cleanEntry i u).lcache = u.lcache := by simp only [cleanEntry, List.foldl_cons, List.foldl_nil, cleanWord_lcache]
@[simp] theorem cleanEntry_fetches (u : State) (i : Nat) : (cleanEntry i u).fetches = u.fetches := by simp only [cleanEntry, List.foldl_cons, List.foldl_nil, cleanWord_fetches]
@[simp] theorem cleanEntry_lanes (u : State) (i : Nat) : (cleanEntry i u).lanes = u.lanes := by simp only [cleanEntry, List.foldl_cons, List.foldl_nil, cleanWord_lanes]
@[simp] theorem cleanEntry_offered (u : State) (i : Nat) : (cleanEntry i u).offered = u.offered := by simp only [cleanEntry, List.foldl_cons, List.foldl_nil, cleanWord_offered]
@[simp] theorem cleanEntry_outst (u : State) (i : Nat) : (cleanEntry i u).outst = u.outst := by simp only [cleanEntry, List.foldl_cons, List.foldl_nil, cleanWord_outst]
@[simp] theorem cleanEntry_nextTag (u : State) (i : Nat) : (cleanEntry i u).nextTag = u.nextTag := by simp only [cleanEntry, List.foldl_cons, List.foldl_nil, cleanWord_nextTag]
@[simp] theorem cleanEntry_mer (u : State) (i : Nat) : (cleanEntry i u).mer = u.mer := by simp only [cleanEntry, List.foldl_cons, List.foldl_nil, cleanWord_mer]
@[simp] theorem cleanEntry_merWas (u : State) (i : Nat) : (cleanEntry i u).merWas = u.merWas := by simp only [cleanEntry, List.foldl_cons, List.foldl_nil, cleanWord_merWas]
@[simp] theorem cleanEntry_grat (u : State) (i : Nat) : (cleanEntry i u).grat = u.grat := by simp only [cleanEntry, List.foldl_cons, List.foldl_nil, cleanWord_grat]
@[simp] theorem cleanEntry_books (u : State) (i : Nat) : (cleanEntry i u).books = u.books := by simp only [cleanEntry, List.foldl_cons, List.foldl_nil, cleanWord_books]
@[simp] theorem cleanEntry_staged (u : State) (i : Nat) : (cleanEntry i u).staged = u.staged := by simp only [cleanEntry, List.foldl_cons, List.foldl_nil, cleanWord_staged]
@[simp] theorem cleanEntry_heldRecs (u : State) (i : Nat) : (cleanEntry i u).heldRecs = u.heldRecs := by simp only [cleanEntry, List.foldl_cons, List.foldl_nil, cleanWord_heldRecs]
@[simp] theorem cleanEntry_recClk (u : State) (i : Nat) : (cleanEntry i u).recClk = u.recClk := by simp only [cleanEntry, List.foldl_cons, List.foldl_nil, cleanWord_recClk]
@[simp] theorem cleanEntry_inputs (u : State) (i : Nat) : (cleanEntry i u).inputs = u.inputs := by simp only [cleanEntry, List.foldl_cons, List.foldl_nil, cleanWord_inputs]
@[simp] theorem cleanEntry_arrivals (u : State) (i : Nat) : (cleanEntry i u).arrivals = u.arrivals := by simp only [cleanEntry, List.foldl_cons, List.foldl_nil, cleanWord_arrivals]
@[simp] theorem cleanEntry_evos (u : State) (i : Nat) : (cleanEntry i u).evos = u.evos := by simp only [cleanEntry, List.foldl_cons, List.foldl_nil, cleanWord_evos]
@[simp] theorem cleanEntry_queues (u : State) (i : Nat) : (cleanEntry i u).queues = u.queues := by simp only [cleanEntry, List.foldl_cons, List.foldl_nil, cleanWord_queues]
@[simp] theorem cleanEntry_spill (u : State) (i : Nat) : (cleanEntry i u).spill = u.spill := by simp only [cleanEntry, List.foldl_cons, List.foldl_nil, cleanWord_spill]
@[simp] theorem cleanEntry_halt (u : State) (i : Nat) : (cleanEntry i u).halt = u.halt := by simp only [cleanEntry, List.foldl_cons, List.foldl_nil, cleanWord_halt]
@[simp] theorem cleanEntry_errs (u : State) (i : Nat) : (cleanEntry i u).errs = u.errs := by simp only [cleanEntry, List.foldl_cons, List.foldl_nil, cleanWord_errs]
@[simp] theorem cleanEntry_fences (u : State) (i : Nat) : (cleanEntry i u).fences = u.fences := by simp only [cleanEntry, List.foldl_cons, List.foldl_nil, cleanWord_fences]
@[simp] theorem cleanEntry_fab (u : State) (i : Nat) : (cleanEntry i u).fab = u.fab := by simp only [cleanEntry, List.foldl_cons, List.foldl_nil, cleanWord_fab]
@[simp] theorem cleanEntry_sync (u : State) (i : Nat) : (cleanEntry i u).sync = u.sync := by simp only [cleanEntry, List.foldl_cons, List.foldl_nil, cleanWord_sync]
@[simp] theorem cleanEntry_power (u : State) (i : Nat) : (cleanEntry i u).power = u.power := by simp only [cleanEntry, List.foldl_cons, List.foldl_nil, cleanWord_power]
@[simp] theorem cleanEntry_flash (u : State) (i : Nat) : (cleanEntry i u).flash = u.flash := by simp only [cleanEntry, List.foldl_cons, List.foldl_nil, cleanWord_flash]
@[simp] theorem cleanEntry_dbg (u : State) (i : Nat) : (cleanEntry i u).dbg = u.dbg := by simp only [cleanEntry, List.foldl_cons, List.foldl_nil, cleanWord_dbg]
@[simp] theorem cleanEntry_glob (u : State) (i : Nat) : (cleanEntry i u).glob = u.glob := by simp only [cleanEntry, List.foldl_cons, List.foldl_nil, cleanWord_glob]
@[simp] theorem cleanEntry_mgt (u : State) (i : Nat) : (cleanEntry i u).mgt = u.mgt := by simp only [cleanEntry, List.foldl_cons, List.foldl_nil, cleanWord_mgt]
@[simp] theorem cleanEntry_port (u : State) (i : Nat) : (cleanEntry i u).port = u.port := by simp only [cleanEntry, List.foldl_cons, List.foldl_nil, cleanWord_port]
@[simp] theorem cleanEntry_straps (u : State) (i : Nat) : (cleanEntry i u).straps = u.straps := by simp only [cleanEntry, List.foldl_cons, List.foldl_nil, cleanWord_straps]
@[simp] theorem cleanEntry_upsets (u : State) (i : Nat) : (cleanEntry i u).upsets = u.upsets := by simp only [cleanEntry, List.foldl_cons, List.foldl_nil, cleanWord_upsets]
@[simp] theorem cleanEntry_marks (u : State) (i : Nat) : (cleanEntry i u).marks = u.marks := by simp only [cleanEntry, List.foldl_cons, List.foldl_nil, cleanWord_marks]
@[simp] theorem cleanEntry_free (u : State) (i : Nat) : (cleanEntry i u).free = u.free := by simp only [cleanEntry, List.foldl_cons, List.foldl_nil, cleanWord_free]

@[simp] theorem setEntry_pending (u : State) (i : Nat) (e : GEntry) : (setEntry i e u).pending = u.pending := by rw [setEntry, cleanEntry_pending]
@[simp] theorem setEntry_eclk (u : State) (i : Nat) (e : GEntry) : (setEntry i e u).eclk = u.eclk := by rw [setEntry, cleanEntry_eclk]
@[simp] theorem setEntry_ctxs (u : State) (i : Nat) (e : GEntry) : (setEntry i e u).ctxs = u.ctxs := by rw [setEntry, cleanEntry_ctxs]
@[simp] theorem setEntry_legends (u : State) (i : Nat) (e : GEntry) : (setEntry i e u).legends = u.legends := by rw [setEntry, cleanEntry_legends]
@[simp] theorem setEntry_slots (u : State) (i : Nat) (e : GEntry) : (setEntry i e u).slots = u.slots := by rw [setEntry, cleanEntry_slots]
@[simp] theorem setEntry_swap (u : State) (i : Nat) (e : GEntry) : (setEntry i e u).swap = u.swap := by rw [setEntry, cleanEntry_swap]
@[simp] theorem setEntry_remotes (u : State) (i : Nat) (e : GEntry) : (setEntry i e u).remotes = u.remotes := by rw [setEntry, cleanEntry_remotes]
@[simp] theorem setEntry_ctl (u : State) (i : Nat) (e : GEntry) : (setEntry i e u).ctl = u.ctl := by rw [setEntry, cleanEntry_ctl]
@[simp] theorem setEntry_rr (u : State) (i : Nat) (e : GEntry) : (setEntry i e u).rr = u.rr := by rw [setEntry, cleanEntry_rr]
@[simp] theorem setEntry_lcache (u : State) (i : Nat) (e : GEntry) : (setEntry i e u).lcache = u.lcache := by rw [setEntry, cleanEntry_lcache]
@[simp] theorem setEntry_fetches (u : State) (i : Nat) (e : GEntry) : (setEntry i e u).fetches = u.fetches := by rw [setEntry, cleanEntry_fetches]
@[simp] theorem setEntry_lanes (u : State) (i : Nat) (e : GEntry) : (setEntry i e u).lanes = u.lanes := by rw [setEntry, cleanEntry_lanes]
@[simp] theorem setEntry_offered (u : State) (i : Nat) (e : GEntry) : (setEntry i e u).offered = u.offered := by rw [setEntry, cleanEntry_offered]
@[simp] theorem setEntry_outst (u : State) (i : Nat) (e : GEntry) : (setEntry i e u).outst = u.outst := by rw [setEntry, cleanEntry_outst]
@[simp] theorem setEntry_nextTag (u : State) (i : Nat) (e : GEntry) : (setEntry i e u).nextTag = u.nextTag := by rw [setEntry, cleanEntry_nextTag]
@[simp] theorem setEntry_mer (u : State) (i : Nat) (e : GEntry) : (setEntry i e u).mer = u.mer := by rw [setEntry, cleanEntry_mer]
@[simp] theorem setEntry_merWas (u : State) (i : Nat) (e : GEntry) : (setEntry i e u).merWas = u.merWas := by rw [setEntry, cleanEntry_merWas]
@[simp] theorem setEntry_books (u : State) (i : Nat) (e : GEntry) : (setEntry i e u).books = u.books := by rw [setEntry, cleanEntry_books]
@[simp] theorem setEntry_staged (u : State) (i : Nat) (e : GEntry) : (setEntry i e u).staged = u.staged := by rw [setEntry, cleanEntry_staged]
@[simp] theorem setEntry_heldRecs (u : State) (i : Nat) (e : GEntry) : (setEntry i e u).heldRecs = u.heldRecs := by rw [setEntry, cleanEntry_heldRecs]
@[simp] theorem setEntry_recClk (u : State) (i : Nat) (e : GEntry) : (setEntry i e u).recClk = u.recClk := by rw [setEntry, cleanEntry_recClk]
@[simp] theorem setEntry_inputs (u : State) (i : Nat) (e : GEntry) : (setEntry i e u).inputs = u.inputs := by rw [setEntry, cleanEntry_inputs]
@[simp] theorem setEntry_arrivals (u : State) (i : Nat) (e : GEntry) : (setEntry i e u).arrivals = u.arrivals := by rw [setEntry, cleanEntry_arrivals]
@[simp] theorem setEntry_evos (u : State) (i : Nat) (e : GEntry) : (setEntry i e u).evos = u.evos := by rw [setEntry, cleanEntry_evos]
@[simp] theorem setEntry_queues (u : State) (i : Nat) (e : GEntry) : (setEntry i e u).queues = u.queues := by rw [setEntry, cleanEntry_queues]
@[simp] theorem setEntry_spill (u : State) (i : Nat) (e : GEntry) : (setEntry i e u).spill = u.spill := by rw [setEntry, cleanEntry_spill]
@[simp] theorem setEntry_halt (u : State) (i : Nat) (e : GEntry) : (setEntry i e u).halt = u.halt := by rw [setEntry, cleanEntry_halt]
@[simp] theorem setEntry_errs (u : State) (i : Nat) (e : GEntry) : (setEntry i e u).errs = u.errs := by rw [setEntry, cleanEntry_errs]
@[simp] theorem setEntry_fences (u : State) (i : Nat) (e : GEntry) : (setEntry i e u).fences = u.fences := by rw [setEntry, cleanEntry_fences]
@[simp] theorem setEntry_fab (u : State) (i : Nat) (e : GEntry) : (setEntry i e u).fab = u.fab := by rw [setEntry, cleanEntry_fab]
@[simp] theorem setEntry_sync (u : State) (i : Nat) (e : GEntry) : (setEntry i e u).sync = u.sync := by rw [setEntry, cleanEntry_sync]
@[simp] theorem setEntry_power (u : State) (i : Nat) (e : GEntry) : (setEntry i e u).power = u.power := by rw [setEntry, cleanEntry_power]
@[simp] theorem setEntry_flash (u : State) (i : Nat) (e : GEntry) : (setEntry i e u).flash = u.flash := by rw [setEntry, cleanEntry_flash]
@[simp] theorem setEntry_dbg (u : State) (i : Nat) (e : GEntry) : (setEntry i e u).dbg = u.dbg := by rw [setEntry, cleanEntry_dbg]
@[simp] theorem setEntry_glob (u : State) (i : Nat) (e : GEntry) : (setEntry i e u).glob = u.glob := by rw [setEntry, cleanEntry_glob]
@[simp] theorem setEntry_mgt (u : State) (i : Nat) (e : GEntry) : (setEntry i e u).mgt = u.mgt := by rw [setEntry, cleanEntry_mgt]
@[simp] theorem setEntry_port (u : State) (i : Nat) (e : GEntry) : (setEntry i e u).port = u.port := by rw [setEntry, cleanEntry_port]
@[simp] theorem setEntry_straps (u : State) (i : Nat) (e : GEntry) : (setEntry i e u).straps = u.straps := by rw [setEntry, cleanEntry_straps]
@[simp] theorem setEntry_upsets (u : State) (i : Nat) (e : GEntry) : (setEntry i e u).upsets = u.upsets := by rw [setEntry, cleanEntry_upsets]
@[simp] theorem setEntry_marks (u : State) (i : Nat) (e : GEntry) : (setEntry i e u).marks = u.marks := by rw [setEntry, cleanEntry_marks]
@[simp] theorem setEntry_free (u : State) (i : Nat) (e : GEntry) : (setEntry i e u).free = u.free := by rw [setEntry, cleanEntry_free]

@[simp] theorem freeEntry_pending (u : State) (i : Nat) : (freeEntry i u).pending = u.pending := by rw [freeEntry, cleanEntry_pending]
@[simp] theorem freeEntry_eclk (u : State) (i : Nat) : (freeEntry i u).eclk = u.eclk := by rw [freeEntry, cleanEntry_eclk]
@[simp] theorem freeEntry_ctxs (u : State) (i : Nat) : (freeEntry i u).ctxs = u.ctxs := by rw [freeEntry, cleanEntry_ctxs]
@[simp] theorem freeEntry_legends (u : State) (i : Nat) : (freeEntry i u).legends = u.legends := by rw [freeEntry, cleanEntry_legends]
@[simp] theorem freeEntry_slots (u : State) (i : Nat) : (freeEntry i u).slots = u.slots := by rw [freeEntry, cleanEntry_slots]
@[simp] theorem freeEntry_swap (u : State) (i : Nat) : (freeEntry i u).swap = u.swap := by rw [freeEntry, cleanEntry_swap]
@[simp] theorem freeEntry_remotes (u : State) (i : Nat) : (freeEntry i u).remotes = u.remotes := by rw [freeEntry, cleanEntry_remotes]
@[simp] theorem freeEntry_ctl (u : State) (i : Nat) : (freeEntry i u).ctl = u.ctl := by rw [freeEntry, cleanEntry_ctl]
@[simp] theorem freeEntry_rr (u : State) (i : Nat) : (freeEntry i u).rr = u.rr := by rw [freeEntry, cleanEntry_rr]
@[simp] theorem freeEntry_lcache (u : State) (i : Nat) : (freeEntry i u).lcache = u.lcache := by rw [freeEntry, cleanEntry_lcache]
@[simp] theorem freeEntry_fetches (u : State) (i : Nat) : (freeEntry i u).fetches = u.fetches := by rw [freeEntry, cleanEntry_fetches]
@[simp] theorem freeEntry_lanes (u : State) (i : Nat) : (freeEntry i u).lanes = u.lanes := by rw [freeEntry, cleanEntry_lanes]
@[simp] theorem freeEntry_offered (u : State) (i : Nat) : (freeEntry i u).offered = u.offered := by rw [freeEntry, cleanEntry_offered]
@[simp] theorem freeEntry_outst (u : State) (i : Nat) : (freeEntry i u).outst = u.outst := by rw [freeEntry, cleanEntry_outst]
@[simp] theorem freeEntry_nextTag (u : State) (i : Nat) : (freeEntry i u).nextTag = u.nextTag := by rw [freeEntry, cleanEntry_nextTag]
@[simp] theorem freeEntry_mer (u : State) (i : Nat) : (freeEntry i u).mer = u.mer := by rw [freeEntry, cleanEntry_mer]
@[simp] theorem freeEntry_merWas (u : State) (i : Nat) : (freeEntry i u).merWas = u.merWas := by rw [freeEntry, cleanEntry_merWas]
@[simp] theorem freeEntry_books (u : State) (i : Nat) : (freeEntry i u).books = u.books := by rw [freeEntry, cleanEntry_books]
@[simp] theorem freeEntry_staged (u : State) (i : Nat) : (freeEntry i u).staged = u.staged := by rw [freeEntry, cleanEntry_staged]
@[simp] theorem freeEntry_heldRecs (u : State) (i : Nat) : (freeEntry i u).heldRecs = u.heldRecs := by rw [freeEntry, cleanEntry_heldRecs]
@[simp] theorem freeEntry_recClk (u : State) (i : Nat) : (freeEntry i u).recClk = u.recClk := by rw [freeEntry, cleanEntry_recClk]
@[simp] theorem freeEntry_inputs (u : State) (i : Nat) : (freeEntry i u).inputs = u.inputs := by rw [freeEntry, cleanEntry_inputs]
@[simp] theorem freeEntry_arrivals (u : State) (i : Nat) : (freeEntry i u).arrivals = u.arrivals := by rw [freeEntry, cleanEntry_arrivals]
@[simp] theorem freeEntry_evos (u : State) (i : Nat) : (freeEntry i u).evos = u.evos := by rw [freeEntry, cleanEntry_evos]
@[simp] theorem freeEntry_queues (u : State) (i : Nat) : (freeEntry i u).queues = u.queues := by rw [freeEntry, cleanEntry_queues]
@[simp] theorem freeEntry_spill (u : State) (i : Nat) : (freeEntry i u).spill = u.spill := by rw [freeEntry, cleanEntry_spill]
@[simp] theorem freeEntry_halt (u : State) (i : Nat) : (freeEntry i u).halt = u.halt := by rw [freeEntry, cleanEntry_halt]
@[simp] theorem freeEntry_errs (u : State) (i : Nat) : (freeEntry i u).errs = u.errs := by rw [freeEntry, cleanEntry_errs]
@[simp] theorem freeEntry_fences (u : State) (i : Nat) : (freeEntry i u).fences = u.fences := by rw [freeEntry, cleanEntry_fences]
@[simp] theorem freeEntry_fab (u : State) (i : Nat) : (freeEntry i u).fab = u.fab := by rw [freeEntry, cleanEntry_fab]
@[simp] theorem freeEntry_sync (u : State) (i : Nat) : (freeEntry i u).sync = u.sync := by rw [freeEntry, cleanEntry_sync]
@[simp] theorem freeEntry_power (u : State) (i : Nat) : (freeEntry i u).power = u.power := by rw [freeEntry, cleanEntry_power]
@[simp] theorem freeEntry_flash (u : State) (i : Nat) : (freeEntry i u).flash = u.flash := by rw [freeEntry, cleanEntry_flash]
@[simp] theorem freeEntry_dbg (u : State) (i : Nat) : (freeEntry i u).dbg = u.dbg := by rw [freeEntry, cleanEntry_dbg]
@[simp] theorem freeEntry_glob (u : State) (i : Nat) : (freeEntry i u).glob = u.glob := by rw [freeEntry, cleanEntry_glob]
@[simp] theorem freeEntry_mgt (u : State) (i : Nat) : (freeEntry i u).mgt = u.mgt := by rw [freeEntry, cleanEntry_mgt]
@[simp] theorem freeEntry_port (u : State) (i : Nat) : (freeEntry i u).port = u.port := by rw [freeEntry, cleanEntry_port]
@[simp] theorem freeEntry_straps (u : State) (i : Nat) : (freeEntry i u).straps = u.straps := by rw [freeEntry, cleanEntry_straps]
@[simp] theorem freeEntry_upsets (u : State) (i : Nat) : (freeEntry i u).upsets = u.upsets := by rw [freeEntry, cleanEntry_upsets]
@[simp] theorem freeEntry_marks (u : State) (i : Nat) : (freeEntry i u).marks = u.marks := by rw [freeEntry, cleanEntry_marks]
@[simp] theorem freeEntry_free (u : State) (i : Nat) : (freeEntry i u).free = u.free := by rw [freeEntry, cleanEntry_free]

end Sys2Proof.Laws
end

