-- ==== Sys2Proof/Laws/Legs.lean ====
section
/-! SUPPORT. How a channel goes on from a leg: the address it goes to, and the registers that stay. -/

namespace Sys2Proof.Laws
open Sys2Proof.Machine

variable {s u : State} {c : Nat}

/-- The channel stands at p, its registers otherwise as r has them, with the leg number and fault of w. -/
structure At (c : Nat) (p : W32) (r : CtxRegs) (w : Work) (u : State) : Prop where
  pc : (ctx u c).r.pc = p
  regs : legRegs (ctx u c).r = legRegs r
  legNo : (ctx u c).w.legNo = w.legNo
  faulting : (ctx u c).w.faulting = w.faulting
  armed : (ctx u c).w.armed = w.armed

theorem At.of_ctx {p r w} {t : State} (H : At c p r w u) (h : ctx t c = ctx u c) : At c p r w t :=
  ⟨h ▸ H.pc, h ▸ H.regs, h ▸ H.legNo, h ▸ H.faulting, h ▸ H.armed⟩

theorem ctx_of_only {S : Set Area} {t : State} (H : Only S u t) (h : .ctx c ∉ S) : ctx t c = ctx u c := H (.ctx c) h

theorem ctx_notMem_err (c : Nat) : Area.ctx c ∉ errAreas := by
  rintro ((h | h) | ⟨k, h⟩) <;> cases h
theorem ctx_notMem_look (c : Nat) : Area.ctx c ∉ lookAreas := by
  rintro (h | h) <;> cases h

theorem demand_ctx (l : W32) : ctx (demand c l u) = ctx u := by
  funext k
  refine ctx_of_only (S := fun p => lookAreas p ∨ p = .fetches) (demand_only (lookIn_self.mono (fun _ h => .inl h)) (.inr rfl) only_refl) ?_
  rintro (h | h)
  · exact ctx_notMem_look k h
  · cases h
theorem newFetch_ctx (k : FetchKind) (n : Nat) (a : W32) (w : List Nat) : ctx (newFetch k n a w u) = ctx u := by
  funext j
  refine ctx_of_only (S := fun p => lookAreas p ∨ p = .fetches) (newFetch_only (lookIn_self.mono (fun _ h => .inl h)) (.inr rfl) only_refl) ?_
  rintro (h | h)
  · exact ctx_notMem_look j h
  · cases h
theorem readLine_ctx (e : CLine) : ctx (readLine e u) = ctx u := by
  funext j
  refine ctx_of_only (S := fun p => errAreas p ∨ p = .lcache) (readLine_only (errIn_self.mono (fun _ h => .inl h)) (.inr rfl) only_refl) ?_
  rintro (h | h)
  · exact ctx_notMem_err j h
  · cases h
theorem prefetchFor_ctx : ctx (prefetchFor c u) c = ctx u c := by
  have P : ∀ (a : W32) (v : State), ctx (prefetch c a v) c = ctx v c := fun a v => by
    unfold prefetch
    dsimp only
    split
    · rfl
    · exact congrFun (newFetch_ctx _ _ _ _) c
  unfold prefetchFor
  dsimp only
  split
  · rfl
  · split
    · rw [P, P]
    · rw [P]

theorem goHeld_at {p r w d a} (H : At c p r w u) : At c p r w (goHeld c d a u) := by
  have K : ∀ q : Power, At c p r w { setCtx u c { r := { (ctx u c).r with state := .held, wait := .domain, desc := .domain d, deadline := (ctx u c).r.deadline }, w := { (ctx u c).w with heldAddr := a, progressed := true, heldAt := some u.eclk } } with power := q } := fun q => by
    refine At.of_ctx (u := setCtx u c _) ⟨?_, ?_, ?_, ?_, ?_⟩ rfl <;> rw [ctx_setCtx_self]
    · exact H.pc
    · exact H.regs
    · exact H.legNo
    · exact H.faulting
    · exact H.armed
  unfold goHeld
  dsimp only
  split
  · split
    · exact K _
    · exact K u.power
  · exact H
theorem enterWait_at {p r w y d} (H : At c p r w u) : At c p r w (enterWait c y d u) := by
  refine ⟨?_, ?_, ?_, ?_, ?_⟩ <;> rw [enterWait, ctx_setCtx_self]
  · exact H.pc
  · exact H.regs
  · exact H.legNo
  · exact H.faulting
  · exact H.armed
theorem modW_at {p r w} {f : Work → Work} (hf : ∀ x, (f x).legNo = x.legNo ∧ (f x).faulting = x.faulting ∧ (f x).armed = x.armed) (H : At c p r w u) :
    At c p r w (modW c f u) := by
  refine ⟨?_, ?_, ?_, ?_, ?_⟩ <;> rw [ctx_modW_self]
  · exact H.pc
  · exact H.regs
  · exact (hf _).1.trans H.legNo
  · exact (hf _).2.1.trans H.faulting
  · exact (hf _).2.2.trans H.armed
theorem flashHold_at {p r w a} (H : At c p r w u) : At c p r w (flashHold c a u) := by
  unfold flashHold
  split
  · split
    · exact modW_at (fun _ => ⟨rfl, rfl, rfl⟩) (enterWait_at H)
    · exact H
  · exact H
theorem of_setCtx_at {p r w} {x : Ctx} (H : At c p r w u) (hp : x.r.pc = (ctx u c).r.pc) (hr : legRegs x.r = legRegs (ctx u c).r)
    (hl : x.w.legNo = (ctx u c).w.legNo) (hf : x.w.faulting = (ctx u c).w.faulting) (ha : x.w.armed = (ctx u c).w.armed) : At c p r w (setCtx u c x) := by
  refine ⟨?_, ?_, ?_, ?_, ?_⟩ <;> rw [ctx_setCtx_self]
  exacts [hp.trans H.pc, hr.trans H.regs, hl.trans H.legNo, hf.trans H.faulting, ha.trans H.armed]
theorem fetchPort_at {p r w} (H : At c p r w u) : At c p r w (fetchPort c u) := by
  unfold fetchPort
  dsimp only
  split
  · exact goHeld_at H
  · exact flashHold_at (H.of_ctx (congrFun (demand_ctx _) c))
theorem startFetch_at {p r w} (H : At c p r w u) : At c p r w (startFetch c u) := by
  have H1 := modW_at (f := fun w => { w with phase := .fetch }) (fun _ => ⟨rfl, rfl, rfl⟩) H
  unfold startFetch
  generalize modW c (fun w => { w with phase := .fetch }) u = t at H1
  dsimp only
  split
  · exact H1
  · split
    · rename_i e _
      have H2 : At c p r w (touchLine (lineOf (ctx t c).r.pc) (legColour t c) (readLine e t)) := H1.of_ctx (congrFun (readLine_ctx e) c)
      split
      · exact fetchPort_at H2
      · exact of_setCtx_at H2 rfl rfl rfl rfl rfl
    · exact fetchPort_at H1

/-- Going to p sets the address and leaves the other registers. -/
theorem goto_at (c : Nat) (p : W32) (u : State) : At c p (ctx u c).r (ctx u c).w (goto c p u) := by
  have H : At c p (ctx u c).r (ctx u c).w (modR c (fun r => { r with pc := p }) u) := by
    refine ⟨?_, ?_, ?_, ?_, ?_⟩ <;> rw [ctx_modR_self]
    rfl
  unfold goto
  dsimp only
  split
  · exact modW_at (fun _ => ⟨rfl, rfl, rfl⟩) H
  · exact startFetch_at H

theorem finishTo_at {t : Option W32} {p : W32} (hd : (ctx u c).r.state ≠ .draining)
    (hp : t = some p ∨ (t = none ∧ fld (nextOf (ctx u c).r.leg) 4 0 = 0 ∧ p = successorOf (ctx u c).r)) :
    At c p (ctx u c).r { (ctx u c).w with legNo := (ctx u c).w.legNo + 1 } (finishTo c t u) := by
  have K : ∀ p, At c p (ctx u c).r { (ctx u c).w with legNo := (ctx u c).w.legNo + 1 }
      (goto c p (modW c (fun w => { w with legNo := w.legNo + 1, progressed := true, legAt := none, acting := false }) u)) := fun p => by
    have := goto_at c p (modW c (fun w => { w with legNo := w.legNo + 1, progressed := true, legAt := none, acting := false }) u)
    rw [ctx_modW_self] at this
    exact ⟨this.pc, this.regs, this.legNo, this.faulting, this.armed⟩
  unfold finishTo
  dsimp only
  rw [ctx_modW_self]
  rw [if_neg (by simpa using hd)]
  obtain rfl | ⟨rfl, ha, rfl⟩ := hp
  · exact K p
  · dsimp only
    unfold successorOf
    split <;> rename_i hn
    · rw [if_pos (by simpa using hn)]; exact K _
    · split
      · rename_i h0; exact absurd (by simpa using h0) hn
      · first | exact K _ | (rw [if_neg (by omega)]; exact K _)

/-- A leg that goes on to its successor. -/
theorem finish_wentTo (h : GoesOn u c) (hd : (ctx u c).r.state ≠ .draining) (hf : (ctx u c).w.faulting = none) :
    WentTo u c (successorOf (ctx u c).r) (ctx u c).r (finish c u) := by
  unfold finish
  rw [h.1, if_neg (by simp)]
  have := finishTo_at (t := none) hd (.inr ⟨rfl, h.2, rfl⟩)
  exact ⟨this.pc, this.regs, this.legNo, this.faulting.trans hf⟩

theorem finish_armed (h : GoesOn u c) (hd : (ctx u c).r.state ≠ .draining) : (ctx (finish c u) c).w.armed = (ctx u c).w.armed := by
  unfold finish
  rw [h.1, if_neg (by simp)]
  exact (finishTo_at (t := none) hd (.inr ⟨rfl, h.2, rfl⟩)).armed

/-! ### What beginning a leg does before it acts -/

/-- Prefetches touch nothing but the fetches and what their lookups touch. -/
def prefetchAreas : Set Area := fun p => p = .cache ∨ p = .grid ∨ p = .fetches

theorem prefetch_quiet (a : W32) (v : State) : Only prefetchAreas v (prefetch c a v) := by
  unfold prefetch
  dsimp only
  split
  · exact only_refl
  · exact newFetch_only ⟨.inl rfl, .inr (.inl rfl)⟩ (.inr (.inr rfl)) only_refl
theorem prefetchFor_quiet : Only prefetchAreas u (prefetchFor c u) := by
  unfold prefetchFor
  dsimp only
  split
  · exact only_refl
  · split
    · exact only_trans (prefetch_quiet _ _) (prefetch_quiet _ _)
    · exact prefetch_quiet _ _

/-- The leg has passed its check, and its prefetches are requested. -/
def begun (c : Nat) (s : State) : State := prefetchFor c (modW c (fun w => { w with legAt := some (startOf s c) }) s)

theorem begun_ctx : ctx (begun c s) c = { ctx s c with w := { (ctx s c).w with legAt := some (startOf s c) } } := by
  rw [begun, prefetchFor_ctx, ctx_modW_self]
/-- The check leaves all but its channel, the fetches and what their lookups touch. -/
theorem begun_quiet : Only (fun p => prefetchAreas p ∨ p = .ctx c) s (begun c s) :=
  only_trans (put_modW (.inr rfl) only_refl) (only_mono (fun _ h => .inl h) prefetchFor_quiet)

theorem ownFault_modW (f : Work → Work) : ownFault (modW c f s) c = ownFault s c := by
  unfold ownFault; rw [ctx_modW_self]; rfl
theorem begin_act {op : Nat} {act : State → State} (h : Begins s c op) : beginLeg op c act s = act (begun c s) := by
  obtain ⟨h1, h2, h3, h4, h5, h6, h7⟩ := h
  have h7' : (barOf (ctx s c).r.leg && !isPatterned op && decide (0 < covered (begun c s) c)) = false := by
    have : covered (begun c s) c = covered s c := by rw [covered, begun_ctx, covered]
    rw [this]
    rcases h7 with h | h | h <;> simp [h]
  have h8 := (ownFault_modW (c := c) (s := s) (fun w => { w with legAt := some (startOf s c) })).trans h6
  unfold beginLeg
  simp only [h1, h3, h4, h5, h8, bne_self_eq_false, Bool.not_true, Bool.or_self, Bool.false_and, Bool.false_eq_true, if_false]
  exact if_neg (by rw [← begun, h7']; decide)

theorem canBegin_facts (h : canBegin s c = true) : (ctx s c).w.faulting = none ∧ (ctx s c).w.phase = .ready := by
  unfold canBegin at h
  simp only [Bool.and_eq_true, decide_eq_true_eq, Option.isNone_iff_eq_none] at h
  exact ⟨h.1.2, h.1.1.1.1.2⟩

/-- The registers that a leg has set, and the way on. -/
theorem wentTo_of_ctx {t : State} {p r} (H : WentTo u c p r t) (h : (ctx u c).w.legNo = (ctx s c).w.legNo) : WentTo s c p r t :=
  ⟨H.1, H.2.1, H.2.2.1.trans (by rw [h]), H.2.2.2⟩

theorem goesOn_congr (h : GoesOn s c) (hl : (ctx u c).r.leg = (ctx s c).r.leg) (hh : u.heldRecs = s.heldRecs) : GoesOn u c := by
  unfold GoesOn heldFor at *
  rw [hh, hl]; exact h

theorem successor_congr {r q : CtxRegs} (hl : r.leg = q.leg) (hp : r.pc = q.pc) : successorOf r = successorOf q := by
  unfold successorOf; rw [hl, hp]

/-- A leg that does f to its channel's registers and goes on. -/
theorem finish_after {v : State} {op : Nat} (hs : Begins s c op) (hg : GoesOn s c) (hl : (ctx v c).r.leg = (ctx s c).r.leg)
    (hp : (ctx v c).r.pc = (ctx s c).r.pc) (hst : (ctx v c).r.state = (ctx s c).r.state) (hw : (ctx v c).w.legNo = (ctx s c).w.legNo)
    (hf : (ctx v c).w.faulting = (ctx s c).w.faulting) (hh : v.heldRecs = s.heldRecs) :
    WentTo s c (successorOf (ctx s c).r) (ctx v c).r (finish c v) := by
  have := finish_wentTo (goesOn_congr hg hl hh) (by rw [hst, hs.2.1]; simp) (hf.trans (canBegin_facts hs.1).1)
  rw [successor_congr hl hp] at this
  exact wentTo_of_ctx this hw

end Sys2Proof.Laws
end

