-- ==== Sys2Proof/Laws/AreasAll.lean ====
section
/-! SUPPORT. The sets of areas that Safety names for each command allow what the shared operations ask for. -/

namespace Sys2Proof.Laws
open Sys2Proof.Machine

variable {S T : Set Area}

theorem ControlIn.mono {c : Nat} (h : ControlIn c S) (hs : S ⊆ T) : ControlIn c T := ⟨h.toLegIn.mono hs, hs h.slots⟩
theorem LaneIn.mono {l c : Nat} (h : LaneIn l c S) (hs : S ⊆ T) : LaneIn l c T :=
  ⟨h.toErrIn.mono hs, h.toSubmitIn.mono hs, ⟨hs h.lane.1, hs h.lane.2⟩, hs h.ctx⟩
theorem HostIn.mono (h : HostIn S) (hs : S ⊆ T) : HostIn T := ⟨h.toCheckIn.mono hs, hs h.resp, hs h.port⟩
theorem TableIn.mono (h : TableIn S) (hs : S ⊆ T) : TableIn T := ⟨h.toHostIn.mono hs, hs h.fab, hs h.sync, hs h.mer⟩
theorem SendIn.mono (h : SendIn S) (hs : S ⊆ T) : SendIn T := ⟨h.toCheckIn.mono hs, hs h.fab, fun p => hs (h.link p)⟩
theorem FabIn.mono (h : FabIn S) (hs : S ⊆ T) : FabIn T := ⟨h.toSendIn.mono hs, hs h.offered, hs h.outst, hs h.out, hs h.tele⟩
theorem AnyIn.mono (h : AnyIn S) (hs : S ⊆ T) : AnyIn T := ⟨h.toFabIn.mono hs, fun c => (h.leg c).mono hs, fun q => hs (h.queue q), hs h.spill⟩
theorem LinkIn.mono (h : LinkIn S) (hs : S ⊆ T) : LinkIn T := ⟨h.toAnyIn.mono hs, hs h.sync, hs h.mer⟩
theorem ActIn.mono (h : ActIn S) (hs : S ⊆ T) : ActIn T := ⟨h.toLinkIn.mono hs, hs h.arrivals, hs h.merWas⟩
theorem HaltIn.mono (h : HaltIn S) (hs : S ⊆ T) : HaltIn T := ⟨fun c => (h.leg c).mono hs, hs h.halt, hs h.flash⟩
theorem GratIn.mono (h : GratIn S) (hs : S ⊆ T) : GratIn T := ⟨h.toErrIn.mono hs, hs h.grat, hs h.atlas⟩

theorem WriteIn.mono (h : WriteIn S) (hs : S ⊆ T) : WriteIn T where
  toActIn := h.toActIn.mono hs
  resp := hs h.resp
  port := hs h.port
  ctl := hs h.ctl
  slots := hs h.slots
  legend c := hs (h.legend c)
  legends := hs h.legends
  book b := hs (h.book b)
  input n := hs (h.input n)
  halt := hs h.halt
  flash := hs h.flash
  tags := hs h.tags
  glob := hs h.glob

theorem controlIn_self (c : Nat) : ControlIn c (controlAreas c) := ⟨(legIn_self c).mono (fun _ h => .inl h), .inr rfl⟩
theorem laneIn_self (l c : Nat) : LaneIn l c (laneAreas l c) :=
  ⟨errIn_self.mono fun _ h => .inl h, submitIn_self.mono fun _ h => .inr (.inl h), ⟨.inr (.inr (.inl rfl)), .inr (.inr (.inr (.inl rfl)))⟩,
    .inr (.inr (.inr (.inr rfl)))⟩
theorem hostIn_self : HostIn hostAreas := ⟨checkIn_self.mono (fun _ h => .inl h), .inr (.inl rfl), .inr (.inr rfl)⟩
theorem sendIn_self : SendIn sendAreas := ⟨checkIn_self.mono (fun _ h => .inl h), .inr (.inl rfl), fun p => .inr (.inr ⟨p, rfl⟩)⟩
theorem fabIn_self : FabIn fabAreas :=
  ⟨sendIn_self.mono (fun _ h => .inl h), .inr (.inl rfl), .inr (.inr (.inl rfl)), .inr (.inr (.inr (.inl rfl))), .inr (.inr (.inr (.inr rfl)))⟩
theorem anyIn_self : AnyIn anyAreas :=
  ⟨fabIn_self.mono (fun _ h => .inl h), fun c => (legIn_self c).mono (fun _ h => .inr (.inl ⟨c, h⟩)), fun q => .inr (.inr (.inl ⟨q, rfl⟩)),
    .inr (.inr (.inr rfl))⟩
theorem linkIn_self : LinkIn linkAreas := ⟨anyIn_self.mono (fun _ h => .inl h), .inr (.inl rfl), .inr (.inr rfl)⟩
theorem actIn_self : ActIn actAreas := ⟨linkIn_self.mono (fun _ h => .inl h), .inr (.inl rfl), .inr (.inr rfl)⟩
theorem haltIn_self : HaltIn haltAreas := ⟨fun c => (legIn_self c).mono (fun _ h => .inl ⟨c, h⟩), .inr (.inl rfl), .inr (.inr rfl)⟩
theorem gratIn_self : GratIn gratAreas := ⟨errIn_self.mono (fun _ h => .inl h), .inr (.inl rfl), .inr (.inr rfl)⟩
theorem accIn_self (a : Acc) (u : State) : AccIn a u accAreas :=
  (anyIn_self.mono fun _ h => .inl h).acc (.inr (.inl rfl)) (fun b => .inr (.inr ⟨b, rfl⟩)) a u
theorem bookIn_self (b : Nat) : BookIn b writerAreas :=
  ⟨submitIn_self.mono (fun _ h => .inl h), .inr (.inr (.inl ⟨b, rfl⟩)), .inr (.inl rfl)⟩
theorem scrubIn_self : ScrubIn scrubAreas :=
  ⟨⟨fun c => (faultIn_self c).mono (fun _ h => .inl ⟨c, h⟩), fun c => .inr (.inl ⟨c, rfl⟩), .inr (.inr (.inl rfl)), .inr (.inr (.inr (.inl rfl)))⟩,
    .inr (.inr (.inr (.inr (.inl rfl))))⟩
theorem testIn_self : TestIn testAreas :=
  ⟨checkIn_self.mono (fun _ h => .inl h), .inr (.inl rfl), .inr (.inr (.inl rfl)), .inr (.inr (.inr rfl))⟩
theorem writeIn_self : WriteIn writeAreas where
  toActIn := actIn_self.mono (fun _ h => .inl h)
  resp := .inr (.inl (.inr (.inl rfl)))
  port := .inr (.inl (.inr (.inr rfl)))
  ctl := .inr (.inr (.inl rfl))
  slots := .inr (.inr (.inr (.inl rfl)))
  legend c := .inr (.inr (.inr (.inr (.inl ⟨c, rfl⟩))))
  legends := .inr (.inr (.inr (.inr (.inr (.inl rfl)))))
  book b := .inr (.inr (.inr (.inr (.inr (.inr (.inl ⟨b, rfl⟩))))))
  input n := .inr (.inr (.inr (.inr (.inr (.inr (.inr (.inl ⟨n, rfl⟩)))))))
  halt := .inr (.inr (.inr (.inr (.inr (.inr (.inr (.inr (.inl rfl))))))))
  flash := .inr (.inr (.inr (.inr (.inr (.inr (.inr (.inr (.inr (.inl rfl)))))))))
  tags := .inr (.inr (.inr (.inr (.inr (.inr (.inr (.inr (.inr (.inr (.inl rfl))))))))))
  glob := .inr (.inr (.inr (.inr (.inr (.inr (.inr (.inr (.inr (.inr (.inr rfl))))))))))

/-! ### Legs -/

/-- A leg that begins acts on its own leg word. -/
theorem beginLeg_at {c : Nat} {S : Set Area} {s u : State} {op} {act : State → State} (h : FaultIn c S)
    (ha : ∀ {v}, (ctx v c).r.leg = (ctx u c).r.leg → Only S s v → Only S s (act v)) (H : Only S s u) :
    Only S s (beginLeg op c act u) := by
  have H1 : Only S s (modW c (fun w => { w with legAt := some (startOf u c) }) u) := put_modW h.ctx H
  have e : (ctx (modW c (fun w => { w with legAt := some (startOf u c) }) u) c).r.leg = (ctx u c).r.leg := by rw [ctx_modW_self]
  unfold beginLeg
  generalize modW c (fun w => { w with legAt := some (startOf u c) }) u = t at H1 e
  refine only_ite H (only_ite (takeDivert_only h.toSeqIn H) (only_ite (faultPc_only h H) ?_))
  dsimp only
  split
  · exact faultPc_only h H1
  · refine only_ite (put_modW h.ctx (enterWait_only h.ctx (prefetchFor_only h.toSeqIn H1))) (ha ?_ (prefetchFor_only h.toSeqIn H1))
    rw [prefetchFor_ctx]; exact e

theorem signalIn {c : Nat} {l : Leg} {S : Set Area} (h : FaultIn c S) (hs : signalAreas l ⊆ S) : SignalIn c l S where
  toFaultIn := h
  evo e := hs (.inl ⟨e, rfl⟩)
  wake e := ⟨(seqIn_self _).mono fun _ h => hs (.inr (.inl ⟨e, .inl h⟩)), hs (.inr (.inl ⟨e, .inr rfl⟩))⟩
  remote e := hs (.inr (.inr ⟨e, rfl⟩))
theorem signalIn' {c : Nat} {l k : Leg} {S : Set Area} (e : k = l) (h : FaultIn c S) (hs : signalAreas l ⊆ S) : SignalIn c k S := by
  subst e; exact signalIn h hs
theorem queueIn' {k l : Leg} {S : Set Area} (e : k = l) (hs : queueAreas (popQueue l) ⊆ S) : QueueIn (popQueue k) S := by
  subst e; exact (queueIn_self _).mono hs

/-! ### Accesses that the host target port takes -/

/-- A write that the port takes completes in what its register does, on a state that the port alone has touched. -/
theorem completes_reg {i k : Instr} {s : State} {b : Initiator} {o : Nat} {act : State → State} {P : State → Prop}
    (h : HostOpen s b false true o) (he : exec i s = .next (regWrite b o k act s)) (H : ∀ v, Only writeOpenAreas s v → P (act v)) :
    Completes i s P := by
  obtain ⟨v, hv, e⟩ := reg_act (k := k) (act := act) h
  exact ⟨_, he.trans (congrArg _ e), H v hv⟩
/-- An access that the port takes completes in what it does. -/
theorem completes_host {i k : Instr} {s : State} {b : Initiator} {t w : Bool} {o : Nat} {act : State → State} {P : State → Prop}
    (h : HostOpen s b t w o) (he : exec i s = .next (hostAccess b t w o k act s))
    (H : ∀ v, Only openAreas s v → v.port.early = s.port.early → P (act (portAnswer b false v))) : Completes i s P := by
  obtain ⟨v, hv, hp, e⟩ := host_act (k := k) (act := act) h
  exact ⟨_, he.trans (congrArg _ e), H v hv hp⟩

end Sys2Proof.Laws
end

