-- ==== Sys2Proof/Laws/Held.lean ====
section
/-! SUPPORT. What freeing a queue's held items leaves: the records that wait for a channel, and of the queue all but the held
items and the pages. -/

namespace Sys2Proof.Laws
open Sys2Proof.Machine

variable {s u : State} {c : Nat}

theorem held_of_only {S : Set Area} {t : State} (H : Only S u t) (h : .heldRecs ∉ S) : heldFor t c = heldFor u c := by
  unfold heldFor; rw [show t.heldRecs = u.heldRecs from H .heldRecs h]

/-- Freeing items of queue q. -/
def freeAreas (q : Nat) : Set Area := fun p => submitAreas p ∨ p = .queue q ∨ p = .spill
theorem freeIn_self (q : Nat) : FreeIn q (freeAreas q) := ⟨submitIn_self.mono (fun _ h => .inl h), .inr (.inl rfl), .inr (.inr rfl)⟩

theorem freeHeld_held (q : Nat) (u : State) : heldFor (freeHeld q u) c = heldFor u c :=
  held_of_only (freeHeld_only (freeIn_self q) only_refl) (by rintro (((h | h) | h) | h | h) <;> cases h)

theorem queue_setQueue (u : State) (q k : Nat) (x : Queue) : queue (setQueue q x u) k = if k = q then x else queue u k := tget_tset _ _ _ _ _

theorem freePage_queue (q k p : Nat) (u : State) : queue (freePage k p u) q = queue u q :=
  freePage_only (S := fun a => submitAreas a ∨ a = .spill) (submitIn_self.mono (fun _ h => .inl h)) (.inr rfl) only_refl (.queue q)
    (by rintro (((h | h) | h) | h) <;> cases h)
theorem freeGroup_queue (q : Nat) (g : Nat × Nat) (u : State) : ∃ ps, queue (freeGroup q g u) q = { queue u q with pages := ps } := by
  have pages : ∀ (l : List Page) u, queue (l.foldl (fun s p => freePage q p.num s) u) q = queue u q := fun l => by
    induction l with
    | nil => intro u; rfl
    | cons x l ih => intro u; rw [List.foldl_cons, ih, freePage_queue]
  unfold freeGroup freePages
  dsimp only
  split
  · exact ⟨_, rfl⟩
  · rw [pages, queue_setQueue, if_pos rfl, queue_setQueue, if_pos rfl]; exact ⟨_, rfl⟩
theorem freeHeld_queue (q : Nat) (u : State) : ∃ ps, queue (freeHeld q u) q = { queue u q with held := [], pages := ps } := by
  have groups : ∀ (l : List (Nat × Nat)) u, ∃ ps, queue (l.foldl (fun s g => freeGroup q g s) u) q = { queue u q with pages := ps } := fun l => by
    induction l with
    | nil => intro u; exact ⟨_, rfl⟩
    | cons x l ih =>
      intro u
      obtain ⟨a, ha⟩ := ih (freeGroup q x u)
      obtain ⟨b, hb⟩ := freeGroup_queue q x u
      exact ⟨a, by rw [List.foldl_cons, ha, hb]⟩
  unfold freeHeld
  dsimp only
  obtain ⟨a, ha⟩ := groups (groupsOf (queue u q).held) (modQ q (fun x => { x with held := [] }) u)
  exact ⟨a, ha.trans (by rw [queue_modQ_self])⟩

end Sys2Proof.Laws
end

