-- ==== Sys2Proof/Tests/Slice0.lean ====
section
/-! SUPPORT. Tests: ill-formed commands are refused, every statement's hypotheses are met by some state, and small
results worked out by hand from the rules. -/

set_option Elab.async false

namespace Sys2Proof.Tests
open Sys2Proof Sys2Proof.Machine

/-! ### Helpers -/

/-- The state a command leads to. -/
def after (i : Instr) (s : State) : State := match exec i s with | .next t => t | _ => s

/-- The engine 20 ECLK after its release: the host target port takes accesses, and the Atlas allows what no sheet covers. -/
def base : State := { State.reset with eclk := 20, atlas := { uncov := 0xFFFFFFFF } }

/-- Channel 0 with these registers, and its sequencer in this phase. -/
def chan (r : CtxRegs) (p : Phase) : State := { base with ctxs := [(0, { r := r, w := { phase := p, armed := true } })] }

/-- Channel 0 before a leg of opcode `op` at 0x1000. -/
def legRegs0 (op w1 w2 w3 : W64) : CtxRegs :=
  { en := true, start := 0x1000, pc := 0x1000, state := .active, slot := some 0, leg := ⟨op, w1, w2, w3⟩ }
def atLeg (op w1 w2 w3 : W64) : State := chan (legRegs0 op w1 w2 w3) .ready

/-- A header of a frame for node 0 from node 7, colour 1, LSEQ 0. -/
def hdr0 : Hdr := { lseq := 0, rt := false, col := 1, dst := 0, src := 7, ttl := 5, eld := false }

/-! ### Ill-formed commands -/

theorem test_wr_of_no_unit_is_refused : exec (.rxWr 0 hdr0 0 0 []) base = .fault .malformed := rfl
theorem test_wr_of_nine_units_is_refused : wellFormed (.rxWr 0 hdr0 0 0 (List.replicate 9 ⟨0, 0, false⟩)) = false := by decide +kernel
theorem test_path_of_21_hops_is_refused : wellFormed (.rxSv 0 hdr0 ⟨0, 21, 0⟩ false 0) = false := by decide +kernel
theorem test_svr_of_three_ports_is_refused :
    wellFormed (.rxSvr 0 hdr0 ⟨0, 1, 0⟩ 0 0 false 0 false 0 (List.replicate 3 ⟨0, false, false⟩)) = false := by decide +kernel
theorem test_rl_of_63_entries_is_refused : wellFormed (.rxRl 0 hdr0 ⟨0, 1, 0⟩ false 0 (List.replicate 63 0)) = false := by decide +kernel
theorem test_kind_0_is_no_reserved_kind : wellFormed (.rxReservedKind 0 hdr0 0) = false := by decide +kernel
theorem test_ill_formed_frame_is_not_forwarded : wellFormed (.frameForward 0 ⟨hdr0, .wr 0 0 []⟩) = false := by decide +kernel
theorem test_ill_formed_frame_has_no_crc : exec (.frameCrcFail 0 ⟨false, ⟨hdr0, .wr 0 0 []⟩⟩) base = .fault .malformed := rfl
theorem test_debug_access_of_3_bytes_is_refused : exec (.debugAccess false 0 3 0) base = .fault .malformed := rfl
theorem test_misaligned_debug_access_is_refused : wellFormed (.debugAccess true 2 4 0) = false := by decide +kernel
theorem witness_WellFormedCommandsGoOn : wellFormed (.nop 0) = true ∧ wellFormed (.rxWr 0 hdr0 0 0 [⟨0, 0, false⟩]) = true := by decide +kernel

/-! ### The queue and the clock -/

/-- Channel 1 is OFF, and its NOP does nothing; the command behind it stays. -/
theorem test_step_runs_the_front : step { base with pending := [.nop 1, .nop 0] } = .next { base with pending := [.nop 0] } := rfl
theorem witness_EmptyQueueIsOneEclk : base.pending = [] := rfl
theorem witness_CommandsKeepTheQueue : exec (.nop 1) base = .next base := rfl

/-! ### Legs -/

/-- Legs that begin: the word of each leg, as the leg's layout gives its fields. -/
def queueOpen : State := { atLeg 0x18 0 0 0 with queues := [(0, { en := true, pmask := 0xFFFF, cmask := 0xFFFF, maxpg := 2 })] }

theorem witness_PatternedLegsBegin :
    (Instr.move 0, 0x10) ∈ patternedLegs 0 ∧ Begins (atLeg 0x10 0 0 0) 0 0x10 ∧ Begins (atLeg 0x11 0 0 0) 0 0x11 ∧
    Begins (atLeg 0x12 0 0 0) 0 0x12 ∧ Begins (atLeg 0x13 0 0 0) 0 0x13 ∧ Begins (atLeg 0x110014 0 0 0) 0 0x14 ∧
    Begins (atLeg 0x010015 0 0 0x20) 0 0x15 ∧ Begins (atLeg 0x16 0 0 0) 0 0x16 := by
  unfold Begins; refine ⟨?_, ?_, ?_, ?_, ?_, ?_, ?_, ?_⟩ <;> decide +kernel
/-- PUSH to, and POP from, queue 0. -/
def pushReady : State := { queueOpen with ctxs := (atLeg 0x300018 0 0 0).ctxs }
def popReady : State := { queueOpen with ctxs := (atLeg 0x030019 0 0 0).ctxs }
theorem witness_PushAndPopBegin : Begins pushReady 0 0x18 ∧ Begins popReady 0 0x19 := by
  unfold Begins; decide +kernel
/-- REDUCE of SUM with INIT starts its accumulator V7 at 0. -/
theorem test_reduce_starts_its_accumulator :
    vreg (ctx (after (.reduce 0) (chan { legRegs0 0x010015 0 0 0x20 with v := [(0, 5), (7, 5)] } .ready)) 0).r 0 = 0 := by decide +kernel

theorem witness_SetUpAndQueueLegs :
    (GoesOn (atLeg 0x20 1 2 3) 0 ∧ Begins (atLeg 0x20 1 2 3) 0 0x20) ∧ (GoesOn (atLeg 0x21 1 2 3) 0 ∧ Begins (atLeg 0x21 1 2 3) 0 0x21) ∧
    (GoesOn (atLeg 0 0 0 0) 0 ∧ Begins (atLeg 0 0 0 0) 0 0x00) := by
  unfold Begins GoesOn; decide +kernel
/-- Queue 0 open to colour 0, with two items of which one is held by a mark. -/
def markedQueue : Queue :=
  { en := true, pmask := 0xFFFF, cmask := 0xFFFF, maxpg := 2, markv := true, head := [⟨mkItem 2 false false, true, none, 0⟩],
    held := [⟨mkItem 1 false false, true, none, 0⟩] }
def markLeg (op : W64) : State := { atLeg op 0 0 0 with queues := [(0, markedQueue)] }
theorem witness_QueueLegs :
    (GoesOn (markLeg 0x1A) 0 ∧ Begins (markLeg 0x1A) 0 0x1A) ∧ (GoesOn (markLeg 0x1B) 0 ∧ Begins (markLeg 0x1B) 0 0x1B) ∧
    (GoesOn (markLeg 0x1C) 0 ∧ Begins (markLeg 0x1C) 0 0x1C) := by
  unfold Begins GoesOn; decide +kernel
theorem test_rewind_puts_the_held_item_back :
    (queue (after (.rewind 0) (markLeg 0x1B)) 0).head.map (·.it.data) = [1, 2] := by decide +kernel

/-- Channel 0 bound to input 0, with one request pending. -/
def bound : Tbl W32 := [(0, 0x200FF070)]
def waitreqMet : State := { chan { legRegs0 0x30 0 0 0 with pend := 1 } .ready with legends := bound }
def waitreqUnmet : State := { atLeg 0x30 0 0 10 with legends := bound }
def barrierUnmet : State :=
  { base with ctxs := [(0, { r := legRegs0 0x34 0 0 0, w := { phase := .ready, armed := true, wLoc := 1 } })] }
theorem witness_WaitLegs_met :
    (GoesOn waitreqMet 0 ∧ Begins waitreqMet 0 0x30 ∧ condMet waitreqMet 0 (.request 1) = true) ∧
    (GoesOn (markLeg 0x32) 0 ∧ Begins (markLeg 0x32) 0 0x32 ∧ condMet (markLeg 0x32) 0 (queueCond ⟨0x32, 0, 0, 0⟩) = true) ∧
    (GoesOn (atLeg 0x34 0 0 0) 0 ∧ Begins (atLeg 0x34 0 0 0) 0 0x34 ∧ condMet (atLeg 0x34 0 0 0) 0 (.barrierLeg false) = true) := by
  unfold Begins GoesOn; decide +kernel
theorem witness_WaitLegs_unmet :
    (Begins waitreqUnmet 0 0x30 ∧ condMet waitreqUnmet 0 (.request 1) = false) ∧
    (Begins (markLeg 0x32) 0 0x32 ∧ condMet { markLeg 0x32 with queues := [(0, { markedQueue with head := [], held := [] })] } 0 (.items 0 1) = false) ∧
    (Begins barrierUnmet 0 0x34 ∧ condMet barrierUnmet 0 (.barrierLeg false) = false) := by
  unfold Begins; decide +kernel
theorem witness_WaitLegs_time :
    (GoesOn (atLeg 0x31 0 0 0) 0 ∧ Begins (atLeg 0x31 0 0 0) 0 0x31) ∧ (GoesOn (atLeg 0x31 50 1 0) 0 ∧ Begins (atLeg 0x31 50 1 0) 0 0x31) ∧
    (GoesOn (atLeg 0x31 50 10 0) 0 ∧ Begins (atLeg 0x31 50 10 0) 0 0x31) := by
  unfold Begins GoesOn; decide +kernel
/-- WAITTIME of mode 2 leaves its target in V[2]. -/
theorem test_waittime_keeps_its_target : vreg (ctx (after (.waittime 0) (atLeg 0x31 50 10 0)) 0).r 2 = 50 := by decide +kernel
theorem test_waitreq_consumes_a_request : (ctx (after (.waitreq 0) waitreqMet) 0).r.pend = 0 := by decide +kernel

/-- SIGNAL of output 3 that wakes channel 0 itself. -/
def signalLeg : State := atLeg 0x33 (0x40083) 0 0
theorem witness_SignalAndLog :
    (GoesOn signalLeg 0 ∧ Begins signalLeg 0 0x33 ∧ inReset signalLeg = false) ∧ (GoesOn (atLeg 0x35 7 8 9) 0 ∧ Begins (atLeg 0x35 7 8 9) 0 0x35) := by
  unfold Begins GoesOn; decide +kernel
theorem test_signal_fires_its_output : (evo (after (.signal 0) signalLeg) 3).count = 1 := by decide +kernel
/-- A remote event is handed over in the ECLK after the leg's. -/
theorem test_remote_event_waits_an_eclk : (after (.signal 0) (atLeg 0x33 0 0x100000000000 0)).remotes = [(0, 21)] := by decide +kernel
theorem test_log_carries_its_words :
    (after (.log 0) (atLeg 0x35 7 8 9)).heldRecs.map (fun h => (h.recd.type_, h.recd.detail, h.recd.value, h.recd.detail2)) = [(3, 7, 8, 9)] := by
  decide +kernel

theorem witness_FlowLegs :
    Begins (atLeg 0x40 0x2000 0 0) 0 0x40 ∧ Begins (atLeg 0x42 0x2000 0 0) 0 0x42 ∧
    Begins (chan { legRegs0 0x43 0 0 0 with ret := 0x3000, retValid := true } .ready) 0 0x43 ∧
    Begins (atLeg 0x41 0x2000 0 0) 0 0x41 ∧ Begins (atLeg 0x44 0x300002000 0 0) 0 0x44 ∧
    targetOf (legRegs0 0x40 0x2000 0 0) = some 0x2000 ∧ targetOf (legRegs0 0x44 0x300002000 0 0) = some 0x2000 := by
  unfold Begins; decide +kernel
/-- The fault forms: a CALL within a call, a RETURN without one, and targets at 0x2010. -/
def nested : State := chan { legRegs0 0x42 0x2000 0 0 with ret := 0x3000, retValid := true } .ready
theorem witness_FlowLegs_faults :
    (Comes nested 0 0x42 ∧ legOk (ctx nested 0).r.leg = true) ∧
    (Comes (atLeg 0x43 0 0 0) 0 0x43 ∧ legOk (ctx (atLeg 0x43 0 0 0) 0).r.leg = true) ∧ targetOf (legRegs0 0x44 0x300002010 0 0) = some 0x2010 ∧
    (Comes (atLeg 0x40 0x2010 0 0) 0 0x40 ∧ legOk ⟨0x40, 0x2010, 0, 0⟩ = true) ∧ (Comes (atLeg 0x42 0x2010 0 0) 0 0x42 ∧ legOk ⟨0x42, 0x2010, 0, 0⟩ = true) ∧
    (Comes (atLeg 0x41 0x2010 0 0) 0 0x41 ∧ legOk ⟨0x41, 0x2010, 0, 0⟩ = true ∧ condHolds 0 (branchRegs (legRegs0 0x41 0x2010 0 0)).flags = true) ∧
    (Comes (atLeg 0x44 0x300002010 0 0) 0 0x44 ∧ legOk ⟨0x44, 0x300002010, 0, 0⟩ = true) ∧
    (Comes (atLeg 0x1000000042 0x2000 0 0) 0 0x42 ∧ legOk ⟨0x1000000042, 0x2000, 0, 0⟩ = true ∧
      fld (successorOf (legRegs0 0x1000000042 0x2000 0 0)) 4 0 ≠ 0) := by
  unfold Comes; refine ⟨?_, ?_, ?_, ?_, ?_, ?_, ?_, ?_⟩ <;> decide +kernel
theorem test_nested_call_faults : (ctx (after (.call 0) nested) 0).r.fcode = 4 ∧ (ctx (after (.call 0) nested) 0).r.pc = 0x1000 := by decide +kernel
theorem test_misaligned_jump_faults : (ctx (after (.jump 0) (atLeg 0x40 0x2010 0 0)) 0).r.fcode = 3 := by decide +kernel
/-- A misaligned target leaves LC as it was (R109). -/
theorem test_misaligned_loop_writes_nothing :
    (ctx (after (.loop 0) (atLeg 0x44 0x300002010 0 0)) 0).r.fcode = 3 ∧ (ctx (after (.loop 0) (atLeg 0x44 0x300002010 0 0)) 0).r.lc = 0 := by
  decide +kernel
theorem test_call_returns_behind_itself :
    (ctx (after (.call 0) (atLeg 0x42 0x2000 0 0)) 0).r.pc = 0x2000 ∧ (ctx (after (.call 0) (atLeg 0x42 0x2000 0 0)) 0).r.ret = 0x1020 := by
  decide +kernel
theorem test_loop_of_three_goes_back_twice :
    (ctx (after (.loop 0) (atLeg 0x44 0x300002000 0 0)) 0).r.lc = 2 ∧ (ctx (after (.loop 0) (atLeg 0x44 0x300002000 0 0)) 0).r.pc = 0x2000 := by
  decide +kernel
/-- BRANCH with DEC of V[1] = 0 wraps to all ones: N sets, Z clears. -/
theorem test_branch_decrements :
    let r := (ctx (after (.branch 0) (atLeg 0x41 0x9000002000 0 0)) 0).r
    vreg r 1 = 0xFFFFFFFFFFFFFFFF ∧ r.flags.n = true ∧ r.flags.z = false := by decide +kernel

theorem witness_LoadAndStore :
    (GoesOn (atLeg 0x45 0 0x10 0) 0 ∧ Begins (atLeg 0x45 0 0x10 0) 0 0x45) ∧ (GoesOn (atLeg 0x45 0 0x20 9) 0 ∧ Begins (atLeg 0x45 0 0x20 9) 0 0x45) ∧
    (let s := atLeg 0x30045 0x4008 0 0
     let l := (ctx s 0).r.leg
     Begins s 0 0x45 ∧ isLocal s (srcOf l) = true ∧ (srcOf l).toNat % 16 + swB l = 16 ∧
       fld l.w2 5 4 = 0 ∧ shutDomain s (gLocal (blockOf (srcOf l) + BitVec.ofNat 45 ((srcOf l).toNat % 16))) = none) ∧
    (let s := atLeg 0x200046 2 0x400C 0
     let l := (ctx s 0).r.leg
     Begins s 0 0x46 ∧ isLocal s (dstOf l) = true ∧ (dstOf l).toNat % 16 + dwB l = 16 ∧
       shutDomain s (gLocal (blockOf (dstOf l) + BitVec.ofNat 45 ((dstOf l).toNat % 16))) = none) := by
  unfold Begins GoesOn; decide +kernel
/-- A 4-byte STORE at offset 12 of its block has the mask 0xF000. -/
theorem test_store_masks_its_bytes : (after (.store 0) (atLeg 0x200046 2 0x400C 0)).offered.map (fun a => (a.blk, a.mask)) = [(0x4000, 0xF000)] := by
  decide +kernel
theorem test_load_takes_the_time : vreg (ctx (after (.load 0) { atLeg 0x45 0 0x13 0 with mer := { now := 77 * 2 ^ 32 } }) 0).r 3 = 77 := by decide +kernel

theorem witness_EndReadsAndIllegalFaults :
    (Begins (atLeg 0x4F 0 0 0) 0 0x4F ∧ divertHeld (atLeg 0x4F 0 0 0) 0 = false ∧ shutDomain (atLeg 0x4F 0 0 0) 0x1000 = none) ∧
    (canBegin (atLeg 0x99 0 0 0) 0 = true ∧ isOpcode (opOf ⟨0x99, 0, 0, 0⟩) = false ∧
      (safOf ⟨0x99, 0, 0, 0⟩ && divertHeld (atLeg 0x99 0 0 0) 0) = false) := by
  unfold Begins; decide +kernel
theorem test_illegal_leg_faults : (ctx (after (.illegalLeg 0) (atLeg 0x99 0 0 0)) 0).r.fcode = 1 := by decide +kernel

/-! ### Lanes, responses and fetches -/

/-- Channel 0 stands at a burst boundary of a MOVE of one byte from 0x4000 to 0x5000, and lane 2 alone is ready. -/
def moveRegs : CtxRegs := legRegs0 0x10 0x4000 0x5000 0
def atBoundary : State := { chan moveRegs .data with lanes := [(2, { ready := true })] }
/-- The same burst done on lane 2, with its byte moved. -/
def doneBurst : Burst :=
  { ch := 0, no := 0, colour := 0, cls := 0, run := 0, leg := moveRegs.leg, base := 0, els := [{ k := 0, i0 := 0, i1 := 0, i2 := 0, src := 0x4000, dst := 0x5000 }],
    limit := 1, nxt := 1, resDone := true, rdBytes := 1, wrBytes := 1, moved := 1 }
def onLane : State := { chan moveRegs (.burst 2) with lanes := [(2, { ready := true, burst := some doneBurst })] }

/-- A MOVE with PACE, on a channel without REQEN, and a SIGNAL that wakes channel 5, of colour 1. -/
def pacedLeg : State := atLeg 0x10 0x200000000000 0 0
def wakesOther : State := { atLeg 0x33 0x40500 0 0 with legends := [(5, 0x000FF071)] }
/-- A SCALE, and a REDUCE with XFORM, under a scale configuration whose LO is 2 and whose HI is 1. -/
def badScale : State := chan { legRegs0 0x110014 0 0 0 with sc1 := 0x10000000000, sc3 := 0x0000000100000002 } .ready
def badReduce : State := chan { legRegs0 0x010015 0 0 0x40 with sc1 := 0x10000000000, sc3 := 0x0000000100000002 } .ready
theorem witness_LegsFaultAtTheirCheck :
    (Comes (atLeg 0x10 0 0 8) 0 0x10 ∧ legOk (ctx (atLeg 0x10 0 0 8) 0).r.leg = false) ∧
    (Comes (atLeg 0x4F 1 0 0) 0 0x4F ∧ legOk (ctx (atLeg 0x4F 1 0 0) 0).r.leg = false) ∧
    (Comes pacedLeg 0 0x10 ∧ legOk (ctx pacedLeg 0).r.leg = true ∧ paceOf (ctx pacedLeg 0).r.leg = true ∧ legReqen pacedLeg 0 = false) ∧
    (Comes (atLeg 0x30 0 0 0) 0 0x30 ∧ legOk (ctx (atLeg 0x30 0 0 0) 0).r.leg = true ∧ legReqen (atLeg 0x30 0 0 0) 0 = false) ∧
    (Comes (atLeg 0x300018 0 0 0) 0 0x18 ∧ legOk (ctx (atLeg 0x300018 0 0 0) 0).r.leg = true ∧
      openPush (atLeg 0x300018 0 0 0) 0 (legColour (atLeg 0x300018 0 0 0) 0) = false) ∧
    (Comes (atLeg 0x030019 0 0 0) 0 0x19 ∧ legOk (ctx (atLeg 0x030019 0 0 0) 0).r.leg = true ∧ paceOf (ctx (atLeg 0x030019 0 0 0) 0).r.leg = false ∧
      openPop (atLeg 0x030019 0 0 0) 0 (legColour (atLeg 0x030019 0 0 0) 0) = false) ∧
    (Comes (atLeg 0x1A 0 0 0) 0 0x1A ∧ legOk (ctx (atLeg 0x1A 0 0 0) 0).r.leg = true) ∧
    (Comes badScale 0 0x14 ∧ legOk (ctx badScale 0).r.leg = true ∧ limitsBad (ctx badScale 0).r (dwB (ctx badScale 0).r.leg) (dsgOf (ctx badScale 0).r.leg) = true) ∧
    (Comes badReduce 0 0x15 ∧ legOk (ctx badReduce 0).r.leg = true ∧ bit (ctx badReduce 0).r.leg.w3 6 = true ∧
      limitsBad (ctx badReduce 0).r 4 (dsgOf (ctx badReduce 0).r.leg) = true) ∧
    (Comes wakesOther 0 0x33 ∧ legOk (ctx wakesOther 0).r.leg = true ∧ legColour wakesOther 5 ≠ legColour wakesOther 0) := by
  unfold Comes; decide +kernel
theorem test_paced_leg_without_requests_faults : (ctx (after (.move 0) pacedLeg) 0).r.fcode = 6 := by decide +kernel
theorem test_signal_to_another_colour_faults : (ctx (after (.signal 0) wakesOther) 0).r.fcode = 7 := by decide +kernel

theorem witness_LanesRunBursts :
    (running atBoundary = true ∧ haltStop atBoundary = false ∧ nextGrant atBoundary = some (2, 0)) ∧
    (burstOn onLane 2 = some doneBurst ∧ burstDone onLane 2 = true) := by decide +kernel
/-- The grant's MOVE reads its byte at 0x4000. -/
theorem test_grant_offers_the_read : (after .burstGrant atBoundary).offered.map (fun a => (a.wr, a.blk, a.mask)) = [(false, 0x4000, 1)] := by
  decide +kernel
/-- Each element that REDUCE and CMP see moves the element count (R13). -/
theorem test_return_moves_the_count :
    (ctx (after (.burstReturn 2) onLane) 0).r.ecount = 1 ∧ (ctx (after (.burstReturn 2) onLane) 0).r.pc = 0x1020 := by decide +kernel

/-- An access that holds tag 5. -/
def acc5 (o : Owner) (wr orphan : Bool) : Acc :=
  { tag := 5, owner := o, wr := wr, colour := 0, blk := 0x4000, mask := 0xFF, parts := [⟨0, 0, 8, 0⟩], home := 0, rank := 0, ord := 0,
    at_ := 0, readyAt := 0, epoch := 0, ch := some (0, 0, 0), gaddr := 0x4000, orphan := orphan }
def out5 (o : Owner) (wr orphan : Bool) : State := { chan (legRegs0 0x30045 0x4000 0 0) .single with outst := [acc5 o wr orphan] }
def spillOut (o : Owner) (m : Move) : State :=
  { out5 o true false with queues := [(0, { wrMove := m, tail := [mkItem 1 false false], pages := [⟨0, 1, 0⟩] })] }
theorem witness_ResponsesEndTheirAccess :
    outAt (out5 (.load 0) false true) 5 = some (acc5 (.load 0) false true) ∧ outAt (out5 (.load 0) false false) 5 = some (acc5 (.load 0) false false) ∧
    outAt (out5 (.lane 2 .src) false false) 5 = some (acc5 (.lane 2 .src) false false) ∧
    outAt (out5 (.store 0) true false) 5 = some (acc5 (.store 0) true false) := by decide +kernel
theorem witness_SpillResponses :
    (outAt (spillOut (.spill 0 .headWr) (.header 1 0 0)) 5 = some (acc5 (.spill 0 .headWr) true false) ∧
      (queue (spillOut (.spill 0 .headWr) (.header 1 0 0)) 0).wrMove = .header 1 0 0) ∧
    (outAt (spillOut (.spill 0 .dataWr) (.write 1 0 0 2)) 5 = some (acc5 (.spill 0 .dataWr) true false) ∧
      (queue (spillOut (.spill 0 .dataWr) (.write 1 0 0 2)) 0).wrMove = .write 1 0 0 2) := by decide +kernel
theorem test_load_gathers_its_bytes : (ctx (after (.readResponse 5 (.data 0x88 false)) (out5 (.load 0) false false)) 0).w.loadData = 0x88 := by
  decide +kernel

/-- The same burst as a copy that the cluster makes. -/
def copyBurst : Burst := { doneBurst with inCluster := true, started := true, moved := 0 }
def copying : State := { base with lanes := [(2, { ready := true, burst := some copyBurst })] }
/-- A LOAD of one sign-extended byte, 0x80, to V2. -/
def loadDone : State :=
  { base with ctxs := [(0, { r := legRegs0 0x45 0x4000 0xA 0, w := { phase := .single, loadData := 0x80, loadGot := 1 } })] }
theorem witness_CopyAndLoadComplete :
    (burstOn copying 2 = some copyBurst ∧ copyBurst.inCluster = true ∧ copyBurst.started = true ∧ copyBurst.copyDone = false ∧ 0 < copyBurst.limit ∧
      copyLooks copying 2 = false ∧ copyBurst.limit ≤ copyBurst.els.length ∧ copyBurst.els[0]?.isSome = true ∧ 0 < copyBurst.limit) ∧
    (GoesOn loadDone 0 ∧ (ctx loadDone 0).w.phase = .single ∧ opOf (ctx loadDone 0).r.leg = 0x45 ∧ (ctx loadDone 0).r.state = .active ∧
      (ctx loadDone 0).w.faulting = none ∧ (ctx loadDone 0).w.loadFail = none ∧ swB (ctx loadDone 0).r.leg = (ctx loadDone 0).w.loadGot ∧
      (ctx loadDone 0).w.loadPoison = false) := by
  unfold GoesOn; decide +kernel
theorem test_load_extends_its_sign : vreg (ctx (after (.loadDataReturn 0) loadDone) 0).r 2 = 0xFFFFFFFFFFFFFF80 := by decide +kernel

def lineWords : Line := ⟨⟨0, 0, 0, 0⟩, ⟨0x4F, 0, 0, 0⟩, ⟨0, 0, 0, 0⟩, ⟨0, 0, 0, 0⟩⟩
def fetch (k : FetchKind) (a : W32) : Fetch :=
  { kind := k, addr := a, colour := 0, waiters := [0], clss := [], at_ := 0, readyAt := 0, denied := false, issued := true, busySeen := false,
    dropped := false, epoch := 0 }
def fetching : State := { chan { legRegs0 0 0 0 0 with pc := 0x1020 } .fetch with fetches := [fetch .demand 0x1000] }
def ending : State := { chan (legRegs0 0x4F 0 0 0) .endRead with fetches := [fetch (.endW0 0) 0x1000] }
/-- A read-through that an abort has left behind. -/
def orphanEnd : State := { chan (legRegs0 0x4F 0 0 0) .endRead with fetches := [{ fetch (.endW0 0) 0x1000 with dropped := true }] }
theorem witness_LegFetchesReturn :
    (fetching.fetches.find? (returning 0x1000 0) = some (fetch .demand 0x1000) ∧ (ctx fetching 0).w.phase = .fetch) ∧
    (ending.fetches.find? (endOut 0) = some (fetch (.endW0 0) 0x1000) ∧ (ctx ending 0).w.phase = .endRead ∧
      (ctx ending 0).w.faulting = none ∧ (ctx ending 0).r.state = .active ∧ divertHeld ending 0 = false ∧ (ctx ending 0).r.wake = false ∧
      (ctx ending 0).w.woken = false) ∧
    (orphanEnd.fetches.find? (endOut 0) = some { fetch (.endW0 0) 0x1000 with dropped := true }) := by
  decide +kernel
/-- The second leg of the line is the one at 0x1020. -/
theorem test_orphan_w0_is_discarded : (ctx (after (.endW0Return 0 (.data 0x4F)) orphanEnd) 0).w.phase = .endRead := by decide +kernel
theorem test_fill_delivers_the_leg : opOf (ctx (after (.lineFillReturn 0x1000 0 (.data lineWords)) fetching) 0).r.leg = 0x4F := by decide +kernel
theorem test_end_without_next_parks : (ctx (after (.endW0Return 0 (.data 0x4F)) ending) 0).r.state = .parked := by decide +kernel
theorem test_end_goes_to_its_next : (ctx (after (.endW0Return 0 (.data 0x20000000004F)) ending) 0).r.pc = 0x2000 := by decide +kernel

/-! ### Waits -/

def waiting (d : WaitDesc) (dl : Option Nat) (op : W64) : State :=
  { chan { legRegs0 op 0 0 0 with state := .wait, wait := waitReason d, desc := d, deadline := dl } .waiting with queues := [(0, markedQueue)] }
theorem witness_WaitsEndWithTheirFlag :
    (GoesOn (waiting (.items 0 1) none 0x32) 0 ∧ condMet (waiting (.items 0 1) none 0x32) 0 (.items 0 1) = true) ∧
    (GoesOn (waiting (.barrierLeg false) none 0x34) 0 ∧ condMet (waiting (.barrierLeg false) none 0x34) 0 (.barrierLeg false) = true) ∧
    (GoesOn (waiting (.time 0) none 0x31) 0 ∧ (0 : W64).toNat ≤ merInt (waiting (.time 0) none 0x31)) ∧
    (GoesOn (waiting (.items 0 9) (some 0) 0x32) 0 ∧ deadlineReached (waiting (.items 0 9) (some 0) 0x32) 0 = true ∧
      condMet (waiting (.items 0 9) (some 0) 0x32) 0 (.items 0 9) = false) := by
  unfold GoesOn; decide +kernel
theorem witness_WaitsOnAPacket :
    let s := { waiting (.packet 0) none 0x32 with queues := [(0, { markedQueue with head := [⟨mkItem 1 true false, true, none, 0⟩] })] }
    GoesOn s 0 ∧ condMet s 0 (.packet 0) = true := by unfold GoesOn; decide +kernel
/-- WAITREQ of one request, with input 0 bound and one request pending. -/
def waitingReq : State :=
  { chan { legRegs0 0x30 0 0 0 with state := .wait, wait := waitReason (.request 1), desc := .request 1, pend := 1 } .waiting with legends := bound }
theorem witness_WaitsForARequest :
    GoesOn waitingReq 0 ∧ (ctx waitingReq 0).r.desc = .request 1 ∧ condMet waitingReq 0 (.request 1) = true ∧
    (legReqen waitingReq 0 && levelMode (inp waitingReq (legReq waitingReq 0))) = false := by unfold GoesOn; decide +kernel
theorem test_deadline_clears_z :
    (ctx (after (.waitDeadlineReached 0) (waiting (.items 0 9) (some 0) 0x32)) 0).r.flags.z = false ∧
    (ctx (after (.waitDeadlineReached 0) (waiting (.items 0 9) (some 0) 0x32)) 0).r.pc = 0x1020 := by decide +kernel
theorem test_condition_sets_z : (ctx (after (.waitSatisfied 0) (waiting (.items 0 1) none 0x32)) 0).r.flags.z = true := by decide +kernel
theorem test_time_sets_z : (ctx (after (.waittimeTargetReached 0) (waiting (.time 0) none 0x31)) 0).r.flags.z = true := by decide +kernel

/-! ### Channel control -/

theorem witness_StartDrainAndAbort :
    (HostOpen base .host false true (chOff 0 0) ∧ inTransfer base 0 = false ∧ (ctx base 0).r.en = false ∧ (ctx base 0).r.state = .off) ∧
    (let s := atLeg 0 0 0 0
     HostOpen s .debug false true (chOff 0 0) ∧ inTransfer s 0 = false ∧ (ctx s 0).r.state = .active ∧ (ctx s 0).r.en = true ∧
       (ctx s 0).w.faulting = none) := by
  unfold HostOpen; decide +kernel
/-- At the end of the ECLK of its start the channel fetches its first leg at START. -/
def started : State := ctlEnd (after (.chStart .host 0) { base with ctxs := [(0, { r := { start := 0x1000 } })] })
theorem test_start_begins_at_start : (ctx started 0).r.pc = 0x1000 ∧ (ctx started 0).r.state = .active ∧ (ctx started 0).r.en = true := by
  decide +kernel
theorem test_abort_drains : (ctx (ctlEnd (after (.chAbort .host 0) (atLeg 0 0 0 0))) 0).r.state = .draining := by decide +kernel

def faultInfo : FaultInfo := { code := 1, addr := 0x1000, time := 0, state := .active, late := false, count := 0, pc := 0x1000 }
theorem witness_PausesAndStops_pause :
    (let s := atLeg 0 0 0 0
     HostOpen s .host false true (chOff 0 0) ∧ inTransfer s 0 = false ∧ (ctx s 0).w.faulting = none ∧ (ctx s 0).r.state = .active ∧
       atStop s 0 = true ∧ haltOn s = false ∧ (ctx s 0).w.heldAt ≠ some s.eclk) ∧
    (let s : State := { base with ctxs := [(0, { r := legRegs0 0 0 0 0, w := { phase := .ready, pausePend := true } })] }
     (ctx s 0).w.pausePend = true ∧ atStop s 0 = true ∧ haltOn s = false) ∧
    (let s := chan { legRegs0 0 0 0 0 with state := .paused, resume := .parked } .parked
     HostOpen s .host false true (chOff 0 0) ∧ inTransfer s 0 = false ∧ (ctx s 0).w.faulting = none ∧ (ctx s 0).r.state = .paused ∧
       (ctx s 0).r.resume = .parked ∧ (ctx s 0).w.phase = .parked ∧ divertHeld s 0 = false ∧ (ctx s 0).r.wake = false ∧ (ctx s 0).w.woken = false ∧
       (ctx s 0).w.heldAt ≠ some s.eclk) := by
  unfold HostOpen; decide +kernel
def draining (rearm : Bool) : State := chan { start := 0x1000, state := .draining, rearm := rearm } .idle
def faulting : State := { base with ctxs := [(0, { r := { legRegs0 0 0 0 0 with fcode := 1 }, w := { faulting := some faultInfo } })] }
def faulted : State := { base with ctxs := [(0, { r := { state := .fault }, w := { toOff := true } })] }
theorem witness_PausesAndStops_stop :
    ((ctx (draining false) 0).r.state = .draining ∧ drained (draining false) 0 = true ∧ (ctx (draining false) 0).w.faulting = none) ∧
    ((ctx (draining true) 0).r.rearm = true ∧ drained (draining true) 0 = true ∧ (ctx (draining true) 0).w.faulting = none) ∧
    ((ctx faulting 0).w.faulting = some faultInfo ∧ (ctx faulting 0).w.aborting = false ∧ (ctx faulting 0).r.state = .active ∧
      covered faulting 0 = 0 ∧ laneOf faulting 0 = none) ∧
    ((ctx faulted 0).r.state = .fault ∧ (ctx faulted 0).w.toOff = true) := by decide +kernel
theorem test_drain_ends_off : (ctx (after (.drainComplete 0) (draining false)) 0).r.state = .off := by decide +kernel
theorem test_rearm_starts_again : (ctx (after (.drainComplete 0) (draining true)) 0).r.pc = 0x1000 := by decide +kernel
theorem test_fault_enters_fault : (ctx (after (.faultEntry 0) faulting) 0).r.state = .fault := by decide +kernel
theorem test_pause_returns_to_its_state :
    let s := ctlEnd (after (.chPause .host 0) (atLeg 0 0 0 0))
    (ctx s 0).r.state = .paused ∧ (ctx (ctlEnd (after (.chResume .host 0) { s with eclk := 21 })) 0).r.state = .active := by decide +kernel
/-- CH_CTRL and CH_START written in one ECLK: the start uses the old address (R448). -/
theorem test_start_uses_the_old_address :
    let s := ctlEnd (after (.hostRegisterWrite .host 0x8000 8 0x400000000001 0) { base with ctxs := [(0, { r := { start := 0x2000 } })] })
    (ctx s 0).r.pc = 0x2000 ∧ (ctx s 0).r.start = 0x4000 := by decide +kernel

theorem witness_WakeDivertLegendRearm :
    (let s := atLeg 0 0 0 0
     HostOpen s .host false true (chOff 0 0x0C) ∧ HostOpen s .host false true (chOff 0 0x14) ∧ inTransfer s 0 = false ∧ (ctx s 0).r.state = .active) ∧
    (let s := chan { legRegs0 0x4F 0 0 0 with state := .parked } .parked
     HostOpen s .host false true (chOff 0 0x0C) ∧ inTransfer s 0 = false ∧ (ctx s 0).r.state = .parked ∧ (ctx s 0).w.phase = .parked ∧
       (ctx s 0).w.faulting = none ∧ heldFor s 0 = false ∧ resident s 0 = true ∧ shutDomain s (ctx s 0).r.pc = none) ∧
    (let s := waiting (.items 0 9) none 0x1032
     inTransfer s 0 = false ∧ waitsSafe s 0 = true ∧ (ctx s 0).w.faulting = none ∧ heldFor s 0 = false) ∧
    HostOpen base .host false true (chOff 0 0x10) ∧ HostOpen base .host false true (chOff 1023 0x1C) := by
  unfold HostOpen; decide +kernel
/-- Colour 13 is written, and colour 14 leaves the colour as it was. -/
theorem test_legend_refuses_colour_14 :
    legend (after (.chLegendWrite .host 5 0xD) base) 5 = 0xD ∧ fld (legend (after (.chLegendWrite .host 5 0xE) base) 5) 3 0 = 0 := by decide +kernel

/-! ### Paging -/

/-- Channel 0 waits for a slot; of the one slot that is ready channel 100, parked, has the use. -/
def crowded : State :=
  { base with
    glob := { readyCtx := true, readySlot := 1 }
    ctxs := [(0, { r := { legRegs0 0 0 0 0 with slot := none }, w := { phase := .ready, armed := true } }),
      (100, { r := { state := .parked, slot := some 0 }, w := { phase := .parked, progressed := true } })]
    slots := [(0, .used 100)] }
def writingBack : State :=
  { base with glob := { readyCtx := true, readySlot := 1 }, slots := [(0, .releasing 3)] }
def swapping : State := { crowded with eclk := 40, swap := some ⟨0, some 0, some 100, some 40⟩ }
theorem witness_Paging :
    (running writingBack = true ∧ writingBack.glob.readyCtx = true ∧ writingBack.swap = none ∧ writeBack writingBack = some (0, 3)) ∧
    (running crowded = true ∧ crowded.glob.readyCtx = true ∧ crowded.swap = none ∧ writeBack crowded = none ∧
      (candidates crowded).findSome? (fun c => (victimFor crowded c).map (fun v => (c, v))) = some (0, 0, some 100) ∧ laneOf crowded 100 = none) ∧
    (running swapping = true ∧ swapping.ctl = [] ∧ slotUse swapping 0 = .used 100 ∧ (ctx swapping 0).r.state ≠ .off ∧
      (ctx swapping 0).r.state ≠ .fault ∧ (ctx swapping 0).w.faulting = none) := by decide +kernel
theorem test_page_in_takes_the_slot :
    (ctx (after (.pageTransferDone .clean 0) swapping) 0).r.slot = some 0 ∧
    (ctx (after (.pageTransferDone .clean 0) swapping) 100).r.slot = none := by decide +kernel
theorem test_bad_context_word_faults :
    (ctx (after (.pageTransferDone .uncorrected 31) swapping) 0).r.fcode = 0x30 := by decide +kernel
theorem test_swap_ends_after_nine_eclk : (after .pageSwap crowded).swap.map (·.doneAt) = some (some 29) := by decide +kernel

/-! ### Request inputs and event outputs -/

/-- Channel 0, active, is bound to input 0, whose mode counts rising edges, and whose synchroniser and filter have stood at
low up to the first edge of ECLK 19. -/
def wired (i : Inp) : State := { atLeg 0 0 0 0 with legends := bound, inputs := [(0, i)] }
def risingInp : Inp := { mode := 1, edges := 39 }
/-- The pin rises: the synchronised sample is high after three edges (R179, R182), and with FILT 0 the output follows it. -/
def risen : Inp := { risingInp with level := true, pin := true, sync1 := true, sync2 := true, runN := 1, edges := 42 }
theorem witness_PinsMakeRequests :
    (changeAt (wired risingInp) 0 1 [true, true, true] = some risen ∧ makesRequest risen true = true) ∧
    (changeAt (wired { risingInp with mode := 2 }) 0 1 [true, true, true] = some { risen with mode := 2 } ∧ makesRequest { risen with mode := 2 } true = false) ∧
    (changeAt (wired { risingInp with mode := 4 }) 0 1 [true, true, true] = some { risen with mode := 4 } ∧ levelMode { risen with mode := 4 } = true) ∧
    (let s := { wired risingInp with arrivals := [(0, 20)] }
     s.arrivals = [(0, s.eclk)] ∧ trising s.legends = true ∧ levelMode (inp s 0) = false ∧ 0 ∈ boundTo s 0) ∧
    (let s := { wired risingInp with straps := { inputs := [(0, { qual := true })] } }
     quiet s = false ∧ qok s 0 = false ∧ sourcePowered s 0 = true ∧ 2 ≤ s.eclk) ∧
    (let s := { wired { risingInp with valid := true } with straps := { inputs := [(0, { qual := true })] } }
     quiet s = false ∧ qok s 0 = true ∧ (wiring s 0).qual = true) ∧
    (ctx { base with ctxs := [(0, { w := { rearmAt := some 20 } })] } 0).w.rearmAt = some 20 := by decide +kernel
/-- FILT 2 rejects two samples and takes three. -/
theorem test_filter_rejects_a_short_pulse :
    ([true, true, false, false, false, false].foldl (filterEdge 2) risingInp).level = false ∧
    ([true, true, true, true, true].foldl (filterEdge 2) risingInp).level = true := by decide +kernel
/-- With DEPTH 0 one request is pending at most, and a second one is an overrun. -/
theorem test_edge_is_one_request :
    (ctx (countArrivals (after (.pinRequest 0 ⟨1, [true, true, true]⟩) (wired risingInp))) 0).r.pend = 1 ∧
    (inp (countArrivals (after (.pinRequest 0 ⟨1, [true, true, true]⟩)
      { wired risingInp with ctxs := [(0, { r := { legRegs0 0 0 0 0 with pend := 1 }, w := {} })] })) 0).ovrcnt = 1 := by
  decide +kernel

theorem witness_RequestInputRegisters :
    HostOpen base .host false true (reqinOff 511) ∧ trising base.legends = true ∧ levelMode (inp base 511) = false := by
  unfold HostOpen; decide +kernel
/-- FILT 3, MODE 2, BOOK 5, OVREC and QREC set, DEPTH 7. -/
theorem test_reqin_fields :
    let i := inp (after (.reqinConfigWrite .host 9 0x00076523 ⟨1, []⟩) base) 9
    i.filt = 3 ∧ i.mode = 2 ∧ i.book = 5 ∧ i.ovrec = true ∧ i.qrec = true ∧ i.depth = 7 := by decide +kernel

theorem witness_EventOutputs :
    HostOpen base .host false true (evoOff 127) ∧ bit (0x0000006F : W32) 7 = false ∧ HostOpen base .host false true 0x48 ∧
    (let s : State := { base with evos := [(127, { active := true, endAt := some 20 })] }
     (evo s 127).endAt = some 20 ∧ (evo s 127).mode = 0) ∧
    (let s : State := { base with evos := [(127, { mode := 1 })] }
     HostOpen s .host false true (evoOff 127) ∧ (evo s 127).mode = 1 ∧ (evo s 127).lastAt ≠ some s.eclk) := by
  unfold HostOpen; decide +kernel
/-- WIDTH resets to 1: a pulse from ECLK 20 on ends with ECLK 22. -/
theorem test_pulse_is_width_plus_one : (evo (after (.swpulse .host 3) base) 3).endAt = some 22 := by decide +kernel

/-! ### Meridian and the Graticule -/

theorem witness_MeridianIsReadAndSet :
    HostOpen base .host false false 0x3010 ∧ HostOpen base .debug false false 0x3010 ∧ HostOpen base .debug false true 0x3020 ∧ HostOpen base .host false true 0x3000 ∧
    (2 : BitVec 2) ≠ base.mer.src := by
  unfold HostOpen; decide +kernel
def withMer (m : Mer) : State := { base with mer := m }
theorem test_set_is_rejected_under_fabric_time : (after (.merSet .host 5) (withMer { src := 1 })).mer.rej = true := by decide +kernel

/-- A correction of 1,000 ns steps, one of less slews, and one of −1,000 ns backs off. -/
def adj (ns : Int) : W64 := BitVec.ofNat 64 (unsig 63 (ns * 2 ^ 24))
theorem witness_MeridianCorrectionAndHoldover :
    (HostOpen (withMer { src := 2 }) .host false true 0x3028 ∧ (withMer { src := 2 }).mer.srcAt ≠ some 20 ∧
      (1000 * 2 ^ 32 : Int) = signed 63 (adj 1000).toNat * 256 ∧ signed 63 (adj 999).toNat * 256 < (1000 * 2 ^ 32 : Int) ∧
      signed 63 (adj (-1000)).toNat * 256 = -(1000 * 2 ^ 32 : Int)) ∧
    (running base = true ∧ (withMer { src := 1 }).mer.holdover = false ∧ (withMer { src := 1 }).mer.src ≠ 0) ∧
    (let s := { withMer { src := 2, sync := true, hold := 1 } with eclk := 800000 }
     s.mer.sync = true ∧ s.mer.corrAt + holdLimit s ≤ mclk s) ∧
    (let s := { withMer { src := 2, holdover := true, hold := 1 } with eclk := 800000 }
     s.mer.holdover = true ∧ s.mer.holdAt + holdLimit s ≤ mclk s) ∧
    (let s := withMer { src := 2, lock := true, remain := 1000 * 2 ^ 32 - 1 }
     s.mer.sync = false ∧ s.mer.lock = true ∧ s.mer.remain.natAbs < 1000 * 2 ^ 32) := by
  unfold HostOpen; decide +kernel
theorem test_correction_of_1000_ns_steps :
    (after (.merAdj .host (adj 1000)) (withMer { src := 2, now := 5 * 2 ^ 32 })).mer.now = 1005 * 2 ^ 32 ∧
    (after (.merAdj .host (adj 999)) (withMer { src := 2, now := 5 * 2 ^ 32 })).mer.remain = 999 * 2 ^ 32 ∧
    (after (.merAdj .host (adj (-1000))) (withMer { src := 2, now := 5 * 2 ^ 32 })).mer.backoff = true := by decide +kernel
theorem test_lock_synchronises : (after .synchronised (withMer { src := 2, lock := true })).mer.sync = true := by decide +kernel

def withGrat (g : Grat) : State := { base with glob := { readyGrat := true }, grat := g }
def gcmd (op : BitVec 2) (k : Nat) : GCmd := ⟨op, k, 9, 0, 3 <<< 24, 0x1000⟩
def gentry (t : Nat) : GEntry :=
  { t := t, period := 0, ch := 0, wake := false, rep := false, late := false, lead := 1, remain := 0, leg := 0x1000, tag := 7, leadDone := false }
theorem witness_GraticuleCommands :
    HostOpen base .host false true 0x30B0 ∧ HostOpen base .host false true 0x3080 ∧ HostOpen base .host false true 0x3088 ∧
    running base = true ∧ (withGrat {}).glob.readyGrat = true ∧
    (gratRefused (gcmd 1 0) = false ∧ lowestIdle 4096 0 [(0, gentry 5)] = some 1) ∧
    gratRefused { gcmd 1 0 with w3 := 0x1001 } = true ∧
    (let s := withGrat { cmd := some (gcmd 3 4095), entries := [(4095, gentry 5)] }
     s.grat.cmd = some (gcmd 3 4095) ∧ entry s 4095 ≠ none ∧ entry s 0 = none) := by
  unfold HostOpen; decide +kernel
theorem test_insert_takes_the_lowest_idle_entry :
    let t := after .gratCommandComplete (withGrat { cmd := some (gcmd 1 0), entries := [(0, gentry 5)] })
    t.grat.index = 1 ∧ (entry t 1).map (·.t) = some (9 * 2 ^ 24) ∧ (entry t 1).map (·.ch) = some 3 := by decide +kernel
theorem test_delete_of_no_entry_answers_2 : (after .gratCommandComplete (withGrat { cmd := some (gcmd 2 6) })).grat.code = 2 := by decide +kernel

/-- An entry due now, and one of channel 0 that is due at 10 ns with a lead of 1 µs. -/
def dueNow : State := { withGrat { entries := [(3, gentry (10 * 2 ^ 24))] } with mer := { now := 10 * 2 ^ 32, inc := 2 ^ 32 } }
def gact : GAct := { ch := 0, wake := false, fire := ⟨0, 0x2000, 3, 7, 10, 10⟩, at_ := 19 }
def acting : State := { atLeg 0 0 0 0 with grat := { acts := [gact] } }
theorem witness_GraticuleFires :
    running dueNow = true ∧ dueNow.grat.en = true ∧ dueNow.grat.firedAt ≠ some dueNow.eclk ∧
    inOrder (dueNow.grat.entries.filter (fun e => isDue dueNow e.2)) = [(3, gentry (10 * 2 ^ 24))] ∧ isLate dueNow (gentry (10 * 2 ^ 24)) = false ∧
    (acting.grat.acts = [gact] ∧ gact.at_ < acting.eclk ∧ inTransfer acting 0 = false ∧ (ctx acting 0).r.state = .active ∧
      (ctx acting 0).w.fire = none) ∧
    (entry dueNow 3 = some (gentry (10 * 2 ^ 24)) ∧ entryError dueNow 3 = .clean ∧ (gentry (10 * 2 ^ 24)).t * 256 ≤ dueNow.mer.now + 1 * 1000 * 2 ^ 32) := by
  decide +kernel
/-- A repeating entry's due time goes on by its period. -/
theorem test_repeating_entry_goes_on :
    let s := { dueNow with grat := { entries := [(3, { gentry (10 * 2 ^ 24) with rep := true, period := 1000 * 2 ^ 24, remain := 5 })] } }
    let t := after (.gratFiring .clean) s
    (entry t 3).map (·.t) = some (1010 * 2 ^ 24) ∧ (entry t 3).map (·.remain) = some 4 := by decide +kernel
theorem test_fire_reaches_its_channel : (ctx (after .gratActionDelivery acting) 0).w.fire = some gact.fire := by decide +kernel
theorem test_lead_is_done_once : (entry (after (.gratLead 3) dueNow) 3).map (·.leadDone) = some true := by decide +kernel

/-! ### Field books -/

def rec1 : Rec := { book := 1, type_ := 3, kind := 1, num := 0, detail := 7, time := 8, value := 9, detail2 := 10 }
def withBook (b : Book) : State := { base with books := [(1, b)], staged := [rec1] }
theorem witness_WriterTakesARecord :
    (∀ b ∈ [({ size := 4, widx := 1 } : Book), { en := true, size := 4 }, { en := true, size := 4, widx := 16 }],
      quiet (withBook b) = false ∧ (withBook b).recClk.takenAt ≠ some (withBook b).eclk ∧ (withBook b).staged = [rec1] ∧ (withBook b).heldRecs = [] ∧
      (book (withBook b) 1).under = none ∧ lostDue (withBook b) 1 = false) ∧
    ringFull { en := true, size := 4, widx := 16 } = true ∧ ringFull { en := true, size := 4 } = false := by decide +kernel
/-- Record 5 of a book of 16 at 0x8000 goes to 0x80A0, with PHASE 1. -/
theorem test_record_goes_to_its_slot :
    let t := after .recordTake (withBook { en := true, base := 0x400, size := 4, widx := 5, ridx := 5, seq := 41 })
    (book t 1).under.map (·.addr) = some 0x80A0 ∧ (book t 1).seq = 42 := by decide +kernel

def recAcc1 (second : Bool) : Acc := { acc5 (.record 1 second) true false with ch := none }
def writing (second : Bool) : State :=
  { base with books := [(1, { en := true, under := some ⟨0, 0, 0, 0, 0x8000, second, false⟩ })], outst := [recAcc1 second] }
theorem witness_BooksAndRecordWrites :
    (recordAcc (writing true) 1 = some (recAcc1 true) ∧ isSecond (recAcc1 true).owner = true) ∧ recordAcc (writing false) 1 = some (recAcc1 false) ∧
    (let s := { base with books := [(1, { en := true, widx := 1, timer := 1 })], mer := { now := 1000 * 2 ^ 32 } }
     running s = true ∧ timerDue s 1 = true) ∧
    (HostOpen base .host false true (bookOff 7 8) ∧ (book base 7).en = false ∧ HostOpen base .host false true (bookOff 7 0x18)) := by
  unfold HostOpen; decide +kernel
theorem test_record_counts_in_widx : (book (after (.recordWriteDone 1) (writing true)) 1).widx = 1 := by decide +kernel
theorem test_ridx_beyond_widx_is_bad :
    (book (after (.bookRidxWrite .host 1 3) { base with books := [(1, { widx := 2 })] }) 1).badidx = true ∧
    (book (after (.bookRidxWrite .host 1 2) { base with books := [(1, { widx := 2 })] }) 1).ridx = 2 := by decide +kernel

/-! ### Stream queues -/

theorem witness_HostPushAndPop :
    (HostOpen base .host false true (qOff 63 0x20) ∧ HostOpen base .host false true (qOff 63 0x28) ∧ (queue base 63).tail.length < 8 ∧
      (queue base 63).inAt ≠ some base.eclk ∧ (queue base 63).hostIn = [] ∧ (queue base 63).resetAt ≠ some base.eclk) ∧
    (queue { base with queues := [(0, { inAt := some 20 })] } 0).inAt = some base.eclk ∧
    (¬ (queue { base with queues := [(0, { tail := List.replicate 8 (mkItem 1 false false) })] } 0).tail.length < 8) ∧
    (HostOpen base .host false false (qOff 0 0x30) ∧ deliverable (queue base 0) = 0) ∧
    (let s := { base with queues := [(0, markedQueue)] }
     HostOpen s .host false false (qOff 0 0x30) ∧ 0 < deliverable (queue s 0) ∧ (queue s 0).head = [⟨mkItem 2 false false, true, none, 0⟩] ∧
       parityOk (mkItem 2 false false) = true ∧ (queue s 0).outAt ≠ some s.eclk) ∧
    (let s := { base with queues := [(0, { markedQueue with outAt := some 20 })] }
     HostOpen s .host false false (qOff 0 0x30) ∧ 0 < deliverable (queue s 0) ∧ (queue s 0).outAt = some s.eclk) := by
  unfold HostOpen; decide +kernel
/-- A queue that has accepted an item in this ECLK takes the host's in a later one. -/
theorem test_one_item_in_an_eclk :
    let t := after (.hostPush .host 0 2) { base with queues := [(0, { en := true, inAt := some 20 })] }
    (queue t 0).tail = [] ∧ (queue t 0).hostIn = [(2, false)] ∧ (queue (tick t) 0).tail.map (·.data) = [2] := by decide +kernel
theorem test_pop_takes_the_oldest :
    (after (.hostPop .host 0 true) { base with queues := [(0, { markedQueue with markv := false, held := [] })] }).port.resp.data = 2 := by decide +kernel
theorem test_pop_of_an_empty_queue_is_idle :
    (after (.hostPop .host 0 true) { base with queues := [(0, { idle := 0xABC })] }).port.resp.data = 0xABC := by decide +kernel

theorem witness_QueueAndPoolRegisters :
    HostOpen base .host false true (qOff 63 0) ∧ bit (0x1 : W64) 49 = false ∧ HostOpen base .host false true 0x60 ∧ fld (0x200000000000 : W64) 45 32 = 8192 ∧
    HostOpen base .host false true 0x68 := by
  unfold HostOpen; decide +kernel
theorem test_pool_write_waits_for_no_page :
    (after (.spillBaseWrite .host 0x0000000500000400) base).spill.pages = 5 ∧
    (after (.spillBaseWrite .host 0x0000000500000400) { base with spill := { inuse := 1 } }).spill.pages = 0 := by decide +kernel

/-- A queue of four tail items whose middle is to take them, and one with a half-group in its middle. -/
def tail4 : List Item := List.replicate 4 (mkItem 1 false false)
def spilling : State :=
  { base with queues := [(0, { thru := false, maxpg := 1, tail := tail4, lastPut := 12 })], spill := { base := 4, pages := 8, freeN := 1, freeHead := 2 } }
def refilling : State :=
  { base with queues := [(0, { mid := [⟨1, 0, [(false, false)]⟩], pages := [⟨1, 1, 0⟩] })], spill := { base := 4, pages := 8, inuse := 1, fresh := 2 } }
theorem witness_QueueMovements :
    (let s := { base with queues := [(0, { tail := tail4 })] }
     running s = true ∧ direct (queue s 0) = true ∧ (queue s 0).tail = mkItem 1 false false :: List.replicate 3 (mkItem 1 false false) ∧
       parityOk (mkItem 1 false false) = true ∧ (queue s 0).moveAt ≠ some s.eclk) ∧
    (let x := queue spilling 0
     direct x = false ∧ x.sperr = false ∧ x.wrMove = .none ∧ x.tail ≠ [] ∧ pageRoom x = false ∧ x.pages.length < x.maxpg ∧
       0 < spilling.spill.freeN ∧ spilling.spill.reading = false ∧ x.tail.length = 4 ∧ x.lastPut + 8 = spilling.eclk) ∧
    (let x := queue refilling 0
     refillSource x = some (1, 0) ∧ x.rdMove = .none ∧ headUsed x ≤ 4) := by
  decide +kernel
/-- The free list's head is page 2 of the pool at 0x1000. -/
theorem test_spill_reads_the_free_list : (after (.halfGroupSpill 0) spilling).offered.map (·.blk) = [0x1800] := by decide +kernel
/-- Slot 0 of page 1 of the pool at 0x1000: its data stands at 0x1440, and its flags in the page's header. -/
theorem test_refill_reads_the_half_group : (after (.headRefill 0) refilling).offered.map (·.blk) = [0x1440, 0x1450, 0x1400] := by decide +kernel

/-! ### The Atlas -/

theorem witness_StagingHoldsRuleWords :
    (HostOpen base .host true true 0x160000 ∧ stagedAt 0x160000 = true ∧ 0x160000 % 8 = 0) ∧
    (HostOpen base .host true true 0x16C8F8 ∧ stagedAt 0x16C8F8 = true ∧ 0x16C8F8 % 8 = 0) ∧ committing base = false ∧
    (let s := { base with atlas := { phase := .copying 10 } }
     HostOpen s .host true true 0x160000 ∧ committing s = true) := by
  unfold HostOpen; decide +kernel
theorem test_staged_word_is_in_no_store :
    let t := after (.atlasStageWrite .host 0x160000 8 5) base
    tfind? t.atlas.staging 0x2C000 = some 5 ∧ t.atlas.sheets = [] := by decide +kernel

def committing1 : State := { base with atlas := { uncovStg := 0xFFFFFFFF, phase := .prep 0 10, staging := [(0x2D900, 7)] } }
/-- The same with an access whose lookup is not over. -/
def lookingAcc : Acc := { acc5 (.load 0) false false with tag := 0, readyAt := 30, ask := some { point := 0, colour := 0, wr := false, type_ := 0, srck := 0, srcn := 0, addr := 0x4000 } }
def lookingUp : State := { committing1 with offered := [lookingAcc] }
theorem witness_CommitSwitchesTheRules :
    HostOpen base .host false true 0x5008 ∧ base.atlas.phase = .idle ∧ running committing1 = true ∧ committing1.atlas.phase = .prep 0 10 ∧
    testBlocks 0 committing1 = false ∧ committing1.offered = [] ∧ committing1.fetches = [] ∧
    (lookingUp.offered = [lookingAcc] ∧ lookingAcc.ask.isSome = true ∧ lookingAcc.decided = false ∧ running lookingUp = true ∧ commitRefused lookingUp = none) ∧ commitRefused committing1 = none ∧
    commitRefused { committing1 with atlas := { committing1.atlas with stgBad := [0] } } = some (3, 0) := by
  unfold HostOpen; decide +kernel
theorem test_switch_counts_the_epoch : (after .commitSwitch committing1).atlas.epoch = 1 ∧ (after .commitSwitch committing1).atlas.uncov = 0xFFFFFFFF := by
  decide +kernel

def copyingIn (k : Nat) : State := { base with atlas := { phase := .copying 19, staging := [(k, 7)], drained := false, switchAt := 19 } }
def copied : State := { base with atlas := { phase := .copying 19 } }
theorem witness_CommitCompletes :
    (running (copyingIn 0x2D900) = true ∧ (copyingIn 0x2D900).atlas.phase = .copying 19 ∧ 19 < base.eclk ∧ (copyingIn 0x2D900).atlas.drained = false ∧
      (copyingIn 0x2D900).atlas.switchAt < (copyingIn 0x2D900).eclk ∧ oldOut (copyingIn 0x2D900) = 0) ∧
    (running copied = true ∧ copied.atlas.phase = .copying 19 ∧ copied.atlas.staging = []) ∧ HostOpen base .host false true 0x5000 ∧ true ≠ base.dbg.unlock := by
  unfold HostOpen; decide +kernel
/-- The copy's bounds: the first and the last word of the Grid, the sheets, the trust and the colour tables. -/
theorem test_copy_in_finds_the_store :
    tfind? (after .commitCopyIn (copyingIn 0x1FFFF)).atlas.grid 0x1FFFF = some 7 ∧
    tget 0 (after .commitCopyIn (copyingIn 0x2CFFF)).atlas.sheets 0xFFF = 7 ∧ tget 0 (after .commitCopyIn (copyingIn 0x2C000)).atlas.sheets 0 = 7 ∧
    tget 0 (after .commitCopyIn (copyingIn 0x2D8FF)).atlas.trust 0xFF = 7 ∧ tget 0 (after .commitCopyIn (copyingIn 0x2D91F)).atlas.colours 0x1F = 7 := by
  decide +kernel
theorem test_drained_once_nothing_is_old : (after .commitDrained (copyingIn 0)).atlas.drained = true := by decide +kernel

/-! ### The global halt, errors and fences -/

def halted (h : Halt) : State := { atLeg 0 0 0 0 with halt := h }
def lineFailing : State := { chan { legRegs0 0 0 0 0 with pc := 0x1020 } .fetch with fetches := [fetch .demand 0x1000] }
theorem witness_GlobalHalt_entry :
    (lineFailing.fetches.find? (fun f => returning 0x1000 0 f && f.issued && !f.busySeen) = some (fetch .demand 0x1000) ∧ haltOn lineFailing = false) ∧
    (haltOn (halted { st := 1 }) = true ∧ atStop (halted { st := 1 }) 0 = true ∧ (ctx (halted { st := 1 }) 0).r.state ≠ .paused ∧
      (ctx (halted { st := 1 }) 0).w.pausePend = false ∧ stopComes (halted { st := 1 }) 0 = false ∧
      (ctx (halted { st := 1 }) 0).w.heldAt ≠ some (halted { st := 1 }).eclk) ∧
    (haltOn (halted { st := 1, entry := 16 }) = true ∧ (halted { st := 1, entry := 16 }).halt.entry + 4 = (halted { st := 1, entry := 16 }).eclk) := by
  decide +kernel
def halted62 (h : Halt) : State := { halted h with eclk := 2000, fetches := [fetch .retry 0x1000] }
theorem witness_GlobalHalt_end :
    (let s := { halted { st := 1, entry := 1938, addr := 0x1000 } with eclk := 2000 }
     s.halt.retryOut = false ∧ s.halt.ended = none ∧ s.halt.entry + 62 = s.eclk) ∧
    (let s := halted62 { st := 1, entry := 836, retryOut := true }
     s.halt.st = 1 ∧ s.halt.ended = none ∧ s.fetches.find? (fun f => isRetry f && f.issued) = some (fetch .retry 0x1000) ∧ s.halt.entry + 1164 = s.eclk) ∧
    (let s := halted { st := 1, ended := some (true, false, 19) }
     s.halt.decided = none ∧ s.halt.ended = some (true, false, 19) ∧ 19 < s.eclk) ∧
    (halted { st := 1, decided := some 19 }).halt.decided = some 19 ∧
    (HostOpen (halted { st := 2 }) .host false true 0x70 ∧ (halted { st := 2 }).halt.st = 2) := by
  unfold HostOpen; decide +kernel
theorem test_halt_notes_its_line :
    let t := after (.globalHaltEntry 0x1000 0) lineFailing
    t.halt.st = 1 ∧ t.halt.addr = 0x1000 ∧ t.halt.entry = 20 := by decide +kernel
theorem test_failed_retry_holds_the_halt :
    (after .haltDecision (halted { st := 1, ended := some (false, true, 19) })).halt.st = 2 ∧
    (after .haltDecision (halted { st := 1, ended := some (false, true, 19) })).halt.why = 2 := by decide +kernel
theorem test_halted_channel_comes_back :
    (ctx (after (.globalResume .host) { halted { st := 2 } with ctxs := (chan { legRegs0 0 0 0 0 with state := .halted, resume := .active } .ready).ctxs }) 0).r.state = .active := by
  decide +kernel

theorem witness_ErrorsAndFences :
    (let s : State := { base with eclk := 800000, errs := [(49, { window := 1, count := 3 })] }
     (errCls s 49).from_ + windowLen (errCls s 49) = mclk s) ∧
    (let s : State := { base with errs := [(23, { fence := true, lastPend := some (4, 17) })] }
     (errCls s 23).lastPend = some (4, 17) ∧ 4 < mclk s ∧ (errCls s 23).fence = true ∧ s.fences.hostAt ≠ some (mclk s)) ∧
    HostOpen base .host false true (errcOff 49 0) ∧ (fld (0x186A0 : W64) 16 0 = 100000) ∧ HostOpen base .host false true 0x7080 ∧ laneTested base = none := by
  unfold HostOpen; decide +kernel
/-- Class 23 is lane 0's uncorrected class: its fence is bit 0 of LANE. -/
theorem test_lasting_fault_fences_its_lane :
    (after (.lastingFault 23) { base with errs := [(23, { fence := true, lastPend := some (4, 17) })] }).fences.lane = 1 := by decide +kernel
theorem test_fence_write_adds_to_grid :
    let s := after (.fenceWrite .host 0x00012105) { base with fences := { grid := 8 } }
    s.fences.grid = 8 ∧ (atNextMclk s).fences.grid = 0xA ∧ (atNextMclk s).fences.lane = 5 := by decide +kernel
/-- ECLK 20 is the first of its MCLK period: the write acts in ECLK 24, and its record follows (R412). -/
theorem test_management_write_waits_for_mclk :
    let s := tick (tick (tick (after (.fenceWrite .host 1) base)))
    s.fences.lane = 0 ∧ (tick s).fences.lane = 1 ∧ (tick s).fences.onLane = 0 := by decide +kernel

/-! ### The Bruhus fabric -/

/-- Node 0, whose port 0 leads to node 7; nodes 0 to 15 are trusted, and every colour of theirs is colour 1 here. -/
def trusting : Atlas :=
  { uncov := 0xFFFFFFFF, trust := [(0, 0x1111111111111111)], colours := (List.range 32).map (fun k => (k, 0x1111111111111111)) }
def port0 (x : LinkPort) : State :=
  { base with atlas := trusting, fab := { en := true, id := 0, idv := true, ports := [(0, x)], routes := [(7, 4)] } }
def up : LinkPort := { en := true, up := true, creditRt := 16, creditBulk := 48 }
def frame1 : Frame := ⟨{ hdr0 with lseq := 3 }, .ack 0 0⟩
def tx1 : TxF := ⟨frame1, none, true, false, 0⟩
/-- A frame for node 7, and one along a path out of port 0, with the LSEQ expected. -/
def passing : Frame := ⟨{ hdr0 with dst := 7 }, .ack 0 0⟩
def hopping : Frame := ⟨hdr0, .sv ⟨0, 2, 1⟩ false 0⟩
theorem witness_LinkPortsAndWords :
    (quiet (port0 { en := true }) = false ∧ (port (port0 { en := true }) 0).en = true ∧ (port (port0 { en := true }) 0).up = false) ∧
    (port (port0 { up with replayCnt := 8, replay := [tx1] }) 0).up = true ∧ HostOpen (port0 up) .host false true (portOff 0) ∧
    HostOpen (port0 {}) .host false true (portOff 0) ∧ (port (port0 up) 0).rxWait = false ∧ fromLseq 3 [tx1] = [tx1] ∧
    (let s := { port0 { up with skipAt := 799700, identAt := 20 } with eclk := 800020 }
     (port s 0).skipAt + 320 = s.eclk ∧ (port s 0).identAt + 800000 = s.eclk) := by
  unfold HostOpen; decide +kernel
theorem witness_LinkPortsAndWords_crc :
    (∀ f ∈ [passing, hopping], frameOk f = true ∧ ttlEnds f = false ∧ (takeFrame 0 f (port0 up)).isSome = true ∧ (onward (port0 up) 0 f).isSome = true) ∧
    quiet (port0 up) = false ∧ routePort (port0 up) 7 = some 0 ∧ usable (port0 up) 0 = true ∧
    (port (port0 { up with rxWait := true, rxLseq := 9 }) 0).rxLseq ≠ passing.hdr.lseq := by decide +kernel
theorem test_crc_failure_owes_a_nak : (port (after (.frameCrcFail 0 ⟨false, frame1⟩) (port0 { up with rxLseq := 9 })) 0).owed = [.nak 9] := by decide +kernel
/-- A frame that is forwarded when its CRC fails goes out stomped (R357). -/
theorem test_bad_frame_goes_on_stomped :
    (port (after (.frameCrcFail 0 ⟨false, passing⟩) (port0 up)) 0).txBulk.map (fun t => (t.stomp, t.f.hdr.ttl)) = [(true, 4)] := by decide +kernel
theorem test_port_trains : (txNext (fun _ => 0) 20 { en := true }).lastWord = some .train := by decide +kernel
/-- A WR of one unit has 52 bytes, one of three 84 (R353). -/
theorem test_wr_of_one_unit_is_two_flits : flits ⟨hdr0, .wr 0 0 [⟨0, 0, false⟩]⟩ = 2 ∧ flits ⟨hdr0, .wr 0 0 (List.replicate 3 ⟨0, 0, false⟩)⟩ = 3 := by
  decide +kernel
theorem test_ack_ends_what_it_covers : (port (after (.ackWord 0 3) (port0 { up with replay := [tx1] })) 0).replay = [] := by decide +kernel
theorem test_credit_of_k_is_k_plus_one : (port (after (.creditWord 0 false 15) (port0 up)) 0).creditBulk = 64 := by decide +kernel
theorem test_port_goes_down : (port (after (.portEnable .host 0 false) (port0 up)) 0).up = false := by decide +kernel

def up0 : State := port0 up
def wunit : WUnit := ⟨0xFFFF, 3, false⟩
theorem witness_RemoteOperationsArrive : isOwn up0 hdr0 = true ∧ up0.fab.en = true ∧
    (∀ b ∈ [Body.wrs 0x4008 5 false 0xF0 8, .rd 0x4000 5 0xFFFF, .wr 0x4000 5 [wunit], .wr 0x4000 5 (List.replicate 8 wunit)],
      (takeFrame 0 ⟨hdr0, b⟩ up0).isSome = true ∧ frameOk ⟨hdr0, b⟩ = true) := by decide +kernel
/-- A WRS to the upper half of its block. -/
theorem test_wrs_goes_to_its_half :
    (after (.rxWrs 0 hdr0 0x4008 5 false 0xF0 8) up0).offered.map (fun a => (a.blk, a.mask, a.data)) = [((0x4000 : W32), (0xF000 : W16), (8 : W128) <<< 64)] := by decide +kernel
theorem test_wr_offers_its_units :
    (after (.rxWr 0 hdr0 0x4000 5 [wunit, wunit]) up0).offered.map (·.blk) = [0x4000, 0x4010] := by decide +kernel

/-- Channel 0's LOAD from, and STORE to, node 7 that await their answers. -/
def out7 (o : Owner) (wr orphan : Bool) : FOut :=
  { ftag := 5, owner := o, wr := wr, addr := 0x100700004000, units := [⟨0x100700004000, [⟨0, 0, 8, 0⟩]⟩], rt := false, at_ := 20,
    ch := some (0, 0, 0), orphan := orphan, elided := false }
def awaiting (f : FOut) : State := { up0 with ctxs := [(0, { r := legRegs0 0x30045 0x4000 0 0, w := { phase := .single, wRem := 1 } })],
                                              fab := { up0.fab with out := [f] } }
theorem witness_AnswersAndTimeLimits :
    (∀ f ∈ [out7 (.load 0) false false, out7 (.store 0) true false],
      (awaiting f).fab.en = true ∧ isOwn (awaiting f) hdr0 = true ∧ answered (awaiting f) 0x4000 5 = some f ∧ f.orphan = false ∧
      (∀ b ∈ [Body.nak 0x4000 5 1 0 0, .rdr 0x4000 5 false 9, .ack 0x4000 5], (takeFrame 0 ⟨hdr0, b⟩ (awaiting f)).isSome = true)) ∧
    (ctx (awaiting (out7 (.load 0) false false)) 0).w.loadFail = none := by decide +kernel
def inAcc7 : InAcc :=
  { id := 3, src := 7, tag := 5, addr := 0x4000, rt := false, wr := false, at_ := 20, port := 0, left := 1, fail := none, data := 0, pois := false, answered := false }
theorem witness_TimeLimits :
    (∀ o ∈ [true, false], let s := { awaiting (out7 (.load 0) false o) with eclk := 160020 }
      s.fab.out.find? (fun f => f.ftag == 5 && decide (f.at_ + 800 * s.halt.rtmo ≤ s.eclk)) = some (out7 (.load 0) false o)) ∧
    (let s := { up0 with eclk := 80020, fab := { up0.fab with inb := [inAcc7] } }
     s.fab.inb.find? (fun j => j.id == 3 && !j.answered && decide (j.at_ + 80000 ≤ s.eclk)) = some inAcc7 ∧ routePort s 7 = some 0) := by
  decide +kernel
theorem test_nak_of_a_denial_is_fault_10 :
    (ctx (after (.rxNak 0 hdr0 0x4000 5 1 0 0) (awaiting (out7 (.load 0) false false))) 0).w.loadFail.map (·.1) = some 0x10 := by decide +kernel
theorem test_ack_covers_a_store : (ctx (after (.rxAck 0 hdr0 0x4000 5) (awaiting (out7 (.store 0) true false))) 0).w.wRem = 0 := by decide +kernel
theorem test_rdr_gathers_its_bytes : (ctx (after (.rxRdr 0 hdr0 0x4000 5 false 9) (awaiting (out7 (.load 0) false false))) 0).w.loadGot = 8 := by decide +kernel

/-- Events of colour 1 are let in on input 0, to which channel 0 is bound. -/
def listening : State := { up0 with ctxs := (atLeg 0 0 0 0).ctxs, legends := bound, fab := { up0.fab with evcol := 2, even := [(0, 1)] } }
def routed : State := { up0 with fab := { up0.fab with id := 9 } }
def surveying : State := { up0 with fab := { up0.fab with root := true, survey := { busy := true } } }
/-- The root with nodes 4 and 7 mapped, and with node 7 at the end of a path of n ports. -/
def far (n : Nat) : State :=
  { up0 with fab := { up0.fab with root := true, map := [(4, some ⟨9, [1], 0, 4, false, []⟩), (7, some ⟨8, List.replicate n 0, 0, 7, false, []⟩)] } }
def mapped : State := far 1
theorem witness_OtherFrames :
    ((takeFrame 0 ⟨hdr0, .ev 0⟩ listening).isSome = true ∧ translate listening 7 1 = 1 ∧ isBad listening 9 (trustKey 7) = false ∧
      isBad listening 10 (colourKey 1 1) = false ∧ bit listening.fab.evcol 1 = true ∧ bit (tget 0 listening.fab.even 0) 0 = true ∧
      trising listening.legends = true ∧ levelMode (inp listening 0) = false) ∧
    ((takeFrame 0 ⟨hdr0, .ev 1⟩ listening).isSome = true ∧ bit (tget 0 listening.fab.even 0) 1 = false) ∧
    ((takeFrame 0 ⟨hdr0, .note false 1 4 true⟩ surveying).isSome = true ∧ surveying.fab.root = true ∧ surveying.fab.auto = true ∧
      surveying.fab.survey.busy = true) ∧
    ((takeFrame 0 ⟨hdr0, .note true 1 4 true⟩ mapped).isSome = true ∧ mapped.fab.root = true ∧ mapped.fab.auto = true ∧ mapped.fab.survey.busy = false ∧
      mapped.fab.survey.leaving = none ∧ mapped.fab.survey.notes = [] ∧ (mapAt mapped 4).isSome = true ∧ mapAt mapped 5 = none ∧
      (mapAt mapped 7).map (·.path.length) = some 1 ∧ mapAt { mapped with fab := { mapped.fab with map := [] } } 7 = none) ∧
    (mapAt (far 20) 7).map (·.path.length) = some 20 ∧ (up0.fab.root && up0.fab.auto) = false ∧
    ((takeFrame 0 ⟨hdr0, .reserved 15⟩ up0).isSome = true ∧ reservedKind 15 = true) ∧
    (∃ u, takeFrame 0 ⟨hdr0, .ack 0 0⟩ routed = some u ∧ isOwn routed hdr0 = false ∧ isRouted (.ack 0 0) = true ∧ frameOk ⟨hdr0, .ack 0 0⟩ = true) ∧
    (∃ u, takeFrame 0 ⟨{ hdr0 with dst := 8 }, .ack 0 0⟩
        { routed with fab := { routed.fab with routes := [(8, 5)], ports := [(0, up), (1, up)] } } = some u ∧ routePort u 8 = some 1) := by
  refine ⟨by decide +kernel, by decide +kernel, by decide +kernel, by decide +kernel, by decide +kernel, by decide +kernel, by decide +kernel, ⟨_, rfl, by decide +kernel⟩, ⟨_, rfl, by decide +kernel⟩⟩
def syncing (n : Nat) : State :=
  { up0 with eclk := 800020, sync := { tref := 7, en := true, t1 := some 50, t1At := 20, fails := n, lock := true } }
theorem witness_Synchronisation :
    (let s := { up0 with eclk := 800020, sync := { tref := 7, en := true } }
     quiet s = false ∧ s.sync.en = true ∧ s.sync.t1 = none ∧ s.sync.lastAt + 800 * s.sync.per ≤ s.eclk ∧ parentPort s = some 0) ∧
    ((takeFrame 0 ⟨hdr0, .synq⟩ up0).isSome = true ∧ isOwn up0 hdr0 = true) ∧
    (∀ n ∈ [0, 2], (takeFrame 0 ⟨hdr0, .synr (n == 2) 60 70⟩ (syncing n)).isSome = true ∧ (syncing n).sync.t1 = some 50 ∧ (syncing n).sync.pport = 0 ∧
      (syncing n).sync.t1At + 8000 ≤ (syncing n).eclk) := by decide +kernel
theorem test_trusted_event_is_a_request : (ctx (countArrivals (after (.rxEv 0 hdr0 0) listening)) 0).r.pend = 1 := by decide +kernel
/-- A join has the root query the port that it names; a leave, the node. -/
theorem test_notes_are_looked_into :
    (after (.rxNote 0 hdr0 false 3 0 false) mapped).fab.survey.await = some [0, 3] ∧
    (after (.rxNote 0 hdr0 true 3 4 true) mapped).fab.survey.leaving = some 4 ∧
    (after (.rxNote 0 hdr0 false 3 0 false) (far 20)).fab.survey.code = 3 := by decide +kernel
theorem test_event_of_another_input_is_refused : (after (.rxEv 0 hdr0 1) listening).fab.evref = true := by decide +kernel
theorem test_last_hop_ends_a_frame : (after (.frameForward 0 ⟨{ hdr0 with ttl := 1 }, .ack 0 0⟩) routed).fab.ttlx = true := by decide +kernel
theorem test_third_failure_ends_the_lock :
    (after .synrTimeout (syncing 2)).sync.lock = false ∧ (after .synrTimeout (syncing 1)).sync.lock = true := by decide +kernel
/-- t1 = 50 ns, t2 = 60, t3 = 70, t4 = 90, in 2^-8 ns: the delay is (40 − 10) / 2 = 15 ns, 240 in 2^-4 ns. -/
theorem test_delay_is_half_the_round_trip : syncDelay 12800 15360 17920 23040 = 240 := by decide +kernel

def root : State := { up0 with fab := { up0.fab with root := true } }
def queried : State := { root with fab := { root.fab with map := [(0, some ⟨0, [], 0, 0, false, []⟩)], nodes := 1, survey := { busy := true, await := some [0], stack := [⟨0, [], 1⟩] } } }
def leavingNode : State :=
  { queried with eclk := 8020, fab := { queried.fab with nodes := 2, map := [(0, some ⟨0, [], 0, 0, false, []⟩), (4, some ⟨9, [0], 0, 4, false, []⟩)],
                                                         survey := { busy := true, await := some [0], awaitAt := 20, leaving := some 4 } } }
def path1 : Path := ⟨0, 1, 1⟩
def ports4 : List PortInfo := List.replicate 4 ⟨0, false, false⟩
theorem witness_SurveyMapsTheNodes :
    (HostOpen base .host false true 0x6020 ∧ base.fab.root = false) ∧
    (HostOpen root .host false true 0x6020 ∧ root.fab.root = true ∧ root.fab.survey.busy = false) ∧
    (pathOk path1 = true ∧ atTarget path1 = true ∧ usable up0 0 = true ∧ setNow up0 (w1cKey 0x6008 12) = false ∧ (takeFrame 0 ⟨hdr0, .sv path1 true 4⟩ up0).isSome = true) ∧
    (svrPortsOk ports4 = true ∧ (takeFrame 0 ⟨hdr0, .svr path1 9 4 true 4 true 2 ports4⟩ queried).isSome = true ∧
      queried.fab.survey.await = some (pathBack 0 path1) ∧ queried.fab.survey.leaving = none ∧
      (∀ e ∈ queried.fab.map, ∀ m ∈ e.2, m.uid ≠ 9) ∧ mapAt queried 4 = none) ∧
    (leavingNode.fab.survey.await.isSome = true ∧ leavingNode.fab.survey.awaitAt + 8000 = leavingNode.eclk ∧
      leavingNode.fab.survey.leaving = some 4 ∧ (mapAt leavingNode 4).isSome = true) := by
  unfold HostOpen; decide +kernel
theorem test_assignment_gives_an_id : (after (.rxSv 0 hdr0 path1 true 4) up0).fab.id = 4 := by decide +kernel
theorem test_leave_ends_its_entry : (mapAt (after .svTimeout leavingNode) 4).isNone = true ∧ (after .svTimeout leavingNode).fab.nodes = 1 := by decide +kernel

def loading : State := { root with eclk := 80020, fab := { root.fab with load := { busy := true, sentAt := some 20 } } }
def entries64 : List W32 := List.replicate 64 0x47
theorem witness_RoutesAreLoaded :
    (HostOpen root .host false true 0x6028 ∧ root.fab.load.busy = false) ∧
    (rlEntriesOk entries64 = true ∧ (takeFrame 0 ⟨{ hdr0 with src := 0 }, .rl path1 true 4032 entries64⟩ up0).isSome = true ∧ up0.fab.rlacc = true) ∧
    (loading.fab.load.busy = true ∧ loading.fab.load.sentAt = some 20 ∧ HostOpen loading .host false true 0x6028) ∧
    (HostOpen base .host true true (0x168000 + 4 * 4095)) := by
  unfold HostOpen; decide +kernel
/-- Entries 4,032 to 4,095 are written, and bits 31 to 6 of an entry are not held. -/
theorem test_route_load_writes_its_entries :
    let t := after (.rxRl 0 { hdr0 with src := 0 } path1 true 4032 entries64) up0
    routeEntry t 4095 = 7 ∧ routeEntry t 4031 = 0 ∧ t.fab.surveyed = true := by decide +kernel
theorem test_load_to_no_node_answers_1 : (after (.routeLoadGo .host 5) root).fab.load.code = 1 := by decide +kernel

/-! ### Power domains, flash and the debug path -/

/-- Domain 15 is the 64 KiB at 0x10000. -/
def dom15 : Region := { base := 0x10000, size := 0x10000, num := 15 }
def windowOpen (p : Power) : State := { base with eclk := 64, straps := { domains := [dom15] }, power := { p with openAt := [(15, 0)] } }
theorem witness_PowerDomainsGoAndReturn :
    (bit base.power.pdreq 15 = false ∧ quiet base = false ∧ bit base.power.pgood 15 = true ∧ heldIn base 15 = []) ∧
    bit ({ base with power := { pdreq := 0x8000 } } : State).power.pdreq 15 = true ∧
    (let s := { base with straps := { inputs := [(3, { domv := true, dom := 15 })] } }
     (wiring s 3).domv = true ∧ (wiring s 3).dom = 15 ∧ (wiring s 3).qual = false ∧ qok s 3 = true) ∧
    (let s := windowOpen { pdreq := 0x8000, window := 0x8000 }
     bit s.power.window 15 = true ∧ s.power.settle = windowAge s 15 ∧ releasable s 15 = true ∧ s.power.vetoes = [] ∧
     bit s.power.pdreq 15 = true ∧ quiet s = false ∧ bit s.power.pgood 15 = true ∧ domainUp s 15 = false) ∧
    (let s := windowOpen { pdreq := 0x8000, window := 0x8000, vetoes := [(15, 3, 0x10000, 63)] }
     s.power.vetoes.find? (fun v => v.1 == 15) = some (15, 3, 0x10000, 63) ∧ 63 < s.eclk ∧ bit s.power.window 15 = true) ∧
    (let s := chan { legRegs0 0x30045 0x10000 0 0 with state := .held, wait := .domain, desc := .domain 15 } .single
     quiet s = false ∧ bit s.power.pdreq 15 = false ∧ heldIn s 15 = [0] ∧ (ctx s 0).w.phase = .single ∧ s.power.back = []) := by decide +kernel
/-- The domain is up in the ECLK of the row, and its channel ACTIVE in the next (R382). -/
theorem test_channels_come_back_in_the_next_eclk :
    let s := chan { legRegs0 0x30045 0x10000 0 0 with state := .held, wait := .domain, desc := .domain 15 } .single
    let t := after (.domainReturn 15) s
    (ctx t 0).r.state = .held ∧ (ctx (tick t) 0).r.state = .active := by decide +kernel
/-- A withdrawn request: the domain is up again, and no record is owed (R452). -/
theorem test_withdrawn_request_releases :
    let t := after (.pdreqDrop 15) (windowOpen { pdreq := 0x8000, window := 0x8000 })
    t.power.window = 0 ∧ t.power.back = [(15, 65, false)] := by decide +kernel
theorem test_pdack_takes_the_domain_down :
    (after (.pdack 15) (windowOpen { pdreq := 0x8000, window := 0x8000 })).power.pdack = 0x8000 ∧
    (after (.pdack 15) { windowOpen { pdreq := 0x8000, window := 0x8000 } with eclk := 63 }).power.pdack = 0 := by decide +kernel
theorem test_power_loss_ends_qualification :
    qok (after (.pgoodFall 15) { base with straps := { inputs := [(3, { domv := true, dom := 15 })] } }) 3 = false := by decide +kernel
theorem test_power_loss_takes_the_domain_down : (after (.pgoodFall 15) base).power.down = 0x8000 := by decide +kernel

def flashWait : State :=
  { base with flash := { tmo := 1 }, ctxs := [(0, { r := { legRegs0 0 0 0 0 with state := .wait, wait := .flashBusy }, w := { phase := .fetch, flashCnt := 800 } })] }
theorem witness_FlashAndDebug :
    (bit base.flash.busy 3 = false) ∧ (bit ({ base with flash := { busy := 8 } } : State).flash.busy 3 = true) ∧
    ((ctx flashWait 0).r.state = .wait ∧ (ctx flashWait 0).r.wait = .flashBusy ∧ flashWait.flash.tmo * 800 = (ctx flashWait 0).w.flashCnt ∧
      (ctx flashWait 0).w.faulting = none) ∧
    (let s : State := { base with atlas := { uncov := 0xFFFFFFFF, sheets := [] }, dbg := { unlock := true, prev := true } }
     debugOk 0x4004 4 = true ∧ inReset s = false ∧ s.dbg.path.length < 4) := by decide +kernel
theorem test_flash_timeout_is_fault_22 : (ctx (after (.flashTimeout 0) flashWait) 0).r.fcode = 0x22 := by decide +kernel
theorem test_debug_access_is_of_colour_14 :
    (after (.debugAccess false 0x4004 4 0) { base with dbg := { unlock := true, prev := true } }).offered.map (fun a => (a.colour, a.mask)) = [(14, 0xF0)] := by
  decide +kernel

/-! ### Resets and clocks -/

def stopping (a : Nat) : State := { base with eclk := 100, glob := { phase := .stopping a } }
theorem witness_Resets :
    HostOpen base .host false true 0x20 ∧
    ((stopping 96).glob.phase = .stopping 96 ∧ 96 + 4 = (stopping 96).eclk ∧ locUse (stopping 96) = 0) ∧
    (let s := { stopping 0 with eclk := 51204, outst := [acc5 (.load 0) false false] }
     locUse s ≠ 0 ∧ 0 + 51204 = s.eclk) ∧
    (let s := { base with glob := { phase := .internal 3 } }
     s.glob.phase = .internal 3 ∧ 3 + 17 = s.eclk) := by
  unfold HostOpen; decide +kernel
theorem test_engine_reset_needs_its_key :
    (after (.engineResetRequest .host 0xA5) base).glob.phase = .stopping 20 ∧ (after (.engineResetRequest .host 0x5A) base).glob.phase = .running := by
  decide +kernel
theorem test_release_is_eclk_0 :
    let t := after .resetRelease { base with glob := { phase := .internal 3, engcnt := 1 } }
    t.eclk = 0 ∧ t.glob.engcnt = 2 ∧ t.glob.cause = 2 := by decide +kernel
theorem test_warm_reset_counts : (after .warmReset { base with glob := { warmcnt := 6 } }).glob.warmcnt = 7 := by decide +kernel

theorem witness_ReadinessSpreadAndInvalidation :
    inReset base = false ∧ HostOpen base .host false true 0x28 ∧ HostOpen base .host false true 0x90 ∧
    ({ base with glob := { depthNew := some 2 } } : State).glob.depthNew = some 2 ∧
    (let s := { base with glob := { depth := 2, depthNew := some 0, profile := 5 } }
     s.glob.depthNew = some 0 ∧ s.glob.profile < eclkTime s) := by
  unfold HostOpen; decide +kernel
theorem test_depth_waits_for_the_top :
    (after (.spreadWrite .host 2) base).glob.depth = 0 ∧ (after .spreadApply (after (.spreadWrite .host 2) base)).glob.depth = 2 := by decide +kernel

/-! ### The management plane -/

theorem witness_ScrubAndSelfTest :
    (quiet base = false ∧ scrubSkips base 18 = false ∧ tget 0 base.mgt.scrub.nextAt (scrubPort 18) ≤ mclk base ∧ uninitialised base 18 0 = false) ∧
    (let s := { base with eclk := 4096 }
     scrubSkips s 10 = false ∧ tget 0 s.mgt.scrub.waitFrom 10 + 4096 = s.eclk) ∧
    HostOpen base .host false true 0x7020 ∧
    (let s : State := { base with mgt := { test := { busy := true, unit := 12, liftPend := true } } }
     s.mgt.test.busy = true ∧ s.mgt.test.liftPend = true) := by
  unfold HostOpen; decide +kernel
/-- Lane 1, target 12, is not fenced; a unit above 24 has no test. -/
theorem test_selftest_refusals :
    (atNextMclk (after (.selftestGo .host 12) base)).mgt.test.code = 2 ∧ (atNextMclk (after (.selftestGo .host 31) base)).mgt.test.code = 3 := by
  decide +kernel
theorem test_stopped_test_answers_4 :
    (after .selftestStopped { base with mgt := { test := { busy := true, unit := 12, liftPend := true } } }).mgt.test.code = 4 := by decide +kernel

theorem witness_TelemetrySnapshots :
    HostOpen base .host false true 0x7040 ∧
    (let s : State := { base with eclk := 800000, mgt := { tele := { per := 1, pend := some 7 } } }
     quiet s = false ∧ s.mgt.tele.per ≠ 0 ∧ s.mgt.tele.periodAt + s.mgt.tele.per * 200000 = mclk s ∧ captureDue s = true ∧ trising s.lanes = true) := by
  unfold HostOpen; decide +kernel
theorem test_snapshot_takes_the_next_period :
    captureDue { base with mgt := { tele := { pend := some 5 } } } = false ∧ captureDue { base with eclk := 24, mgt := { tele := { pend := some 5 } } } = true := by
  decide +kernel

/-! ### Host accesses -/

theorem witness_HostPortHoldsAndRefuses :
    inReset (stopping 3) = true ∧
    (let s := { base with eclk := 16, atlas := {} }
     inReset s = false ∧ portWaits s false (chOff 3 0) = false ∧ portWaits s true 0x160004 = false ∧ allowed (check (hostAsk s .debug false true (chOff 3 0)) s).2 = false) ∧
    (0x8002 : W16).toNat % 4 ≠ 0 ∧ (0x8004 : W16).toNat % 8 ≠ 0 ∧ (0x160004 : BitVec 21).toNat % 8 ≠ 0 := by decide +kernel
/-- A 64-bit write at 0x8004 is not aligned. -/
theorem test_misaligned_write_ends_with_an_error : (after (.hostRegisterWrite .host 0x8004 8 0 0) base).port.resp = ⟨0, true⟩ := by decide +kernel
theorem witness_EarlyAccessesAreHeld :
    (let s := { base with eclk := 15 }
     isAccess (.chStart .host 3) = true ∧ isAccess (.lowWordRead .debug ⟨2, 4⟩) = true ∧ inReset s = false ∧ s.eclk < 16 ∧ s.pending = [] ∧
       16 ≤ s.eclk + 1) ∧ ({ base with eclk := 14 } : State).eclk + 1 < 16 ∧
    (let s := { base with port := { lastAt := some base.eclk, mgtFrom := base.eclk + 1, mgtWait := some (.teleSnap .host) } }
     inReset s = false ∧ s.port.lastAt = some s.eclk ∧ s.eclk < s.port.mgtFrom ∧ (0x7FFF : W16).toNat < 0x8000 ∧ 0x7000 ≤ (0x7000 : W16).toNat) := by
  decide +kernel
/-- A second access in an ECLK waits for the next one, and the host's goes before the debug port's (R441). -/
theorem test_one_access_in_an_eclk :
    let s := after (.lowWordRead .host ⟨8, 4⟩) (after (.lowWordRead .debug ⟨8, 4⟩) (after (.lowWordRead .host ⟨0, 4⟩) base))
    s.port.early = [.lowWordRead .debug ⟨8, 4⟩, .lowWordRead .host ⟨8, 4⟩] ∧ (tick s).pending = [.lowWordRead .host ⟨8, 4⟩, .lowWordRead .debug ⟨8, 4⟩] := by
  decide +kernel
theorem test_early_access_waits : (after (.chStart .host 3) { base with eclk := 15 }).port.early = [.chStart .host 3] := by decide +kernel

theorem witness_ReadsOfRegistersAndTables :
    (HostOpen base .host false false 0 ∧ wide 0 = false) ∧ (HostOpen base .host false false 0x3000 ∧ wide 0x3000 = false) ∧
    (∀ o ∈ [0x3020, 0x4000], wide o = true ∧ o % 8 = 0 ∧ HostOpen base .host false false o ∧ HostOpen base .host false true o) ∧
    (let s := { base with port := { snaps := [(keySnap .host 0x3020, some 5)] } }
     HostOpen s .host false false 0x3024 ∧ tget none s.port.snaps (keySnap .host 0x3020) = some 5) ∧ HostOpen base .host false true 0x8004 ∧
    (HostOpen base .host false false 0x8000 ∧ wide 0x8000 = false) ∧ (HostOpen base .host false true 0x7100 ∧ wide 0x7100 = true) ∧
    (∀ o ∈ [0, 0x100000, 0x11FFF8, 0x160000, 0x168000, 0x16C000, 0x16C8F8], HostOpen base .host true false o ∧ (tableStore (o / 8)).isSome = true) ∧
    tableFinds base 7 0x2C000 .clean = .clean ∧ tableFinds base 7 0x2C000 .uncorrected = .uncorrected := by
  unfold HostOpen; decide +kernel
/-- STE_ID reads 0x00315A7E. -/
theorem test_id_reads : (after (.lowWordRead .host ⟨0, 4⟩) base).port.resp.data = 0x00315A7E := by decide +kernel
/-- A 64-bit read at 0x8000 answers CH_CTRL and, above it, CH_START. -/
theorem test_wide_read_of_two_registers :
    (after (.lowWordRead .host ⟨0x8000, 8⟩) { base with ctxs := [(0, { r := { start := 0x1000 } })] }).port.resp = ⟨0x100000000000, false⟩ := by decide +kernel
theorem test_half_a_word_waits :
    let s := after (.hostRegisterWrite .host 0x3020 4 5 0) base
    heldLow s (keySnap .host 0x3020) = some 5 ∧ (after (.hostRegisterWrite .host 0x3024 4 1 0) { s with eclk := 21 }).mer.setPend = some 0x100000005 := by decide +kernel
theorem test_start_is_aligned : (ctx (after (.hostRegisterWrite .host 0x8004 4 0x103F 0) base) 0).r.start = 0x1020 := by decide +kernel

/-! ### Frames and invariants -/

theorem witness_Frames :
    isLegCmd (.nop 0) = true ∧ isAccess (.chStart .host 0) = true ∧ isLinkCmd (.linkUp 0 0 false) = true ∧
    isLegCmd .burstGrant = false ∧ isAccess .burstGrant = false ∧ isLinkCmd .burstGrant = false := by decide +kernel
theorem witness_invariants : legendsLegal { base with legends := bound } ∧ slewSmall (withMer { slew := 1000, slewed := 1000 * 2 ^ 32 - 1 }) ∧
    (merKept { base with merWas := some (20, { now := 7 }, []) }).now = 7 := by
  unfold legendsLegal slewSmall; decide +kernel
theorem test_tick_adds_five_quarters : (tick { State.reset with glob := { depth := 0 } }).mer.now = 5 * 2 ^ 30 := by decide +kernel

end Sys2Proof.Tests
end

section
/-! SUPPORT. What raising a fault leaves, and the fault that a leg has at its check (R109, R116, R119, R125, R145, R325). -/

namespace Sys2Proof.Laws
open Sys2Proof.Machine

variable {s t u : State} {c : Nat}

/-! ### Raising a fault -/

theorem abortBurst_ctx : ctx (abortBurst c u) = ctx u := by
  unfold abortBurst
  split
  · rfl
  · split <;> rfl
theorem abortBurst_queues : (abortBurst c u).queues = u.queues := by
  unfold abortBurst
  split
  · rfl
  · split <;> rfl

/-- Giving up what the channel reads, a part of raising a fault, leaves every context. -/
theorem giveUpReads_ctx : ctx (leaveFetch c (orphanReads (ownsRead c) (abortBurst c u))) = ctx u := abortBurst_ctx

theorem raiseFault_queues {code : Nat} {a : GAddr} {late : Bool} : (raiseFault c code a late s).queues = s.queues := by
  unfold raiseFault
  dsimp only
  split
  · rfl
  · exact abortBurst_queues
theorem faultPc_queues {code : Nat} : (faultPc c code s).queues = s.queues := raiseFault_queues

/-- An ACTIVE channel without a fault raises one at its leg's address (R322, R325). -/
theorem faultPc_faultsAt {code : Nat} (ha : (ctx s c).r.state = .active) (hf : (ctx s c).w.faulting = none) :
    FaultsAt s c code (faultPc c code s) := by
  have hgo : ¬((ctx s c).w.faulting.isSome || decide ((ctx s c).r.state = .off) || decide ((ctx s c).r.state = .fault)) = true := by
    simp [ha, hf]
  unfold faultPc raiseFault FaultsAt
  dsimp only
  rw [if_neg hgo, giveUpReads_ctx, ctx_setCtx_self]
  exact ⟨rfl, rfl, _, rfl, rfl, rfl, rfl, rfl, ha, rfl⟩

/-- The moment at which the leg began is no part of what a fault says. -/
theorem faultsAt_of_modW {code : Nat} {f : Work → Work} (H : FaultsAt (modW c f s) c code t) : FaultsAt s c code t := by
  unfold FaultsAt at H ⊢
  rw [ctx_modW_self] at H
  exact H

/-! ### A leg's fault of its own -/

/-- A SCALE whose LO is above HI. -/
theorem ownFault_scale_limits (ho : opOf (ctx s c).r.leg = 0x14)
    (hb : limitsBad (ctx s c).r (dwB (ctx s c).r.leg) (dsgOf (ctx s c).r.leg) = true) : ownFault s c = some 0x02 := by
  simp [ownFault, ho, hb]
/-- A REDUCE with XFORM whose LO is above HI. -/
theorem ownFault_reduce_limits (ho : opOf (ctx s c).r.leg = 0x15) (hx : bit (ctx s c).r.leg.w3 6 = true)
    (hb : limitsBad (ctx s c).r 4 (dsgOf (ctx s c).r.leg) = true) : ownFault s c = some 0x02 := by
  simp [ownFault, ho, hx, hb]

/-- A leg that needs requests, and has no limits to check, on a channel without REQEN. -/
theorem ownFault_unbound (h14 : opOf (ctx s c).r.leg ≠ 0x14) (h15 : opOf (ctx s c).r.leg ≠ 0x15)
    (hb : (isPatterned (opOf (ctx s c).r.leg) && paceOf (ctx s c).r.leg || opOf (ctx s c).r.leg == 0x30) = true)
    (hr : legReqen s c = false) : ownFault s c = some 0x06 := by
  unfold ownFault
  dsimp only
  split
  · contradiction
  · contradiction
  · rw [hb, hr]; rfl

/-- A PUSH, bound if it is paced, on a queue that is not open to it. -/
theorem ownFault_push_closed (ho : opOf (ctx s c).r.leg = 0x18) (hp : paceOf (ctx s c).r.leg = true → legReqen s c = true)
    (hq : openPush s (pushQueue (ctx s c).r.leg) (legColour s c) = false) : ownFault s c = some 0x10 := by
  simpa [ownFault, ho, hq, isPatterned, isData, isPushPop] using hp
/-- A POP, bound if it is paced, on a queue that is not open to it. -/
theorem ownFault_pop_closed (ho : opOf (ctx s c).r.leg = 0x19) (hp : paceOf (ctx s c).r.leg = true → legReqen s c = true)
    (hq : openPop s (popQueue (ctx s c).r.leg) (legColour s c) = false) : ownFault s c = some 0x10 := by
  simpa [ownFault, ho, hq, isPatterned, isData, isPushPop] using hp
/-- MARK, REWIND, RELEASE and WAITQ, which take no requests, on a queue that is not open to them. -/
theorem ownFault_queueLeg_closed (ho : opOf (ctx s c).r.leg ∈ [0x1A, 0x1B, 0x1C, 0x32])
    (hq : openPop s (popQueue (ctx s c).r.leg) (legColour s c) = false) : ownFault s c = some 0x10 := by
  simp only [List.mem_cons, List.not_mem_nil, or_false] at ho
  obtain ho | ho | ho | ho := ho <;> simp [ownFault, ho, hq, isPatterned, isData, isPushPop]

/-- A SIGNAL that wakes a channel of another colour. -/
theorem ownFault_signal_colour (ho : opOf (ctx s c).r.leg = 0x33) (hw : bit (ctx s c).r.leg.w1 18 = true)
    (hc : legColour s (fld (ctx s c).r.leg.w1 17 8) ≠ legColour s c) : ownFault s c = some 0x07 := by
  simp [ownFault, ho, hw, hc, isPatterned, isData, isPushPop]

/-! ### The check -/

theorem comes_op {op : Nat} (h : Comes s c op) : opOf (ctx s c).r.leg = op := h.2.2.1
theorem comes_active {op : Nat} (h : Comes s c op) : (ctx s c).r.state = .active := h.2.1
theorem comes_noFault {op : Nat} (h : Comes s c op) : (ctx s c).w.faulting = none := (canBegin_facts h.1).1

/-- A leg with a reserved field or value faults with 0x02 (R109, step 2). -/
theorem beginLeg_notOk {op : Nat} {act : State → State} (h : Comes s c op) (hl : legOk (ctx s c).r.leg = false) :
    beginLeg op c act s = faultPc c 0x02 s := by
  obtain ⟨hcan, -, hop, hdiv⟩ := h
  simp [beginLeg, hcan, hop, hdiv, hl]
/-- A leg with a fault of its own raises it, and does not act (R109, step 3). -/
theorem beginLeg_ownFault {op code : Nat} {act : State → State} (h : Comes s c op) (hl : legOk (ctx s c).r.leg = true)
    (hf : ownFault s c = some code) :
    beginLeg op c act s = faultPc c code (modW c (fun w => { w with legAt := some (startOf s c) }) s) := by
  obtain ⟨hcan, -, hop, hdiv⟩ := h
  simp [beginLeg, hcan, hop, hdiv, hl, ownFault_modW, hf]

theorem beginLeg_notOk_faults {op : Nat} {act : State → State} (h : Comes s c op) (hl : legOk (ctx s c).r.leg = false) :
    FaultsAt s c 0x02 (beginLeg op c act s) := by
  rw [beginLeg_notOk h hl]
  exact faultPc_faultsAt (comes_active h) (comes_noFault h)
theorem beginLeg_ownFault_faults {op code : Nat} {act : State → State} (h : Comes s c op) (hl : legOk (ctx s c).r.leg = true)
    (hf : ownFault s c = some code) : FaultsAt s c code (beginLeg op c act s) ∧ (beginLeg op c act s).queues = s.queues := by
  rw [beginLeg_ownFault h hl hf]
  refine ⟨faultsAt_of_modW (faultPc_faultsAt ?_ ?_), faultPc_queues⟩ <;> rw [ctx_modW_self]
  · exact comes_active h
  · exact comes_noFault h

end Sys2Proof.Laws
end

section
/-! PROOFS. Legs that fault at their check. -/

namespace Sys2Proof.Laws
open Sys2Proof.Machine

variable {s : State} {c : Fin 1024} {p : Instr × Nat}

/-- Every leg's command is that its leg begins, with the opcode that stands beside it. -/
theorem exec_leg (s : State) (c : Fin 1024) :
    ∀ p ∈ patternedLegs c ++ otherLegs c, ∃ act, exec p.1 s = .next (beginLeg p.2 c act s) := by
  simp only [patternedLegs, otherLegs, List.cons_append, List.nil_append, List.forall_mem_cons, List.not_mem_nil, IsEmpty.forall_iff,
    implies_true, and_true]
  and_intros <;> exact ⟨_, rfl⟩

theorem completes_notOk (hp : p ∈ patternedLegs c ++ otherLegs c) (h : Comes s c p.2) (hl : legOk (ctx s c).r.leg = false) :
    Completes p.1 s (FaultsAt s c 0x02) := by
  obtain ⟨act, he⟩ := exec_leg s c p hp
  exact ⟨_, he, beginLeg_notOk_faults h hl⟩
/-- A leg with a fault of its own completes in that fault, with every queue as it was. -/
theorem completes_ownFault {code : Nat} (hp : p ∈ patternedLegs c ++ otherLegs c) (h : Comes s c p.2)
    (hl : legOk (ctx s c).r.leg = true) (hf : ownFault s c = some code) :
    Completes p.1 s fun t => FaultsAt s c code t ∧ t.queues = s.queues := by
  obtain ⟨act, he⟩ := exec_leg s c p hp
  exact ⟨_, he, beginLeg_ownFault_faults h hl hf⟩
theorem completes_ownFault_faults {code : Nat} (hp : p ∈ patternedLegs c ++ otherLegs c) (h : Comes s c p.2)
    (hl : legOk (ctx s c).r.leg = true) (hf : ownFault s c = some code) : Completes p.1 s (FaultsAt s c code) := by
  obtain ⟨t, he, ht, -⟩ := completes_ownFault hp h hl hf
  exact ⟨t, he, ht⟩

theorem isPatterned_of_mem (hp : p ∈ patternedLegs c) : isPatterned p.2 = true := by
  have hops : (patternedLegs c).all (fun p => isPatterned p.2) = true := rfl
  exact List.all_eq_true.mp hops p hp
theorem mem_legs_of_queueLeg (hp : p ∈ [(Instr.mark c, 0x1A), (.rewind c, 0x1B), (.release c, 0x1C), (.waitq c, 0x32)]) :
    p ∈ patternedLegs c ++ otherLegs c ∧ p.2 ∈ [0x1A, 0x1B, 0x1C, 0x32] := by
  simp only [List.mem_cons, List.not_mem_nil, or_false] at hp
  rcases hp with rfl | rfl | rfl | rfl <;> simp [otherLegs]

/-- SCALE and REDUCE are left out: their limits are checked first, and fault with another code. -/
theorem paced_unbound_faults (hp : p ∈ patternedLegs c) (h14 : p.2 ≠ 0x14) (h15 : p.2 ≠ 0x15) (h : Comes s c p.2)
    (hl : legOk (ctx s c).r.leg = true) (hpace : paceOf (ctx s c).r.leg = true) (hr : legReqen s c = false) :
    Completes p.1 s (FaultsAt s c 0x06) := by
  have ho : opOf (ctx s c).r.leg = p.2 := comes_op h
  refine completes_ownFault_faults (List.mem_append_left _ hp) h hl (ownFault_unbound ?_ ?_ ?_ hr) <;> rw [ho]
  · exact h14
  · exact h15
  · rw [isPatterned_of_mem hp, hpace]; rfl

/-- Settles O12: each leg is `beginLeg` of its opcode, which raises 0x02 for a leg that is not legal and else the leg's
own fault, before it acts. -/
theorem legsFaultAtTheirCheck : Obligations.LegsFaultAtTheirCheck := by
  unfold Obligations.LegsFaultAtTheirCheck
  intro s c l
  refine ⟨?notOk, ?paced, ?waitreq, ?push, ?closed, ?signal, ?scale, ?reduce⟩
  case notOk => exact fun p hp h hl => completes_notOk hp h hl
  case paced =>
    intro p hp h hl hpace hr
    obtain ⟨hp, hop⟩ := List.mem_filter.mp hp
    obtain ⟨h14, h15⟩ := of_decide_eq_true hop
    exact paced_unbound_faults hp h14 h15 h hl hpace hr
  case waitreq =>
    intro h hl hr
    have ho : opOf (ctx s c).r.leg = 0x30 := comes_op h
    exact completes_ownFault_faults (p := (.waitreq c, 0x30)) (by simp [otherLegs]) h hl
      (ownFault_unbound (by simp [ho]) (by simp [ho]) (by simp [ho]) hr)
  case push =>
    exact fun h hl hp hq =>
      completes_ownFault (p := (.push c, 0x18)) (by simp [patternedLegs]) h hl (ownFault_push_closed (comes_op h) hp hq)
  case closed =>
    refine fun hq => ⟨fun h hl hp => ?_, fun p hp h hl => ?_⟩
    · exact completes_ownFault (p := (.pop c, 0x19)) (by simp [patternedLegs]) h hl (ownFault_pop_closed (comes_op h) hp hq)
    · obtain ⟨hmem, hop⟩ := mem_legs_of_queueLeg hp
      exact completes_ownFault hmem h hl (ownFault_queueLeg_closed (comes_op h ▸ hop) hq)
  case signal =>
    exact fun h hl hw hc =>
      completes_ownFault_faults (p := (.signal c, 0x33)) (by simp [otherLegs]) h hl (ownFault_signal_colour (comes_op h) hw hc)
  case scale =>
    exact fun h hl hb =>
      completes_ownFault_faults (p := (.scale c, 0x14)) (by simp [patternedLegs]) h hl (ownFault_scale_limits (comes_op h) hb)
  case reduce =>
    exact fun h hl hx hb =>
      completes_ownFault_faults (p := (.reduce c, 0x15)) (by simp [patternedLegs]) h hl (ownFault_reduce_limits (comes_op h) hx hb)

end Sys2Proof.Laws
end

section
/-! SUPPORT. What a read and the writes of Meridian's registers leave in it (R5, R235, R236, R239, R241). -/

namespace Sys2Proof.Laws
open Sys2Proof.Machine

variable {s u v : State}

/-! ### Meridian as the host target port finds it -/

theorem mer_of_open (H : Only openAreas s v) : v.mer = s.mer :=
  H .mer (by rintro ((((h | h) | ⟨_, h⟩) | (h | h) | h) | h) <;> cases h)
theorem mer_of_writeOpen (H : Only writeOpenAreas s v) : v.mer = s.mer :=
  H .mer (by rintro (((((h | h) | ⟨_, h⟩) | (h | h) | h) | h) | h) <;> cases h)
/-- On its way to Meridian a write meets the same count, without this ECLK's corrections too. -/
theorem merKept_of_writeOpen (H : Only writeOpenAreas s v) : merKept v = merKept s := by
  have hw : v.merWas = s.merWas := H .merWas (by rintro (((((h | h) | ⟨_, h⟩) | (h | h) | h) | h) | h) <;> cases h)
  have he : v.eclk = s.eclk := H .eclk (by rintro (((((h | h) | ⟨_, h⟩) | (h | h) | h) | h) | h) <;> cases h)
  unfold merKept
  rw [hw, he, mer_of_writeOpen H]

/-! ### The read of STE_MER_NOW -/

/-- What the host target port answers an initiator. -/
def answerTo (b : Initiator) (t : State) : HostResp :=
  match b with
  | .host => t.port.resp
  | .debug => t.port.dbgResp

@[simp] theorem answerTo_setResp (b : Initiator) (d : W64) (e : Bool) (u : State) : answerTo b (setResp b d e u) = ⟨d, e⟩ := by
  cases b <;> rfl
@[simp] theorem setResp_mer (b : Initiator) (d : W64) (e : Bool) (u : State) : (setResp b d e u).mer = u.mer := by cases b <;> rfl
@[simp] theorem setResp_snaps (b : Initiator) (d : W64) (e : Bool) (u : State) : (setResp b d e u).port.snaps = u.port.snaps := by
  cases b <;> rfl
@[simp] theorem portAnswer_mer (b : Initiator) (e : Bool) (u : State) : (portAnswer b e u).mer = u.mer := setResp_mer ..

theorem merWord_congr (h : u.mer = s.mer) : merWord u = merWord s := by simp only [merWord, merInt, h]
theorem merFrac_congr (h : u.mer = s.mer) : merFrac u = merFrac s := by simp only [merFrac, h]

/-- Either read captures the fraction (R235). -/
theorem nowRead_mer (b : Initiator) (w : Bool) (u : State) : (nowRead b w u).mer = { u.mer with frac := merFrac u } := by
  unfold nowRead
  cases w <;> exact setResp_mer ..
theorem answerTo_nowRead_wide (b : Initiator) (u : State) : answerTo b (nowRead b true u) = ⟨merWord u, false⟩ :=
  answerTo_setResp ..
theorem answerTo_nowRead_low (b : Initiator) (u : State) :
    answerTo b (nowRead b false u) = ⟨BitVec.ofNat 64 (fld (merWord u) 31 0), false⟩ := answerTo_setResp ..
theorem snapshot_snap (b : Initiator) (o : Nat) (w : W64) (u : State) :
    tget none (snapshot b o w u).port.snaps (keySnap b o) = some (BitVec.ofNat 32 (fld w 63 32)) := by
  simp only [snapshot, tget_tset_self]
/-- The read of the low word keeps the high one for the read that follows (R5). -/
theorem nowRead_low_snap (b : Initiator) (u : State) :
    tget none (nowRead b false u).port.snaps (keySnap b 0x3010) = some (BitVec.ofNat 32 (fld (merWord u) 63 32)) := by
  unfold nowRead
  rw [if_neg Bool.false_ne_true, setResp_snaps]
  exact snapshot_snap ..

/-! ### The writes -/

theorem rejected_mer (u : State) : (rejected u).mer = { u.mer with rej := true } := rfl
/-- The value waits for the next ECLK, or is rejected under fabric time (R236, R239). -/
theorem setMer_mer (x : W64) (u : State) :
    (setMer x u).mer = if u.mer.src = 1 then { u.mer with rej := true } else { u.mer with setPend := some x } := by
  unfold setMer
  by_cases h : u.mer.src = 1
  · rw [if_pos (beq_iff_eq.mpr h), if_pos h, rejected_mer]
  · rw [if_neg (mt beq_iff_eq.mp h), if_neg h]

/-- Meridian's records are no part of it. -/
@[simp] theorem merRec_mer (t d : Nat) (w : Int) (u : State) : (merRec t d w u).mer = u.mer :=
  merRec_only recIn_self only_refl .mer (by rintro (h | h) <;> cases h)

/-- The losing of SYNC leaves the count and its rate (R240). -/
theorem loseSync_mer (r : Nat) (u : State) : (loseSync r u).mer =
    { u.mer with sync := false, holdover := false, lock := if u.mer.sync then false else u.mer.lock } := by
  by_cases hs : u.mer.sync = true
  · simp only [loseSync, if_pos hs, merRec_mer]
  · simp only [loseSync, if_neg hs]

/-- Discarding this ECLK's corrections goes back to Meridian without them, but for what software has written (R241). -/
theorem dropCorr_mer (u : State) : (dropCorr u).mer =
    { merKept u with
      book := u.mer.book, recEn := u.mer.recEn, slew := u.mer.slew, hold := u.mer.hold, frac := u.mer.frac, setPend := u.mer.setPend,
      rej := u.mer.rej } := by
  cases hw : u.merWas with
  | none => simp only [dropCorr, merKept, hw]
  | some x =>
    obtain ⟨t, m, hs⟩ := x
    by_cases ht : t = u.eclk
    · simp only [dropCorr, merKept, hw, if_pos ht]
    · simp only [dropCorr, merKept, hw, if_neg ht]

/-- Meridian under its new source src: not synchronised, with nothing left to slew, and with the count and the rate of m. -/
def FreshSource (src : BitVec 2) (m m' : Mer) : Prop :=
  m'.src = src ∧ m'.sync = false ∧ m'.lock = false ∧ m'.remain = 0 ∧ m'.now = m.now ∧ m'.rate = m.rate

/-- A new source takes Meridian as it stood before this ECLK's corrections (R241). -/
theorem writeSrc_freshSource {src : BitVec 2} (h3 : src ≠ 3) (hn : src ≠ u.mer.src) : FreshSource src (merKept u) (writeSrc src u).mer := by
  have hnew : ¬(src == 3 || src == u.mer.src) = true := by
    rw [Bool.or_eq_true, beq_iff_eq, beq_iff_eq]
    exact not_or.mpr ⟨h3, hn⟩
  have hm := loseSync_mer 2 (dropCorr u)
  rw [dropCorr_mer] at hm
  unfold writeSrc
  rw [if_neg hnew]
  exact ⟨rfl, (congrArg Mer.sync hm :), rfl, rfl, (congrArg Mer.now hm :), (congrArg Mer.rate hm :)⟩

end Sys2Proof.Laws
end

section
/-! PROOFS. The registers of Meridian. -/

namespace Sys2Proof.Laws
open Sys2Proof.Machine

variable {s : State} {b : Initiator}

theorem completes_merNowRead {w : Bool} {P : State → Prop} (h : HostOpen s b false false 0x3010)
    (H : ∀ u, u.mer = s.mer → P (nowRead b w u)) : Completes (.merNowRead b w) s P :=
  completes_host h rfl fun v hv _ => H _ ((portAnswer_mer b false v).trans (mer_of_open hv))

/-- Settles O25: the port leaves Meridian to the register's own act, and SRC's goes back to Meridian without the corrections
of its ECLK. -/
theorem meridianIsReadAndSet : Obligations.MeridianIsReadAndSet := by
  unfold Obligations.MeridianIsReadAndSet
  refine ⟨fun s b h => ⟨?wide, ?low⟩, fun s b x src => ⟨fun h => ?set, fun h h3 hn => ?newSource⟩⟩
  case wide =>
    refine completes_merNowRead h fun u hu => ?_
    rw [← merWord_congr hu, ← merFrac_congr hu, ← hu]
    exact ⟨answerTo_nowRead_wide b u, nowRead_mer b true u⟩
  case low =>
    refine completes_merNowRead h fun u hu => ?_
    rw [← merWord_congr hu, ← merFrac_congr hu, ← hu]
    exact ⟨answerTo_nowRead_low b u, nowRead_mer b false u, nowRead_low_snap b u⟩
  case set =>
    refine completes_reg h rfl fun v hv => ?_
    rw [← mer_of_writeOpen hv]
    exact setMer_mer x v
  case newSource =>
    refine completes_reg h rfl fun v hv => ?_
    rw [← merKept_of_writeOpen hv]
    exact writeSrc_freshSource h3 (mer_of_writeOpen hv ▸ hn)

end Sys2Proof.Laws
end

section
/-! SUPPORT. What waits through an ECLK: the commands, the accesses that the host target port holds, and the write to the
management page that is still to take effect. The engine's own work leaves them. -/

namespace Sys2Proof.Laws
open Sys2Proof.Machine

variable {t u v w : State}

/-- What waits through an ECLK, and the ECLK: the commands, the accesses held at the host target port, and the write to the
management page that is not yet in force. -/
structure Waiting where
  commands : List Instr
  eclk : Nat
  early : List Instr
  mgtWait : Option Instr
def waits (u : State) : Waiting := ⟨u.pending, u.eclk, u.port.early, u.port.mgtWait⟩

/-- The area is none of the queue of commands, the ECLK and the host target port. -/
def isInner (p : Area) : Bool :=
  match p with
  | .pending | .eclk | .port | .resp => false
  | _ => true
/-- The areas of the engine within its boundary. -/
def innerAreas : Set Area := fun p => isInner p = true

theorem waits_of_only (H : Only innerAreas u t) : waits t = waits u := by
  have hp : t.pending = u.pending := H .pending Bool.false_ne_true
  have he : t.eclk = u.eclk := H .eclk Bool.false_ne_true
  have hh : { t.port with resp := {}, dbgResp := {} } = { u.port with resp := {}, dbgResp := {} } := H .port Bool.false_ne_true
  have hl : t.port.early = u.port.early := (congrArg HostPort.early hh :)
  have hm : t.port.mgtWait = u.port.mgtWait := (congrArg HostPort.mgtWait hh :)
  unfold waits
  rw [hp, he, hl, hm]

theorem legIn_inner (c : Nat) : LegIn c innerAreas :=
  { heldRecs := rfl, rdrop := rfl, err := fun _ => rfl, cache := rfl, grid := rfl, ctx := rfl, fetches := rfl, lcache := rfl,
    power := rfl, grat := rfl, lane := fun _ => ⟨rfl, rfl⟩, offered := rfl, outst := rfl, out := rfl, evo := fun _ => rfl }
theorem faultIn_inner (c : Nat) : FaultIn c innerAreas := (legIn_inner c).toFaultIn
theorem linkIn_inner : LinkIn innerAreas :=
  { toRecIn := (legIn_inner 0).toRecIn, err := fun _ => rfl, cache := rfl, grid := rfl, atlas := rfl, fab := rfl,
    link := fun _ => rfl, offered := rfl, outst := rfl, out := rfl, tele := rfl, leg := legIn_inner, queue := fun _ => rfl,
    spill := rfl, sync := rfl, mer := rfl }
theorem anyIn_inner : AnyIn innerAreas := linkIn_inner.toAnyIn
theorem sendIn_inner : SendIn innerAreas := anyIn_inner.toSendIn
theorem checkIn_inner : CheckIn innerAreas := sendIn_inner.toCheckIn
theorem accIn_inner (a : Acc) (u : State) : AccIn a u innerAreas := anyIn_inner.acc rfl (fun _ => rfl) a u
theorem laneIn_inner (l : Nat) (b : Burst) (_ : burstOn u l = some b) : LaneIn l b.ch innerAreas := anyIn_inner.laneIn l b.ch

theorem waits_ite {q : Prop} [Decidable q] (hv : waits v = waits u) (hw : waits w = waits u) :
    waits (if q then v else w) = waits u := by split <;> assumption
theorem waits_foldl {β : Type} {f : State → β → State} (hf : ∀ v x, waits (f v x) = waits v) (l : List β) (u : State) :
    waits (l.foldl f u) = waits u := by
  induction l generalizing u with
  | nil => rfl
  | cons x l ih => rw [List.foldl_cons, ih, hf]
theorem waits_eachLane {f : Nat → State → State} (hf : ∀ l v, waits (f l v) = waits v) (u : State) :
    waits (eachLane f u) = waits u := waits_foldl (fun v l => hf l v) _ u

/-! ### Errors, and lookups that complete -/

theorem waits_upsetWord (x : Upset) (u : State) : waits (upsetWord x u) = waits u := by
  have mark (k : Nat × Nat) : waits (loseWord.addBad k u) = waits u := waits_of_only (addBad_only rfl only_refl)
  unfold upsetWord
  split
  case h_1 => split <;> rfl
  case h_12 => rfl
  case h_13 => exact waits_ite rfl rfl
  case h_14 => rfl
  all_goals exact waits_ite rfl (waits_ite (waits_ite rfl rfl) (mark _))
theorem waits_applyUpsets (u : State) : waits (applyUpsets u) = waits u := waits_foldl (fun v x => waits_upsetWord x v) _ _

theorem waits_allowAcc (a : Acc) (k : Verdict) (u : State) : waits (allowAcc a k u) = waits u := by
  unfold allowAcc
  refine waits_ite ?_ rfl
  dsimp only
  split
  · exact waits_foldl (fun _ _ => waits_of_only (addCovered_only rfl only_refl)) _ _
  · rfl
theorem waits_allowOnly (a : Acc) (u : State) : waits (allowOnly a u) = waits u := by
  unfold allowOnly
  dsimp only
  split
  · split
    · split <;> rfl
    · rfl
  · rfl
theorem waits_settle (q : Ask) (f : Bool) (u : State) : waits (settle q f u).1 = waits u :=
  waits_of_only (settle_only checkIn_inner only_refl)
theorem waits_matureAcc (u : State) (a : Acc) : waits (matureAcc u a) = waits u := by
  unfold matureAcc
  split
  case h_1 q _ =>
    refine waits_ite rfl ?_
    have hq := waits_settle q false u
    generalize settle q false u = r at hq
    obtain ⟨t, k⟩ := r
    rw [← hq]
    dsimp only
    split
    · exact waits_of_only (denyAcc_only (accIn_inner a t) rfl only_refl)
    · exact waits_ite (waits_allowOnly a t) (waits_allowAcc a k t)
  case h_2 => rfl
theorem waits_denyFetch (f : Fetch) (u : State) : waits (denyFetch f u) = waits u := by
  unfold denyFetch
  split <;> rfl
theorem waits_matureFetch (u : State) (f : Fetch) : waits (matureFetch u f) = waits u := by
  unfold matureFetch
  refine waits_ite rfl ?_
  have hq := waits_settle (askFetch f) (decide (f.kind = .prefetch)) u
  generalize settle (askFetch f) (decide (f.kind = .prefetch)) u = r at hq
  obtain ⟨t, k⟩ := r
  rw [← hq]
  exact waits_ite rfl (waits_denyFetch f t)
theorem waits_lookups (u : State) : waits (lookups u) = waits u :=
  (waits_foldl waits_matureFetch _ _).trans (waits_foldl waits_matureAcc _ u)

/-! ### Accesses that are not to be issued -/

theorem waits_withdraw (a : Acc) (u : State) : waits (withdraw a u) = waits u := by
  unfold withdraw
  dsimp only
  split
  · exact waits_ite rfl rfl
  · rfl
  · rfl
theorem waits_trimAcc (u : State) (a : Acc) : waits (trimAcc u a) = waits u := by
  unfold trimAcc
  split
  · split
    · exact waits_ite (waits_withdraw a u) (waits_ite rfl rfl)
    · rfl
  · rfl
theorem waits_goHeld (c d : Nat) (x : GAddr) (u : State) : waits (goHeld c d x u) = waits u :=
  waits_of_only (goHeld_only rfl rfl only_refl)
theorem waits_noteDown (d n : Nat) (x : W32) (u : State) : waits (noteDown d n x u) = waits u :=
  waits_ite rfl ((waits_of_only (pdRec_only checkIn_inner.toRecIn only_refl)).trans rfl)
theorem waits_endsDown (a : Acc) (d : Nat) (u : State) : waits (endsDown a d u) = waits u := by
  unfold endsDown
  dsimp only
  split
  · exact (waits_of_only (inboundUnit_only sendIn_inner only_refl)).trans (waits_noteDown ..)
  · exact waits_ite ((waits_of_only (writeEnd_only (accIn_inner a _) only_refl)).trans (waits_noteDown ..))
      ((waits_of_only (readEnd_only (accIn_inner a _) only_refl)).trans (waits_noteDown ..))
theorem waits_meetsShut (a : Acc) (d : Nat) (u : State) : waits (meetsShut a d u) = waits u := by
  unfold meetsShut
  dsimp only
  split
  · exact waits_ite (waits_withdraw a u) (waits_withdraw a u)
  · exact waits_goHeld ..
  · exact waits_ite (waits_withdraw a u) (waits_goHeld ..)
  · exact waits_ite (waits_endsDown a d u) rfl
theorem waits_sweepOne (u : State) (a : Acc) : waits (sweepOne u a) = waits u := by
  unfold sweepOne
  refine waits_ite rfl ?_
  split
  · exact waits_meetsShut ..
  · rfl
theorem waits_sweep (u : State) : waits (sweep u) = waits u :=
  calc waits (sweep u)
    _ = waits (List.foldl sweepOne _ _) := waits_foldl waits_trimAcc _ _
    _ = waits (List.foldl trimAcc u _) := waits_foldl waits_sweepOne _ _
    _ = waits u := waits_foldl waits_trimAcc _ _

/-! ### Issue -/

theorem waits_storeIssued (c : Nat) (l : Bool) (u : State) : waits (storeIssued c l u) = waits u :=
  waits_ite (waits_of_only (finish_only (faultIn_inner c) (addEnergy_only rfl rfl (put_modW rfl only_refl)))) rfl
theorem waits_countIssue (a : Acc) (u : State) : waits (countIssue a u) = waits u := by
  unfold countIssue
  dsimp only
  split <;> rfl
theorem waits_issueAcc (a : Acc) (p : Nat) (u : State) : waits (issueAcc a p u) = waits u := by
  unfold issueAcc
  dsimp only
  split
  · split <;> exact waits_countIssue ..
  · exact (waits_storeIssued ..).trans (waits_countIssue ..)
  · exact waits_countIssue ..
theorem waits_issuePorts (first n : Nat) (rd wr : List Nat) (u : State) : waits (issuePorts first n rd wr u) = waits u := by
  induction n generalizing rd wr u with
  | zero => rfl
  | succ n ih =>
    unfold issuePorts
    dsimp only
    split
    · rfl
    · exact waits_ite ((ih ..).trans (waits_issueAcc ..)) ((ih ..).trans (waits_issueAcc ..))
theorem waits_sweepFetch (u : State) (f : Fetch) : waits (sweepFetch u f) = waits u := by
  unfold sweepFetch
  refine waits_ite rfl ?_
  split
  · exact waits_foldl (fun v c => waits_goHeld ..) _ _
  · exact waits_ite rfl rfl
theorem waits_issueFetch (u : State) : waits (issueFetch u) = waits u := by
  unfold issueFetch
  dsimp only
  split
  · rfl
  · split <;> rfl
theorem waits_countSent (l : List Acc) (u : State) : waits (countSent l u) = waits u :=
  waits_foldl (fun v a => by dsimp only; split <;> rfl) l u
theorem waits_sendAcc (a : Acc) (c : Nat) (u : State) : waits (sendAcc a c u) = waits u := by
  unfold sendAcc
  extract_lets us rt eld tag o fb v1 v2 v3
  have h2 : waits v2 = waits u := waits_countSent ..
  have h3 : waits v3 = waits u := waits_ite ((waits_of_only (routeFrame_only anyIn_inner only_refl)).trans h2)
    ((waits_of_only (outFails_only (anyIn_inner.ends _ _ _) (takeOut_only rfl only_refl))).trans h2)
  split
  · exact (waits_storeIssued ..).trans h3
  · exact h3
theorem waits_outOne (u : State) (a : Acc) : waits (outOne u a) = waits u := by
  unfold outOne
  split
  · exact waits_ite (waits_sendAcc ..) rfl
  · rfl
theorem waits_issueAll (u : State) : waits (issueAll u) = waits u := by
  refine waits_ite ?_ rfl
  calc waits (issueRemote (issueFetch (issuePorts _ 8 [] [] (sweep (u.fetches.foldl sweepFetch u)))))
    _ = waits (issueFetch _) := waits_foldl waits_outOne _ _
    _ = waits (issuePorts _ 8 [] [] _) := waits_issueFetch _
    _ = waits (sweep _) := waits_issuePorts ..
    _ = waits (u.fetches.foldl sweepFetch u) := waits_sweep _
    _ = waits u := waits_foldl waits_sweepFetch _ u

theorem waits_txPort (p : Nat) (u : State) : waits (txPort p u) = waits u := by
  unfold txPort
  dsimp only
  split
  · exact (waits_of_only (freeFlits_only (fun _ => rfl) only_refl)).trans (waits_ite rfl rfl)
  · rfl
theorem waits_txPorts (u : State) : waits (txPorts u) = waits u := waits_foldl (fun v p => waits_txPort p v) _ u

/-! ### The engine's other work -/

theorem waits_serveQueues (u : State) : waits (serveQueues u) = waits u := by
  unfold serveQueues
  refine (waits_foldl (fun v q => waits_of_only (hostStep_only (anyIn_inner.queueIn q) only_refl)) _ _).trans ?_
  refine (waits_eachLane (fun l v => waits_of_only (queueStep_only (laneIn_inner l) anyIn_inner.queueIn only_refl)) _).trans ?_
  exact waits_of_only (forceAll_only (fun _ => rfl) only_refl)
theorem waits_works (u : State) : waits (works u) = waits u := by
  refine waits_ite rfl ?_
  calc waits (eachLane advance (eachLane startCopy (serveQueues (lookups (handOvers (copyEnds (applyUpsets u)))))))
    _ = waits (eachLane startCopy _) := waits_eachLane (fun l v => waits_of_only (advance_only (laneIn_inner l) only_refl)) _
    _ = waits (serveQueues _) := waits_eachLane (fun l v => waits_of_only (startCopy_only (laneIn_inner l) rfl only_refl)) _
    _ = waits (lookups _) := waits_serveQueues _
    _ = waits (handOvers _) := waits_lookups _
    _ = waits (copyEnds _) := waits_of_only (handOvers_only faultIn_inner sendIn_inner rfl rfl only_refl)
    _ = waits (applyUpsets u) := waits_of_only (copyEnds_only checkIn_inner only_refl)
    _ = waits u := waits_applyUpsets u

theorem waits_endOfEclk (u : State) : waits (endOfEclk u) = waits u :=
  waits_ite rfl (waits_of_only (ctlEnd_only (fun c => ⟨legIn_inner c, rfl⟩) rfl
    (countArrivals_only checkIn_inner.toRecIn rfl (fun _ => rfl) (fun _ => rfl) (acceptHeld_only rfl rfl rfl faultIn_inner only_refl))))
theorem waits_merTick (u : State) : waits (merTick u) = waits u := by
  unfold merTick applySet
  dsimp only
  split
  · rfl
  · exact waits_ite ((waits_of_only (stepped_only ⟨checkIn_inner.toRecIn, rfl⟩ only_refl)).trans rfl) rfl
theorem waits_resetTick (u : State) : waits (resetTick u) = waits u := by
  unfold resetTick
  split
  · exact waits_ite rfl rfl
  · rfl
theorem waits_setReady (b : ReadyBit) (u : State) : waits (setReady b u) = waits u := by cases b <;> rfl
theorem waits_slotByNow (u : State) : waits (slotByNow u) = waits u := waits_ite rfl rfl
theorem waits_readyByNow (u : State) : waits (readyByNow u) = waits u :=
  waits_ite rfl (waits_ite (waits_foldl (fun v l => waits_setReady (.lane l) v) _ u) (waits_ite rfl rfl))

/-! ### Writes to the management page take effect -/

theorem waits_testGo (u : State) : waits (testGo u) = waits u := waits_of_only (testGo_only rfl only_refl)
theorem waits_writeFence (x : W32) (u : State) : waits (writeFence x u) = waits u :=
  waits_of_only (writeFence_only checkIn_inner.toRecIn rfl rfl only_refl)
theorem waits_splitWrite {w32 : Nat → W32 → State → State} {w64 : Nat → W64 → State → State}
    (h32 : ∀ o x v, waits (w32 o x v) = waits v) (h64 : ∀ o x v, waits (w64 o x v) = waits v) (b : Initiator) (o z : Nat) (d : W64)
    (u : State) : waits (splitWrite w32 w64 b o z d u) = waits u :=
  waits_ite (waits_ite (h64 ..) ((h32 ..).trans (h32 ..))) (waits_ite (h32 ..) (waits_ite rfl (h64 ..)))
theorem waits_writeMgt32 (o : Nat) (x : W32) (u : State) : waits (writeMgt32 o x u) = waits u := by
  unfold writeMgt32
  split
  · rfl
  · rfl
  · exact waits_ite (waits_testGo _) rfl
  · exact waits_ite rfl rfl
  · exact waits_writeFence x u
  · rfl
theorem waits_writeMgt64 (o : Nat) (x : W64) (u : State) : waits (writeMgt64 o x u) = waits u :=
  waits_ite (waits_ite rfl rfl) rfl
theorem waits_mgtEffect (i : Instr) (u : State) : waits (mgtEffect i u) = waits u := by
  unfold mgtEffect
  split
  · exact waits_writeFence ..
  · rfl
  · exact waits_testGo _
  · rfl
  · exact waits_splitWrite waits_writeMgt32 waits_writeMgt64 ..
  · rfl
/-- The write to the management page that waited waits no more. -/
theorem waits_mgtDue (u : State) : waits (mgtDue u) = { waits u with mgtWait := none } := by
  unfold mgtDue
  split
  case h_1 i _ => exact waits_mgtEffect i _
  case h_2 hn => exact congrArg (Waiting.mk u.pending u.eclk u.port.early) hn

/-! ### One ECLK -/

/-- In the first ECLK of an MCLK period no write to the management page waits any longer (R412). -/
theorem waits_mclkStart (u : State) :
    waits (if u.eclk % 4 = 0 then fencesAgain (mgtDue (fencesInForce u)) else u) =
      { waits u with mgtWait := if u.eclk % 4 = 0 then none else u.port.mgtWait } := by
  split
  · calc waits (fencesAgain (mgtDue (fencesInForce u)))
      _ = waits (mgtDue (fencesInForce u)) := waits_of_only (fencesAgain_only checkIn_inner.toErrIn rfl only_refl)
      _ = { waits (fencesInForce u) with mgtWait := none } := waits_mgtDue _
      _ = { waits u with mgtWait := none } := by rw [waits_of_only (fencesInForce_only linkIn_inner rfl only_refl)]
  · rfl

/-- One ECLK ends with the accesses held presented again, on a state in which what waited before it waits still, but for the
write to the management page that takes effect. -/
theorem tick_eq_represent (s : State) : ∃ u, tick s = represent u ∧
    waits u = { waits s with eclk := s.eclk + 1, mgtWait := if (s.eclk + 1) % 4 = 0 then none else s.port.mgtWait } := by
  unfold tick
  extract_lets u0 u1 u2 u3 u4 u5 u6
  have h2 : waits u2 = { waits s with eclk := s.eclk + 1 } :=
    calc waits u2
      _ = waits u1 := waits_resetTick u1
      _ = { waits u0 with eclk := s.eclk + 1 } := waits_merTick _
      _ = { waits s with eclk := s.eclk + 1 } := by rw [waits_endOfEclk s]
  have he : u2.eclk = s.eclk + 1 := congrArg Waiting.eclk h2
  have hm : u2.port.mgtWait = s.port.mgtWait := congrArg Waiting.mgtWait h2
  have h4 : waits u4 = waits u3 := waits_ite rfl ((waits_slotByNow _).trans (waits_readyByNow u3))
  have h5 : waits u5 = waits u4 :=
    (waits_works _).trans (waits_ite (waits_of_only (backNow_only (fun c => (legIn_inner c).toSeqIn) only_refl)) rfl)
  refine ⟨_, rfl, ?_⟩
  calc waits (txPorts (issueAll u6))
    _ = waits u6 := (waits_txPorts _).trans (waits_issueAll u6)
    _ = waits u3 := h5.trans h4
    _ = { waits u2 with mgtWait := if u2.eclk % 4 = 0 then none else u2.port.mgtWait } := waits_mclkStart u2
    _ = _ := by rw [h2, he, hm]

end Sys2Proof.Laws
end
section
/-! PROOFS. Accesses that the host target port does not accept yet. -/

namespace Sys2Proof.Laws
open Sys2Proof.Machine

variable {i : Instr} {s : State} {table : Bool} {off : Nat}

/-! ### An access that the port cannot accept is held -/

/-- While the port accepts no access to this place, the command is held, and nothing else comes of it. -/
def HeldAt (i : Instr) (table : Bool) (off : Nat) : Prop :=
  ∀ s, inReset s = false → portWaits s table off = true → exec i s = .next (hold i s)

theorem heldAt_of_hostAccess {b : Initiator} {wr : Bool} {act : State → State → State}
    (h : ∀ s, exec i s = .next (hostAccess b table wr off i (act s) s)) : HeldAt i table off :=
  fun s hr hw => (h s).trans (congrArg _ (hostAccess_held hr hw))

/-- An access of a size and alignment that the window does not accept is held like any other. -/
theorem heldAt_of_sizeOk {b : Initiator} {wr : Bool} {act : State → State} {z : Bool}
    (h : ∀ s, exec i s = .next (if z then hostAccess b table wr off i act s else badAccess b table off i s)) : HeldAt i table off := by
  intro s hr hw
  rw [h s, hostAccess_held hr hw, badAccess_held hr hw, ite_self]

theorem heldAt_hostRegisterWrite (b : Initiator) (off : W16) (size : Nat) (d : W64) (x : BitVec 512) :
    HeldAt (.hostRegisterWrite b off size d x) false off.toNat := by
  intro s hr hw
  simp only [exec, execHostRegisterWrite, mgtWrite]
  rw [hostAccess_held hr hw, hostAccess_held hr hw, badAccess_held hr hw, ite_self, ite_self]

theorem heldAt_lowWordRead (b : Initiator) (r : ReadAt) : HeldAt (.lowWordRead b r) false r.off.toNat :=
  heldAt_of_sizeOk fun _ => rfl

/-- Every access of the host target port goes to some place, and is held while the port accepts none there. -/
theorem exists_heldAt (h : isAccess i = true) : ∃ table off, HeldAt i table off := by
  cases i <;> cases h
  case lowWordRead b r => exact ⟨_, _, heldAt_lowWordRead b r⟩
  case hostRegisterWrite b off size d x => exact ⟨_, _, heldAt_hostRegisterWrite b off size d x⟩
  case hostTableRead => exact ⟨_, _, heldAt_of_sizeOk fun _ => rfl⟩
  case atlasStageWrite => exact ⟨_, _, heldAt_of_sizeOk fun _ => rfl⟩
  all_goals exact ⟨_, _, heldAt_of_hostAccess fun _ => rfl⟩

theorem completes_hold (h : HeldAt i table off) (hr : inReset s = false) (hw : portWaits s table off = true) :
    Completes i s fun t => t = { s with port := { s.port with early := s.port.early ++ [i] } } :=
  ⟨_, h s hr hw, rfl⟩

/-- Before ECLK 16 (R405) and in the ECLK of another access (R441) the port accepts nothing. -/
theorem portWaits_of_closed (h : s.eclk < 16 ∨ s.port.lastAt = some s.eclk) : portWaits s table off = true := by
  unfold portWaits
  rcases h with h | h <;> simp only [h, decide_true, Bool.true_or, Bool.or_true]
/-- An earlier write to the management page keeps every access to it waiting (R412, R441). -/
theorem portWaits_of_mgtPage (hp : mgtPage off = true) (h : s.eclk < s.port.mgtFrom) : portWaits s false off = true := by
  simp only [portWaits, hp, h, decide_true, Bool.not_false, Bool.and_true, Bool.or_true]

theorem mgtPage_eq_true (h : 0x7000 ≤ off) (h' : off < 0x8000) : mgtPage off = true := by
  simp only [mgtPage, h, h', decide_true, Bool.and_true]
theorem mgtPage_errcOff (k : Fin 50) : mgtPage (errcOff k 0) = true := by
  have hk := k.isLt
  apply mgtPage_eq_true <;> unfold errcOff <;> omega

/-- The reads and the writes of the management page's registers are held while the port accepts none to that page. -/
theorem heldAt_mgtPage (b : Initiator) (off : W16) (size : Nat) (d : W64) (x : BitVec 512) (k : Fin 50) (u : BitVec 5) (w : W32)
    (hp : mgtPage off.toNat = true) :
    ∀ i ∈ [Instr.lowWordRead b ⟨off, size⟩, .hostRegisterWrite b off size d x, .fenceWrite b w, .errcCfgWrite b k d, .selftestGo b u, .teleSnap b],
      ∃ o, mgtPage o = true ∧ HeldAt i false o := by
  simp only [List.forall_mem_cons, List.not_mem_nil, IsEmpty.forall_iff, implies_true, and_true]
  refine ⟨⟨_, hp, heldAt_lowWordRead b ⟨off, size⟩⟩, ⟨_, hp, heldAt_hostRegisterWrite b off size d x⟩, ⟨0x7080, rfl, ?fence⟩,
    ⟨_, mgtPage_errcOff k, ?errc⟩, ⟨0x7020, rfl, ?selftest⟩, ⟨0x7040, rfl, ?tele⟩⟩
  all_goals exact heldAt_of_hostAccess fun _ => rfl

/-! ### The accesses held go on -/

theorem represent_of_lt {u : State} (h : u.eclk < 16) : represent u = u := if_pos h
theorem represent_of_le {u : State} (h : 16 ≤ u.eclk) :
    represent u = { u with pending := u.pending ++ hostFirst u.port.early, port := { u.port with early := [] } } := if_neg (by omega)
theorem represent_mgtWait (u : State) : (represent u).port.mgtWait = u.port.mgtWait := by
  unfold represent
  split <;> rfl

theorem step_idle (h : s.pending = []) : step s = .next (tick s) := by
  unfold step
  rw [h]

/-- Settles O52: each access goes to a place where the port accepts none now, so that it is held; and the tick of an empty queue
(log entry 2) leaves what waits, until from ECLK 16 on it presents the accesses held again, in the order of log entry 19. -/
theorem earlyAccessesAreHeld : Obligations.EarlyAccessesAreHeld := by
  unfold Obligations.EarlyAccessesAreHeld
  refine ⟨?held, ?mgtPage, fun s hp => ?idle⟩
  case held =>
    intro i s hi hr hw
    obtain ⟨table, off, hg⟩ := exists_heldAt hi
    exact completes_hold hg hr (portWaits_of_closed hw)
  case mgtPage =>
    intro s b off size d x k u w hlo hhi hr hw i hi
    obtain ⟨o, ho, hg⟩ := heldAt_mgtPage b off size d x k u w (mgtPage_eq_true hlo hhi) i hi
    exact completes_hold hg hr (portWaits_of_mgtPage ho hw)
  case idle =>
    obtain ⟨v, hv, hw⟩ := tick_eq_represent s
    have hpend : v.pending = [] := (congrArg Waiting.commands hw).trans hp
    have heclk : v.eclk = s.eclk + 1 := congrArg Waiting.eclk hw
    have hearly : v.port.early = s.port.early := congrArg Waiting.early hw
    have hmgt : v.port.mgtWait = if (s.eclk + 1) % 4 = 0 then none else s.port.mgtWait := congrArg Waiting.mgtWait hw
    have hstep : step s = .next (represent v) := (step_idle hp).trans (congrArg _ hv)
    refine ⟨fun h => ⟨_, hstep, ?_⟩, fun h => ⟨_, hstep, ?_⟩, _, hstep, (represent_mgtWait v).trans hmgt⟩
    · rw [represent_of_lt (heclk ▸ h)]
      exact ⟨hpend, hearly⟩
    · rw [represent_of_le (heclk ▸ h), hpend, hearly]
      exact ⟨rfl, rfl⟩

end Sys2Proof.Laws
end

section
/-! SUPPORT. The frame of every command that a leg gives. -/

namespace Sys2Proof.Laws
open Sys2Proof.Machine

variable {S : Set Area} {s t u : State} {i : Instr}

/-- The frame of what a command answers. -/
theorem only_next (h : (Host.Outcome.next u : Host.Outcome State Fault Refusal) = .next t) (H : Only S s u) : Only S s t := by
  cases h; exact H

theorem faultIn_leg (c : Nat) : FaultIn c (legAreas c) := (legIn_self c).toFaultIn

/-- A leg that acts on its own channel alone. -/
theorem beginLeg_own {c op : Nat} {act : State → State} (ha : ∀ {v}, Only (legAreas c) s v → Only (legAreas c) s (act v)) :
    Only (legAreas c) s (beginLeg op c act s) := beginLeg_only (faultIn_leg c) ha only_refl
/-- A leg that runs in bursts. -/
theorem patterned_only (op c : Nat) : Only (legAreas c) s (beginLeg op c (beginPatterned c) s) :=
  beginLeg_own fun H => beginPatterned_only (faultIn_leg c).ctx H
/-- A leg that waits for what its own leg word names. -/
theorem waitLeg_only (op c : Nat) (d : Leg → WaitDesc) :
    Only (legAreas c) s (beginLeg op c (fun v => waitFor c (d (ctx v c).r.leg) (timeoutOf (ctx v c).r.leg) v) s) :=
  beginLeg_own fun H => waitFor_only (legIn_self c) H

/-- A leg that goes on once it has acted on the queue that it names. -/
theorem queueLeg_only {op c : Nat} {act : Nat → State → State}
    (ha : ∀ {q S v}, QueueIn q S → Only S s v → Only S s (act q v)) :
    Only (fun p => legAreas c p ∨ queueAreas (popQueue (ctx s c).r.leg) p) s
      (beginLeg op c (fun v => finish c (act (popQueue (ctx v c).r.leg) v)) s) := by
  have hf : FaultIn c (fun p => legAreas c p ∨ queueAreas (popQueue (ctx s c).r.leg) p) := (faultIn_leg c).mono fun _ h => .inl h
  refine beginLeg_at hf (fun {v} hl H => finish_only hf (ha ?_ H)) only_refl
  exact queueIn' hl fun _ h => .inr h

theorem signalLeg_only (c : Nat) :
    Only (fun p => legAreas c p ∨ signalAreas (ctx s c).r.leg p) s (beginLeg 0x33 c (signal c) s) := by
  have hf : FaultIn c (fun p => legAreas c p ∨ signalAreas (ctx s c).r.leg p) := (faultIn_leg c).mono fun _ h => .inl h
  exact beginLeg_at hf (fun hl H => signal_only (signalIn' hl hf fun _ h => .inr h) H) only_refl

/-- END asks for its own word, or its divert is taken. -/
theorem endLeg_only (c : Nat) :
    Only (legAreas c) s (beginLeg 0x4F c (fun v => if divertHeld v c then takeDivert c true v else startEndRead c v) s) :=
  beginLeg_own fun H => only_ite (takeDivert_only (faultIn_leg c).toSeqIn H) (startEndRead_only (faultIn_leg c).toSeqIn H)

theorem exec_leg_only (hi : isLegCmd i = true) (h : exec i s = .next t) : Only (legMay i s) s t := by
  have F := faultIn_leg
  cases i <;> cases hi
  case move c => exact only_next h (patterned_only _ c)
  case fill c => exact only_next h (patterned_only _ c)
  case cmp c => exact only_next h (patterned_only _ c)
  case cmpk c => exact only_next h (patterned_only _ c)
  case scale c => exact only_next h (patterned_only _ c)
  case reduce c => exact only_next h (patterned_only _ c)
  case movex c => exact only_next h (patterned_only _ c)
  case push c => exact only_next h (patterned_only _ c)
  case pop c => exact only_next h (patterned_only _ c)
  case mark c => exact only_next h (queueLeg_only fun hq H => markQ_only hq H)
  case rewind c => exact only_next h (queueLeg_only fun hq H => rewindQ_only hq.queue H)
  case release c => exact only_next h (queueLeg_only fun hq H => releaseQ_only hq H)
  case pattern c => exact only_next h (beginLeg_own fun H => finish_only (F c) (put_modR (F c).ctx H))
  case scalecfg c => exact only_next h (beginLeg_own fun H => finish_only (F c) (put_modR (F c).ctx H))
  case waitreq c => exact only_next h (waitLeg_only _ c fun l => .request (fld l.w1 15 0 + 1))
  case waittime c => exact only_next h (beginLeg_own fun H => waittime_only (legIn_self c) H)
  case waitq c => exact only_next h (waitLeg_only _ c queueCond)
  case barrier c => exact only_next h (waitLeg_only _ c fun l => .barrierLeg (bit l.w1 0))
  case signal c => exact only_next h (signalLeg_only c)
  case log c => exact only_next h (beginLeg_own fun H => logLeg_only (F c) H)
  case jump c => exact only_next h (beginLeg_own fun H => finishTo_only (F c) H)
  case call c => exact only_next h (beginLeg_own fun H => callLeg_only (F c) H)
  case ret c => exact only_next h (beginLeg_own fun H => finishTo_only (F c) (put_modR (F c).ctx H))
  case branch c => exact only_next h (beginLeg_own fun H => branchLeg_only (F c) H)
  case loop c => exact only_next h (beginLeg_own fun H => loopLeg_only (F c) H)
  case load c => exact only_next h (beginLeg_own fun H => loadLeg_only (F c) H)
  case store c => exact only_next h (beginLeg_own fun H => storeLeg_only (F c) H)
  case endLeg c => exact only_next h (endLeg_only c)
  case nop c => exact only_next h (beginLeg_own fun H => finish_only (F c) H)
  case illegalLeg c => exact only_next h (illegalLeg_only (F c) only_refl)
  case waitSatisfied c => exact only_next h (waitSatisfied_only (legIn_self c) only_refl)
  case waittimeTargetReached c => exact only_next h (targetReached_only (legIn_self c) only_refl)
  case waitDeadlineReached c => exact only_next h (deadlineEnds_only (legIn_self c) only_refl)

/-- Settles O54: a leg's command begins its leg, which acts within its own areas. -/
theorem legCommandsChangeOnlyTheirs : Obligations.LegCommandsChangeOnlyTheirs := by
  unfold Obligations.LegCommandsChangeOnlyTheirs
  exact fun i s t hi h => exec_leg_only hi h

end Sys2Proof.Laws
end

section
/-! SUPPORT. The frame of every access of the host target port. -/

namespace Sys2Proof.Laws
open Sys2Proof.Machine

variable {S : Set Area} {s t u : State} {i : Instr} {b : Initiator}

/-- What an access of the port changes, its register's part with the port's own. -/
def portMay (i : Instr) : Set Area := fun p => hostAreas p ∨ accessMay i p

theorem hostIn_port (i : Instr) : HostIn (portMay i) := hostIn_self.mono fun _ h => .inl h

/-- A write of a register. -/
theorem reg_only {o : Nat} {k : Instr} {act : State → State}
    (ha : ∀ {v}, Only (portMay i) s v → Only (portMay i) s (act v)) : Only (portMay i) s (regWrite b o k act s) :=
  regWrite_only (hostIn_port i) ha only_refl
/-- An access of any kind. -/
theorem port_only {tb wr : Bool} {o : Nat} {k : Instr} {act : State → State}
    (ha : ∀ {v}, Only (portMay i) s v → Only (portMay i) s (act v)) : Only (portMay i) s (hostAccess b tb wr o k act s) :=
  hostAccess_only (hostIn_port i) ha only_refl
theorem port_bad {tb : Bool} {o : Nat} {k : Instr} : Only (portMay i) s (badAccess b tb o k s) := badAccess_only (hostIn_port i) only_refl
theorem port_mgt {o : Nat} {k : Instr} : Only (portMay i) s (mgtWrite b o k s) := mgtWrite_only (hostIn_port i) only_refl

theorem merIn_port (h : accessMay i .mer) : MerIn (portMay i) := ⟨(hostIn_port i).toRecIn, .inr h⟩
theorem queueIn_port {q : Nat} (h : queueAreas q ⊆ accessMay i) : QueueIn q (portMay i) := (queueIn_self q).mono fun _ hp => .inr (h hp)
theorem tableIn_port (hf : accessMay i .fab) (hs : accessMay i .sync) (hm : accessMay i .mer) : TableIn (portMay i) :=
  ⟨hostIn_port i, .inr hf, .inr hs, .inr hm⟩
theorem fabIn_port (h : fabAreas ⊆ accessMay i) : FabIn (portMay i) := fabIn_self.mono fun _ hp => .inr (h hp)
theorem writeIn_port (h : writeAreas ⊆ accessMay i) : WriteIn (portMay i) := writeIn_self.mono fun _ hp => .inr (h hp)

theorem exec_access_only (hi : isAccess i = true) (h : exec i s = .next t) : Only (portMay i) s t := by
  have C := fun i => (hostIn_port i).toCheckIn
  cases i <;> cases hi
  case chStart => exact only_next h (reg_only fun H => control_only (.inr rfl) H)
  case chDrain => exact only_next h (reg_only fun H => control_only (.inr rfl) H)
  case chPause => exact only_next h (reg_only fun H => control_only (.inr rfl) H)
  case chResume => exact only_next h (reg_only fun H => control_only (.inr rfl) H)
  case chAbort => exact only_next h (reg_only fun H => control_only (.inr rfl) H)
  case chWake => exact only_next h (reg_only fun H => control_only (.inr rfl) H)
  case chDivert => exact only_next h (reg_only fun H => control_only (.inr rfl) H)
  case chLegendWrite =>
    exact only_next h (reg_only fun H =>
      writeLegend_only (.inr (.inl rfl)) (.inr (.inr (.inl rfl))) (.inr (.inr (.inr (.inl rfl)))) (.inr (.inr (.inr (.inr rfl)))) H)
  case chRearmClr => exact only_next h (reg_only fun H => clearRearm_only (.inr rfl) H)
  case swreq => exact only_next h (reg_only fun H => swreq_only (.inr rfl) H)
  case reqinClrcnt => exact only_next h (reg_only fun H => clearOvr_only (.inr rfl) H)
  case reqinConfigWrite => exact only_next h (reg_only fun H => writeReqin_only (.inr (.inl rfl)) (.inr (.inr rfl)) H)
  case swpulse => exact only_next h (reg_only fun H => fireEvo_only (.inr rfl) H)
  case evoConfigWrite => exact only_next h (reg_only fun H => writeEvo_only (.inr rfl) H)
  case tagClrhw => exact only_next h (reg_only fun H => clearTagHw_only (.inr rfl) H)
  case merNowRead => exact only_next h (port_only fun H => nowRead_only (hostIn_port _) (.inr rfl) H)
  case merSet => exact only_next h (reg_only fun H => setMer_only (.inr rfl) H)
  case merAdj => exact only_next h (reg_only fun H => adjMer_only (merIn_port (.inl rfl)) (.inr (.inr rfl)) H)
  case merSrcChange => exact only_next h (reg_only fun H => writeSrc_only (merIn_port (.inl rfl)) (.inr (.inr rfl)) H)
  case insert => exact only_next h (reg_only fun H => gratCmd_only (.inr rfl) H)
  case delete => exact only_next h (reg_only fun H => gratCmd_only (.inr rfl) H)
  case replace => exact only_next h (reg_only fun H => gratCmd_only (.inr rfl) H)
  case gratEnable => exact only_next h (reg_only fun H => gratOn_only (.inr rfl) H)
  case gratClrcnt => exact only_next h (reg_only fun H => gratClear_only (.inr rfl) H)
  case bookEnable => exact only_next h (reg_only fun H => enableBook_only (.inr rfl) H)
  case bookRidxWrite => exact only_next h (reg_only fun H => writeRidx_only (.inr rfl) H)
  case hostPush => exact only_next h (reg_only fun H => pushHost_only (queueIn_port fun _ h => h) H)
  case hostPushend => exact only_next h (reg_only fun H => pushHost_only (queueIn_port fun _ h => h) H)
  case hostPop =>
    exact only_next h (port_only fun H =>
      popHost_only (queueIn_port fun _ h => h) (hostIn_port _).resp (hostIn_port _).port H)
  case queueReset => exact only_next h (reg_only fun H => writeQcfg_only (queueIn_port fun _ h => .inl h) (.inr (.inr rfl)) H)
  case unmark => exact only_next h (reg_only fun H => unmarkQ_only (queueIn_port fun _ h => h) H)
  case spillBaseWrite =>
    exact only_next h (reg_only fun H => writeSpillBase_only (fun q => .inr (.inl ⟨q, rfl⟩)) (.inr (.inr (.inl rfl)))
      (.inr (.inr (.inr (.inl rfl)))) (.inr (.inr (.inr (.inr (.inl rfl))))) (.inr (.inr (.inr (.inr (.inr rfl))))) H)
  case spillClrhw => exact only_next h (reg_only fun H => clearHwm_only (.inr rfl) H)
  case atlasStageWrite =>
    have T := fun a o z d => tableIn_port (i := .atlasStageWrite a o z d) (.inl rfl) (.inr (.inl rfl)) (.inr (.inr rfl))
    exact only_next h (only_ite (port_only fun H => tableWrite_only (T _ _ _ _) H) port_bad)
  case commitGo => exact only_next h (reg_only fun H => commitGo_only (C _) H)
  case atlasClrcnt => exact only_next h (reg_only fun H => clearAtlas_only (C _) H)
  case globalResume => exact only_next h (reg_only fun H => globalResume_only (haltIn_self.mono fun _ h => .inr h) H)
  case fenceWrite => exact only_next h port_mgt
  case errcCfgWrite => exact only_next h port_mgt
  case portEnable => exact only_next h (reg_only fun H => enablePort_only (linkIn_self.mono fun _ h => .inr h) H)
  case surveyGo => exact only_next h (reg_only fun H => surveyGo_only (fabIn_port fun _ h => h) H)
  case routeLoadGo => exact only_next h (reg_only fun H => writeLoad_only (fabIn_port fun _ h => h) H)
  case routeTableWrite =>
    have T := fun a n v => tableIn_port (i := .routeTableWrite a n v) (.inl rfl) (.inr (.inl rfl)) (.inr (.inr rfl))
    exact only_next h (port_only fun H => writeRoute_only (T _ _ _) H)
  case portClrst => exact only_next h (reg_only fun H => clearPstat_only (.inr rfl) H)
  case engineResetRequest => exact only_next h (reg_only fun H => resetRequest_only (.inr rfl) H)
  case spreadWrite => exact only_next h (reg_only fun H => writeSpread_only (.inr rfl) H)
  case legInvWrite => exact only_next h (reg_only fun H => invalidate_only (.inr (.inl rfl)) (.inr (.inr rfl)) H)
  case selftestGo => exact only_next h port_mgt
  case teleSnap => exact only_next h port_mgt
  case hostTableRead =>
    exact only_next h (only_ite (port_only fun H => tableRead_only (hostIn_port _) (.inr rfl) H) port_bad)
  case hostRegisterWrite =>
    exact only_next h (only_ite port_bad (only_ite port_mgt
      (port_only fun H => registerWrite_only (writeIn_port (i := .hostRegisterWrite _ _ _ _ _) fun _ h => h) H)))
  case lowWordRead =>
    exact only_next h (only_ite (port_only fun H => windowRead_only (hostIn_port _) (.inr (.inl rfl))
      (fun q => queueIn_port fun _ h => .inr ⟨q, h⟩) H) port_bad)

end Sys2Proof.Laws
end

section
/-! SUPPORT. The frame of every command of the links. -/

namespace Sys2Proof.Laws
open Sys2Proof.Machine

variable {S : Set Area} {s t u : State} {i : Instr}

/-- The frame of what a well-formed command answers. -/
theorem only_guard {b : Bool} {f : Fault}
    (h : (if b then .next u else .fault f : Host.Outcome State Fault Refusal) = .next t) (H : Only S s u) : Only S s t := by
  cases b
  · cases h
  · exact only_next h H

/-- A frame that comes by a link, and that the router acts on within the areas of its command. -/
theorem rx_only {p k l : Nat} {f : Frame} (hs : SendIn S) (ha : ∀ {v}, Only S s v → Only S s (act p k l f v)) :
    Only S s (receiveAt p k l f s) := receiveAt_act hs ha only_refl

theorem exec_link_only (hi : isLinkCmd i = true) (h : exec i s = .next t) : Only (linkMay i) s t := by
  cases i <;> cases hi
  case remoteTimeout => exact only_next h (remoteTimeout_only anyIn_self only_refl)
  case linkUp => exact only_next h (linkUp_only sendIn_self only_refl)
  case linkDown => exact only_next h (linkDown_only linkIn_self only_refl)
  case rxWrs => exact only_next h (rx_only fabIn_self.toSendIn fun H => inWrs_only fabIn_self H)
  case rxWr => exact only_guard h (rx_only fabIn_self.toSendIn fun H => inWr_only fabIn_self H)
  case rxRd => exact only_next h (rx_only fabIn_self.toSendIn fun H => inRd_only fabIn_self H)
  case destResponseTimeout => exact only_next h (destTimeout_only sendIn_self only_refl)
  case rxEv =>
    have hs : SendIn (fun p => sendAreas p ∨ p = .arrivals) := sendIn_self.mono fun _ h => .inl h
    exact only_next h (rx_only hs fun H => inEv_only hs (.inr rfl) H)
  case rxAck =>
    have hf : FabIn (fun p => fabAreas p ∨ someCtx p) := fabIn_self.mono fun _ h => .inl h
    exact only_next h (rx_only hf.toSendIn fun H => cameAck_only hf (fun c => .inr ⟨c, rfl⟩) H)
  case rxNak => exact only_next h (rx_only anyIn_self.toSendIn fun H => cameNak_only anyIn_self H)
  case rxRdr => exact only_next h (rx_only anyIn_self.toSendIn fun H => cameRdr_only anyIn_self H)
  case rxSynq => exact only_next h (rx_only sendIn_self fun H => cameSynq_only (sendIn_self.link _) H)
  case rxSynr =>
    have hs : SendIn (fun p => sendAreas p ∨ p = .sync ∨ p = .mer ∨ p = .merWas) := sendIn_self.mono fun _ h => .inl h
    have hm : MerIn (fun p => sendAreas p ∨ p = .sync ∨ p = .mer ∨ p = .merWas) := ⟨hs.toRecIn, .inr (.inr (.inl rfl))⟩
    exact only_next h (rx_only hs fun H => cameSynr_only hm (.inr (.inr (.inr rfl))) (.inr (.inl rfl)) H)
  case syncExchange => exact only_next h (syncExchange_only (.inl rfl) (fun q => .inr ⟨q, rfl⟩) only_refl)
  case synrTimeout => exact only_next h (synrTimeout_only (.inl rfl) (.inr rfl) only_refl)
  case rxSv => exact only_guard h (rx_only sendIn_self fun H => cameSv_only sendIn_self H)
  case rxSvr => exact only_guard h (rx_only fabIn_self.toSendIn fun H => cameSvr_only fabIn_self H)
  case svTimeout => exact only_next h (svTimeout_only fabIn_self only_refl)
  case rxRl =>
    have hs : SendIn (fun p => sendAreas p ∨ p = .sync ∨ p = .mer) := sendIn_self.mono fun _ h => .inl h
    exact only_guard h (rx_only hs fun H => cameRl_only hs (.inr (.inl rfl)) (.inr (.inr rfl)) H)
  case rlTimeout => exact only_next h (rlTimeout_only fabIn_self only_refl)
  case rxNote => exact only_next h (rx_only sendIn_self fun H => cameNote_only sendIn_self H)
  case rxReservedKind => exact only_guard h (rx_only sendIn_self fun H => refuse_only sendIn_self.toRecIn sendIn_self.fab H)
  case frameForward => exact only_guard h (receive_only actIn_self only_refl)
  case frameCrcFail =>
    exact only_guard h (crcFail_only (errIn_self.mono fun _ h => .inl h) (fun q => .inr ⟨q, rfl⟩) only_refl)
  case nakWord => exact only_next h (nakWord_only rfl only_refl)
  case ackWord => exact only_next h (ackWord_only rfl only_refl)
  case creditWord => exact only_next h (creditWord_only rfl only_refl)
  case identWord => exact only_next h (identWord_only sendIn_self only_refl)
  case skipDue => exact only_next h (skipDue_only rfl only_refl)
  case identDue => exact only_next h (identDue_only rfl only_refl)

end Sys2Proof.Laws
end

section
/-! SUPPORT. The frame of every step of the engine's own, of the pins and of the resets. -/

namespace Sys2Proof.Laws
open Sys2Proof.Machine

variable {S : Set Area} {s t u : State} {i : Instr}

/-! ### The ends of accesses -/

theorem accEnd_only {a : Acc} {tag : Nat} {r : Option (W128 × Bool)} : Only accAreas s (readEnd a r (freeTag tag s)) :=
  readEnd_only (accIn_self a _) (freeTag_only (.inl anyIn_self.outst) only_refl)
theorem accWritten_only {a : Acc} {tag : Nat} {ok : Bool} : Only accAreas s (writeEnd a ok (freeTag tag s)) :=
  writeEnd_only (accIn_self a _) (freeTag_only (.inl anyIn_self.outst) only_refl)

theorem readResponse_only {tag : Nat} {r : ReadResp} (h : execReadResponse tag r s = .next t) : Only accAreas s t := by
  unfold execReadResponse at h
  split at h
  · split at h
    · exact only_next h only_refl
    · exact only_next h accEnd_only
  · exact only_next h only_refl
theorem writeResponse_only {tag : Nat} {r : WriteResp} (h : execWriteResponse tag r s = .next t) : Only accAreas s t := by
  unfold execWriteResponse at h
  split at h
  · split at h
    · exact only_next h accWritten_only
    · exact only_next h only_refl
  · exact only_next h only_refl
theorem spillResponse_only {tag : Nat} {r : ReadResp} (h : execSpillResponse tag r s = .next t) : Only accAreas s t := by
  unfold execSpillResponse at h
  split at h
  · split at h
    · split at h
      · exact only_next h accWritten_only
      · exact only_next h accEnd_only
    · exact only_next h only_refl
  · exact only_next h only_refl

/-! ### Bursts -/

theorem burstGrant_only (h : execBurstGrant s = .next t) :
    Only (fun p => p = .rr ∨ p = .tags ∨ ∃ l c, nextGrant s = some (l, c) ∧ laneAreas l c p) s t := by
  unfold execBurstGrant at h
  split at h
  · refine only_next h (grant_only (fun l c hg => (laneIn_self l c).mono ?_) (.inl rfl) (.inr (.inl rfl)) only_refl)
    exact fun _ hp => .inr (.inr ⟨l, c, hg, hp⟩)
  · exact only_next h only_refl
theorem copyDone_only {l : Nat} {r : CopyResp} (h : execInClusterCopyDone l r s = .next t) :
    Only (fun p => p = .lane l ∨ p = .lanes ∨ ∃ b, burstOn s l = some b ∧ p = .ctx b.ch) s t := by
  unfold execInClusterCopyDone at h
  split at h
  · split at h
    · exact only_next h (noteAcc_only (.inr (.inr ⟨_, ‹_›, rfl⟩)) (put_setLane ⟨.inl rfl, .inr (.inl rfl)⟩ only_refl))
    · exact only_next h only_refl
  · exact only_next h only_refl
theorem burstReturn_only {l : Nat} (h : execBurstReturn l s = .next t) :
    Only (fun p => ∃ b, burstOn s l = some b ∧ (legAreas b.ch p ∨ p = .tele)) s t := by
  unfold execBurstReturn at h
  split at h
  · rename_i b hb
    split at h
    · exact only_next h (applyReturn_only ((legIn_self b.ch).mono fun _ hp => ⟨b, hb, .inl hp⟩) ⟨b, hb, .inr rfl⟩ only_refl)
    · exact only_next h only_refl
  · exact only_next h only_refl
theorem loadDataReturn_only {c : Nat} (h : execLoadDataReturn c s = .next t) : Only (fun p => faultAreas c p ∨ p = .tele) s t := by
  have hf : FaultIn c (fun p => faultAreas c p ∨ p = .tele) := (faultIn_self c).mono fun _ h => .inl h
  unfold execLoadDataReturn at h
  dsimp only at h
  split at h
  · exact only_next h (loadReturn_only hf (addEnergy_only hf.ctx (.inr rfl) only_refl))
  · exact only_next h only_refl

/-! ### The pager -/

/-- What the end of a transfer may change. -/
def pagerAreas : Set Area := fun p =>
  (∃ c, controlAreas c p) ∨ (∃ c, p = .legend c) ∨ p = .legends ∨ p = .swap ∨ p = .glob ∨ p = .ctl ∨ p = .atlas

theorem pagerIn_self : PagerIn pagerAreas where
  ctl c := (controlIn_self c).mono fun _ h => .inl ⟨c, h⟩
  fault c := ((controlIn_self c).mono fun _ h => .inl ⟨c, h⟩).toFaultIn
  legend c := .inr (.inl ⟨c, rfl⟩)
  legends := .inr (.inr (.inl rfl))
  swap := .inr (.inr (.inr (.inl rfl)))
  glob := .inr (.inr (.inr (.inr (.inl rfl))))
  ctls := .inr (.inr (.inr (.inr (.inr (.inl rfl)))))
  atlas := .inr (.inr (.inr (.inr (.inr (.inr rfl)))))

/-! ### Resets -/

theorem mem_resetAreas {p : Area} :
    p ∈ resetAreas ↔ p ≠ .pending ∧ p ≠ .straps ∧ p ≠ .free ∧ p ≠ .nextTag ∧ p ≠ .upsets := Iff.rfl
/-- A reset keeps the commands that wait, the wiring, the errors that come in, and the model's own counts. -/
theorem reset_only (hp : t.pending = s.pending) (hs : t.straps = s.straps) (hf : t.free = s.free) (hn : t.nextTag = s.nextTag)
    (hu : t.upsets = s.upsets) : Only resetAreas s t := by
  intro p hp'
  cases p <;> first | assumption | exact absurd (by simp [mem_resetAreas]) hp'

theorem resetWaitEnd_only : Only resetAreas s (resetWaitEnd s) := by
  unfold resetWaitEnd
  split
  · exact only_ite only_refl (only_ite only_refl (reset_only rfl rfl rfl rfl rfl))
  · exact only_refl
theorem resetRelease_only : Only resetAreas s (resetRelease s) := by
  unfold resetRelease
  split
  · exact only_ite only_refl (reset_only rfl rfl rfl rfl rfl)
  · exact only_refl

/-! ### Every step of the engine's own -/

theorem exec_engine_only (hl : isLegCmd i = false) (ha : isAccess i = false) (hk : isLinkCmd i = false) (h : exec i s = .next t) :
    Only (engineMay i s) s t := by
  cases i <;> try cases hl
  all_goals try cases ha
  all_goals try cases hk
  case burstGrant => exact burstGrant_only h
  case readResponse => exact readResponse_only h
  case writeResponse => exact writeResponse_only h
  case spillResponse => exact spillResponse_only h
  case inClusterCopyDone => exact copyDone_only h
  case burstReturn => exact burstReturn_only h
  case loadDataReturn => exact loadDataReturn_only h
  case lineFillReturn => exact only_next h (fillReturn_only haltIn_self only_refl)
  case globalHaltEntry => exact only_next h (globalHalt_only haltIn_self only_refl)
  case haltRetryEnd => exact only_next h (haltRetryEnd_only haltIn_self only_refl)
  case recovery => exact only_next h (recovery_only haltIn_self only_refl)
  case endW0Return =>
    exact only_next h (endReturn_only ((faultIn_self _).mono fun _ h => .inl h) (fun c => .inr (.inl ⟨c, rfl⟩)) (.inr (.inr rfl)) only_refl)
  case haltIssueStop =>
    exact only_next h (haltIssueStop_only (haltIn_self.mono fun _ h => .inl h)
      (fun l c => (laneIn_self l c).mono fun _ h => .inr ⟨l, c, h⟩) only_refl)
  case haltRetryIssue =>
    exact only_next h (haltRetry_only (lookIn_self.mono fun _ h => .inl h) (.inr (.inl rfl)) (.inr (.inr rfl)) only_refl)
  case haltDecision => exact only_next h (haltDecision_only (recIn_self.mono fun _ h => .inl h) (.inr rfl) only_refl)
  case pauseStopPoint => exact only_next h (tryPause_only (.inl rfl) (.inr rfl) only_refl)
  case channelHalted => exact only_next h (channelHalted_only (.inl rfl) (.inr rfl) only_refl)
  case levelRearm => exact only_next h (levelRearm_only rfl only_refl)
  case drainComplete => exact only_next h (drainComplete_only (controlIn_self _) only_refl)
  case faultEntry => exact only_next h (faultEntry_only (recIn_self.mono fun _ h => .inl h) (.inr rfl) only_refl)
  case faultToOff => exact only_next h (faultToOff_only (.inl rfl) (.inr rfl) only_refl)
  case pageSwap => exact only_next h (only_ite (pageSwap_only rfl only_refl) only_refl)
  case pageTransferDone => exact only_next h (only_ite (transferDone_only pagerIn_self only_refl) only_refl)
  case pinRequest => exact only_next h (pinRequest_only (.inr rfl) (.inl rfl) only_refl)
  case filterOutputChange => exact only_next h (filterChange_only rfl only_refl)
  case qualificationGained => exact only_next h (qualGained_only (recIn_self.mono fun _ h => .inl h) (.inr rfl) only_refl)
  case qualificationLost => exact only_next h (qualLost_only (recIn_self.mono fun _ h => .inl h) (.inr rfl) only_refl)
  case pulseEnd => exact only_next h (pulseEnd_only rfl only_refl)
  case holdoverStart => exact only_next h (holdoverStart_only rfl only_refl)
  case holdoverExpiry => exact only_next h (holdoverExpiry_only ⟨recIn_self.mono fun _ h => .inl h, .inr rfl⟩ only_refl)
  case synchronised => exact only_next h (only_ite (trySync_only ⟨recIn_self.mono fun _ h => .inl h, .inr rfl⟩ only_refl) only_refl)
  case gratCommandComplete => exact only_next h (only_ite (gratComplete_only gratIn_self only_refl) only_refl)
  case gratFiring => exact only_next h (only_ite (gratFire_only gratIn_self only_refl) only_refl)
  case gratActionDelivery =>
    exact only_next h (only_ite (deliverActs_only (fun c => (seqIn_self c).mono fun _ h => .inl ⟨c, h⟩) (.inr rfl) only_refl) only_refl)
  case gratLead k =>
    have hc : CheckIn (engineMay (.gratLead k) s) := checkIn_self.mono fun _ h => .inl h
    exact only_next h (only_ite (lead_only ⟨hc.toErrIn, .inr (.inr (.inl rfl)), hc.atlas⟩ hc.toLookIn (.inr (.inl rfl))
      (fun c => .inr (.inr (.inr ⟨c, rfl⟩))) only_refl) only_refl)
  case recordTake =>
    exact only_next h (recordTake_only bookIn_self (.inr (.inr (.inr (.inl rfl)))) (.inr (.inr (.inr (.inr rfl)))) only_refl)
  case recordWriteDone => exact only_next h (recordWriteDone_only (.inl rfl) (.inr rfl) only_refl)
  case recordWriteFailed => exact only_next h (recordWriteFailed_only (.inl rfl) (.inr (.inl rfl)) (.inr (.inr rfl)) only_refl)
  case bookTimerExpiry => exact only_next h (timerExpiry_only rfl only_refl)
  case tailToHead => exact only_next h (tailToHead_only (queueIn_self _) only_refl)
  case halfGroupSpill => exact only_next h (halfGroupSpill_only (queueIn_self _) only_refl)
  case tailIdleFlush => exact only_next h (tailIdleFlush_only (queueIn_self _) only_refl)
  case headRefill => exact only_next h (only_ite (startRefill_only (queueIn_self _) only_refl) only_refl)
  case commitSwitch =>
    exact only_next h (only_ite (commitSwitch_only ⟨checkIn_self.mono fun _ h => .inl h, .inr (.inl rfl), .inr (.inr (.inl rfl)),
      .inr (.inr (.inr (.inl rfl))), .inr (.inr (.inr (.inr rfl)))⟩ only_refl) only_refl)
  case commitCopyIn => exact only_next h (only_ite (copyIn_only checkIn_self only_refl) only_refl)
  case commitDrained => exact only_next h (commitDrained_only checkIn_self only_refl)
  case lifecycleChange => exact only_next h (lifecycle_only rfl only_refl)
  case errorWindowEnd => exact only_next h (windowEnd_only rfl only_refl)
  case lastingFault =>
    exact only_next h (lastingFault_only (recIn_self.mono fun _ h => .inl h) (.inr (.inl rfl)) (.inr (.inr rfl)) only_refl)
  case pdreqRise => exact only_next h (pdreqRise_only rfl only_refl)
  case pdreqDrop =>
    exact only_next h (pdreqDrop_only (recIn_self.mono fun _ h => .inl h) (.inr (.inl rfl)) (fun n => .inr (.inr ⟨n, rfl⟩)) only_refl)
  case pgoodFall =>
    exact only_next h (pgoodFall_only (recIn_self.mono fun _ h => .inl h) (.inr (.inl rfl)) (fun n => .inr (.inr ⟨n, rfl⟩)) only_refl)
  case pdack =>
    exact only_next h (pdackNow_only (recIn_self.mono fun _ h => .inl h) (.inr (.inl rfl)) (fun n => .inr (.inr ⟨n, rfl⟩)) only_refl)
  case domainReturn =>
    exact only_next h (domainReturn_only (recIn_self.mono fun _ h => .inl h) (.inr (.inl rfl)) (fun n => .inr (.inr ⟨n, rfl⟩)) only_refl)
  case pdnak => exact only_next h (pdnakNow_only (recIn_self.mono fun _ h => .inl h) (.inr rfl) only_refl)
  case bankbusySet => exact only_next h (bankSet_only (.inl rfl) (.inr (.inl rfl)) (fun c => .inr (.inr ⟨c, rfl⟩)) only_refl)
  case bankbusyClear =>
    exact only_next h (bankClear_only (fun c => (seqIn_self c).mono fun _ h => .inl ⟨c, h⟩) (.inr rfl) only_refl)
  case flashTimeout => exact only_next h (flashTimeout_only ((faultIn_self _).mono fun _ h => .inl h) (.inr rfl) only_refl)
  case debugAccess => exact only_guard h (debugStart_only (submitIn_self.mono fun _ h => .inl h) (.inr rfl) only_refl)
  case coldReset => exact only_next h (reset_only rfl rfl rfl rfl rfl)
  case warmReset => exact only_next h (reset_only rfl rfl rfl rfl rfl)
  case engineResetWaitEnd => exact only_next h resetWaitEnd_only
  case resetRelease => exact only_next h resetRelease_only
  case readyBitSet =>
    exact only_next h (only_ite only_refl (setReady_only (.inl rfl) (fun l => ⟨.inr (.inl ⟨l, rfl⟩), .inr (.inr rfl)⟩) only_refl))
  case spreadApply => exact only_next h (spreadApply_only rfl only_refl)
  case scrubStep => exact only_next h (scrubStep_only scrubIn_self only_refl)
  case scrubForcedSlot => exact only_next h (forcedSlot_only scrubIn_self (.inr (.inr (.inr (.inr (.inr rfl))))) only_refl)
  case selftestStopped => exact only_next h (testStop_only testIn_self only_refl)
  case selftestComplete => exact only_next h (testComplete_only testIn_self only_refl)
  case telePeriodExpiry => exact only_next h (telePeriod_only rfl only_refl)
  case teleCapture => exact only_next h (teleCapture_only rfl only_refl)

end Sys2Proof.Laws
end

section
/-! SUPPORT. Which commands reach the legends and Meridian; none reaches the commands that wait, nor the wiring. -/

namespace Sys2Proof.Laws
open Sys2Proof.Machine

variable {S : Set Area} {s t u : State} {i : Instr}

/-! ### Every command -/

/-- What a command may change, whoever sends it. -/
def commandMay (i : Instr) (s : State) : Set Area :=
  if isLegCmd i then legMay i s else if isAccess i then portMay i else if isLinkCmd i then linkMay i else engineMay i s

theorem exec_only (h : exec i s = .next t) : Only (commandMay i s) s t := by
  unfold commandMay
  by_cases hl : isLegCmd i = true
  · rw [if_pos hl]; exact exec_leg_only hl h
  by_cases ha : isAccess i = true
  · rw [if_neg hl, if_pos ha]; exact exec_access_only ha h
  by_cases hk : isLinkCmd i = true
  · rw [if_neg hl, if_neg ha, if_pos hk]; exact exec_link_only hk h
  · rw [if_neg hl, if_neg ha, if_neg hk]
    exact exec_engine_only (Bool.eq_false_iff.mpr hl) (Bool.eq_false_iff.mpr ha) (Bool.eq_false_iff.mpr hk) h

/-! ### What an allowance of areas allows -/

theorem seqAreas_sub {c : Nat} (h : SeqIn c S) : seqAreas c ⊆ S := by
  rintro p (hp | hp | rfl | rfl | rfl | rfl | rfl)
  exacts [errAreas_sub h.toErrIn hp, lookAreas_sub h.toLookIn hp, h.ctx, h.fetches, h.lcache, h.power, h.grat]
theorem faultAreas_sub {c : Nat} (h : FaultIn c S) : faultAreas c ⊆ S := by
  rintro p (hp | ⟨l, rfl⟩ | rfl | rfl | rfl | rfl)
  exacts [seqAreas_sub h.toSeqIn hp, (h.lane l).1, (h.lane 0).2, h.offered, h.outst, h.out]
theorem legAreas_sub {c : Nat} (h : LegIn c S) : legAreas c ⊆ S := by
  rintro p (hp | ⟨m, rfl⟩)
  exacts [faultAreas_sub h.toFaultIn hp, h.evo m]
theorem controlAreas_sub {c : Nat} (h : ControlIn c S) : controlAreas c ⊆ S := by
  rintro p (hp | rfl)
  exacts [legAreas_sub h.toLegIn hp, h.slots]
theorem laneAreas_sub {l c : Nat} (h : LaneIn l c S) : laneAreas l c ⊆ S := by
  rintro p (hp | hp | rfl | rfl | rfl)
  exacts [errAreas_sub h.toErrIn hp, submitAreas_sub h.toSubmitIn hp, h.lane.1, h.lane.2, h.ctx]
theorem hostAreas_sub (h : HostIn S) : hostAreas ⊆ S := by
  rintro p (hp | rfl | rfl)
  exacts [checkAreas_sub h.toCheckIn hp, h.resp, h.port]
theorem sendAreas_sub (h : SendIn S) : sendAreas ⊆ S := by
  rintro p (hp | rfl | ⟨q, rfl⟩)
  exacts [checkAreas_sub h.toCheckIn hp, h.fab, h.link q]
theorem fabAreas_sub (h : FabIn S) : fabAreas ⊆ S := by
  rintro p (hp | rfl | rfl | rfl | rfl)
  exacts [sendAreas_sub h.toSendIn hp, h.offered, h.outst, h.out, h.tele]
theorem anyAreas_sub (h : AnyIn S) : anyAreas ⊆ S := by
  rintro p (hp | ⟨c, hp⟩ | ⟨q, rfl⟩ | rfl)
  exacts [fabAreas_sub h.toFabIn hp, legAreas_sub (h.leg c) hp, h.queue q, h.spill]
theorem linkAreas_sub (h : LinkIn S) : linkAreas ⊆ S := by
  rintro p (hp | rfl | rfl)
  exacts [anyAreas_sub h.toAnyIn hp, h.sync, h.mer]
theorem actAreas_sub (h : ActIn S) : actAreas ⊆ S := by
  rintro p (hp | rfl | rfl)
  exacts [linkAreas_sub h.toLinkIn hp, h.arrivals, h.merWas]
theorem haltAreas_sub (h : HaltIn S) : haltAreas ⊆ S := by
  rintro p (⟨c, hp⟩ | rfl | rfl)
  exacts [legAreas_sub (h.leg c) hp, h.halt, h.flash]

/-! ### The areas that most commands keep to -/

/-- The area is one that a command may reach however it comes: none of the queue of commands, the ECLK, the wiring, the
legends and Meridian. -/
def isCommon (p : Area) : Bool :=
  match p with
  | .pending | .eclk | .straps | .legend _ | .legends | .mer | .merWas => false
  | _ => true

/-- The command may reach a channel's legend. -/
def reachesLegends (i : Instr) : Bool :=
  match i with
  | .chLegendWrite _ _ _ | .hostRegisterWrite _ _ _ _ _ | .pageTransferDone _ _ | .scrubStep _ _ | .scrubForcedSlot _ _ => true
  | i => isReset i
/-- The command may reach Meridian. -/
def reachesMer (i : Instr) : Bool :=
  match i with
  | .merNowRead _ _ | .merSet _ _ | .merAdj _ _ | .merSrcChange _ _ | .atlasStageWrite _ _ _ _ | .routeTableWrite _ _ _ | .portEnable _ _ _
  | .hostRegisterWrite _ _ _ _ _ | .lowWordRead _ _ | .linkDown _ _ | .rxRl _ _ _ _ _ _ | .rxSynr _ _ _ _ _ _ | .frameForward _ _
  | .synrTimeout | .holdoverStart _ | .holdoverExpiry | .synchronised => true
  | i => isReset i

/-- The areas within the reach of command i. -/
def reach (i : Instr) : Set Area := fun p =>
  isCommon p = true ∨ (reachesLegends i = true ∧ (p = .legends ∨ ∃ c, p = .legend c)) ∨ (reachesMer i = true ∧ (p = .mer ∨ p = .merWas)) ∨
  (isReset i = true ∧ p = .eclk)

theorem anyIn_reach (i : Instr) : AnyIn (reach i) :=
  { heldRecs := .inl rfl, rdrop := .inl rfl, err := fun _ => .inl rfl, cache := .inl rfl, grid := .inl rfl, atlas := .inl rfl,
    fab := .inl rfl, link := fun _ => .inl rfl, offered := .inl rfl, outst := .inl rfl, out := .inl rfl, tele := .inl rfl,
    queue := fun _ => .inl rfl, spill := .inl rfl,
    leg := fun _ =>
      { heldRecs := .inl rfl, rdrop := .inl rfl, err := fun _ => .inl rfl, cache := .inl rfl, grid := .inl rfl, ctx := .inl rfl,
        fetches := .inl rfl, lcache := .inl rfl, power := .inl rfl, grat := .inl rfl, lane := fun _ => ⟨.inl rfl, .inl rfl⟩,
        offered := .inl rfl, outst := .inl rfl, out := .inl rfl, evo := fun _ => .inl rfl } }
theorem haltIn_reach (i : Instr) : HaltIn (reach i) := ⟨(anyIn_reach i).leg, .inl rfl, .inl rfl⟩
theorem hostIn_reach (i : Instr) : HostIn (reach i) := ⟨(anyIn_reach i).toCheckIn, .inl rfl, .inl rfl⟩
theorem actIn_reach (hm : reachesMer i = true) : ActIn (reach i) :=
  ⟨⟨anyIn_reach i, .inl rfl, .inr (.inr (.inl ⟨hm, .inl rfl⟩))⟩, .inl rfl, .inr (.inr (.inl ⟨hm, .inr rfl⟩))⟩

theorem queueAreas_reach (i : Instr) (q : Nat) : queueAreas q ⊆ reach i := queueAreas_sub ((anyIn_reach i).queueIn q)
theorem legAreas_reach (i : Instr) (c : Nat) : legAreas c ⊆ reach i := legAreas_sub ((anyIn_reach i).leg c)
theorem faultAreas_reach (i : Instr) (c : Nat) : faultAreas c ⊆ reach i := faultAreas_sub ((anyIn_reach i).leg c).toFaultIn
theorem seqAreas_reach (i : Instr) (c : Nat) : seqAreas c ⊆ reach i := seqAreas_sub ((anyIn_reach i).leg c).toSeqIn
theorem controlAreas_reach (i : Instr) (c : Nat) : controlAreas c ⊆ reach i := controlAreas_sub ⟨(anyIn_reach i).leg c, .inl rfl⟩
theorem recAreas_reach (i : Instr) : recAreas ⊆ reach i := recAreas_sub (anyIn_reach i).toRecIn
theorem checkAreas_reach (i : Instr) : checkAreas ⊆ reach i := checkAreas_sub (anyIn_reach i).toCheckIn
theorem laneAreas_reach (i : Instr) (l c : Nat) : laneAreas l c ⊆ reach i := laneAreas_sub ((anyIn_reach i).laneIn l c)
theorem sendAreas_reach (i : Instr) : sendAreas ⊆ reach i := sendAreas_sub (anyIn_reach i).toSendIn
theorem fabAreas_reach (i : Instr) : fabAreas ⊆ reach i := fabAreas_sub (anyIn_reach i).toFabIn
theorem anyAreas_reach (i : Instr) : anyAreas ⊆ reach i := anyAreas_sub (anyIn_reach i)
theorem haltAreas_reach (i : Instr) : haltAreas ⊆ reach i := haltAreas_sub (haltIn_reach i)
theorem submitAreas_reach (i : Instr) : submitAreas ⊆ reach i := submitAreas_sub (anyIn_reach i).submit

theorem signalAreas_reach (i : Instr) (l : Leg) : signalAreas l ⊆ reach i := by
  rintro p (⟨_, rfl⟩ | ⟨_, hp | rfl⟩ | ⟨_, rfl⟩)
  exacts [.inl rfl, seqAreas_reach i _ hp, .inl rfl, .inl rfl]
theorem writeAreas_reach (hl : reachesLegends i = true) (hm : reachesMer i = true) : writeAreas ⊆ reach i := by
  rintro p (hp | hp | rfl | rfl | hp | rfl | ⟨b, rfl⟩ | ⟨n, rfl⟩ | rfl | rfl | rfl | rfl)
  exacts [actAreas_sub (actIn_reach hm) hp, hostAreas_sub (hostIn_reach i) hp, .inl rfl, .inl rfl, .inr (.inl ⟨hl, .inr hp⟩),
    .inr (.inl ⟨hl, .inl rfl⟩), .inl rfl, .inl rfl, .inl rfl, .inl rfl, .inl rfl, .inl rfl]
theorem writerAreas_reach (i : Instr) : writerAreas ⊆ reach i := by
  rintro p (hp | rfl | ⟨b, rfl⟩ | rfl | rfl)
  exacts [submitAreas_reach i hp, .inl rfl, .inl rfl, .inl rfl, .inl rfl]
theorem gratAreas_reach (i : Instr) : gratAreas ⊆ reach i := by
  rintro p (hp | rfl | rfl)
  exacts [checkAreas_reach i (.inl hp), .inl rfl, .inl rfl]
theorem accAreas_reach (i : Instr) : accAreas ⊆ reach i := by
  rintro p (hp | rfl | ⟨b, rfl⟩)
  exacts [anyAreas_reach i hp, .inl rfl, .inl rfl]
theorem scrubAreas_reach (hl : reachesLegends i = true) : scrubAreas ⊆ reach i := by
  rintro p (⟨c, hp⟩ | hp | rfl | rfl | rfl | rfl)
  exacts [faultAreas_reach i c hp, .inr (.inl ⟨hl, .inr hp⟩), .inr (.inl ⟨hl, .inl rfl⟩), .inl rfl, .inl rfl, .inl rfl]
theorem testAreas_reach (i : Instr) : testAreas ⊆ reach i := by
  rintro p (hp | rfl | rfl | rfl)
  exacts [checkAreas_reach i hp, .inl rfl, .inl rfl, .inl rfl]
/-- A reset reaches all but the commands that wait and the wiring. -/
theorem resetAreas_reach (hi : isReset i = true) (hl : reachesLegends i = true) (hm : reachesMer i = true) : resetAreas ⊆ reach i := by
  rintro p ⟨hp, hs, -⟩
  cases p
  case pending => exact absurd rfl hp
  case straps => exact absurd rfl hs
  case eclk => exact .inr (.inr (.inr ⟨hi, rfl⟩))
  case legend c => exact .inr (.inl ⟨hl, .inr ⟨c, rfl⟩⟩)
  case legends => exact .inr (.inl ⟨hl, .inl rfl⟩)
  case mer => exact .inr (.inr (.inl ⟨hm, .inl rfl⟩))
  case merWas => exact .inr (.inr (.inl ⟨hm, .inr rfl⟩))
  all_goals exact .inl rfl

/-! ### Each command keeps within its reach -/

theorem legMay_reach (i : Instr) (s : State) : legMay i s ⊆ reach i := by
  cases i
  case mark c | rewind c | release c => exact fun p hp => hp.elim (legAreas_reach _ c ·) (queueAreas_reach _ _ ·)
  case signal c => exact fun p hp => hp.elim (legAreas_reach _ c ·) (signalAreas_reach _ _ ·)
  case move c | fill c | cmp c | cmpk c | scale c | reduce c | movex c | push c | pop c | pattern c | scalecfg c | waitreq c | waittime c
    | waitq c | barrier c | log c | jump c | call c | ret c | branch c | loop c | load c | store c | endLeg c | nop c | illegalLeg c
    | waitSatisfied c | waittimeTargetReached c | waitDeadlineReached c => exact legAreas_reach _ c
  all_goals exact fun p hp => hp.elim

theorem accessMay_reach (i : Instr) : accessMay i ⊆ reach i := by
  cases i
  case chStart | chDrain | chPause | chResume | chAbort | chWake | chDivert | chRearmClr | swreq | reqinClrcnt | swpulse | evoConfigWrite
    | tagClrhw | insert | delete | replace | gratEnable | gratClrcnt | bookEnable | bookRidxWrite | spillClrhw | portClrst
    | engineResetRequest | spreadWrite | hostTableRead => rintro _ rfl; exact .inl rfl
  case reqinConfigWrite | legInvWrite => rintro _ (rfl | rfl) <;> exact .inl rfl
  case chLegendWrite =>
    rintro _ (rfl | rfl | rfl | rfl)
    exacts [.inl rfl, .inr (.inl ⟨rfl, .inr ⟨_, rfl⟩⟩), .inr (.inl ⟨rfl, .inl rfl⟩), .inl rfl]
  case merNowRead | merSet => rintro _ rfl; exact .inr (.inr (.inl ⟨rfl, .inl rfl⟩))
  case merAdj | merSrcChange =>
    rintro _ (rfl | rfl)
    exacts [.inr (.inr (.inl ⟨rfl, .inl rfl⟩)), .inr (.inr (.inl ⟨rfl, .inr rfl⟩))]
  case hostPush | hostPushend | hostPop | unmark => exact queueAreas_reach _ _
  case queueReset =>
    rintro _ (hp | rfl)
    exacts [queueAreas_reach _ _ hp, .inl rfl]
  case spillBaseWrite => rintro _ (⟨q, rfl⟩ | rfl | rfl | rfl | rfl) <;> exact .inl rfl
  case atlasStageWrite | routeTableWrite =>
    rintro _ (rfl | rfl | rfl)
    exacts [.inl rfl, .inl rfl, .inr (.inr (.inl ⟨rfl, .inl rfl⟩))]
  case globalResume => exact haltAreas_reach _
  case portEnable => exact linkAreas_sub (actIn_reach rfl).toLinkIn
  case surveyGo | routeLoadGo => exact fabAreas_reach _
  case hostRegisterWrite => exact writeAreas_reach rfl rfl
  case lowWordRead =>
    rintro _ (rfl | ⟨q, hp⟩)
    exacts [.inr (.inr (.inl ⟨rfl, .inl rfl⟩)), queueAreas_reach _ q hp]
  all_goals exact fun p hp => hp.elim

theorem portMay_reach (i : Instr) : portMay i ⊆ reach i :=
  fun _ hp => hp.elim (hostAreas_sub (hostIn_reach i) ·) (accessMay_reach i ·)

theorem linkMay_reach (i : Instr) : linkMay i ⊆ reach i := by
  have err (i : Instr) : errAreas ⊆ reach i := errAreas_sub (anyIn_reach i).toErrIn
  cases i
  case linkUp | identWord | destResponseTimeout | rxSv | rxNote | rxReservedKind | rxSynq => exact sendAreas_reach _
  case linkDown => exact linkAreas_sub (actIn_reach rfl).toLinkIn
  case remoteTimeout | rxNak | rxRdr => exact anyAreas_reach _
  case rxWrs | rxWr | rxRd | rxSvr | svTimeout | rlTimeout => exact fabAreas_reach _
  case rxEv =>
    rintro _ (hp | rfl)
    exacts [sendAreas_reach _ hp, .inl rfl]
  case rxAck =>
    rintro _ (hp | ⟨c, rfl⟩)
    exacts [fabAreas_reach _ hp, .inl rfl]
  case rxRl =>
    rintro _ (hp | rfl | rfl)
    exacts [sendAreas_reach _ hp, .inl rfl, .inr (.inr (.inl ⟨rfl, .inl rfl⟩))]
  case rxSynr =>
    rintro _ (hp | rfl | rfl | rfl)
    exacts [sendAreas_reach _ hp, .inl rfl, .inr (.inr (.inl ⟨rfl, .inl rfl⟩)), .inr (.inr (.inl ⟨rfl, .inr rfl⟩))]
  case frameForward => exact actAreas_sub (actIn_reach rfl)
  case syncExchange => rintro _ (rfl | ⟨q, rfl⟩) <;> exact .inl rfl
  case synrTimeout =>
    rintro _ (rfl | rfl)
    exacts [.inl rfl, .inr (.inr (.inl ⟨rfl, .inl rfl⟩))]
  case frameCrcFail =>
    rintro _ (hp | ⟨q, rfl⟩)
    exacts [err _ hp, .inl rfl]
  case nakWord | ackWord | creditWord | skipDue | identDue => rintro _ rfl; exact .inl rfl
  all_goals exact fun p hp => hp.elim

theorem engineMay_reach (i : Instr) (s : State) : engineMay i s ⊆ reach i := by
  cases i
  case burstGrant =>
    rintro _ (rfl | rfl | ⟨l, c, -, hp⟩)
    exacts [.inl rfl, .inl rfl, laneAreas_reach _ l c hp]
  case readResponse | writeResponse | spillResponse => exact accAreas_reach _
  case inClusterCopyDone => rintro _ (rfl | rfl | ⟨b, -, rfl⟩) <;> exact .inl rfl
  case burstReturn =>
    rintro _ ⟨b, -, hp | rfl⟩
    exacts [legAreas_reach _ _ hp, .inl rfl]
  case loadDataReturn | flashTimeout =>
    rintro _ (hp | rfl)
    exacts [faultAreas_reach _ _ hp, .inl rfl]
  case lineFillReturn | globalHaltEntry | haltRetryEnd | recovery => exact haltAreas_reach _
  case endW0Return =>
    rintro _ (hp | ⟨c, rfl⟩ | rfl)
    exacts [faultAreas_reach _ _ hp, .inl rfl, .inl rfl]
  case haltIssueStop =>
    rintro _ (hp | ⟨l, c, hp⟩)
    exacts [haltAreas_reach _ hp, laneAreas_reach _ l c hp]
  case haltRetryIssue =>
    rintro _ (hp | rfl | rfl)
    exacts [submitAreas_reach _ (.inl hp), .inl rfl, .inl rfl]
  case haltDecision | faultEntry | qualificationGained | qualificationLost | pdnak =>
    rintro _ (hp | rfl)
    exacts [recAreas_reach _ hp, .inl rfl]
  case holdoverExpiry | synchronised =>
    rintro _ (hp | rfl)
    exacts [recAreas_reach _ hp, .inr (.inr (.inl ⟨rfl, .inl rfl⟩))]
  case holdoverStart => rintro _ rfl; exact .inr (.inr (.inl ⟨rfl, .inl rfl⟩))
  case pauseStopPoint | channelHalted | faultToOff | pinRequest => rintro _ (rfl | rfl) <;> exact .inl rfl
  case levelRearm | pageSwap | filterOutputChange | pulseEnd | bookTimerExpiry | lifecycleChange | errorWindowEnd | pdreqRise | spreadApply
    | telePeriodExpiry | teleCapture => rintro _ rfl; exact .inl rfl
  case drainComplete => exact controlAreas_reach _ _
  case pageTransferDone =>
    rintro _ (⟨c, hp⟩ | hp | rfl | rfl | rfl | rfl | rfl)
    exacts [controlAreas_reach _ c hp, .inr (.inl ⟨rfl, .inr hp⟩), .inr (.inl ⟨rfl, .inl rfl⟩), .inl rfl, .inl rfl, .inl rfl, .inl rfl]
  case gratCommandComplete | gratFiring => exact gratAreas_reach _
  case gratActionDelivery | bankbusyClear =>
    rintro _ (⟨c, hp⟩ | rfl)
    exacts [seqAreas_reach _ c hp, .inl rfl]
  case gratLead =>
    rintro _ (hp | rfl | rfl | ⟨c, rfl⟩)
    exacts [checkAreas_reach _ hp, .inl rfl, .inl rfl, .inl rfl]
  case recordTake => exact writerAreas_reach _
  case recordWriteDone => rintro _ (rfl | rfl) <;> exact .inl rfl
  case recordWriteFailed => rintro _ (rfl | rfl | rfl) <;> exact .inl rfl
  case tailToHead | halfGroupSpill | tailIdleFlush | headRefill => exact queueAreas_reach _ _
  case commitSwitch =>
    rintro _ (hp | rfl | rfl | rfl | rfl)
    exacts [checkAreas_reach _ hp, .inl rfl, .inl rfl, .inl rfl, .inl rfl]
  case commitCopyIn | commitDrained => exact checkAreas_reach _
  case lastingFault =>
    rintro _ (hp | rfl | rfl)
    exacts [recAreas_reach _ hp, .inl rfl, .inl rfl]
  case pdreqDrop | pgoodFall | pdack | domainReturn =>
    rintro _ (hp | rfl | ⟨n, rfl⟩)
    exacts [recAreas_reach _ hp, .inl rfl, .inl rfl]
  case bankbusySet => rintro _ (rfl | rfl | ⟨c, rfl⟩) <;> exact .inl rfl
  case debugAccess =>
    rintro _ (hp | rfl)
    exacts [submitAreas_reach _ hp, .inl rfl]
  case coldReset | warmReset | engineResetWaitEnd | resetRelease => exact resetAreas_reach rfl rfl rfl
  case readyBitSet => rintro _ (rfl | ⟨l, rfl⟩ | rfl) <;> exact .inl rfl
  case scrubStep | scrubForcedSlot => exact scrubAreas_reach rfl
  case selftestStopped | selftestComplete => exact testAreas_reach _
  all_goals exact fun p hp => hp.elim

/-- A command keeps within its reach. -/
theorem exec_reach (h : exec i s = .next t) : Only (reach i) s t := by
  refine only_mono ?_ (exec_only h)
  unfold commandMay
  split
  · exact legMay_reach i s
  split
  · exact portMay_reach i
  split
  · exact linkMay_reach i
  · exact engineMay_reach i s

theorem not_reach {p : Area} (hc : isCommon p = false) (hl : p ≠ .legends) (hL : ∀ c, p ≠ .legend c) (hm : p ≠ .mer) (hw : p ≠ .merWas)
    (he : p ≠ .eclk) : p ∉ reach i := by
  rintro (h | ⟨-, h | ⟨c, h⟩⟩ | ⟨-, h | h⟩ | ⟨-, h⟩)
  exacts [Bool.false_ne_true (hc.symm.trans h), hl h, hL c h, hm h, hw h, he h]

theorem exec_pending (h : exec i s = .next t) : t.pending = s.pending := exec_reach h .pending (not_reach rfl nofun nofun nofun nofun nofun)
theorem exec_straps (h : exec i s = .next t) : t.straps = s.straps := exec_reach h .straps (not_reach rfl nofun nofun nofun nofun nofun)

/-- A command that does not reach the legends leaves them. -/
theorem exec_legends (hi : reachesLegends i = false) (h : exec i s = .next t) : t.legends = s.legends := by
  refine exec_reach h .legends ?_
  rintro (h | ⟨hl, -⟩ | ⟨-, h | h⟩ | ⟨-, h⟩)
  · cases h
  · exact Bool.false_ne_true (hi.symm.trans hl)
  all_goals cases h

end Sys2Proof.Laws
end

section
/-! PROOFS. No command touches the queue behind it. -/

namespace Sys2Proof.Laws
open Sys2Proof.Machine

/-- Settles O4: neither the commands that wait nor the wiring are within any command's reach. -/
theorem commandsKeepTheQueue : Obligations.CommandsKeepTheQueue := by
  unfold Obligations.CommandsKeepTheQueue
  exact fun i s t h => ⟨exec_pending h, exec_straps h⟩

end Sys2Proof.Laws
end

section
/-! SUPPORT. The frame of a register write, page by page: which pages reach the legends and Meridian. -/

namespace Sys2Proof.Laws
open Sys2Proof.Machine

variable {S : Set Area} {s u : State}

/-- What a write to a register other than Meridian's, the fabric's and a legend may change. -/
structure PageIn (S : Set Area) : Prop extends AnyIn S where
  sync : .sync ∈ S
  arrivals : .arrivals ∈ S
  resp : .resp ∈ S
  port : .port ∈ S
  ctl : .ctl ∈ S
  slots : .slots ∈ S
  book : ∀ b, .book b ∈ S
  input : ∀ n, .input n ∈ S
  halt : .halt ∈ S
  flash : .flash ∈ S
  tags : .tags ∈ S
  glob : .glob ∈ S

variable (h : PageIn S)
include h

theorem PageIn.haltIn : HaltIn S := ⟨h.leg, h.halt, h.flash⟩
theorem PageIn.hostIn : HostIn S := ⟨h.toCheckIn, h.resp, h.port⟩

theorem page_writeHard {v x} (H : Only S s u) : Only S s (writeHard v x u) := by
  unfold writeHard
  refine only_foldl _ (fun v n H => only_ite H (put_setInp (h.input _) H)) (put_glob h.glob ?_ ?_ H) <;> dsimp only <;> split <;> rfl
theorem page_writeGlobal32 {o v x} (H : Only S s u) : Only S s (writeGlobal32 o v x u) := by
  unfold writeGlobal32
  split
  · exact only_ite (resetRequest_only h.glob (put_glob h.glob rfl rfl H)) (put_glob h.glob rfl rfl H)
  · exact writeSpread_only h.glob H
  · exact put_glob h.glob rfl rfl H
  · exact page_writeHard h H
  · exact only_ite H (put_glob h.glob rfl rfl H)
  · exact only_ite (globalResume_only h.haltIn H) H
  · exact put_halt h.halt H
  · exact invalidate_only (h.leg 0).lcache (h.leg 0).fetches H
  · exact only_ite (put_flash h.flash H) H
  · exact setPower_only (h.leg 0).power H
  · exact H
theorem page_writeGlobal64 {o v} (H : Only S s u) : Only S s (writeGlobal64 o v u) := by
  unfold writeGlobal64
  split
  · exact only_ite (clearTagHw_only h.tags H) H
  · exact writeSpillBase_only h.queue h.spill h.offered h.outst h.out H
  · exact only_ite (clearHwm_only h.spill H) H
  · exact setPower_only (h.leg 0).power H
  · exact H
theorem page_writeBook32 {b a v} (H : Only S s u) : Only S s (writeBook32 b a v u) := by
  unfold writeBook32
  split
  · have H1 := fun x => put_setBook (x := x) (h.book b) (markSet_only (k := w1cKey (bookStatus b) 63) H)
    exact only_ite (enableBook_only (h.book b) (H1 _)) (put_setBook (h.book b) (H1 _))
  · exact writeRidx_only (h.book b) H
  · exact H
theorem page_writeBook64 {b a v} (H : Only S s u) : Only S s (writeBook64 b a v u) := by
  unfold writeBook64
  dsimp only
  split
  · exact only_ite H (put_setBook (h.book b) H)
  · exact put_setBook (h.book b) H
  · exact H
theorem page_writeQueue32 {q a v} (H : Only S s u) : Only S s (writeQueue32 q a v u) := by
  unfold writeQueue32
  split
  · exact put_modQ (h.queue q) H
  · exact H
theorem page_writeQueue64 {q a v} (H : Only S s u) : Only S s (writeQueue64 q a v u) := by
  unfold writeQueue64
  split
  · exact writeQcfg_only (h.toAnyIn.queueIn q) h.outst H
  · exact put_modQ (h.queue q) H
  · exact put_modQ (h.queue q) H
  · exact pushHost_only (h.toAnyIn.queueIn q) H
  · exact pushHost_only (h.toAnyIn.queueIn q) H
  · exact H
theorem page_writeAtlas32 {o v} (H : Only S s u) : Only S s (writeAtlas32 o v u) := by
  have h1 := h.toCheckIn
  unfold writeAtlas32
  split
  · exact only_ite (clearAtlas_only h1 (putAtlas_only h1 H)) (putAtlas_only h1 H)
  · exact only_ite (commitGo_only h1 H) H
  · exact putAtlas_only h1 H
  · exact putAtlas_only h1 H
  · exact putAtlas_only h1 H
  · exact H
theorem page_writeAtlas64 {o v} (H : Only S s u) : Only S s (writeAtlas64 o v u) := by
  have h1 := h.toCheckIn
  unfold writeAtlas64
  split
  · exact putAtlas_only h1 H
  · exact only_ite (clearValid_only h1 H) H
  · exact H
/-- The channel page, but for the legends. -/
theorem page_writeChannel {c a v} (ha : a ≠ 0x10) (H : Only S s u) : Only S s (writeChannel c a v u) := by
  have hc : .ctx c ∈ S := (h.leg c).ctx
  unfold writeChannel
  split
  · exact control_only h.ctl H
  · exact put_modW hc (put_modR hc H)
  · exact only_ite (put_modR hc H) H
  · exact control_only h.ctl H
  · exact absurd rfl ha
  · exact control_only h.ctl H
  · exact only_ite (clearRearm_only hc H) H
  · exact H

/-! ### Meridian's page and the fabric's -/

theorem page_writeMer32 {o v} (hm : .mer ∈ S) (hw : .merWas ∈ S) (H : Only S s u) : Only S s (writeMer32 o v u) := by
  unfold writeMer32
  split
  · exact writeSrc_only ⟨h.toRecIn, hm⟩ hw (put_mer hm H)
  · exact put_mer hm H
  · exact only_ite H (put_mer hm H)
  · exact put_grat (h.leg 0).grat H
  · exact gratCmd_only (h.leg 0).grat H
  · exact H
theorem page_writeMer64 {o v} (hm : .mer ∈ S) (hw : .merWas ∈ S) (H : Only S s u) : Only S s (writeMer64 o v u) := by
  have hg := (h.leg 0).grat
  unfold writeMer64
  split
  · exact setMer_only hm H
  · exact adjMer_only ⟨h.toRecIn, hm⟩ hw H
  · exact only_ite (gratClear_only hg (put_grat hg H)) (put_grat hg H)
  · exact put_grat hg H
  · exact put_grat hg H
  · exact put_grat hg H
  · exact put_grat hg H
  · exact H
theorem page_writeFab32 {o v} (hm : .mer ∈ S) (H : Only S s u) : Only S s (writeFab32 o v u) := by
  unfold writeFab32
  split
  · exact put_fab h.fab rfl rfl H
  · exact put_fab h.fab rfl rfl (markSet_only H)
  · exact checkParent_only hm h.sync (put_sync h.sync H)
  · exact put_fab h.fab rfl rfl H
  · exact H
theorem page_writePort {p v} (hm : .mer ∈ S) (H : Only S s u) : Only S s (writePort p v u) := by
  have H1 := put_modP (f := fun x => { x with asym := BitVec.ofNat 16 (fld v 47 32) }) (h.link p) H
  exact enablePort_only ⟨h.toAnyIn, h.sync, hm⟩ (only_ite (clearPstat_only (h.link p) H1) H1)
theorem page_writeFab64 {o v} (hm : .mer ∈ S) (H : Only S s u) : Only S s (writeFab64 o v u) := by
  unfold writeFab64
  split
  · exact put_fab h.fab rfl rfl H
  · exact only_ite (surveyGo_only h.toFabIn (setSurvey_only h.fab H)) (setSurvey_only h.fab H)
  · exact writeLoad_only h.toFabIn H
  · exact only_ite (put_fab h.fab rfl rfl H) (only_ite (page_writePort h hm H) H)

/-! ### The window -/

/-- A write to a 32-bit register outside Meridian's page, the fabric's and the channels'. -/
theorem page_write32 {o v x} (h3 : o < 0x3000 ∨ 0x4000 ≤ o) (h6 : o < 0x6000 ∨ 0x7000 ≤ o) (h8 : o < 0x8000) (H : Only S s u) :
    Only S s (write32 o v x u) := by
  unfold write32
  split_ifs
  · exact page_writeGlobal32 h H
  · exact H
  · exact writeEvo_only ((h.leg 0).evo _) H
  · exact H
  · exact page_writeBook32 h H
  · exact H
  · omega
  · exact page_writeQueue32 h H
  · exact page_writeAtlas32 h H
  · omega
  · exact H
/-- A write to a 64-bit register outside Meridian's page and the fabric's. -/
theorem page_write64 {o v x} (h3 : o < 0x3000 ∨ 0x4000 ≤ o) (h6 : o < 0x6000 ∨ 0x7000 ≤ o) (H : Only S s u) :
    Only S s (write64 o v x u) := by
  unfold write64
  split_ifs
  · exact page_writeGlobal64 h H
  · exact writeReqin_only (h.input _) h.arrivals (put_setInp (h.input _) H)
  · exact page_writeBook64 h H
  · omega
  · exact page_writeQueue64 h H
  · exact page_writeAtlas64 h H
  · omega
  · exact H

omit h in
theorem write32_mer {o : Nat} {v : W32} {x : BitVec 512} (ho : 0x3000 ≤ o) (ho' : o < 0x4000) : write32 o v x u = writeMer32 o v u := by
  unfold write32
  rw [if_neg (by omega), if_neg (by omega), if_neg (by omega), if_neg (by omega), if_neg (by omega), if_neg (by omega), if_pos ho']
omit h in
theorem write32_fab {o : Nat} {v : W32} {x : BitVec 512} (ho : 0x6000 ≤ o) (ho' : o < 0x7000) : write32 o v x u = writeFab32 o v u := by
  unfold write32
  rw [if_neg (by omega), if_neg (by omega), if_neg (by omega), if_neg (by omega), if_neg (by omega), if_neg (by omega), if_neg (by omega),
    if_neg (by omega), if_neg (by omega), if_pos ho']
omit h in
theorem write32_channel {o : Nat} {v : W32} {x : BitVec 512} (ho : 0x8000 ≤ o) :
    write32 o v x u = writeChannel ((o - 0x8000) / 32) (o % 32) v u := by
  unfold write32
  rw [if_neg (by omega), if_neg (by omega), if_neg (by omega), if_neg (by omega), if_neg (by omega), if_neg (by omega), if_neg (by omega),
    if_neg (by omega), if_neg (by omega), if_neg (by omega), if_neg (by omega)]
omit h in
theorem write64_mer {o : Nat} {v : W64} {x : BitVec 512} (ho : 0x3000 ≤ o) (ho' : o < 0x4000) : write64 o v x u = writeMer64 o v u := by
  unfold write64
  rw [if_neg (by omega), if_neg (by omega), if_neg (by omega), if_pos ho']
omit h in
theorem write64_fab {o : Nat} {v : W64} {x : BitVec 512} (ho : 0x6000 ≤ o) (ho' : o < 0x7000) : write64 o v x u = writeFab64 o v u := by
  unfold write64
  rw [if_neg (by omega), if_neg (by omega), if_neg (by omega), if_neg (by omega), if_neg (by omega), if_neg (by omega), if_pos ho']

omit h in
/-- What a register write keeps, where each register that it falls on does. -/
theorem registerWrite_keeps {P : State → Prop} {b : Initiator} {o z : Nat} {d : W64} {x : BitVec 512} (hp : ∀ {u k v}, P u → P (setLow k v u))
    (h32 : ∀ o v {u}, P u → P (write32 o v x u)) (h64 : ∀ o v {u}, P u → P (write64 o v x u)) (H : P u) :
    P (registerWrite b o z d x u) := by
  unfold registerWrite splitWrite
  extract_lets base key
  split_ifs
  · exact h64 _ _ (hp H)
  · exact h32 _ _ (h32 _ _ H)
  · exact h32 _ _ H
  · exact hp H
  · exact h64 _ _ (hp H)

omit h in
/-- What an access keeps that the port presents, where the checks, the port's own answer and the access itself do. -/
theorem hostAccess_keeps {P : State → Prop} {b : Initiator} {t w : Bool} {o : Nat} {k : Instr} {act : State → State}
    (hp : ∀ {v}, Only hostAreas s v → P v) (ha : ∀ {v}, Only hostAreas s v → P (act v)) : P (hostAccess b t w o k act s) := by
  have hh : HostIn hostAreas := hostIn_self
  unfold hostAccess
  split_ifs
  · exact hp (put_resp hh.resp only_refl)
  · exact hp (hold_only hh.port only_refl)
  · exact ha (portAnswer_only hh only_refl)
  · have H := check_only hh.toCheckIn (q := hostAsk s b t w o) (only_refl (s := s))
    generalize check (hostAsk s b t w o) s = r at H ⊢
    obtain ⟨v, d⟩ := r
    dsimp only
    split_ifs
    · exact ha (portAnswer_only hh H)
    · exact hp (portAnswer_only hh H)

end Sys2Proof.Laws
end

section
/-! SUPPORT. What keeps the legends legal: every step that leaves the table of legends, and each write of one entry that the model
makes. -/

namespace Sys2Proof.Laws
open Sys2Proof.Machine

variable {s t u : State}

/-! ### The number of pinned entries -/

/-- The entries of a table of legends that have PIN set. -/
def pins (m : Tbl W32) : Nat := (m.filter (fun e => bit e.2 7)).length

theorem pins_tins (m : Tbl W32) (k : Nat) (v : W32) : pins (tins m k v) = pins m + (if bit v 7 then 1 else 0) := by
  induction m with
  | nil => cases hv : bit v 7 <;> simp [pins, tins, hv]
  | cons e m ih =>
    obtain ⟨j, w⟩ := e
    unfold tins
    split
    · cases hv : bit v 7 <;> simp [pins, hv]
    · cases hw : bit w 7 <;> simp only [pins, List.filter_cons, hw, if_true, List.length_cons, Bool.false_eq_true, if_false] at ih ⊢ <;> omega
theorem pins_tdel_le (m : Tbl W32) (k : Nat) : pins (tdel m k) ≤ pins m := ((tdel_sublist m k).filter _).length_le
/-- Taking out a pinned entry leaves one pinned entry less. -/
theorem pins_tdel_of_pinned {m : Tbl W32} {k : Nat} {v : W32} (h : (k, v) ∈ m) (hv : bit v 7 = true) : pins (tdel m k) + 1 ≤ pins m := by
  induction m with
  | nil => cases h
  | cons e m ih =>
    obtain ⟨j, w⟩ := e
    have hle := pins_tdel_le m k
    unfold tdel
    split
    · rcases List.mem_cons.1 h with e | h
      · obtain ⟨-, rfl⟩ := Prod.mk.inj e
        simp only [pins, List.filter_cons, hv, if_true, List.length_cons] at hle ⊢
        omega
      · have := ih h
        cases hw : bit w 7 <;> simp only [pins, List.filter_cons, hw, if_true, List.length_cons, Bool.false_eq_true, if_false] at this ⊢ <;> omega
    · rename_i hj
      have hm : (k, v) ∈ m := (List.mem_cons.1 h).resolve_left (fun e => hj (Prod.mk.inj e).1.symm)
      have := ih hm
      cases hw : bit w 7 <;> simp only [pins, List.filter_cons, hw, if_true, List.length_cons, Bool.false_eq_true, if_false] at this ⊢ <;> omega

/-- What a table reads as is its default or an entry's value. -/
theorem tget_mem {α : Type} (d : α) (m : Tbl α) (k : Nat) : tget d m k = d ∨ (k, tget d m k) ∈ m := by
  induction m with
  | nil => exact .inl rfl
  | cons e m ih =>
    obtain ⟨j, w⟩ := e
    unfold tget tfind?
    split
    · subst_vars; simp
    · exact ih.imp_right (List.mem_cons_of_mem _)

/-! ### Legal legends -/

theorem pinnedCount_eq : pinnedCount s = pins s.legends := rfl

theorem legendsLegal_of_eq (h : t.legends = s.legends) (H : legendsLegal s) : legendsLegal t := by
  unfold legendsLegal at H ⊢
  rw [pinnedCount_eq, h]
  exact H

/-- A legal table of legends reads as legal legends. -/
theorem legend_colour_le (H : legendsLegal s) (c : Nat) : fld (legend s c) 3 0 ≤ 13 := by
  obtain ⟨-, hcol, -⟩ := H
  rcases tget_mem legendReset s.legends c with h | h
  · rw [legend, h]; decide
  · exact hcol _ h

/-- An entry written with a legal colour, and pinned only where it was or where a pin is left, leaves the legends legal. -/
theorem legendsLegal_put {c : Nat} {w : W32} (ht : t.legends = tset legendReset s.legends c w) (hcol : fld w 3 0 ≤ 13)
    (hpin : bit w 7 = true → bit (legend s c) 7 = true ∨ pinnedCount s < 32) (H : legendsLegal s) : legendsLegal t := by
  obtain ⟨hcanon, hcols, hpins⟩ := H
  rw [pinnedCount_eq] at hpin hpins
  have hdel := pins_tdel_le s.legends c
  unfold legendsLegal
  rw [pinnedCount_eq, ht]
  refine ⟨tset_canon _ _ _ hcanon, fun e he => ?_, ?_⟩
  · unfold tset at he
    split at he
    · exact hcols e (mem_tdel.1 he).1
    · rcases mem_tput.1 he with rfl | ⟨he, -⟩
      · exact hcol
      · exact hcols e he
  · unfold tset
    split
    · omega
    · rw [tput, pins_tins]
      by_cases hw : bit w 7 = true
      · rw [if_pos hw]
        rcases hpin hw with hold | hlt
        · rcases tget_mem legendReset s.legends c with h | h
          · rw [legend, h] at hold; exact absurd hold (by decide)
          · have := pins_tdel_of_pinned h hold; omega
        · omega
      · rw [if_neg hw]; omega

/-- The legend as written has a legal colour. -/
theorem legendWritten_colour {c : Nat} {v : W32} (h : fld (legend s c) 3 0 ≤ 13) : fld (legendWritten s c v) 3 0 ≤ 13 := by
  unfold legendWritten
  extract_lets old v1 v2
  have h2 : fld v2 3 0 ≤ 13 := by
    simp only [v2]
    split
    · have e : fld ((v1 &&& 0xFFFFFFF0) ||| (old &&& 0xF)) 3 0 = fld old 3 0 := by
        simp only [fld, BitVec.toNat_or, BitVec.toNat_and, Nat.pow_zero, Nat.div_one]
        rw [show 3 - 0 + 1 = 4 from rfl, ← Nat.and_two_pow_sub_one_eq_mod, ← Nat.and_two_pow_sub_one_eq_mod, Nat.and_or_distrib_right,
          Nat.and_assoc, Nat.and_assoc]
        simp
      rw [e]; exact h
    · omega
  split
  · have e : fld (v2 &&& 0xFFFFFF7F) 3 0 = fld v2 3 0 := by
      simp only [fld, BitVec.toNat_and, Nat.pow_zero, Nat.div_one]
      rw [show 3 - 0 + 1 = 4 from rfl, ← Nat.and_two_pow_sub_one_eq_mod, ← Nat.and_two_pow_sub_one_eq_mod, Nat.and_assoc]
      simp
    rw [e]; exact h2
  · exact h2
/-- The legend as written has a pin only where it had one or where one is left. -/
theorem legendWritten_pin {c : Nat} {v : W32} (h : bit (legendWritten s c v) 7 = true) :
    bit (legend s c) 7 = true ∨ pinnedCount s < 32 := by
  unfold legendWritten at h
  extract_lets old v1 v2 at h
  by_contra hc
  obtain ⟨ho, hp⟩ := not_or.1 hc
  split at h
  · simp [bit] at h
  · rename_i hn
    refine hn ?_
    simp only [Bool.and_eq_true, decide_eq_true_eq, Bool.not_eq_true']
    exact ⟨⟨h, Bool.eq_false_iff.mpr ho⟩, Nat.le_of_not_lt hp⟩

end Sys2Proof.Laws
end

section
/-! PROOFS. Every step keeps the legends legal. -/

namespace Sys2Proof.Laws
open Sys2Proof.Machine

variable {s t u : State}

/-! ### What leaves the table of legends -/

/-- Everything but the legends. -/
def offLegends : Set Area := fun p => p ≠ .legends ∧ ∀ c, p ≠ .legend c

theorem legal_of_only (h : Only offLegends s t) (H : legendsLegal s) : legendsLegal t :=
  legendsLegal_of_eq (h .legends (fun hp => hp.1 rfl)) H

theorem offLegends_page : PageIn offLegends :=
  { heldRecs := ⟨nofun, nofun⟩, rdrop := ⟨nofun, nofun⟩, err := fun _ => ⟨nofun, nofun⟩, cache := ⟨nofun, nofun⟩, grid := ⟨nofun, nofun⟩,
    atlas := ⟨nofun, nofun⟩, fab := ⟨nofun, nofun⟩, link := fun _ => ⟨nofun, nofun⟩, offered := ⟨nofun, nofun⟩, outst := ⟨nofun, nofun⟩,
    out := ⟨nofun, nofun⟩, tele := ⟨nofun, nofun⟩, queue := fun _ => ⟨nofun, nofun⟩, spill := ⟨nofun, nofun⟩, sync := ⟨nofun, nofun⟩,
    arrivals := ⟨nofun, nofun⟩, resp := ⟨nofun, nofun⟩, port := ⟨nofun, nofun⟩, ctl := ⟨nofun, nofun⟩, slots := ⟨nofun, nofun⟩,
    book := fun _ => ⟨nofun, nofun⟩, input := fun _ => ⟨nofun, nofun⟩, halt := ⟨nofun, nofun⟩, flash := ⟨nofun, nofun⟩,
    tags := ⟨nofun, nofun⟩, glob := ⟨nofun, nofun⟩,
    leg := fun _ =>
      { heldRecs := ⟨nofun, nofun⟩, rdrop := ⟨nofun, nofun⟩, err := fun _ => ⟨nofun, nofun⟩, cache := ⟨nofun, nofun⟩, grid := ⟨nofun, nofun⟩,
        ctx := ⟨nofun, nofun⟩, fetches := ⟨nofun, nofun⟩, lcache := ⟨nofun, nofun⟩, power := ⟨nofun, nofun⟩, grat := ⟨nofun, nofun⟩,
        lane := fun _ => ⟨⟨nofun, nofun⟩, ⟨nofun, nofun⟩⟩, offered := ⟨nofun, nofun⟩, outst := ⟨nofun, nofun⟩, out := ⟨nofun, nofun⟩,
        evo := fun _ => ⟨nofun, nofun⟩ } }
theorem offLegends_tick : TickIn offLegends :=
  { toAnyIn := offLegends_page.toAnyIn, sync := ⟨nofun, nofun⟩, mer := ⟨nofun, nofun⟩, pending := ⟨nofun, nofun⟩, eclk := ⟨nofun, nofun⟩,
    port := ⟨nofun, nofun⟩, nextTag := ⟨nofun, nofun⟩, dbg := ⟨nofun, nofun⟩, book := fun _ => ⟨nofun, nofun⟩, fences := ⟨nofun, nofun⟩,
    tags := ⟨nofun, nofun⟩, glob := ⟨nofun, nofun⟩, slots := ⟨nofun, nofun⟩, ctl := ⟨nofun, nofun⟩, remotes := ⟨nofun, nofun⟩,
    arrivals := ⟨nofun, nofun⟩, input := fun _ => ⟨nofun, nofun⟩, halt := ⟨nofun, nofun⟩, staged := ⟨nofun, nofun⟩,
    recClk := ⟨nofun, nofun⟩, upsets := ⟨nofun, nofun⟩, mgt := ⟨nofun, nofun⟩ }

theorem offLegends_leg (c : Nat) : LegIn c offLegends := offLegends_page.leg c
theorem offLegends_control (c : Nat) : ControlIn c offLegends := ⟨offLegends_leg c, ⟨nofun, nofun⟩⟩
theorem hostAreas_offLegends : hostAreas ⊆ offLegends := hostAreas_sub offLegends_page.hostIn

/-! ### A legend written -/

theorem writeLegend_legends {c : Nat} {v : W32} : (writeLegend c v s).legends = tset legendReset s.legends c (legendWritten s c v) := by
  unfold writeLegend
  extract_lets old s1 s2
  have h : Only offLegends s1 (if (!legPin s2 c && decide ((ctx s2 c).r.state = .off)) = true then releaseSlot c s2 else s2) := by
    have H2 : Only offLegends s1 s2 := only_ite (put_modW (offLegends_leg c).ctx only_refl) only_refl
    exact only_ite (releaseSlot_only (offLegends_leg c).ctx ⟨nofun, nofun⟩ H2) H2
  exact h .legends (fun hp => hp.1 rfl)
theorem writeLegend_legal {c : Nat} {v : W32} (H : legendsLegal s) : legendsLegal (writeLegend c v s) :=
  legendsLegal_put writeLegend_legends (legendWritten_colour (legend_colour_le H c)) legendWritten_pin H

/-! ### A register of the window written -/

theorem write32_legal {o : Nat} {v : W32} {x : BitVec 512} (H : legendsLegal u) : legendsLegal (write32 o v x u) := by
  have h := offLegends_page
  have hm : .mer ∈ offLegends := ⟨nofun, nofun⟩
  by_cases h3 : 0x3000 ≤ o ∧ o < 0x4000
  · rw [write32_mer h3.1 h3.2]
    exact legal_of_only (page_writeMer32 h hm ⟨nofun, nofun⟩ only_refl) H
  by_cases h6 : 0x6000 ≤ o ∧ o < 0x7000
  · rw [write32_fab h6.1 h6.2]
    exact legal_of_only (page_writeFab32 h hm only_refl) H
  by_cases h8 : o < 0x8000
  · exact legal_of_only (page_write32 h (by omega) (by omega) h8 only_refl) H
  rw [write32_channel (by omega)]
  by_cases ha : o % 32 = 0x10
  · rw [ha]; exact writeLegend_legal H
  · exact legal_of_only (page_writeChannel h ha only_refl) H
theorem write64_legal {o : Nat} {v : W64} {x : BitVec 512} (H : legendsLegal u) : legendsLegal (write64 o v x u) := by
  have h := offLegends_page
  have hm : .mer ∈ offLegends := ⟨nofun, nofun⟩
  refine legal_of_only ?_ H
  by_cases h3 : 0x3000 ≤ o ∧ o < 0x4000
  · rw [write64_mer h3.1 h3.2]
    exact page_writeMer64 h hm ⟨nofun, nofun⟩ only_refl
  by_cases h6 : 0x6000 ≤ o ∧ o < 0x7000
  · rw [write64_fab h6.1 h6.2]
    exact page_writeFab64 h hm only_refl
  · exact page_write64 h (by omega) (by omega) only_refl
theorem registerWrite_legal {b : Initiator} {o z : Nat} {d : W64} {x : BitVec 512} (H : legendsLegal u) :
    legendsLegal (registerWrite b o z d x u) :=
  registerWrite_keeps (legal_of_only (setLow_only offLegends_page.port only_refl)) (fun _ _ => write32_legal) (fun _ _ => write64_legal) H

/-! ### An uncorrectable word of the context store -/

theorem loseContext_legal {k : Nat} (H : legendsLegal u) : legendsLegal (loseContext k u) := by
  have hc := offLegends_leg (k / 32)
  unfold loseContext
  extract_lets c u1
  have H1 : legendsLegal u1 := by
    simp only [u1]
    split_ifs
    · exact legendsLegal_put (c := c) (w := 0) rfl (by decide) (fun h => absurd h (by decide)) H
    · exact H
  split_ifs
  · exact legal_of_only (put_modR hc.ctx only_refl) H1
  · exact legal_of_only (faultPc_only hc.toFaultIn only_refl) H
theorem cleanWord_legal {w : Nat × Nat} (H : legendsLegal u) : legendsLegal (cleanWord w u) :=
  legal_of_only (cleanWord_only offLegends_page.atlas only_refl) H
theorem uncorrected_legal {a b : Nat} {w : W64} (H : legendsLegal u) : legendsLegal (uncorrected a b w u) :=
  legal_of_only (uncorrected_only offLegends_page.toErrIn only_refl) H
theorem corrected_legal {a b : Nat} {w : W64} (H : legendsLegal u) : legendsLegal (corrected a b w u) :=
  legal_of_only (corrected_only offLegends_page.toErrIn only_refl) H
theorem contextFound_legal {k : Nat} {f : Found} (H : legendsLegal u) : legendsLegal (contextFound k f u) := by
  unfold contextFound
  split
  · exact H
  · exact corrected_legal H
  · exact loseContext_legal (uncorrected_legal H)
theorem contextRead_legal {c k : Nat} {f : Found} (H : legendsLegal u) : legendsLegal (contextRead c k f u) := by
  unfold contextRead
  generalize List.range 32 = l
  induction l generalizing u with
  | nil => exact H
  | cons j l ih => exact ih (contextFound_legal (cleanWord_legal H))

theorem transferDone_legal {f : Found} {k : Nat} (H : legendsLegal u) : legendsLegal (transferDone f k u) := by
  have h := offLegends_control
  unfold transferDone
  split
  · exact H
  split
  · exact H
  rename_i w _ _ _
  split_ifs
  · exact H
  extract_lets g s1 wb s2 s3 moved s4
  have H1 : legendsLegal s1 := legal_of_only (put_glob (u := { u with swap := none }) offLegends_page.glob rfl rfl
    (put_swap ⟨nofun, nofun⟩ only_refl)) H
  clear_value s1 wb
  have H2 : legendsLegal s2 := by
    refine legal_of_only ?_ H1
    simp only [s2]; split
    · exact only_ite only_refl (pagedOut_only (h _).ctx (h 0).fetches offLegends_page.atlas only_refl)
    · exact only_refl
  clear_value s2
  have H3 : legendsLegal s3 := by
    simp only [s3]; split
    · exact legal_of_only (pagedIn_only (h _) only_refl) (contextRead_legal H2)
    · exact legal_of_only (put_slots (h 0).slots only_refl) H2
  clear_value s3
  have H4 : legendsLegal s4 :=
    legal_of_only (only_foldl _ (fun _ _ H => applyCtl_only (h _) H) (put_ctl offLegends_page.ctl only_refl)) H3
  clear_value s4
  split
  · exact legal_of_only (afterPageIn_only (h _) only_refl) H4
  · exact H4

theorem loseWord_legal {a k : Nat} (H : legendsLegal u) : legendsLegal (loseWord a k u) := by
  have h := offLegends_page
  unfold loseWord
  split
  · exact cleanWord_legal (loseContext_legal H)
  · split
    · exact legal_of_only (put_lcache (offLegends_leg 0).lcache only_refl) H
    · exact H
  · exact legal_of_only (only_ite (loseEntry_only ⟨h.toErrIn, (offLegends_leg 0).grat, h.atlas⟩ only_refl) (cleanWord_only h.atlas only_refl)) H
  all_goals first
    | exact legal_of_only (addBad_only h.atlas only_refl) H
    | exact legal_of_only (put_setLane ((offLegends_leg 0).lane _) only_refl) H
theorem fixWord_legal {a k : Nat} (H : legendsLegal u) : legendsLegal (fixWord a k u) := by
  unfold fixWord
  split
  · split
    · exact legal_of_only (put_lcache (offLegends_leg 0).lcache only_refl) H
    · exact H
  all_goals first
    | exact legal_of_only (put_setLane ((offLegends_leg 0).lane _) only_refl) H
    | exact legendsLegal_of_eq rfl H
theorem setScrub_legal {f : Scrub → Scrub} (H : legendsLegal u) : legendsLegal (setScrub f u) := legendsLegal_of_eq rfl H
theorem scrubWord_legal {a : Nat} {f : Found} (H : legendsLegal u) : legendsLegal (scrubWord a f u) := by
  unfold scrubWord
  extract_lets k at_ s1 last s2
  have H1 : legendsLegal s1 := by
    simp only [s1]
    split
    · exact H
    · exact setScrub_legal (fixWord_legal (corrected_legal H))
    · exact loseWord_legal (uncorrected_legal H)
  clear_value s1
  have H2 : legendsLegal s2 := setScrub_legal H1
  split_ifs
  · refine legal_of_only ?_ H2
    unfold passDone
    exact only_ite (offerNow_only offLegends_page.toRecIn (put_mgt ⟨nofun, nofun⟩ rfl rfl only_refl)) (put_mgt ⟨nofun, nofun⟩ rfl rfl only_refl)
  · exact H2
theorem scrubStep_legal {a : Nat} {f : Found} (H : legendsLegal u) : legendsLegal (scrubStep a f u) := by
  unfold scrubStep
  split_ifs
  · exact H
  · exact scrubWord_legal H
theorem forcedSlot_legal {a : Nat} {f : Found} (H : legendsLegal u) : legendsLegal (forcedSlot a f u) := by
  unfold forcedSlot
  extract_lets s1
  split_ifs
  · exact H
  · exact legal_of_only (capture_only offLegends_page.tele only_refl) (setScrub_legal H)
  · exact scrubWord_legal (setScrub_legal H)

/-! ### Resets -/

theorem legendsLegal_nil (h : s.legends = []) : legendsLegal s := by
  unfold legendsLegal
  rw [pinnedCount_eq, h]
  exact ⟨rfl, fun e he => absurd he List.not_mem_nil, Nat.zero_le _⟩
theorem resetWaitEnd_legal (H : legendsLegal s) : legendsLegal (resetWaitEnd s) := by
  unfold resetWaitEnd
  split
  · split_ifs
    · exact H
    · exact H
    · exact legendsLegal_nil rfl
  · exact H
theorem resetRelease_legal (H : legendsLegal s) : legendsLegal (resetRelease s) := by
  unfold resetRelease
  split
  · split_ifs
    · exact H
    · exact legendsLegal_nil rfl
  · exact H

/-! ### Every step -/

theorem exec_legal {i : Instr} (h : exec i s = .next t) (H : legendsLegal s) : legendsLegal t := by
  cases hr : reachesLegends i with
  | false => exact legendsLegal_of_eq (exec_legends hr h) H
  | true =>
    cases i
    case chLegendWrite b c v =>
      cases h
      exact hostAccess_keeps (fun h => legal_of_only (only_mono hostAreas_offLegends h) H) (fun h =>
        writeLegend_legal (legal_of_only (only_ite (setLow_only offLegends_page.port only_refl) only_refl)
          (legal_of_only (only_mono hostAreas_offLegends h) H)))
    case hostRegisterWrite b o z d x =>
      cases h
      have K {v : State} (h : Only hostAreas s v) : legendsLegal v := legal_of_only (only_mono hostAreas_offLegends h) H
      split_ifs
      · exact K (badAccess_only hostIn_self only_refl)
      · exact K (mgtWrite_only hostIn_self only_refl)
      · exact hostAccess_keeps K (fun h => registerWrite_legal (K h))
    case pageTransferDone f k =>
      cases h
      split_ifs
      · exact transferDone_legal H
      · exact H
    case scrubStep => cases h; exact scrubStep_legal H
    case scrubForcedSlot => cases h; exact forcedSlot_legal H
    case coldReset | warmReset => cases h; exact legendsLegal_nil rfl
    case engineResetWaitEnd => cases h; exact resetWaitEnd_legal H
    case resetRelease => cases h; exact resetRelease_legal H
    all_goals cases hr

/-- Settles O58: a command is one of those that leave the table of legends, or writes entries that keep it legal; an ECLK in which no
command waits leaves the table. -/
theorem legendsStayLegal : Obligations.LegendsStayLegal := by
  unfold Obligations.LegendsStayLegal
  intro s t H h
  unfold step at h
  split at h
  · exact exec_legal h (legendsLegal_of_eq rfl H)
  · cases h
    exact legal_of_only (tick_only offLegends_tick only_refl) H

end Sys2Proof.Laws
end

section
/-! SUPPORT. The frame of the engine's own work in one ECLK. Of `TickIn` it needs no Meridian, no control writes and none of the global
page's other fields, so that it shows that the work leaves them. -/

namespace Sys2Proof.Laws
open Sys2Proof.Machine

variable {S : Set Area} {s u : State}

/-- What the engine's own work may change. -/
structure WorkIn (S : Set Area) : Prop extends AnyIn S where
  sync : .sync ∈ S
  nextTag : .nextTag ∈ S
  dbg : .dbg ∈ S
  book : ∀ b, .book b ∈ S
  tags : .tags ∈ S
  remotes : .remotes ∈ S
  arrivals : .arrivals ∈ S
  halt : .halt ∈ S
  upsets : .upsets ∈ S

variable (h : WorkIn S)
include h


/-! ### Errors, and lookups that complete -/

theorem upsetWord_work {x} (H : Only S s u) : Only S s (upsetWord x u) := by
  unfold upsetWord
  split
  · split
    · exact put_lcache (h.leg 0).lcache H
    · exact H
  all_goals first
    | exact only_ite H (only_ite (only_ite H (putAtlas_only h.toCheckIn H)) (addBad_only h.atlas H))
    | exact put_modQ (h.queue _) H
    | exact only_ite (putAtlas_only h.toCheckIn H) H
    | exact put_setLane ((h.leg 0).lane _) H
theorem applyUpsets_work (H : Only S s u) : Only S s (applyUpsets u) :=
  only_foldl _ (fun _ _ H => upsetWord_work h H) (put_upsets h.upsets H)
theorem allowAcc_work {a v} (H : Only S s u) : Only S s (allowAcc a v u) := by
  unfold allowAcc
  refine only_ite ?_ (put_offered h.offered H)
  extract_lets ps s1
  have H1 : Only S s s1 := put_offered h.offered H
  clear_value s1
  split
  · exact only_foldl _ (fun _ _ H => addCovered_only ((h.leg _).ctx) H) H1
  · exact H1
theorem allowOnly_work {a} (H : Only S s u) : Only S s (allowOnly a u) := by
  unfold allowOnly
  extract_lets first s1
  refine put_offered h.offered ?_
  simp only [s1]
  split
  · simp only [first]
    split
    · exact only_ite H (put_setLane ((h.leg 0).lane _) H)
    · exact H
  · exact H
theorem matureAcc_work {a} (H : Only S s u) : Only S s (matureAcc u a) := by
  unfold matureAcc
  split
  · rename_i q _
    refine only_ite H ?_
    have H1 := settle_only (q := q) (f := false) h.toCheckIn H
    generalize settle q false u = r at H1
    obtain ⟨t, v⟩ := r
    dsimp only
    split
    · exact denyAcc_only (h.toAnyIn.acc h.dbg h.book a t) h.offered H1
    · exact only_ite (allowOnly_work h H1) (allowAcc_work h H1)
  · exact H
theorem denyFetch_work {f} (H : Only S s u) : Only S s (denyFetch f u) := by
  unfold denyFetch
  split
  · exact dropFetch_only (h.leg 0).fetches H
  · exact endRetry_only h.halt (dropFetch_only (h.leg 0).fetches H)
  · exact put_fetches (h.leg 0).fetches H
theorem matureFetch_work {f} (H : Only S s u) : Only S s (matureFetch u f) := by
  unfold matureFetch
  refine only_ite H ?_
  have H1 := settle_only (q := askFetch f) (f := decide (f.kind = .prefetch)) h.toCheckIn H
  generalize settle (askFetch f) (decide (f.kind = .prefetch)) u = r at H1
  obtain ⟨t, v⟩ := r
  exact only_ite (put_fetches (h.leg 0).fetches H1) (denyFetch_work h H1)
theorem lookups_work (H : Only S s u) : Only S s (lookups u) :=
  only_foldl _ (fun _ _ H => matureFetch_work h H) (only_foldl _ (fun _ _ H => matureAcc_work h H) H)

/-! ### Accesses that are not issued -/

theorem withdraw_work {a} (H : Only S s u) : Only S s (withdraw a u) := by
  have H1 : Only S s { u with offered := u.offered.erase a } := put_offered h.offered H
  unfold withdraw
  dsimp only
  split
  · exact only_ite (dropCovered_only ((h.leg _).ctx) H1) H1
  · exact dropCovered_only ((h.leg _).ctx) H1
  · exact H1
theorem trimAcc_work {a} (H : Only S s u) : Only S s (trimAcc u a) := by
  unfold trimAcc
  split
  · split
    · exact only_ite (withdraw_work h H) (only_ite H (put_offered h.offered H))
    · exact H
  · exact H
theorem noteDown_work {d n a} (H : Only S s u) : Only S s (noteDown d n a u) :=
  have H1 := markSet_only (k := w1cKey 0xB8 48) (setPower_only (h.leg 0).power H)
  only_ite H1 (pdRec_only h.toRecIn H1)
theorem endsDown_work {a d} (H : Only S s u) : Only S s (endsDown a d u) := by
  have H1 : Only S s { u with offered := u.offered.erase a } := put_offered h.offered H
  unfold endsDown
  dsimp only
  split
  · exact inboundUnit_only h.toSendIn (noteDown_work h H1)
  · exact only_ite (writeEnd_only (h.toAnyIn.acc h.dbg h.book _ _) (noteDown_work h H1)) (readEnd_only (h.toAnyIn.acc h.dbg h.book _ _) (noteDown_work h H1))
theorem meetsShut_work {a d} (H : Only S s u) : Only S s (meetsShut a d u) := by
  unfold meetsShut
  dsimp only
  split
  · exact only_ite (put_setLane ((h.leg 0).lane _) (withdraw_work h H)) (put_setLane ((h.leg 0).lane _) (withdraw_work h H))
  · exact goHeld_only ((h.leg _).ctx) (h.leg 0).power H
  · exact only_ite (withdraw_work h H) (goHeld_only ((h.leg _).ctx) (h.leg 0).power H)
  · exact only_ite (endsDown_work h H) H
theorem sweepOne_work {a} (H : Only S s u) : Only S s (sweepOne u a) := by
  unfold sweepOne
  refine only_ite H ?_
  split
  · exact meetsShut_work h H
  · exact H
theorem sweep_work (H : Only S s u) : Only S s (sweep u) :=
  only_foldl _ (fun _ _ H => trimAcc_work h H) (only_foldl _ (fun _ _ H => sweepOne_work h H) (only_foldl _ (fun _ _ H => trimAcc_work h H) H))

theorem storeIssued_work {c l} (H : Only S s u) : Only S s (storeIssued c l u) :=
  only_ite (finish_only (h.leg c).toFaultIn (addEnergy_only ((h.leg c).ctx) h.tele (put_modW ((h.leg c).ctx) H))) (put_modW ((h.leg c).ctx) H)
theorem countIssue_work {a} (H : Only S s u) : Only S s (countIssue a u) := by
  unfold countIssue
  dsimp only
  split
  · exact put_setLane ((h.leg 0).lane _) H
  · exact blockEnergy_only h.tele H
  · exact blockEnergy_only h.tele H
  · exact blockEnergy_only h.tele H
  · exact H
theorem issueAcc_work {a p} (H : Only S s u) : Only S s (issueAcc a p u) := by
  unfold issueAcc
  extract_lets a' s1 s2
  have H1 : Only S s s1 := only_put H (fun q hq => by
    have ho := h.offered
    have ht := h.outst
    have hn := h.nextTag
    cases q <;> first | rfl | exact ⟨rfl, rfl⟩ | exact absurd ho hq | exact absurd ht hq | exact absurd hn hq)
  have H2 : Only S s s2 := countIssue_work h (markTags_only h.tags H1)
  clear_value s2
  split
  · split
    · exact put_setLane ((h.leg 0).lane _) H2
    · exact H2
  · exact storeIssued_work h H2
  · exact H2
theorem issuePorts_work {t} (n : Nat) (x y : List Nat) (H : Only S s u) : Only S s (issuePorts t n x y u) := by
  induction n generalizing x y u with
  | zero => exact H
  | succ n ih =>
    unfold issuePorts
    dsimp only
    split
    · exact H
    · exact only_ite (ih _ _ (issueAcc_work h H)) (ih _ _ (issueAcc_work h H))
theorem sweepFetch_work {f} (H : Only S s u) : Only S s (sweepFetch u f) := by
  unfold sweepFetch
  refine only_ite H ?_
  split
  · exact only_foldl _ (fun _ _ H => goHeld_only ((h.leg _).ctx) (h.leg 0).power H) (dropFetch_only (h.leg 0).fetches H)
  · exact only_ite (dropFetch_only (h.leg 0).fetches H) H
theorem issueFetch_work (H : Only S s u) : Only S s (issueFetch u) := by
  unfold issueFetch
  dsimp only
  split
  · exact H
  · split
    · exact put_modR ((h.leg _).ctx) (put_fetches (h.leg 0).fetches H)
    · exact put_fetches (h.leg 0).fetches H
theorem countSent_work {l} (H : Only S s u) : Only S s (countSent l u) :=
  only_foldl _ (fun _ _ H => by
    dsimp only
    split
    · exact put_setLane ((h.leg 0).lane _) H
    · exact H) H
theorem sendAcc_work {a c} (H : Only S s u) : Only S s (sendAcc a c u) := by
  unfold sendAcc
  extract_lets us rt eld tag o fb s1 s2 s3
  have H1 : Only S s s1 := only_put H (fun q hq => by
    have ho := h.offered
    have ht := h.out
    cases q <;> first | rfl | exact ⟨rfl, rfl⟩ | exact absurd ho hq | exact absurd ht hq)
  have H2 : Only S s s2 := countSent_work h (markTags_only h.tags H1)
  clear_value s2
  have H3 : Only S s s3 := only_ite (routeFrame_only h.toAnyIn H2) (outFails_only (h.toAnyIn.ends _ _ _) (takeOut_only h.out H2))
  clear_value s3
  split
  · exact storeIssued_work h H3
  · exact H3
theorem outOne_work {a} (H : Only S s u) : Only S s (outOne u a) := by
  unfold outOne
  split
  · exact only_ite (sendAcc_work h H) H
  · exact H
theorem issueAll_work (H : Only S s u) : Only S s (issueAll u) :=
  only_ite (only_foldl _ (fun _ _ H => outOne_work h H) (issueFetch_work h (issuePorts_work h _ _ _
    (sweep_work h (only_foldl _ (fun _ _ H => sweepFetch_work h H) H))))) H

theorem txPort_work {p} (H : Only S s u) : Only S s (txPort p u) := by
  unfold txPort
  extract_lets x s1
  have H1 : Only S s s1 := put_setPort (h.link p) H
  clear_value s1
  split
  · exact freeFlits_only h.link (only_ite (put_sync h.sync H1) H1)
  · exact H1
theorem txPorts_work (H : Only S s u) : Only S s (txPorts u) := only_foldl _ (fun _ _ H => txPort_work h H) H
theorem countBusy_work (H : Only S s u) : Only S s (countBusy u) :=
  only_put H (fun q hq => by
    have hl := (h.leg 0).lane
    cases q <;> first | rfl | exact ⟨rfl, rfl⟩ | exact absurd (hl _).1 hq | exact absurd (hl 0).2 hq)
theorem countFlash_work (H : Only S s u) : Only S s (countFlash u) :=
  only_put H (fun q hq => by
    have hc := fun c => (h.leg c).ctx
    cases q <;> first | rfl | exact ⟨rfl, rfl⟩ | exact absurd (hc _) hq)

theorem serveQueues_work (H : Only S s u) : Only S s (serveQueues u) :=
  only_foldl _ (fun _ _ H => hostStep_only (h.toAnyIn.queueIn _) H)
    (eachLane_only (fun _ _ H => queueStep_only (fun _ _ => h.toAnyIn.laneIn _ _) h.toAnyIn.queueIn H) (forceAll_only h.queue H))
theorem works_work (H : Only S s u) : Only S s (works u) :=
  only_ite H (eachLane_only (fun _ _ H => advance_only (fun _ _ => h.toAnyIn.laneIn _ _) H)
    (eachLane_only (fun _ _ H => startCopy_only (fun _ _ => h.toAnyIn.laneIn _ _) h.tags H)
      (serveQueues_work h (lookups_work h (handOvers_only (fun c => (h.leg c).toFaultIn) h.toSendIn h.arrivals h.remotes
        (copyEnds_only h.toCheckIn (applyUpsets_work h H)))))))
theorem resetTick_work (H : Only S s u) : Only S s (resetTick u) := by
  unfold resetTick
  split
  · refine only_ite (only_put H (fun q hq => ?_)) H
    have he := (h.leg 0).evo
    have hl := h.link
    have hp := (h.leg 0).power
    cases q <;> first | rfl | exact ⟨rfl, rfl⟩ | exact absurd (he _) hq | exact absurd (hl _) hq | exact absurd hp hq
  · exact H

end Sys2Proof.Laws
end

section
/-! SUPPORT. Meridian's count as the clock that it is: what leaves it, what sets it forward, and what takes back the corrections of an
ECLK. -/

namespace Sys2Proof.Laws
open Sys2Proof.Machine

variable {S : Set Area} {s t u v : State}

/-- The count, its slew, and what this ECLK's corrections are taken back to. -/
structure Clock where
  now : Nat
  slew : Nat
  slewed : Int
  was : Option (Nat × Mer × List HeldRec)
  eclk : Nat
def clock (u : State) : Clock := ⟨u.mer.now, u.mer.slew, u.mer.slewed, u.merWas, u.eclk⟩

/-- Everything but Meridian and the ECLK. -/
def offClock : Set Area := fun p => p ≠ .mer ∧ p ≠ .merWas ∧ p ≠ .eclk

theorem clock_of_only (h : Only offClock s t) : clock t = clock s := by
  have hm : t.mer = s.mer := h .mer (fun hp => hp.1 rfl)
  have hw : t.merWas = s.merWas := h .merWas (fun hp => hp.2.1 rfl)
  have he : t.eclk = s.eclk := h .eclk (fun hp => hp.2.2 rfl)
  unfold clock
  rw [hm, hw, he]

theorem offClock_page : PageIn offClock :=
  { heldRecs := ⟨nofun, nofun, nofun⟩, rdrop := ⟨nofun, nofun, nofun⟩, err := fun _ => ⟨nofun, nofun, nofun⟩, cache := ⟨nofun, nofun, nofun⟩,
    grid := ⟨nofun, nofun, nofun⟩, atlas := ⟨nofun, nofun, nofun⟩, fab := ⟨nofun, nofun, nofun⟩, link := fun _ => ⟨nofun, nofun, nofun⟩,
    offered := ⟨nofun, nofun, nofun⟩, outst := ⟨nofun, nofun, nofun⟩, out := ⟨nofun, nofun, nofun⟩, tele := ⟨nofun, nofun, nofun⟩,
    queue := fun _ => ⟨nofun, nofun, nofun⟩, spill := ⟨nofun, nofun, nofun⟩, sync := ⟨nofun, nofun, nofun⟩,
    arrivals := ⟨nofun, nofun, nofun⟩, resp := ⟨nofun, nofun, nofun⟩, port := ⟨nofun, nofun, nofun⟩, ctl := ⟨nofun, nofun, nofun⟩,
    slots := ⟨nofun, nofun, nofun⟩, book := fun _ => ⟨nofun, nofun, nofun⟩, input := fun _ => ⟨nofun, nofun, nofun⟩,
    halt := ⟨nofun, nofun, nofun⟩, flash := ⟨nofun, nofun, nofun⟩, tags := ⟨nofun, nofun, nofun⟩, glob := ⟨nofun, nofun, nofun⟩,
    leg := fun _ =>
      { heldRecs := ⟨nofun, nofun, nofun⟩, rdrop := ⟨nofun, nofun, nofun⟩, err := fun _ => ⟨nofun, nofun, nofun⟩,
        cache := ⟨nofun, nofun, nofun⟩, grid := ⟨nofun, nofun, nofun⟩, ctx := ⟨nofun, nofun, nofun⟩, fetches := ⟨nofun, nofun, nofun⟩,
        lcache := ⟨nofun, nofun, nofun⟩, power := ⟨nofun, nofun, nofun⟩, grat := ⟨nofun, nofun, nofun⟩,
        lane := fun _ => ⟨⟨nofun, nofun, nofun⟩, ⟨nofun, nofun, nofun⟩⟩, offered := ⟨nofun, nofun, nofun⟩, outst := ⟨nofun, nofun, nofun⟩,
        out := ⟨nofun, nofun, nofun⟩, evo := fun _ => ⟨nofun, nofun, nofun⟩ } }
theorem offClock_any : AnyIn offClock := offClock_page.toAnyIn
theorem offClock_work : WorkIn offClock :=
  { toAnyIn := offClock_any, sync := ⟨nofun, nofun, nofun⟩, nextTag := ⟨nofun, nofun, nofun⟩, dbg := ⟨nofun, nofun, nofun⟩,
    book := fun _ => ⟨nofun, nofun, nofun⟩, tags := ⟨nofun, nofun, nofun⟩, remotes := ⟨nofun, nofun, nofun⟩,
    arrivals := ⟨nofun, nofun, nofun⟩, halt := ⟨nofun, nofun, nofun⟩, upsets := ⟨nofun, nofun, nofun⟩ }

theorem clock_ite {q : Prop} [Decidable q] (hu : clock u = clock s) (hv : clock v = clock s) : clock (if q then u else v) = clock s := by
  split <;> assumption
theorem clock_foldl {β : Type} {f : State → β → State} (hf : ∀ u x, clock (f u x) = clock u) (l : List β) (u : State) :
    clock (l.foldl f u) = clock u := by
  induction l generalizing u with
  | nil => rfl
  | cons x l ih => rw [List.foldl_cons, ih, hf]

/-! ### What leaves the clock -/

theorem clock_merRec (a d : Nat) (w : Int) (u : State) : clock (merRec a d w u) = clock u :=
  clock_of_only (merRec_only offClock_any.toRecIn only_refl)
theorem clock_rejected (u : State) : clock (rejected u) = clock u := rfl
theorem clock_setMer (x : W64) (u : State) : clock (setMer x u) = clock u := clock_ite (clock_rejected u) rfl
theorem clock_setResp (b : Initiator) (d : W64) (e : Bool) (u : State) : clock (setResp b d e u) = clock u := by cases b <;> rfl
theorem clock_nowRead (b : Initiator) (w : Bool) (u : State) : clock (nowRead b w u) = clock u := by
  unfold nowRead
  cases w <;> exact clock_setResp ..
theorem clock_trySync (u : State) : clock (trySync u) = clock u := clock_ite (clock_merRec 0x5C _ _ u) rfl
theorem clock_stepped (d : Int) (u : State) : clock (stepped d u) = clock u := clock_merRec ..
theorem clock_loseSync (r : Nat) (u : State) : clock (loseSync r u) = clock u := by
  unfold loseSync
  exact (clock_ite (clock_merRec 0x5D r _ u) rfl : clock (if u.mer.sync then merRec 0x5D r _ u else u) = clock u)
theorem clock_holdoverExpiry (u : State) : clock (holdoverExpiry u) = clock u := clock_ite (clock_loseSync 1 u) rfl
theorem clock_pathLost (u : State) : clock (pathLost u) = clock u := clock_ite (clock_ite rfl rfl) rfl
theorem clock_checkParent (u : State) : clock (checkParent u) = clock u := clock_ite (clock_pathLost u) rfl

/-! ### The time parent -/

theorem clock_writeRoute (n : Nat) (x : W32) (u : State) : clock (writeRoute n x u) = clock u := clock_checkParent _
theorem clock_portLost (p : Nat) (u : State) : clock (portLost p u) = clock u :=
  (clock_checkParent _).trans (clock_of_only (failover_only offClock_any.toRecIn (reroute_only offClock_any only_refl)))
theorem clock_portDown (p k : Nat) (u : State) : clock (portDown p k u) = clock u := by
  have h := offClock_any
  exact (clock_of_only (sendNote_only h.toSendIn only_refl)).trans ((clock_portLost p _).trans
    (clock_of_only (fabRec_only h.toRecIn (countUncorrected_only h.toErrIn _ (put_setPort (h.link p) only_refl)))))
theorem clock_linkDown (p k : Nat) (u : State) : clock (linkDown p k u) = clock u := clock_ite rfl (clock_ite (clock_portDown p k u) rfl)
theorem clock_enablePort (p : Nat) (e : Bool) (u : State) : clock (enablePort p e u) = clock u := by
  unfold enablePort
  exact clock_ite (clock_portDown p 2 _) rfl
theorem clock_fencesInForce (u : State) : clock (fencesInForce u) = clock u := clock_foldl (fun u p => clock_portLost p u) _ _
theorem clock_syncFailed (u : State) : clock (syncFailed u) = clock u := clock_ite (clock_pathLost _) rfl
theorem clock_synrTimeout (u : State) : clock (synrTimeout u) = clock u := clock_ite (clock_syncFailed u) rfl
theorem clock_tableWrite (b : Initiator) (o z : Nat) (d : W64) (u : State) : clock (tableWrite b o z d u) = clock u := by
  have hl {k x u} : clock (setLow k x u) = clock u := rfl
  have hs (k x) : clock (stage b k x u) = clock u := clock_of_only (stage_only offClock_page.hostIn only_refl)
  unfold tableWrite
  refine clock_ite (clock_ite ((clock_writeRoute ..).trans (clock_writeRoute ..)) (clock_writeRoute ..)) (clock_ite ?_ rfl)
  exact clock_ite (hl.trans (hs ..)) (clock_ite hl (clock_ite (hs ..) (hl.trans (hs ..))))
theorem clock_cameRl (p : Nat) (x : Hdr) (l : Bool) (f : W16) (es : List W32) (u : State) : clock (cameRl p x l f es u) = clock u := by
  have h := offClock_any
  unfold cameRl
  refine clock_ite ?_ (clock_of_only (sendPath_only h.link only_refl))
  extract_lets s1 s2
  have h1 : clock s1 = clock u := clock_foldl
    (f := fun s e => if f.toNat + e.2 < 4096 then writeRoute (f.toNat + e.2) e.1 s else s) (fun _ _ => clock_ite (clock_writeRoute ..) rfl)
    es.zipIdx u
  have h2 : clock s2 = clock u := (clock_of_only (sendPath_only h.link only_refl)).trans h1
  clear_value s2
  refine clock_ite (Eq.trans ?_ h2) h2
  exact clock_of_only (fabRec_only h.toRecIn (put_fab h.fab rfl rfl only_refl))

/-! ### What the clock says -/

/-- The count as a change of SRC leaves it, and what the slew has given it, are the clock's. -/
theorem merKept_congr (h : clock t = clock s) : (merKept t).now = (merKept s).now ∧ (merKept t).slewed = (merKept s).slewed := by
  simp only [clock, Clock.mk.injEq] at h
  obtain ⟨hn, -, hd, hw, he⟩ := h
  unfold merKept
  rw [hw, he]
  split
  · split
    · exact ⟨rfl, rfl⟩
    · exact ⟨hn, hd⟩
  · exact ⟨hn, hd⟩
theorem slewSmall_congr (h : clock t = clock s) (H : slewSmall s) : slewSmall t := by
  obtain ⟨hkn, hkd⟩ := merKept_congr h
  simp only [clock, Clock.mk.injEq] at h
  obtain ⟨hn, hs, hd, hw, he⟩ := h
  unfold slewSmall at H ⊢
  rw [hkn, hkd, hn, hs, hd, hw, he]
  exact H

/-- The count does not go back. -/
def Ahead (s t : State) : Prop := slewSmall s → slewSmall t ∧ s.mer.now ≤ t.mer.now
/-- The count does not go back behind where it stood before this ECLK's corrections. -/
def Back (s t : State) : Prop := slewSmall s → slewSmall t ∧ (merKept s).now ≤ t.mer.now

theorem ahead_of_clock (h : clock t = clock s) : Ahead s t := fun H => ⟨slewSmall_congr h H, (congrArg Clock.now h).ge⟩
theorem ahead_refl : Ahead s s := ahead_of_clock rfl
theorem ahead_of_only (h : Only offClock s t) : Ahead s t := ahead_of_clock (clock_of_only h)
theorem Ahead.trans (h : Ahead s u) (g : Ahead u t) : Ahead s t := fun H =>
  have ⟨hu, hle⟩ := h H
  have ⟨ht, hle'⟩ := g hu
  ⟨ht, hle.trans hle'⟩
theorem Ahead.back (h : Ahead s t) : Back s t := fun H =>
  have ⟨ht, hle⟩ := h H
  ⟨ht, H.2.2.2.1.trans hle⟩
theorem Back.trans (h : Back s u) (g : Ahead u t) : Back s t := fun H =>
  have ⟨hu, hle⟩ := h H
  have ⟨ht, hle'⟩ := g hu
  ⟨ht, hle.trans hle'⟩
theorem back_of_clock (h : clock u = clock s) (g : Back u t) : Back s t := fun H =>
  have ⟨ht, hle⟩ := g (slewSmall_congr h H)
  ⟨ht, (merKept_congr h).1 ▸ hle⟩

/-! ### Corrections -/

/-- Meridian as it was before this ECLK's corrections is kept. -/
theorem keepMer_was (u : State) : ∃ m hs, (keepMer u).merWas = some (u.eclk, m, hs) := by
  unfold keepMer
  split
  case h_1 t m hs hw =>
    split
    case isTrue ht => exact ⟨m, hs, ht ▸ hw⟩
    case isFalse => exact ⟨_, _, rfl⟩
  case h_2 => exact ⟨_, _, rfl⟩
theorem keepMer_keeps (u : State) : (keepMer u).mer = u.mer ∧ (keepMer u).eclk = u.eclk := by
  unfold keepMer
  split
  · split <;> exact ⟨rfl, rfl⟩
  · exact ⟨rfl, rfl⟩
theorem keepMer_kept (u : State) : merKept (keepMer u) = merKept u := by
  cases hw : u.merWas with
  | none => simp only [keepMer, merKept, hw, if_true]
  | some x =>
    obtain ⟨t, m, hs⟩ := x
    by_cases ht : t = u.eclk
    · simp only [keepMer, hw, if_pos ht]
    · simp only [keepMer, merKept, hw, if_neg ht, if_true]
theorem keepMer_ahead (u : State) : Ahead u (keepMer u) := by
  intro H
  obtain ⟨hm, he⟩ := keepMer_keeps u
  obtain ⟨m, hs, hw⟩ := keepMer_was u
  obtain ⟨h1, h2, h3, h4, -⟩ := H
  unfold slewSmall
  rw [keepMer_kept, hm, he, hw]
  refine ⟨⟨h1, h2, h3, h4, fun x hx => ?_⟩, le_refl _⟩
  cases hx
  exact le_refl _

/-- A correction of 1,000 ns or more puts the count forward: what it replaces of the slew is less (R237). -/
theorem step_ahead {m : Mer} {hs : List HeldRec} {o : Int} (hw : u.merWas = some (u.eclk, m, hs)) (ho : 1000 * 2 ^ 32 ≤ o)
    (ht : clock t = { clock u with now := ((u.mer.now : Int) - u.mer.slewed + o).toNat, slewed := 0 }) : Ahead u t := by
  rintro ⟨h1, h2, h3, h4, h5⟩
  have hk : merKept u = m := by simp only [merKept, hw, if_true]
  simp only [clock, Clock.mk.injEq] at ht
  obtain ⟨tn, tl, td, tw, te⟩ := ht
  have hkt : merKept t = m := by simp only [merKept, tw, hw, te, if_true]
  have hle : u.mer.now ≤ t.mer.now := by rw [tn]; omega
  unfold slewSmall
  rw [hkt, tl, td, te, tw, hw]
  rw [hk] at h3 h4
  rw [hw] at h5
  exact ⟨⟨h1, by decide, h3, h4.trans hle, h5⟩, hle⟩

theorem correct_ahead (o : Int) (r : Option W32) (u : State) : Ahead u (correct o r u) := by
  unfold correct
  by_cases hl : corrLost u = true
  · rw [if_pos hl]; exact ahead_refl
  rw [if_neg hl]
  refine (keepMer_ahead u).trans ?_
  obtain ⟨m, hs, hw⟩ := keepMer_was u
  rw [← (keepMer_keeps u).2] at hw
  generalize keepMer u = k at hw ⊢
  extract_lets k' o' m0 s1 m1 s2 m2 s3 m3 s4 m4
  have h1 : clock s1 = clock k := by
    simp only [s1]
    split <;> rfl
  have h2 : clock s2 = clock k := h1
  clear_value s2
  refine (show Ahead k s2 from ahead_of_clock h2).trans (Ahead.trans ?_ (ahead_of_clock (s := s4) rfl))
  have hw2 : s2.merWas = some (s2.eclk, m, hs) := by
    simp only [clock, Clock.mk.injEq] at h2
    obtain ⟨-, -, -, h2w, h2e⟩ := h2
    rw [h2w, h2e, hw]
  have h3 : clock s3 = clock s2 := clock_ite rfl (clock_merRec ..)
  clear_value s3
  simp only [s4]
  split_ifs with h h'
  · exact step_ahead hw2 h (clock_stepped ..)
  · exact ahead_of_clock h3
  · exact ahead_of_clock rfl
theorem adjMer_ahead (x : W64) (u : State) : Ahead u (adjMer x u) := by
  have hc := correct_ahead (signed 63 x.toNat) none u
  unfold adjMer
  extract_lets s1
  split_ifs
  · exact hc
  · exact hc.trans (ahead_of_clock (clock_trySync _))
  · exact hc.trans (ahead_of_clock (clock_trySync _))
  · exact ahead_of_clock (clock_rejected u)
theorem syncCorrect_ahead (o : Int) (u : State) : Ahead u (syncCorrect o u) := by
  have hc := correct_ahead o (some (syncRate u.mer.rate o u.sync.per)) u
  unfold syncCorrect
  extract_lets s1
  split_ifs
  · exact hc.trans (ahead_of_clock (clock_trySync _))
  · exact hc.trans (ahead_of_clock (clock_trySync _))
  · exact ahead_refl
theorem syncCorrect_put_ahead (o : Int) (y : FabSync) (u : State) : Ahead u (syncCorrect o { u with sync := y }) :=
  have h : clock { u with sync := y } = clock u := rfl
  (ahead_of_clock h).trans (syncCorrect_ahead o _)
theorem cameSynr_ahead (p : Nat) (n : Bool) (a b : W64) (r : Nat) (u : State) : Ahead u (cameSynr p n a b r u) := by
  unfold cameSynr
  extract_lets t4
  split
  · exact ahead_refl
  split
  · exact ahead_refl
  split
  · exact ahead_of_clock (clock_syncFailed u)
  · exact syncCorrect_put_ahead _ _ u

/-! ### A change of the source -/

/-- A change of SRC takes back this ECLK's corrections, and no more (R241). -/
theorem dropCorr_back (u : State) : Back u (dropCorr u) := by
  rintro ⟨h1, h2, h3, h4, h5⟩
  have hm := dropCorr_mer u
  have hk : merKept (dropCorr u) = (dropCorr u).mer := by
    cases hw : u.merWas with
    | none => simp only [dropCorr, merKept, hw]
    | some x =>
      obtain ⟨t, m, hs⟩ := x
      by_cases ht : t = u.eclk
      · simp only [dropCorr, hw, if_pos ht, merKept]
      · simp only [dropCorr, hw, if_neg ht, merKept]
  have he : ∀ x ∈ (dropCorr u).merWas, x.1 ≤ (dropCorr u).eclk := by
    cases hw : u.merWas with
    | none => simpa only [dropCorr, hw] using h5
    | some x =>
      obtain ⟨t, m, hs⟩ := x
      by_cases ht : t = u.eclk
      · simp only [dropCorr, hw, if_pos ht]
        exact fun x hx => absurd hx (Option.not_mem_none x)
      · simp only [dropCorr, hw, if_neg ht] at h5 ⊢
        exact h5
  unfold slewSmall
  rw [hk, hm]
  exact ⟨⟨h1, h3, h3, le_refl _, he⟩, le_refl _⟩
theorem writeSrc_back (x : BitVec 2) (u : State) : Back u (writeSrc x u) := by
  unfold writeSrc
  split_ifs
  · exact ahead_refl.back
  · exact (dropCorr_back u).trans (ahead_of_clock (clock_loseSync 2 _))
theorem writeMerCtrl_back (x : W32) (u : State) : Back u (writeMerCtrl x u) := by
  rintro ⟨h1, h2, h3, h4, h5⟩
  unfold writeMerCtrl
  extract_lets m w hh
  have hk {v : State} (hn : v.mer.now = u.mer.now) (hd : v.mer.slewed = u.mer.slewed) (hw : v.merWas = u.merWas) (he : v.eclk = u.eclk) :
      (merKept v).now = (merKept u).now ∧ (merKept v).slewed = (merKept u).slewed := by
    unfold merKept
    rw [hw, he]
    split
    · split
      · exact ⟨rfl, rfl⟩
      · exact ⟨hn, hd⟩
    · exact ⟨hn, hd⟩
  generalize hv : ({ u with mer := _ } : State) = v
  have hvk := hk (v := v) (by rw [← hv]) (by rw [← hv]) (by rw [← hv]) (by rw [← hv])
  have hsl : v.mer.slew ≤ 1000 := by
    rw [← hv]
    dsimp only
    split_ifs with hc
    · exact hc.2
    · exact h1
  have H : slewSmall v := by
    unfold slewSmall
    rw [hvk.1, hvk.2]
    refine ⟨hsl, ?_⟩
    rw [← hv]
    exact ⟨h2, h3, h4, h5⟩
  rw [← hvk.1]
  exact writeSrc_back _ v H

end Sys2Proof.Laws
end

section
/-! SUPPORT. Register writes, frames, and one ECLK, by what they do to Meridian's count. -/

namespace Sys2Proof.Laws
open Sys2Proof.Machine

variable {s t u v : State}

/-! ### Accesses of the host target port -/

theorem hostAreas_offClock : hostAreas ⊆ offClock := hostAreas_sub offClock_page.hostIn

theorem ahead_host {b : Initiator} {tb w : Bool} {o : Nat} {k : Instr} {act : State → State} (ha : ∀ v, Ahead v (act v)) :
    Ahead s (hostAccess b tb w o k act s) :=
  hostAccess_keeps (P := Ahead s) (fun h => ahead_of_only (only_mono hostAreas_offClock h))
    (fun h => (ahead_of_only (only_mono hostAreas_offClock h)).trans (ha _))
theorem ahead_reg {b : Initiator} {o : Nat} {k : Instr} {act : State → State} (ha : ∀ v, Ahead v (act v)) :
    Ahead s (regWrite b o k act s) :=
  ahead_host fun v =>
    (ahead_of_clock (clock_ite rfl rfl) : Ahead v (if wide o = true then setLow (keySnap b o) none v else v)).trans (ha _)
/-- An access whose own act takes back no more than this ECLK's corrections. -/
theorem back_host {b : Initiator} {tb w : Bool} {o : Nat} {k : Instr} {act : State → State} (ha : ∀ v, Back v (act v)) :
    Back s (hostAccess b tb w o k act s) :=
  hostAccess_keeps (P := Back s) (fun h => (ahead_of_only (only_mono hostAreas_offClock h)).back)
    (fun h => back_of_clock (clock_of_only (only_mono hostAreas_offClock h)) (ha _))
theorem ahead_badAccess {b : Initiator} {tb : Bool} {o : Nat} {k : Instr} : Ahead s (badAccess b tb o k s) :=
  ahead_of_only (badAccess_only offClock_page.hostIn only_refl)

theorem clock_windowRead (b : Initiator) (o z : Nat) (k : Instr) (u : State) : clock (windowRead b o z k u) = clock u := by
  have h := offClock_page.hostIn
  have H {d e} : clock (setResp b d e u) = clock u := clock_setResp ..
  have hw (w o) : clock (wideRead b w o k u) = clock u :=
    clock_ite (clock_nowRead ..) (clock_ite (clock_of_only (popHost_only (offClock_any.queueIn _) h.resp h.port only_refl))
      (clock_of_only (readResp_only h.resp h.port only_refl)))
  exact clock_ite (clock_ite (hw ..) H) (clock_ite H (clock_ite (clock_of_only (readHigh_only h.resp h.port only_refl)) (hw ..)))

/-! ### Writes of the register window -/

theorem writeMer32_ahead {o : Nat} (x : W32) (u : State) (ho : o ≠ 0x3000) : Ahead u (writeMer32 o x u) := by
  unfold writeMer32
  split
  · exact absurd rfl ho
  · exact ahead_of_clock rfl
  · exact ahead_of_clock (clock_ite rfl rfl)
  · exact ahead_of_clock rfl
  · exact ahead_of_only (gratCmd_only (offClock_any.leg 0).grat only_refl)
  · exact ahead_refl
theorem writeMer64_ahead (o : Nat) (x : W64) (u : State) : Ahead u (writeMer64 o x u) := by
  unfold writeMer64
  split
  · exact ahead_of_clock (clock_setMer x u)
  · exact adjMer_ahead x u
  · exact ahead_of_clock (clock_ite rfl rfl)
  · exact ahead_of_clock rfl
  · exact ahead_of_clock rfl
  · exact ahead_of_clock rfl
  · exact ahead_of_clock rfl
  · exact ahead_refl
theorem clock_writeFab32 (o : Nat) (x : W32) (u : State) : clock (writeFab32 o x u) = clock u := by
  unfold writeFab32
  split
  · rfl
  · rfl
  · exact clock_checkParent _
  · rfl
  · rfl
theorem clock_writeFab64 (o : Nat) (x : W64) (u : State) : clock (writeFab64 o x u) = clock u := by
  have h := offClock_any.toFabIn
  unfold writeFab64
  split
  · rfl
  · exact clock_of_only (only_ite (surveyGo_only h (setSurvey_only h.fab only_refl)) (setSurvey_only h.fab only_refl))
  · exact clock_of_only (writeLoad_only h only_refl)
  · exact clock_ite rfl (clock_ite ((clock_enablePort ..).trans (clock_ite rfl rfl)) rfl)
theorem ahead_writeLegend (c : Nat) (x : W32) (u : State) : Ahead u (writeLegend c x u) :=
  ahead_of_only (writeLegend_only (offClock_any.leg c).ctx ⟨nofun, nofun, nofun⟩ ⟨nofun, nofun, nofun⟩ offClock_page.slots only_refl)

/-- A write of any 32-bit register but STE_MER_CTRL leaves the count, or puts it forward. -/
theorem write32_ahead {o : Nat} (x : W32) (b : BitVec 512) (u : State) (ho : o ≠ 0x3000) : Ahead u (write32 o x b u) := by
  have h := offClock_page
  by_cases h3 : 0x3000 ≤ o ∧ o < 0x4000
  · rw [write32_mer h3.1 h3.2]; exact writeMer32_ahead x u ho
  by_cases h6 : 0x6000 ≤ o ∧ o < 0x7000
  · rw [write32_fab h6.1 h6.2]; exact ahead_of_clock (clock_writeFab32 ..)
  by_cases h8 : o < 0x8000
  · exact ahead_of_only (page_write32 h (by omega) (by omega) h8 only_refl)
  rw [write32_channel (by omega)]
  by_cases ha : o % 32 = 0x10
  · rw [ha]; exact ahead_writeLegend _ x u
  · exact ahead_of_only (page_writeChannel h ha only_refl)
theorem write64_ahead (o : Nat) (x : W64) (b : BitVec 512) (u : State) : Ahead u (write64 o x b u) := by
  by_cases h3 : 0x3000 ≤ o ∧ o < 0x4000
  · rw [write64_mer h3.1 h3.2]; exact writeMer64_ahead o x u
  by_cases h6 : 0x6000 ≤ o ∧ o < 0x7000
  · rw [write64_fab h6.1 h6.2]; exact ahead_of_clock (clock_writeFab64 ..)
  · exact ahead_of_only (page_write64 offClock_page (by omega) (by omega) only_refl)
/-- A write of STE_MER_CTRL takes back no more than this ECLK's corrections. -/
theorem write32_back (x : W32) (b : BitVec 512) (u : State) : Back u (write32 0x3000 x b u) := by
  rw [write32_mer (by omega) (by omega)]
  exact writeMerCtrl_back x u

theorem ahead_setLow {k : Nat} {x : Option W32} : Ahead u (setLow k x u) := ahead_of_clock rfl

theorem registerWrite_ahead {b : Initiator} {o z : Nat} (d : W64) (x : BitVec 512) (u : State) (ho : o ≠ 0x3000) (hz : sizeOk o z = true) :
    Ahead u (registerWrite b o z d x u) := by
  simp only [sizeOk, Bool.and_eq_true, Bool.or_eq_true, beq_iff_eq] at hz
  unfold registerWrite splitWrite
  extract_lets base key
  have hb : base = o / 8 * 8 := rfl
  clear_value base key
  split_ifs with h1 h2 h3 h4
  · exact ahead_setLow.trans (write64_ahead _ _ _ _)
  · obtain ⟨-, hz⟩ := hz
    rw [h1] at hz
    exact (write32_ahead _ x u (by omega)).trans (write32_ahead _ x _ (by omega))
  · exact write32_ahead _ x u ho
  · exact ahead_setLow
  · exact ahead_setLow.trans (write64_ahead _ _ _ _)
theorem registerWrite_back {b : Initiator} {z : Nat} (d : W64) (x : BitVec 512) (u : State) : Back u (registerWrite b 0x3000 z d x u) := by
  unfold registerWrite splitWrite
  dsimp only
  rw [show wide 12288 = false from by decide]
  split
  · exact (write32_back _ x u).trans (write32_ahead (o := 12288 + 4) (hiWord d) x _ (by decide))
  · exact write32_back _ x u

/-! ### Frames -/

theorem act_ahead (p k l : Nat) (f : Frame) (u : State) : Ahead u (act p k l f u) := by
  have h := offClock_any
  unfold act
  split
  · exact ahead_of_only (inWrs_only h.toFabIn only_refl)
  · exact ahead_of_only (inWr_only h.toFabIn only_refl)
  · exact ahead_of_only (inRd_only h.toFabIn only_refl)
  · exact ahead_of_only (inEv_only h.toSendIn offClock_page.arrivals only_refl)
  · exact ahead_of_only (cameAck_only h.toFabIn (fun c => (h.leg c).ctx) only_refl)
  · exact ahead_of_only (cameNak_only h only_refl)
  · exact ahead_of_only (cameRdr_only h only_refl)
  · exact ahead_of_only (cameNote_only h.toSendIn only_refl)
  · exact ahead_of_only (refuse_only h.toRecIn h.fab only_refl)
  · exact ahead_of_only (cameSynq_only (h.link p) only_refl)
  · exact cameSynr_ahead _ _ _ _ _ u
  · exact ahead_of_only (cameSv_only h.toSendIn only_refl)
  · exact ahead_of_only (cameSvr_only h.toFabIn only_refl)
  · exact ahead_of_clock (clock_cameRl ..)
theorem receiveAt_ahead (p k l : Nat) (f : Frame) (u : State) : Ahead u (receiveAt p k l f u) := by
  have h := offClock_any.toSendIn
  have hf (v) : Only offClock v (freeFlits (some p) f v) := freeFlits_only h.link only_refl
  unfold receiveAt
  split
  · exact ahead_refl
  · rename_i v hv
    refine (ahead_of_only (takeFrame_only (h.link p) only_refl hv)).trans ?_
    split
    · exact ahead_of_only (hf v)
    · split
      · exact ahead_of_only (forward_only h only_refl)
      · exact (ahead_of_only (hf v)).trans (act_ahead p k l f _)

/-! ### One ECLK -/

theorem roundDiv_le {a b k : Nat} (hb : 0 < b) (h : a ≤ k * b) : roundDiv a b ≤ k := by
  unfold roundDiv
  rw [← Nat.lt_succ_iff, Nat.div_lt_iff_lt_mul (by omega)]
  have e : k.succ * (2 * b) = 2 * (k * b) + 2 * b := by rw [Nat.succ_mul, Nat.mul_left_comm]
  omega
/-- The spread lengthens an ECLK by less than a hundredth of it (R407). -/
theorem spreadM_le (u : State) : spreadM u ≤ 2 ^ 31 := by
  unfold spreadM
  extract_lets x
  have hx : x ≤ 16000 * 2 ^ 32 := by simp only [x]; omega
  clear_value x
  split
  · exact Nat.zero_le _
  · exact roundDiv_le (by decide) (by omega)
  · exact roundDiv_le (by decide) (by omega)
/-- An ECLK is less than 20 ns, whatever the rate and the spread (R232, R257). -/
theorem baseInc_le (u : State) : baseInc u ≤ 20 * 2 ^ 30 := by
  have hm := spreadM_le u
  have hr : ((2 ^ 40 : Int) + u.mer.rate.toInt).toNat ≤ 2 ^ 41 := by
    have := u.mer.rate.toInt_lt
    omega
  unfold baseInc
  generalize ((2 ^ 40 : Int) + u.mer.rate.toInt).toNat = r at hr
  generalize spreadM u = m at hm
  refine roundDiv_le (by omega) ?_
  omega
theorem natAbs_slewed_le (d r : Int) : (if r.natAbs ≤ d.natAbs then r else if 0 < r then d else -d).natAbs ≤ d.natAbs := by
  split_ifs with h1 h2
  · exact h1
  · exact le_refl _
  · exact (Int.natAbs_neg d).le
/-- What an ECLK slews is at most its share of the ECLK (R232). -/
theorem slewPart_le (base slew : Nat) (r : Int) : (slewPart base slew r).natAbs ≤ roundDiv (base * slew) 1000000 :=
  (natAbs_slewed_le _ r).trans (Int.natAbs_natCast _).le
/-- It is less than a step. -/
theorem slewPart_small {base slew : Nat} (r : Int) (hb : base ≤ 20 * 2 ^ 30) (hs : slew ≤ 1000) :
    (slewPart base slew r).natAbs < 1000 * 2 ^ 32 := by
  have hle : roundDiv (base * slew) 1000000 ≤ 2 ^ 30 := roundDiv_le (by omega) ((Nat.mul_le_mul hb hs).trans (by omega))
  have h := (slewPart_le base slew r).trans hle
  omega

/-- In a new ECLK no correction has come yet. -/
theorem merKept_of_later (h : ∀ x ∈ u.merWas, x.1 < u.eclk) : merKept u = u.mer := by
  unfold merKept
  split
  case h_1 t m hs hw =>
    have := h (t, m, hs) (by rw [hw]; rfl)
    exact if_neg (Nat.ne_of_lt this)
  case h_2 => rfl

/-- A state of a new ECLK is sound when the slew is. -/
theorem slewSmall_of_later (h1 : u.mer.slew ≤ 1000) (h2 : u.mer.slewed.natAbs < 1000 * 2 ^ 32) (h : ∀ x ∈ u.merWas, x.1 < u.eclk) : slewSmall u := by
  unfold slewSmall
  rw [merKept_of_later h]
  exact ⟨h1, h2, h2, le_refl _, fun x hx => (h x hx).le⟩

/-- STE_MER_SET's value is taken only where it puts the count forward (R239). -/
theorem applySet_forward {u : State} (h1 : u.mer.slew ≤ 1000) (h2 : u.mer.slewed.natAbs < 1000 * 2 ^ 32)
    (h : ∀ x ∈ u.merWas, x.1 < u.eclk) : slewSmall (applySet u) ∧ u.mer.now ≤ (applySet u).mer.now := by
  have H := slewSmall_of_later h1 h2 h
  unfold applySet
  split
  · exact ⟨H, le_refl _⟩
  rename_i x _
  extract_lets m s1 m1
  split
  · rename_i hx
    have hc := clock_stepped (to24 (((x.toNat * 2 ^ 32 : Nat) : Int) - s1.mer.now))
      { s1 with mer := { m1 with now := x.toNat * 2 ^ 32, remain := 0, slewed := 0 } }
    refine ⟨slewSmall_congr hc (slewSmall_of_later h1 (show (0 : Int).natAbs < 1000 * 2 ^ 32 by decide) h), ?_⟩
    rw [show (stepped _ _).mer.now = _ from congrArg Clock.now hc]
    exact hx.le
  · exact ⟨slewSmall_congr (s := u) rfl H, le_refl _⟩

/-- Meridian counts an ECLK (R232, R239). -/
theorem merTick_forward {n : Nat} (hn : u.eclk < n) (h : slewSmall u) :
    slewSmall (merTick { u with eclk := n }) ∧ u.mer.now ≤ (merTick { u with eclk := n }).mer.now := by
  obtain ⟨h1, -, -, -, h5⟩ := h
  unfold merTick
  extract_lets base part inc m g
  have hp : part.natAbs < 1000 * 2 ^ 32 := slewPart_small _ (baseInc_le _) h1
  clear_value part inc
  obtain ⟨ht, hle⟩ := applySet_forward
    (u := { u with eclk := n
                   mer := { m with now := u.mer.now + inc, remain := u.mer.remain - part, inc := inc, slewed := part }
                   glob := { g with profile := profileNext { u with eclk := n } } })
    h1 hp (fun x hx => (h5 x hx).trans_lt hn)
  exact ⟨ht, (Nat.le_add_right _ _).trans hle⟩

theorem clock_endOfEclk (u : State) : clock (endOfEclk u) = clock u := by
  have h := offClock_any
  have hc (c : Nat) : ControlIn c offClock := ⟨h.leg c, offClock_page.slots⟩
  exact clock_of_only (only_ite only_refl (ctlEnd_only hc offClock_page.ctl (countArrivals_only h.toRecIn offClock_page.arrivals
    offClock_page.input (fun c => (h.leg c).ctx)
    (acceptHeld_only h.heldRecs ⟨nofun, nofun, nofun⟩ ⟨nofun, nofun, nofun⟩ (fun c => (h.leg c).toFaultIn) only_refl))))
theorem clock_mclkStart (u : State) : clock (if u.eclk % 4 = 0 then fencesAgain (mgtDue (fencesInForce u)) else u) = clock u := by
  have h := offClock_any
  have hm : MgtIn offClock := ⟨h.toErrIn, offClock_page.port, ⟨nofun, nofun, nofun⟩, ⟨nofun, nofun, nofun⟩, h.tele⟩
  have hf : clock (fencesAgain (mgtDue (fencesInForce u))) = clock (fencesInForce u) :=
    clock_of_only (fencesAgain_only h.toErrIn ⟨nofun, nofun, nofun⟩ (mgtDue_only hm only_refl))
  exact clock_ite (hf.trans (clock_fencesInForce u)) rfl
theorem clock_setReady (b : ReadyBit) (u : State) : clock (setReady b u) = clock u := by cases b <;> rfl
theorem clock_slotByNow (u : State) : clock (slotByNow u) = clock u := clock_ite rfl rfl
theorem clock_readyByNow (u : State) : clock (readyByNow u) = clock u :=
  clock_ite rfl (clock_ite (clock_foldl (fun v l => clock_setReady (.lane l) v) _ u) (clock_ite rfl rfl))
theorem clock_represent (u : State) : clock (represent u) = clock u := clock_ite rfl rfl

/-- An ECLK does not set the count back. -/
theorem tick_ahead (s : State) : Ahead s (tick s) := by
  have hw := offClock_work
  have e0 := clock_endOfEclk s
  unfold tick
  extract_lets s0 s1 s2 s3 s4 s5 s6
  have A1 : Ahead (endOfEclk s) s1 := merTick_forward (by rw [show (endOfEclk s).eclk = s.eclk from congrArg Clock.eclk e0]; omega)
  have c2 : clock s2 = clock s1 := clock_of_only (resetTick_work hw only_refl)
  have c3 : clock s3 = clock s2 := clock_mclkStart s2
  have c4 : clock s4 = clock s3 := clock_ite rfl ((clock_slotByNow _).trans (clock_readyByNow s3))
  have c5 : clock s5 = clock s4 :=
    (clock_of_only (works_work hw only_refl)).trans (clock_ite (clock_of_only (backNow_only (fun c => (hw.leg c).toSeqIn) only_refl)) rfl)
  have c6 : clock s6 = clock s5 := clock_of_only (countFlash_work hw (countBusy_work hw only_refl))
  have c7 : clock (represent (txPorts (issueAll s6))) = clock s6 :=
    (clock_represent _).trans (clock_of_only (txPorts_work hw (issueAll_work hw only_refl)))
  clear_value s1 s2 s3 s4 s5 s6
  exact (ahead_of_clock e0).trans (A1.trans (ahead_of_clock (c7.trans (c6.trans (c5.trans (c4.trans (c3.trans c2)))))))

end Sys2Proof.Laws
end

section
/-! PROOFS. Meridian never goes back. -/

namespace Sys2Proof.Laws
open Sys2Proof.Machine

variable {i : Instr} {s t : State}

/-- A command that does not reach Meridian leaves the clock. -/
theorem exec_offClock (hm : reachesMer i = false) (hr : isReset i = false) (h : exec i s = .next t) : clock t = clock s := by
  refine clock_of_only (only_mono ?_ (exec_reach h))
  rintro p (hp | ⟨-, rfl | ⟨c, rfl⟩⟩ | ⟨h, -⟩ | ⟨h, -⟩)
  · refine ⟨?_, ?_, ?_⟩ <;> rintro rfl <;> cases hp
  · exact ⟨nofun, nofun, nofun⟩
  · exact ⟨nofun, nofun, nofun⟩
  · exact absurd (hm.symm.trans h) Bool.false_ne_true
  · exact absurd (hr.symm.trans h) Bool.false_ne_true

/-- What a well-formed command answers. -/
theorem ahead_guard {b : Bool} {f : Fault} {u : State} (h : (if b then .next u else .fault f : Host.Outcome State Fault Refusal) = .next t)
    (H : Ahead s u) : Ahead s t := by
  cases b
  · cases h
  · cases h; exact H

/-- A command that neither resets the engine nor writes SRC does not set the count back. -/
theorem exec_ahead (hr : isReset i = false) (hs : writesSrc i = false) (h : exec i s = .next t) : Ahead s t := by
  by_cases hm : reachesMer i = true
  case neg => exact ahead_of_clock (exec_offClock (Bool.eq_false_iff.mpr hm) hr h)
  cases i
  case merNowRead b w => cases h; exact ahead_host fun v => ahead_of_clock (clock_nowRead b w v)
  case merSet b x => cases h; exact ahead_reg fun v => ahead_of_clock (clock_setMer x v)
  case merAdj b x => cases h; exact ahead_reg fun v => adjMer_ahead x v
  case merSrcChange => cases hs
  case atlasStageWrite b o z d =>
    cases h
    split_ifs
    · exact ahead_host fun v => ahead_of_clock (clock_tableWrite ..)
    · exact ahead_badAccess
  case routeTableWrite => cases h; exact ahead_host fun v => ahead_of_clock (clock_writeRoute ..)
  case portEnable => cases h; exact ahead_reg fun v => ahead_of_clock (clock_enablePort ..)
  case hostRegisterWrite b o z d x =>
    have ho : o.toNat ≠ 0x3000 := fun ho => by
      rw [writesSrc, beq_eq_false_iff_ne] at hs
      exact hs (BitVec.eq_of_toNat_eq ho)
    cases h
    split_ifs with h1 h2
    · exact ahead_badAccess
    · exact ahead_of_only (mgtWrite_only offClock_page.hostIn only_refl)
    · exact ahead_host fun v => registerWrite_ahead d x v ho (by simpa using h1)
  case lowWordRead =>
    cases h
    split_ifs
    · exact ahead_host fun v => ahead_of_clock (clock_windowRead ..)
    · exact ahead_badAccess
  case linkDown => cases h; exact ahead_of_clock (clock_linkDown ..)
  case rxRl => exact ahead_guard h (receiveAt_ahead _ _ _ _ s)
  case rxSynr => cases h; exact receiveAt_ahead _ _ _ _ s
  case frameForward => exact ahead_guard h (receiveAt_ahead _ _ _ _ s)
  case synrTimeout => cases h; exact ahead_of_clock (clock_synrTimeout s)
  case holdoverStart => cases h; exact ahead_of_clock (clock_ite rfl rfl)
  case holdoverExpiry => cases h; exact ahead_of_clock (clock_holdoverExpiry s)
  case synchronised => cases h; exact ahead_of_clock (clock_ite (clock_trySync s) rfl)
  case coldReset | warmReset | engineResetWaitEnd | resetRelease => cases hr
  all_goals cases hm

/-- A command that writes SRC takes back no more than this ECLK's corrections. -/
theorem exec_back (hr : isReset i = false) (h : exec i s = .next t) : Back s t := by
  cases hs : writesSrc i with
  | false => exact (exec_ahead hr hs h).back
  | true =>
    cases i
    case merSrcChange b x =>
      cases h
      exact back_host fun v => back_of_clock (u := if wide 0x3000 = true then setLow (keySnap b 0x3000) none v else v) (clock_ite rfl rfl)
        (writeSrc_back x _)
    case hostRegisterWrite b o z d x =>
      have ho : o = 0x3000 := by rwa [writesSrc, beq_iff_eq] at hs
      subst ho
      cases h
      split_ifs
      · exact ahead_badAccess.back
      · exact (ahead_of_only (mgtWrite_only offClock_page.hostIn only_refl)).back
      · exact back_host fun v => registerWrite_back d x v
    all_goals cases hs

/-- The reset state's Meridian is sound. -/
theorem slewSmall_cleared (h : t.mer = {}) (hw : t.merWas = none) : slewSmall t := by
  have hk : merKept t = t.mer := by simp only [merKept, hw]
  unfold slewSmall
  rw [hk, h, hw]
  exact ⟨by decide, by decide, by decide, le_refl _, fun x hx => absurd hx (Option.not_mem_none x)⟩
theorem exec_reset_slewSmall (hr : isReset i = true) (h : exec i s = .next t) (H : slewSmall s) : slewSmall t := by
  cases i
  case coldReset | warmReset => cases h; exact slewSmall_cleared rfl rfl
  case engineResetWaitEnd =>
    cases h
    unfold resetWaitEnd
    split
    · split_ifs
      · exact H
      · exact H
      · exact slewSmall_cleared rfl rfl
    · exact H
  case resetRelease =>
    cases h
    unfold resetRelease
    split
    · split_ifs
      · exact H
      · exact slewSmall_cleared rfl rfl
    · exact H
  all_goals cases hr

/-- Settles O59: of the commands only a change of SRC takes corrections back, and no further than to where the count stood before those
of this ECLK; an ECLK in which no command waits counts on. -/
theorem meridianNeverGoesBack : Obligations.MeridianNeverGoesBack := by
  unfold Obligations.MeridianNeverGoesBack
  intro s t H h
  unfold step at h
  split at h
  case h_1 i rest hp =>
    have hu : clock { s with pending := rest } = clock s := rfl
    have Hu := slewSmall_congr hu H
    rw [← (merKept_congr hu).1]
    cases hr : isReset i with
    | true => exact ⟨exec_reset_slewSmall hr h Hu, fun g => absurd (g i rest hp) (by rw [hr]; decide)⟩
    | false =>
      obtain ⟨ht, hle⟩ := exec_back hr h Hu
      exact ⟨ht, fun _ => ⟨hle, fun g => (exec_ahead hr (g i rest hp) h Hu).2⟩⟩
  case h_2 =>
    cases h
    obtain ⟨ht, hle⟩ := tick_ahead s H
    exact ⟨ht, fun _ => ⟨((tick_ahead s).back H).2, fun _ => hle⟩⟩

end Sys2Proof.Laws
end

section
/-! PROOFS. What a step is: the command at the front of the queue, or one ECLK; well-formed commands and the reset state. -/

namespace Sys2Proof.Laws
open Sys2Proof.Machine

variable {s t u v : State}

/-- Settles O1: the command goes from the queue before it acts. -/
theorem stepRunsTheFrontCommand : Obligations.StepRunsTheFrontCommand := by
  unfold Obligations.StepRunsTheFrontCommand
  exact fun _ _ _ => rfl

/-! ### Well-formed commands -/

theorem goesOn_guard {b : Bool} (s : State) :
    (b = true → ∃ t, (if b then .next s else .fault .malformed : Host.Outcome State Fault Refusal) = .next t) ∧
    (b = false → (if b then .next s else .fault .malformed : Host.Outcome State Fault Refusal) = .fault .malformed) := by
  cases b
  · exact ⟨nofun, fun _ => rfl⟩
  · exact ⟨fun _ => ⟨s, rfl⟩, nofun⟩

theorem execSpillResponse_next (tag : Nat) (r : ReadResp) (s : State) : ∃ t, execSpillResponse tag r s = .next t := by
  unfold execSpillResponse
  repeat' split
  all_goals exact ⟨_, rfl⟩

/-- Settles O3: the commands whose operands the types do not bound are guarded by what makes them well formed; every other answers a
state outright. -/
theorem wellFormedCommandsGoOn : Obligations.WellFormedCommandsGoOn := by
  unfold Obligations.WellFormedCommandsGoOn
  intro i s
  cases i
  case rxWr | rxSv | rxSvr | rxRl | rxReservedKind | frameForward | frameCrcFail | debugAccess => exact goesOn_guard _
  case burstGrant | readResponse | writeResponse | inClusterCopyDone | burstReturn | loadDataReturn =>
    refine ⟨fun _ => ?_, nofun⟩
    simp only [exec, execBurstGrant, execReadResponse, execWriteResponse, execInClusterCopyDone, execBurstReturn, execLoadDataReturn]
    repeat' split
    all_goals exact ⟨_, rfl⟩
  case spillResponse => exact ⟨fun _ => execSpillResponse_next _ _ s, nofun⟩
  all_goals exact ⟨fun _ => ⟨_, rfl⟩, nofun⟩

/-! ### The reset state -/

/-- Settles O60: each register of the reset state is at its default, and a table of none reads as its default. -/
theorem resetState : Obligations.ResetState := by
  unfold Obligations.ResetState
  exact ⟨legendsLegal_nil rfl, slewSmall_cleared rfl rfl, rfl, rfl, rfl, fun _ => ⟨rfl, rfl, rfl⟩, rfl, rfl, rfl, rfl, fun _ => rfl, fun _ => rfl, rfl,
    rfl, fun _ => rfl⟩

/-! ### One ECLK in which no command waits -/

/-- The wiring, the phase of an engine reset, and the control writes that wait. -/
structure Idle where
  straps : Straps
  phase : ResetPhase
  ctl : List (Nat × CtlWrite)
def idle (u : State) : Idle := ⟨u.straps, u.glob.phase, u.ctl⟩

/-- Everything but the wiring, the global page and the control writes. -/
def offIdle : Set Area := fun p => p ≠ .straps ∧ p ≠ .glob ∧ p ≠ .ctl

theorem phase_of_glob (h : same .glob s t) : t.glob.phase = s.glob.phase :=
  have h : { t.glob with lochw := 0, fabhw := 0 } = { s.glob with lochw := 0, fabhw := 0 } := h
  (congrArg Glob.phase h :)
theorem idle_of_only (h : Only offIdle s t) : idle t = idle s := by
  have hs : t.straps = s.straps := h .straps (fun hp => hp.1 rfl)
  have hg : t.glob.phase = s.glob.phase := phase_of_glob (h .glob (fun hp => hp.2.1 rfl))
  have hc : t.ctl = s.ctl := h .ctl (fun hp => hp.2.2 rfl)
  unfold idle
  rw [hs, hg, hc]
theorem idle_ite {q : Prop} [Decidable q] (hu : idle u = idle s) (hv : idle v = idle s) : idle (if q then u else v) = idle s := by
  split <;> assumption

theorem offIdle_link : LinkIn offIdle :=
  { heldRecs := ⟨nofun, nofun, nofun⟩, rdrop := ⟨nofun, nofun, nofun⟩, err := fun _ => ⟨nofun, nofun, nofun⟩, cache := ⟨nofun, nofun, nofun⟩,
    grid := ⟨nofun, nofun, nofun⟩, atlas := ⟨nofun, nofun, nofun⟩, fab := ⟨nofun, nofun, nofun⟩, link := fun _ => ⟨nofun, nofun, nofun⟩,
    offered := ⟨nofun, nofun, nofun⟩, outst := ⟨nofun, nofun, nofun⟩, out := ⟨nofun, nofun, nofun⟩, tele := ⟨nofun, nofun, nofun⟩,
    queue := fun _ => ⟨nofun, nofun, nofun⟩, spill := ⟨nofun, nofun, nofun⟩, sync := ⟨nofun, nofun, nofun⟩, mer := ⟨nofun, nofun, nofun⟩,
    leg := fun _ =>
      { heldRecs := ⟨nofun, nofun, nofun⟩, rdrop := ⟨nofun, nofun, nofun⟩, err := fun _ => ⟨nofun, nofun, nofun⟩,
        cache := ⟨nofun, nofun, nofun⟩, grid := ⟨nofun, nofun, nofun⟩, ctx := ⟨nofun, nofun, nofun⟩, fetches := ⟨nofun, nofun, nofun⟩,
        lcache := ⟨nofun, nofun, nofun⟩, power := ⟨nofun, nofun, nofun⟩, grat := ⟨nofun, nofun, nofun⟩,
        lane := fun _ => ⟨⟨nofun, nofun, nofun⟩, ⟨nofun, nofun, nofun⟩⟩, offered := ⟨nofun, nofun, nofun⟩, outst := ⟨nofun, nofun, nofun⟩,
        out := ⟨nofun, nofun, nofun⟩, evo := fun _ => ⟨nofun, nofun, nofun⟩ } }
theorem offIdle_work : WorkIn offIdle :=
  { toAnyIn := offIdle_link.toAnyIn, sync := ⟨nofun, nofun, nofun⟩, nextTag := ⟨nofun, nofun, nofun⟩, dbg := ⟨nofun, nofun, nofun⟩,
    book := fun _ => ⟨nofun, nofun, nofun⟩, tags := ⟨nofun, nofun, nofun⟩, remotes := ⟨nofun, nofun, nofun⟩,
    arrivals := ⟨nofun, nofun, nofun⟩, halt := ⟨nofun, nofun, nofun⟩, upsets := ⟨nofun, nofun, nofun⟩ }

theorem inTransfer_congr (h : t.swap = s.swap) (c : Nat) : inTransfer t c = inTransfer s c := by
  unfold inTransfer inSwap
  rw [h]

/-- The control writes of the ECLK act, but for those to a context that moves (R57, R333). -/
theorem idle_endOfEclk (hq : quiet s = false) :
    idle (endOfEclk s) = { idle s with ctl := s.ctl.filter (fun e => inTransfer s e.1) } := by
  have h := offIdle_link
  have hf (S : Set Area) (hl : ∀ c, LegIn c S) (hs : .staged ∈ S) (hk : .recClk ∈ S) (ha : .arrivals ∈ S) (hi : ∀ n, .input n ∈ S) :
      Only S s (countArrivals (acceptHeld s)) :=
    countArrivals_only (hl 0).toRecIn ha hi (fun c => (hl c).ctx) (acceptHeld_only (hl 0).heldRecs hs hk (fun c => (hl c).toFaultIn) only_refl)
  have e1 : idle (countArrivals (acceptHeld s)) = idle s :=
    idle_of_only (hf _ h.leg ⟨nofun, nofun, nofun⟩ ⟨nofun, nofun, nofun⟩ ⟨nofun, nofun, nofun⟩ (fun _ => ⟨nofun, nofun, nofun⟩))
  have hw : (countArrivals (acceptHeld s)).swap = s.swap :=
    hf {p | p ≠ .swap} (fun _ =>
      { heldRecs := nofun, rdrop := nofun, err := fun _ => nofun, cache := nofun, grid := nofun, ctx := nofun, fetches := nofun,
        lcache := nofun, power := nofun, grat := nofun, lane := fun _ => ⟨nofun, nofun⟩, offered := nofun, outst := nofun, out := nofun,
        evo := fun _ => nofun }) nofun nofun nofun (fun _ => nofun) .swap (fun hp => hp rfl)
  have hc (c : Nat) : ControlIn c offIdle := ⟨h.leg c, ⟨nofun, nofun, nofun⟩⟩
  unfold endOfEclk
  rw [hq, if_neg (by decide)]
  generalize countArrivals (acceptHeld s) = u at e1 hw
  have e2 : idle (ctlEnd u) = idle { u with ctl := u.ctl.filter (fun e => inTransfer u e.1) } :=
    idle_of_only (only_foldl _ (fun _ _ H => applyCtl_only (hc _) H) only_refl)
  rw [e2]
  simp only [idle, Idle.mk.injEq] at e1 ⊢
  obtain ⟨h1, h2, h3⟩ := e1
  simp only [h1, h2, h3, inTransfer_congr hw, and_self]

theorem idle_merTick (u : State) : idle (merTick u) = idle u := by
  have hm : MerIn offIdle := ⟨offIdle_link.toRecIn, offIdle_link.mer⟩
  unfold merTick applySet
  extract_lets
  split
  · rfl
  · exact idle_ite ((idle_of_only (stepped_only hm only_refl)).trans rfl) rfl
theorem idle_setReady (b : ReadyBit) (u : State) : idle (setReady b u) = idle u := by cases b <;> rfl
theorem idle_readyByNow (u : State) : idle (readyByNow u) = idle u := by
  have hl (l : List (Fin 8)) (u : State) : idle (l.foldl (fun s l => setReady (.lane l) s) u) = idle u := by
    induction l generalizing u with
    | nil => rfl
    | cons x l ih => exact (ih _).trans (idle_setReady _ u)
  exact idle_ite rfl (idle_ite (hl _ u) (idle_ite rfl rfl))
theorem idle_mclkStart (u : State) : idle (if u.eclk % 4 = 0 then fencesAgain (mgtDue (fencesInForce u)) else u) = idle u := by
  have h := offIdle_link
  have hm : MgtIn offIdle := ⟨h.toErrIn, ⟨nofun, nofun, nofun⟩, ⟨nofun, nofun, nofun⟩, ⟨nofun, nofun, nofun⟩, h.tele⟩
  exact idle_of_only (only_ite (fencesAgain_only h.toErrIn ⟨nofun, nofun, nofun⟩ (mgtDue_only hm (fencesInForce_only h ⟨nofun, nofun, nofun⟩ only_refl)))
    only_refl)

/-- After the control writes of the ECLK before it, an ECLK takes nothing from the wiring, leaves an engine reset under way one, and
makes no control write act. -/
theorem idle_tick (s : State) : idle (tick s) = idle (endOfEclk s) := by
  have hw := offIdle_work
  unfold tick
  extract_lets s0 s1 s2 s3 s4 s5 s6
  have c1 : idle s1 = idle (endOfEclk s) := idle_merTick _
  have c2 : idle s2 = idle s1 := idle_of_only (resetTick_work hw only_refl)
  have c3 : idle s3 = idle s2 := idle_mclkStart s2
  have c4 : idle s4 = idle s3 := idle_ite rfl ((idle_ite rfl rfl : idle (slotByNow _) = idle _).trans (idle_readyByNow s3))
  have c5 : idle s5 = idle s4 :=
    (idle_of_only (works_work hw only_refl)).trans (idle_ite (idle_of_only (backNow_only (fun c => (hw.leg c).toSeqIn) only_refl)) rfl)
  have c6 : idle s6 = idle s5 := idle_of_only (countFlash_work hw (countBusy_work hw only_refl))
  have c7 : idle (represent (txPorts (issueAll s6))) = idle s6 :=
    (idle_ite rfl rfl : idle (represent _) = idle _).trans (idle_of_only (txPorts_work hw (issueAll_work hw only_refl)))
  clear_value s1 s2 s3 s4 s5 s6
  exact c7.trans (c6.trans (c5.trans (c4.trans (c3.trans (c2.trans c1)))))

/-- Settles O2: the tick in place of idling (log entry 2) lets the control writes of the ECLK act, and counts one. -/
theorem emptyQueueIsOneEclk : Obligations.EmptyQueueIsOneEclk := by
  unfold Obligations.EmptyQueueIsOneEclk
  intro s hp
  obtain ⟨u, hu, hw⟩ := tick_eq_represent s
  have he : (tick s).eclk = s.eclk + 1 := by
    rw [hu]
    exact (congrArg Clock.eclk (clock_represent u)).trans (congrArg Waiting.eclk hw)
  have hi := idle_tick s
  refine ⟨_, step_idle hp, he, ?_⟩
  generalize tick s = t at hi
  cases hq : quiet s with
  | true =>
    rw [endOfEclk, if_pos hq] at hi
    exact ⟨congrArg Idle.straps hi, congrArg Idle.phase hi, nofun⟩
  | false =>
    rw [idle_endOfEclk hq] at hi
    exact ⟨congrArg Idle.straps hi, congrArg Idle.phase hi, fun _ => congrArg Idle.ctl hi⟩

end Sys2Proof.Laws
end

section
/-! SUPPORT. A leg that has begun, acts, and goes on. -/

namespace Sys2Proof.Laws
open Sys2Proof.Machine

variable {s u v : State} {i : Instr} {c op q : Nat}

/-- A leg that begins completes in what it does, on the state in which it has begun. -/
theorem completes_leg {act : State → State} {P : State → Prop} (h : Begins s c op) (he : exec i s = .next (beginLeg op c act s))
    (H : P (act (begun c s))) : Completes i s P := ⟨_, he.trans (congrArg _ (begin_act h)), H⟩

theorem begun_r : (ctx (begun c s) c).r = (ctx s c).r := by rw [begun_ctx]
theorem begun_legNo : (ctx (begun c s) c).w.legNo = (ctx s c).w.legNo := by rw [begun_ctx]
theorem begun_faulting : (ctx (begun c s) c).w.faulting = (ctx s c).w.faulting := by rw [begun_ctx]
/-- What is none of the leg's own channel, the fetches and the lookups stays as the leg begins. -/
theorem begun_same {p : Area} (h1 : ¬ prefetchAreas p) (h2 : p ≠ .ctx c) : same p s (begun c s) :=
  begun_quiet p (fun h => h.elim h1 h2)
theorem begun_heldRecs : (begun c s).heldRecs = s.heldRecs := begun_same (p := .heldRecs) (by rintro (h | h | h) <;> cases h) nofun
theorem begun_queue : queue (begun c s) q = queue s q := begun_same (p := .queue q) (by rintro (h | h | h) <;> cases h) nofun
theorem begun_startOf : startOf (begun c s) c = startOf s c := by
  unfold startOf
  rw [begun_ctx]
  rfl

/-- Going on leaves what is none of the sequencer's. -/
theorem finish_same {p : Area} (hp : p ∉ faultAreas c) : same p u (finish c u) := finish_only (faultIn_self c) only_refl p hp
theorem queue_notMem_fault : Area.queue q ∉ faultAreas c := by
  rintro ((((h | h) | ⟨_, h⟩) | (h | h) | h | h | h | h | h) | ⟨_, h⟩ | h | h | h | h) <;> cases h
theorem finish_queue : queue (finish c u) q = queue u q := finish_same (p := .queue q) queue_notMem_fault

/-- A leg that sets registers of its channel, and goes on to its successor. -/
theorem finish_modR {f : CtxRegs → CtxRegs} (hs : Begins s c op) (hg : GoesOn s c) (hl : (f (ctx s c).r).leg = (ctx s c).r.leg)
    (hp : (f (ctx s c).r).pc = (ctx s c).r.pc) (hst : (f (ctx s c).r).state = (ctx s c).r.state) :
    WentTo s c (successorOf (ctx s c).r) (f (ctx s c).r) (finish c (modR c f (begun c s))) := by
  have e : ctx (modR c f (begun c s)) c = { r := f (ctx s c).r, w := (ctx (begun c s) c).w } := by rw [ctx_modR_self, begun_r]
  have H := finish_after (v := modR c f (begun c s)) hs hg (by rw [e]; exact hl) (by rw [e]; exact hp) (by rw [e]; exact hst)
    (by rw [e]; exact begun_legNo) (by rw [e]; exact begun_faulting) begun_heldRecs
  rw [e] at H
  exact H
/-- A leg that leaves its channel and the records, and goes on to its successor. -/
theorem finish_of_only {S : Set Area} (hs : Begins s c op) (hg : GoesOn s c) (H : Only S (begun c s) v) (hc : .ctx c ∉ S) (hh : .heldRecs ∉ S) :
    WentTo s c (successorOf (ctx s c).r) (ctx s c).r (finish c v) := by
  have e : ctx v c = ctx (begun c s) c := ctx_of_only H hc
  have h := finish_after (v := v) hs hg (by rw [e, begun_r]) (by rw [e, begun_r]) (by rw [e, begun_r]) (by rw [e, begun_legNo])
    (by rw [e, begun_faulting]) ((H .heldRecs hh).trans begun_heldRecs)
  rwa [e, begun_r] at h

end Sys2Proof.Laws
end
section
/-! PROOFS. The legs that set up, and the queue legs. -/

namespace Sys2Proof.Laws
open Sys2Proof.Machine

variable {s u v : State} {c op q : Nat}

theorem ctx_notMem_free (q c : Nat) : Area.ctx c ∉ freeAreas q := by
  rintro (((h | h) | h) | h | h) <;> cases h
theorem heldRecs_notMem_free (q : Nat) : Area.heldRecs ∉ freeAreas q := by
  rintro (((h | h) | h) | h | h) <;> cases h

theorem freeHeld_free (q : Nat) (u : State) : Only (freeAreas q) u (freeHeld q u) := freeHeld_only (freeIn_self q) only_refl
theorem noMark_free (q : Nat) (u : State) : Only (freeAreas q) u (noMark q u) := markSet_only (put_modQ (freeIn_self q).queue only_refl)
theorem markQ_free (q : Nat) (u : State) : Only (freeAreas q) u (markQ q u) := put_modQ (freeIn_self q).queue (freeHeld_free q u)
theorem rewindQ_free (q : Nat) (u : State) : Only (freeAreas q) u (rewindQ q u) :=
  only_ite (put_modQ (freeIn_self q).queue only_refl) (noMark_free q u)
theorem releaseQ_free (q : Nat) (u : State) : Only (freeAreas q) u (releaseQ q u) := only_ite (freeHeld_free q u) (noMark_free q u)

/-- The queue as each of the queue legs leaves it (R291). -/
theorem markQ_queue (q : Nat) (u : State) : ∃ ps, queue (markQ q u) q = { queue u q with markv := true, held := [], pages := ps } := by
  obtain ⟨ps, h⟩ := freeHeld_queue q u
  exact ⟨ps, by rw [markQ, queue_modQ_self, h]⟩
theorem noMark_queue (q : Nat) (u : State) : queue (noMark q u) q = { queue u q with nomark := true } :=
  queue_modQ_self u q (fun x => { x with nomark := true })
theorem rewindQ_queue (q : Nat) (u : State) : queue (rewindQ q u) q =
    if (queue u q).markv then { queue u q with head := rewound (queue u q), held := [] } else { queue u q with nomark := true } := by
  unfold rewindQ
  split
  · exact queue_modQ_self ..
  · exact noMark_queue q u
theorem releaseQ_queue (q : Nat) (u : State) : ∃ ps, queue (releaseQ q u) q =
    if (queue u q).markv then { queue u q with held := [], pages := ps } else { queue u q with nomark := true } := by
  obtain ⟨ps, h⟩ := freeHeld_queue q u
  refine ⟨ps, ?_⟩
  unfold releaseQ
  split
  · exact h
  · exact noMark_queue q u
/-- A rewind puts the held items back in their order. -/
theorem rewound_items (x : Queue) : (rewound x).map (·.it) = (x.held ++ x.head).map (·.it) := by
  unfold rewound
  dsimp only
  split
  · simp only [List.map_map, Function.comp_def]
  · rfl

/-- A queue leg acts on its queue, and goes on. -/
theorem completes_queueLeg {i : Instr} {f : Nat → State → State} (hs : Begins s c op) (hg : GoesOn s c)
    (he : exec i s = .next (beginLeg op c (fun s => finish c (f (popQueue (ctx s c).r.leg) s)) s)) (hf : ∀ q u, Only (freeAreas q) u (f q u)) :
    Completes i s fun t => WentTo s c (successorOf (ctx s c).r) (ctx s c).r t ∧
      ∃ u, queue u (popQueue (ctx s c).r.leg) = queue s (popQueue (ctx s c).r.leg) ∧
        queue t (popQueue (ctx s c).r.leg) = queue (f (popQueue (ctx s c).r.leg) u) (popQueue (ctx s c).r.leg) := by
  refine completes_leg hs he ?_
  rw [begun_r]
  exact ⟨finish_of_only hs hg (hf _ _) (ctx_notMem_free _ c) (heldRecs_notMem_free _), _, begun_queue, finish_queue⟩

/-- Settles O6: each of these legs sets registers of its channel or acts on its queue, and goes on. -/
theorem setUpAndQueueLegs : Obligations.SetUpAndQueueLegs := by
  unfold Obligations.SetUpAndQueueLegs
  refine ⟨fun s c hg => ⟨fun hs => ?pattern, fun hs => ?scalecfg, fun hs => ?nop⟩,
    fun s c hg => ⟨fun hs => ?mark, fun hs => ?rewind, fun hs => ?release⟩⟩
  case pattern => exact completes_leg hs rfl (finish_modR (f := loadPattern) hs hg rfl rfl rfl)
  case scalecfg => exact completes_leg hs rfl (finish_modR (f := loadScale) hs hg rfl rfl rfl)
  case nop => exact completes_leg hs rfl (finish_of_only (S := ∅) hs hg only_refl id id)
  case mark =>
    refine (completes_queueLeg hs hg rfl markQ_free).imp fun t ⟨he, hw, u, hu, ht⟩ => ⟨he, hw, ?_⟩
    obtain ⟨ps, h⟩ := markQ_queue (popQueue (ctx s c).r.leg) u
    rw [ht, h, hu]
    exact ⟨rfl, rfl, rfl⟩
  case rewind =>
    refine (completes_queueLeg hs hg rfl rewindQ_free).imp fun t ⟨he, hw, u, hu, ht⟩ => ⟨he, hw, ?_⟩
    rw [ht, rewindQ_queue, hu]
    cases hm : (queue s (popQueue (ctx s c).r.leg)).markv
    · exact ⟨rfl, hm, rfl, (Bool.or_true _).symm⟩
    · exact ⟨rewound_items _, hm, rfl, (Bool.or_false _).symm⟩
  case release =>
    refine (completes_queueLeg hs hg rfl releaseQ_free).imp fun t ⟨he, hw, u, hu, ht⟩ => ⟨he, hw, ?_⟩
    obtain ⟨ps, h⟩ := releaseQ_queue (popQueue (ctx s c).r.leg) u
    rw [ht, h, hu]
    cases hm : (queue s (popQueue (ctx s c).r.leg)).markv
    · exact ⟨hm, rfl, rfl, (Bool.or_true _).symm⟩
    · exact ⟨hm, rfl, rfl, (Bool.or_false _).symm⟩

end Sys2Proof.Laws
end

section
/-! PROOFS. The wait legs. -/

namespace Sys2Proof.Laws
open Sys2Proof.Machine

variable {s u v t : State} {c op : Nat} {z : Bool}

/-! ### The condition of a wait, as the leg begins -/

theorem begun_legends : (begun c s).legends = s.legends := begun_same (p := .legends) (by rintro (h | h | h) <;> cases h) nofun
theorem begun_inp (n : Nat) : inp (begun c s) n = inp s n := begun_same (p := .input n) (by rintro (h | h | h) <;> cases h) nofun
theorem begun_mer : (begun c s).mer = s.mer := begun_same (p := .mer) (by rintro (h | h | h) <;> cases h) nofun
theorem begun_flash : (begun c s).flash = s.flash := begun_same (p := .flash) (by rintro (h | h | h) <;> cases h) nofun
theorem begun_power : (begun c s).power = s.power := begun_same (p := .power) (by rintro (h | h | h) <;> cases h) nofun
theorem begun_straps : (begun c s).straps = s.straps := begun_same (p := .straps) (by rintro (h | h | h) <;> cases h) nofun
theorem begun_eclk : (begun c s).eclk = s.eclk := begun_same (p := .eclk) (by rintro (h | h | h) <;> cases h) nofun
theorem begun_spill : (begun c s).spill = s.spill := begun_same (p := .spill) (by rintro (h | h | h) <;> cases h) nofun
theorem begun_legReq : legReq (begun c s) c = legReq s c := by unfold legReq legend; rw [begun_legends]
theorem begun_legReqen : legReqen (begun c s) c = legReqen s c := by unfold legReqen legend; rw [begun_legends]
theorem begun_merInt : merInt (begun c s) = merInt s := by unfold merInt; rw [begun_mer]
theorem begun_qok (n : Nat) : qok (begun c s) n = qok s n := by
  unfold qok sourcePowered wiring
  rw [begun_eclk, begun_straps, begun_inp, begun_power]
theorem begun_pendOf : pendOf (begun c s) c = pendOf s c := by
  unfold pendOf levelReq
  rw [begun_legReqen, begun_legReq, begun_inp, begun_ctx, begun_qok]
theorem begun_covered : covered (begun c s) c = covered s c := by unfold covered; rw [begun_ctx]
theorem begun_hasRoom (q : Nat) : hasRoom (begun c s) q = hasRoom s q := by
  unfold hasRoom isFull canSend canAlloc
  rw [begun_queue, begun_spill]
theorem begun_domainUp (d : Nat) : domainUp (begun c s) d = domainUp s d := by
  unfold domainUp
  rw [begun_power, begun_eclk]
theorem begun_condMet (d : WaitDesc) : condMet (begun c s) c d = condMet s c d := by
  cases d with
  | none => rfl
  | request n => simp only [condMet, begun_pendOf, begun_legReq, begun_inp]
  | burstRequest => simp only [condMet, begun_pendOf]
  | time t => simp only [condMet, begun_merInt]
  | items q n | packet q | popItem q => simp only [condMet, begun_queue]
  | pushRoom q => simp only [condMet, begun_hasRoom]
  | barrierLeg b => simp only [condMet, begun_covered, begun_ctx]
  | barBefore | barAfter => simp only [condMet, begun_covered]
  | flash b => simp only [condMet, begun_flash]
  | domain d => simp only [condMet, begun_domainUp]

/-! ### A wait leg that completes -/

/-- The channel as a wait leg that completes with Z goes on from it (R117, R118). -/
theorem leaveWait_ctx (c : Nat) (u : State) : ctx (leaveWait c u) c =
    { r := { (ctx u c).r with state := .active, wait := .none, desc := .none, deadline := none },
      w := { (ctx u c).w with waitFrom := u.eclk, acting := false } } := ctx_setCtx_self ..

/-- A wait leg that has set registers of its channel completes with Z, and goes on to its successor (R117). -/
theorem finishZ_wentTo (hs : Begins s c op) (hg : GoesOn s c) (hl : (ctx v c).r.leg = (ctx s c).r.leg) (hp : (ctx v c).r.pc = (ctx s c).r.pc)
    (hw : (ctx v c).w.legNo = (ctx s c).w.legNo) (hf : (ctx v c).w.faulting = (ctx s c).w.faulting) (hh : v.heldRecs = s.heldRecs) :
    WentTo s c (successorOf (ctx s c).r) { (ctx v c).r with deadline := none, flags := { (ctx v c).r.flags with z := z } } (finishZ c z v) ∧
    (ctx (finishZ c z v) c).w.armed = (ctx v c).w.armed := by
  unfold finishZ
  generalize hu : rankMet c (modR c (fun r => { r with flags := { r.flags with z := z } }) (leaveWait c v)) = u
  have hr : (ctx u c).r = { (ctx v c).r with state := .active, wait := .none, desc := .none, deadline := none,
                                             flags := { (ctx v c).r.flags with z := z } } := by
    rw [← hu, rankMet, ctx_modW_self, ctx_modR_self, leaveWait_ctx]
  have hk : (ctx u c).w.legNo = (ctx v c).w.legNo ∧ (ctx u c).w.faulting = (ctx v c).w.faulting ∧ (ctx u c).w.armed = (ctx v c).w.armed := by
    rw [← hu, rankMet, ctx_modW_self, ctx_modR_self, leaveWait_ctx]
    exact ⟨rfl, rfl, rfl⟩
  obtain ⟨hn, hfl, ha⟩ := hk
  have eh : u.heldRecs = s.heldRecs := by rw [← hh, ← hu]; rfl
  have hul : (ctx u c).r.leg = (ctx s c).r.leg := by rw [hr]; exact hl
  refine ⟨?_, ?_⟩
  · obtain ⟨h1, h2, h3, h4⟩ := finish_after (v := u) hs hg hul (by rw [hr]; exact hp) (by rw [hr, hs.2.1]) (hn.trans hw) (hfl.trans hf) eh
    refine ⟨h1, h2.trans ?_, h3, h4⟩
    rw [hr]
    rfl
  · rw [finish_armed (goesOn_congr hg hul eh) (by rw [hr]; exact nofun), ha]

/-! ### WAITREQ consumes its requests -/

/-- What a WAITREQ whose condition is met leaves of its channel: its requests are consumed (R119, R189, R192). -/
theorem rearmNow_consume_ctx (n : Nat) (u : State) :
    (ctx (rearmNow c (consume c n u)) c).r =
      (if legReqen u c && levelMode (inp u (legReq u c)) then (ctx u c).r else { (ctx u c).r with pend := (ctx u c).r.pend - n }) ∧
    (ctx (rearmNow c (consume c n u)) c).w.legNo = (ctx u c).w.legNo ∧
    (ctx (rearmNow c (consume c n u)) c).w.faulting = (ctx u c).w.faulting ∧
    ((legReqen u c && levelMode (inp u (legReq u c))) = true → (ctx (rearmNow c (consume c n u)) c).w.armed = false) := by
  have R (v : State) : (ctx (rearmNow c v) c).r = (ctx v c).r ∧ (ctx (rearmNow c v) c).w.legNo = (ctx v c).w.legNo ∧
      (ctx (rearmNow c v) c).w.faulting = (ctx v c).w.faulting ∧ (ctx (rearmNow c v) c).w.armed = (ctx v c).w.armed := by
    unfold rearmNow
    split
    · exact ⟨rfl, rfl, rfl, rfl⟩
    · rw [ctx_modW_self]; exact ⟨rfl, rfl, rfl, rfl⟩
  obtain ⟨hr, hn, hf, ha⟩ := R (consume c n u)
  rw [hr, hn, hf, ha]
  unfold consume
  split
  · rw [ctx_modW_self]; exact ⟨rfl, rfl, rfl, fun _ => rfl⟩
  · rw [ctx_modR_self]; exact ⟨rfl, rfl, rfl, fun h => absurd h ‹_›⟩
theorem rearmNow_consume_heldRecs (n : Nat) (u : State) : (rearmNow c (consume c n u)).heldRecs = u.heldRecs := by
  have h : Only {.ctx c} u (rearmNow c (consume c n u)) := rearmNow_only rfl (consume_only rfl only_refl)
  exact h .heldRecs nofun

/-! ### A wait leg that waits -/

/-- The registers of a channel that waits for d, with the deadline that the leg's TIMEOUT gives (R117). -/
def waitRegs (s : State) (c : Nat) (d : WaitDesc) (timeout : Nat) : CtxRegs :=
  { (ctx s c).r with state := .wait, wait := waitReason d, desc := d,
                     deadline := if timeout = 0 then (ctx s c).r.deadline else some (startOf s c + timeout) }
theorem waitFor_ctx {d : WaitDesc} {n : Nat} (hd : condMet u c d = false) (hl : (ctx u c).w.legAt = some (startOf u c)) :
    (ctx (waitFor c d n u) c).r = waitRegs u c d n ∧ (ctx (waitFor c d n u) c).w.phase = .waiting ∧
    (ctx (waitFor c d n u) c).w.faulting = (ctx u c).w.faulting := by
  unfold waitFor
  rw [hd, if_neg (by decide)]
  dsimp only
  have e : ctx (modW c (fun w => { w with phase := .waiting }) (enterWait c (waitReason d) d u)) c =
      { r := { (ctx u c).r with state := .wait, wait := waitReason d, desc := d }, w := { (ctx u c).w with progressed := true, phase := .waiting } } := by
    rw [ctx_modW_self, enterWait, ctx_setCtx_self]
  have hst : startOf (modW c (fun w => { w with phase := .waiting }) (enterWait c (waitReason d) d u)) c = startOf u c := by
    unfold startOf
    rw [e, hl]
    rfl
  unfold waitRegs
  split
  · rw [e]; exact ⟨rfl, rfl, rfl⟩
  · rw [ctx_modR_self, hst, e]; exact ⟨rfl, rfl, rfl⟩

theorem begun_legAt : (ctx (begun c s) c).w.legAt = some (startOf (begun c s) c) := by rw [begun_startOf, begun_ctx]
theorem begun_waitRegs (d : WaitDesc) (n : Nat) : waitRegs (begun c s) c d n = waitRegs s c d n := by
  unfold waitRegs
  rw [begun_r, begun_startOf]

/-! ### The legs -/

theorem begun_timeTarget : timeTarget (begun c s) c = timeTarget s c := by
  unfold timeTarget
  rw [begun_r, begun_startOf]
theorem timeTarget_eq (s : State) (c : Nat) : timeTarget s c =
    if fld (ctx s c).r.leg.w2 1 0 = 0 then (ctx s c).r.leg.w1
    else if fld (ctx s c).r.leg.w2 1 0 = 1 then BitVec.ofNat 64 (startOf s c) + (ctx s c).r.leg.w1
    else vreg (ctx s c).r (fld (ctx s c).r.leg.w2 4 2) + (ctx s c).r.leg.w1 := by
  unfold timeTarget
  dsimp only
  split <;> simp_all

/-- WAITTIME's channel, its value register set where it gives the target (R121). -/
def timed (c : Nat) (u : State) : State :=
  if fld (ctx u c).r.leg.w2 1 0 = 2 then modR c (setV (fld (ctx u c).r.leg.w2 4 2) (timeTarget u c)) u else u
theorem waittime_eq (c : Nat) (u : State) : waittime c u =
    if (timeTarget u c).toNat ≤ merInt u then finishZ c false (timed c u) else waitFor c (.time (timeTarget u c)) 0 (timed c u) := by
  unfold waittime timed
  dsimp only
  split <;> rfl
theorem timed_ctx (c : Nat) (u : State) : ctx (timed c u) c =
    { ctx u c with r := { (ctx u c).r with
        v := if fld (ctx u c).r.leg.w2 1 0 = 2 then tset 0 (ctx u c).r.v (fld (ctx u c).r.leg.w2 4 2) (timeTarget u c) else (ctx u c).r.v } } := by
  unfold timed
  split
  · rw [ctx_modR_self]; rfl
  · rfl
theorem timed_keeps (c : Nat) (u : State) : (timed c u).heldRecs = u.heldRecs ∧ (timed c u).mer = u.mer := by
  unfold timed
  split <;> exact ⟨rfl, rfl⟩

theorem finishZ_begun (hs : Begins s c op) (hg : GoesOn s c) : WentTo s c (successorOf (ctx s c).r)
    { (ctx s c).r with deadline := none, flags := { (ctx s c).r.flags with z := z } } (finishZ c z (begun c s)) := by
  have h := (finishZ_wentTo (v := begun c s) (z := z) hs hg (by rw [begun_r]) (by rw [begun_r]) begun_legNo begun_faulting begun_heldRecs).1
  rwa [begun_r] at h

/-- A wait leg that begins on the registers it finds, as a wait. -/
theorem completes_wait {i : Instr} {d : Leg → WaitDesc} {P : State → Prop} (hs : Begins s c op)
    (he : exec i s = .next (beginLeg op c (fun u => waitFor c (d (ctx u c).r.leg) (timeoutOf (ctx u c).r.leg) u) s))
    (H : P (waitFor c (d (ctx s c).r.leg) (timeoutOf (ctx s c).r.leg) (begun c s))) : Completes i s P := by
  refine completes_leg hs he ?_
  rw [begun_r]
  exact H
theorem waitFor_met {d : WaitDesc} {n : Nat} (hd : condMet s c d = true) : waitFor c d n (begun c s) = satisfied c d (begun c s) := by
  unfold waitFor
  rw [begun_condMet, if_pos hd]
theorem waitFor_unmet {d : WaitDesc} (n : Nat) (hs : Begins s c op) (hd : condMet s c d = false) :
    (ctx (waitFor c d n (begun c s)) c).r = waitRegs s c d n ∧ (ctx (waitFor c d n (begun c s)) c).w.phase = .waiting ∧
    (ctx (waitFor c d n (begun c s)) c).w.faulting = none := by
  obtain ⟨hr, hp, hf⟩ := waitFor_ctx (n := n) ((begun_condMet d).trans hd) begun_legAt
  exact ⟨hr.trans (begun_waitRegs d n), hp, hf.trans (begun_faulting.trans (canBegin_facts hs.1).1)⟩

/-- WAITREQ, its requests consumed, goes on with Z = 1 (R119). -/
theorem satisfied_request (n : Nat) (hs : Begins s c op) (hg : GoesOn s c) :
    WentTo s c (successorOf (ctx s c).r)
      (if legReqen s c && levelMode (inp s (legReq s c)) then { (ctx s c).r with deadline := none, flags := { (ctx s c).r.flags with z := true } }
       else { (ctx s c).r with deadline := none, flags := { (ctx s c).r.flags with z := true }, pend := (ctx s c).r.pend - n })
      (satisfied c (.request n) (begun c s)) ∧
    ((legReqen s c && levelMode (inp s (legReq s c))) = true → (ctx (satisfied c (.request n) (begun c s)) c).w.armed = false) := by
  obtain ⟨hr, hn, hf, ha⟩ := rearmNow_consume_ctx (c := c) n (begun c s)
  have hh := (rearmNow_consume_heldRecs (c := c) n (begun c s)).trans begun_heldRecs
  rw [begun_legReqen, begun_legReq, begun_inp] at hr ha
  rw [begun_r] at hr
  have hlp : (ctx (rearmNow c (consume c n (begun c s))) c).r.leg = (ctx s c).r.leg ∧
      (ctx (rearmNow c (consume c n (begun c s))) c).r.pc = (ctx s c).r.pc := by
    rw [hr]; split <;> exact ⟨rfl, rfl⟩
  obtain ⟨hw, hz⟩ := finishZ_wentTo (z := true) hs hg hlp.1 hlp.2 (hn.trans begun_legNo) (hf.trans begun_faulting) hh
  refine ⟨?_, fun h => hz.trans (ha h)⟩
  rw [hr] at hw
  revert hw
  split <;> exact id

/-- The wait legs as they wait. -/
theorem waitLegs_wait {e : Instr × Nat × WaitDesc} {c : Fin 1024} (he : e ∈ Machine.waitLegs c (ctx s c).r.leg) (hs : Begins s c e.2.1)
    (hd : condMet s c e.2.2 = false) {P : State → Prop} (H : P (waitFor c e.2.2 (timeoutOf (ctx s c).r.leg) (begun c s))) : Completes e.1 s P := by
  unfold Machine.waitLegs at he
  simp only [List.mem_cons, List.not_mem_nil, or_false] at he
  rcases he with rfl | rfl | rfl
  · exact completes_wait (d := fun l => .request (fld l.w1 15 0 + 1)) hs rfl H
  · exact completes_wait (d := queueCond) hs rfl H
  · exact completes_wait (d := fun l => .barrierLeg (bit l.w1 0)) hs rfl H

/-- WAITTIME on the state in which it has begun (R121). -/
theorem waittime_begun (hs : Begins s c op) (hg : GoesOn s c) :
    if (timeTarget s c).toNat ≤ merInt s then
      WentTo s c (successorOf (ctx s c).r) { (ctx (timed c s) c).r with deadline := none, flags := { (ctx s c).r.flags with z := false } }
        (waittime c (begun c s))
    else (ctx (waittime c (begun c s)) c).r =
        { (ctx (timed c s) c).r with state := .wait, wait := .time, desc := .time (timeTarget s c) } ∧
      (ctx (waittime c (begun c s)) c).w.phase = .waiting := by
  have hc := timed_ctx c (begun c s)
  obtain ⟨hh, hm⟩ := timed_keeps c (begun c s)
  have hr : (ctx (timed c (begun c s)) c).r = (ctx (timed c s) c).r := by
    rw [hc, timed_ctx, begun_timeTarget, begun_r]
  have hw : (ctx (timed c (begun c s)) c).w = (ctx (begun c s) c).w := by rw [hc]
  rw [waittime_eq, begun_timeTarget, begun_merInt]
  split
  · next h =>
    have := (finishZ_wentTo (v := timed c (begun c s)) (z := false) hs hg (by rw [hr, timed_ctx]) (by rw [hr, timed_ctx])
      (by rw [hw]; exact begun_legNo) (by rw [hw]; exact begun_faulting) (hh.trans begun_heldRecs)).1
    rw [hr] at this
    rwa [show (ctx (timed c s) c).r.flags = (ctx s c).r.flags by rw [timed_ctx]] at this
  · next h =>
    have hd : condMet (timed c (begun c s)) c (.time (timeTarget s c)) = false := by
      simp only [condMet, merInt, hm, begun_mer, decide_eq_false_iff_not]
      exact h
    have ha : (ctx (timed c (begun c s)) c).w.legAt = some (startOf (timed c (begun c s)) c) := by
      have := begun_legAt (c := c) (s := s)
      rw [hw, this]
      unfold startOf
      rw [hw, this]
      rfl
    obtain ⟨hr', hp', -⟩ := waitFor_ctx (n := 0) hd ha
    refine ⟨hr'.trans ?_, hp'⟩
    unfold waitRegs
    rw [if_pos rfl, hr]
    rfl

/-- Settles O7: a wait whose condition holds completes as `satisfied` has it, and one whose condition does not hold waits
with the deadline that its TIMEOUT gives. -/
theorem waitLegs : Obligations.WaitLegs := by
  unfold Obligations.WaitLegs
  refine ⟨fun s c hg => ⟨fun hs hd => ?waitreq, fun hs hd => ?waitq, fun hs hd => ?barrier⟩, fun s c e he hs hd => ?waits,
    fun s c hg hs => ?waittime⟩
  case waitreq =>
    refine completes_wait (d := fun l => .request (fld l.w1 15 0 + 1)) hs rfl ?_
    rw [waitFor_met hd]
    exact satisfied_request _ hs hg
  case waitq =>
    refine completes_wait (d := queueCond) hs rfl ?_
    rw [waitFor_met hd]
    have e : satisfied c (queueCond (ctx s c).r.leg) (begun c s) = finishZ c true (begun c s) := by
      unfold queueCond
      split <;> rfl
    rw [e]
    exact finishZ_begun hs hg
  case barrier =>
    refine completes_wait (d := fun l => .barrierLeg (bit l.w1 0)) hs rfl ?_
    rw [waitFor_met hd]
    exact finishZ_begun hs hg
  case waits => exact waitLegs_wait he hs hd (waitFor_unmet _ hs hd)
  case waittime =>
    refine completes_leg hs rfl ?_
    have h := waittime_begun hs hg
    rw [timed_ctx, timeTarget_eq] at h
    exact h

end Sys2Proof.Laws
end

section
/-! PROOFS. SIGNAL and LOG. -/

namespace Sys2Proof.Laws
open Sys2Proof.Machine

variable {s u v t : State} {S : Set Area} {c d m op : Nat}

/-! ### A wake -/

/-- What a wake of channel d may change. -/
def wakeAreas (d : Nat) : Set Area := fun p => prefetchAreas p ∨ p = .ctx d ∨ p = .power
theorem startEndRead_wake (d : Nat) (u : State) : Only (wakeAreas d) u (startEndRead d u) := by
  have hc : Area.ctx d ∈ wakeAreas d := .inr (.inl rfl)
  have hl : LookIn (wakeAreas d) := ⟨.inl (.inl rfl), .inl (.inr (.inl rfl))⟩
  have hf : Area.fetches ∈ wakeAreas d := .inl (.inr (.inr rfl))
  have H1 : Only (wakeAreas d) u (dropEndRead d (modW d (fun w => { w with phase := .endRead }) u)) := dropEndRead_only hf (put_modW hc only_refl)
  unfold startEndRead
  generalize dropEndRead d (modW d (fun w => { w with phase := .endRead }) u) = t at H1
  dsimp only
  refine only_ite (only_ite (put_modW hc H1) H1) ?_
  have H2 := put_modW (f := fun w => { w with urgent := false }) hc H1
  generalize modW d (fun w => { w with urgent := false }) t = t2 at H2 ⊢
  split
  · exact goHeld_only hc (.inr (.inr rfl)) H2
  · exact flashHold_only hc (newFetch_only hl hf H2)
theorem wake_wake (d : Nat) (u : State) : Only (wakeAreas d) u (wake d u) := by
  have hc : Area.ctx d ∈ wakeAreas d := .inr (.inl rfl)
  unfold wake
  dsimp only
  split
  · exact only_ite (put_modR hc only_refl) (only_ite (put_modW hc only_refl) (startEndRead_wake d u))
  all_goals first | exact put_modR hc only_refl | exact only_refl
theorem sendWake_wake (d : Nat) (u : State) : Only (fun p => wakeAreas d p ∨ p = .ctl) u (sendWake d u) :=
  only_ite (put_ctl (.inr rfl) only_refl) (only_mono (fun _ h => .inl h) (wake_wake d u))

/-- The states of a channel in which a wake is remembered (R66). -/
def remembers (st : ChState) : Prop := st = .active ∨ st = .wait ∨ st = .held ∨ st = .paused ∨ st = .halted
theorem wake_of_remembers (h : remembers (ctx u d).r.state) : wake d u = modR d (fun r => { r with wake := true }) u := by
  unfold wake
  dsimp only
  rcases h with h | h | h | h | h <;> rw [h]

/-- A wake sets, in a channel that is ACTIVE, at most its held wake. -/
theorem sendWake_active (h : (ctx u c).r.state = .active) :
    ∃ b, ctx (sendWake d u) c = { ctx u c with r := { (ctx u c).r with wake := b } } := by
  by_cases hd : d = c
  · subst hd
    unfold sendWake
    split
    · exact ⟨_, rfl⟩
    · exact ⟨true, by rw [wake_of_remembers (.inl h), ctx_modR_self]⟩
  · refine ⟨_, ctx_of_only (sendWake_wake d u) ?_⟩
    rintro (((h | h | h) | h | h) | h) <;> cases h
    exact hd rfl
theorem inTransfer_of_swap (h : u.swap = s.swap) : inTransfer u d = inTransfer s d := by
  unfold inTransfer inSwap
  rw [h]
theorem sendWake_in (h : inTransfer u d = true) : sendWake d u = { u with ctl := u.ctl ++ [(d, .wake)] } := by
  unfold sendWake
  rw [h]
  rfl
theorem sendWake_out (h : inTransfer u d = false) : sendWake d u = wake d u := by
  unfold sendWake
  rw [h]
  rfl

/-! ### SIGNAL -/

theorem fireEvo_evo (hq : quiet u = false) (m n : Nat) : evo (fireEvo m u) n = if n = m then evoFired u.eclk (evo u m) else evo u n := by
  have e : evo (setEvo m (evoFired u.eclk (evo u m)) u) n = if n = m then evoFired u.eclk (evo u m) else evo u n := tget_tset ..
  unfold fireEvo
  rw [hq, if_neg (by decide)]
  dsimp only
  split
  · exact e
  · exact e

/-- The state as SIGNAL's pulse leaves it. -/
def pulsed (l : Leg) (u : State) : State := if bit l.w1 7 then fireEvo (fld l.w1 6 0) u else u
/-- The state as SIGNAL's pulse and wake leave it. -/
def signalled (l : Leg) (u : State) : State := if bit l.w1 18 then sendWake (fld l.w1 17 8) (pulsed l u) else pulsed l u
/-- SIGNAL's remote event stands for the next ECLK, and the channel stays at the leg (R125). -/
def handed (c : Nat) (u : State) : State := { modW c (fun w => { w with phase := .single }) u with remotes := u.remotes ++ [(c, u.eclk + 1)] }
theorem handed_ctx (c d : Nat) (u : State) : ctx (handed c u) d =
    if d = c then { ctx u c with w := { (ctx u c).w with phase := .single } } else ctx u d := ctx_setCtx ..
theorem signal_eq (c : Nat) (u : State) : signal c u =
    if bit (ctx u c).r.leg.w2 44 then handed c (signalled (ctx u c).r.leg u) else finish c (signalled (ctx u c).r.leg u) := rfl

theorem pulsed_only (l : Leg) (u : State) : Only {.evo (fld l.w1 6 0)} u (pulsed l u) := only_ite (fireEvo_only rfl only_refl) only_refl
theorem pulsed_ctx (l : Leg) (u : State) : ctx (pulsed l u) = ctx u := funext fun d => pulsed_only l u (.ctx d) nofun
theorem pulsed_swap (l : Leg) (u : State) : (pulsed l u).swap = u.swap := pulsed_only l u .swap nofun
theorem signalled_only (l : Leg) (u : State) :
    Only (fun p => (wakeAreas (fld l.w1 17 8) p ∨ p = .ctl) ∨ p = .evo (fld l.w1 6 0)) u (signalled l u) :=
  have h := only_mono (fun _ h => .inr h) (pulsed_only l u)
  only_ite (only_trans h (only_mono (fun _ h => .inl h) (sendWake_wake _ _))) h
theorem signalled_active (l : Leg) (h : (ctx u c).r.state = .active) :
    ∃ b, ctx (signalled l u) c = { ctx u c with r := { (ctx u c).r with wake := b } } := by
  have e := congrFun (pulsed_ctx l u) c
  unfold signalled
  split
  · rw [← e] at h ⊢
    exact sendWake_active h
  · exact ⟨_, e⟩
theorem signalled_keeps (l : Leg) (u : State) : (signalled l u).remotes = u.remotes ∧ (signalled l u).heldRecs = u.heldRecs ∧ (signalled l u).eclk = u.eclk := by
  refine ⟨signalled_only l u .remotes ?_, signalled_only l u .heldRecs ?_, signalled_only l u .eclk ?_⟩ <;>
    rintro ((((h | h | h) | h | h) | h) | h) <;> cases h
theorem signalled_evo (l : Leg) (hq : quiet u = false) (n : Nat) : evo (signalled l u) n =
    if bit l.w1 7 = true ∧ n = fld l.w1 6 0 then evoFired u.eclk (evo u (fld l.w1 6 0)) else evo u n := by
  have e : evo (signalled l u) n = evo (pulsed l u) n := by
    unfold signalled
    split
    · refine sendWake_wake _ _ (.evo n) ?_
      rintro (((h | h | h) | h | h) | h) <;> cases h
    · rfl
  rw [e]
  unfold pulsed
  cases bit l.w1 7
  · simp
  · rw [if_pos rfl, fireEvo_evo hq]
    simp
theorem signalled_wake (l : Leg) (u : State) (hb : bit l.w1 18 = true) :
    (inTransfer u (fld l.w1 17 8) = true → (fld l.w1 17 8, CtlWrite.wake) ∈ (signalled l u).ctl) ∧
    (inTransfer u (fld l.w1 17 8) = false → remembers (ctx u (fld l.w1 17 8)).r.state → (ctx (signalled l u) (fld l.w1 17 8)).r.wake = true) := by
  have hs := pulsed_swap l u
  unfold signalled
  rw [if_pos hb]
  refine ⟨fun hi => ?_, fun hi hr => ?_⟩
  · rw [sendWake_in ((inTransfer_of_swap hs).trans hi)]
    exact List.mem_append_right _ (List.mem_singleton_self _)
  · rw [← pulsed_ctx l] at hr
    rw [sendWake_out ((inTransfer_of_swap hs).trans hi), wake_of_remembers hr, ctx_modR_self]

theorem quiet_of_running (h : inReset s = false) : quiet s = false := by
  unfold inReset at h
  unfold quiet
  rw [show s.glob.phase = .running by simpa using h]
theorem begun_phase : (begun c s).glob.phase = s.glob.phase := by
  have h : same .glob s (begun c s) := begun_same (by rintro (h | h | h) <;> cases h) nofun
  exact congrArg (·.phase) h
theorem begun_swap : (begun c s).swap = s.swap := begun_same (p := .swap) (by rintro (h | h | h) <;> cases h) nofun
theorem begun_remotes : (begun c s).remotes = s.remotes := begun_same (p := .remotes) (by rintro (h | h | h) <;> cases h) nofun
theorem begun_evo : evo (begun c s) m = evo s m := begun_same (p := .evo m) (by rintro (h | h | h) <;> cases h) nofun
theorem begun_regs : (ctx (begun c s) d).r = (ctx s d).r := by
  by_cases h : d = c
  · rw [h, begun_r]
  · have e : ctx (begun c s) d = ctx s d :=
      begun_same (p := .ctx d) (by rintro (h | h | h) <;> cases h) (fun e => h (Area.ctx.inj e))
    rw [e]

/-- What a remembered wake and the event outputs keep as channel c goes on. -/
theorem notMem_fault_ctx (h : d ≠ c) : Area.ctx d ∉ faultAreas c := by
  rintro ((((h | h) | ⟨_, h⟩) | (h | h) | h | h | h | h | h) | ⟨_, h⟩ | h | h | h | h) <;> cases h
  exact h rfl

/-- SIGNAL as it stays at the leg, or goes on (R125). -/
theorem signal_goes (hs : Begins s c op) (hg : GoesOn s c) :
    (if bit (ctx s c).r.leg.w2 44 then
      (ctx (signal c (begun c s)) c).r.pc = (ctx s c).r.pc ∧ (ctx (signal c (begun c s)) c).r.leg = (ctx s c).r.leg ∧
      (ctx (signal c (begun c s)) c).w.phase = .single ∧ (ctx (signal c (begun c s)) c).w.legNo = (ctx s c).w.legNo ∧
      (signal c (begun c s)).remotes = s.remotes ++ [(c, s.eclk + 1)]
     else (ctx (signal c (begun c s)) c).r.pc = successorOf (ctx s c).r ∧
      (ctx (signal c (begun c s)) c).w.legNo = (ctx s c).w.legNo + 1 ∧ (signal c (begun c s)).remotes = s.remotes) := by
  obtain ⟨b, hb⟩ := signalled_active (ctx s c).r.leg (u := begun c s) (c := c) (by rw [begun_r]; exact hs.2.1)
  obtain ⟨hr, hh, he⟩ := signalled_keeps (ctx s c).r.leg (begun c s)
  have hn : (ctx (signalled (ctx s c).r.leg (begun c s)) c).w.legNo = (ctx s c).w.legNo := by rw [hb, begun_legNo]
  rw [signal_eq, begun_r]
  split
  · have e := handed_ctx c c (signalled (ctx s c).r.leg (begun c s))
    rw [if_pos rfl] at e
    rw [e]
    refine ⟨?_, ?_, rfl, hn, ?_⟩
    · rw [hb, begun_r]
    · rw [hb, begun_r]
    · rw [← hr.trans begun_remotes, ← he.trans begun_eclk]; rfl
  · obtain ⟨hpc, -, hl, -⟩ := finish_after (v := signalled (ctx s c).r.leg (begun c s)) hs hg (by rw [hb, begun_r]) (by rw [hb, begun_r])
      (by rw [hb, begun_r]) hn (by rw [hb, begun_faulting]) (hh.trans begun_heldRecs)
    have h : same .remotes (signalled (ctx s c).r.leg (begun c s)) (finish c (signalled (ctx s c).r.leg (begun c s))) :=
      finish_same (by rintro ((((h | h) | ⟨_, h⟩) | (h | h) | h | h | h | h | h) | ⟨_, h⟩ | h | h | h | h) <;> cases h)
    exact ⟨hpc, hl, Eq.trans h (hr.trans begun_remotes)⟩

theorem finish_ctl : (finish c u).ctl = u.ctl :=
  finish_same (p := .ctl) (by rintro ((((h | h) | ⟨_, h⟩) | (h | h) | h | h | h | h | h) | ⟨_, h⟩ | h | h | h | h) <;> cases h)
theorem finish_evo : evo (finish c u) m = evo u m :=
  finish_same (p := .evo m) (by rintro ((((h | h) | ⟨_, h⟩) | (h | h) | h | h | h | h | h) | ⟨_, h⟩ | h | h | h | h) <;> cases h)

/-- What SIGNAL leaves of the event outputs, the control writes and the wakes is what its pulse and wake leave. -/
theorem signal_leaves (hs : Begins s c op) (hg : GoesOn s c) :
    (∀ n, evo (signal c (begun c s)) n = evo (signalled (ctx s c).r.leg (begun c s)) n) ∧
    (signal c (begun c s)).ctl = (signalled (ctx s c).r.leg (begun c s)).ctl ∧
    ∀ d, (ctx (signal c (begun c s)) d).r.wake = (ctx (signalled (ctx s c).r.leg (begun c s)) d).r.wake := by
  obtain ⟨b, hb⟩ := signalled_active (ctx s c).r.leg (u := begun c s) (c := c) (by rw [begun_r]; exact hs.2.1)
  rw [signal_eq, begun_r]
  split
  · refine ⟨fun _ => rfl, rfl, fun d => ?_⟩
    rw [handed_ctx]
    split
    · next h => rw [h]
    · rfl
  · refine ⟨fun _ => finish_evo, finish_ctl, fun d => ?_⟩
    by_cases hd : d = c
    · subst hd
      obtain ⟨-, hl, -⟩ := finish_after (v := signalled (ctx s d).r.leg (begun d s)) hs hg (by rw [hb, begun_r]) (by rw [hb, begun_r])
        (by rw [hb, begun_r]) (by rw [hb, begun_legNo]) (by rw [hb, begun_faulting]) ((signalled_keeps _ _).2.1.trans begun_heldRecs)
      exact congrArg (·.wake) hl
    · have e : ctx (finish c (signalled (ctx s c).r.leg (begun c s))) d = ctx (signalled (ctx s c).r.leg (begun c s)) d :=
        finish_same (p := .ctx d) (notMem_fault_ctx hd)
      rw [e]

/-! ### LOG -/

/-- An offer whose plane has room stands with the records that wait (R16 to R18). -/
theorem offer_offers {p : Plane} {own : Option Nat} {r : Rec} (hp : p ≠ .mgt) : Offers p own r u (offer p own r u) := by
  have e : offer p own r u = { u with
      heldRecs := u.heldRecs.filter (fun h => !goesAfter p u.eclk (recKey u own) h) ++
        ⟨p, r, own, u.eclk, recKey u own⟩ :: u.heldRecs.filter (goesAfter p u.eclk (recKey u own)) } := by
    unfold offer
    rw [decide_eq_false hp]
    rfl
  rw [e]
  refine List.perm_middle.trans (List.Perm.cons _ ?_)
  exact List.perm_append_comm.trans (List.filter_append_perm _ _)
theorem heldFor_of_offers {p : Plane} {r : Rec} {v : State} (h : Offers p (some c) r u v) : heldFor v c = true := by
  unfold heldFor
  rw [h.any_eq, List.any_cons]
  simp

/-- LOG's record, as the state in which the leg comes has it (R127). -/
def logRec (s : State) (c : Nat) : Rec :=
  let l := (ctx s c).r.leg
  { mkRec s (legBook s c) 3 1 c (fld l.w1 31 0) (if bit l.w1 35 then vreg (ctx s c).r (fld l.w1 34 32) else l.w2) (fld l.w3 30 0) with
    time := BitVec.ofNat 64 (startOf s c) }
theorem logLeg_eq (c : Nat) (u : State) : logLeg c u = finish c (offer .ctl (some c) (logRec u c) u) := rfl
theorem begun_logRec : logRec (begun c s) c = logRec s c := by
  unfold logRec mkRec legBook legend
  rw [begun_r, begun_startOf, begun_legends]
theorem begun_offers {p : Plane} {r : Rec} (h : Offers p (some c) r (begun c s) t) : Offers p (some c) r s t := by
  have e : recKey (begun c s) (some c) = recKey s (some c) := by
    unfold recKey
    dsimp only
    rw [begun_ctx]
  unfold Offers at *
  rwa [begun_eclk, begun_heldRecs, e] at h
theorem finish_held (h : heldFor u c = true) : finish c u = modW c (fun w => { w with phase := .recWait }) u := by
  unfold finish
  rw [h]
  rfl

/-- Settles O8: SIGNAL's pulse and wake, then the way on; LOG's record keeps its channel at the leg. -/
theorem signalAndLog : Obligations.SignalAndLog := by
  unfold Obligations.SignalAndLog
  refine ⟨fun s c hg hs hq => ?signal, fun s c hg hs => ?log⟩
  case signal =>
    obtain ⟨he, hc, hw⟩ := signal_leaves hs hg
    have hq' : quiet (begun c s) = false := quiet_of_running (by unfold inReset; rw [begun_phase]; exact hq)
    have hi (d : Nat) : inTransfer (begun c s) d = inTransfer s d := inTransfer_of_swap begun_swap
    refine completes_leg hs rfl ⟨signal_goes hs hg, fun hb => ?_, fun m hm => ?_, fun d hb hd => ?_⟩
    · rw [he, signalled_evo _ hq', if_pos ⟨hb, rfl⟩, begun_eclk, begun_evo]
    · rw [he, signalled_evo _ hq', if_neg (fun h => hm.elim (fun h' => by simp [h'] at h) (fun h' => h' h.2)), begun_evo]
    · subst hd
      obtain ⟨h1, h2⟩ := signalled_wake (ctx s c).r.leg (begun c s) hb
      rw [hi, begun_regs, ← hc, ← hw] at *
      exact ⟨h1, h2⟩
  case log =>
    refine completes_leg hs rfl ?_
    have ho : Offers .ctl (some c.val) (logRec s c) (begun c s) (offer .ctl (some c.val) (logRec s c) (begun c s)) := offer_offers nofun
    have hx : ctx (offer .ctl (some c.val) (logRec s c) (begun c s)) c = ctx (begun c s) c :=
      ctx_of_only (offer_only recIn_self only_refl) (by rintro (h | h) <;> cases h)
    rw [logLeg_eq, begun_logRec, finish_held (heldFor_of_offers ho), ctx_modW_self, hx]
    exact ⟨begun_offers ho, begun_r, rfl, begun_legNo⟩

end Sys2Proof.Laws
end

section
/-! PROOFS. LOAD and STORE. -/

namespace Sys2Proof.Laws
open Sys2Proof.Machine

variable {s u v t : State} {c d op w : Nat}

theorem begun_isLocal (a : GAddr) : isLocal (begun c s) a = isLocal s a := by
  have h : same .fab s (begun c s) := begun_same (by rintro (h | h | h) <;> cases h) nofun
  unfold isLocal
  rw [show (begun c s).fab.idv = s.fab.idv from congrArg (·.idv) h, show (begun c s).fab.id = s.fab.id from congrArg (·.id) h]
theorem begun_shutDomain (a : W32) : shutDomain (begun c s) a = shutDomain s a := by
  unfold shutDomain domainOf domainShut domainUp
  rw [begun_straps, begun_power, begun_eclk]
theorem begun_legColour : legColour (begun c s) d = legColour s d := by unfold legColour legend; rw [begun_legends]
theorem begun_offered : (begun c s).offered = s.offered := begun_same (p := .offered) (by rintro (h | h | h) <;> cases h) nofun

/-- An access that is submitted stands behind those offered before it. -/
theorem submit_offered (x : Want) (u : State) : ∃ a, (submit x u).offered = u.offered ++ [a] ∧ a.owner = x.owner ∧ a.wr = x.wr ∧
    a.colour = x.colour ∧ a.gaddr = x.gaddr ∧ a.mask = x.mask ∧ a.data = x.data := by
  have e : (beginLookup (askOf x) u).1.offered = u.offered :=
    beginLookup_only (S := lookAreas) ⟨.inl rfl, .inr rfl⟩ only_refl .offered (by rintro (h | h) <;> cases h)
  unfold submit
  split
  · exact ⟨_, congrArg (· ++ _) e, rfl, rfl, rfl, rfl, rfl, rfl⟩
  · exact ⟨_, rfl, rfl, rfl, rfl, rfl, rfl, rfl⟩
theorem submit_ctx (x : Want) (u : State) : ctx (submit x u) c = ctx u c :=
  ctx_of_only (submit_only submitIn_self only_refl) (by rintro ((h | h) | h) <;> cases h)
theorem submit_shutDomain (x : Want) (u : State) (a : W32) : shutDomain (submit x u) a = shutDomain u a := by
  have H := submit_only (w := x) submitIn_self (only_refl (s := u))
  have hs : (submit x u).straps = u.straps := H .straps (by rintro ((h | h) | h) <;> cases h)
  have hp : (submit x u).power = u.power := H .power (by rintro ((h | h) | h) <;> cases h)
  have he : (submit x u).eclk = u.eclk := H .eclk (by rintro ((h | h) | h) <;> cases h)
  unfold shutDomain domainOf domainShut domainUp
  rw [hs, hp, he]

/-- An element in one block is one part. -/
theorem partsOf_one {a : GAddr} (h : a.toNat % 16 + w ≤ 16) : partsOf none 0 a w = [(blockOf a, ⟨0, 0, w, a.toNat % 16⟩)] := by
  unfold partsOf
  exact if_pos h
theorem holdIfShut_up {b : GAddr} {p : Part} (h : shutDomain u (gLocal (b + BitVec.ofNat 45 p.at_)) = none) : holdIfShut c [(b, p)] u = u := by
  unfold holdIfShut
  simp only [List.foldl_cons, List.foldl_nil, h]
  split <;> rfl

/-! ### LOAD -/

theorem loadLeg_eq (c : Nat) (u : State) : loadLeg c u =
    if fld (ctx u c).r.leg.w2 5 4 = 0 then loadMemory c u
    else finish c (modR c (setV (fld (ctx u c).r.leg.w2 2 0)
      (if fld (ctx u c).r.leg.w2 5 4 = 1 then BitVec.ofNat 64 (startOf u c) else (ctx u c).r.leg.w3)) u) := by
  unfold loadLeg
  dsimp only
  split <;> simp_all

/-- A LOAD in one block offers its one read. -/
theorem loadMemory_one (hl : isLocal u (srcOf (ctx u c).r.leg) = true)
    (h : (srcOf (ctx u c).r.leg).toNat % 16 + swB (ctx u c).r.leg ≤ 16)
    (hu : shutDomain u (gLocal (blockOf (srcOf (ctx u c).r.leg) + BitVec.ofNat 45 ((srcOf (ctx u c).r.leg).toNat % 16))) = none) :
    loadMemory c u = submit (singleWant (modW c (fun w => { w with phase := .single, loadData := 0, loadGot := 0, loadPoison := false, loadFail := none }) u)
        c (.load c) false (blockOf (srcOf (ctx u c).r.leg)) ⟨0, 0, swB (ctx u c).r.leg, (srcOf (ctx u c).r.leg).toNat % 16⟩ 0)
      (modW c (fun w => { w with phase := .single, loadData := 0, loadGot := 0, loadPoison := false, loadFail := none }) u) := by
  unfold loadMemory
  dsimp only
  rw [hl, partsOf_one h, if_neg nofun]
  simp only [List.foldl_cons, List.foldl_nil]
  exact holdIfShut_up ((submit_shutDomain ..).trans hu)

/-! ### STORE -/

/-- The bytes placed at an offset of a block are read back from it. -/
theorem bytesAt_placeBytes {o n : Nat} (h : o + w ≤ 16) : bytesAt (placeBytes 0 o w n) o w = n % 2 ^ (8 * w) := by
  have hn : n % 2 ^ (8 * w) < 2 ^ (8 * w) := Nat.mod_lt _ (Nat.two_pow_pos _)
  have hb : n % 2 ^ (8 * w) * 2 ^ (8 * o) < 2 ^ 128 := calc
    n % 2 ^ (8 * w) * 2 ^ (8 * o) < 2 ^ (8 * w) * 2 ^ (8 * o) := Nat.mul_lt_mul_of_pos_right hn (Nat.two_pow_pos _)
    _ = 2 ^ (8 * w + 8 * o) := (Nat.pow_add ..).symm
    _ ≤ 2 ^ 128 := Nat.pow_le_pow_right (by decide) (by omega)
  unfold bytesAt placeBytes
  rw [show (0 : W128) = 0#128 from rfl, BitVec.zero_or, BitVec.toNat_ofNat, Nat.mod_eq_of_lt hb, Nat.mul_div_cancel _ (Nat.two_pow_pos _), Nat.mod_mod]

/-- What a STORE places in its block, of a value that holds its bytes. -/
def storeData (v : W64) (o w : Nat) : W128 := placeBytes 0 o w (bytesAt (BitVec.setWidth 128 v) 0 w)
theorem bytesAt_storeData {x : W64} {o : Nat} (h : o + w ≤ 16) : bytesAt (storeData x o w) o w = x.toNat % 2 ^ (8 * w) := by
  have hx : (BitVec.setWidth 128 x).toNat = x.toNat := by
    rw [BitVec.toNat_setWidth]
    exact Nat.mod_eq_of_lt (Nat.lt_of_lt_of_le x.isLt (Nat.pow_le_pow_right (by decide) (by decide)))
  unfold storeData
  rw [bytesAt_placeBytes h, bytesAt, hx, Nat.mul_zero, Nat.pow_zero, Nat.div_one, Nat.mod_mod]

/-- A STORE in one block offers its one write, which its channel has uncovered. -/
theorem storeLeg_one (hl : isLocal u (dstOf (ctx u c).r.leg) = true)
    (h : (dstOf (ctx u c).r.leg).toNat % 16 + dwB (ctx u c).r.leg ≤ 16)
    (hu : shutDomain u (gLocal (blockOf (dstOf (ctx u c).r.leg) + BitVec.ofNat 45 ((dstOf (ctx u c).r.leg).toNat % 16))) = none) :
    storeLeg c u = addCovered c true (submit (singleWant (modW c (fun w => { w with phase := .single, storeLeft := 1 }) u)
        c (.store c) true (blockOf (dstOf (ctx u c).r.leg)) ⟨0, 0, dwB (ctx u c).r.leg, (dstOf (ctx u c).r.leg).toNat % 16⟩
        (storeData (vreg (ctx u c).r (fld (ctx u c).r.leg.w1 2 0)) ((dstOf (ctx u c).r.leg).toNat % 16) (dwB (ctx u c).r.leg)))
      (modW c (fun w => { w with phase := .single, storeLeft := 1 }) u)) := by
  unfold storeLeg
  dsimp only
  rw [hl, partsOf_one h, if_neg nofun]
  simp only [List.foldl_cons, List.foldl_nil, List.length_singleton]
  have e : isLocal (modW c (fun w => { w with phase := .single, storeLeft := 1 }) u) (dstOf (ctx u c).r.leg) = true := hl
  rw [e]
  exact holdIfShut_up ((submit_shutDomain ..).trans hu)

/-- Settles O10: LOAD sets its register or offers its read, STORE offers its write. -/
theorem loadAndStore : Obligations.LoadAndStore := by
  unfold Obligations.LoadAndStore
  refine ⟨fun s c hg hs hv => ?value, fun s c => ⟨fun hs h0 hl h hu => ?load, fun hs hl h hu => ?store⟩⟩
  case value =>
    refine completes_leg hs rfl ?_
    rw [loadLeg_eq, begun_r, if_neg hv, begun_startOf]
    exact finish_modR (f := setV _ _) hs hg rfl rfl rfl
  case load =>
    refine completes_leg hs rfl ?_
    have H := loadMemory_one (u := begun c s) (c := c.val)
    rw [begun_r, begun_isLocal, begun_shutDomain] at H
    rw [loadLeg_eq, begun_r, if_pos h0, H hl h hu, submit_ctx, ctx_modW_self]
    obtain ⟨a, ho, h1, h2, h3, h4, h5, -⟩ := submit_offered (singleWant
      (modW c (fun w => { w with phase := .single, loadData := 0, loadGot := 0, loadPoison := false, loadFail := none }) (begun c s))
      c (.load c) false (blockOf (srcOf (ctx s c).r.leg)) ⟨0, 0, swB (ctx s c).r.leg, (srcOf (ctx s c).r.leg).toNat % 16⟩ 0)
      (modW c (fun w => { w with phase := .single, loadData := 0, loadGot := 0, loadPoison := false, loadFail := none }) (begun c s))
    exact ⟨⟨a, ho.trans (congrArg (· ++ [a]) begun_offered), h1, h2, h3.trans begun_legColour, h4, h5⟩, begun_r, rfl, rfl⟩
  case store =>
    refine completes_leg hs rfl ?_
    have H := storeLeg_one (u := begun c s) (c := c.val)
    rw [begun_r, begun_isLocal, begun_shutDomain] at H
    rw [H hl h hu]
    obtain ⟨a, ho, h1, h2, h3, h4, h5, h6⟩ := submit_offered (singleWant
      (modW c (fun w => { w with phase := .single, storeLeft := 1 }) (begun c s))
      c (.store c) true (blockOf (dstOf (ctx s c).r.leg)) ⟨0, 0, dwB (ctx s c).r.leg, (dstOf (ctx s c).r.leg).toNat % 16⟩
        (storeData (vreg (ctx s c).r (fld (ctx s c).r.leg.w1 2 0)) ((dstOf (ctx s c).r.leg).toNat % 16) (dwB (ctx s c).r.leg)))
      (modW c (fun w => { w with phase := .single, storeLeft := 1 }) (begun c s))
    rw [covered, addCovered, ctx_modW_self, submit_ctx, ctx_modW_self]
    refine ⟨⟨a, ho.trans (congrArg (· ++ [a]) begun_offered), h1, h2, h3.trans begun_legColour, h4, h5, ?_⟩, begun_r, rfl, rfl, ?_⟩
    · rw [h6]; exact bytesAt_storeData h
    · rw [covered, begun_ctx]
      exact Nat.add_right_comm ..

end Sys2Proof.Laws
end

section
/-! PROOFS. END and a reserved opcode. -/

namespace Sys2Proof.Laws
open Sys2Proof.Machine

variable {s u v t : State} {c d op : Nat}

theorem begun_divertHeld : divertHeld (begun c s) c = divertHeld s c := by
  unfold divertHeld
  rw [begun_ctx]

/-- A bank that is busy keeps the channel waiting where it stands. -/
theorem flashHold_keeps (a : W32) (u : State) : (flashHold c a u).fetches = u.fetches ∧ (ctx (flashHold c a u) c).w.phase = (ctx u c).w.phase ∧
    (ctx (flashHold c a u) c).r.pc = (ctx u c).r.pc := by
  unfold flashHold enterWait
  split
  · split
    · rw [ctx_modW_self, ctx_setCtx_self]; exact ⟨rfl, rfl, rfl⟩
    · exact ⟨rfl, rfl, rfl⟩
  · exact ⟨rfl, rfl, rfl⟩

/-- A fetch that is requested stands behind those under way. -/
theorem newFetch_fetches (k : FetchKind) (a : W32) (ws : List Nat) (u : State) : ∃ f, (newFetch k c a ws u).fetches = u.fetches ++ [f] ∧
    f.kind = k ∧ f.addr = a ∧ f.colour = legColour u c ∧ f.issued = false := by
  have H := beginLookup_only (q := fetchAsk a (legColour u c) 0 c) lookIn_self (only_refl (s := u))
  have hf : (beginLookup (fetchAsk a (legColour u c) 0 c) u).1.fetches = u.fetches := H .fetches (by rintro (h | h) <;> cases h)
  have hl : (beginLookup (fetchAsk a (legColour u c) 0 c) u).1.legends = u.legends := H .legends (by rintro (h | h) <;> cases h)
  refine ⟨_, congrArg (· ++ [_]) hf, rfl, rfl, ?_, rfl⟩
  exact congrArg (fun l => fld (tget legendReset l c) 3 0) hl
theorem endReadPhase_ctx : ctx (dropEndRead c (modW c (fun w => { w with phase := .endRead }) u)) c =
    { ctx u c with w := { (ctx u c).w with phase := .endRead } } := ctx_modW_self u c (fun w => { w with phase := .endRead })

/-- The read of END's own W0 of a channel that stands in a slot (R65). -/
theorem startEndRead_reads (hr : resident u c = true) (hd : shutDomain u (ctx u c).r.pc = none) :
    (ctx (startEndRead c u) c).w.phase = .endRead ∧ (ctx (startEndRead c u) c).r.pc = (ctx u c).r.pc ∧
    ∃ f ∈ (startEndRead c u).fetches, f.kind = .endW0 c ∧ f.addr = (ctx u c).r.pc ∧ f.colour = legColour u c ∧ f.issued = false := by
  obtain ⟨v, hv⟩ : ∃ v, v = modW c (fun w => { w with urgent := false }) (dropEndRead c (modW c (fun w => { w with phase := .endRead }) u)) := ⟨_, rfl⟩
  have hx : ctx v c = { ctx u c with w := { (ctx u c).w with phase := .endRead, urgent := false } } := by
    rw [hv, ctx_modW_self, endReadPhase_ctx]
  have hl : legColour v c = legColour u c := by rw [hv]; rfl
  have hres : resident (dropEndRead c (modW c (fun w => { w with phase := .endRead }) u)) c = true := by
    unfold resident
    rw [endReadPhase_ctx]
    exact hr
  have hdv : shutDomain v (ctx u c).r.pc = none := by rw [hv]; exact hd
  have e : startEndRead c u = flashHold c (ctx u c).r.pc (newFetch (.endW0 c) c (ctx u c).r.pc [] v) := by
    unfold startEndRead
    dsimp only
    rw [hres, if_neg nofun, ← hv, hdv]
  obtain ⟨hf, hp, hpc⟩ := flashHold_keeps (c := c) (ctx u c).r.pc (newFetch (.endW0 c) c (ctx u c).r.pc [] v)
  obtain ⟨f, hfs, h1, h2, h3, h4⟩ := newFetch_fetches (c := c) (.endW0 c) (ctx u c).r.pc [] v
  rw [e, hf, hp, hpc, newFetch_ctx, hx, hfs]
  exact ⟨rfl, rfl, f, List.mem_append_right _ (List.mem_singleton_self f), h1, h2, h3.trans hl, h4⟩

theorem canBegin_resident (h : canBegin s c = true) : resident s c = true := by
  unfold canBegin at h
  simp only [Bool.and_eq_true] at h
  obtain ⟨⟨⟨⟨⟨⟨⟨-, hslot⟩, -⟩, -⟩, -⟩, -⟩, -⟩, -⟩ := h
  exact hslot

/-- Settles O11: END's read of its own W0, and the fault of a reserved opcode. -/
theorem endReadsAndIllegalFaults : Obligations.EndReadsAndIllegalFaults := by
  unfold Obligations.EndReadsAndIllegalFaults
  refine fun s c => ⟨fun hs hdv hsh => ?end_, fun hb ha ho hsf => ?illegal⟩
  case end_ =>
    refine completes_leg hs rfl ?_
    have H := startEndRead_reads (u := begun c.val s) (c := c.val)
    rw [begun_shutDomain, begun_r, begun_legColour] at H
    rw [begun_divertHeld, hdv, if_neg nofun]
    exact H (by unfold resident; rw [begun_r]; exact canBegin_resident hs.1) hsh
  case illegal =>
    have e : illegalLeg c.val s = faultPc c 0x01 s := by
      unfold illegalLeg
      dsimp only
      rw [hb, ho, hsf, if_neg nofun, if_neg nofun]
    exact ⟨_, rfl, e ▸ faultPc_faultsAt ha (canBegin_facts hb).1⟩

end Sys2Proof.Laws
end

section
/-! PROOFS. The patterned legs as they begin. -/

namespace Sys2Proof.Laws
open Sys2Proof.Machine

variable {s u v t : State} {c d op : Nat}

/-- The registers that a boundary leaves: all but the state and what a wait and a request set (R52, R189). -/
def boundaryRegs (r : CtxRegs) : CtxRegs := { r with state := .off, wait := .none, desc := .none, pend := 0 }

theorem boundaryRegs_keeps {r q : CtxRegs} (h : boundaryRegs r = boundaryRegs q) :
    r.ecount = q.ecount ∧ r.i0 = q.i0 ∧ r.i1 = q.i1 ∧ r.i2 = q.i2 ∧ r.flags = q.flags ∧ r.pc = q.pc ∧ r.leg = q.leg ∧ r.v = q.v :=
  ⟨congrArg (·.ecount) h, congrArg (·.i0) h, congrArg (·.i1) h, congrArg (·.i2) h, congrArg (·.flags) h, congrArg (·.pc) h,
    congrArg (·.leg) h, congrArg (·.v) h⟩

/-- A channel that was ACTIVE stands at a boundary, or waits there, with its registers as they were. -/
structure AtBoundary (r : CtxRegs) (x : Ctx) : Prop where
  regs : boundaryRegs x.r = boundaryRegs r
  state : x.r.state = .active ∨ x.r.state = .wait
  faulting : x.w.faulting = none

theorem enterWait_boundary {r : CtxRegs} {why : WaitReason} {w : WaitDesc} (H : AtBoundary r (ctx u c)) : AtBoundary r (ctx (enterWait c why w u) c) := by
  unfold enterWait
  rw [ctx_setCtx_self]
  exact ⟨H.regs, .inr rfl, H.faulting⟩
theorem consume_boundary {r : CtxRegs} {n : Nat} (H : AtBoundary r (ctx u c)) : AtBoundary r (ctx (consume c n u) c) := by
  unfold consume
  split
  · rw [ctx_modW_self]; exact ⟨H.regs, H.state, H.faulting⟩
  · rw [ctx_modR_self]; exact ⟨H.regs, H.state, H.faulting⟩
theorem modW_boundary {r : CtxRegs} {f : Work → Work} (hf : ∀ w, (f w).faulting = w.faulting) (H : AtBoundary r (ctx u c)) : AtBoundary r (ctx (modW c f u) c) := by
  rw [ctx_modW_self]
  exact ⟨H.regs, H.state, (hf _).trans H.faulting⟩

theorem toBoundary_boundary {r : CtxRegs} (H : AtBoundary r (ctx u c)) : AtBoundary r (ctx (toBoundary c u) c) := by
  have H1 := modW_boundary (f := fun w => { w with phase := .data }) (fun _ => rfl) H
  unfold toBoundary
  generalize modW c (fun w => { w with phase := .data }) u = v at H1
  dsimp only
  split
  · exact H1
  split
  · exact enterWait_boundary H1
  split
  · exact enterWait_boundary H1
  split
  · split
    · exact H1
    split
    · exact modW_boundary (fun _ => rfl) (consume_boundary H1)
    · exact enterWait_boundary H1
  · exact H1

/-- A patterned leg begins with its registers set (R113, R45, R104). -/
theorem beginPatterned_boundary (h : (ctx u c).r.state = .active) (hf : (ctx u c).w.faulting = none) :
    AtBoundary (patternedRegs (ctx u c).r) (ctx (beginPatterned c u) c) := by
  refine toBoundary_boundary ?_
  rw [ctx_setCtx_self]
  refine ⟨rfl, .inl ?_, ?_⟩
  · dsimp only
    unfold patternedRegs
    dsimp only
    split <;> exact h
  · exact hf

theorem patternedRegs_eq (r : CtxRegs) : ∃ x, patternedRegs r = { r with ecount := 0, i0 := 0, i1 := 0, i2 := 0, flags := clearSticky r.leg r.flags, v := x } ∧
    ∀ n, tget 0 x n = if opOf r.leg = 0x15 ∧ bit r.leg.w3 5 = true ∧ n = accReg r.leg
      then reduceIdentity (fld r.leg.w3 4 3) (accSigned r.leg) else vreg r n := by
  unfold patternedRegs
  dsimp only
  split
  · next h =>
    refine ⟨_, rfl, fun n => ?_⟩
    rw [tget_tset]
    simp only [h, true_and]
    rfl
  · next h =>
    refine ⟨_, rfl, fun n => ?_⟩
    rw [if_neg fun h' => h ⟨h'.1, h'.2.1⟩]
    rfl

/-- Each of the patterned legs begins as such. -/
theorem exec_patterned {c : Fin 1024} {p : Instr × Nat} (h : p ∈ patternedLegs c) : exec p.1 s = .next (beginLeg p.2 c (beginPatterned c) s) := by
  unfold patternedLegs at h
  simp only [List.mem_cons, List.not_mem_nil, or_false] at h
  rcases h with rfl | rfl | rfl | rfl | rfl | rfl | rfl | rfl | rfl <;> rfl

/-- Settles O5: the leg's registers as it sets them, which the boundary after it keeps. -/
theorem patternedLegsBegin : Obligations.PatternedLegsBegin := by
  unfold Obligations.PatternedLegsBegin
  intro s c p hp hs
  refine completes_leg hs (exec_patterned hp) ?_
  obtain ⟨hregs, hst, hf⟩ := beginPatterned_boundary (u := begun c s) (c := c) (by rw [begun_r]; exact hs.2.1)
    (begun_faulting.trans (canBegin_facts hs.1).1)
  rw [begun_r] at hregs
  obtain ⟨x, hx, hv⟩ := patternedRegs_eq (ctx s c).r
  rw [hx] at hregs
  obtain ⟨h1, h2, h3, h4, h5, h6, h7, h8⟩ := boundaryRegs_keeps hregs
  refine ⟨h1, h2, h3, h4, h5, h6, h7, hst, hf, fun n => ?_⟩
  rw [← hs.2.2.1, ← hv n, vreg, h8]

end Sys2Proof.Laws
end

section
/-! SUPPORT. What an access leaves as it stands on its way through the host target port: all but the Atlas, the records that
wait, the error classes, the marks and the port, as whole tables. -/

namespace Sys2Proof.Laws
open Sys2Proof.Machine

variable {s u v : State}

/-- The state without what the port's check may change. -/
def core (u : State) : State :=
  { u with atlas := {}, heldRecs := [], errs := [], marks := {}, mgt := { u.mgt with rdrop := false }, port := {} }

theorem core_ite {p : Prop} [Decidable p] (hu : core u = core s) (hv : core v = core s) : core (if p then u else v) = core s := by
  split
  · exact hu
  · exact hv
theorem core_offer (p : Plane) (o : Option Nat) (r : Rec) (u : State) : core (offer p o r u) = core u := by
  unfold offer
  dsimp only
  split <;> rfl
theorem core_setErr (k : Nat) (e : ErrClass) (u : State) : core (setErr k e u) = core u := rfl
theorem core_markSet (k : Nat) (u : State) : core (markSet k u) = core u := rfl
theorem core_markCount (k : Nat) (u : State) : core (markCount k u) = core u := rfl
theorem core_atlas (x : Atlas) (u : State) : core { u with atlas := x } = core u := rfl
theorem core_countErr (k : Nat) (u : State) : core (countErr k u) = core u := (core_setErr ..).trans (core_markCount ..)
theorem core_uncorrected (n d : Nat) (x : W64) (u : State) : core (uncorrected n d x u) = core u :=
  core_ite ((core_offer ..).trans (core_countErr ..)) (core_countErr ..)
theorem core_corrected (n d : Nat) (x : W64) (u : State) : core (corrected n d x u) = core u :=
  core_ite ((core_offer ..).trans (core_countErr ..)) (core_countErr ..)
theorem core_putWord (k : Nat) (x : W64) (u : State) : core (putWord k x u) = core u := by
  unfold putWord
  split
  · rfl
  split
  · rfl
  split
  · rfl
  split <;> rfl
theorem core_initGrid (a : Nat) (u : State) : core (initGrid a u).1 = core u := by
  unfold initGrid
  split
  · rfl
  split
  · rfl
  split
  · rfl
  · exact core_putWord ..
theorem core_beginLookup (q : Ask) (u : State) : core (beginLookup q u).1 = core u := core_initGrid ..
theorem core_foundSoft (w : Nat × Nat) (u : State) : core (foundSoft u w) = core u := core_ite ((core_corrected ..).trans (core_atlas ..)) rfl
theorem core_ruleError (a k d : Nat) (u : State) : core (ruleError a k d u) = core u := by
  have H (v : State) (h : core v = core u) : core (if d = 0 then uncorrected a 0 (BitVec.ofNat 64 (8 * k)) v else v) = core u :=
    core_ite ((core_uncorrected ..).trans h) h
  have H1 : core (markSet (w1cKey 0x5018 14) { u with atlas := { u.atlas with ruleerr := true } }) = core u := (core_markSet ..).trans (core_atlas ..)
  exact H _ (core_ite ((core_offer ..).trans H1) H1)
theorem core_noteViolation (p : Nat) (a : W32) (i : W64) (u : State) : core (noteViolation p a i u) = core u := by
  unfold noteViolation
  split
  · split <;> rfl
  · rfl
theorem core_captureViol (u : State) : core (captureViol u) = core u := by
  unfold captureViol
  split
  · rfl
  · exact core_ite (core_ite rfl ((core_offer ..).trans (core_atlas ..))) (core_atlas ..)
theorem core_reportBad (v : Verdict) (u : State) : core (reportBad v u) = core u := by
  unfold reportBad
  split
  · exact core_ruleError ..
  · rfl
theorem core_countViolation (v : Verdict) (u : State) : core (countViolation v u) = core u :=
  (core_reportBad ..).trans ((core_markCount ..).trans (core_atlas ..))
theorem core_captureFirst (q : Ask) (i : W64) (u : State) : core (captureFirst q i u) = core u :=
  core_ite (core_noteViolation ..) ((core_captureViol _).trans (core_noteViolation ..))
theorem core_debugDenied (q : Ask) (i : W64) (u : State) : core (debugDenied q i u) = core u :=
  have H : core (markCount (w1cKey 0x5060 0) (markSet (w1cKey 0x5018 13)
      { u with atlas := { u.atlas with dbgcnt := sat32 u.atlas.dbgcnt, dbgden := true } })) = core u :=
    (core_markCount ..).trans ((core_markSet ..).trans (core_atlas ..))
  core_ite ((core_offer ..).trans H) H
theorem core_violation (q : Ask) (v : Verdict) (u : State) : core (violation q v u) = core u := by
  have H : core (captureFirst q (vinfoOf q v) (countViolation v u)) = core u := (core_captureFirst ..).trans (core_countViolation ..)
  exact core_ite ((core_debugDenied ..).trans H) H
theorem core_settle (q : Ask) (f : Bool) (u : State) : core (settle q f u).1 = core u := by
  have H (l : List (Nat × Nat)) : ∀ v, core v = core u → core (l.foldl foundSoft v) = core u := by
    induction l with
    | nil => exact fun v h => h
    | cons w l ih => exact fun v h => ih _ ((core_foundSoft ..).trans h)
  have H1 := H (lookupWords u q) u rfl
  exact core_ite H1 (core_ite ((core_reportBad ..).trans H1) ((core_violation ..).trans H1))
theorem core_check (q : Ask) (u : State) : core (check q u).1 = core u := (core_settle ..).trans (core_beginLookup ..)
theorem core_portAnswer (b : Initiator) (e : Bool) (u : State) : core (portAnswer b e u) = core u := by
  cases b <;> rfl

/-! ### Accesses that the port takes -/

/-- An access that the port takes acts, on a state whose tables the port has left. -/
theorem host_core {b t w o k} {act : State → State} (h : HostOpen s b t w o) :
    ∃ v, Only openAreas s v ∧ core v = core s ∧ v.port.early = s.port.early ∧ hostAccess b t w o k act s = act (portAnswer b false v) := by
  obtain ⟨h1, h2, h3⟩ := h
  unfold hostAccess
  rw [h1, h2, if_neg nofun, if_neg nofun]
  by_cases e : exempt b t o = true
  · rw [if_pos e]; exact ⟨s, only_refl, rfl, rfl, rfl⟩
  · rw [if_neg e]
    have h3 := h3.resolve_left e
    have H : Only openAreas s (check (hostAsk s b t w o) s).1 := check_only (checkIn_self.mono (fun _ h => .inl h)) only_refl
    have hk : core (check (hostAsk s b t w o) s).1 = core s := core_check _ _
    generalize check (hostAsk s b t w o) s = r at H h3 hk
    refine ⟨r.1, H, hk, ?_, if_pos h3⟩
    have hp := H .port (by rintro ((((h | h) | ⟨_, h⟩) | (h | h) | h) | h) <;> cases h)
    simp only [same] at hp
    exact (congrArg HostPort.early hp :)
/-- A register's write that the port takes acts, on a state whose tables the port has left. -/
theorem completes_regCore {i k : Instr} {b : Initiator} {o : Nat} {act : State → State} {P : State → Prop} (h : HostOpen s b false true o)
    (he : exec i s = .next (regWrite b o k act s)) (H : ∀ v, Only writeOpenAreas s v → core v = core s → P (act v)) : Completes i s P := by
  obtain ⟨v, Hv, hc, -, e⟩ := host_core (k := k) (act := fun s => act (if wide o then setLow (keySnap b o) none s else s)) h
  have hw : HostIn writeOpenAreas := ⟨checkIn_self.mono (fun _ h => .inl (.inl h)), .inl (.inr rfl), .inr rfl⟩
  have H1 : Only writeOpenAreas s (portAnswer b false v) := portAnswer_only hw (only_mono (fun _ h => .inl h) Hv)
  have hc1 : core (portAnswer b false v) = core s := (core_portAnswer ..).trans hc
  exact ⟨_, he.trans (congrArg _ e), H _ (only_ite (setLow_only (.inr rfl) H1) H1) (core_ite hc1 hc1)⟩

/-- An access that the port takes completes in what it does, on a state whose tables the port has left. -/
theorem completes_hostCore {i k : Instr} {b : Initiator} {t w : Bool} {o : Nat} {act : State → State} {P : State → Prop} (h : HostOpen s b t w o)
    (he : exec i s = .next (hostAccess b t w o k act s))
    (H : ∀ v, Only openAreas s v → core v = core s → v.port.early = s.port.early → P (act (portAnswer b false v))) : Completes i s P := by
  obtain ⟨v, Hv, hc, hp, e⟩ := host_core (k := k) (act := act) h
  exact ⟨_, he.trans (congrArg _ e), H v Hv hc hp⟩

/-! ### What the core holds -/

variable (h : core v = core s)
include h
theorem ctxs_of_core : v.ctxs = s.ctxs := congrArg (·.ctxs) h
theorem ctl_of_core : v.ctl = s.ctl := congrArg (·.ctl) h
theorem eclk_of_core : v.eclk = s.eclk := congrArg (·.eclk) h
theorem glob_of_core : v.glob = s.glob := congrArg (·.glob) h
theorem inputs_of_core : v.inputs = s.inputs := congrArg (·.inputs) h
theorem arrivals_of_core : v.arrivals = s.arrivals := congrArg (·.arrivals) h
theorem evos_of_core : v.evos = s.evos := congrArg (·.evos) h
theorem outst_of_core : v.outst = s.outst := congrArg (·.outst) h
theorem legends_of_core : v.legends = s.legends := congrArg (·.legends) h
theorem straps_of_core : v.straps = s.straps := congrArg (·.straps) h
theorem power_of_core : v.power = s.power := congrArg (·.power) h
theorem ctx_of_core (c : Nat) : ctx v c = ctx s c := by unfold ctx; rw [ctxs_of_core h]
theorem inp_of_core (n : Nat) : inp v n = inp s n := by unfold inp; rw [inputs_of_core h]
theorem evo_of_core (m : Nat) : evo v m = evo s m := by unfold evo; rw [evos_of_core h]

end Sys2Proof.Laws
end

section
/-! PROOFS. The registers of the request inputs and of the event outputs. -/

namespace Sys2Proof.Laws
open Sys2Proof.Machine

variable {s u v : State} {m n : Nat}

theorem quiet_of_core (h : core v = core s) (hr : inReset s = false) : quiet v = false :=
  quiet_of_running (by unfold inReset; rw [glob_of_core h]; exact hr)

/-! ### Request inputs -/

theorem swreq_of_core (h : core v = core s) (hr : inReset s = false) (n : Nat) :
    swreq n v = if s.glob.swdis then v else { v with arrivals := s.arrivals ++ [(n, s.eclk + 1)] } := by
  unfold swreq request
  rw [quiet_of_core h hr, glob_of_core h, arrivals_of_core h, eclk_of_core h]
  rfl

/-- An input without what its samples and its filter change (R179, R180). -/
def unsampled (i : Inp) : Inp := { i with level := false, pin := false, sync1 := false, sync2 := false, runN := 0, edges := 0 }
theorem reload_unsampled (ok : Bool) (i : Inp) : unsampled (reload ok i) = unsampled i := by
  unfold reload
  split <;> rfl
theorem sampled_unsampled (s : State) (q : Nat) (pins : List Bool) (i : Inp) : unsampled (sampled s q pins i) = unsampled i := by
  have H (l : List Bool) : ∀ i : Inp, unsampled (l.foldl sampleEdge i) = unsampled i := by
    induction l with
    | nil => exact fun i => rfl
    | cons x l ih => exact fun i => ih (sampleEdge i x)
  exact H _ i
theorem unsampled_keeps {i j : Inp} (h : unsampled i = unsampled j) :
    i.book = j.book ∧ i.ovrec = j.ovrec ∧ i.qrec = j.qrec ∧ i.filt = j.filt ∧ i.mode = j.mode ∧ i.depth = j.depth :=
  ⟨(congrArg Inp.book h :), (congrArg Inp.ovrec h :), (congrArg Inp.qrec h :), (congrArg Inp.filt h :), (congrArg Inp.mode h :), (congrArg Inp.depth h :)⟩
/-- The fields that a write of the register sets, the locked ones without the lock (R184, R408). -/
theorem reqinRw_fields (lock : Bool) (x : W32) (i : Inp) :
    (reqinRw lock x i).book = fld x 10 8 ∧ (reqinRw lock x i).ovrec = bit x 13 ∧ (reqinRw lock x i).qrec = bit x 14 ∧
    (lock = false → (reqinRw lock x i).filt = BitVec.ofNat 4 (fld x 3 0) ∧ (reqinRw lock x i).depth = BitVec.ofNat 16 (fld x 31 16) ∧
      (fld x 6 4 < 6 → (reqinRw lock x i).mode = BitVec.ofNat 3 (fld x 6 4))) := by
  cases lock
  · refine ⟨rfl, rfl, rfl, fun _ => ⟨rfl, rfl, fun h6 => if_neg ?_⟩⟩
    rw [BitVec.toNat_ofNat, Nat.mod_eq_of_lt (by omega)]
    omega
  · exact ⟨rfl, rfl, rfl, nofun⟩
/-- The input as a write of its register with CLRCNT and SWREQ 0 leaves it. -/
theorem writeReqin_plain {x : W32} (q : Nat) (pins : List Bool) (u : State) (h11 : bit x 11 = false) (h12 : bit x 12 = false) :
    writeReqin n x q pins u = setInp n
      (if (reqinRw u.glob.hardLock x (inp u n)).mode != (inp u n).mode || (reqinRw u.glob.hardLock x (inp u n)).filt != (inp u n).filt then
        reload (qok u n) (sampled u q pins (reqinRw u.glob.hardLock x (inp u n))) else reqinRw u.glob.hardLock x (inp u n)) u := by
  unfold writeReqin
  rw [h11, h12]
  rfl

/-- The register's fields, as a write with CLRCNT and SWREQ 0 leaves them. -/
theorem writeReqin_unsampled {x : W32} (q : Nat) (pins : List Bool) (u : State) (h11 : bit x 11 = false) (h12 : bit x 12 = false) :
    unsampled (inp (writeReqin n x q pins u) n) = unsampled (reqinRw u.glob.hardLock x (inp u n)) := by
  rw [writeReqin_plain q pins u h11 h12, inp_setInp_self]
  split
  · rw [reload_unsampled, sampled_unsampled]
  · rfl
/-- Under the hard lock the register keeps FILT, MODE, DEPTH and the filter's output (R408). -/
theorem writeReqin_locked {x : W32} (q : Nat) (pins : List Bool) (hl : u.glob.hardLock = true) (h11 : bit x 11 = false) (h12 : bit x 12 = false) :
    inp (writeReqin n x q pins u) n = { inp u n with book := fld x 10 8, ovrec := bit x 13, qrec := bit x 14 } := by
  have e : reqinRw true x (inp u n) = { inp u n with book := fld x 10 8, ovrec := bit x 13, qrec := bit x 14 } := rfl
  rw [writeReqin_plain q pins u h11 h12, inp_setInp_self, hl, e, if_neg (by simp)]
theorem writeReqin_arrivals {x : W32} (q : Nat) (pins : List Bool) (h11 : bit x 11 = false) (h12 : bit x 12 = false) :
    (writeReqin n x q pins u).arrivals = u.arrivals := by
  rw [writeReqin_plain q pins u h11 h12]
  rfl

/-- Settles O23: each write acts on a state whose tables the port has left. -/
theorem requestInputRegisters : Obligations.RequestInputRegisters := by
  unfold Obligations.RequestInputRegisters
  refine fun s b n x p h => ⟨?swreq, ?clear, fun h11 h12 => ?config⟩
  case swreq =>
    refine completes_regCore h rfl fun v _ hv => ?_
    have hc := ctxs_of_core hv
    have hi := inputs_of_core hv
    rw [swreq_of_core hv h.1]
    split
    · exact ⟨arrivals_of_core hv, hc, hi⟩
    · exact ⟨rfl, hc, hi⟩
  case clear =>
    refine completes_regCore h rfl fun v _ hv => ?_
    rw [clearOvr, inp_setInp_self, inp_of_core hv]
  case config =>
    refine completes_regCore h rfl fun v _ hv => ?_
    obtain ⟨hb, ho, hq, hf, hm, hd⟩ := unsampled_keeps (writeReqin_unsampled (n := n) p.q p.pins v h11 h12)
    obtain ⟨rb, ro, rq, hun⟩ := reqinRw_fields v.glob.hardLock x (inp v n)
    rw [glob_of_core hv] at *
    refine ⟨hb.trans rb, ho.trans ro, hq.trans rq, (writeReqin_arrivals _ _ h11 h12).trans (arrivals_of_core hv), fun hl => ?_, fun hl => ?_⟩
    · obtain ⟨r1, r2, r3⟩ := hun hl
      exact ⟨hf.trans r1, hd.trans r2, fun h6 => hm.trans (r3 h6)⟩
    · rw [writeReqin_locked p.q p.pins (by rw [glob_of_core hv]; exact hl) h11 h12, inp_of_core hv]
      exact ⟨rfl, rfl, rfl, rfl⟩

/-! ### Event outputs -/

/-- The output as one event drives it (R198). -/
theorem evoFired_keeps (t : Nat) (e : Evo) : (evoFired t e).count = e.count + 1 ∧ (evoFired t e).lastAt = some t ∧
    (e.mode = 0 → (evoFired t e).active = true ∧ (evoFired t e).endAt = some (t + e.width.toNat + 1)) ∧
    (e.mode = 1 → e.lastAt ≠ some t → (evoFired t e).active = !e.active) := by
  unfold evoFired
  dsimp only
  split
  · next h => exact ⟨rfl, rfl, fun _ => ⟨rfl, rfl⟩, fun h1 => by simp [h1] at h⟩
  · next h =>
    split
    · next h1 => exact ⟨rfl, rfl, fun h0 => by simp [h0] at h, fun _ hl => if_neg (by simpa using hl)⟩
    · next h1 => exact ⟨rfl, rfl, fun h0 => by simp [h0] at h, fun h0 => by simp [h0] at h1⟩
theorem evoRw_keeps (f : Bool) (x : W32) (e : Evo) : (evoRw f x e).width = BitVec.ofNat 4 (fld x 3 0) ∧ (evoRw f x e).pol = bit x 6 ∧
    (evoRw f x e).count = e.count ∧ (fld x 5 4 < 3 → (evoRw f x e).mode = BitVec.ofNat 2 (fld x 5 4)) :=
  ⟨rfl, rfl, rfl, fun h => if_neg (Nat.ne_of_lt h)⟩
theorem pulseEnd_ends {d : Nat} (hd : (evo u m).endAt = some d) (ht : d ≤ u.eclk) (h0 : (evo u m).mode = 0) :
    pulseEnd m u = setEvo m { evo u m with active := false } u := by
  unfold pulseEnd
  dsimp only
  rw [hd]
  exact if_pos (by simp [ht, h0])

/-- Settles O24: the event that the write fires, the fields that it sets, and the marks that it loads. -/
theorem eventOutputs : Obligations.EventOutputs := by
  unfold Obligations.EventOutputs
  refine fun s b m x => ⟨fun h => ?fires, fun h h7 => ?config, fun d hd ht h0 => ?ends, fun h => ?tags⟩
  case fires =>
    refine completes_regCore h rfl fun v _ hv => ?_
    rw [fireEvo_evo (quiet_of_core hv h.1), if_pos rfl, evo_of_core hv, eclk_of_core hv]
    exact evoFired_keeps s.eclk (evo s m)
  case config =>
    refine completes_regCore h rfl fun v _ hv => ?_
    unfold writeEvo
    dsimp only
    rw [h7, if_neg nofun, evo_setEvo_self, evo_of_core hv]
    exact evoRw_keeps _ x (evo s m)
  case ends => exact ⟨_, congrArg Host.Outcome.next (pulseEnd_ends hd ht h0), evo_setEvo_self ..⟩
  case tags =>
    refine completes_regCore h rfl fun v _ hv => ?_
    have ho := outst_of_core hv
    have hl : v.lanes = s.lanes := (congrArg State.lanes hv :)
    have hf : v.fab = s.fab := (congrArg State.fab hv :)
    refine ⟨?_, ?_⟩
    · show locUse v = locUse s
      unfold locUse
      rw [ho, hl]
    · show fabUse v = fabUse s
      unfold fabUse
      rw [hf]

end Sys2Proof.Laws
end

section
/-! PROOFS. The control writes: a wake, a divert, the legend and the count of re-arms. -/

namespace Sys2Proof.Laws
open Sys2Proof.Machine

variable {s u v : State} {c : Nat}

/-! ### Control writes as they act -/

/-- One control write, of a channel whose context does not move, acts at the end of the ECLK. -/
theorem ctlEnd_one (w : CtlWrite) (h : inTransfer s c = false) : ctlEnd { s with ctl := [(c, w)] } = applyCtl c w { s with ctl := [] } := by
  have e : inTransfer { s with ctl := [(c, w)] } c = false := h
  unfold ctlEnd
  simp only [List.filter_cons, e, List.filter_nil]
  rfl
theorem control_ctl (c : Nat) (w : CtlWrite) (u : State) : (control c w u).ctl = u.ctl ++ [(c, w)] := rfl

/-! ### Diverts -/

theorem dropFire_r (n : Nat) (u : State) : (ctx (dropFire c n u) c).r = (ctx u c).r := by
  unfold dropFire
  split
  · next f _ =>
    have e : ctx (missed c n f (modW c (fun w => { w with fire := none }) u)) c = ctx (modW c (fun w => { w with fire := none }) u) c :=
      ctx_of_only (S := fun p => recAreas p ∨ p = .grat) (missed_only (recIn_self.mono fun _ h => .inl h) (.inr rfl) only_refl) (by rintro ((h | h) | h) <;> cases h)
    rw [e, ctx_modW_self]
  · rfl

theorem legRegs_divPend {r q : CtxRegs} (h : legRegs r = legRegs q) : r.divPend = q.divPend := (congrArg CtxRegs.divPend h :)
/-- A divert whose channel holds no fire is taken to its target (R71, R72). -/
theorem takeDivert_target (h : (ctx u c).r.divPend = true) :
    (ctx (takeDivert c false u) c).r.pc = (ctx u c).r.divTarget ∧ (ctx (takeDivert c false u) c).r.divPend = false := by
  obtain ⟨v, hv⟩ : ∃ v, v = leaveFetch c (leaveWait c u) := ⟨_, rfl⟩
  have hx : (ctx v c).r.divTarget = (ctx u c).r.divTarget := by
    have e : ctx (leaveFetch c (leaveWait c u)) c = _ := leaveWait_ctx c u
    rw [hv, e]
  have e : takeDivert c false u = goto c (ctx u c).r.divTarget (dropFire c 3 (modR c (fun r => { r with divPend := false })
      (offerNow .ctl (legBook v c) 0x05 1 c (ctx u c).r.pc.toNat (BitVec.setWidth 64 (ctx u c).r.divTarget) 0 v))) := by
    unfold takeDivert
    dsimp only
    rw [h, hv]
    rfl
  have H := goto_at c (ctx u c).r.divTarget (dropFire c 3 (modR c (fun r => { r with divPend := false })
      (offerNow .ctl (legBook v c) 0x05 1 c (ctx u c).r.pc.toNat (BitVec.setWidth 64 (ctx u c).r.divTarget) 0 v)))
  rw [e]
  refine ⟨H.pc, ?_⟩
  refine (legRegs_divPend H.regs).trans ?_
  rw [dropFire_r, ctx_modR_self]

theorem divertNow_active (h : (ctx u c).r.state = .active) : divertNow c u = u := by
  unfold divertNow
  split
  · rw [if_neg (by simp [h]), if_neg (by simp [waitsSafe, h])]
  · rfl
/-- A divert of an ACTIVE channel stays pending (R71). -/
theorem writeDivert_active (v : W32) (h : (ctx u c).r.state = .active) :
    writeDivert c v u = modR c (fun r => { r with divTarget := v &&& 0xFFFFFFE0, divPend := true }) u := by
  unfold writeDivert
  rw [h]
  exact divertNow_active (by rw [ctx_modR_self]; exact h)
/-- A divert of a channel that waits in a leg with SAF is taken at once (R72). -/
theorem writeDivert_waits (v : W32) (hw : waitsSafe u c = true) (hf : (ctx u c).w.faulting = none) (hh : heldFor u c = false) :
    writeDivert c v u = takeDivert c false (modR c (fun r => { r with divTarget := v &&& 0xFFFFFFE0, divPend := true }) u) := by
  obtain ⟨t, ht⟩ : ∃ t, t = modR c (fun r => { r with divTarget := v &&& 0xFFFFFFE0, divPend := true }) u := ⟨_, rfl⟩
  have hx : ctx t c = { ctx u c with r := { (ctx u c).r with divTarget := v &&& 0xFFFFFFE0, divPend := true } } := by rw [ht, ctx_modR_self]
  have hst : (ctx u c).r.state = .wait := by
    unfold waitsSafe at hw
    simp only [Bool.and_eq_true, decide_eq_true_eq] at hw
    exact hw.1.1.1
  have h1 : divertHeld t c = true := by unfold divertHeld; rw [hx, hf]; rfl
  have h2 : heldFor t c = false := by rw [ht]; exact hh
  have h3 : waitsSafe t c = true := by unfold waitsSafe at *; rw [hx]; exact hw
  have h4 : (ctx t c).r.state = .wait := by rw [hx]; exact hst
  unfold writeDivert divertNow
  rw [hst]
  dsimp only
  rw [← ht, h1, h2, h3, h4]
  rfl

/-! ### The legend -/

theorem fld_and_colour (x : W32) : fld (x &&& 0x3FFFFFFF) 3 0 = fld x 3 0 := by
  simp only [fld, BitVec.toNat_and, Nat.pow_zero, Nat.div_one]
  rw [show 3 - 0 + 1 = 4 from rfl, ← Nat.and_two_pow_sub_one_eq_mod, ← Nat.and_two_pow_sub_one_eq_mod, Nat.and_assoc]
  simp
/-- A legend of a colour that a channel may have, with a pin that may be set, is written as it is (R38 to R40). -/
theorem legendWritten_plain {x : W32} (hc : fld x 3 0 ≤ 13) (hp : bit x 7 = false ∨ pinnedCount s < 32) :
    legendWritten s c x = x &&& 0x3FFFFFFF := by
  unfold legendWritten
  dsimp only
  rw [fld_and_colour, if_neg (Nat.not_le_of_lt (Nat.lt_succ_of_le hc))]
  refine if_neg fun h => ?_
  simp only [Bool.and_eq_true, decide_eq_true_eq] at h
  obtain ⟨⟨h7, -⟩, h32⟩ := h
  rcases hp with hp | hp
  · unfold bit at *
    rw [BitVec.getLsbD_and, hp] at h7
    simp at h7
  · omega
theorem legend_writeLegend (x : W32) (u : State) : legend (writeLegend c x u) c = legendWritten u c x := by
  unfold legend
  rw [writeLegend_legends, tget_tset_self]
theorem legendWritten_congr (h : v.legends = s.legends) (x : W32) : legendWritten v c x = legendWritten s c x := by
  unfold legendWritten legend pinnedCount
  rw [h]

/-- Settles O20: each control write as it acts on its channel, and the two registers that take effect at once. -/
theorem wakeDivertLegendRearm : Obligations.WakeDivertLegendRearm := by
  unfold Obligations.WakeDivertLegendRearm
  refine fun s b c x => ⟨fun h => ?wake, fun h => ?divert, fun hi => ⟨fun hr => ?remembered, fun hp hph hf hh hr hd => ?parked,
    fun ha => ?active, fun hw hf hh => ?waits⟩, fun h => ?legend, fun h => ?rearm⟩
  case wake =>
    refine completes_regCore h rfl fun v _ hv => ?_
    have hc := ctxs_of_core hv
    rw [control_ctl, ctl_of_core hv]
    exact ⟨rfl, hc⟩
  case divert =>
    refine completes_regCore h rfl fun v _ hv => ?_
    have hc := ctxs_of_core hv
    rw [control_ctl, ctl_of_core hv]
    exact ⟨rfl, hc⟩
  case remembered =>
    dsimp only
    rw [ctlEnd_one _ hi, applyCtl, wake_of_remembers (u := { s with ctl := [] }) hr, ctx_modR_self]
    rfl
  case parked =>
    have e : wake c.val { s with ctl := [] } = startEndRead c.val { s with ctl := [] } := by
      have h1 : (ctx { s with ctl := [] } c.val).r.state = .parked := hp
      have h2 : (ctx { s with ctl := [] } c.val).w.phase = .parked := hph
      have h3 : (ctx { s with ctl := [] } c.val).w.faulting = none := hf
      have h4 : heldFor { s with ctl := [] } c.val = false := hh
      unfold wake
      dsimp only
      rw [h1, h2, h3, h4]
      rfl
    obtain ⟨he, -, f, hm, hk, haddr, hcol, -⟩ := startEndRead_reads (u := { s with ctl := [] }) (c := c.val) hr hd
    dsimp only
    rw [ctlEnd_one _ hi, applyCtl, e]
    exact ⟨he, f, hm, hk, haddr, hcol⟩
  case active =>
    dsimp only
    rw [ctlEnd_one _ hi, applyCtl, writeDivert_active (u := { s with ctl := [] }) x ha, ctx_modR_self]
    rfl
  case waits =>
    dsimp only
    rw [ctlEnd_one _ hi, applyCtl, writeDivert_waits (u := { s with ctl := [] }) x hw hf hh]
    obtain ⟨h1, h2⟩ := takeDivert_target (c := c.val)
      (u := modR c.val (fun r => { r with divTarget := x &&& 0xFFFFFFE0, divPend := true }) { s with ctl := [] }) (by rw [ctx_modR_self])
    exact ⟨h1.trans (by rw [ctx_modR_self]), h2⟩
  case legend =>
    refine completes_regCore h rfl fun v _ hv => ?_
    rw [legend_writeLegend, legendWritten_congr (legends_of_core hv)]
    exact ⟨rfl, fun hc hp => legendWritten_plain hc hp⟩
  case rearm =>
    refine completes_regCore h rfl fun v _ hv => ?_
    rw [clearRearm, ctx_modR_self, ctx_of_core hv]

end Sys2Proof.Laws
end

section
/-! PROOFS. The control of a channel: its start, its drain and its abort. -/

namespace Sys2Proof.Laws
open Sys2Proof.Machine

variable {s u v : State} {c : Nat}

/-! ### A channel that fetches its leg -/

/-- The states of a channel that has begun to fetch: it fetches, waits for its flash bank, or is held for a domain (R52). -/
def fetches (st : ChState) : Prop := st = .active ∨ st = .wait ∨ st = .held
theorem fetchPort_fetches (h : (ctx u c).r.state = .active) : fetches (ctx (fetchPort c u) c).r.state := by
  unfold fetchPort
  dsimp only
  split
  · unfold goHeld
    dsimp only
    rw [h, if_pos (by decide)]
    split
    · exact .inr (.inr (congrArg (fun x : Ctx => x.r.state) (ctx_setCtx_self ..)))
    · exact .inr (.inr (congrArg (fun x : Ctx => x.r.state) (ctx_setCtx_self ..)))
  · have e : (ctx (demand c (lineOf (ctx u c).r.pc) u) c).r.state = .active := by rw [demand_ctx]; exact h
    unfold flashHold enterWait
    split
    · split
      · rw [ctx_modW_self, ctx_setCtx_self]; exact .inr (.inl rfl)
      · exact .inl e
    · exact .inl e
theorem startFetch_fetches (h : (ctx u c).r.state = .active) : fetches (ctx (startFetch c u) c).r.state := by
  have h1 : (ctx (modW c (fun w => { w with phase := .fetch }) u) c).r.state = .active := by rw [ctx_modW_self]; exact h
  unfold startFetch
  generalize modW c (fun w => { w with phase := .fetch }) u = t at h1
  dsimp only
  split
  · exact .inl h1
  · split
    · next e _ =>
      have h2 : (ctx (touchLine (lineOf (ctx t c).r.pc) (legColour t c) (readLine e t)) c).r.state = .active := by
        rw [show ctx (touchLine (lineOf (ctx t c).r.pc) (legColour t c) (readLine e t)) c = ctx t c from congrFun (readLine_ctx e) c]
        exact h1
      split
      · exact fetchPort_fetches h2
      · rw [ctx_setCtx_self]; exact .inl h2
    · exact fetchPort_fetches h1

/-! ### The start -/

theorem dropFire_keeps (n : Nat) (u : State) : (dropFire c n u).eclk = u.eclk ∧ (dropFire c n u).halt = u.halt ∧ (dropFire c n u).ctl = u.ctl ∧
    (ctx (dropFire c n u) c).w = { (ctx u c).w with fire := none } := by
  unfold dropFire
  split
  · next f _ =>
    have H := missed_only (S := fun p => recAreas p ∨ p = .grat) (c := c) (r := n) (f := f) (recIn_self.mono fun _ h => .inl h) (.inr rfl)
      (only_refl (s := modW c (fun w => { w with fire := none }) u))
    have he := H .eclk (by rintro ((h | h) | h) <;> cases h)
    have hh := H .halt (by rintro ((h | h) | h) <;> cases h)
    have hc := H .ctl (by rintro ((h | h) | h) <;> cases h)
    refine ⟨he, hh, hc, ?_⟩
    rw [ctx_of_only H (by rintro ((h | h) | h) <;> cases h), ctx_modW_self]
  · next h =>
    refine ⟨rfl, rfl, rfl, ?_⟩
    rw [← h]

/-- The registers of a channel that starts afresh (R53). -/
def freshRegs (s : State) (c : Nat) : CtxRegs :=
  { en := true, start := (ctx s c).r.start, pc := startValue s c, slot := (ctx s c).r.slot, bytes := (ctx s c).r.bytes,
    energy16 := (ctx s c).r.energy16, rearmCnt := (ctx s c).r.rearmCnt, sc1 := 1, state := .active }
theorem startValue_dropFire (n : Nat) (u : State) : startValue (dropFire c n u) c = startValue u c := by
  obtain ⟨he, -, -, hw⟩ := dropFire_keeps (c := c) n u
  unfold startValue
  rw [hw, he, dropFire_r]
theorem freshRegs_dropFire (n : Nat) (u : State) : freshRegs (dropFire c n u) c = freshRegs u c := by
  unfold freshRegs
  rw [startValue_dropFire, dropFire_r]

/-- The working state of a channel that starts afresh. -/
def freshWork (s : State) (c : Nat) : Work :=
  { run := (ctx s c).w.run + 1, armed := true, wLoc := (ctx s c).w.wLoc, wRem := (ctx s c).w.wRem,
    pagedAt := (ctx s c).w.pagedAt, usedAt := (ctx s c).w.usedAt, progressed := (ctx s c).w.progressed, waitFrom := s.eclk, phase := .fetch,
    burstNo := (ctx s c).w.burstNo }
theorem startChannel_eq (c : Nat) (u : State) : startChannel c u =
    if haltOn (dropFire c 4 u) then
      setCtx (dropFire c 4 u) c ⟨{ freshRegs (dropFire c 4 u) c with state := .halted, resume := .active }, freshWork (dropFire c 4 u) c⟩
    else startFetch c (setCtx (dropFire c 4 u) c ⟨freshRegs (dropFire c 4 u) c, freshWork (dropFire c 4 u) c⟩) := rfl

/-- A channel that starts: it fetches its first leg, or is halted before it (R53, R336). -/
structure Started (u : State) (c : Nat) (t : State) : Prop where
  pc : (ctx t c).r.pc = startValue u c
  regs : legRegs { (ctx t c).r with resume := .off } = legRegs (freshRegs u c)
  faulting : (ctx t c).w.faulting = none
  ctl : t.ctl = u.ctl
  state : fetches (ctx t c).r.state ∨ (ctx t c).r.state = .halted
  halted : haltOn u = true → (ctx t c).r.state = .halted ∧ (ctx t c).r.resume = .active

theorem Started.fields {t : State} (H : Started u c t) :
    (ctx t c).r.en = true ∧ (ctx t c).r.start = (ctx u c).r.start ∧ (ctx t c).r.v = [] ∧ (ctx t c).r.flags = {} ∧ (ctx t c).r.ecount = 0 ∧
    (ctx t c).r.lc = 0 ∧ (ctx t c).r.retValid = false ∧ (ctx t c).r.divPend = false ∧ (ctx t c).r.wake = false ∧ (ctx t c).r.aborted = false := by
  have h := H.regs
  exact ⟨(congrArg CtxRegs.en h :), (congrArg CtxRegs.start h :), (congrArg CtxRegs.v h :), (congrArg CtxRegs.flags h :),
    (congrArg CtxRegs.ecount h :), (congrArg CtxRegs.lc h :), (congrArg CtxRegs.retValid h :), (congrArg CtxRegs.divPend h :),
    (congrArg CtxRegs.wake h :), (congrArg CtxRegs.aborted h :)⟩

theorem started_halted (c : Nat) (u : State) {w : Work} (hw : w.faulting = none) :
    Started u c (setCtx u c ⟨{ freshRegs u c with state := .halted, resume := .active }, w⟩) := by
  constructor <;> try rw [ctx_setCtx_self]
  · rfl
  · rfl
  · exact hw
  · rfl
  · exact .inr rfl
  · exact fun _ => ⟨rfl, rfl⟩
theorem startFetch_ctl (c : Nat) (u : State) : (startFetch c u).ctl = u.ctl :=
  startFetch_only (seqIn_self c) (only_refl (s := u)) .ctl (by rintro (((h | h) | ⟨_, h⟩) | (h | h) | h | h | h | h | h) <;> cases h)
theorem legRegs_resume {r q : CtxRegs} (h : legRegs r = legRegs q) : legRegs { r with resume := .off } = legRegs { q with resume := .off } :=
  congrArg (fun r : CtxRegs => { r with resume := .off }) h
theorem started_fetch (u : State) {w : Work} (hw : w.faulting = none) (hoff : haltOn u = false) :
    Started u c (startFetch c (setCtx u c ⟨freshRegs u c, w⟩)) := by
  have hx : ctx (setCtx u c ⟨freshRegs u c, w⟩) c = ⟨freshRegs u c, w⟩ := ctx_setCtx_self ..
  have hA : At c (startValue u c) (freshRegs u c) w (setCtx u c ⟨freshRegs u c, w⟩) := by
    refine ⟨?_, ?_, ?_, ?_, ?_⟩ <;> rw [hx]
    rfl
  have H := startFetch_at hA
  refine ⟨H.pc, (legRegs_resume H.regs).trans rfl, H.faulting.trans hw, startFetch_ctl .., .inl (startFetch_fetches (by rw [hx]; rfl)), fun h => ?_⟩
  rw [hoff] at h
  exact absurd h nofun
theorem startChannel_starts (c : Nat) (u : State) : Started u c (startChannel c u) := by
  obtain ⟨-, hh, hc, -⟩ := dropFire_keeps (c := c) 4 u
  have hf := freshRegs_dropFire (c := c) 4 u
  have hs := startValue_dropFire (c := c) 4 u
  have hon : haltOn (dropFire c 4 u) = haltOn u := by unfold haltOn; rw [hh]
  have H : Started (dropFire c 4 u) c (startChannel c u) := by
    rw [startChannel_eq]
    split
    · exact started_halted c _ rfl
    · next h => exact started_fetch _ rfl (Bool.eq_false_iff.mpr h)
  obtain ⟨h1, h2, h3, h4, h5, h6⟩ := H
  exact ⟨h1.trans hs, h2.trans (congrArg legRegs hf), h3, h4.trans hc, h5, fun h => h6 (hon.trans h)⟩

/-! ### The drain and the abort -/

theorem dropSingles_keeps (c : Nat) (u : State) :
    (ctx (dropSingles c u) c).r = (ctx u c).r ∧ (ctx (dropSingles c u) c).w.fire = (ctx u c).w.fire := by
  have H (l : List Acc) : ∀ v : State, (ctx (l.foldl (fun s a => dropCovered c (isLocal s a.gaddr) s) v) c).r = (ctx v c).r ∧
      (ctx (l.foldl (fun s a => dropCovered c (isLocal s a.gaddr) s) v) c).w.fire = (ctx v c).w.fire := by
    induction l with
    | nil => exact fun v => ⟨rfl, rfl⟩
    | cons a l ih =>
      intro v
      obtain ⟨h1, h2⟩ := ih (dropCovered c (isLocal v a.gaddr) v)
      rw [List.foldl_cons, h1, h2, dropCovered, ctx_modW_self]
      exact ⟨rfl, by dsimp only; split <;> rfl⟩
  exact H _ { u with offered := u.offered.filter (fun a => !singleOf c a.owner) }

/-- A channel that drains (R55). -/
theorem drain_drains (c : Nat) (u : State) : (ctx (drain c u) c).r.en = false ∧ (ctx (drain c u) c).r.state = .draining ∧
    (ctx (drain c u) c).w.pausePend = false := by
  have H (p : Phase) (v : State) (r : CtxRegs) (w : Work) (h1 : r.en = false) (h2 : r.state = .draining) (h3 : w.pausePend = false) :
      (ctx (if p = .endRead then setCtx v c ⟨r, w⟩ else leaveFetch c (setCtx v c ⟨r, w⟩)) c).r.en = false ∧
      (ctx (if p = .endRead then setCtx v c ⟨r, w⟩ else leaveFetch c (setCtx v c ⟨r, w⟩)) c).r.state = .draining ∧
      (ctx (if p = .endRead then setCtx v c ⟨r, w⟩ else leaveFetch c (setCtx v c ⟨r, w⟩)) c).w.pausePend = false := by
    have e : ctx (if p = .endRead then setCtx v c ⟨r, w⟩ else leaveFetch c (setCtx v c ⟨r, w⟩)) c = ⟨r, w⟩ := by
      split
      · exact ctx_setCtx_self ..
      · exact ctx_setCtx_self ..
    rw [e]
    exact ⟨h1, h2, h3⟩
  exact H _ _ _ _ rfl rfl rfl

/-- An aborted channel drains, with nothing of it held (R55, R330). -/
structure Aborted (x : Ctx) : Prop where
  en : x.r.en = false
  state : x.r.state = .draining
  aborting : x.w.aborting = true
  divPend : x.r.divPend = false
  wake : x.r.wake = false
  rearm : x.r.rearm = false
  fire : x.w.fire = none
theorem abort_aborts (c : Nat) (u : State) : Aborted (ctx (abort c u) c) := by
  have hf : (ctx (dropSingles c (dropFire c 4 u)) c).w.fire = none := by
    rw [(dropSingles_keeps c _).2, (dropFire_keeps (c := c) 4 u).2.2.2]
  unfold abort
  generalize dropSingles c (dropFire c 4 u) = t at hf
  rw [giveUpReads_ctx]
  have H (l : List HeldRec) (x : Ctx) (h : Aborted x) : Aborted (ctx { setCtx t c x with heldRecs := l } c) := by
    have e : ctx { setCtx t c x with heldRecs := l } c = x := ctx_setCtx_self ..
    rw [e]; exact h
  exact H _ _ ⟨rfl, rfl, rfl, rfl, rfl, rfl, hf⟩

/-! ### A write of CH_CTRL as it acts -/

theorem enOne_start (h : (ctx u c).r.en = false) (hs : (ctx u c).r.state = .off) : enOne c u = startChannel c u := by
  unfold enOne
  dsimp only
  rw [h, hs]
  rfl
theorem writeCtrl_start (h : (ctx u c).r.en = false) (hs : (ctx u c).r.state = .off) : writeCtrl c 1 u = startChannel c u := by
  unfold writeCtrl
  rw [enOne_start h hs, h]
  rfl
/-- The states of a channel that a stop drains (R55). -/
def runs (st : ChState) : Prop := st = .active ∨ st = .wait ∨ st = .parked ∨ st = .paused ∨ st = .held ∨ st = .halted
theorem writeCtrl_drain (h : (ctx u c).r.en = true) (hs : runs (ctx u c).r.state) (hf : (ctx u c).w.faulting = none) :
    writeCtrl c 0 u = drain c u := by
  unfold writeCtrl enZero
  dsimp only
  rw [h, hf]
  rcases hs with e | e | e | e | e | e <;> rw [e] <;> rfl
theorem writeCtrl_abort (hs : runs (ctx u c).r.state) : writeCtrl c 8 u = abort c u := by
  unfold writeCtrl abortCh
  rcases hs with e | e | e | e | e | e <;> rw [e] <;> rfl

/-- Settles O18: what a write of CH_CTRL leaves when it acts: a fresh start, a drain or an abort. -/
theorem startDrainAndAbort : Obligations.StartDrainAndAbort := by
  unfold Obligations.StartDrainAndAbort
  refine ⟨fun s b c h e he => ?write, fun s c hi => ⟨fun hen hs => ?start, fun hr => ⟨fun hen hf => ?drain, ?abort⟩⟩⟩
  case write =>
    have hw (w : W32) : ∀ v, core v = core s → (Machine.control c.val (.ctrl w) v).ctl = s.ctl ++ [(c.val, .ctrl w)] ∧
        (Machine.control c.val (.ctrl w) v).ctxs = s.ctxs := fun v hv =>
      have hc := ctxs_of_core hv
      ⟨congrArg (· ++ _) (ctl_of_core hv), hc⟩
    simp only [List.mem_cons, List.not_mem_nil, or_false] at he
    rcases he with rfl | rfl | rfl <;> exact completes_regCore h rfl fun v _ hv => hw _ v hv
  case start =>
    dsimp only
    rw [ctlEnd_one _ hi, applyCtl, writeCtrl_start (u := { s with ctl := [] }) hen hs]
    have H := startChannel_starts c.val { s with ctl := [] }
    obtain ⟨h1, h2, h3, h4, h5, h6, h7, h8, h9, h10⟩ := H.fields
    refine ⟨h1, H.pc, h2, h3, h4, h5, h6, h7, h8, h9, h10, fun ho => ?_, H.faulting, H.ctl, H.halted⟩
    have hst := H.state
    unfold fetches at hst
    rw [ho] at hst
    rcases hst with (h | h | h) | h <;> cases h
  case drain =>
    dsimp only
    rw [ctlEnd_one _ hi, applyCtl, writeCtrl_drain (u := { s with ctl := [] }) hen hr hf]
    exact drain_drains ..
  case abort =>
    dsimp only
    rw [ctlEnd_one _ hi, applyCtl, writeCtrl_abort (u := { s with ctl := [] }) hr]
    obtain ⟨h1, h2, h3, h4, h5, h6, h7⟩ := abort_aborts c.val { s with ctl := [] }
    exact ⟨h1, h2, h3, h4, h5, h6, h7⟩

end Sys2Proof.Laws
end

section
/-! PROOFS. Pause and resume, and the ways on from DRAINING and FAULT. -/

namespace Sys2Proof.Laws
open Sys2Proof.Machine

variable {s u v : State} {c : Nat}

/-! ### A pause and a resume -/

theorem enBit_eq (s : State) (c : Nat) : enBit s c = if (ctx s c).r.en then 1 else 0 := by
  unfold enBit
  cases (ctx s c).r.en <;> rfl
/-- A write of EN as it reads leaves a channel that is neither OFF, DRAINING nor in FAULT. -/
theorem enOne_runs (h : (ctx u c).r.en = true) (hs : (ctx u c).r.state ≠ .draining) : enOne c u = u := by
  unfold enOne
  dsimp only
  rw [h, decide_eq_false hs]
  rfl
theorem writeCtrl_pause (hs : (ctx u c).r.state ≠ .draining) : writeCtrl c (2 ||| enBit u c) u = pauseCh c u := by
  rw [enBit_eq]
  unfold writeCtrl
  dsimp only
  cases h : (ctx u c).r.en
  · rfl
  · rw [enOne_runs h hs]
    rfl
theorem writeCtrl_resume (hs : (ctx u c).r.state ≠ .draining) : writeCtrl c (4 ||| enBit u c) u = resumeCh c u := by
  rw [enBit_eq]
  unfold writeCtrl
  dsimp only
  cases h : (ctx u c).r.en
  · rfl
  · rw [enOne_runs h hs]
    rfl

/-- A channel that was not held in this ECLK keeps its state to come back to (R51). -/
theorem enterPaused_ctx (hh : (ctx u c).w.heldAt ≠ some u.eclk) :
    (ctx (enterPaused c u) c).r = { (ctx u c).r with state := .paused, resume := (ctx u c).r.state, wait := .none } ∧
    (ctx (enterPaused c u) c).w.pausePend = false := by
  have hl : leftState u (ctx u c) = (ctx u c).r.state := by
    unfold leftState
    rw [decide_eq_false hh, Bool.and_false]
    rfl
  have e : ctx (enterPaused c u) c = _ := ctx_setCtx_self ..
  rw [e, hl, if_pos rfl]
  exact ⟨rfl, rfl⟩
theorem tryPause_stops (hp : (ctx u c).w.pausePend = true) (ha : atStop u c = true) (hh : haltOn u = false) : tryPause c u = enterPaused c u := by
  unfold tryPause
  rw [hp, ha, hh]
  rfl
theorem tryPause_waits (h : ¬(atStop u c = true ∧ haltOn u = false)) : tryPause c u = u := by
  unfold tryPause
  refine if_neg fun h' => h ?_
  simp only [Bool.and_eq_true, Bool.not_eq_true'] at h'
  exact ⟨h'.1.2, h'.2⟩

/-- The states of a channel that a pause stops (R51). -/
def pauses (st : ChState) : Prop := st = .active ∨ st = .wait ∨ st = .parked ∨ st = .held
theorem pauses_ne_draining {st : ChState} (h : pauses st) : st ≠ .draining := by
  rcases h with rfl | rfl | rfl | rfl <;> exact nofun
theorem pauseCh_eq (h : pauses (ctx u c).r.state) (hf : (ctx u c).w.faulting = none) :
    pauseCh c u = tryPause c (modW c (fun w => { w with pausePend := true }) u) := by
  unfold pauseCh
  dsimp only
  rcases h with h | h | h | h <;> rw [h, hf] <;> rfl
theorem atStop_pausePend (c : Nat) (u : State) : atStop (modW c (fun w => { w with pausePend := true }) u) c = atStop u c := by
  unfold atStop
  rw [ctx_modW_self]
  rfl

theorem resumeCh_paused (hs : (ctx u c).r.state = .paused) (hf : (ctx u c).w.faulting = none) : resumeCh c u = resume c u := by
  unfold resumeCh
  dsimp only
  rw [hs, hf]
  rfl
theorem reenter_parked (c : Nat) (u : State) : reenter c .parked u =
    if decide ((ctx (modR c (fun r => { r with state := .parked, wait := .none }) u) c).w.phase = .endRead) then
      endAgain c (modR c (fun r => { r with state := .parked, wait := .none }) u)
    else afterPark c (modR c (fun r => { r with state := .parked, wait := .none }) u) := rfl
theorem resume_parked (hr : (ctx u c).r.resume = .parked) : resume c u = reenter c .parked (modR c (fun r => { r with resume := .off }) u) := by
  unfold resume
  dsimp only
  rw [hr]
/-- A channel that was PARKED is parked again (R52). -/
theorem resumeCh_parked (hs : (ctx u c).r.state = .paused) (hr : (ctx u c).r.resume = .parked) (hf : (ctx u c).w.faulting = none)
    (hp : (ctx u c).w.phase = .parked) (hd : divertHeld u c = false) (hw : (ctx u c).r.wake = false) (hwo : (ctx u c).w.woken = false) :
    ctx (resumeCh c u) c = { ctx u c with r := { (ctx u c).r with state := .parked, resume := .off, wait := .none } } := by
  obtain ⟨t, ht⟩ : ∃ t, t = modR c (fun r => { r with state := .parked, wait := .none }) (modR c (fun r => { r with resume := .off }) u) := ⟨_, rfl⟩
  have hx : ctx t c = { ctx u c with r := { (ctx u c).r with state := .parked, resume := .off, wait := .none } } := by
    rw [ht, ctx_modR_self, ctx_modR_self]
  have hd' : divertHeld t c = false := by unfold divertHeld at *; rw [hx]; exact hd
  have ha : afterPark c t = t := by
    unfold afterPark
    rw [hd', hx]
    dsimp only
    rw [hw, hwo]
    simp
  have hph : (ctx t c).w.phase = .parked := by rw [hx]; exact hp
  rw [resumeCh_paused hs hf, resume_parked hr, reenter_parked, ← ht, hph, if_neg nofun, ha, hx]

/-! ### The ways on -/

theorem releaseSlot_ctx (c : Nat) (u : State) : ∃ x, ctx (releaseSlot c u) c = { ctx u c with r := { (ctx u c).r with slot := x } } := by
  unfold releaseSlot
  split
  · split
    · exact ⟨_, rfl⟩
    · exact ⟨none, ctx_modR_self ..⟩
  · exact ⟨_, rfl⟩
/-- A channel that goes OFF (R52). -/
theorem enterOff_ctx (c : Nat) (a : Bool) (u : State) : ∃ x, ctx (enterOff c a u) c =
    { r := { (ctx u c).r with state := .off, wait := .none, desc := .none, deadline := none, aborted := a, rearm := false, slot := x },
      w := { (ctx u c).w with phase := .idle, faulting := none, aborting := false, reqHeld := false, toOff := false } } := by
  obtain ⟨x, hx⟩ := releaseSlot_ctx c (setCtx u c
    { r := { (ctx u c).r with state := .off, wait := .none, desc := .none, deadline := none, aborted := a, rearm := false },
      w := { (ctx u c).w with phase := .idle, faulting := none, aborting := false, reqHeld := false, toOff := false } })
  rw [ctx_setCtx_self] at hx
  exact ⟨x, hx⟩
theorem abortedRecord_keeps (c : Nat) (u : State) : ctx (abortedRecord c u) c = ctx u c ∧ (abortedRecord c u).eclk = u.eclk :=
  have H := abortedRecord_only (c := c) recIn_self (only_refl (s := u))
  ⟨ctx_of_only H (by rintro (h | h) <;> cases h), H .eclk (by rintro (h | h) <;> cases h)⟩
theorem startValue_congr (hc : ctx v c = ctx u c) (he : v.eclk = u.eclk) : startValue v c = startValue u c := by
  unfold startValue
  rw [hc, he]
theorem Started.rearm {t : State} (H : Started u c t) : (ctx t c).r.rearm = false :=
  have h := H.regs
  (congrArg CtxRegs.rearm h :)
/-- DRAIN_COMPLETE of a channel without a fault. -/
theorem drainComplete_eq (hs : (ctx u c).r.state = .draining) (hd : drained u c = true) (hf : (ctx u c).w.faulting = none) :
    drainComplete c u = if (ctx u c).r.rearm then startChannel c (if (ctx u c).w.aborting then abortedRecord c u else u)
      else enterOff c (ctx u c).w.aborting (if (ctx u c).w.aborting then abortedRecord c u else u) := by
  unfold drainComplete
  dsimp only
  rw [hs, hd, hf]
  simp
/-- FAULT_ENTRY of a channel whose writes are accepted (R322, R326). -/
theorem faultEntry_ctx {f : FaultInfo} (hf : (ctx u c).w.faulting = some f) (ha : (ctx u c).w.aborting = false) (hs : (ctx u c).r.state ≠ .halted)
    (hc : covered u c = 0) (hl : laneOf u c = none) : ctx (faultEntry c u) c =
    { r := { (ctx u c).r with state := .fault, wait := .none, desc := .none, deadline := none, rearm := false },
      w := { (ctx u c).w with phase := .idle, faulting := none, pausePend := false, toOff := !(ctx u c).r.en, progressed := true, reqHeld := false } } := by
  have H (f : FaultInfo) (v : State) : ctx (offerFault c f v) c = ctx v c :=
    ctx_of_only (offer_only recIn_self only_refl) (by rintro (h | h) <;> cases h)
  unfold faultEntry
  dsimp only
  rw [hf]
  dsimp only
  rw [ha, decide_eq_false hs, hc, hl, if_neg nofun, H, ctx_setCtx_self]

/-- Settles O19: the pause, the resume, and the ways on from DRAINING and FAULT. -/
theorem pausesAndStops : Obligations.PausesAndStops := by
  unfold Obligations.PausesAndStops
  refine ⟨fun s b c h e he => ?write, fun s c hh => ⟨fun hi hf hs => ?pause, fun hp ha ho => ?stop, fun hi hf hs hr hp hd hw hwo => ?resume⟩,
    fun s c => ⟨fun hs hd hf hr => ?off, fun hs hd hf hr => ?rearm, fun f hf ha hs hc hl => ?fault, fun hs ht => ?toOff⟩⟩
  case write =>
    have hw (w : W32) : ∀ v, core v = core s → (Machine.control c.val (.ctrl w) v).ctl = s.ctl ++ [(c.val, .ctrl w)] ∧
        (Machine.control c.val (.ctrl w) v).ctxs = s.ctxs := fun v hv =>
      have hc := ctxs_of_core hv
      ⟨congrArg (· ++ _) (ctl_of_core hv), hc⟩
    simp only [List.mem_cons, List.not_mem_nil, or_false] at he
    rcases he with rfl | rfl <;> exact completes_regCore h rfl fun v _ hv => hw _ v hv
  case pause =>
    dsimp only
    have e : ctlEnd { s with ctl := [(c.val, .ctrl (2 ||| enBit s c))] } =
        tryPause c (modW c.val (fun w => { w with pausePend := true }) { s with ctl := [] }) := by
      rw [ctlEnd_one _ hi]
      exact (writeCtrl_pause (u := { s with ctl := [] }) (pauses_ne_draining hs)).trans (pauseCh_eq (u := { s with ctl := [] }) hs hf)
    have hx := ctx_modW_self { s with ctl := [] } c.val (fun w => { w with pausePend := true })
    have hat : atStop (modW c.val (fun w => { w with pausePend := true }) { s with ctl := [] }) c = atStop s c := atStop_pausePend c.val { s with ctl := [] }
    rw [e]
    split
    · next h =>
      rw [tryPause_stops (by rw [hx]) (hat.trans h.1) h.2]
      obtain ⟨h1, h2⟩ := enterPaused_ctx (c := c.val) (u := modW c.val (fun w => { w with pausePend := true }) { s with ctl := [] }) (by rw [hx]; exact hh)
      rw [hx] at h1
      exact ⟨h1, h2⟩
    · next h =>
      rw [tryPause_waits (fun h' => h ⟨hat.symm.trans h'.1, h'.2⟩), hx]
      exact ⟨rfl, rfl⟩
  case stop => exact ⟨_, congrArg Host.Outcome.next (tryPause_stops hp ha ho), enterPaused_ctx hh⟩
  case resume =>
    dsimp only
    rw [ctlEnd_one _ hi]
    have e : applyCtl c.val (.ctrl (4 ||| enBit s c)) { s with ctl := [] } = resumeCh c.val { s with ctl := [] } :=
      writeCtrl_resume (u := { s with ctl := [] }) (fun h => by rw [show (ctx { s with ctl := [] } c.val).r.state = .paused from hs] at h; cases h)
    rw [e, resumeCh_parked (u := { s with ctl := [] }) hs hr hf hp hd hw hwo]
    exact ⟨rfl, rfl⟩
  case off =>
    obtain ⟨x, hx⟩ := enterOff_ctx c.val (ctx s c).w.aborting (if (ctx s c).w.aborting then abortedRecord c s else s)
    refine ⟨_, congrArg Host.Outcome.next (drainComplete_eq hs hd hf), ?_⟩
    rw [hr, if_neg nofun]
    dsimp only
    rw [hx]
    exact ⟨rfl, rfl, rfl, rfl⟩
  case rearm =>
    refine ⟨_, congrArg Host.Outcome.next (drainComplete_eq hs hd hf), ?_⟩
    rw [if_pos hr]
    have H := startChannel_starts c.val (if (ctx s c).w.aborting then abortedRecord c s else s)
    refine ⟨H.fields.1, H.pc.trans ?_, fun hdr => ?_, H.rearm⟩
    · split
      · exact startValue_congr (abortedRecord_keeps c s).1 (abortedRecord_keeps c s).2
      · rfl
    · have hst := H.state
      unfold fetches at hst
      rw [hdr] at hst
      rcases hst with (h | h | h) | h <;> cases h
  case fault =>
    refine ⟨_, rfl, ?_⟩
    dsimp only
    rw [faultEntry_ctx hf ha hs hc hl]
    exact ⟨rfl, rfl, rfl, rfl⟩
  case toOff =>
    obtain ⟨x, hx⟩ := enterOff_ctx c.val (ctx s c).r.aborted s
    have e : faultToOff c.val s = enterOff c.val (ctx s c).r.aborted s := by
      unfold faultToOff
      dsimp only
      rw [hs, ht]
      rfl
    refine ⟨_, congrArg Host.Outcome.next e, ?_⟩
    dsimp only
    rw [hx]
    exact ⟨rfl, rfl, rfl⟩

end Sys2Proof.Laws
end

section
/-! PROOFS. Corrections of Meridian, and holdover. -/

namespace Sys2Proof.Laws
open Sys2Proof.Machine

variable {s u v : State}

/-- Meridian as a correction of o, in 1/2^32 ns, leaves its count and what is left to slew (R237, R238). -/
def corrMer (o : Int) (m : Mer) : Mer :=
  if (1000 * 2 ^ 32 : Int) ≤ o then
    { m with now := ((m.now : Int) - m.slewed + o).toNat, slewed := 0, remain := 0, stepped := true, stepcnt := m.stepcnt + 1 }
  else if o ≤ (-1000 * 2 ^ 32 : Int) then { m with remain := o, backoff := true }
  else { m with remain := o }

/-- Two states of Meridian that differ at most in SYNC, the lock and when the last correction came. -/
def corrKeeps (m : Mer) : Mer := { m with sync := false, lock := false, corrAt := 0, corrNs := 0 }

theorem stepped_mer (d : Int) (u : State) : (stepped d u).mer = { u.mer with stepped := true, stepcnt := u.mer.stepcnt + 1 } := by
  unfold stepped
  exact merRec_mer ..
theorem correct_mer (ofs : Int) (h : corrLost u = false) : corrKeeps (correct ofs none u).mer =
    corrKeeps (corrMer (ofs * 256) { u.mer with lastofs := BitVec.ofInt 64 ofs, holdover := false }) := by
  obtain ⟨hm, -⟩ := keepMer_keeps u
  unfold correct corrMer
  rw [h, if_neg nofun]
  dsimp only
  generalize keepMer u = t at hm ⊢
  generalize u.mer = m at hm ⊢
  subst hm
  split
  · rw [stepped_mer]
    rfl
  · split
    · split
      · rfl
      · show corrKeeps { (merRec 0x5B 0 ofs _).mer with remain := _, backoff := true, corrAt := _, corrNs := _ } = _
        rw [merRec_mer]
        rfl
    · rfl
theorem trySync_mer (u : State) : corrKeeps (trySync u).mer = corrKeeps u.mer := by
  unfold trySync
  split
  · show corrKeeps { (merRec 0x5C _ _ u).mer with sync := true } = _
    rw [merRec_mer]
    rfl
  · rfl
theorem corrLost_congr (he : v.eclk = u.eclk) (hm : v.mer.srcAt = u.mer.srcAt) : corrLost v = corrLost u := by
  unfold corrLost
  rw [he, hm]
theorem corrMer_srcAt (o : Int) (m : Mer) : (corrMer o m).srcAt = m.srcAt := by
  unfold corrMer
  split
  · rfl
  split <;> rfl
theorem correct_keepsLost (ofs : Int) (h : corrLost u = false) : corrLost (correct ofs none u) = false := by
  have he : (correct ofs none u).eclk = u.eclk :=
    correct_only (S := fun p => recAreas p ∨ p = .mer ∨ p = .merWas) ⟨recIn_self.mono fun _ h => .inl h, .inr (.inl rfl)⟩ (.inr (.inr rfl))
      only_refl .eclk (by rintro ((h | h) | h | h) <;> cases h)
  have hm : (correct ofs none u).mer.srcAt = (corrMer (ofs * 256) { u.mer with lastofs := BitVec.ofInt 64 ofs, holdover := false }).srcAt :=
    have h := correct_mer ofs h
    (congrArg Mer.srcAt h :)
  rw [corrLost_congr he (hm.trans (corrMer_srcAt ..)), h]

/-- A write of STE_MER_ADJ with the host as source (R236). -/
theorem adjMer_mer (x : W64) (hs : u.mer.src = 2) (h : corrLost u = false) : corrKeeps (adjMer x u).mer =
    corrKeeps (corrMer (signed 63 x.toNat * 256) { u.mer with lastofs := BitVec.ofInt 64 (signed 63 x.toNat), holdover := false }) := by
  rw [← correct_mer _ h]
  have hl := correct_keepsLost (signed 63 x.toNat) h
  unfold adjMer
  rw [hs, if_pos (BEq.rfl)]
  generalize correct (signed 63 x.toNat) none u = t at hl
  dsimp only
  rw [hl, if_neg nofun, trySync_mer]
  split <;> rfl
theorem adjMer_rejected (x : W64) (hs : u.mer.src ≠ 2) : adjMer x u = rejected u := by
  unfold adjMer
  rw [if_neg (by simpa using hs)]

/-- The parts of a corrected Meridian. -/
theorem corrMer_step {o : Int} (m : Mer) (h : 1000 * 2 ^ 32 ≤ o) : corrMer o m =
    { m with now := ((m.now : Int) - m.slewed + o).toNat, slewed := 0, remain := 0, stepped := true, stepcnt := m.stepcnt + 1 } := if_pos h
theorem corrMer_slew {o : Int} (m : Mer) (h : o < 1000 * 2 ^ 32) : (corrMer o m).now = m.now ∧ (corrMer o m).remain = o ∧ (corrMer o m).stepcnt = m.stepcnt := by
  unfold corrMer
  rw [if_neg (Int.not_le.mpr h)]
  split <;> exact ⟨rfl, rfl, rfl⟩
theorem corrMer_backoff {o : Int} (m : Mer) (h : o ≤ -(1000 * 2 ^ 32)) : (corrMer o m).backoff = true := by
  unfold corrMer
  rw [if_neg (by omega), if_pos (by omega)]
theorem corrMer_same (o : Int) (m : Mer) : (corrMer o m).lastofs = m.lastofs ∧ (corrMer o m).holdover = m.holdover := by
  unfold corrMer
  split
  · exact ⟨rfl, rfl⟩
  split <;> exact ⟨rfl, rfl⟩
theorem corrKeeps_fields {m n : Mer} (h : corrKeeps m = corrKeeps n) : m.lastofs = n.lastofs ∧ m.holdover = n.holdover ∧ m.now = n.now ∧
    m.remain = n.remain ∧ m.stepcnt = n.stepcnt ∧ m.stepped = n.stepped ∧ m.backoff = n.backoff :=
  ⟨(congrArg Mer.lastofs h :), (congrArg Mer.holdover h :), (congrArg Mer.now h :), (congrArg Mer.remain h :), (congrArg Mer.stepcnt h :),
    (congrArg Mer.stepped h :), (congrArg Mer.backoff h :)⟩

/-! ### Holdover -/

theorem holdoverStart_starts {lost : Bool} (hr : running s = true) (hh : s.mer.holdover = false) (hs : s.mer.src ≠ 0)
    (h : (lost = true ∧ s.mer.src = 1) ∨ (s.mer.sync = true ∧ s.mer.corrAt + holdLimit s ≤ mclk s)) :
    holdoverStart lost s = startHoldover s := by
  unfold holdoverStart
  rw [hr, hh]
  refine if_pos ?_
  have h0 : (s.mer.src != 0) = true := by simpa using hs
  rw [h0]
  rcases h with ⟨rfl, h1⟩ | ⟨h1, h2⟩
  · rw [h1]; rfl
  · rw [h1, decide_eq_true h2]
    simp
theorem holdoverExpiry_expires (hr : running s = true) (hh : s.mer.holdover = true) (h : s.mer.holdAt + holdLimit s ≤ mclk s) :
    holdoverExpiry s = loseSync 1 s := by
  unfold holdoverExpiry
  rw [hr, hh, decide_eq_true h]
  rfl
theorem trySync_syncs (hs : s.mer.sync = false) (hl : s.mer.lock = true) (h : s.mer.remain.natAbs < 1000 * 2 ^ 32) :
    (trySync s).mer = { s.mer with sync := true } := by
  unfold trySync
  rw [hs, hl, decide_eq_true h, if_pos (by decide)]
  show { (merRec 0x5C _ _ s).mer with sync := true } = _
  rw [merRec_mer]

/-- Settles O26: a correction's step or slew, and the way into holdover, out of it, and to SYNC. -/
theorem meridianCorrectionAndHoldover : Obligations.MeridianCorrectionAndHoldover := by
  unfold Obligations.MeridianCorrectionAndHoldover
  refine ⟨fun s b x h => ⟨fun hs => ?rejected, fun hs ha => ?corrected⟩,
    fun s hr => ⟨fun lost hh hs h => ?start, fun hh h => ?expiry, fun hs hl h => ?sync⟩⟩
  case rejected =>
    refine completes_reg h rfl fun v hv => ?_
    have hm := mer_of_writeOpen hv
    rw [adjMer_rejected x (by rw [hm]; exact hs), rejected_mer, hm]
  case corrected =>
    refine completes_reg h rfl fun v hv => ?_
    have hm := mer_of_writeOpen hv
    have he : v.eclk = s.eclk := hv .eclk (by rintro (((((h | h) | ⟨_, h⟩) | (h | h) | h) | h) | h) <;> cases h)
    have hl : corrLost v = false := by
      unfold corrLost
      rw [he, hm]
      exact decide_eq_false ha
    have H := adjMer_mer x (by rw [hm]; exact hs) hl
    rw [hm] at H
    obtain ⟨h1, h2, h3, h4, h5, h6, h7⟩ := corrKeeps_fields H
    obtain ⟨k1, k2⟩ := corrMer_same (signed 63 x.toNat * 256) { s.mer with lastofs := BitVec.ofInt 64 (signed 63 x.toNat), holdover := false }
    refine ⟨h1.trans k1, h2.trans k2, fun hge => ?_, fun hlt => ?_, fun hle => h7.trans (corrMer_backoff _ hle)⟩
    · rw [corrMer_step _ hge] at h3 h4 h5 h6
      exact ⟨h3, h4, h5, h6⟩
    · obtain ⟨l1, l2, l3⟩ := corrMer_slew _ hlt
      exact ⟨h3.trans l1, h4.trans l2, h5.trans l3⟩
  case start => exact ⟨_, congrArg Host.Outcome.next (holdoverStart_starts hr hh hs h), rfl⟩
  case expiry =>
    refine ⟨_, congrArg Host.Outcome.next (holdoverExpiry_expires hr hh h), ?_⟩
    dsimp only
    rw [loseSync_mer]
    exact ⟨rfl, rfl, rfl⟩
  case sync =>
    have e : exec .synchronised s = .next (trySync s) := congrArg Host.Outcome.next (if_pos hr)
    exact ⟨_, e, trySync_syncs hs hl h⟩

end Sys2Proof.Laws
end

section
/-! PROOFS. The commands of the Graticule. -/

namespace Sys2Proof.Laws
open Sys2Proof.Machine

variable {s u v : State} {b : Initiator} {g : GCmd} {i j k n : Nat}

/-! ### What a check that allows an access leaves of the marks of this ECLK -/

/-- The marks of the registers below the management page are the same: what has been counted, and what has been set. -/
structure MarksKept (u v : State) : Prop where
  kept : ∀ k < w1cKey 0x7000 0, tget (0, 0) v.marks.cnt k = tget (0, 0) u.marks.cnt k ∧ tget 0 v.marks.set k = tget 0 u.marks.set k

theorem MarksKept.trans {w : State} (h : MarksKept u v) (g : MarksKept v w) : MarksKept u w :=
  ⟨fun k hk => ⟨(g.kept k hk).1.trans (h.kept k hk).1, (g.kept k hk).2.trans (h.kept k hk).2⟩⟩
theorem marksKept_of_eq (h : v.marks = u.marks) : MarksKept u v :=
  ⟨fun k _ => by rw [h]; exact ⟨rfl, rfl⟩⟩
theorem markSet_kept (hk : w1cKey 0x7000 0 ≤ k) (u : State) : MarksKept u (markSet k u) := by
  refine ⟨fun j hj => ⟨rfl, ?_⟩⟩
  unfold markSet
  dsimp only
  exact tget_tset_ne 0 u.marks.set _ (Nat.ne_of_lt (Nat.lt_of_lt_of_le hj hk))
theorem countErr_kept (n : Nat) (u : State) : MarksKept u (countErr n u) := by
  refine ⟨fun j hj => ?_⟩
  have hne : j ≠ w1cKey (0x7100 + 16 * n) 0 := by unfold w1cKey at *; omega
  refine ⟨?_, rfl⟩
  unfold countErr markCount setErr
  dsimp only
  exact tget_tset_ne (0, 0) u.marks.cnt _ hne
theorem offer_kept (p : Plane) (o : Option Nat) (r : Rec) (u : State) : MarksKept u (offer p o r u) := by
  unfold offer
  split
  · exact MarksKept.trans (v := { u with mgt := { u.mgt with rdrop := true } }) (marksKept_of_eq rfl)
      (markSet_kept (k := w1cKey 0x7000 5) (by decide) _)
  · exact marksKept_of_eq rfl
theorem foundSoft_kept (u : State) (w : Nat × Nat) : MarksKept u (foundSoft u w) := by
  have H (n d : Nat) (x : W64) (v : State) : MarksKept v (corrected n d x v) := by
    unfold corrected
    dsimp only
    split
    · exact (countErr_kept ..).trans (offer_kept ..)
    · exact countErr_kept ..
  unfold foundSoft
  split
  · have hs (a : Atlas) : MarksKept u { u with atlas := a } := marksKept_of_eq rfl
    exact (hs _).trans (H ..)
  · exact marksKept_of_eq rfl
theorem putWord_marks (k : Nat) (x : W64) (u : State) : (putWord k x u).marks = u.marks := by
  unfold putWord
  split
  · rfl
  split
  · rfl
  split
  · rfl
  split <;> rfl
theorem initGrid_marks (a : Nat) (u : State) : (initGrid a u).1.marks = u.marks := by
  unfold initGrid
  split
  · rfl
  split
  · rfl
  split
  · rfl
  · exact putWord_marks ..
theorem check_kept {q : Ask} (ha : allowed (check q u).2 = true) : MarksKept u (check q u).1 := by
  have hf (l : List (Nat × Nat)) : ∀ v, MarksKept v (l.foldl foundSoft v) := by
    induction l with
    | nil => exact fun v => marksKept_of_eq rfl
    | cons w l ih => exact fun v => (foundSoft_kept v w).trans (ih _)
  have he : (check q u).1 = (lookupWords (beginLookup q u).1 q).foldl foundSoft (beginLookup q u).1 := if_pos ha
  have hb : (beginLookup q u).1.marks = u.marks := initGrid_marks ..
  rw [he]
  exact (marksKept_of_eq hb).trans (hf _ _)
theorem countNow_of_kept (h : MarksKept u v) (he : v.eclk = u.eclk) (hk : k < w1cKey 0x7000 0) : countNow v k = countNow u k := by
  unfold countNow
  rw [(h.kept k hk).1, he]
theorem setNow_of_kept (h : MarksKept u v) (he : v.eclk = u.eclk) (hk : k < w1cKey 0x7000 0) : setNow v k = setNow u k := by
  unfold setNow
  rw [(h.kept k hk).2, he]

/-- A register's write that the port takes leaves what has been counted and set in this ECLK. -/
theorem completes_regMarks {i c : Instr} {o : Nat} {act : State → State} {P : State → Prop} (h : HostOpen s b false true o)
    (he : exec i s = .next (regWrite b o c act s)) (H : ∀ v, core v = core s → MarksKept s v → P (act v)) : Completes i s P := by
  obtain ⟨h1, h2, h3⟩ := h
  have K (v : State) (hc : core v = core s) (hm : MarksKept s v) :
      P (act (if wide o then setLow (keySnap b o) none (portAnswer b false v) else portAnswer b false v)) := by
    have hp : (portAnswer b false v).marks = v.marks := by cases b <;> rfl
    have hc1 : core (portAnswer b false v) = core s := (core_portAnswer ..).trans hc
    refine H _ (core_ite hc1 hc1) (hm.trans (marksKept_of_eq ?_))
    split
    · exact hp
    · exact hp
  refine ⟨_, he, ?_⟩
  unfold regWrite hostAccess
  rw [h1, h2, if_neg nofun, if_neg nofun]
  by_cases e : exempt b false o = true
  · rw [if_pos e]; exact K s rfl (marksKept_of_eq rfl)
  · have ha := h3.resolve_left e
    have hk := check_kept (u := s) (q := hostAsk s b false true o) ha
    have hcore : core (check (hostAsk s b false true o) s).1 = core s := core_check _ _
    rw [if_neg e]
    generalize check (hostAsk s b false true o) s = r at ha hk hcore
    dsimp only
    rw [if_pos ha]
    exact K _ hcore hk

/-! ### A command as it is captured -/

theorem gratCmd_captures {op : BitVec 2} (ho : op ≠ 0) (n : Nat) (u : State) : (gratCmd op n u).grat =
    if u.grat.cmd.isSome then { u.grat with cmdLost := true }
    else { u.grat with cmd := some ⟨op, n, u.grat.stage0, u.grat.stage1, u.grat.stage2, u.grat.stage3⟩ } := by
  unfold gratCmd
  rw [if_neg (by simpa using ho)]
  split
  · rfl
  · rfl
theorem grat_of_core (h : core v = core s) : v.grat = s.grat := (congrArg State.grat h :)
theorem completes_gratCmd {i c : Instr} {op : BitVec 2} (h : HostOpen s b false true 0x30B0) (ho : op ≠ 0)
    (he : exec i s = .next (regWrite b 0x30B0 c (gratCmd op n) s)) : Completes i s fun t => t.grat.entries = s.grat.entries ∧
      if s.grat.cmd.isSome then t.grat.cmd = s.grat.cmd ∧ t.grat.cmdLost = true
      else t.grat.cmd = some ⟨op, n, s.grat.stage0, s.grat.stage1, s.grat.stage2, s.grat.stage3⟩ := by
  refine completes_regCore h he fun v _ hv => ?_
  rw [gratCmd_captures ho, grat_of_core hv]
  split
  · exact ⟨rfl, rfl, rfl⟩
  · exact ⟨rfl, rfl⟩

/-! ### A command as it is done -/

theorem entry_setEntry_ne (u : State) (e : GEntry) (h : j ≠ i) : entry (setEntry i e u) j = entry u j := by
  unfold entry setEntry
  rw [cleanEntry_grat]
  exact tfind_tput_ne _ _ h
theorem entry_freeEntry_self (u : State) (i : Nat) : entry (freeEntry i u) i = none := by
  unfold entry freeEntry
  rw [cleanEntry_grat]
  exact tfind_tdel_self _ _
theorem entry_freeEntry_ne (u : State) (h : j ≠ i) : entry (freeEntry i u) j = entry u j := by
  unfold entry freeEntry
  rw [cleanEntry_grat]
  exact tfind_tdel_ne _ h
theorem setEntry_code (u : State) (i : Nat) (e : GEntry) :
    (setEntry i e u).grat.code = u.grat.code ∧ (setEntry i e u).grat.index = u.grat.index ∧ (setEntry i e u).grat.cmd = u.grat.cmd := by
  unfold setEntry
  rw [cleanEntry_grat]
  exact ⟨rfl, rfl, rfl⟩
theorem freeEntry_code (u : State) (i : Nat) : (freeEntry i u).grat.code = u.grat.code ∧ (freeEntry i u).grat.cmd = u.grat.cmd := by
  unfold freeEntry
  rw [cleanEntry_grat]
  exact ⟨rfl, rfl⟩

theorem gratComplete_eq (hg : u.grat.cmd = some g) (hr : u.glob.readyGrat = true) : gratComplete u =
    if g.op = 1 then
      if gratRefused g then gratEnd 3 none u
      else match lowestIdle 4096 0 u.grat.entries with
        | none => gratEnd 1 none u
        | some i => setEntry i (gratEntry g) (gratEnd 0 (some i) u)
    else if entry u g.index = none then gratEnd 2 none u
    else if g.op = 2 then freeEntry g.index (gratEnd 0 none u)
    else if gratRefused g then gratEnd 3 none u
    else setEntry g.index (gratEntry g) (gratEnd 0 (some g.index) u) := by
  unfold gratComplete
  rw [hg, hr]
  dsimp only
  simp only [beq_iff_eq, Option.isNone_iff_eq_none]
  rfl
/-- The command is no more, whatever comes of it. -/
theorem gratComplete_cmd (hg : u.grat.cmd = some g) (hr : u.glob.readyGrat = true) : (gratComplete u).grat.cmd = none := by
  rw [gratComplete_eq hg hr]
  split
  · split
    · rfl
    · split
      · rfl
      · exact (setEntry_code ..).2.2
  split
  · rfl
  split
  · exact (freeEntry_code ..).2
  split
  · rfl
  · exact (setEntry_code ..).2.2
/-- An entry that is written holds the command's words, and the others stay. -/
theorem setEntry_gratEnd (u : State) (i : Nat) (e : GEntry) :
    (setEntry i e (gratEnd 0 (some i) u)).grat.code = 0 ∧ (setEntry i e (gratEnd 0 (some i) u)).grat.index = i ∧
    entry (setEntry i e (gratEnd 0 (some i) u)) i = some e ∧ ∀ j, j ≠ i → entry (setEntry i e (gratEnd 0 (some i) u)) j = entry u j := by
  obtain ⟨h1, h2, -⟩ := setEntry_code (gratEnd 0 (some i) u) i e
  exact ⟨h1, h2, entry_setEntry_self .., fun j hj => entry_setEntry_ne _ _ hj⟩

/-- Settles O27: a command is captured, then done on the table of the entries; the enable, and the counts cleared. -/
theorem graticuleCommands : Obligations.GraticuleCommands := by
  unfold Obligations.GraticuleCommands
  refine ⟨fun s b k => ⟨fun e he h => ?capture, fun g hr hg hc => ?done⟩, fun s b => ⟨fun h => ?enable, fun h => ?clear⟩⟩
  case capture =>
    simp only [List.mem_cons, List.not_mem_nil, or_false] at he
    rcases he with rfl | rfl | rfl
    · exact completes_gratCmd h (show (1 : BitVec 2) ≠ 0 by decide) rfl
    · exact completes_gratCmd h (show (2 : BitVec 2) ≠ 0 by decide) rfl
    · exact completes_gratCmd h (show (3 : BitVec 2) ≠ 0 by decide) rfl
  case done =>
    have e : exec .gratCommandComplete s = .next (gratComplete s) := congrArg Host.Outcome.next (if_pos hr)
    refine ⟨_, e, gratComplete_cmd hc hg, fun h1 hf i hi => ?_, fun h1 hf hi => ?_, fun h1 hn => ?_, fun h2 hn => ?_, fun h3 hn hf => ?_,
      fun h2 hn hf => ?_⟩
    all_goals rw [gratComplete_eq hc hg]
    · rw [if_pos h1, hf, if_neg nofun, hi]
      exact setEntry_gratEnd ..
    · rw [if_pos h1, hf, if_neg nofun, hi]
      exact ⟨rfl, rfl⟩
    · rw [if_neg h1, if_pos hn]
      exact ⟨rfl, rfl⟩
    · rw [if_neg (by rw [h2]; decide), if_neg hn, if_pos h2]
      exact ⟨(freeEntry_code ..).1, entry_freeEntry_self .., fun j hj => entry_freeEntry_ne _ hj⟩
    · rw [if_neg (by rw [h3]; decide), if_neg hn, if_neg (by rw [h3]; decide), hf, if_neg nofun]
      exact setEntry_gratEnd ..
    · by_cases h1 : g.op = 1
      · rw [if_pos h1, if_pos hf]
        exact ⟨rfl, rfl⟩
      · rw [if_neg h1, if_neg (hn.resolve_left h1), if_neg h2, if_pos hf]
        exact ⟨rfl, rfl⟩
  case enable =>
    refine completes_regCore h rfl fun v _ hv => ?_
    rw [← grat_of_core hv]
    rfl
  case clear =>
    refine completes_regMarks h rfl fun v hv hm => ?_
    have hcnt (k : Nat) (hk : k < w1cKey 0x7000 0) : countNow v k = countNow s k := countNow_of_kept hm (eclk_of_core hv) hk
    rw [← grat_of_core hv, ← hcnt _ (by decide), ← hcnt _ (by decide)]
    rfl

end Sys2Proof.Laws
end

section
/-! PROOFS. The Graticule's entries as they fire, and their leads. -/

namespace Sys2Proof.Laws
open Sys2Proof.Machine

variable {s u v : State} {e : GEntry} {i j : Nat}

/-- What a fired entry hands to its channel (R249). -/
def firedAct (s : State) (i : Nat) (e : GEntry) : GAct :=
  ⟨e.ch, e.wake, { skipped := (if e.rep then periodsOn s e else 1) - 1, leg := e.leg, index := i, tag := e.tag, time := merWord s,
                   due := BitVec.ofNat 64 (e.t / 2 ^ 24) }, s.eclk⟩
/-- The store with what the firing leaves of the entry: a repeating one goes on to its next time (R252). -/
def firedStore (i : Nat) (e : GEntry) (u : State) : State :=
  if !e.rep || e.remain == 1 then freeEntry i { u with grat := { u.grat with acts := u.grat.acts ++ [firedAct u i e] } }
  else setEntry i { e with t := e.t + (if e.rep then periodsOn u e else 1) * e.period, late := false, remain := e.remain - 1, leadDone := false }
    { u with grat := { u.grat with acts := u.grat.acts ++ [firedAct u i e] } }
theorem fireEntry_inTime (h : isLate u e = false) : fireEntry i e u = firedStore i e u := by
  unfold fireEntry
  dsimp only
  rw [h]
  rfl
theorem firedStore_grat (i : Nat) (e : GEntry) (u : State) :
    (firedStore i e u).grat.acts = u.grat.acts ++ [firedAct u i e] ∧ (firedStore i e u).grat.firedAt = u.grat.firedAt ∧
    (firedStore i e u).grat.lateCnt = u.grat.lateCnt := by
  unfold firedStore freeEntry setEntry
  split
  · rw [cleanEntry_grat]; exact ⟨rfl, rfl, rfl⟩
  · rw [cleanEntry_grat]; exact ⟨rfl, rfl, rfl⟩
theorem firedStore_once (u : State) (h : e.rep = false) : entry (firedStore i e u) i = none := by
  unfold firedStore
  rw [if_pos (by simp [h])]
  exact entry_freeEntry_self ..
theorem firedStore_again (u : State) (h : e.rep = true) (hr : e.remain ≠ 1) : entry (firedStore i e u) i =
    some { e with t := e.t + periodsOn u e * e.period, late := false, remain := e.remain - 1, leadDone := false } := by
  unfold firedStore
  rw [if_neg (by simp [h, hr]), if_pos h]
  exact entry_setEntry_self ..

/-- The one due entry fires, its read without an error (R248). -/
theorem gratFire_one (he : s.grat.en = true) (hf : s.grat.firedAt ≠ some s.eclk)
    (hd : inOrder (s.grat.entries.filter (fun e => isDue s e.2)) = [(i, e)]) (hl : isLate s e = false) (hc : entryError s i = .clean) :
    gratFire .clean s = firedStore i e { s with grat := { s.grat with firedAt := some s.eclk } } := by
  have hc' : entryError { s with grat := { s.grat with firedAt := some s.eclk } } i = .clean := hc
  have hl' : isLate { s with grat := { s.grat with firedAt := some s.eclk } } e = false := hl
  unfold gratFire
  rw [if_neg (by simp [he, hf]), hd]
  dsimp only [List.take, List.foldl]
  rw [if_pos rfl, hc']
  exact fireEntry_inTime hl'

/-! ### Actions and leads -/

/-- A fire that reaches an ACTIVE channel stands at it (R249). -/
theorem fireAt_active {c : Nat} (f : Fire) (hs : (ctx u c).r.state = .active) (hf : (ctx u c).w.fire = none) :
    fireAt c f u = modW c (fun w => { w with fire := some f }) u := by
  unfold fireAt
  dsimp only
  rw [hs, hf]
  exact divertNow_active (by rw [ctx_modW_self]; exact hs)
theorem sendFire_out {c : Nat} (f : Fire) (h : inTransfer u c = false) : sendFire c f u = fireAt c f u := by
  unfold sendFire
  rw [h]
  rfl
theorem deliverActs_one {a : GAct} (ha : s.grat.acts = [a]) (ht : a.at_ < s.eclk) (hw : a.wake = false) :
    deliverActs s = sendFire a.ch a.fire { s with grat := { s.grat with acts := [] } } := by
  unfold deliverActs
  rw [ha]
  simp only [List.filter_cons, List.filter_nil, decide_eq_true ht, Bool.not_true, if_true, List.foldl_cons, List.foldl_nil, hw]
  rfl

theorem prefetch_ctx {c : Nat} (a : W32) (u : State) (d : Nat) : ctx (prefetch c a u) d = ctx u d :=
  ctx_of_only (prefetch_quiet a u) (by rintro (h | h | h) <;> cases h)
theorem prefetch_grat {c : Nat} (a : W32) (u : State) : (prefetch c a u).grat = u.grat :=
  prefetch_quiet a u .grat (by rintro (h | h | h) <;> cases h)
theorem lead_acts {k : Nat} (he : entry s k = some e) (hen : s.grat.en = true) (hd : e.leadDone = false) (h0 : e.lead ≠ 0)
    (hc : entryError s k = .clean) (ht : e.t * 256 ≤ s.mer.now + e.lead * 1000 * 2 ^ 32) : lead k s = leadActs k e s := by
  unfold lead
  rw [he]
  dsimp only
  rw [hc, if_neg (by simp [hen, hd, h0]; omega)]
  rfl
/-- A lead prefetches for its channel, and one out of its slot is to be paged in (R251). -/
theorem leadActs_does (k : Nat) (e : GEntry) (s : State) : entry (leadActs k e s) k = some { e with leadDone := true } ∧
    (resident s e.ch = false → (ctx (leadActs k e s) e.ch).w.urgent = true) := by
  obtain ⟨v, hv⟩ : ∃ v, v = if e.wake then setEntry k { e with leadDone := true } s else prefetch e.ch e.leg (setEntry k { e with leadDone := true } s) := ⟨_, rfl⟩
  have hg : v.grat = (setEntry k { e with leadDone := true } s).grat := by
    rw [hv]
    split
    · rfl
    · exact prefetch_grat ..
  have hx : ctx v e.ch = ctx s e.ch := by
    have h : ctx (setEntry k { e with leadDone := true } s) e.ch = ctx s e.ch := by
      unfold ctx
      rw [setEntry_ctxs]
    rw [hv]
    split
    · exact h
    · exact (prefetch_ctx ..).trans h
  have hl : leadActs k e s = if resident v e.ch then v else modW e.ch (fun w => { w with urgent := true, waitFrom := v.eclk }) v := by
    rw [hv]; rfl
  have hr : resident v e.ch = resident s e.ch := by unfold resident; rw [hx]
  have hen : (leadActs k e s).grat = v.grat := by
    rw [hl]
    split <;> rfl
  refine ⟨?_, fun h => ?_⟩
  · unfold entry
    rw [hen, hg]
    exact entry_setEntry_self ..
  · rw [hl, hr, h, if_neg nofun, ctx_modW_self]

/-- Settles O28: the due entry's firing, its action's delivery, and its lead. -/
theorem graticuleFires : Obligations.GraticuleFires := by
  unfold Obligations.GraticuleFires
  refine fun s hr => ⟨fun i e he hf hd hl hc => ?fires, fun a ha ht hi hw hs hf => ?delivers, fun k e hk he hd h0 hc ht => ?leads⟩
  case fires =>
    refine ⟨_, congrArg Host.Outcome.next ((if_pos hr).trans (gratFire_one he hf hd hl hc)), ?_⟩
    obtain ⟨h1, h2, h3⟩ := firedStore_grat i e { s with grat := { s.grat with firedAt := some s.eclk } }
    exact ⟨⟨_, h1, rfl, rfl, rfl, rfl, rfl, rfl, rfl⟩, h2, h3, firedStore_once _, fun hrep h1 => ⟨_, firedStore_again _ hrep h1, rfl, rfl⟩⟩
  case delivers =>
    have e : deliverActs s = modW a.ch (fun w => { w with fire := some a.fire }) { s with grat := { s.grat with acts := [] } } := by
      rw [deliverActs_one ha ht hw, sendFire_out (u := { s with grat := { s.grat with acts := [] } }) a.fire hi,
        fireAt_active (u := { s with grat := { s.grat with acts := [] } }) a.fire hs hf]
    refine ⟨_, congrArg Host.Outcome.next ((if_pos hr).trans e), rfl, ?_⟩
    dsimp only
    rw [ctx_modW_self]
  case leads =>
    exact ⟨_, congrArg Host.Outcome.next ((if_pos hr).trans (lead_acts hk he hd h0 hc ht)), leadActs_does ..⟩

end Sys2Proof.Laws
end

section
/-! PROOFS. The writer of the field books, and the books' registers. -/

namespace Sys2Proof.Laws
open Sys2Proof.Machine

variable {s u v : State} {b m n : Nat} {r : Rec} {rest : List Rec}

/-! ### The writer -/

theorem recordTake_takes (hq : quiet s = false) (ht : s.recClk.takenAt ≠ some s.eclk) : recordTake s = takeRecord s := by
  unfold recordTake
  rw [hq, decide_eq_false ht]
  rfl
/-- The writer's step on the record at its head (R273, R277). -/
theorem takeRecord_eq (h : s.staged = r :: rest) (hu : (book s r.book).under = none) (hl : lostDue s r.book = false) : takeRecord s =
    if (book s r.book).en = false then setBook r.book { book s r.book with lost := sat32 (book s r.book).lost } (taken { s with staged := rest })
    else if ringFull (book s r.book) then
      setBook r.book { book s r.book with lost := sat32 (book s r.book).lost, drops := (book s r.book).drops + 1,
                                          firstDrop := if (book s r.book).drops = 0 then (book s r.book).seq else (book s r.book).firstDrop,
                                          seq := (book s r.book).seq + 1, lostpend := true } (taken { s with staged := rest })
    else writeRecord r.book r (taken { s with staged := rest }) := by
  unfold takeRecord
  rw [h]
  dsimp only
  rw [hu, hl, if_neg nofun, if_neg nofun]
  cases (book s r.book).en <;> rfl
/-- A record under way: its book has the words and counts the sequence number (R276). -/
theorem writeRecord_keeps (b : Nat) (r : Rec) (u : State) :
    book (writeRecord b r u) b = { book u b with seq := (book u b).seq + 1, under := some (recWords (book u b) r) } ∧
    (writeRecord b r u).staged = u.staged := by
  have H := submit_only (w := recWant b true (recWords (book u b) r)) submitIn_self (submit_only (w := recWant b false (recWords (book u b) r))
    submitIn_self (only_refl (s := setBook b { book u b with seq := (book u b).seq + 1, under := some (recWords (book u b) r) } u)))
  have hb := H (.book b) (by rintro ((h | h) | h) <;> cases h)
  have hs := H .staged (by rintro ((h | h) | h) <;> cases h)
  exact ⟨Eq.trans hb (book_setBook_self ..), hs⟩

/-- Settles O29: the record at the head, by what its book has room for. -/
theorem writerTakesARecord : Obligations.WriterTakesARecord := by
  unfold Obligations.WriterTakesARecord
  intro s r rest hq ht hs hu hl
  refine ⟨_, congrArg Host.Outcome.next (recordTake_takes hq ht), ?_⟩
  dsimp only
  rw [takeRecord_eq hs hu hl]
  refine ⟨fun he => ?_, fun he hf => ?_, fun he hf => ?_⟩
  · rw [if_pos he, book_setBook_self]
    exact ⟨rfl, rfl, rfl⟩
  · rw [if_neg (by rw [he]; exact nofun), if_pos hf, book_setBook_self]
    exact ⟨rfl, rfl, rfl, rfl, rfl, rfl⟩
  · obtain ⟨hb, hst⟩ := writeRecord_keeps r.book r (taken { s with staged := rest })
    rw [if_neg (by rw [he]; exact nofun), if_neg (by rw [hf]; exact nofun), hb, hst]
    exact ⟨rfl, rfl, rfl, _, rfl, rfl, rfl, rfl, rfl, rfl⟩

/-! ### The ends of a record's writes -/

theorem recordDone_keeps (b : Nat) (u : State) : (book (recordDone b u) b).widx = (book u b).widx + 1 ∧ (book (recordDone b u) b).under = none ∧
    (book (recordDone b u) b).ridx = (book u b).ridx ∧ (recordDone b u).outst = u.outst := by
  have e : book (recordDone b u) b = _ := book_setBook_self u b _
  rw [e]
  exact ⟨rfl, rfl, rfl, rfl⟩
theorem recordFailed_book (b : Nat) (u : State) :
    book (recordFailed b u) b = { book u b with under := none, en := (book u b).en && setNow u (w1cKey (bookStatus b) 63), err := true } ∧
    (recordFailed b u).outst = u.outst :=
  ⟨book_setBook_self { u with offered := u.offered.filter (fun a => !decide (a.owner = .record b true)) } b
    { book u b with under := none, en := (book u b).en && setNow u (w1cKey (bookStatus b) 63), err := true }, rfl⟩

theorem book_of_core (h : core v = core s) (b : Nat) : book v b = book s b := by
  have hb : v.books = s.books := (congrArg State.books h :)
  unfold book
  rw [hb]
theorem merInt_of_core (h : core v = core s) : merInt v = merInt s := by
  have hm : v.mer = s.mer := (congrArg State.mer h :)
  unfold merInt
  rw [hm]
theorem enableBook_off (he : (book u b).en = false) (hn : setNow u (w1cKey (bookStatus b) 19) = false) : enableBook b u =
    setBook b { book u b with en := true, widx := 0, ridx := 0, seq := 0, lostpend := false, drops := 0, expired := false } u := by
  unfold enableBook
  dsimp only
  rw [he, hn]
  rfl
theorem writeRidx_book (b : Nat) (x : W32) (u : State) : book (writeRidx b x u) b =
    if (x - (book u b).ridx).toNat ≤ bookPending (book u b) - countNow u (w1cKey (bookStatus b) 0) then
      { book u b with ridx := x, timerAt := merInt u, expired := false }
    else { book u b with badidx := true } := by
  unfold writeRidx
  dsimp only
  split
  · exact book_setBook_self ..
  · exact book_setBook_self ..

theorem bookStatus_lt (b : Fin 8) (j : Nat) (hj : j < 64) : w1cKey (bookStatus b) j < w1cKey 0x7000 0 := by
  have := b.isLt
  unfold w1cKey bookStatus
  omega

/-- Settles O30: the ends of a record's writes, the timer, and the books' registers. -/
theorem booksAndRecordWrites : Obligations.BooksAndRecordWrites := by
  unfold Obligations.BooksAndRecordWrites
  refine ⟨fun s b a => ⟨fun ha hs => ?done, fun ha => ?failed, fun hr ht => ?timer⟩, fun s i b x => ⟨fun h he hn => ?enable, fun h => ?ridx⟩⟩
  case done =>
    have e : recordWriteDone b s = recordDone b (freeTag a.tag s) := by
      unfold recordWriteDone
      rw [ha]
      exact if_pos hs
    exact ⟨_, congrArg Host.Outcome.next e, recordDone_keeps b (freeTag a.tag s)⟩
  case failed =>
    have e : recordWriteFailed b s = recordFailed b (freeTag a.tag s) := by
      unfold recordWriteFailed
      rw [ha]
    exact ⟨_, congrArg Host.Outcome.next e, recordFailed_book b (freeTag a.tag s)⟩
  case timer =>
    have e : timerExpiry b s = setBook b { book s b with expired := true } s := by
      unfold timerExpiry
      rw [hr, ht]
      rfl
    exact ⟨_, congrArg Host.Outcome.next e, book_setBook_self .., rfl⟩
  case enable =>
    refine completes_regMarks h rfl fun v hv hm => ?_
    rw [enableBook_off (by rw [book_of_core hv]; exact he)
      ((setNow_of_kept hm (eclk_of_core hv) (bookStatus_lt b 19 (by decide))).trans hn), book_setBook_self, book_of_core hv]
  case ridx =>
    refine completes_regMarks h rfl fun v hv hm => ?_
    rw [writeRidx_book, book_of_core hv, merInt_of_core hv, countNow_of_kept hm (eclk_of_core hv) (bookStatus_lt b 0 (by decide)), bookPending]
    split <;> rfl

end Sys2Proof.Laws
end

section
/-! PROOFS. The host's ports of the queues. -/

namespace Sys2Proof.Laws
open Sys2Proof.Machine

variable {s u v : State} {q : Nat}

theorem queue_of_core (h : core v = core s) (q : Nat) : queue v q = queue s q := by
  have hb : v.queues = s.queues := (congrArg State.queues h :)
  unfold queue
  rw [hb]
theorem portAnswer_queue (b : Initiator) (e : Bool) (u : State) : queue (portAnswer b e u) q = queue u q := by
  cases b <;> rfl

/-! ### A push -/

theorem force_keeps (q : Nat) (u : State) : (queue (force q u) q).tail = (queue u q).tail ∧ (queue (force q u) q).head = (queue u q).head ∧
    (queue (force q u) q).ovr = (queue u q).ovr ∧ (queue (force q u) q).inAt = (queue u q).inAt := by
  unfold force
  dsimp only
  split
  · have e : queue (markSet (w1cKey (qStatus q) 60) (setQueue q { queue u q with openDel := (queue u q).openN, forced := true } u)) q = _ :=
      queue_setQueue_self ..
    rw [e]
    exact ⟨rfl, rfl, rfl, rfl⟩
  · exact ⟨rfl, rfl, rfl, rfl⟩
/-- An item that is placed stands behind the others (R288). -/
theorem place_places {it : Item} (hr : (queue u q).resetAt ≠ some u.eclk) : (queue (place q it u) q).tail = (queue u q).tail ++ [it] ∧
    (queue (place q it u) q).head = (queue u q).head ∧ (queue (place q it u) q).ovr = (queue u q).ovr ∧
    (queue (place q it u) q).inAt = some u.eclk := by
  unfold place
  dsimp only
  rw [decide_eq_false hr, if_neg nofun]
  generalize placeOpen (queue u q).cut it.pend (queue u q).openN (queue u q).openDel = o
  obtain ⟨h1, h2, h3, h4⟩ := force_keeps q (setQueue q { queue u q with
    tail := (queue u q).tail ++ [it], lastPut := u.eclk, inAt := some u.eclk, openN := o.1, openDel := o.2 } u)
  rw [queue_setQueue_self] at h1 h2 h3 h4
  exact ⟨h1, h2, h3, h4⟩
theorem qRec_queue (t d : Nat) (x : W64) (u : State) (k : Nat) : queue (qRec q t d x u) k = queue u k :=
  qRec_only (S := recAreas) recIn_self only_refl (.queue k) (by rintro (h | h) <;> cases h)
/-- An item that the tail has no room for is dropped (R297). -/
theorem pushItem_full {d : W64} {p : Bool} (h : ¬(queue u q).tail.length < 8) : queue (pushItem q d p u) q = { queue u q with ovr := true } := by
  have e : queue (markSet (w1cKey (qStatus q) 59) (setQueue q { queue u q with ovr := true } u)) q = { queue u q with ovr := true } :=
    queue_setQueue_self ..
  unfold pushItem
  dsimp only
  rw [if_neg h]
  split
  · exact e
  · rw [qRec_queue]; exact e
theorem pushHost_now {d : W64} {p : Bool} (ha : (queue u q).inAt ≠ some u.eclk) (hh : (queue u q).hostIn = []) : pushHost q d p u = pushItem q d p u := by
  unfold pushHost acceptsNow
  dsimp only
  rw [decide_eq_false ha, hh]
  rfl
theorem pushHost_later {d : W64} {p : Bool} (h : (queue u q).inAt = some u.eclk ∨ (queue u q).hostIn ≠ []) :
    queue (pushHost q d p u) q = { queue u q with hostIn := (queue u q).hostIn ++ [(d, p)] } := by
  unfold pushHost acceptsNow
  dsimp only
  rw [if_neg, queue_setQueue_self]
  intro h'
  simp only [Bool.and_eq_true, Bool.not_eq_true', decide_eq_false_iff_not, List.isEmpty_iff] at h'
  exact h.elim h'.1 (fun hn => hn h'.2)

/-! ### A pop -/

theorem setResp_queue (b : Initiator) (d : W64) (e : Bool) (u : State) : queue (setResp b d e u) q = queue u q := by cases b <;> rfl
theorem popHost_idle (cmd : Instr) (h : deliverable (queue u q) = 0) :
    popHost .host q true cmd u = setResp .host (queue u q).idle false (modQ q (fun x => { x with popf := 8 }) u) := by
  unfold popHost
  rw [if_pos h]
  rfl
theorem popHost_item {it : Item} {t : State} (cmd : Instr) (h : 0 < deliverable (queue u q)) (ht : take? q u = some (it, t)) :
    popHost .host q true cmd u = setResp .host it.data false
      (modQ q (fun x => { x with popf := BitVec.ofNat 4 (1 + 2 * Machine.bool it.pend + 4 * Machine.bool it.poison) }) t) := by
  unfold popHost
  rw [if_neg (Nat.ne_of_gt h), ht]
  rfl
theorem popHost_none (cmd : Instr) (h : 0 < deliverable (queue u q)) (ht : take? q u = none) :
    popHost .host q true cmd u = hold cmd { u with port := { u.port with lastAt := none } } := by
  unfold popHost
  rw [if_neg (Nat.ne_of_gt h), ht]
/-- The oldest item is taken; where the queue has a mark it is held (R288, R291). -/
theorem take_oldest {i : QItem} {rest : List QItem} (hd : 0 < deliverable (queue u q)) (hh : (queue u q).head = i :: rest) (hr : i.inReg = true)
    (ho : (queue u q).outAt ≠ some u.eclk) (hp : parityOk i.it = true) (hg : i.hg = none) :
    ∃ t, take? q u = some (i.it, t) ∧ (queue t q).head = rest ∧ (queue t q).tail = (queue u q).tail := by
  have e : take? q u = if (queue u q).markv then
      some (i.it, setQueue q { queue u q with head := rest, outAt := some u.eclk, held := (queue u q).held ++ [{ i with it := i.it, inReg := i.hg.isNone }] } u)
      else some (i.it, freeItem q i (setQueue q { queue u q with head := rest, outAt := some u.eclk } u)) := by
    unfold take? parityCheck
    dsimp only
    rw [hh]
    dsimp only
    rw [hr, decide_eq_true hd, decide_eq_false ho, hp]
    rfl
  rw [e]
  split
  · exact ⟨_, rfl, by rw [queue_setQueue_self], by rw [queue_setQueue_self]⟩
  · have ef : freeItem q i (setQueue q { queue u q with head := rest, outAt := some u.eclk } u) = setQueue q { queue u q with head := rest, outAt := some u.eclk } u := by
      unfold freeItem
      rw [hg]
    rw [ef]
    exact ⟨_, rfl, by rw [queue_setQueue_self], by rw [queue_setQueue_self]⟩
theorem take_waits (h : (queue u q).outAt = some u.eclk) : take? q u = none := by
  unfold take?
  dsimp only
  split
  · rw [h, decide_eq_true rfl]
    simp
  · rfl

/-- Settles O31: the push as its queue takes it, and the pop by what is deliverable. -/
theorem hostPushAndPop : Obligations.HostPushAndPop := by
  unfold Obligations.HostPushAndPop
  refine ⟨fun s b q d e he h => ?push, fun s q h => ⟨fun hd => ?idle, fun i rest hd hh hr ho hp hg => ?pop, fun hd ho => ?waits⟩⟩
  case push =>
    have K (p : Bool) (v : State) (hv : core v = core s) :
        ((queue s q).inAt ≠ some s.eclk → (queue s q).hostIn = [] → (queue s q).resetAt ≠ some s.eclk →
          if (queue s q).tail.length < 8 then
            (queue (pushHost q d p v) q).tail = (queue s q).tail ++ [mkItem d p false] ∧ (queue (pushHost q d p v) q).head = (queue s q).head ∧
            (queue (pushHost q d p v) q).ovr = (queue s q).ovr ∧ (queue (pushHost q d p v) q).inAt = some s.eclk
          else queue (pushHost q d p v) q = { queue s q with ovr := true }) ∧
        (((queue s q).inAt = some s.eclk ∨ (queue s q).hostIn ≠ []) →
          queue (pushHost q d p v) q = { queue s q with hostIn := (queue s q).hostIn ++ [(d, p)] }) := by
      rw [← queue_of_core hv, ← eclk_of_core hv]
      refine ⟨fun h1 h2 h3 => ?_, pushHost_later⟩
      rw [pushHost_now h1 h2]
      split
      · next hlt =>
        have e : pushItem q d p v = place q (mkItem d p false) v := if_pos hlt
        rw [e]
        exact place_places h3
      · next hge => exact pushItem_full hge
    simp only [List.mem_cons, List.not_mem_nil, or_false] at he
    rcases he with rfl | rfl
    · exact ⟨fun h1 h2 h3 => completes_regCore h rfl fun v _ hv => (K false v hv).1 h1 h2 h3,
        fun h1 => completes_regCore h rfl fun v _ hv => (K false v hv).2 h1⟩
    · exact ⟨fun h1 h2 h3 => completes_regCore h rfl fun v _ hv => (K true v hv).1 h1 h2 h3,
        fun h1 => completes_regCore h rfl fun v _ hv => (K true v hv).2 h1⟩
  case idle =>
    refine completes_hostCore h rfl fun v _ hv _ => ?_
    have hq : queue (portAnswer .host false v) q = queue s q := (portAnswer_queue ..).trans (queue_of_core hv q)
    rw [popHost_idle _ (by rw [hq]; exact hd), setResp_queue, queue_modQ_self, hq]
    exact ⟨rfl, rfl⟩
  case pop =>
    refine completes_hostCore h rfl fun v _ hv _ => ?_
    have hq : queue (portAnswer .host false v) q = queue s q := (portAnswer_queue ..).trans (queue_of_core hv q)
    have hk : (portAnswer .host false v).eclk = s.eclk := eclk_of_core ((core_portAnswer ..).trans hv)
    obtain ⟨t, ht, h1, h2⟩ := take_oldest (u := portAnswer .host false v) (q := q.val) (i := i) (rest := rest) (by rw [hq]; exact hd)
      (by rw [hq]; exact hh) hr (by rw [hq, hk]; exact ho) hp hg
    rw [popHost_item _ (by rw [hq]; exact hd) ht, setResp_queue, queue_modQ_self]
    rw [hq] at h2
    exact ⟨rfl, h1, h2, rfl⟩
  case waits =>
    refine completes_hostCore h rfl fun v _ hv hearly => ?_
    have hq : queue (portAnswer .host false v) q = queue s q := (portAnswer_queue ..).trans (queue_of_core hv q)
    have hk : (portAnswer .host false v).eclk = s.eclk := eclk_of_core ((core_portAnswer ..).trans hv)
    rw [popHost_none _ (by rw [hq]; exact hd) (take_waits (by rw [hq, hk]; exact ho)), ← hearly]
    exact ⟨rfl, hq⟩

end Sys2Proof.Laws
end

section
/-! PROOFS. The registers of a queue and of the spill pool. -/

namespace Sys2Proof.Laws
open Sys2Proof.Machine

variable {s u v : State} {q : Nat}

/-! ### A word with one bit set -/

theorem bit_setBit_ne {n : Nat} (w : BitVec n) {i j : Nat} (h : j ≠ i) : bit (setBit w i true) j = bit w j := by
  unfold bit setBit
  rw [if_pos rfl, BitVec.getLsbD_or, BitVec.getLsbD_ofNat, Nat.testBit_two_pow_of_ne (Ne.symm h)]
  simp
theorem bit_setBit_self {n : Nat} (w : BitVec n) {i : Nat} (h : i < n) : bit (setBit w i true) i = true := by
  unfold bit setBit
  rw [if_pos rfl, BitVec.getLsbD_or, BitVec.getLsbD_ofNat, Nat.testBit_two_pow_self]
  simp [h]
theorem fld_testBit {n : Nat} (w : BitVec n) (hi lo j : Nat) : (fld w hi lo).testBit j = (decide (j < hi - lo + 1) && bit w (j + lo)) := by
  unfold fld bit
  rw [Nat.testBit_mod_two_pow, Nat.testBit_div_two_pow]
  rfl
/-- The field holds none of the bit. -/
theorem fld_setBit {n : Nat} (w : BitVec n) {i hi lo : Nat} (hl : lo ≤ hi) (h : i < lo ∨ hi < i) : fld (setBit w i true) hi lo = fld w hi lo := by
  refine Nat.eq_of_testBit_eq fun j => ?_
  rw [fld_testBit, fld_testBit]
  by_cases hj : j < hi - lo + 1
  · rw [bit_setBit_ne w (by omega)]
  · rw [decide_eq_false hj]
    rfl

/-! ### The reset of a queue -/

theorem endListRead_queue (u : State) : queue (endListRead u) q = queue u q := by
  refine endListRead_only (S := fun p => submitAreas p ∨ p = .spill) (submitIn_self.mono fun _ h => .inl h) (.inr rfl) only_refl (.queue q) ?_
  rintro (((h | h) | h) | h) <;> cases h
theorem freeAll_queue (ps : List Page) : ∀ u : State, queue (ps.foldl (fun s p => freePage q p.num s) u) q = queue u q := by
  induction ps with
  | nil => exact fun u => rfl
  | cons p ps ih => exact fun u => (ih _).trans (freePage_queue ..)
/-- A queue that is reset holds nothing (R299). -/
theorem resetQueue_queue (q : Nat) (u : State) : queue (resetQueue q u) q =
    { queue u q with tail := [], mid := [], head := [], held := [], pages := [], openN := 0, openDel := 0, resetAt := some u.eclk,
                     hostIn := [], markv := false, allocf := false, sperr := false, wrMove := .none, rdMove := .none } := by
  have H (b : Bool) (v : State) (x : Queue) (h : queue v q = x) : queue ((queue u q).pages.foldl (fun s p => freePage q p.num s)
      (if b then endListRead v else v)) q = x := by
    rw [freeAll_queue]
    split
    · rw [endListRead_queue, h]
    · exact h
  exact H _ _ _ (queue_setQueue_self ..)
theorem unmarkQ_queue (q : Nat) (u : State) : ∃ ps, queue (unmarkQ q u) q = { queue u q with markv := false, held := [], pages := ps } := by
  obtain ⟨ps, h⟩ := freeHeld_queue q u
  exact ⟨ps, by rw [unmarkQ, queue_modQ_self, h]⟩
/-- A write of STE_Q_CFG with RESET and without UNMARK (R299). -/
theorem writeQcfg_reset {x : W64} (h48 : bit x 48 = true) (h49 : bit x 49 = false) (u : State) :
    writeQcfg q x u = resetQueue q (modQ q (qcfgRw x) u) := by
  unfold writeQcfg
  rw [h48, h49]
  rfl

/-! ### The spill pool -/

theorem modAll_keeps (f : Queue → Queue) (qs : List Nat) : ∀ u : State, (qs.foldl (fun s q => modQ q f s) u).spill = u.spill := by
  induction qs with
  | nil => exact fun u => rfl
  | cons q qs ih => exact fun u => (ih _).trans rfl
theorem writeSpillBase_busy {x : W64} (h : u.spill.inuse ≠ 0) : writeSpillBase x u = u := if_pos h
theorem writeSpillBase_spill {x : W64} (h : u.spill.inuse = 0) : (writeSpillBase x u).spill =
    { u.spill with base := BitVec.ofNat 22 (fld x 31 10), pages := if 8192 < fld x 45 32 then u.spill.pages else fld x 45 32,
                   freeHead := 0, freeN := 0, fresh := 0, reading := false, late := [] } := by
  have H (f : Queue → Queue) (qs : List Nat) (v : State) (hv : v.spill = u.spill) :
      ({ (qs.foldl (fun s q => modQ q f s) v) with spill := { (qs.foldl (fun s q => modQ q f s) v).spill with
          base := BitVec.ofNat 22 (fld x 31 10),
          pages := if 8192 < fld x 45 32 then (qs.foldl (fun s q => modQ q f s) v).spill.pages else fld x 45 32,
          freeHead := 0, freeN := 0, fresh := 0, reading := false, late := [] } } : State).spill =
      { u.spill with base := BitVec.ofNat 22 (fld x 31 10), pages := if 8192 < fld x 45 32 then u.spill.pages else fld x 45 32,
                     freeHead := 0, freeN := 0, fresh := 0, reading := false, late := [] } := by
    rw [modAll_keeps, hv]
  unfold writeSpillBase
  rw [if_neg (not_not.mpr h)]
  exact H _ _ _ rfl
theorem spill_of_core (h : core v = core s) : v.spill = s.spill := (congrArg State.spill h :)

/-- Settles O32: each register's act on the queue, or on the pool. -/
theorem queueAndPoolRegisters : Obligations.QueueAndPoolRegisters := by
  unfold Obligations.QueueAndPoolRegisters
  refine ⟨fun s b q x h => ⟨fun h49 => ?reset, ?unmark⟩, fun s b x => ⟨fun h hp => ?base, fun h => ?hwm⟩⟩
  case reset =>
    refine completes_regCore h rfl fun v _ hv => ?_
    have e49 : bit (setBit x 48 true) 49 = false := (bit_setBit_ne x (by decide)).trans h49
    rw [writeQcfg_reset (bit_setBit_self x (by decide)) e49, resetQueue_queue, queue_modQ_self]
    exact ⟨rfl, rfl, rfl, rfl, rfl, rfl, rfl, rfl, bit_setBit_ne x (by decide), fld_setBit x (by decide) (.inr (by decide)),
      bit_setBit_ne x (by decide), congrArg (BitVec.ofNat 16) (fld_setBit x (by decide) (.inr (by decide)))⟩
  case unmark =>
    refine completes_regCore h rfl fun v _ hv => ?_
    obtain ⟨ps, e⟩ := unmarkQ_queue q.val v
    rw [e, queue_of_core hv]
    exact ⟨rfl, rfl, rfl, rfl⟩
  case base =>
    refine completes_regCore h rfl fun v _ hv => ?_
    rw [← spill_of_core hv]
    split
    · next h0 =>
      rw [writeSpillBase_spill h0]
      exact ⟨rfl, if_neg (Nat.not_lt.mpr hp), rfl, rfl, h0⟩
    · next h0 =>
      rw [writeSpillBase_busy h0]
      exact ⟨rfl, fun k => queue_of_core hv k⟩
  case hwm =>
    refine completes_regCore h rfl fun v _ hv => ?_
    rw [← spill_of_core hv]
    rfl

end Sys2Proof.Laws
end

section
/-! PROOFS. The movements between a queue's parts. -/

namespace Sys2Proof.Laws
open Sys2Proof.Machine

variable {s u v : State} {q : Nat}

theorem submit_queue (x : Want) (u : State) (k : Nat) : queue (submit x u) k = queue u k :=
  submit_only submitIn_self only_refl (.queue k) (by rintro ((h | h) | h) <;> cases h)
theorem submit_spill (x : Want) (u : State) : (submit x u).spill = u.spill :=
  submit_only submitIn_self only_refl .spill (by rintro ((h | h) | h) <;> cases h)

/-- The oldest item of the tail goes behind the head (R282). -/
theorem tailToHead_moves {i : Item} {rest : List Item} (hr : running s = true) (hd : direct (queue s q) = true)
    (hm : (queue s q).moveAt ≠ some s.eclk) (ht : (queue s q).tail = i :: rest) (hp : parityOk i = true) :
    queue (tailToHead q s) q = { queue s q with
      tail := rest, head := (queue s q).head ++ [{ it := i, inReg := true, hg := none, ix := 0 }], moveAt := some s.eclk } := by
  unfold tailToHead moveDirect parityCheck
  rw [hr, hd, decide_eq_false hm, if_pos (by decide), ht]
  dsimp only
  rw [if_pos hp]
  exact queue_modQ_self ..

/-- A spill of n items of queue q that needs a page begins to read the free list (R284). -/
def pageRead (q n : Nat) (s : State) : State :=
  submit (spillWant (modQ q (fun x => { x with wrMove := .alloc n }) { s with spill := { s.spill with reading := true } }) q .freeRd false
    (pageAddr s s.spill.freeHead) 0x000F 0 false) (modQ q (fun x => { x with wrMove := .alloc n }) { s with spill := { s.spill with reading := true } })
theorem startSpill_reads (he : (queue s q).sperr = false) (hw : (queue s q).wrMove = .none) (ht : (queue s q).tail ≠ []) (hp : pageRoom (queue s q) = false)
    (hm : (queue s q).pages.length < (queue s q).maxpg) (hf : 0 < s.spill.freeN) (hr : s.spill.reading = false) :
    startSpill q s = pageRead q (min 4 (queue s q).tail.length) s := by
  have hn : min 4 (queue s q).tail.length ≠ 0 := by
    have := List.length_pos_iff.mpr ht
    omega
  unfold startSpill
  dsimp only
  rw [he, hw, decide_eq_false hn, hp, if_neg nofun, if_neg nofun, if_neg (Nat.not_le.mpr hm), if_pos hf, hr, if_neg nofun]
  rfl
theorem pageRead_keeps (q n : Nat) (s : State) : queue (pageRead q n s) q = { queue s q with wrMove := .alloc n } ∧
    (pageRead q n s).spill = { s.spill with reading := true } ∧
    ∃ a, (pageRead q n s).offered = s.offered ++ [a] ∧ a.owner = .spill q .freeRd ∧ a.wr = false ∧ a.colour = 15 := by
  unfold pageRead
  obtain ⟨a, ha, h1, h2, h3, -⟩ := submit_offered (spillWant (modQ q (fun x => { x with wrMove := .alloc n }) { s with spill := { s.spill with reading := true } })
    q .freeRd false (pageAddr s s.spill.freeHead) 0x000F 0 false) (modQ q (fun x => { x with wrMove := .alloc n }) { s with spill := { s.spill with reading := true } })
  refine ⟨?_, ?_, a, ha, h1, h2, h3⟩
  · rw [submit_queue, queue_modQ_self]
    rfl
  · rw [submit_spill]
    rfl
theorem halfGroupSpill_starts (hr : running s = true) (hd : direct (queue s q) = false)
    (h : 4 ≤ (queue s q).tail.length ∨ (queue s q).tail.any (·.pend) = true) : halfGroupSpill q s = startSpill q s := by
  unfold halfGroupSpill
  dsimp only
  rw [hr, hd]
  refine if_pos ?_
  rcases h with h | h
  · rw [decide_eq_true h]; rfl
  · rw [h, Bool.or_true]; rfl
theorem tailIdleFlush_starts (hr : running s = true) (hd : direct (queue s q) = false) (h : (queue s q).lastPut + 8 ≤ s.eclk)
    (ht : (queue s q).tail ≠ []) : tailIdleFlush q s = startSpill q s := by
  have he : (queue s q).tail.isEmpty = false := by simpa using ht
  unfold tailIdleFlush
  dsimp only
  rw [hr, hd, decide_eq_true h, he]
  rfl

/-- The half-group's data and its header, in this order (R283). -/
def refillWant (q p sl k : Nat) (s u : State) : Want :=
  match k with
  | 0 => spillWant u q (.dataRd 0) false (pageAddr s p + BitVec.ofNat 32 (64 + 32 * sl)) 0xFFFF 0 false
  | 1 => spillWant u q (.dataRd 1) false (pageAddr s p + BitVec.ofNat 32 (64 + 32 * sl) + 16) 0xFFFF 0 false
  | _ => spillWant u q .headRd false ((pageAddr s p + BitVec.ofNat 32 (4 + 2 * sl)) &&& 0xFFFFFFF0) 0xFFFF 0 false
/-- The state as the k-th of these reads has been offered. -/
def refillRead (q p sl k : Nat) (s u : State) : State := submit (refillWant q p sl k s u) u
theorem startRefill_reads {p sl : Nat} (h : refillSource (queue s q) = some (p, sl)) (hr : (queue s q).rdMove = .none) (hu : headUsed (queue s q) ≤ 4) :
    startRefill q s = refillRead q p sl 2 s (refillRead q p sl 1 s (refillRead q p sl 0 s
      (setQueue q { queue s q with rdMove := .read p sl none none none false 3 } s))) := by
  unfold startRefill
  dsimp only
  rw [h]
  dsimp only
  rw [hr, decide_eq_false (Nat.not_lt.mpr hu), if_neg (by simp)]
  rfl
theorem refillRead_offers (q p sl k : Nat) (s u : State) : queue (refillRead q p sl k s u) q = queue u q ∧
    ∃ a, (refillRead q p sl k s u).offered = u.offered ++ [a] ∧ a.owner = (refillWant q p sl k s u).owner ∧ a.wr = false ∧ a.colour = 15 ∧ a.mask = 0xFFFF := by
  obtain ⟨a, ha, h1, h2, h3, -, h5, -⟩ := submit_offered (refillWant q p sl k s u) u
  have hw : (refillWant q p sl k s u).wr = false ∧ (refillWant q p sl k s u).colour = 15 ∧ (refillWant q p sl k s u).mask = 0xFFFF := by
    unfold refillWant
    split <;> exact ⟨rfl, rfl, rfl⟩
  exact ⟨submit_queue .., a, ha, h1, h2.trans hw.1, h3.trans hw.2.1, h5.trans hw.2.2⟩

/-- Settles O33: the item that moves, the page that is asked for, and the half-group that is read. -/
theorem queueMovements : Obligations.QueueMovements := by
  unfold Obligations.QueueMovements
  refine fun s q hr => ⟨fun i rest hd hm ht hp => ?moves, fun hd he hw ht hp hm hf hrd i hi => ?spills, fun p sl h hrd hu => ?refills⟩
  case moves => exact ⟨_, rfl, tailToHead_moves hr hd hm ht hp⟩
  case spills =>
    have e := startSpill_reads he hw ht hp hm hf hrd
    rcases hi with ⟨rfl, h⟩ | ⟨rfl, h⟩
    · exact ⟨_, congrArg Host.Outcome.next ((halfGroupSpill_starts hr hd h).trans e), pageRead_keeps ..⟩
    · exact ⟨_, congrArg Host.Outcome.next ((tailIdleFlush_starts hr hd h ht).trans e), pageRead_keeps ..⟩
  case refills =>
    refine ⟨_, congrArg Host.Outcome.next ((if_pos hr).trans (startRefill_reads h hrd hu)), ?_⟩
    obtain ⟨hq0, a0, ha0, ho0, hw0, hc0, hm0⟩ := refillRead_offers q p sl 0 s (setQueue q { queue s q with rdMove := .read p sl none none none false 3 } s)
    generalize refillRead q p sl 0 s (setQueue q { queue s q with rdMove := .read p sl none none none false 3 } s) = u0 at *
    obtain ⟨hq1, a1, ha1, ho1, hw1, hc1, hm1⟩ := refillRead_offers q p sl 1 s u0
    generalize refillRead q p sl 1 s u0 = u1 at *
    obtain ⟨hq2, a2, ha2, ho2, hw2, hc2, hm2⟩ := refillRead_offers q p sl 2 s u1
    rw [hq2, hq1, hq0, ha2, ha1, ha0, queue_setQueue_self]
    refine ⟨rfl, [a0, a1, a2], by simp, ?_, ?_⟩
    · simp only [List.map_cons, List.map_nil, ho0, ho1, ho2]
      rfl
    · simp only [List.mem_cons, List.not_mem_nil, or_false]
      rintro a (rfl | rfl | rfl)
      · exact ⟨hw0, hc0, hm0⟩
      · exact ⟨hw1, hc1, hm1⟩
      · exact ⟨hw2, hc2, hm2⟩

end Sys2Proof.Laws
end

section
/-! PROOFS. The windows of the error classes, lasting faults and fences (R341 to R347). -/

namespace Sys2Proof.Laws
open Sys2Proof.Machine

variable {s u v : State} {b : Initiator}

/-! ### A write that waits for the next MCLK period (R412) -/

/-- An access that the port takes acts on the state that its check leaves. -/
theorem host_atPort {t w : Bool} {o : Nat} {k : Instr} {act : State → State} (h : HostOpen s b t w o) :
    hostAccess b t w o k act s = act (portAnswer b false (atPort s b t w o)) := by
  obtain ⟨h1, h2, h3⟩ := h
  unfold hostAccess atPort
  rw [h1, h2, if_neg nofun, if_neg nofun]
  by_cases e : exempt b t o = true
  · rw [if_pos e, if_pos e]
  · rw [if_neg e, if_neg e]
    exact if_pos (h3.resolve_left e)
theorem core_atPort (s : State) (b : Initiator) (t w : Bool) (o : Nat) : core (atPort s b t w o) = core s := core_ite rfl (core_check ..)
theorem portAnswer_keeps (b : Initiator) (e : Bool) (u : State) :
    (portAnswer b e u).errs = u.errs ∧ (portAnswer b e u).fences = u.fences ∧ (portAnswer b e u).eclk = u.eclk ∧
    (portAnswer b e u).mgt = u.mgt := by
  cases b <;> exact ⟨rfl, rfl, rfl, rfl⟩
/-- The write waits, and acts in the first ECLK of the next period. -/
theorem atNextMclk_mgtTake (i : Instr) (u : State) : atNextMclk (mgtTake i u) =
    mgtEffect i { u with eclk := 4 * (mclk u + 1), port := { u.port with mgtFrom := 4 * mclk u + 5, mgtWait := none } } := rfl

/-! ### Records and marks leave the classes and the fences -/

theorem offer_guard (p : Plane) (o : Option Nat) (r : Rec) (u : State) :
    (offer p o r u).errs = u.errs ∧ (offer p o r u).fences = u.fences ∧ (offer p o r u).eclk = u.eclk := by
  unfold offer
  split
  · exact ⟨rfl, rfl, rfl⟩
  · exact ⟨rfl, rfl, rfl⟩
theorem fenceRec_fences (t n d k : Nat) (u : State) : (fenceRec t n d k u).fences = u.fences := (offer_guard ..).2.1
theorem fenceRecs_fences (f : State → Nat → State) (h : ∀ v n, (f v n).fences = v.fences) (l : List Nat) :
    ∀ u : State, (l.foldl f u).fences = u.fences := by
  induction l with
  | nil => exact fun u => rfl
  | cons n l ih => exact fun u => (ih (f u n)).trans (h u n)

/-! ### Grid fences -/

/-- Setting the bits that a value has beyond the old one makes the two together. -/
theorem setBit_risen {w : Nat} (old new : BitVec w) : (risen old new).foldl (fun g n => setBit g n true) old = old ||| new := by
  have H (l : List Nat) : ∀ (g : BitVec w) (i : Nat), i < w →
      (l.foldl (fun g n => setBit g n true) g).getLsbD i = (g.getLsbD i || decide (i ∈ l)) := by
    induction l with
    | nil => exact fun g i _ => by simp
    | cons n l ih =>
      intro g i hi
      have e : (setBit g n true).getLsbD i = (g.getLsbD i || decide (i = n)) := by
        by_cases h : i = n
        · subst h
          rw [show (setBit g i true).getLsbD i = true from bit_setBit_self g hi, decide_eq_true rfl, Bool.or_true]
        · rw [show (setBit g n true).getLsbD i = g.getLsbD i from bit_setBit_ne g h, decide_eq_false h, Bool.or_false]
      rw [List.foldl_cons, ih _ i hi, e, Bool.or_assoc, ← Bool.decide_or]
      simp
  refine BitVec.eq_of_getLsbD_eq fun i hi => ?_
  rw [H _ _ i hi, BitVec.getLsbD_or]
  have hm : decide (i ∈ risen old new) = (new.getLsbD i && !old.getLsbD i) := by simp [risen, hi]
  rw [hm]
  cases old.getLsbD i
  · simp
  · simp
/-- The fences but for the Grid's and the notes of them that the host's rule keeps. -/
def offGrid (f : Fences) : Fences := { f with grid := 0, gridSet := 0, gridAt := none }
theorem setGridFences (l : List Nat) : ∀ u : State,
    (l.foldl (fun s n => setGridFence n s) u).fences.grid = l.foldl (fun g n => setBit g n true) u.fences.grid ∧
    offGrid (l.foldl (fun s n => setGridFence n s) u).fences = offGrid u.fences := by
  induction l with
  | nil => exact fun u => ⟨rfl, rfl⟩
  | cons n l ih => exact fun u => ⟨(ih _).1, (ih _).2⟩

/-! ### STE_FENCE -/

/-- The fences as a write leaves them while no lane is under test (R344, R347). -/
theorem writeFence_fences {w : W32} (h : laneTested u = none) :
    (writeFence w u).fences.lane = BitVec.ofNat 8 (fld w 7 0) ∧ (writeFence w u).fences.link = BitVec.ofNat 4 (fld w 11 8) ∧
    (writeFence w u).fences.grid = BitVec.ofNat 4 (fld w 15 12) ||| u.fences.grid ∧
    (writeFence w u).fences.gmode = BitVec.ofNat 4 (fld w 19 16) ∧
    (writeFence w u).fences.onLane = u.fences.onLane ∧ (writeFence w u).fences.onLink = u.fences.onLink := by
  unfold writeFence
  rw [h]
  dsimp only
  repeat rw [fenceRecs_fences _ (fun _ _ => fenceRec_fences ..)]
  obtain ⟨hg, ho⟩ := setGridFences (risen u.fences.grid (BitVec.ofNat 4 (fld w 15 12) ||| u.fences.grid))
    { u with mgt := { u.mgt with test := { u.mgt.test with liftPend := false } } }
  refine ⟨rfl, rfl, hg.trans ?_, rfl, (congrArg Fences.onLane ho :), (congrArg Fences.onLink ho :)⟩
  rw [setBit_risen, BitVec.or_comm, BitVec.or_assoc, BitVec.or_self]

/-! ### A lasting fault -/

theorem errCls_offer (p : Plane) (o : Option Nat) (r : Rec) (u : State) (k : Nat) : errCls (offer p o r u) k = errCls u k := by
  unfold errCls
  rw [(offer_guard ..).1]
/-- The class once its fault is found lasting (R342). -/
def asLasting (e : ErrClass) : ErrClass := { e with lasting := true, lastcnt := sat16 e.lastcnt, lastPend := none, fencePend := e.fence }
theorem setLasting_errCls (k n : Nat) (u : State) : errCls (setLasting k n u) k = asLasting (errCls u k) :=
  (errCls_offer ..).trans (errCls_setErr_self ..)
theorem setLasting_guard (k n : Nat) (u : State) : (setLasting k n u).fences = u.fences ∧ (setLasting k n u).eclk = u.eclk :=
  (offer_guard ..).2
theorem hardFence_errCls (k j : Nat) (u : State) : errCls (hardFence k u) j = errCls u j := by
  unfold hardFence
  dsimp only
  split
  · rfl
  · unfold errCls fenceRec offerNow
    rw [(offer_guard ..).1]
    unfold setFence
    split
    · rfl
    · split <;> rfl
theorem hardFence_lane {k : Nat} (h22 : 22 ≤ k) (h38 : k < 38) (u : State) : bit (hardFence k u).fences.lane (k / 2 - 11) = true := by
  have hf : fenced u (k / 2) = bit u.fences.lane (k / 2 - 11) := by
    unfold fenced
    rw [if_neg (by omega), if_pos (by omega)]
  have hs : setFence (k / 2) u = { u with fences := { u.fences with lane := setBit u.fences.lane (k / 2 - 11) true } } := by
    unfold setFence
    rw [if_neg (by omega), if_pos (by omega)]
  have hn : fenceable (k / 2) = true := by
    simp only [fenceable, Bool.or_eq_true, Bool.and_eq_true, decide_eq_true_eq]
    omega
  unfold hardFence
  dsimp only
  rw [hn, decide_eq_false (by omega : ¬ k / 2 = 24)]
  split
  · next h => exact hf.symm.trans (by simpa using h)
  · rw [fenceRec_fences, hs]
    exact bit_setBit_self _ (by omega)
/-- The class but for the note of a fence that is to be applied. -/
def unfenced (e : ErrClass) : ErrClass := { e with fencePend := false }
theorem applyFence_unfenced (k : Nat) (u : State) : unfenced (errCls (applyFence k u) k) = unfenced (errCls u k) := by
  unfold applyFence
  dsimp only
  split
  · rfl
  · rw [hardFence_errCls, errCls_setErr_self]
    rfl
theorem applyFence_lane {k : Nat} (hp : (errCls u k).fencePend = true) (hh : u.fences.hostAt ≠ some (mclk u)) (h22 : 22 ≤ k) (h38 : k < 38) :
    bit (applyFence k u).fences.lane (k / 2 - 11) = true := by
  unfold applyFence hostStands
  dsimp only
  rw [hp, decide_eq_false hh, Bool.and_false, if_neg nofun]
  exact hardFence_lane h22 h38 _
theorem lastingFault_eq {k m n : Nat} (h : (errCls u k).lastPend = some (m, n)) (hm : m < mclk u) :
    lastingFault k u = applyFence k (setLasting k n u) := by
  unfold lastingFault
  rw [h]
  exact if_pos hm

/-- Settles O38: the window that has passed, the lasting fault and its fence, and the two writes as they act in the next MCLK period. -/
theorem errorsAndFences : Obligations.ErrorsAndFences := by
  unfold Obligations.ErrorsAndFences
  refine fun s b k v w => ⟨fun h => ?window, fun m n hp hm => ?lasting, fun h => ?config, fun h ht => ?fence⟩
  case window =>
    refine ⟨_, rfl, ?_⟩
    have e : rolled s (errCls s k) = { errCls s k with count := 0, from_ := mclk s - (mclk s - (errCls s k).from_) % windowLen (errCls s k) } :=
      if_neg (Nat.not_lt.2 h)
    dsimp only [windowEnd]
    rw [errCls_setErr_self, e]
    exact ⟨rfl, rfl, rfl⟩
  case lasting =>
    obtain ⟨hf, he⟩ := setLasting_guard k n s
    have hc := setLasting_errCls k n s
    refine ⟨_, congrArg Host.Outcome.next (lastingFault_eq hp hm), ?_⟩
    have hu := applyFence_unfenced k (setLasting k n s)
    rw [hc] at hu
    refine ⟨(congrArg ErrClass.lasting hu :), (congrArg ErrClass.lastcnt hu :), (congrArg ErrClass.lastPend hu :), fun h22 h38 hfe hh => ?_⟩
    refine applyFence_lane ?_ ?_ h22 h38
    · rw [hc]; exact hfe
    · rw [hf, mclk, he]; exact hh
  case config =>
    refine ⟨_, congrArg Host.Outcome.next (host_atPort h), ?_⟩
    obtain ⟨he, -, hk, -⟩ := portAnswer_keeps b false (atPort s b false true (errcOff k 0))
    have hc := eclk_of_core (core_atPort s b false true (errcOff k 0))
    generalize atPort s b false true (errcOff k 0) = x at he hk hc
    generalize portAnswer b false x = y at he hk
    have hm : mclk y = mclk s := by unfold mclk; rw [hk, hc]
    have hm1 : 4 * (mclk s + 1) / 4 = mclk s + 1 := Nat.mul_div_cancel_left _ (by decide)
    have hx : errCls y k = errCls x k := by unfold errCls; rw [he]
    rw [atNextMclk_mgtTake]
    dsimp only [mgtEffect]
    rw [writeErrc, errCls_setErr_self, hm]
    refine ⟨hx, (congrArg (fun m => 4 * m + 5) hm :), rfl, hm1, rfl, ?_, (congrArg ErrClass.total hx :), (congrArg ErrClass.lasting hx :)⟩
    rw [← hx]
    rfl
  case fence =>
    refine ⟨_, congrArg Host.Outcome.next (host_atPort h), ?_⟩
    obtain ⟨-, hf, hk, hg⟩ := portAnswer_keeps b false (atPort s b false true 0x7080)
    have hc := core_atPort s b false true 0x7080
    generalize atPort s b false true 0x7080 = x at hf hk hg hc
    generalize portAnswer b false x = y at hf hk hg
    have hfs : y.fences = s.fences := hf.trans (congrArg State.fences hc :)
    have hm : mclk y = mclk s := by unfold mclk; rw [hk, eclk_of_core hc]
    have ht' : laneTested y = none := by
      unfold laneTested
      rw [hg, show x.mgt.test = s.mgt.test from (congrArg (·.mgt.test) hc :)]
      exact ht
    rw [atNextMclk_mgtTake]
    dsimp only [mgtEffect]
    obtain ⟨h1, h2, h3, h4, h5, h6⟩ := writeFence_fences (w := w)
      (u := { y with eclk := 4 * (mclk y + 1), port := { y.port with mgtFrom := 4 * mclk y + 5, mgtWait := none } }) ht'
    exact ⟨hfs, (congrArg (fun m => 4 * m + 5) hm :), h1, h2, h3.trans (congrArg (_ ||| ·.grid) hfs), h4, h5.trans (congrArg (·.onLane) hfs),
      h6.trans (congrArg (·.onLink) hfs)⟩

end Sys2Proof.Laws
end

section
/-! PROOFS. COMMIT: the rules that a switch puts in force (R314, R315). -/

namespace Sys2Proof.Laws
open Sys2Proof.Machine

variable {s u v : State} {b : Initiator}

theorem portAnswer_atlas (b : Initiator) (e : Bool) (u : State) : (portAnswer b e u).atlas = u.atlas := by
  cases b <;> rfl
/-- A register's write that the port takes acts on the state that its check leaves. -/
theorem completes_regAt {i k : Instr} {o : Nat} {act : State → State} {P : State → Prop} (h : HostOpen s b false true o)
    (he : exec i s = .next (regWrite b o k act s))
    (H : ∀ v, core v = core s → v.atlas = (atPort s b false true o).atlas → P (act v)) : Completes i s P := by
  have hc := (core_portAnswer b false _).trans (core_atPort s b false true o)
  have ha : (portAnswer b false (atPort s b false true o)).atlas = (atPort s b false true o).atlas := portAnswer_atlas ..
  generalize hx : portAnswer b false (atPort s b false true o) = x at hc ha
  refine ⟨_, he.trans (congrArg _ (host_atPort h)), ?_⟩
  rw [hx]
  split
  · exact H _ hc ha
  · exact H _ hc ha

/-! ### What lookups leave of the Atlas -/

/-- The Atlas without its caches, its words and what is noted of their errors. -/
def rules (a : Atlas) : Atlas :=
  { a with caches := [], grid := [], sheets := [], trust := [], colours := [], soft := [], bad := [], gridUndef := [] }
theorem putWord_rules (k : Nat) (x : W64) (u : State) : rules (putWord k x u).atlas = rules u.atlas := by
  unfold putWord
  split
  · rfl
  split
  · rfl
  split
  · rfl
  split <;> rfl
theorem initGrid_rules (a : Nat) (u : State) : rules (initGrid a u).1.atlas = rules u.atlas := by
  unfold initGrid
  split
  · rfl
  split
  · rfl
  split
  · rfl
  · exact putWord_rules ..
theorem beginLookup_rules (q : Ask) (u : State) : rules (beginLookup q u).1.atlas = rules u.atlas := initGrid_rules ..
theorem offer_atlas (p : Plane) (o : Option Nat) (r : Rec) (u : State) : (offer p o r u).atlas = u.atlas := by
  unfold offer
  split <;> rfl
theorem offer_lcache (p : Plane) (o : Option Nat) (r : Rec) (u : State) : (offer p o r u).lcache = u.lcache := by
  unfold offer
  split <;> rfl
theorem corrected_atlas (n d : Nat) (x : W64) (u : State) : (corrected n d x u).atlas = u.atlas := by
  unfold corrected
  dsimp only
  split
  · exact offer_atlas ..
  · rfl
theorem foundSoft_rules (u : State) (w : Nat × Nat) : rules (foundSoft u w).atlas = rules u.atlas := by
  unfold foundSoft
  split
  · rw [corrected_atlas]
    rfl
  · rfl
theorem check_rules {q : Ask} (ha : allowed (check q u).2 = true) : rules (check q u).1.atlas = rules u.atlas := by
  have hf (l : List (Nat × Nat)) : ∀ v, rules (l.foldl foundSoft v).atlas = rules v.atlas := by
    induction l with
    | nil => exact fun v => rfl
    | cons w l ih => exact fun v => (ih _).trans (foundSoft_rules v w)
  have he : (check q u).1 = (lookupWords (beginLookup q u).1 q).foldl foundSoft (beginLookup q u).1 := if_pos ha
  rw [he]
  exact (hf _ _).trans (beginLookup_rules ..)
theorem atPort_rules {t w : Bool} {o : Nat} (h : HostOpen s b t w o) : rules (atPort s b t w o).atlas = rules s.atlas := by
  unfold atPort
  by_cases e : exempt b t o = true
  · rw [if_pos e]
  · rw [if_neg e]
    exact check_rules (h.2.2.resolve_left e)
theorem commitGo_phase (g : BitVec 4) (u : State) : if u.atlas.phase = .idle then (commitGo g u).atlas.phase = .prep g u.eclk
    else (commitGo g u).atlas.phase = u.atlas.phase ∧ (commitGo g u).atlas.cmdlost = true := by
  unfold commitGo committing
  by_cases h : u.atlas.phase = .idle
  · rw [if_pos h, h]
    rfl
  · rw [if_neg h, decide_eq_false h]
    exact ⟨rfl, rfl⟩

/-! ### The switch -/

/-- The core without the fences, which a switch may lift. -/
def unfencedCore (u : State) : State := { core u with fences := {} }
theorem liftBank_keeps (n : Nat) (u : State) : (liftBank n u).atlas = u.atlas ∧ unfencedCore (liftBank n u) = unfencedCore u := by
  unfold liftBank
  split
  · exact ⟨offer_atlas .., congrArg (fun x : State => { x with fences := {} }) (core_offer ..)⟩
  · exact ⟨rfl, rfl⟩
theorem resetBank_keeps (u : State) (n : Nat) : rules (resetBank u n).atlas = rules u.atlas ∧ unfencedCore (resetBank u n) = unfencedCore u := by
  unfold resetBank
  dsimp only
  split
  · exact ⟨rfl, rfl⟩
  · obtain ⟨ha, hc⟩ := liftBank_keeps n u
    exact ⟨(congrArg rules ha :), hc⟩
theorem resetBanks_keep (l : List Nat) : ∀ u : State, rules (l.foldl resetBank u).atlas = rules u.atlas ∧ unfencedCore (l.foldl resetBank u) = unfencedCore u := by
  induction l with
  | nil => exact fun u => ⟨rfl, rfl⟩
  | cons n l ih => exact fun u => ⟨(ih _).1.trans (resetBank_keeps u n).1, (ih _).2.trans (resetBank_keeps u n).2⟩
/-- The rules in force after a switch of u. -/
structure Switched (u v : State) : Prop where
  uncov : v.atlas.uncov = u.atlas.uncovStg
  win : v.atlas.win = u.atlas.winStg
  gdef : v.atlas.gdef = u.atlas.gdefStg
  epoch : v.atlas.epoch = u.atlas.epoch + 1
  lcache : v.lcache = []
  code : v.atlas.code = 0
  phase : v.atlas.phase = .copying u.eclk
theorem switch_switched (g : BitVec 4) (u : State) : Switched u (switch g u) := by
  obtain ⟨ha, hc⟩ := resetBanks_keep ([0, 1, 2, 3].filter (fun n => g.getLsbD n)) u
  exact ⟨(congrArg Atlas.uncovStg ha :), (congrArg Atlas.winStg ha :), (congrArg Atlas.gdefStg ha :), (congrArg (·.epoch + 1) ha :), rfl, rfl,
    (congrArg (fun x : State => CommitPhase.copying x.eclk) hc :)⟩
theorem switch_keeps (g : BitVec 4) (u : State) : (switch g u).atlas.caches = [] ∧ (switch g u).offered = u.offered ∧
    (switch g u).fetches = u.fetches ∧ (switch g u).eclk = u.eclk := by
  obtain ⟨-, hc⟩ := resetBanks_keep ([0, 1, 2, 3].filter (fun n => g.getLsbD n)) u
  exact ⟨rfl, (congrArg State.offered hc :), (congrArg State.fetches hc :), (congrArg State.eclk hc :)⟩

/-! ### Lookups that begin again -/

/-- The rules in force are the same, and the leg cache. -/
structure RulesKept (u v : State) : Prop where
  atlas : rules v.atlas = rules u.atlas
  lcache : v.lcache = u.lcache
theorem RulesKept.trans {w : State} (h : RulesKept u v) (g : RulesKept v w) : RulesKept u w :=
  ⟨g.atlas.trans h.atlas, g.lcache.trans h.lcache⟩
theorem rulesKept_fold {α : Type} {f : State → α → State} (h : ∀ v a, RulesKept v (f v a)) (l : List α) : ∀ u, RulesKept u (l.foldl f u) := by
  induction l with
  | nil => exact fun u => ⟨rfl, rfl⟩
  | cons a l ih => exact fun u => (h u a).trans (ih _)
theorem beginLookup_lcache (q : Ask) (u : State) : (beginLookup q u).1.lcache = u.lcache := (congrArg State.lcache (core_beginLookup q u) :)
theorem lookAgain_rules (u : State) (a : Acc) : RulesKept u (lookAgain u a) := by
  unfold lookAgain
  split
  · split
    · exact ⟨rfl, rfl⟩
    · exact ⟨beginLookup_rules .., beginLookup_lcache ..⟩
  · exact ⟨rfl, rfl⟩
theorem fetchAgain_rules (u : State) (f : Fetch) : RulesKept u (fetchAgain u f) := by
  unfold fetchAgain
  split
  · exact ⟨rfl, rfl⟩
  · exact ⟨beginLookup_rules .., beginLookup_lcache ..⟩
theorem lookupsAgain_rules (u : State) : RulesKept u (lookupsAgain u) :=
  (rulesKept_fold lookAgain_rules _ _).trans (rulesKept_fold fetchAgain_rules _ _)
theorem Switched.kept {w : State} (h : Switched u v) (g : RulesKept v w) : Switched u w := by
  obtain ⟨ha, hl⟩ := g
  exact ⟨(congrArg Atlas.uncov ha :).trans h.uncov, (congrArg Atlas.win ha :).trans h.win, (congrArg Atlas.gdef ha :).trans h.gdef,
    (congrArg Atlas.epoch ha :).trans h.epoch, hl.trans h.lcache, (congrArg Atlas.code ha :).trans h.code, (congrArg Atlas.phase ha :).trans h.phase⟩
/-- Lookups that are decided do not begin again. -/
theorem fold_same {α : Type} {f : State → α → State} {l : List α} (h : ∀ a ∈ l, f u a = u) : l.foldl f u = u := by
  induction l with
  | nil => rfl
  | cons a l ih =>
    rw [List.foldl_cons, h a List.mem_cons_self]
    exact ih fun x hx => h x (List.mem_cons_of_mem _ hx)
theorem lookupsAgain_decided (ho : ∀ a ∈ u.offered, a.decided = true) (hf : ∀ f ∈ u.fetches, f.decided = true) : lookupsAgain u = u := by
  have h1 : ∀ a ∈ u.offered, lookAgain u a = u := by
    intro a ha
    unfold lookAgain
    split
    · exact if_pos (ho a ha)
    · rfl
  unfold lookupsAgain
  dsimp only
  rw [fold_same h1]
  exact fold_same fun f hm => if_pos (hf f hm)
theorem fetchAgain_offered (u : State) (f : Fetch) : (fetchAgain u f).offered = u.offered := by
  unfold fetchAgain
  split
  · rfl
  · exact (congrArg State.offered (core_beginLookup (askFetch f) u) :)
theorem fetchesAgain_offered (l : List Fetch) : ∀ u, (l.foldl fetchAgain u).offered = u.offered := by
  induction l with
  | nil => exact fun u => rfl
  | cons f l ih => exact fun u => (ih _).trans (fetchAgain_offered u f)
/-- With empty caches no lookup finds its word there. -/
theorem beginLookup_latency (q : Ask) (h : u.atlas.caches = []) : 12 ≤ (beginLookup q u).2 := by
  have hm : (touchCache q.point (cacheKey u q.addr.toNat) u).2 = false := by
    unfold touchCache
    rw [h]
    exact decide_eq_false (Nat.not_le.2 (Nat.lt_add_of_pos_right (by decide)))
  unfold beginLookup
  dsimp only
  rw [hm]
  exact Nat.le_add_right 12 _
theorem lookAgain_undecided {a : Acc} {q : Ask} (hq : a.ask = some q) (hd : a.decided = false) : (lookAgain u a).offered =
    modWhere (fun x => decide (x = a)) (fun x => { x with readyAt := u.eclk + (beginLookup q u).2 }) (beginLookup q u).1.offered := by
  unfold lookAgain
  rw [hq, hd]
  rfl
theorem lookupsAgain_one {a : Acc} {q : Ask} (hc : u.atlas.caches = []) (ho : u.offered = [a]) (hq : a.ask = some q) (hd : a.decided = false) :
    ∃ n, 12 ≤ n ∧ (lookupsAgain u).offered = [{ a with readyAt := u.eclk + n }] := by
  refine ⟨(beginLookup q u).2, beginLookup_latency q hc, ?_⟩
  unfold lookupsAgain
  dsimp only
  rw [fetchesAgain_offered, ho]
  refine (lookAgain_undecided hq hd).trans ?_
  rw [show (beginLookup q u).1.offered = [a] from (congrArg State.offered (core_beginLookup q u) :).trans ho]
  exact congrArg (fun x => [x]) (if_pos (decide_eq_true rfl))

/-! ### A COMMIT that is refused -/

theorem refuseCommit_atlas (code : BitVec 3) (x : Nat) (u : State) :
    (refuseCommit code x u).atlas.code = code ∧ (refuseCommit code x u).atlas.index = x ∧ (refuseCommit code x u).atlas.phase = .idle ∧
    (refuseCommit code x u).atlas.epoch = u.atlas.epoch ∧ (refuseCommit code x u).atlas.uncov = u.atlas.uncov ∧ (refuseCommit code x u).lcache = u.lcache := by
  unfold refuseCommit
  dsimp only
  split
  · unfold stagingLost
    dsimp only
    split
    · rw [offerNow, offer_atlas]
      exact ⟨rfl, rfl, rfl, rfl, rfl, offer_lcache ..⟩
    · exact ⟨rfl, rfl, rfl, rfl, rfl, rfl⟩
  · exact ⟨rfl, rfl, rfl, rfl, rfl, rfl⟩
section
variable {g : BitVec 4} {e : Nat} (hp : s.atlas.phase = .prep g e) (ht : testBlocks g s = false)
include hp ht
theorem commitSwitch_accepted (hn : commitRefused s = none) : commitSwitch s = lookupsAgain (switch g s) := by
  unfold commitSwitch
  rw [hp]
  dsimp only
  rw [ht, hn]
  exact if_neg nofun
theorem commitSwitch_refused {code : BitVec 3} {x : Nat} (hs : commitRefused s = some (code, x)) : commitSwitch s = refuseCommit code x s := by
  unfold commitSwitch
  rw [hp]
  dsimp only
  rw [ht, hs]
  exact if_neg nofun
end

/-- Settles O35: the switch or its refusal, and the lookups that begin again under the new rules. -/
theorem commitSwitchesTheRules : Obligations.CommitSwitchesTheRules := by
  unfold Obligations.CommitSwitchesTheRules
  refine fun s b g => ⟨fun h => ?go, fun e hr hp ht => ?switch⟩
  case go =>
    refine completes_regAt h rfl fun v hv ha => ?_
    have hp : v.atlas.phase = s.atlas.phase := (congrArg Atlas.phase ((congrArg rules ha).trans (atPort_rules h)) :)
    have := commitGo_phase g v
    rw [hp, eclk_of_core hv] at this
    exact this
  case switch =>
    have he : exec .commitSwitch s = .next (commitSwitch s) := congrArg Host.Outcome.next (if_pos hr)
    refine ⟨_, he, fun hn => ?_, fun code index hs => ?_⟩
    · rw [commitSwitch_accepted hp ht hn]
      obtain ⟨k1, k2, k3, k4⟩ := switch_keeps g s
      obtain ⟨h1, h2, h3, h4, h5, h6, h7⟩ := (switch_switched g s).kept (lookupsAgain_rules _)
      refine ⟨h1, h2, h3, h4, h5, h6, h7, fun ho hf => ?_, fun a q ho hq hd => ?_⟩
      · rw [lookupsAgain_decided (by rwa [k2]) (by rwa [k3])]
        exact ⟨k1, k2, k3⟩
      · rw [← k4]
        exact lookupsAgain_one k1 (k2.trans ho) hq hd
    · rw [commitSwitch_refused hp ht hs]
      exact refuseCommit_atlas code index s

end Sys2Proof.Laws
end

section
/-! PROOFS. Readiness, the spread depth and STE_LEG_INV; flash and the debug path; telemetry. -/

namespace Sys2Proof.Laws
open Sys2Proof.Machine

variable {s u v : State} {b : Initiator} {c : Nat}

/-! ### Readiness, spread and invalidation -/

theorem lcache_of_core (h : core v = core s) : v.lcache = s.lcache := (congrArg State.lcache h :)
/-- The lines in the leg cache are those before, without the one named. -/
theorem mem_invalidate_lcache (a : W32) (u : State) (e : CLine) : e ∈ (invalidate a u).lcache ↔ e ∈ u.lcache ∧ e.addr ≠ lineOf a := by
  unfold invalidate
  rw [List.mem_filter, bne_iff_ne]
/-- A fetch of the line that is named is stale. -/
theorem invalidate_stale {a : W32} {f : Fetch} (hf : f ∈ (invalidate a u).fetches) (ha : f.addr = lineOf a)
    (hk : f.kind = .demand ∨ f.kind = .prefetch ∨ f.kind = .retry) : f.stale = true := by
  obtain ⟨g, -, rfl⟩ := List.mem_map.1 hf
  split at ha
  · next h => rw [if_pos h]
  · next h =>
    rw [if_neg h] at hk
    exact absurd (by simp [ha, hk]) h

/-- Settles O48: what is set, the depth that waits and comes into force, and the line that leaves the leg cache. -/
theorem readinessSpreadAndInvalidation : Obligations.ReadinessSpreadAndInvalidation := by
  unfold Obligations.ReadinessSpreadAndInvalidation
  refine fun s b l n depth addr => ⟨fun h => ?ready, fun h => ?write, fun d hd h => ?apply, fun h => ?inv⟩
  case ready =>
    have he (x : ReadyBit) : exec (.readyBitSet x) s = .next (setReady x s) := congrArg Host.Outcome.next (if_neg (by rw [h]; nofun))
    exact ⟨⟨_, he .ctx, rfl⟩, ⟨_, he .grid, rfl⟩, ⟨_, he .grat, rfl⟩, ⟨_, he (.slot n), rfl⟩, ⟨_, he (.lane l), lane_setLane_self ..⟩⟩
  case write =>
    refine completes_regCore h rfl fun v _ hv => ?_
    unfold writeSpread
    rw [glob_of_core hv]
    split
    · exact glob_of_core hv
    · rfl
  case apply =>
    have e : spreadApply s = { s with glob := { s.glob with depth := d, depthNew := none, profile := 0 } } := by
      unfold spreadApply
      rw [hd]
      exact if_pos (by simpa using h)
    exact ⟨_, congrArg Host.Outcome.next e, rfl⟩
  case inv =>
    refine completes_regCore h rfl fun v _ hv => ⟨fun e => ?_, fun f hf ha hk => invalidate_stale hf ha hk⟩
    rw [mem_invalidate_lcache, lcache_of_core hv]

/-! ### Flash -/

theorem bit_clearBit_self {n : Nat} (w : BitVec n) {i : Nat} (h : i < n) : bit (setBit w i false) i = false := by
  unfold bit setBit
  rw [if_neg nofun, BitVec.getLsbD_and, BitVec.getLsbD_not, BitVec.getLsbD_ofNat, Nat.testBit_two_pow_self]
  simp [h]
theorem bit_clearBit_ne {n : Nat} (w : BitVec n) {i j : Nat} (h : j ≠ i) : bit (setBit w i false) j = bit w j := by
  unfold bit setBit
  rw [if_neg nofun, BitVec.getLsbD_and, BitVec.getLsbD_not, BitVec.getLsbD_ofNat, Nat.testBit_two_pow_of_ne (Ne.symm h)]
  by_cases hj : j < n
  · simp [hj]
  · rw [BitVec.getLsbD_of_ge w j (Nat.le_of_not_lt hj)]
    rfl
/-- What holds channels, and what lets them go on, changes contexts and what their sequencers share. -/
def seqsAreas : Set Area := fun p => ∃ c, seqAreas c p
theorem seqIn_all (c : Nat) : SeqIn c seqsAreas := (seqIn_self c).mono fun _ h => ⟨c, h⟩
theorem flash_notMem_seqs : Area.flash ∉ seqsAreas := by
  rintro ⟨c, ((h | h) | ⟨_, h⟩) | (h | h) | h | h | h | h | h⟩ <;> cases h
theorem continueAll_flash (l : List Nat) (u : State) : (l.foldl (fun s c => continueCh c (leaveWait c s)) u).flash = u.flash :=
  only_foldl (S := seqsAreas) l (fun _ c H => continueCh_only (seqIn_all c) (leaveWait_only (seqIn_all c).ctx H)) only_refl .flash flash_notMem_seqs
theorem flashHolds_keep (l : List Fetch) (u : State) :
    (l.foldl (fun s f => (fetchWaiters f).foldl (fun s c => flashHold c f.addr s) s) u).flash = u.flash ∧
    (l.foldl (fun s f => (fetchWaiters f).foldl (fun s c => flashHold c f.addr s) s) u).fetches = u.fetches := by
  have H := only_foldl (S := fun p => ∃ c, p = .ctx c) (s := u) l
    (fun _ f H => only_foldl (fetchWaiters f) (fun _ c H => flashHold_only (a := f.addr) ⟨c, rfl⟩ H) H) only_refl
  exact ⟨H .flash (by rintro ⟨_, h⟩; cases h), H .fetches (by rintro ⟨_, h⟩; cases h)⟩
/-- Of the bank's prefetches, those that were issued or denied stay. -/
theorem bankSet_keeps {k : Nat} (h : bit u.flash.busy k = false) : (bankSet k u).flash = { u.flash with busy := setBit u.flash.busy k true } ∧
    (bankSet k u).fetches = modWhere (fun f => inBank u k f && f.issued) (fun f => { f with busySeen := true })
      (u.fetches.filter (fun f => !(inBank u k f && decide (f.kind = .prefetch) && !f.issued && !f.denied))) := by
  unfold bankSet
  rw [if_neg (by rw [h]; nofun)]
  obtain ⟨h1, h2⟩ := flashHolds_keep
    (List.filter (fun f => inBank u k f && !f.issued && !f.denied) (modWhere (fun f => inBank u k f && f.issued) (fun f => { f with busySeen := true })
      (u.fetches.filter (fun f => !(inBank u k f && decide (f.kind = .prefetch) && !f.issued && !f.denied)))))
    { u with flash := { u.flash with busy := setBit u.flash.busy k true }
             fetches := modWhere (fun f => inBank u k f && f.issued) (fun f => { f with busySeen := true })
               (u.fetches.filter (fun f => !(inBank u k f && decide (f.kind = .prefetch) && !f.issued && !f.denied))) }
  exact ⟨h1, h2⟩
theorem bankSet_prefetch {k : Nat} {f : Fetch} (h : bit u.flash.busy k = false) (hf : f ∈ (bankSet k u).fetches) (hb : inBank u k f = true)
    (hk : f.kind = .prefetch) (hd : f.denied = false) : f.issued = true := by
  rw [(bankSet_keeps h).2] at hf
  obtain ⟨g, hg, rfl⟩ := List.mem_map.1 hf
  have hg := (List.mem_filter.1 hg).2
  by_cases hi : (inBank u k g && g.issued) = true
  · rw [if_pos hi]
    exact (Bool.and_eq_true_iff.1 hi).2
  · rw [if_neg hi] at hb hk hd ⊢
    simpa [hb, hk, hd] using hg
theorem bankClear_flash {k : Nat} (h : bit u.flash.busy k = true) : (bankClear k u).flash = { u.flash with busy := setBit u.flash.busy k false } := by
  unfold bankClear
  rw [h, if_neg nofun]
  exact continueAll_flash ..
/-- A channel that is not OFF and not in FAULT, and has no fault, raises one. -/
theorem faultPc_raises {code : Nat} (ho : (ctx u c).r.state ≠ .off) (hf : (ctx u c).r.state ≠ .fault) (hn : (ctx u c).w.faulting = none) :
    (ctx (faultPc c code u) c).r.fcode = BitVec.ofNat 8 code ∧ (ctx (faultPc c code u) c).w.faulting.isSome = true := by
  have hgo : ¬((ctx u c).w.faulting.isSome || decide ((ctx u c).r.state = .off) || decide ((ctx u c).r.state = .fault)) = true := by
    simp [ho, hf, hn]
  unfold faultPc raiseFault
  dsimp only
  rw [if_neg hgo, giveUpReads_ctx, ctx_setCtx_self]
  exact ⟨rfl, rfl⟩
theorem faultPc_flash (c code : Nat) (u : State) : (faultPc c code u).flash = u.flash :=
  faultPc_only (faultIn_self c) only_refl .flash (by
    rintro (h | ⟨_, h⟩ | h | h | h | h)
    · exact flash_notMem_seqs ⟨c, h⟩
    all_goals cases h)

/-! ### The debug path -/

theorem submit_dbg (x : Want) (u : State) : (submit x u).dbg = u.dbg :=
  submit_only submitIn_self only_refl .dbg (by rintro ((h | h) | h) <;> cases h)
theorem debugStart_enters {wr : Bool} {a : W32} {n : Nat} {d : W128} (hr : inReset u = false) (hp : u.dbg.path.length < 4) :
    (debugStart wr a n d u).dbg.path = u.dbg.path ++ [⟨u.dbg.nextId, wr, a, n, none⟩] ∧
    ∃ x, (debugStart wr a n d u).offered = u.offered ++ [x] ∧ x.owner = .debug u.dbg.nextId ∧ x.wr = wr ∧ x.colour = 14 ∧ x.mask = maskAt (a.toNat % 16) n := by
  unfold debugStart
  rw [hr, decide_eq_false (Nat.not_le.2 hp)]
  obtain ⟨x, h1, h2, h3, h4, -, h5, -⟩ := submit_offered (debugWant u.dbg.nextId wr a n d)
    { u with dbg := { u.dbg with nextId := u.dbg.nextId + 1, path := u.dbg.path ++ [⟨u.dbg.nextId, wr, a, n, none⟩] } }
  exact ⟨congrArg Dbg.path (submit_dbg ..), x, h1, h2, h3, h4, h5⟩

/-- Settles O46: the bank's prefetches, its mark, the channel's fault, and the access on the path. -/
theorem flashAndDebug : Obligations.FlashAndDebug := by
  unfold Obligations.FlashAndDebug
  refine fun s b c wr addr size d => ⟨fun h => ?set, fun h => ?clear, fun hs hw ht hn => ?timeout, fun hd hr hp => ?debug⟩
  case set =>
    have hf := (bankSet_keeps h).1
    refine ⟨_, rfl, (congrArg (bit ·.busy b) hf).trans (bit_setBit_self _ b.isLt), (congrArg (·.tmocnt) hf :), fun f hm => bankSet_prefetch h hm⟩
  case clear =>
    have hf := bankClear_flash h
    exact ⟨_, rfl, (congrArg (bit ·.busy b) hf).trans (bit_clearBit_self _ b.isLt),
      fun k hk => (congrArg (bit ·.busy k) hf).trans (bit_clearBit_ne _ hk)⟩
  case timeout =>
    obtain ⟨h1, h2⟩ := faultPc_raises (code := 0x22) (by rw [hs]; nofun) (by rw [hs]; nofun) hn
    have e : flashTimeout c s = { faultPc c 0x22 s with flash := { (faultPc c 0x22 s).flash with tmocnt := sat16 (faultPc c 0x22 s).flash.tmocnt } } :=
      if_pos (by simp [hs, hw, ht])
    exact ⟨_, congrArg Host.Outcome.next e, h1, h2, (congrArg (sat16 ·.tmocnt) (faultPc_flash ..) :)⟩
  case debug => exact ⟨_, if_pos hd, debugStart_enters hr hp⟩

/-! ### Telemetry -/

theorem teleAsk_pend (m : Nat) (u : State) : (teleAsk m u).mgt.tele = { u.mgt.tele with pend := some (u.mgt.tele.pend.getD m) } := by
  have e : u.mgt.tele.pend.orElse (fun _ => some m) = some (u.mgt.tele.pend.getD m) := by
    cases u.mgt.tele.pend
    · rfl
    · rfl
  exact congrArg (fun x => { u.mgt.tele with pend := x }) e
theorem tfind_cons {α : Type} (e : Nat × α) (l : Tbl α) (k : Nat) : tfind? (e :: l) k = if e.1 = k then some e.2 else tfind? l k := rfl
theorem tfind_none {α : Type} {l : Tbl α} {k : Nat} (h : ∀ e ∈ l, e.1 ≠ k) : tfind? l k = none := by
  induction l with
  | nil => rfl
  | cons e l ih =>
    rw [tfind_cons, if_neg (h e List.mem_cons_self)]
    exact ih fun x hx => h x (List.mem_cons_of_mem _ hx)
/-- A table written entry by entry, under rising keys, reads as its entries. -/
theorem tget_written {α : Type} (f : α → W32) (l : Tbl α) (hl : l.Pairwise (fun a b => a.1 < b.1)) (k : Nat) :
    ∀ t : Tbl W32, tget 0 ((l.map (fun e => (e.1, f e.2))).foldl (fun t e => tset 0 t e.1 e.2) t) k = ((tfind? l k).map f).getD (tget 0 t k) := by
  induction hl with
  | nil => exact fun t => rfl
  | @cons e l he hl ih =>
    intro t
    rw [List.map_cons, List.foldl_cons, ih, tfind_cons]
    by_cases hj : e.1 = k
    · have hn : tfind? l k = none := tfind_none fun x hx => Nat.ne_of_gt (hj ▸ he x hx)
      rw [if_pos hj, hn, ← hj]
      exact tget_tset_self ..
    · rw [if_neg hj, tget_tset_ne 0 t _ (Ne.symm hj)]

/-- Settles O50: the request, the period, and the snapshot. -/
theorem telemetrySnapshots : Obligations.TelemetrySnapshots := by
  unfold Obligations.TelemetrySnapshots
  refine fun s b => ⟨fun h => ?snap, fun hq hp hm => ?period, fun hq hd => ?capture⟩
  case snap =>
    refine ⟨_, congrArg Host.Outcome.next (host_atPort h), ?_⟩
    obtain ⟨-, -, hk, hg⟩ := portAnswer_keeps b false (atPort s b false true 0x7040)
    have hc := core_atPort s b false true 0x7040
    generalize atPort s b false true 0x7040 = x at hk hg hc
    generalize portAnswer b false x = y at hk hg
    have hx : y.mgt.tele = s.mgt.tele := (congrArg (·.tele) hg).trans (congrArg (·.mgt.tele) hc :)
    have hm : mclk y = mclk s := by unfold mclk; rw [hk, eclk_of_core hc]
    have hm1 : 4 * (mclk s + 1) / 4 - 1 = mclk s := by rw [Nat.mul_div_cancel_left _ (by decide)]; rfl
    refine ⟨hx, ?_⟩
    rw [atNextMclk_mgtTake]
    refine (teleAsk_pend ..).trans ?_
    rw [hm]
    dsimp only
    rw [hx, show mclk { y with eclk := 4 * (mclk s + 1), port := { y.port with mgtFrom := 4 * mclk s + 5, mgtWait := none } } - 1 = mclk s from hm1]
  case period =>
    have e : telePeriod s = teleAsk (mclk s) (setTele (fun t => { t with periodAt := mclk s }) s) := if_neg (by simp [hq, hp, hm])
    exact ⟨_, congrArg Host.Outcome.next e, teleAsk_pend ..⟩
  case capture =>
    have e : teleCapture s = capture s := if_pos (by simp [hq, hd])
    refine ⟨_, congrArg Host.Outcome.next e, rfl, rfl, rfl, rfl, rfl, rfl, fun hl l => ?_⟩
    refine (tget_written LaneSt.busy s.lanes ((trising_iff _).1 hl) l []).trans ?_
    unfold lane tget
    cases tfind? s.lanes l <;> rfl

end Sys2Proof.Laws
end

section
/-! PROOFS. Scrubbing and self-test (R414 to R417, R423 to R425). -/

namespace Sys2Proof.Laws
open Sys2Proof.Machine

variable {s u v : State} {b : Initiator} {n : Nat} {found : Found}

/-! ### What errors, records and lost words leave -/

theorem offer_mgt (p : Plane) (o : Option Nat) (r : Rec) (u : State) : (offer p o r u).mgt.scrub = u.mgt.scrub ∧ (offer p o r u).mgt.test = u.mgt.test := by
  unfold offer
  split
  · exact ⟨rfl, rfl⟩
  · exact ⟨rfl, rfl⟩
theorem countErr_self (k : Nat) (u : State) : (errCls (countErr k u) k).total = sat16 (errCls u k).total := by
  unfold countErr
  rw [errCls_setErr_self]
  show sat16 (rolled u (errCls u k)).total = _
  unfold rolled
  split <;> rfl
theorem countErr_ne {j k : Nat} (h : k ≠ j) (u : State) : errCls (countErr j u) k = errCls u k := errCls_setErr_ne _ _ h
theorem corrected_errCls (n d : Nat) (x : W64) (k : Nat) (u : State) : errCls (corrected n d x u) k = errCls (countErr (2 * n) u) k := by
  unfold corrected
  dsimp only
  split
  · exact errCls_offer ..
  · rfl
theorem uncorrected_errCls (n d : Nat) (x : W64) (k : Nat) (u : State) : errCls (uncorrected n d x u) k = errCls (countErr (2 * n + 1) u) k := by
  unfold uncorrected
  dsimp only
  split
  · exact errCls_offer ..
  · rfl
theorem uncorrected_test (n d : Nat) (x : W64) (u : State) : (uncorrected n d x u).mgt.test = u.mgt.test := by
  unfold uncorrected
  dsimp only
  split
  · exact (offer_mgt ..).2
  · rfl
theorem fixWord_errs (n k : Nat) (u : State) : (fixWord n k u).errs = u.errs := by
  unfold fixWord
  split
  · split <;> rfl
  all_goals rfl
/-- What the loss of a word of a store may change. -/
def loseAreas : Set Area := fun p => (∃ c, faultAreas c p) ∨ (∃ c, p = .legend c) ∨ p = .legends ∨ p = .atlas
theorem loseIn_self : LoseIn loseAreas :=
  ⟨fun c => (faultIn_self c).mono (fun _ h => .inl ⟨c, h⟩), fun c => .inr (.inl ⟨c, rfl⟩), .inr (.inr (.inl rfl)), .inr (.inr (.inr rfl))⟩
theorem notMem_lose {p : Area} (h : p = .mgt ∨ p = .eclk) : p ∉ loseAreas := by
  rintro (⟨c, (((h1 | h1) | ⟨_, h1⟩) | (h1 | h1) | h1 | h1 | h1 | h1 | h1) | ⟨_, h1⟩ | h1 | h1 | h1 | h1⟩ | ⟨_, h1⟩ | h1 | h1) <;>
    rcases h with h | h <;> cases h.symm.trans h1
theorem scrub_of_only (H : Only loseAreas u v) : v.mgt.scrub = u.mgt.scrub ∧ v.eclk = u.eclk :=
  have h : { v.mgt with rdrop := false, tele := {} } = { u.mgt with rdrop := false, tele := {} } := H .mgt (notMem_lose (.inl rfl))
  ⟨(congrArg (·.scrub) h :), H .eclk (notMem_lose (.inr rfl))⟩

/-! ### A scrub step -/

/-- What the scrubber does with the word at which the store's walk stands. -/
def scrubActs (n : Nat) (found : Found) (u : State) : State :=
  match scrubFinds u n (tget 0 u.mgt.scrub.pos n) found with
  | .clean => u
  | .corrected =>
    setScrub (fun x => { x with fixed := tset 0 x.fixed n (tget 0 x.fixed n + 1) })
      (fixWord n (tget 0 u.mgt.scrub.pos n) (corrected n 1 (storeOffset n (tget 0 u.mgt.scrub.pos n)) u))
  | .uncorrected => loseWord n (tget 0 u.mgt.scrub.pos n) (uncorrected n 1 (storeOffset n (tget 0 u.mgt.scrub.pos n)) u)
/-- The walk as it goes on from codeword k. -/
def walksOn (n k : Nat) (m : Nat) (x : Scrub) : Scrub :=
  { x with pos := tset 0 x.pos n (if storeSize n ≤ k + 1 then 0 else k + 1), nextAt := tset 0 x.nextAt (scrubPort n) (m + x.gap),
           waitFrom := tset 0 x.waitFrom n (4 * (m + x.gap)) }
theorem scrubWord_eq (n : Nat) (found : Found) (u : State) : scrubWord n found u =
    if storeSize n ≤ tget 0 u.mgt.scrub.pos n + 1 then
      passDone n (setScrub (walksOn n (tget 0 u.mgt.scrub.pos n) (mclk (scrubActs n found u))) (scrubActs n found u))
    else setScrub (walksOn n (tget 0 u.mgt.scrub.pos n) (mclk (scrubActs n found u))) (scrubActs n found u) := by
  unfold scrubWord walksOn
  simp only [decide_eq_true_eq]
  rfl
/-- The scrubber's state without the words it has corrected. -/
def unfixed (x : Scrub) : Scrub := { x with fixed := [] }
theorem scrubActs_keeps (n : Nat) (found : Found) (u : State) :
    unfixed (scrubActs n found u).mgt.scrub = unfixed u.mgt.scrub ∧ (scrubActs n found u).eclk = u.eclk := by
  have h0 := (loseIn_self.fault 0).toErrIn
  unfold scrubActs
  split
  · exact ⟨rfl, rfl⟩
  · obtain ⟨h1, h2⟩ := scrub_of_only (fixWord_only (a := n) (k := tget 0 u.mgt.scrub.pos n) loseIn_self (corrected_only h0 only_refl))
    exact ⟨(congrArg unfixed h1 :), h2⟩
  · obtain ⟨h1, h2⟩ := scrub_of_only (loseWord_only (a := n) (k := tget 0 u.mgt.scrub.pos n) loseIn_self (uncorrected_only h0 only_refl))
    exact ⟨congrArg unfixed h1, h2⟩
theorem passDone_keeps (n : Nat) (u : State) : (passDone n u).mgt.scrub.pos = u.mgt.scrub.pos ∧ (passDone n u).mgt.scrub.nextAt = u.mgt.scrub.nextAt ∧
    (passDone n u).mgt.scrub.passes = u.mgt.scrub.passes + 1 ∧ (passDone n u).mgt.scrub.forced = u.mgt.scrub.forced ∧ (passDone n u).errs = u.errs := by
  unfold passDone
  dsimp only
  split
  · rw [offerNow, (offer_mgt ..).1, (offer_guard ..).1]
    exact ⟨rfl, rfl, rfl, rfl, rfl⟩
  · exact ⟨rfl, rfl, rfl, rfl, rfl⟩
/-- The walk goes on to the next codeword, and past the last one a pass is done (R414, R417). -/
theorem scrubWord_walks (n : Nat) (found : Found) (u : State) :
    tget 0 (scrubWord n found u).mgt.scrub.pos n = (if storeSize n ≤ tget 0 u.mgt.scrub.pos n + 1 then 0 else tget 0 u.mgt.scrub.pos n + 1) ∧
    tget 0 (scrubWord n found u).mgt.scrub.nextAt (scrubPort n) = mclk u + u.mgt.scrub.gap ∧
    (scrubWord n found u).mgt.scrub.passes = (if storeSize n ≤ tget 0 u.mgt.scrub.pos n + 1 then u.mgt.scrub.passes + 1 else u.mgt.scrub.passes) ∧
    (scrubWord n found u).mgt.scrub.forced = u.mgt.scrub.forced := by
  obtain ⟨hs, he⟩ := scrubActs_keeps n found u
  rw [scrubWord_eq]
  generalize scrubActs n found u = w at hs he
  have hg : mclk w + w.mgt.scrub.gap = mclk u + u.mgt.scrub.gap := by
    rw [show w.mgt.scrub.gap = u.mgt.scrub.gap from (congrArg (·.gap) hs :), mclk, he]
    rfl
  have hp : w.mgt.scrub.passes = u.mgt.scrub.passes := (congrArg (·.passes) hs :)
  have hf : w.mgt.scrub.forced = u.mgt.scrub.forced := (congrArg (·.forced) hs :)
  generalize tget 0 u.mgt.scrub.pos n = k
  obtain ⟨p1, p2, p3, p4, -⟩ := passDone_keeps n (setScrub (walksOn n k (mclk w)) w)
  split
  · next h =>
    rw [p1, p2, p3, p4]
    exact ⟨(tget_tset_self ..).trans (if_pos h), (tget_tset_self ..).trans hg, congrArg (· + 1) hp, hf⟩
  · next h => exact ⟨(tget_tset_self ..).trans (if_neg h), (tget_tset_self ..).trans hg, hp, hf⟩
theorem scrubWord_errCls (n : Nat) (found : Found) (u : State) (k : Nat) : errCls (scrubWord n found u) k = errCls (scrubActs n found u) k := by
  rw [scrubWord_eq]
  unfold errCls
  split
  · rw [(passDone_keeps ..).2.2.2.2]
    rfl
  · rfl
theorem scrubWord_corrected (h : uninitialised u n (tget 0 u.mgt.scrub.pos n) = false) (k : Nat) :
    errCls (scrubWord n .corrected u) k = errCls (countErr (2 * n) u) k := by
  have hf : scrubFinds u n (tget 0 u.mgt.scrub.pos n) .corrected = .corrected := by
    unfold scrubFinds
    rw [h, if_neg nofun, if_pos nofun]
  rw [scrubWord_errCls, scrubActs, hf]
  show tget _ (fixWord _ _ _).errs k = _
  rw [fixWord_errs]
  exact corrected_errCls ..

/-! ### Self-test -/

theorem spoilBank_keeps (u : State) : (spoilBank u).mgt = u.mgt ∧ (spoilBank u).errs = u.errs := by
  unfold spoilBank
  dsimp only
  split
  · exact ⟨rfl, rfl⟩
  · exact ⟨rfl, rfl⟩
theorem testEnd_keeps (code : BitVec 3) (res : W64) (u : State) :
    (testEnd code res u).mgt.test = { u.mgt.test with busy := false, code := code, res := res } ∧ (testEnd code res u).errs = u.errs := by
  obtain ⟨h1, h2⟩ := spoilBank_keeps (setTest (fun t => { t with busy := false, code := code, res := res }) u)
  unfold testEnd
  dsimp only
  split
  · rw [offerNow, (offer_mgt ..).2, (offer_guard ..).1, h1, h2]
    exact ⟨rfl, rfl⟩
  · rw [h1, h2]
    exact ⟨rfl, rfl⟩
theorem liftTested_keeps (u : State) : (liftTested u).mgt.test = { u.mgt.test with liftPend := false } ∧ (liftTested u).errs = u.errs := by
  unfold liftTested
  dsimp only
  split
  · rw [fenceRec, offerNow, (offer_mgt ..).2, (offer_guard ..).1]
    exact ⟨rfl, rfl⟩
  · next h => exact ⟨by rw [← Bool.eq_false_of_not_eq_true h], rfl⟩
theorem testRefused_of_keeps (hf : v.fences = u.fences) (hl : v.lanes = u.lanes) (n : Nat) : testRefused v n = testRefused u n := by
  unfold testRefused burstOn lane
  rw [hf, hl]
/-- GO with its TARGET, as it acts (R423). -/
theorem testTarget_test (x : BitVec 5) (u : State) :
    if u.mgt.test.busy then (testTarget x u).mgt.test = { u.mgt.test with target := x, cmdlost := true }
    else match testRefused u x.toNat with
      | some code => (testTarget x u).mgt.test = { u.mgt.test with target := x, code := code, res := 0 }
      | none => (testTarget x u).mgt.test.busy = true ∧ (testTarget x u).mgt.test.unit = x ∧ (testTarget x u).mgt.test.target = x ∧
          (testTarget x u).mgt.test.code = u.mgt.test.code := by
  have hr : testRefused (setTest (fun t => { t with target := x }) u) x.toNat = testRefused u x.toNat := rfl
  unfold testTarget testGo
  dsimp only
  by_cases hb : u.mgt.test.busy = true
  · rw [if_pos hb]
    refine (congrArg (fun y : State => y.mgt.test) (if_pos hb)).trans rfl
  · rw [if_neg hb, if_neg (show ¬(setTest (fun t => { t with target := x }) u).mgt.test.busy = true from hb)]
    rw [show (setTest (fun t => { t with target := x }) u).mgt.test.target = x from rfl, hr]
    cases testRefused u x.toNat
    · exact ⟨rfl, rfl, rfl, rfl⟩
    · rfl

/-- Settles O49: the walk's step, the forced one, and how a test starts and ends. -/
theorem scrubAndSelfTest : Obligations.ScrubAndSelfTest := by
  unfold Obligations.ScrubAndSelfTest
  refine ⟨fun s n m found => ⟨fun hq hs hn => ?step, fun hq hs hn hu => ?error, fun hq hs hw hc => ?forced⟩,
    fun s b x res => ⟨fun h => ?go, fun hb hl => ?stopped, fun hb => ?passed, fun hb => ?failed⟩⟩
  case step =>
    have e : scrubStep n found s = scrubWord n found s := if_neg (by simp [hq, hs, hn])
    obtain ⟨h1, h2, h3, -⟩ := scrubWord_walks n found s
    exact ⟨_, congrArg Host.Outcome.next e, h1, h2, h3⟩
  case error =>
    have e : scrubStep n .corrected s = scrubWord n .corrected s := if_neg (by simp [hq, hs, hn])
    refine ⟨_, congrArg Host.Outcome.next e, ?_, ?_⟩
    · rw [scrubWord_corrected hu, countErr_self]
    · rw [scrubWord_corrected hu, countErr_ne (by omega)]
  case forced =>
    have e : forcedSlot m found s = scrubWord m found (setScrub (fun x => { x with forced := sat16 x.forced, waitFrom := tset 0 x.waitFrom m s.eclk }) s) := by
      unfold forcedSlot
      rw [if_neg (by simp [hq, hs, hw])]
      refine if_neg ?_
      rcases hc with hc | hc
      · simp [Fin.val_ne_zero_iff.2 hc]
      · have hc' : captureDue (setScrub (fun x => { x with forced := sat16 x.forced, waitFrom := tset 0 x.waitFrom m s.eclk }) s) = false := hc
        simp [hc']
    obtain ⟨h1, -, -, h4⟩ := scrubWord_walks m found (setScrub (fun x => { x with forced := sat16 x.forced, waitFrom := tset 0 x.waitFrom m s.eclk }) s)
    exact ⟨_, congrArg Host.Outcome.next e, h4, h1⟩
  case go =>
    refine ⟨_, congrArg Host.Outcome.next (host_atPort h), ?_⟩
    obtain ⟨-, hf, -, hg⟩ := portAnswer_keeps b false (atPort s b false true 0x7020)
    have hl : (portAnswer b false (atPort s b false true 0x7020)).lanes = (atPort s b false true 0x7020).lanes :=
      (congrArg State.lanes (core_portAnswer ..) :)
    have hc := core_atPort s b false true 0x7020
    generalize atPort s b false true 0x7020 = w at hf hg hl hc
    generalize portAnswer b false w = y at hf hg hl
    have hx : y.mgt.test = s.mgt.test := (congrArg (·.test) hg).trans (congrArg (·.mgt.test) hc :)
    have hr := testRefused_of_keeps (u := s) (v := { y with eclk := 4 * (mclk y + 1), port := { y.port with mgtFrom := 4 * mclk y + 5, mgtWait := none } })
      (hf.trans (congrArg State.fences hc :)) (hl.trans (congrArg State.lanes hc :)) x.toNat
    have := testTarget_test x { y with eclk := 4 * (mclk y + 1), port := { y.port with mgtFrom := 4 * mclk y + 5, mgtWait := none } }
    rw [hr] at this
    refine ⟨hx, ?_⟩
    rw [atNextMclk_mgtTake, ← hx]
    exact this
  case stopped =>
    have e : testStop s = liftTested (testEnd 4 0 s) := if_pos (by simpa [hb] using hl)
    refine ⟨_, congrArg Host.Outcome.next e, ?_⟩
    dsimp only
    rw [(liftTested_keeps _).1, (testEnd_keeps ..).1]
    exact ⟨rfl, rfl, rfl⟩
  case passed =>
    have e : testComplete true res s = liftTested (testEnd 0 0 s) := if_neg (by simp [hb])
    refine ⟨_, congrArg Host.Outcome.next e, ?_⟩
    unfold errCls
    dsimp only
    rw [(liftTested_keeps _).1, (liftTested_keeps _).2, (testEnd_keeps ..).1, (testEnd_keeps ..).2]
    exact ⟨rfl, rfl, rfl, fun _ => rfl⟩
  case failed =>
    have e : testComplete false res s = liftTested (uncorrected s.mgt.test.unit.toNat 0 res (testEnd 1 res s)) := if_neg (by simp [hb])
    refine ⟨_, congrArg Host.Outcome.next e, ?_⟩
    have hs (k : Nat) : errCls (testEnd 1 res s) k = errCls s k := by unfold errCls; rw [(testEnd_keeps ..).2]
    have hl (k : Nat) (w : State) : errCls (liftTested w) k = errCls w k := by unfold errCls; rw [(liftTested_keeps _).2]
    dsimp only
    rw [hl, (liftTested_keeps _).1, uncorrected_test, (testEnd_keeps ..).1, uncorrected_errCls, countErr_self, hs]
    exact ⟨rfl, rfl, rfl, rfl⟩

end Sys2Proof.Laws
end

section
/-! PROOFS. The power domains (R377 to R382, R452). -/

namespace Sys2Proof.Laws
open Sys2Proof.Machine

variable {s u v : State} {c d k n : Nat}

theorem bit_setBit {n : Nat} (w : BitVec n) {i : Nat} (h : i < n) (b : Bool) : bit (setBit w i b) i = b := by
  cases b
  · exact bit_clearBit_self w h
  · exact bit_setBit_self w h
theorem bit_setBit_other {n : Nat} (w : BitVec n) {i j : Nat} (h : j ≠ i) (b : Bool) : bit (setBit w i b) j = bit w j := by
  cases b
  · exact bit_clearBit_ne w h
  · exact bit_setBit_ne w h

/-! ### The inputs wired to a domain -/

/-- What a source's loss and its return leave as they are. -/
structure SourceKept (u v : State) : Prop where
  power : v.power = u.power
  ctxs : v.ctxs = u.ctxs
  straps : v.straps = u.straps
  eclk : v.eclk = u.eclk
theorem SourceKept.trans {w : State} (h : SourceKept u v) (g : SourceKept v w) : SourceKept u w :=
  ⟨g.power.trans h.power, g.ctxs.trans h.ctxs, g.straps.trans h.straps, g.eclk.trans h.eclk⟩
theorem offer_source (p : Plane) (o : Option Nat) (r : Rec) (u : State) : SourceKept u (offer p o r u) :=
  have h : core (offer p o r u) = core u := core_offer ..
  ⟨power_of_core h, ctxs_of_core h, straps_of_core h, eclk_of_core h⟩
theorem requalify_source (n : Nat) (was : Bool) (u : State) : SourceKept u (requalify n was u) := by
  unfold requalify
  dsimp only
  split
  · exact ⟨rfl, rfl, rfl, rfl⟩
  split
  · split
    · exact SourceKept.trans (v := setInp n { inp u n with level := (inactiveLevel (inp u n).mode).getD (inp u n).level } u) ⟨rfl, rfl, rfl, rfl⟩ (offer_source ..)
    · exact ⟨rfl, rfl, rfl, rfl⟩
  · exact ⟨rfl, rfl, rfl, rfl⟩
theorem requalifyAll_source (s0 : State) (d : Nat) (u : State) : SourceKept u (requalifyAll s0 d u) := by
  have H (l : List Nat) : ∀ v, SourceKept v (l.foldl (fun s n => requalify n (qok s0 n) (setInp n (sampled s 1 [] (inp s n)) s)) v) := by
    induction l with
    | nil => exact fun v => ⟨rfl, rfl, rfl, rfl⟩
    | cons n l ih =>
      intro v
      have h1 : SourceKept v (setInp n (sampled v 1 [] (inp v n)) v) := ⟨rfl, rfl, rfl, rfl⟩
      exact (h1.trans (requalify_source ..)).trans (ih _)
  exact H _ u
theorem pdRec_source (t d x : Nat) (w : W64) (u : State) : SourceKept u (pdRec t d x w u) := by
  unfold pdRec
  split
  · exact offer_source ..
  · exact ⟨rfl, rfl, rfl, rfl⟩

/-! ### The commands -/

/-- The domain as it is up again (R377, R382). -/
def upAgain (d at_ : Nat) (p : Power) : Power :=
  { p with pgood := setBit p.pgood d true, down := setBit p.down d false, owes := setBit p.owes d false, back := p.back ++ [(d, at_ + 1, bit p.owes d)] }
theorem domainBack_keeps (d : Nat) (u : State) : SourceKept (setPower (upAgain d u.eclk) u) (domainBack d u) := requalifyAll_source ..
/-- The end of a request (R377, R381). -/
def requestEnds (d : Nat) (p : Power) : Power :=
  { p with pdreq := setBit p.pdreq d false, pdack := setBit p.pdack d false, pdnak := setBit p.pdnak d false,
           window := setBit p.window d false, vetoes := p.vetoes.filter (fun v => v.1 != d) }
theorem pdreqDrop_power (h : bit u.power.pdreq d = true) : (pdreqDrop d u).power =
    if quiet u then { requestEnds d u.power with down := setBit u.power.down d (bit u.power.down d && !bit u.power.pgood d) }
    else if bit u.power.pgood d && !domainUp u d then upAgain d u.eclk (requestEnds d u.power) else requestEnds d u.power := by
  unfold pdreqDrop
  dsimp only
  rw [h, if_neg nofun]
  split
  · rfl
  split
  · exact (domainBack_keeps d (setPower (requestEnds d) u)).power
  · rfl
/-- What the end of a request leaves of the request's lines. -/
theorem requestEnds_lines (hd : d < 16) {p : Power} (f : Power → Power)
    (hf : (f (requestEnds d p)).pdreq = (requestEnds d p).pdreq ∧ (f (requestEnds d p)).pdack = (requestEnds d p).pdack ∧
      (f (requestEnds d p)).pdnak = (requestEnds d p).pdnak ∧ (f (requestEnds d p)).window = (requestEnds d p).window) :
    bit (f (requestEnds d p)).pdreq d = false ∧ bit (f (requestEnds d p)).pdack d = false ∧ bit (f (requestEnds d p)).pdnak d = false ∧
    bit (f (requestEnds d p)).window d = false := by
  obtain ⟨h1, h2, h3, h4⟩ := hf
  rw [h1, h2, h3, h4]
  exact ⟨bit_setBit _ hd _, bit_setBit _ hd _, bit_setBit _ hd _, bit_setBit _ hd _⟩
theorem domainUp_of_power (hg : bit v.power.pgood d = true) (hd : bit v.power.down d = false)
    (hr : bit v.power.pdreq d = false ∨ (bit v.power.pdnak d = true ∧ tget 0 v.power.nakAt d < v.eclk)) : domainUp v d = true := by
  unfold domainUp
  rcases hr with hr | ⟨hn, ht⟩
  · rw [hg, hd, hr]; rfl
  · rw [hg, hd, hn, decide_eq_true ht]
    simp
theorem qok_off (hd : bit v.power.pgood d = false) (hv : (wiring v n).domv = true) (hw : (wiring v n).dom = d) : qok v n = false := by
  unfold qok sourcePowered
  dsimp only
  rw [hv, hw, hd]
  simp
theorem qok_on (he : 2 ≤ v.eclk) (hq : (wiring v n).qual = false) (hw : (wiring v n).dom = d) (hg : bit v.power.pgood d = true)
    (hd : bit v.power.down d = false) : qok v n = true := by
  unfold qok sourcePowered
  dsimp only
  rw [hq, hw, hg, hd, decide_eq_true he]
  simp
theorem wiring_of_source (h : SourceKept u v) (n : Nat) : wiring v n = wiring u n := by
  unfold wiring
  rw [h.straps]
theorem domainReturn_eq (hq : quiet u = false) (hr : bit u.power.pdreq d = false) : domainReturn d u = domainBack d u := by
  unfold domainReturn
  rw [hr, hq]
  rfl
/-- The channel that is held for the domain goes on as its ECLK comes (R382). -/
theorem comeBack_active {owes : Bool} (hh : heldIn u d = [c]) (hp : (ctx u c).w.phase = .single) : (ctx (comeBack d owes u) c).r.state = .active := by
  have hl : (ctx (leaveWait c u) c).w.phase = .single := by rw [leaveWait_ctx]; exact hp
  have hs : (ctx (continueCh c (leaveWait c u)) c).r.state = .active := by
    unfold continueCh
    rw [hl]
    dsimp only
    rw [leaveWait_ctx]
  unfold comeBack
  dsimp only
  rw [hh]
  split
  · unfold ctx at hs ⊢
    rw [(pdRec_source ..).ctxs]
    exact hs
  · exact hs
theorem backNow_one {owes : Bool} (hb : u.power.back = [(d, u.eclk, owes)]) : backNow u = comeBack d owes (setPower (fun p => { p with back := [] }) u) := by
  have hf : (u.power.back.filter (fun e => decide (e.2.1 ≤ u.eclk))) = [(d, u.eclk, owes)] := by rw [hb]; simp
  have hg : (u.power.back.filter (fun e => !decide (e.2.1 ≤ u.eclk))) = [] := by rw [hb]; simp
  unfold backNow
  dsimp only [setPower]
  rw [hf, hg]
  rfl
theorem heldIn_of_ctxs (h : v.ctxs = u.ctxs) (d : Nat) : heldIn v d = heldIn u d := by
  unfold heldIn isHeldIn ctx
  rw [h]

/-- Settles O45: the lines of a domain as each command leaves them, its inputs, and its channels. -/
theorem powerDomainsGoAndReturn : Obligations.PowerDomainsGoAndReturn := by
  unfold Obligations.PowerDomainsGoAndReturn
  refine fun s d => ⟨fun hr hq => ?rise, fun hr => ?drop, fun hw ha hl hv => ?ack, fun v hv ha hw => ?nak, fun hg => ?fall, fun hq hr => ?back,
    fun c hq hr hh hp hb => ?held⟩
  case rise =>
    have e : pdreqRise d s = setPower (fun p => { p with
        pdreq := setBit p.pdreq d true, window := setBit p.window d true, openAt := tput p.openAt d s.eclk, vets := tset [] p.vets d (vetoing s),
        vetoes := p.vetoes.filter (fun v => v.1 != d.val) }) s := by
      unfold pdreqRise
      rw [hr, hq]
      rfl
    refine ⟨_, congrArg Host.Outcome.next e, bit_setBit _ d.isLt _, bit_setBit _ d.isLt _, ?_, rfl, fun k hk => ⟨bit_setBit_other _ hk _, bit_setBit_other _ hk _⟩⟩
    show (tfind? (tput s.power.openAt d s.eclk) d).getD s.eclk = s.eclk
    rw [tfind_tput_self]
    rfl
  case drop =>
    have hp := pdreqDrop_power (d := d) hr
    refine ⟨_, rfl, ?_⟩
    by_cases hq : quiet s = true
    · rw [if_pos hq] at hp
      obtain ⟨l1, l2, l3, l4⟩ := requestEnds_lines d.isLt (p := s.power) (fun p => { p with down := setBit s.power.down d (bit s.power.down d && !bit s.power.pgood d) })
        ⟨rfl, rfl, rfl, rfl⟩
      rw [hp]
      refine ⟨l1, l2, l3, l4, fun hg => .inl ?_, fun h => absurd (h.symm.trans hq) nofun, fun k hk => bit_setBit_other _ hk _⟩
      rw [hg, Bool.not_true, Bool.and_false]
      exact bit_setBit _ d.isLt _
    · rw [if_neg hq] at hp
      by_cases hb : (bit s.power.pgood d && !domainUp s d) = true
      · rw [if_pos hb] at hp
        obtain ⟨l1, l2, l3, l4⟩ := requestEnds_lines d.isLt (p := s.power) (upAgain d s.eclk) ⟨rfl, rfl, rfl, rfl⟩
        have hup : domainUp (pdreqDrop d s) d = true :=
          domainUp_of_power (by rw [hp]; exact bit_setBit _ d.isLt _) (by rw [hp]; exact bit_setBit _ d.isLt _) (.inl (by rw [hp]; exact l1))
        rw [hp]
        refine ⟨l1, l2, l3, l4, fun _ => .inl (bit_setBit _ d.isLt _), fun _ _ _ => ⟨List.mem_append_right _ (List.mem_singleton_self _), hup⟩,
          fun k hk => bit_setBit_other _ hk _⟩
      · rw [if_neg hb] at hp
        obtain ⟨l1, l2, l3, l4⟩ := requestEnds_lines d.isLt (p := s.power) id ⟨rfl, rfl, rfl, rfl⟩
        have hu (hg : bit s.power.pgood d = true) : domainUp s d = true := by simpa [hg] using hb
        rw [hp]
        exact ⟨l1, l2, l3, l4, fun hg => .inr (hu hg), fun _ hg h => absurd ((hu hg).symm.trans h) nofun, fun _ _ => rfl⟩
  case ack =>
    have hn : s.power.vetoes.any (fun v => v.1 == d.val) = false := by
      rw [List.any_eq_false]
      exact fun v hm => by simpa using hv v hm
    have e : (pdackNow d s).power = { s.power with
        pdack := setBit s.power.pdack d true, window := setBit s.power.window d false,
        down := setBit s.power.down d true, owes := setBit s.power.owes d true } := by
      unfold pdackNow
      dsimp only
      rw [hw, hl, hn, decide_eq_false (Nat.not_lt.2 ha), if_neg nofun]
      exact (pdRec_source ..).power.trans (requalifyAll_source ..).power
    refine ⟨_, rfl, ?_⟩
    dsimp only
    rw [e]
    exact ⟨bit_setBit _ d.isLt _, bit_setBit _ d.isLt _, bit_setBit _ d.isLt _⟩
  case nak =>
    have e : (pdnakNow d s).power = { s.power with
        pdnak := setBit s.power.pdnak d true, nakd := setBit s.power.nakd d true,
        window := setBit s.power.window d false, nakAt := tput s.power.nakAt d s.eclk, vetoes := s.power.vetoes.filter (fun v => v.1 != d.val),
        back := s.power.back ++ [(d.val, s.eclk + 2, false)] } := by
      unfold pdnakNow
      rw [hv]
      dsimp only
      rw [hw, decide_eq_false (Nat.not_le.2 ha), if_neg nofun]
      exact (pdRec_source ..).power
    refine ⟨_, rfl, ?_⟩
    have hup (hg : bit s.power.pgood d = true) (hd : bit s.power.down d = false) : domainUp { pdnakNow d s with eclk := s.eclk + 1 } d = true := by
      refine domainUp_of_power (by dsimp only; rw [e]; exact hg) (by dsimp only; rw [e]; exact hd) (.inr ?_)
      dsimp only
      rw [e]
      refine ⟨bit_setBit _ d.isLt _, ?_⟩
      dsimp only
      unfold tget
      rw [tfind_tput_self]
      exact Nat.lt_succ_self _
    refine ⟨?_, ?_, ?_, ?_, ?_, hup⟩
    all_goals rw [e]
    · exact bit_setBit _ d.isLt _
    · exact bit_setBit _ d.isLt _
    · exact bit_setBit _ d.isLt _
    · exact List.mem_append_right _ (List.mem_singleton_self _)
  case fall =>
    have hk : SourceKept (setPower (fun p => { p with
        pgood := setBit p.pgood d false, window := setBit p.window d false, down := setBit p.down d true,
        vetoes := p.vetoes.filter (fun v => v.1 != d.val), owes := setBit p.owes d true }) s) (pgoodFall d s) := by
      unfold pgoodFall
      rw [hg, if_neg nofun]
      exact requalifyAll_source ..
    have hp : bit (pgoodFall d s).power.pgood d = false := by rw [hk.power]; exact bit_setBit _ d.isLt _
    refine ⟨_, rfl, hp, ?_, ?_, fun n hv hw => qok_off hp ?_ ?_⟩
    · rw [hk.power]; exact bit_setBit _ d.isLt _
    · rw [hk.power]; exact bit_setBit _ d.isLt _
    · rw [wiring_of_source hk]; exact hv
    · rw [wiring_of_source hk]; exact hw
  case back =>
    refine ⟨_, congrArg Host.Outcome.next (domainReturn_eq hq hr), ?_⟩
    have hk := domainBack_keeps d s
    have hg : bit (domainBack d s).power.pgood d = true := by rw [hk.power]; exact bit_setBit _ d.isLt _
    have hd : bit (domainBack d s).power.down d = false := by rw [hk.power]; exact bit_setBit _ d.isLt _
    refine ⟨hg, hd, hk.ctxs, fun n _ hw hl he => qok_on ?_ ?_ ?_ hg hd⟩
    · rw [hk.eclk]; exact he
    · rw [wiring_of_source hk]; exact hl
    · rw [wiring_of_source hk]; exact hw
  case held =>
    refine ⟨_, congrArg Host.Outcome.next (domainReturn_eq hq hr), ?_⟩
    have hk := domainBack_keeps d s
    have hd : bit (domainBack d s).power.down d = false := by rw [hk.power]; exact bit_setBit _ d.isLt _
    have hbk : (domainBack d s).power.back = [(d.val, s.eclk + 1, bit s.power.owes d)] := by
      rw [hk.power]
      exact congrArg (· ++ [(d.val, s.eclk + 1, bit s.power.owes d)]) hb
    have hc : ctx (domainBack d s) c = ctx s c := by unfold ctx; rw [hk.ctxs]; rfl
    have hm : isHeldIn s d c = true := (List.mem_filter.1 (hh ▸ List.mem_singleton_self c)).2
    have hst : (ctx s c).r.state = .held := of_decide_eq_true (Bool.and_eq_true_iff.1 hm).1
    refine ⟨hd, ?_, ?_⟩
    · rw [hc]; exact hst
    · have e := backNow_one (u := { domainBack d s with eclk := s.eclk + 1 }) (d := d.val) hbk
      rw [e]
      refine comeBack_active (c := c) ?_ ?_
      · exact (heldIn_of_ctxs (u := s) hk.ctxs d).trans hh
      · exact (congrArg (·.w.phase) hc).trans hp

end Sys2Proof.Laws
end

section
/-! PROOFS. The ends of the waits (R117, R121). -/

namespace Sys2Proof.Laws
open Sys2Proof.Machine

variable {s u v : State} {c : Nat} {z : Bool}

/-- A channel that leaves its wait leg with Z goes on to the leg's successor (R117). -/
theorem finishZ_leaves (hg : GoesOn s c) (hf : (ctx s c).w.faulting = none) (hl : (ctx v c).r.leg = (ctx s c).r.leg) (hp : (ctx v c).r.pc = (ctx s c).r.pc)
    (hw : (ctx v c).w.legNo = (ctx s c).w.legNo) (hv : (ctx v c).w.faulting = (ctx s c).w.faulting) (hh : v.heldRecs = s.heldRecs) :
    WentTo s c (successorOf (ctx s c).r) { (ctx v c).r with deadline := none, flags := { (ctx v c).r.flags with z := z } } (finishZ c z v) := by
  unfold finishZ
  generalize hu : rankMet c (modR c (fun r => { r with flags := { r.flags with z := z } }) (leaveWait c v)) = u
  have hr : (ctx u c).r = { (ctx v c).r with state := .active, wait := .none, desc := .none, deadline := none,
                                             flags := { (ctx v c).r.flags with z := z } } := by
    rw [← hu, rankMet, ctx_modW_self, ctx_modR_self, leaveWait_ctx]
  have hk : (ctx u c).w.legNo = (ctx v c).w.legNo ∧ (ctx u c).w.faulting = (ctx v c).w.faulting := by
    rw [← hu, rankMet, ctx_modW_self, ctx_modR_self, leaveWait_ctx]
    exact ⟨rfl, rfl⟩
  obtain ⟨hn, hfl⟩ := hk
  have eh : u.heldRecs = s.heldRecs := by rw [← hh, ← hu]; rfl
  have hul : (ctx u c).r.leg = (ctx s c).r.leg := by rw [hr]; exact hl
  have hup : (ctx u c).r.pc = (ctx s c).r.pc := by rw [hr]; exact hp
  obtain ⟨h1, h2, h3, h4⟩ := wentTo_of_ctx (s := s) (finish_wentTo (goesOn_congr hg hul eh) (by rw [hr]; nofun) (hfl.trans (hv.trans hf))) (hn.trans hw)
  refine ⟨h1.trans (successor_congr hul hup), h2.trans ?_, h3, h4⟩
  rw [hr]
  rfl

section
variable (hg : GoesOn s c) (hf : (ctx s c).w.faulting = none)
include hg hf
/-- The channel whose registers stand as they wait completes with Z. -/
theorem finishZ_done (z : Bool) : WentTo s c (successorOf (ctx s c).r)
    { (ctx s c).r with deadline := none, flags := { (ctx s c).r.flags with z := z } } (finishZ c z s) :=
  finishZ_leaves hg hf rfl rfl rfl rfl rfl
/-- WAITREQ consumes its requests as its wait ends (R119). -/
theorem satisfied_request_leaves {n : Nat} (hq : (legReqen s c && levelMode (inp s (legReq s c))) = false) : WentTo s c (successorOf (ctx s c).r)
    { (ctx s c).r with deadline := none, flags := { (ctx s c).r.flags with z := true }, pend := (ctx s c).r.pend - n } (satisfied c (.request n) s) := by
  obtain ⟨hr, hn, hfl, -⟩ := rearmNow_consume_ctx (c := c) n s
  rw [hq, if_neg nofun] at hr
  have h := finishZ_leaves (z := true) hg hf (by rw [hr]) (by rw [hr]) hn hfl (rearmNow_consume_heldRecs n s)
  rwa [hr] at h
end
theorem completes_waitSatisfied {c : Fin 1024} (hs : (ctx s c).r.state = .wait) {P : State → Prop} (ht : isTime (ctx s c).r.desc = false)
    (hd : isDomain (ctx s c).r.desc = false) (hm : condMet s c (ctx s c).r.desc = true) (h : P (satisfied c (ctx s c).r.desc s)) :
    Completes (.waitSatisfied c) s P := by
  have e : waitSatisfied c s = satisfied c (ctx s c).r.desc s := if_pos (by unfold Machine.waits; simp [hs, ht, hd, hm])
  exact ⟨_, congrArg Host.Outcome.next e, h⟩

/-- Settles O17: each wait's end, by what the channel waits for. -/
theorem waitsEndWithTheirFlag : Obligations.WaitsEndWithTheirFlag := by
  unfold Obligations.WaitsEndWithTheirFlag
  refine fun s c hg hs hf => ⟨fun q n hd hm => ?items, fun n hd hm hq => ?request, fun b hd hm => ?barrier, fun x hd hx => ?time, fun hw hr hm => ?deadline⟩
  case items =>
    rcases hd with hd | hd
    · exact completes_waitSatisfied hs (by rw [hd]; rfl) (by rw [hd]; rfl) hm (by rw [hd]; exact finishZ_done hg hf true)
    · exact completes_waitSatisfied hs (by rw [hd]; rfl) (by rw [hd]; rfl) hm (by rw [hd]; exact finishZ_done hg hf true)
  case request =>
    exact completes_waitSatisfied hs (by rw [hd]; rfl) (by rw [hd]; rfl) hm (by rw [hd]; exact satisfied_request_leaves hg hf hq)
  case barrier =>
    exact completes_waitSatisfied hs (by rw [hd]; rfl) (by rw [hd]; rfl) hm (by rw [hd]; exact finishZ_done hg hf true)
  case time =>
    have e : targetReached c s = finishZ c true s := by
      unfold targetReached
      dsimp only
      rw [hd]
      exact if_pos (by simp [hs, isTime, condMet, hx])
    exact ⟨_, congrArg Host.Outcome.next e, finishZ_done hg hf true⟩
  case deadline =>
    have e : deadlineEnds c s = finishZ c false s := by
      unfold deadlineEnds
      dsimp only
      rw [if_pos (by simp [hs, hw, hr]), hm]
      rfl
    exact ⟨_, congrArg Host.Outcome.next e, finishZ_done hg hf false⟩

end Sys2Proof.Laws
end

section
/-! PROOFS. The ends of leg fetches (R60 to R66). -/

namespace Sys2Proof.Laws
open Sys2Proof.Machine

variable {s u v : State} {c d : Nat} {l : Line} {f : Fetch}

/-! ### A line that comes -/

theorem fillLine_mem (e : CLine) (u : State) : e ∈ (fillLine e u).lcache := List.mem_cons_self
/-- Channel c, which waited for its line, stands before its leg. -/
structure Delivered (x : Ctx) (l : Line) (y : Ctx) : Prop where
  leg : y.r.leg = legIn l x.r.pc
  phase : y.w.phase = .ready
  pc : y.r.pc = x.r.pc
theorem deliverLeg_other (h : d ≠ c) (g : Leg) (u : State) : ctx (deliverLeg c g u) d = ctx u d :=
  ctx_of_only (deliverLeg_only (S := {.ctx c}) rfl only_refl) (fun e => h (by cases e; rfl))
theorem deliverLeg_ready (g : Leg) (h : (ctx u c).w.phase ≠ .fetch) : deliverLeg c g u = u := if_neg (by simpa using h)
theorem deliverLeg_delivers (h : (ctx u c).w.phase = .fetch) : Delivered (ctx u c) l (ctx (deliverLeg c (legIn l (ctx u c).r.pc) u) c) := by
  unfold deliverLeg
  dsimp only
  rw [if_pos (decide_eq_true h), ctx_setCtx_self]
  split
  · rw [leaveWait_ctx]
    exact ⟨rfl, rfl, rfl⟩
  · exact ⟨rfl, rfl, rfl⟩
/-- Each channel that waits has its leg once all have been served. -/
theorem delivered_all {x : Ctx} (hx : x.w.phase = .fetch) (ws : List Nat) : ∀ u, ctx u c = x ∧ c ∈ ws ∨ Delivered x l (ctx u c) →
    Delivered x l (ctx (ws.foldl (fun s c => deliverLeg c (legIn l (ctx s c).r.pc) s) u) c) := by
  induction ws with
  | nil => exact fun u h => h.elim (fun h => absurd h.2 List.not_mem_nil) id
  | cons d ws ih =>
    intro u h
    refine ih _ ?_
    by_cases hd : c = d
    · subst hd
      rcases h with ⟨rfl, -⟩ | h
      · exact .inr (deliverLeg_delivers hx)
      · exact .inr ((congrArg (ctx · c) (deliverLeg_ready _ (by rw [h.phase]; nofun))).symm ▸ h)
    · rw [deliverLeg_other hd]
      exact h.imp (fun h => ⟨h.1, (List.mem_cons.1 h.2).resolve_left hd⟩) id
theorem delivers_keep (ws : List Nat) (u : State) : (ws.foldl (fun s c => deliverLeg c (legIn l (ctx s c).r.pc) s) u).fetches = u.fetches ∧
    (ws.foldl (fun s c => deliverLeg c (legIn l (ctx s c).r.pc) s) u).lcache = u.lcache := by
  have H := only_foldl (S := fun p => ∃ c, p = .ctx c) (s := u) (f := fun s c => deliverLeg c (legIn l (ctx s c).r.pc) s) ws
    (fun _ c H => deliverLeg_only ⟨c, rfl⟩ H) only_refl
  exact ⟨H .fetches (by rintro ⟨_, h⟩; cases h), H .lcache (by rintro ⟨_, h⟩; cases h)⟩
theorem returning_line {line : W32} {col : Nat} (h : returning line col f = true) : f.addr = line ∧ f.colour = col := by
  unfold returning at h
  simp only [Bool.and_eq_true, beq_iff_eq] at h
  exact ⟨h.1.1.2, h.1.2⟩
theorem fillReturn_data {line : W32} {col : Nat} (hf : s.fetches.find? (returning line col) = some f) (h1 : f.denied = false) (h2 : f.dropped = false)
    (h3 : f.stale = false) : fillReturn line col (.data l) s =
    f.waiters.foldl (fun s c => deliverLeg c (legIn l (ctx s c).r.pc) s)
      (fillLine { addr := f.addr, colour := f.colour, epoch := f.epoch, data := l } (dropFetch f s)) := by
  unfold fillReturn
  rw [hf]
  dsimp only
  rw [h1, h2, if_neg nofun, if_neg nofun, fillData, h3, if_neg nofun]

/-! ### Parking and going on -/

/-- A channel that parks (R65). -/
def parkedCtx (x : Ctx) : Ctx := { r := { x.r with state := .parked, wait := .none, desc := .none }, w := { x.w with phase := .parked, progressed := true } }
theorem afterPark_stays (hd : divertHeld u c = false) (hw : (ctx u c).r.wake = false) (hn : (ctx u c).w.woken = false) : afterPark c u = u := by
  unfold afterPark
  rw [hd, hw, hn]
  exact ite_self u
/-- A channel that has nothing to take or to wake for parks. -/
theorem park_ctx (hd : divertHeld u c = false) (hw : (ctx u c).r.wake = false) (hn : (ctx u c).w.woken = false) : ctx (park c u) c = parkedCtx (ctx u c) := by
  have K (v : State) (hv : ctx v c = parkedCtx (ctx u c)) : ctx (afterPark c v) c = parkedCtx (ctx u c) := by
    have hdv : divertHeld v c = false := by
      unfold divertHeld at hd ⊢
      rw [hv]
      exact hd
    rw [afterPark_stays hdv (by rw [hv]; exact hw) (by rw [hv]; exact hn)]
    exact hv
  have hm : ctx (modW c (fun w => { w with phase := .parked, progressed := true }) (modR c (fun r => { r with state := .parked, wait := .none, desc := .none }) u)) c =
      parkedCtx (ctx u c) := by
    rw [ctx_modW_self, ctx_modR_self]
    rfl
  unfold park
  dsimp only
  rw [hd, Bool.false_and, if_neg nofun]
  generalize modW c (fun w => { w with phase := .parked, progressed := true }) (modR c (fun r => { r with state := .parked, wait := .none, desc := .none }) u) = v at hm
  split
  · exact K _ ((ctx_of_only (offerCh_only recIn_self only_refl) (by rintro (h | h) <;> cases h)).trans hm)
  · exact K _ hm

/-- Each line of the leg cache lay there before, as it was or corrected. -/
structure NoNewLine (u v : State) : Prop where
  old : ∀ e ∈ v.lcache, ∃ x ∈ u.lcache, e.addr = x.addr
theorem noNewLine_of_eq (h : v.lcache = u.lcache) : NoNewLine u v := ⟨fun e he => ⟨e, h ▸ he, rfl⟩⟩
theorem NoNewLine.trans {w : State} (h : NoNewLine u v) (g : NoNewLine v w) : NoNewLine u w := ⟨fun e he =>
  have ⟨x, hx, ex⟩ := g.old e he
  have ⟨y, hy, ey⟩ := h.old x hx
  ⟨y, hy, ex.trans ey⟩⟩
theorem noNewLine_ite {p : Prop} [Decidable p] {x y : State} (hx : NoNewLine u x) (hy : NoNewLine u y) : NoNewLine u (if p then x else y) := by
  split
  · exact hx
  · exact hy
theorem uncorrected_lcache (n d : Nat) (x : W64) (u : State) : (uncorrected n d x u).lcache = u.lcache := lcache_of_core (core_uncorrected ..)
theorem corrected_lcache (n d : Nat) (x : W64) (u : State) : (corrected n d x u).lcache = u.lcache := lcache_of_core (core_corrected ..)
theorem readLine_noNew (e : CLine) (u : State) : NoNewLine u (readLine e u) := by
  unfold readLine
  refine noNewLine_ite ?_ (noNewLine_ite ?_ (noNewLine_of_eq rfl))
  · refine ⟨fun x hx => ?_⟩
    rw [uncorrected_lcache] at hx
    exact ⟨x, List.mem_of_mem_erase hx, rfl⟩
  · refine ⟨fun x hx => ?_⟩
    rw [corrected_lcache] at hx
    obtain ⟨y, hy, rfl⟩ := List.mem_map.1 hx
    exact ⟨y, hy, by split <;> rfl⟩
theorem touchLine_noNew (a : W32) (k : Nat) (u : State) : NoNewLine u (touchLine a k u) := by
  refine ⟨fun e he => ?_⟩
  rcases List.mem_append.1 he with h | h
  · exact ⟨e, (List.mem_filter.1 h).1, rfl⟩
  · exact ⟨e, (List.mem_filter.1 h).1, rfl⟩
theorem fetchPort_noNew (c : Nat) (u : State) : NoNewLine u (fetchPort c u) := by
  have H : Only (fun p => lookAreas p ∨ p = .ctx c ∨ p = .fetches ∨ p = .power) u (fetchPort c u) := by
    unfold fetchPort
    dsimp only
    split
    · exact goHeld_only (.inr (.inl rfl)) (.inr (.inr (.inr rfl))) only_refl
    · exact flashHold_only (.inr (.inl rfl)) (demand_only (lookIn_self.mono fun _ h => .inl h) (.inr (.inr (.inl rfl))) only_refl)
  exact noNewLine_of_eq (H .lcache (by rintro ((h | h) | h | h | h) <;> cases h))
theorem startFetch_noNew (c : Nat) (u : State) : NoNewLine u (startFetch c u) := by
  have H1 : NoNewLine u (modW c (fun w => { w with phase := .fetch }) u) := noNewLine_of_eq rfl
  unfold startFetch
  generalize modW c (fun w => { w with phase := .fetch }) u = v at H1
  dsimp only
  split
  · exact H1
  split
  · next e _ =>
    have H2 := H1.trans ((readLine_noNew e v).trans (touchLine_noNew (lineOf (ctx v c).r.pc) (legColour v c) _))
    refine noNewLine_ite (H2.trans (fetchPort_noNew ..)) (H2.trans (noNewLine_of_eq rfl))
  · exact H1.trans (fetchPort_noNew ..)
theorem goto_noNew (c : Nat) (p : W32) (u : State) : NoNewLine u (goto c p u) :=
  noNewLine_ite (noNewLine_of_eq rfl) (NoNewLine.trans (v := modR c (fun r => { r with pc := p }) u) (noNewLine_of_eq rfl) (startFetch_noNew ..))
theorem finishTo_noNew (p : W32) (h : (ctx u c).r.state ≠ .draining) : NoNewLine u (finishTo c (some p) u) := by
  unfold finishTo
  dsimp only
  rw [ctx_modW_self, if_neg (by simpa using h)]
  exact NoNewLine.trans (v := modW c (fun w => { w with legNo := w.legNo + 1, progressed := true, legAt := none, acting := false }) u)
    (noNewLine_of_eq rfl) (goto_noNew ..)

/-! ### END's read -/

section
variable {w0 : W64} (hs : (ctx u c).r.state = .active ∨ (ctx u c).r.state = .wait ∨ (ctx u c).r.state = .parked)
include hs
theorem not_draining : (ctx u c).r.state ≠ .draining := by
  rcases hs with h | h | h <;> rw [h] <;> nofun
theorem endData_parks (hn : BitVec.ofNat 32 (fld w0 63 32) = 0) :
    endData c w0 u = park c (modR c (fun r => { r with leg := { r.leg with w0 := w0 } }) u) := by
  have hd := not_draining hs
  unfold endData
  dsimp only
  rw [ctx_modR_self, if_neg (by simpa using hd)]
  exact if_pos hn
theorem endData_goes (hn : BitVec.ofNat 32 (fld w0 63 32) ≠ 0) (h4 : fld (BitVec.ofNat 32 (fld w0 63 32)) 4 0 = 0) :
    endData c w0 u = finishTo c (some (BitVec.ofNat 32 (fld w0 63 32)))
      (leaveWait c (invalidate (BitVec.ofNat 32 (fld w0 63 32)) (modR c (fun r => { r with leg := { r.leg with w0 := w0 } }) u))) := by
  have hd := not_draining hs
  unfold endData
  dsimp only
  rw [ctx_modR_self, if_neg (by simpa using hd)]
  exact (if_neg hn).trans (if_neg (fun h => h h4))
end
theorem endReturn_data {w0 : W64} (hf : s.fetches.find? (endOut c) = some f) (h1 : f.dropped = false) (h2 : f.denied = false) :
    endReturn c (.data w0) s = endData c w0 (dropFetch f s) := by
  unfold endReturn
  rw [hf]
  dsimp only
  rw [h1, h2]
  rfl

/-- Settles O16: the channels that a line serves, and where END's word sends its channel. -/
theorem legFetchesReturn : Obligations.LegFetchesReturn := by
  unfold Obligations.LegFetchesReturn
  refine ⟨fun s line col l f hf h1 h2 h3 => ?fill, fun s c w0 f hf => ⟨fun h => ?orphan, fun h1 h2 hp hn hs => ⟨fun hz hd hw hk => ?parks, fun hz h4 => ?goes⟩⟩⟩
  case fill =>
    obtain ⟨ha, hc⟩ := returning_line (List.find?_some hf)
    obtain ⟨k1, k2⟩ := delivers_keep (l := l) f.waiters (fillLine { addr := f.addr, colour := f.colour, epoch := f.epoch, data := l } (dropFetch f s))
    refine ⟨_, congrArg Host.Outcome.next (fillReturn_data hf h1 h2 h3), k1, ⟨_, k2 ▸ fillLine_mem .., ha, hc, rfl⟩, fun c hm hp => ?_⟩
    obtain ⟨d1, d2, d3⟩ := delivered_all (c := c) (l := l) hp f.waiters
      (fillLine { addr := f.addr, colour := f.colour, epoch := f.epoch, data := l } (dropFetch f s)) (.inl ⟨rfl, hm⟩)
    exact ⟨d1, d2, d3⟩
  case orphan =>
    have e : endReturn c (.data w0) s = dropFetch f s := by
      unfold endReturn
      rw [hf]
      exact if_pos h
    exact ⟨_, congrArg Host.Outcome.next e, rfl⟩
  case parks =>
    have e := (endReturn_data (w0 := w0) hf h1 h2).trans (endData_parks (u := dropFetch f s) hs hz)
    refine ⟨_, congrArg Host.Outcome.next e, ?_⟩
    have hx : ctx (modR c (fun r => { r with leg := { r.leg with w0 := w0 } }) (dropFetch f s)) c =
        { ctx s c with r := { (ctx s c).r with leg := { (ctx s c).r.leg with w0 := w0 } } } := ctx_modR_self ..
    generalize modR c (fun r => { r with leg := { r.leg with w0 := w0 } }) (dropFetch f s) = v at hx
    have hdv : divertHeld v c = false := by
      unfold divertHeld at hd ⊢
      rw [hx]
      exact hd
    dsimp only
    rw [park_ctx hdv (by rw [hx]; exact hw) (by rw [hx]; exact hk), hx]
    exact ⟨rfl, rfl, rfl, rfl, rfl⟩
  case goes =>
    have e := (endReturn_data (w0 := w0) hf h1 h2).trans (endData_goes (u := dropFetch f s) hs hz h4)
    refine ⟨_, congrArg Host.Outcome.next e, ?_⟩
    have hx : ctx (modR c (fun r => { r with leg := { r.leg with w0 := w0 } }) (dropFetch f s)) c =
        { ctx s c with r := { (ctx s c).r with leg := { (ctx s c).r.leg with w0 := w0 } } } := ctx_modR_self ..
    generalize modR c (fun r => { r with leg := { r.leg with w0 := w0 } }) (dropFetch f s) = v at hx
    generalize hq : BitVec.ofNat 32 (fld w0 63 32) = p
    have hl := leaveWait_ctx c (invalidate p v)
    rw [show ctx (invalidate p v) c = ctx v c from rfl, hx] at hl
    have hc : ∀ x ∈ (leaveWait c (invalidate p v)).lcache, x.addr ≠ lineOf p := fun x hx => ((mem_invalidate_lcache p v x).1 hx).2
    generalize leaveWait c (invalidate p v) = w at hl hc
    have hst : (ctx w c).r.state ≠ .draining := by rw [hl]; nofun
    have ha := finishTo_at (t := some p) (p := p) hst (.inl rfl)
    refine ⟨ha.pc, ha.legNo.trans (by rw [hl]), fun x hm => ?_⟩
    obtain ⟨y, hy, ey⟩ := (finishTo_noNew p hst).old x hm
    rw [ey]
    exact hc y hy

end Sys2Proof.Laws
end

section
/-! PROOFS. The pager (R57, R218 to R221, R340). -/

namespace Sys2Proof.Laws
open Sys2Proof.Machine

variable {s u v : State} {c d k n : Nat}

/-! ### A channel that goes on keeps its slot -/

/-- The slot that holds channel c's context. -/
def slotAt (c : Nat) (u : State) : Option Nat := (ctx u c).r.slot
theorem slotAt_of_ctx (h : ctx v c = ctx u c) : slotAt c v = slotAt c u := congrArg (·.r.slot) h
theorem slotAt_ite {p : Prop} [Decidable p] {x y : State} {o : Option Nat} (hx : slotAt c x = o) (hy : slotAt c y = o) : slotAt c (if p then x else y) = o := by
  split
  · exact hx
  · exact hy
theorem slotAt_modW (f : Work → Work) (u : State) : slotAt c (modW c f u) = slotAt c u := by
  unfold slotAt
  rw [ctx_modW_self]
theorem slotAt_modR {f : CtxRegs → CtxRegs} (hf : ∀ r, (f r).slot = r.slot) (u : State) : slotAt c (modR c f u) = slotAt c u := by
  unfold slotAt
  rw [ctx_modR_self]
  exact hf _
theorem slotAt_leaveWait (u : State) : slotAt c (leaveWait c u) = slotAt c u := by
  unfold slotAt
  rw [leaveWait_ctx]
theorem slotAt_enterWait (why : WaitReason) (w : WaitDesc) (u : State) : slotAt c (enterWait c why w u) = slotAt c u := by
  unfold slotAt enterWait
  rw [ctx_setCtx_self]
theorem slotAt_consume (n : Nat) (u : State) : slotAt c (consume c n u) = slotAt c u := by
  unfold consume
  split
  · exact slotAt_modW ..
  · exact slotAt_modR (by exact fun _ => rfl) u
theorem slotAt_of_at {p : W32} {r : CtxRegs} {w : Work} (H : At c p r w u) : slotAt c u = r.slot := (congrArg CtxRegs.slot H.regs :)
/-- Channel c where it stands. -/
theorem at_self (c : Nat) (u : State) : At c (ctx u c).r.pc (ctx u c).r (ctx u c).w u := ⟨rfl, rfl, rfl, rfl, rfl⟩
theorem slotAt_goto (p : W32) (u : State) : slotAt c (goto c p u) = slotAt c u := slotAt_of_at (goto_at c p u)
theorem slotAt_startFetch (u : State) : slotAt c (startFetch c u) = slotAt c u := slotAt_of_at (startFetch_at (at_self c u))
theorem slotAt_toBoundary (u : State) : slotAt c (toBoundary c u) = slotAt c u := by
  have H : slotAt c (modW c (fun w => { w with phase := .data }) u) = slotAt c u := slotAt_modW ..
  unfold toBoundary
  generalize modW c (fun w => { w with phase := .data }) u = v at H
  exact slotAt_ite H (slotAt_ite ((slotAt_enterWait ..).trans H) (slotAt_ite ((slotAt_enterWait ..).trans H)
    (slotAt_ite (slotAt_ite H (slotAt_ite ((slotAt_modW ..).trans ((slotAt_consume ..).trans H)) ((slotAt_enterWait ..).trans H))) H)))
theorem slotAt_startEndRead (u : State) : slotAt c (startEndRead c u) = slotAt c u := by
  have H : slotAt c (dropEndRead c (modW c (fun w => { w with phase := .endRead }) u)) = slotAt c u := slotAt_modW (fun w => { w with phase := .endRead }) u
  unfold startEndRead
  generalize dropEndRead c (modW c (fun w => { w with phase := .endRead }) u) = v at H
  dsimp only
  refine slotAt_ite (slotAt_ite ((slotAt_modW ..).trans H) H) ?_
  have H1 : slotAt c (modW c (fun w => { w with urgent := false }) v) = slotAt c u := (slotAt_modW ..).trans H
  generalize modW c (fun w => { w with urgent := false }) v = w at H1
  split
  · exact (slotAt_of_at (goHeld_at (at_self c w))).trans H1
  · exact (slotAt_of_at (flashHold_at ((at_self c w).of_ctx (congrFun (newFetch_ctx ..) c)))).trans H1
theorem slotAt_takeDivert (b : Bool) (u : State) : slotAt c (takeDivert c b u) = slotAt c u := by
  have H0 : slotAt c (leaveFetch c (leaveWait c u)) = slotAt c u := slotAt_leaveWait u
  unfold takeDivert
  generalize leaveFetch c (leaveWait c u) = v at H0
  dsimp only
  have H1 : slotAt c (if b then modW c (fun w => { w with woken := false, urgent := false }) (modR c (fun r => { r with wake := false }) v) else v) = slotAt c u :=
    slotAt_ite ((slotAt_modW ..).trans ((slotAt_modR (by exact fun _ => rfl) v).trans H0)) H0
  generalize (if b then modW c (fun w => { w with woken := false, urgent := false }) (modR c (fun r => { r with wake := false }) v) else v) = w at H1
  split
  · refine (slotAt_goto ..).trans ?_
    unfold slotAt at H1 ⊢
    rw [dropFire_r, ctx_modR_self, ← H1]
    exact congrArg (·.r.slot) (ctx_of_only (offer_only recIn_self only_refl) (by rintro (h | h) <;> cases h))
  · split
    · exact (slotAt_goto ..).trans ((slotAt_modW ..).trans H1)
    · exact H1
theorem slotAt_endAgain (u : State) : slotAt c (endAgain c u) = slotAt c u :=
  slotAt_ite (slotAt_takeDivert ..) (slotAt_ite rfl (slotAt_startEndRead u))
theorem slotAt_continueCh (u : State) : slotAt c (continueCh c u) = slotAt c u := by
  unfold continueCh
  split
  · exact slotAt_startFetch u
  · exact slotAt_toBoundary u
  · exact slotAt_endAgain u
  · rfl
theorem slotAt_afterPark (u : State) : slotAt c (afterPark c u) = slotAt c u :=
  slotAt_ite rfl (slotAt_ite (slotAt_takeDivert ..) (slotAt_ite
    ((slotAt_startEndRead ..).trans ((slotAt_modW ..).trans (slotAt_modR (by exact fun _ => rfl) u))) rfl))
theorem slotAt_afterPageIn (h : (ctx u c).r.state ≠ .off) : slotAt c (afterPageIn c u) = slotAt c u := by
  unfold afterPageIn
  refine slotAt_ite rfl ?_
  split
  · exact slotAt_continueCh u
  · exact slotAt_ite (slotAt_endAgain u) (slotAt_afterPark u)
  · next e => exact absurd e h
  · rfl
theorem afterPageIn_seq (h : (ctx u c).r.state ≠ .off) : Only (seqAreas c) u (afterPageIn c u) := by
  unfold afterPageIn
  refine only_ite only_refl ?_
  split
  · exact continueCh_only (seqIn_self c) only_refl
  · exact only_ite (endAgain_only (seqIn_self c) only_refl) (afterPark_only (seqIn_self c) only_refl)
  · next e => exact absurd e h
  · exact only_refl

/-! ### The words of a context are read -/

/-- What the read of channel c's words may change. -/
def pageAreas (c : Nat) : Set Area := fun p => faultAreas c p ∨ p = .legend c ∨ p = .legends ∨ p = .atlas
theorem errIn_page (c : Nat) : ErrIn (pageAreas c) := (faultIn_self c).toErrIn.mono fun _ h => .inl h
/-- Channel c, which has raised the context store's fault. -/
structure Lost (x : Ctx) : Prop where
  faulting : x.w.faulting.isSome = true
  fcode : x.r.fcode = 0x30
/-- Channel c as the words of its context are read: in its state, and as it was unless it has the fault. -/
structure WordsRead (s : State) (c : Nat) (u : State) : Prop where
  only : Only (pageAreas c) s u
  state : (ctx u c).r.state = (ctx s c).r.state
  was : ctx u c = ctx s c ∨ (ctx s c).w.faulting.isSome = true ∨ (ctx s c).r.state = .fault ∨ Lost (ctx u c)
theorem raiseFault_state (code : Nat) (a : GAddr) (l : Bool) (u : State) : (ctx (raiseFault c code a l u) c).r.state = (ctx u c).r.state := by
  unfold raiseFault
  dsimp only
  split
  · rfl
  · rw [giveUpReads_ctx, ctx_setCtx_self]
theorem faultPc_lost (h : Lost (ctx u c)) : faultPc c 0x30 u = u := by
  unfold faultPc raiseFault
  dsimp only
  rw [h.faulting]
  rfl
theorem ctx_of_err {u v : State} (H : Only errAreas u v) : ctx v c = ctx u c := ctx_of_only H (by rintro ((h | h) | ⟨_, h⟩) <;> cases h)
theorem wordsRead_congr (H : WordsRead s c u) (ho : Only (pageAreas c) s v) (h : ctx v c = ctx u c) : WordsRead s c v :=
  ⟨ho, by rw [h]; exact H.state, by rw [h]; exact H.was⟩
theorem wordsRead_fault (H : WordsRead s c u) (h0 : (ctx s c).r.state ≠ .off) : WordsRead s c (faultPc c 0x30 u) := by
  refine ⟨faultPc_only ((faultIn_self c).mono fun _ h => .inl h) H.only, (raiseFault_state ..).trans H.state, ?_⟩
  rcases H.was with h | h | h | h
  · by_cases hf : (ctx s c).w.faulting = none
    · by_cases hs : (ctx s c).r.state = .fault
      · exact .inr (.inr (.inl hs))
      · obtain ⟨h1, h2⟩ := faultPc_raises (u := u) (c := c) (code := 0x30) (by rw [h]; exact h0) (by rw [h]; exact hs) (by rw [h]; exact hf)
        exact .inr (.inr (.inr ⟨h2, h1⟩))
    · exact .inr (.inl (Option.isSome_iff_ne_none.2 hf))
  · exact .inr (.inl h)
  · exact .inr (.inr (.inl h))
  · exact .inr (.inr (.inr (by rw [faultPc_lost h]; exact h)))
theorem contextFound_read {j : Nat} (hj : j < 32) (f : Found) (H : WordsRead s c u) (h0 : (ctx s c).r.state ≠ .off) :
    WordsRead s c (contextFound (32 * c + j) f u) := by
  have hd : (32 * c + j) / 32 = c := by omega
  unfold contextFound
  split
  · exact H
  · exact wordsRead_congr H (corrected_only (errIn_page c) H.only) (ctx_of_err (corrected_only errIn_self only_refl))
  · have H1 : WordsRead s c (uncorrected 0 0 (ctxOffset (32 * c + j)) u) :=
      wordsRead_congr H (uncorrected_only (errIn_page c) H.only) (ctx_of_err (uncorrected_only errIn_self only_refl))
    unfold loseContext
    dsimp only
    rw [hd, if_neg (by rw [H1.state]; simpa using h0)]
    exact wordsRead_fault H1 h0
theorem cleanWord_read (w : Nat × Nat) (H : WordsRead s c u) : WordsRead s c (cleanWord w u) :=
  wordsRead_congr H (cleanWord_only (.inr (.inr (.inr rfl))) H.only) rfl
theorem words_read {f : State → Nat → State} (l : List Nat) (hf : ∀ u, ∀ j ∈ l, WordsRead s c u → WordsRead s c (f u j)) :
    ∀ u, WordsRead s c u → WordsRead s c (l.foldl f u) := by
  induction l with
  | nil => exact fun u H => H
  | cons j l ih => exact fun u H => ih (fun u i hi => hf u i (List.mem_cons_of_mem _ hi)) _ (hf u j List.mem_cons_self H)
/-- One word of the context is read. -/
def readWord (c k : Nat) (found : Found) (s : State) (j : Nat) : State :=
  contextFound (32 * c + j) (if j = k ∧ found ≠ .clean then found else heldError s (0, storeKey 0 (32 * c + j))) (cleanWord (0, storeKey 0 (32 * c + j)) s)
theorem contextRead_eq (c k : Nat) (found : Found) (u : State) : contextRead c k found u = (List.range 32).foldl (readWord c k found) u := rfl
theorem readWord_read {j : Nat} (hj : j < 32) (found : Found) (H : WordsRead s c u) (h0 : (ctx s c).r.state ≠ .off) :
    WordsRead s c (readWord c k found u j) := contextFound_read hj _ (cleanWord_read _ H) h0
theorem contextRead_read (c k : Nat) (found : Found) (u : State) (h0 : (ctx u c).r.state ≠ .off) : WordsRead u c (contextRead c k found u) := by
  rw [contextRead_eq]
  exact words_read _ (fun v j hj H => readWord_read (List.mem_range.1 hj) found H h0) u ⟨only_refl, rfl, .inl rfl⟩
/-- A word with an uncorrectable error faults the channel (R340). -/
theorem readWord_lost {j : Nat} (hj : j < 32) {found : Found} (H : Lost (ctx u c)) (h0 : (ctx u c).r.state ≠ .off) : Lost (ctx (readWord c k found u j) c) := by
  have hd : (32 * c + j) / 32 = c := by omega
  have hc : ctx (cleanWord (0, storeKey 0 (32 * c + j)) u) c = ctx u c := rfl
  unfold readWord
  generalize cleanWord (0, storeKey 0 (32 * c + j)) u = w at hc
  unfold contextFound
  split
  · rw [hc]; exact H
  · rw [ctx_of_err (corrected_only errIn_self only_refl), hc]; exact H
  · have hu : ctx (uncorrected 0 0 (ctxOffset (32 * c + j)) w) c = ctx u c := (ctx_of_err (uncorrected_only errIn_self only_refl)).trans hc
    unfold loseContext
    dsimp only
    rw [hd, if_neg (by rw [hu]; simpa using h0), faultPc_lost (by rw [hu]; exact H), hu]
    exact H
theorem readWord_loses {j : Nat} (hj : j < 32) (h0 : (ctx u c).r.state ≠ .off) (h1 : (ctx u c).r.state ≠ .fault) (h2 : (ctx u c).w.faulting = none) :
    Lost (ctx (readWord c j .uncorrected u j) c) := by
  have hd : (32 * c + j) / 32 = c := by omega
  have hu : ctx (uncorrected 0 0 (ctxOffset (32 * c + j)) (cleanWord (0, storeKey 0 (32 * c + j)) u)) c = ctx u c :=
    ctx_of_err (u := cleanWord (0, storeKey 0 (32 * c + j)) u) (uncorrected_only errIn_self only_refl)
  unfold readWord
  rw [if_pos ⟨rfl, nofun⟩]
  show Lost (ctx (loseContext (32 * c + j) _) c)
  unfold loseContext
  dsimp only
  rw [hd, if_neg (by rw [hu]; simpa using h0)]
  obtain ⟨f1, f2⟩ := faultPc_raises (c := c) (code := 0x30) (by rw [hu]; exact h0) (by rw [hu]; exact h1) (by rw [hu]; exact h2)
  exact ⟨f2, f1⟩
theorem contextRead_lost (hk : k < 32) (h0 : (ctx u c).r.state ≠ .off) (h1 : (ctx u c).r.state ≠ .fault) (h2 : (ctx u c).w.faulting = none) :
    Lost (ctx (contextRead c k .uncorrected u) c) := by
  have H (l : List Nat) (hl : ∀ j ∈ l, j < 32) : ∀ v, WordsRead u c v → (k ∈ l ∨ Lost (ctx v c)) → Lost (ctx (l.foldl (readWord c k .uncorrected) v) c) := by
    induction l with
    | nil => exact fun v _ h => h.resolve_left List.not_mem_nil
    | cons j l ih =>
      intro v hv h
      have hj := hl j List.mem_cons_self
      have hv0 : (ctx v c).r.state ≠ .off := by rw [hv.state]; exact h0
      have keep (hlost : Lost (ctx v c)) : Lost (ctx (readWord c k .uncorrected v j) c) := readWord_lost hj hlost hv0
      refine ih (fun i hi => hl i (List.mem_cons_of_mem _ hi)) _ (readWord_read hj _ hv h0) ?_
      rcases h with h | h
      · by_cases hjk : k = j
        · subst hjk
          rcases hv.was with e | e | e | e
          · exact .inr (readWord_loses hj hv0 (by rw [e]; exact h1) (by rw [e]; exact h2))
          · rw [h2] at e; exact absurd e nofun
          · exact absurd e h1
          · exact .inr (keep e)
        · exact .inl ((List.mem_cons.1 h).resolve_left hjk)
      · exact .inr (keep h)
  rw [contextRead_eq]
  exact H _ (fun j hj => List.mem_range.1 hj) u ⟨only_refl, rfl, .inl rfl⟩ (.inl (List.mem_range.2 hk))

/-! ### A transfer that ends -/

theorem cleanWords_atlas (l : List Nat) : ∀ u : State, ∃ x, l.foldl (fun s k => cleanWord (0, storeKey 0 (32 * d + k)) s) u = { u with atlas := x } := by
  induction l with
  | nil => exact fun u => ⟨u.atlas, rfl⟩
  | cons j l ih =>
    intro u
    obtain ⟨x, hx⟩ := ih (cleanWord (0, storeKey 0 (32 * d + j)) u)
    exact ⟨x, hx⟩
theorem pagedOut_eq (d : Nat) (u : State) : ∃ f x, pagedOut d u = { modW d f (modR d (fun r => { r with slot := none }) (dropEndRead d u)) with atlas := x } := by
  unfold pagedOut
  dsimp only
  obtain ⟨x, hx⟩ := cleanWords_atlas (d := d) (List.range 32) (modW d _ (modR d (fun r => { r with slot := none }) (dropEndRead d u)))
  exact ⟨_, x, hx⟩
/-- A context that goes out leaves its slot, and the others as they are. -/
structure GoneOut (d : Nat) (u v : State) : Prop where
  slot : slotAt d v = none
  others : ∀ c, c ≠ d → ctx v c = ctx u c
  slots : v.slots = u.slots
  glob : v.glob = u.glob
  swap : v.swap = u.swap
  ctl : v.ctl = u.ctl
theorem pagedOut_gone (d : Nat) (u : State) : GoneOut d u (pagedOut d u) := by
  obtain ⟨f, x, e⟩ := pagedOut_eq d u
  rw [e]
  refine ⟨?_, fun c h => ?_, rfl, rfl, rfl, rfl⟩
  · show slotAt d (modW d f (modR d (fun r => { r with slot := none }) (dropEndRead d u))) = none
    unfold slotAt
    rw [ctx_modW_self, ctx_modR_self]
  · show ctx (modW d f (modR d (fun r => { r with slot := none }) (dropEndRead d u))) c = ctx (dropEndRead d u) c
    exact (ctx_setCtx_ne _ _ h).trans (ctx_setCtx_ne _ _ h)
/-- What the parts of a transfer leave as they are: the slots, the swap, the count of swaps, and the control writes that wait. -/
structure SlotsKept (u v : State) : Prop where
  slots : v.slots = u.slots
  swap : v.swap = u.swap
  swaps : v.glob.swaps = u.glob.swaps
  ctl : v.ctl = u.ctl
theorem slotsKept_of_only {S : Set Area} (H : Only S u v) (h1 : .slots ∉ S) (h2 : .swap ∉ S) (h3 : .glob ∉ S) (h4 : .ctl ∉ S) : SlotsKept u v :=
  have hg : { v.glob with lochw := 0, fabhw := 0 } = { u.glob with lochw := 0, fabhw := 0 } := H .glob h3
  ⟨H .slots h1, H .swap h2, (congrArg Glob.swaps hg :), H .ctl h4⟩
theorem SlotsKept.trans {w : State} (h : SlotsKept u v) (g : SlotsKept v w) : SlotsKept u w :=
  ⟨g.slots.trans h.slots, g.swap.trans h.swap, g.swaps.trans h.swaps, g.ctl.trans h.ctl⟩
/-- The areas of the pager are in no channel's sequence. -/
theorem slots_notMem_seq {p : Area} (h : p = .slots ∨ p = .swap ∨ p = .glob ∨ p = .ctl) : p ∉ seqAreas c := by
  rintro (((h1 | h1) | ⟨_, h1⟩) | (h1 | h1) | h1 | h1 | h1 | h1 | h1) <;> rcases h with h | h | h | h <;> cases h.symm.trans h1
theorem slots_notMem_page {p : Area} (h : p = .slots ∨ p = .swap ∨ p = .glob ∨ p = .ctl) : p ∉ pageAreas c := by
  rintro ((h1 | ⟨_, h1⟩ | h1 | h1 | h1 | h1) | h1 | h1 | h1)
  · exact slots_notMem_seq h h1
  all_goals rcases h with h | h | h | h <;> cases h.symm.trans h1
theorem ctx_notMem_page (h : d ≠ c) : Area.ctx d ∉ pageAreas c := by
  rintro (((((h1 | h1) | ⟨_, h1⟩) | (h1 | h1) | h1 | h1 | h1 | h1 | h1) | ⟨_, h1⟩ | h1 | h1 | h1 | h1) | h1 | h1 | h1) <;> cases h1
  exact h rfl
theorem ctx_notMem_seq (h : d ≠ c) : Area.ctx d ∉ seqAreas c := fun h1 => ctx_notMem_page h (.inl (.inl h1))
theorem contextRead_keeps (k : Nat) (found : Found) (h : (ctx u c).r.state ≠ .off) : SlotsKept u (contextRead c k found u) ∧
    (ctx (contextRead c k found u) c).r.state = (ctx u c).r.state ∧ ∀ d, d ≠ c → ctx (contextRead c k found u) d = ctx u d := by
  have H := contextRead_read c k found u h
  exact ⟨slotsKept_of_only H.only (slots_notMem_page (.inl rfl)) (slots_notMem_page (.inr (.inl rfl))) (slots_notMem_page (.inr (.inr (.inl rfl))))
    (slots_notMem_page (.inr (.inr (.inr rfl)))), H.state, fun d hd => ctx_of_only H.only (ctx_notMem_page hd)⟩
theorem afterPageIn_keeps (h : (ctx u c).r.state ≠ .off) : SlotsKept u (afterPageIn c u) ∧ ∀ d, d ≠ c → ctx (afterPageIn c u) d = ctx u d := by
  have H := afterPageIn_seq h
  exact ⟨slotsKept_of_only H (slots_notMem_seq (.inl rfl)) (slots_notMem_seq (.inr (.inl rfl))) (slots_notMem_seq (.inr (.inr (.inl rfl))))
    (slots_notMem_seq (.inr (.inr (.inr rfl)))), fun d hd => ctx_of_only H (ctx_notMem_seq hd)⟩
/-- The context as it comes into its slot. -/
def cameIn (u : State) (n : Nat) (x : Ctx) : Ctx :=
  { r := { x.r with slot := some n }, w := { x.w with pagedAt := u.eclk, usedAt := u.eclk, progressed := false, urgent := false } }
theorem pagedIn_self (c n : Nat) (u : State) : ctx (pagedIn c n u) c = cameIn u n (ctx u c) := by
  unfold pagedIn
  dsimp only
  rw [ctx_modW_self, ctx_modR_self]
  rfl
theorem pagedIn_keeps (c n : Nat) (u : State) : (pagedIn c n u).slots = tset .free u.slots n (.used c) ∧ (pagedIn c n u).swap = u.swap ∧
    (pagedIn c n u).glob = u.glob ∧ (pagedIn c n u).ctl = u.ctl ∧ ∀ d, d ≠ c → ctx (pagedIn c n u) d = ctx u d :=
  ⟨rfl, rfl, rfl, rfl, fun _ h => (ctx_setCtx_ne _ _ h).trans (ctx_setCtx_ne _ _ h)⟩
/-- The pager as a transfer ends: no swap is under way, and one more is counted (R57). -/
def swapEnds (s : State) : State := { s with swap := none, glob := { s.glob with swaps := s.glob.swaps + 1, pagerEnd := some s.eclk } }
/-- The context that goes out has gone, and the words of the one that comes in are read. -/
def swapped (found : Found) (k c d : Nat) (s : State) : State := contextRead c k found (pagedOut d (swapEnds s))

section
variable {found : Found} {e : Nat} (hw : s.swap = some ⟨n, some c, some d, some e⟩) (he : e ≤ s.eclk) (hl : s.ctl = []) (hu : slotUse s n = .used d)
  (hd : c ≠ d) (h0 : (ctx s c).r.state ≠ .off)
include hl hd h0
theorem swapped_keeps : (swapped found k c d s).slots = s.slots ∧ (swapped found k c d s).swap = none ∧
    (swapped found k c d s).glob.swaps = s.glob.swaps + 1 ∧ (swapped found k c d s).ctl = [] ∧ slotAt d (swapped found k c d s) = none ∧
    (ctx (swapped found k c d s) c).r.state = (ctx s c).r.state := by
  have g := pagedOut_gone d (swapEnds s)
  have hx : ctx (pagedOut d (swapEnds s)) c = ctx s c := g.others c hd
  obtain ⟨k1, k2, k3⟩ := contextRead_keeps (c := c) k found (u := pagedOut d (swapEnds s)) (by rw [hx]; exact h0)
  exact ⟨k1.slots.trans g.slots, k1.swap.trans g.swap, k1.swaps.trans (congrArg Glob.swaps g.glob), k1.ctl.trans (g.ctl.trans hl),
    (slotAt_of_ctx (k3 d (Ne.symm hd))).trans g.slot, k2.trans (congrArg (·.r.state) hx)⟩
include hw he hu
theorem transferDone_eq : transferDone found k s = afterPageIn c { pagedIn c n (swapped found k c d s) with ctl := [] } := by
  have hc : (pagedIn c n (swapped found k c d s)).ctl = [] := (swapped_keeps (found := found) (k := k) hl hd h0).2.2.2.1
  have hn : slotUse (swapEnds s) n = .used d := hu
  unfold transferDone
  rw [hw]
  dsimp only
  rw [if_neg (Nat.not_lt.2 he)]
  unfold swapped at hc ⊢
  generalize hx : swapEnds s = x at hc hn ⊢
  rw [show ({ s with swap := none, glob := { s.glob with swaps := s.glob.swaps + 1, pagerEnd := some s.eclk } } : State) = x from hx, hn]
  dsimp only
  rw [if_neg nofun]
  generalize pagedIn c n (contextRead c k found (pagedOut d x)) = z at hc ⊢
  rw [hc]
  rfl
/-- The slot belongs to the context that came in (R57, R221). -/
theorem transferDone_ends : (transferDone found k s).swap = none ∧ slotUse (transferDone found k s) n = .used c ∧
    slotAt c (transferDone found k s) = some n ∧ slotAt d (transferDone found k s) = none ∧
    (transferDone found k s).glob.swaps = s.glob.swaps + 1 ∧ ∀ j, j ≠ n → slotUse (transferDone found k s) j = slotUse s j := by
  obtain ⟨a1, a2, a3, -, a5, a6⟩ := swapped_keeps (found := found) (k := k) hl hd h0
  rw [transferDone_eq hw he hl hu hd h0]
  generalize swapped found k c d s = w at a1 a2 a3 a5 a6
  obtain ⟨b1, b2, b3, -, b5⟩ := pagedIn_keeps c n w
  have b6 := pagedIn_self c n w
  generalize pagedIn c n w = y at b1 b2 b3 b5 b6
  have hy : (ctx { y with ctl := [] } c).r.state ≠ .off := by
    show (ctx y c).r.state ≠ .off
    rw [b6]
    exact fun h => h0 (a6.symm.trans h)
  obtain ⟨c1, c2⟩ := afterPageIn_keeps hy
  have c3 := slotAt_afterPageIn hy
  have hs : (afterPageIn c { y with ctl := [] }).slots = tset .free s.slots n (.used c) := c1.slots.trans (b1.trans (by rw [a1]))
  refine ⟨c1.swap.trans (b2.trans a2), ?_, c3.trans (congrArg (·.r.slot) b6 :), ?_, c1.swaps.trans ((congrArg Glob.swaps b3).trans a3), fun j hj => ?_⟩
  · unfold slotUse
    rw [hs]
    exact tget_tset_self ..
  · exact (slotAt_of_ctx (c2 d (Ne.symm hd))).trans ((slotAt_of_ctx (b5 d (Ne.symm hd))).trans a5)
  · unfold slotUse
    rw [hs]
    exact tget_tset_ne _ _ _ hj
/-- A channel whose context has a word with an uncorrectable error comes in with the fault (R340). -/
theorem transferDone_lost (hk : k < 32) (h1 : (ctx s c).r.state ≠ .fault) (h2 : (ctx s c).w.faulting = none) :
    Lost (ctx (transferDone .uncorrected k s) c) := by
  have hx : ctx (pagedOut d (swapEnds s)) c = ctx s c := (pagedOut_gone d (swapEnds s)).others c hd
  have hlost : Lost (ctx (swapped .uncorrected k c d s) c) :=
    contextRead_lost hk (by rw [hx]; exact h0) (by rw [hx]; exact h1) (by rw [hx]; exact h2)
  rw [transferDone_eq hw he hl hu hd h0]
  have hp := pagedIn_self c n (swapped .uncorrected k c d s)
  generalize pagedIn c n (swapped .uncorrected k c d s) = y at hp
  have hf : (ctx { y with ctl := [] } c).w.faulting.isSome = true := (congrArg (fun x : Ctx => x.w.faulting.isSome) hp).trans hlost.faulting
  have e : afterPageIn c { y with ctl := [] } = { y with ctl := [] } := if_pos hf
  rw [e]
  exact ⟨hf, (congrArg (fun x : Ctx => x.r.fcode) hp).trans hlost.fcode⟩
end

/-- Settles O21: the pager's choice, the slot's new context, and its fault. -/
theorem paging : Obligations.Paging := by
  unfold Obligations.Paging
  refine ⟨fun s hr hc hw => ⟨fun n c hb => ?back, fun c n v hb hf hl => ?choice⟩, fun s n c d e hr hw he hl hu hd h0 => ⟨fun k => ?done, fun k h1 h2 => ?lost⟩⟩
  case back =>
    have e : exec .pageSwap s = .next (pageSwap s) := congrArg Host.Outcome.next (if_pos (by rw [hr, hc]; rfl))
    refine ⟨_, e, ?_⟩
    unfold pageSwap
    rw [hw]
    dsimp only
    rw [hb]
  case choice =>
    have e : exec .pageSwap s = .next (pageSwap s) := congrArg Host.Outcome.next (if_pos (by rw [hr, hc]; rfl))
    refine ⟨_, e, ?_⟩
    unfold pageSwap
    rw [hw]
    dsimp only
    rw [hb, hf]
    cases v with
    | none => rfl
    | some u =>
      simp only [hl u rfl, Option.isSome_none, Bool.false_eq_true, if_false]
  case done =>
    obtain ⟨t1, t2, t3, t4, t5, t6⟩ := transferDone_ends (found := .clean) (k := k) hw he hl hu hd h0
    exact ⟨_, congrArg Host.Outcome.next (if_pos hr), t1, t2, t3, t4, t5, t6⟩
  case lost =>
    obtain ⟨-, t2, t3, -⟩ := transferDone_ends (found := .uncorrected) (k := k) hw he hl hu hd h0
    obtain ⟨t4, t5⟩ := transferDone_lost hw he hl hu hd h0 k.isLt h1 h2
    exact ⟨_, congrArg Host.Outcome.next (if_pos hr), t2, t3, t4, t5⟩

end Sys2Proof.Laws
end

section
/-! SUPPORT. A frame that is taken at this node, and what leaves by the link ports. -/

namespace Sys2Proof.Laws
open Sys2Proof.Machine

variable {s u v : State} {p n : Nat} {f : Frame}

/-! ### What the ports' queues and words leave -/

/-- The router without its ports. -/
def portless (x : Fab) : Fab := { x with ports := [] }
/-- The state without the router. -/
def offFab (u : State) : State := { u with fab := {} }
/-- Only the link ports differ. -/
structure PortsOnly (u v : State) : Prop where
  fab : portless v.fab = portless u.fab
  rest : offFab v = offFab u
theorem PortsOnly.trans {w : State} (h : PortsOnly u v) (g : PortsOnly v w) : PortsOnly u w := ⟨g.fab.trans h.fab, g.rest.trans h.rest⟩
theorem portsOnly_refl : PortsOnly u u := ⟨rfl, rfl⟩
theorem portsOnly_setPort (p : Nat) (x : LinkPort) (u : State) : PortsOnly u (setPort p x u) := ⟨rfl, rfl⟩
theorem portsOnly_queueTx (p : Nat) (t : TxF) (u : State) : PortsOnly u (queueTx p t u) := ⟨rfl, rfl⟩
theorem portsOnly_owe (p : Nat) (w : LinkWord) (u : State) : PortsOnly u (owe p w u) := ⟨rfl, rfl⟩
theorem portsOnly_freeFlits (o : Option Nat) (f : Frame) (u : State) : PortsOnly u (freeFlits o f u) := by
  unfold freeFlits
  split
  · split
    · exact portsOnly_owe ..
    · exact portsOnly_refl
  · exact portsOnly_refl
theorem portsOnly_sendPath (l : List Nat) (f : Frame) (u : State) : PortsOnly u (sendPath l f u) := by
  unfold sendPath
  split
  · split
    · exact portsOnly_queueTx ..
    · exact portsOnly_refl
  · exact portsOnly_refl
/-- A frame that is taken: the link is up, it carries the LSEQ expected, and it is acknowledged (R351). -/
theorem takeFrame_some (h : takeFrame p f s = some u) : quiet s = false ∧ (port s p).up = true ∧ (port s p).rxLseq = f.hdr.lseq ∧
    u = owe p (.ack f.hdr.lseq) (setPort p { port s p with rxLseq := (port s p).rxLseq + 1, rxWait := false } s) := by
  unfold takeFrame at h
  dsimp only at h
  split at h
  · exact absurd h nofun
  · next hc =>
    simp only [Bool.or_eq_true, Bool.not_eq_true', bne_iff_ne, ne_eq, not_or, Bool.not_eq_true, Bool.not_eq_false, not_not] at hc
    exact ⟨hc.1.1, hc.1.2, hc.2, (Option.some.inj h).symm⟩
theorem takeFrame_ports (h : takeFrame p f s = some u) : PortsOnly s u := by
  rw [(takeFrame_some h).2.2.2]
  exact (portsOnly_setPort ..).trans (portsOnly_owe ..)
theorem port_setPort_ne (x : LinkPort) (u : State) (h : n ≠ p) : port (setPort p x u) n = port u n := tget_tset_ne _ _ _ h
theorem owe_up (p : Nat) (w : LinkWord) (u : State) (n : Nat) : (port (owe p w u) n).up = (port u n).up := by
  unfold owe modP
  by_cases h : n = p
  · subst h; rw [port_setPort_self]
  · rw [port_setPort_ne _ _ h]
theorem freeFlits_up (o : Option Nat) (f : Frame) (u : State) (n : Nat) : (port (freeFlits o f u) n).up = (port u n).up := by
  unfold freeFlits
  split
  · split
    · exact owe_up ..
    · rfl
  · rfl
theorem takeFrame_up (h : takeFrame p f s = some u) (n : Nat) : (port u n).up = (port s n).up := by
  rw [(takeFrame_some h).2.2.2, owe_up]
  by_cases e : n = p
  · subst e; rw [port_setPort_self]
  · rw [port_setPort_ne _ _ e]

/-- The state in which the router acts on a frame that is taken: its flits have left the buffer. -/
def taken (p : Nat) (f : Frame) (u : State) : State := freeFlits (some p) f u
theorem taken_ports (h : takeFrame p f s = some u) : PortsOnly s (taken p f u) := (takeFrame_ports h).trans (portsOnly_freeFlits ..)
theorem taken_usable (h : takeFrame p f s = some u) (n : Nat) : usable (taken p f u) n = usable s n := by
  have hf : (taken p f u).fences = s.fences := (congrArg State.fences (taken_ports h).rest :)
  unfold usable
  rw [hf, show (port (taken p f u) n).up = (port s n).up from (freeFlits_up ..).trans (takeFrame_up h n)]
/-- A frame that is taken, and goes to no other node, is acted on (R356). -/
theorem receiveAt_acts {r l : Nat} (he : s.fab.en = true) (h : takeFrame p f s = some u) (ho : onward u p f = none) :
    receiveAt p r l f s = act p r l f (taken p f u) := by
  have hu : u.fab.en = true := (congrArg Fab.en (takeFrame_ports h).fab :).trans he
  unfold receiveAt
  rw [h]
  dsimp only
  rw [hu, ho]
  rfl

/-! ### The map, and what else leaves it -/

/-- The router without its ports and the survey's state: the map among them. -/
def chart (x : Fab) : Fab := { x with ports := [], survey := {}, surveyed := false }
theorem PortsOnly.chart (h : PortsOnly u v) : chart v.fab = chart u.fab := (congrArg Laws.chart h.fab :)
theorem setSurvey_chart (g : Survey → Survey) (u : State) : chart (setSurvey g u).fab = chart u.fab := rfl
theorem offer_fab (p : Plane) (o : Option Nat) (r : Rec) (u : State) : (offer p o r u).fab = u.fab := by
  unfold offer
  split <;> rfl
theorem fabRec_fab (t k m d : Nat) (x : W64) (u : State) : (fabRec t k m d x u).fab = u.fab := by
  unfold fabRec
  split
  · exact offer_fab ..
  · rfl
theorem fab_of_core (h : core v = core s) : v.fab = s.fab := (congrArg State.fab h :)
theorem offered_of_core (h : core v = core s) : v.offered = s.offered := (congrArg State.offered h :)
theorem submit_fab (w : Want) (u : State) : (submit w u).fab = u.fab := by
  unfold submit
  split
  · exact fab_of_core (v := (beginLookup (askOf w) u).1) (core_beginLookup ..)
  · rfl
theorem endSurvey_chart (code : BitVec 2) (u : State) : chart (endSurvey code u).fab = chart u.fab := by
  unfold endSurvey
  rw [fabRec_fab]
  rfl
theorem surveyOver_chart (u : State) : chart (surveyOver u).fab = chart u.fab := by
  unfold surveyOver
  dsimp only
  split
  · exact endSurvey_chart ..
  · rfl
theorem walk_chart (k : Nat) : ∀ u : State, chart (walk k u).fab = chart u.fab := by
  induction k with
  | zero => exact fun u => rfl
  | succ k ih =>
    intro u
    unfold walk
    split
    · exact surveyOver_chart u
    · dsimp only
      split
      · exact (ih _).trans rfl
      split
      · exact (ih _).trans rfl
      split
      · exact (ih _).trans rfl
      · exact (portsOnly_sendPath ..).chart.trans rfl
theorem walkOn_chart (u : State) : chart (walkOn u).fab = chart u.fab := walk_chart ..
theorem writeMap_fab (m : Nat) (e : MapEnt) (b : Bool) (u : State) : (writeMap m e b u).fab = u.fab := by
  unfold writeMap
  exact (submit_fab ..).trans (submit_fab ..)
theorem sendSv_chart (l : List Nat) (a : Bool) (i : Nat) (u : State) : chart (sendSv l a i u).fab = chart u.fab := (portsOnly_sendPath ..).chart
theorem nextNote_chart (u : State) : chart (nextNote u).fab = chart u.fab := by
  unfold nextNote
  split
  · rfl
  split
  · rfl
  · dsimp only
    split
    · split
      · exact (sendSv_chart ..).trans ((setSurvey_chart ..).trans (setSurvey_chart ..))
      · rfl
    · split
      · split
        · exact (walkOn_chart _).trans ((setSurvey_chart ..).trans ((setSurvey_chart ..).trans (setSurvey_chart ..)))
        · exact (sendSv_chart ..).trans ((setSurvey_chart ..).trans ((setSurvey_chart ..).trans (setSurvey_chart ..)))
      · rfl

end Sys2Proof.Laws
end

section
/-! PROOFS. The route load (R360, R367). -/

namespace Sys2Proof.Laws
open Sys2Proof.Machine

variable {s u v : State} {b : Initiator} {p n k : Nat}

/-! ### The route table -/

theorem checkParent_fab (u : State) : portless (checkParent u).fab = portless u.fab := by
  have H (w : State) (h : w.fab = u.fab) : (startHoldover w).fab = u.fab := h
  unfold checkParent
  split
  · unfold pathLost
    dsimp only
    split
    · split
      · rfl
      · exact congrArg portless (H _ rfl)
    · rfl
  · rfl
theorem routeEntry_writeRoute (n : Nat) (x : W32) (u : State) (k : Nat) :
    routeEntry (writeRoute n x u) k = if k = n then x &&& 0x3F else routeEntry u k := by
  have h : (writeRoute n x u).fab.routes = tset 0 u.fab.routes n (x &&& 0x3F) := (congrArg Fab.routes (checkParent_fab _) :)
  unfold routeEntry
  rw [h, tget_tset]
/-- An RL frame's entries, written in a row from its first (R367). -/
def writeEntries (first : Nat) (l : List (W32 × Nat)) (u : State) : State :=
  l.foldl (fun s e => if first + e.2 < 4096 then writeRoute (first + e.2) e.1 s else s) u
theorem routeEntry_writeEntries (first : Nat) (l : List W32) : ∀ (k : Nat) (u : State) (n : Nat), routeEntry (writeEntries first (l.zipIdx k) u) n =
    if first + k ≤ n ∧ n < first + k + l.length ∧ n < 4096 then l.getD (n - (first + k)) 0 &&& 0x3F else routeEntry u n := by
  induction l with
  | nil =>
    intro k u n
    rw [if_neg (by simp only [List.length_nil]; omega)]
    rfl
  | cons x l ih =>
    intro k u n
    have e : writeEntries first ((x :: l).zipIdx k) u =
        writeEntries first (l.zipIdx (k + 1)) (if first + k < 4096 then writeRoute (first + k) x u else u) := rfl
    have h0 : routeEntry (if first + k < 4096 then writeRoute (first + k) x u else u) n =
        if n = first + k ∧ n < 4096 then x &&& 0x3F else routeEntry u n := by
      split
      · rw [routeEntry_writeRoute]
        by_cases h : n = first + k
        · rw [if_pos h, if_pos ⟨h, by omega⟩]
        · rw [if_neg h, if_neg (fun g => h g.1)]
      · rw [if_neg (by omega)]
    rw [e, ih, h0, List.length_cons]
    by_cases h1 : n = first + k
    · subst h1
      rw [if_neg (by omega), Nat.sub_self]
      by_cases h2 : first + k < 4096
      · rw [if_pos ⟨rfl, h2⟩, if_pos (by omega)]
        rfl
      · rw [if_neg (by omega), if_neg (by omega)]
    · have hx : (if n = first + k ∧ n < 4096 then x &&& 0x3F else routeEntry u n) = routeEntry u n := if_neg (fun g => h1 g.1)
      rw [hx]
      by_cases h2 : first + (k + 1) ≤ n ∧ n < first + (k + 1) + l.length ∧ n < 4096
      · rw [if_pos h2, if_pos (by omega), show n - (first + k) = n - (first + (k + 1)) + 1 by omega]
        rfl
      · rw [if_neg h2, if_neg (by omega)]
theorem routeEntry_of_portless (h : portless v.fab = portless u.fab) (n : Nat) : routeEntry v n = routeEntry u n := by
  unfold routeEntry
  rw [show v.fab.routes = u.fab.routes from (congrArg Fab.routes h :)]
/-- The state in which an RL's entries are written, and the frame is answered (R367). -/
def entriesTaken (p : Nat) (first : Nat) (entries : List W32) (u : State) : State :=
  sendPath [p] ⟨hdr (writeEntries first entries.zipIdx u) false 0 (0 : BitVec 12).toNat false, .ack 0 0⟩ (writeEntries first entries.zipIdx u)
/-- READY.SURVEY is set with the last frame (R402). -/
def surveyTold (u : State) : State :=
  fabRec 0x45 0 0 (u.fab.nodes + 2 ^ 31) (BitVec.setWidth 64 u.fab.survey.code) { u with fab := { u.fab with surveyed := true } }
theorem cameRl_eq {h : Hdr} {last : Bool} {first : W16} {entries : List W32} (h0 : h.src = 0) (ha : u.fab.rlacc = true) :
    cameRl p h last first entries u = if last then surveyTold (entriesTaken p first.toNat entries u) else entriesTaken p first.toNat entries u := by
  unfold cameRl
  dsimp only
  rw [h0, ha]
  rfl
/-- An RL that the node accepts (R367). -/
theorem cameRl_accepted {h : Hdr} {last : Bool} {first : W16} {entries : List W32} (h0 : h.src = 0) (ha : u.fab.rlacc = true) (n : Nat) :
    routeEntry (cameRl p h last first entries u) n = routeEntry (writeEntries first.toNat entries.zipIdx u) n ∧
    (last = true → (cameRl p h last first entries u).fab.surveyed = true) := by
  have hk : routeEntry (entriesTaken p first.toNat entries u) n = routeEntry (writeEntries first.toNat entries.zipIdx u) n :=
    routeEntry_of_portless (portsOnly_sendPath ..).fab n
  have hs : (surveyTold (entriesTaken p first.toNat entries u)).fab = { (entriesTaken p first.toNat entries u).fab with surveyed := true } := fabRec_fab ..
  rw [cameRl_eq h0 ha]
  cases last
  · exact ⟨hk, nofun⟩
  · exact ⟨Eq.trans (congrArg (fun x : Fab => tget 0 x.routes n) hs :) hk, fun _ => (congrArg Fab.surveyed hs :)⟩

/-! ### A load -/

theorem submits_fab {α : Type} (g : α → Want) (l : List α) : ∀ u : State, (l.foldl (fun s i => submit (g i) s) u).fab = u.fab := by
  induction l with
  | nil => exact fun u => rfl
  | cons i l ih => exact fun u => (ih _).trans (submit_fab ..)
theorem submits_offered {α : Type} (g : α → Want) (l : List α) : ∀ u : State,
    (l.foldl (fun s i => submit (g i) s) u).offered.length = u.offered.length + l.length := by
  induction l with
  | nil => exact fun u => rfl
  | cons i l ih =>
    intro u
    obtain ⟨a, ha, -⟩ := submit_offered (g i) u
    rw [List.foldl_cons, ih, ha, List.length_append, List.length_cons, List.length_cons, List.length_nil]
    omega
theorem readImage_reads (u : State) : (readImage u).fab.load = { u.fab.load with reads := 16, got := [], sentAt := none } ∧
    (readImage u).offered.length = u.offered.length + 16 := by
  unfold readImage
  dsimp only
  rw [submits_fab, submits_offered]
  exact ⟨rfl, rfl⟩
theorem startLoad_starts (node : BitVec 12) (image : BitVec 27) (u : State) :
    (startLoad node image u).fab.load.node = u.fab.load.node ∧ (startLoad node image u).fab.load.image = u.fab.load.image ∧
    (startLoad node image u).fab.load.frame = 0 ∧
    if mapAt u node.toNat = none then (startLoad node image u).fab.load.busy = false ∧ (startLoad node image u).fab.load.code = 1
    else (startLoad node image u).fab.load.busy = true ∧ (startLoad node image u).fab.load.reads = 16 ∧
      (startLoad node image u).offered.length = u.offered.length + 16 := by
  have hm : mapAt (setLoad (fun x => { x with no := x.no + 1, busy := true, toNode := node, from_ := image, frame := 0 }) u) node.toNat = mapAt u node.toNat := rfl
  unfold startLoad
  dsimp only
  rw [hm]
  cases mapAt u node.toNat with
  | none => exact ⟨rfl, rfl, rfl, rfl, rfl⟩
  | some e =>
    obtain ⟨h1, h2⟩ := readImage_reads (setLoad (fun x => { x with no := x.no + 1, busy := true, toNode := node, from_ := image, frame := 0 }) u)
    rw [Option.isSome_some, if_pos rfl, if_neg nofun, h1, h2]
    exact ⟨rfl, rfl, rfl, rfl, rfl, rfl⟩
theorem ofNat_fld (w : W64) : (BitVec.ofNat 12 (fld w 11 0)).toNat = fld w 11 0 := by
  rw [BitVec.toNat_ofNat]
  exact Nat.mod_mod _ _
/-- STE_FAB_LOAD with GO (R367). -/
theorem writeLoad_go (w : W64) (u : State) : writeLoad (setBit w 12 true) u =
    let x := setLoad (fun x => { x with node := BitVec.ofNat 12 (fld w 11 0), image := BitVec.ofNat 27 (fld w 63 37) }) u
    if u.fab.load.busy then x else startLoad (BitVec.ofNat 12 (fld w 11 0)) (BitVec.ofNat 27 (fld w 63 37)) x := by
  unfold writeLoad
  dsimp only
  rw [fld_setBit w (by decide) (.inr (by decide)), fld_setBit w (by decide) (.inl (by decide)), bit_setBit_self w (by decide)]
  show (if (true && !u.fab.load.busy) = true then _ else _) = _
  cases u.fab.load.busy <;> rfl

/-- Settles O44: the load's start, the entries of a frame, its time limit, and one entry. -/
theorem routesAreLoaded : Obligations.RoutesAreLoaded := by
  unfold Obligations.RoutesAreLoaded
  refine fun s u b v w node p h x last first entries => ⟨fun ho hb => ?start, fun ho hb => ?busy, fun he hp hl ha ht h0 hr => ?rl, fun a hb hs hw => ?timeout, fun ho => ?write⟩
  case start =>
    refine completes_regCore ho rfl fun y _ hy => ?_
    have hf := fab_of_core hy
    have hof := offered_of_core hy
    rw [writeLoad_go, hf, hb]
    dsimp only
    rw [if_neg nofun]
    obtain ⟨h1, h2, h3, h4⟩ := startLoad_starts (BitVec.ofNat 12 (fld v 11 0)) (BitVec.ofNat 27 (fld v 63 37))
      (setLoad (fun x => { x with node := BitVec.ofNat 12 (fld v 11 0), image := BitVec.ofNat 27 (fld v 63 37) }) y)
    have hm : mapAt (setLoad (fun x => { x with node := BitVec.ofNat 12 (fld v 11 0), image := BitVec.ofNat 27 (fld v 63 37) }) y) (fld v 11 0) = mapAt s (fld v 11 0) := by
      show tget none y.fab.map _ = _
      rw [hf]
      rfl
    have ho : (setLoad (fun x => { x with node := BitVec.ofNat 12 (fld v 11 0), image := BitVec.ofNat 27 (fld v 63 37) }) y).offered = s.offered := hof
    rw [ofNat_fld, hm, ho] at h4
    exact ⟨h1, h2, h3, h4⟩
  case busy =>
    refine completes_regCore ho rfl fun y _ hy => ?_
    have hf := fab_of_core hy
    have hof := offered_of_core hy
    rw [writeLoad_go, hf, hb]
    refine ⟨?_, hof⟩
    rw [← hf]
    rfl
  case rl =>
    have hx : onward u p ⟨h, .rl x last first entries⟩ = none := if_pos ha
    refine ⟨_, (if_pos (by rw [hp, hl]; rfl)).trans (congrArg Host.Outcome.next (receiveAt_acts he ht hx)), ?_⟩
    have hk := (taken_ports ht).fab
    have hn : entries.length = 64 := of_decide_eq_true hl
    have hc (n : Nat) := cameRl_accepted (p := p) (last := last) (first := first) (entries := entries) h0
      ((congrArg Fab.rlacc hk :).trans hr) n
    have hr (n : Nat) := (hc n).1.trans (routeEntry_writeEntries first.toNat entries 0 _ n)
    refine ⟨fun n h1 h2 h3 => (hr n).trans ?_, fun n h1 => (hr n).trans ?_, (hc 0).2⟩
    · rw [if_pos (by omega)]
      rfl
    · rw [if_neg (by omega)]
      exact routeEntry_of_portless hk n
  case timeout =>
    have e : rlTimeout s = endLoad 2 s := by
      unfold rlTimeout
      rw [hs]
      exact if_pos (by simp [hb, hw])
    exact ⟨_, congrArg Host.Outcome.next e, rfl, rfl, rfl⟩
  case write =>
    refine completes_hostCore ho rfl fun y _ hy _ => ?_
    have hp : (portAnswer b false y).fab = s.fab := (congrArg State.fab (core_portAnswer ..) :).trans (fab_of_core hy)
    refine ⟨(routeEntry_writeRoute ..).trans (if_pos rfl), fun n hn => (routeEntry_writeRoute ..).trans ((if_neg hn).trans ?_)⟩
    exact routeEntry_of_portless (congrArg portless hp) n

end Sys2Proof.Laws
end

section
/-! PROOFS. The survey (R365, R366, R368). -/

namespace Sys2Proof.Laws
open Sys2Proof.Machine

variable {s u v : State} {b : Initiator} {p n : Nat}

/-! ### The map as the survey writes it -/

theorem fabRec_chart (t k m d : Nat) (x : W64) (u : State) : chart (fabRec t k m d x u).fab = chart u.fab := congrArg chart (fabRec_fab ..)
theorem writeMap_chart (m : Nat) (e : MapEnt) (b : Bool) (u : State) : chart (writeMap m e b u).fab = chart u.fab := congrArg chart (writeMap_fab ..)
theorem chart_ite {c : Prop} [Decidable c] {x y : State} {f : Fab} (hx : chart x.fab = f) (hy : chart y.fab = f) : chart (if c then x else y).fab = f := by
  split
  · exact hx
  · exact hy
/-- The map with entry i, and one more node. -/
def addNode (i : Nat) (e : MapEnt) (x : Fab) : Fab := { x with map := tset none x.map i (some e), nodes := x.nodes + 1 }
theorem addNode_chart {x y : Fab} (i : Nat) (e : MapEnt) (h : chart x = chart y) : chart (addNode i e x) = chart (addNode i e y) := by
  unfold addNode
  exact (congrArg (fun z : Fab => { z with map := tset none z.map i (some e), nodes := z.nodes + 1 }) h :)
theorem mapNode_chart (path : List Nat) (id : Nat) (uid : W64) (arr : Nat) (want : BitVec 12) (lost : Bool) (ports : List PortInfo) (u : State) :
    chart (mapNode path id uid arr want lost ports u).fab =
      chart (addNode id { uid := uid, path := path, arr := arr, want := want, wantLost := lost, ports := ports } u.fab) := by
  have h := addNode_chart id { uid := uid, path := path, arr := arr, want := want, wantLost := lost, ports := ports } (sendSv_chart path true id u)
  unfold mapNode
  dsimp only
  generalize sendSv path true id u = w at h
  refine (walkOn_chart _).trans ((writeMap_chart ..).trans ?_)
  exact chart_ite ((fabRec_chart ..).trans ((setSurvey_chart ..).trans h)) ((setSurvey_chart ..).trans h)
/-- An SVR maps a new node under its own ID when that is free (R365). -/
theorem svrCame_chart {path : List Nat} {uid : W64} {id want : BitVec 12} {wantv : Bool} {arr : Nat} {ports : List PortInfo}
    (hu : ∀ e ∈ u.fab.map, ∀ m, e.2 = some m → m.uid ≠ uid) (hf : mapAt u id.toNat = none) :
    chart (svrCame path uid id true want wantv arr ports u).fab =
      chart (addNode id.toNat { uid := uid, path := path, arr := arr, want := want, wantLost := wantv && id.toNat != want.toNat, ports := ports } u.fab) := by
  have hfree : freeId (setSurvey (fun x => { x with await := none }) u) id.toNat = true := by
    show (mapAt u id.toNat).isNone = true
    rw [hf]
    rfl
  have e : svrCame path uid id true want wantv arr ports u =
      mapNode path id.toNat uid arr want (wantv && id.toNat != want.toNat) ports (setSurvey (fun x => { x with await := none }) u) := by
    unfold svrCame
    dsimp only
    rw [hfree]
    refine (if_neg ?_).trans rfl
    rw [Bool.not_eq_true, List.any_eq_false]
    intro y hy
    cases h : y.2 with
    | none => nofun
    | some m => simpa using hu y hy m h
  rw [e, mapNode_chart]
  exact addNode_chart _ _ rfl
theorem mapAt_addNode {e : MapEnt} {i : Nat} (h : chart v.fab = chart (addNode i e u.fab)) : mapAt v i = some e ∧ v.fab.nodes = u.fab.nodes + 1 := by
  unfold mapAt
  rw [show v.fab.map = tset none u.fab.map i (some e) from (congrArg Fab.map h :)]
  exact ⟨tget_tset_self .., (congrArg Fab.nodes h :)⟩
/-- The map without entry n. -/
def dropNode (n : Nat) (x : Fab) : Fab := { x with map := tset none x.map n none, nodes := x.nodes - 1 }
theorem leaveEnds_chart {e : MapEnt} (h : mapAt u n = some e) : chart (leaveEnds n false u).fab = chart (dropNode n u.fab) := by
  have hm : mapAt (setSurvey (fun x => { x with leaving := none, await := none }) u) n = some e := h
  unfold leaveEnds
  dsimp only
  rw [if_neg nofun, hm]
  exact (fabRec_chart ..).trans (writeMap_chart ..)

/-! ### GO, and an SV at its target -/

/-- The root's entry as a survey starts (R365). -/
def rootEntry (u : State) : MapEnt :=
  { uid := u.straps.uid, path := [], arr := 0, want := u.fab.want, wantLost := u.fab.wantv && u.fab.want != 0, ports := [0, 1, 2, 3].map (portInfo u) }
theorem startSurvey_chart (u : State) : chart (startSurvey u).fab = chart { u.fab with id := 0, idv := true, nodes := 1, map := [(0, some (rootEntry u))] } := by
  unfold startSurvey
  exact (walkOn_chart _).trans ((writeMap_chart ..).trans (setSurvey_chart ..))
theorem mapAt_root {e : MapEnt} (h : v.fab.map = [(0, some e)]) (m : Nat) : mapAt v m = if 0 = m then some e else none := by
  unfold mapAt
  rw [h]
  show (tfind? ((0, some e) :: []) m).getD none = _
  rw [tfind_cons]
  split <;> rfl
theorem mem_queueFrame {f : Frame} (h : f.hdr.rt = false) : ⟨f, none, true, false, 0⟩ ∈ (port (queueFrame p f u) p).txBulk := by
  unfold queueFrame queueTx modP
  rw [port_setPort_self]
  dsimp only
  rw [h]
  exact List.mem_append_right _ (List.mem_singleton_self _)

theorem sendPath_goes {l : List Nat} {f : Frame} (h : (u.fab.en && usable u p) = true) : sendPath (p :: l) f u = queueFrame p f u := if_pos h
/-- The SVR with which a node answers a query (R365, R366). -/
def svAnswer (p : Nat) (x : Path) (u : State) : Frame :=
  ⟨hdr u false 0 0 false, .svr (mkPath (pathBack p x)) u.straps.uid u.fab.id u.fab.idv u.fab.want u.fab.wantv (BitVec.ofNat 2 p) ([0, 1, 2, 3].map (portInfo u))⟩
theorem cameSv_query (p : Nat) (x : Path) (id : BitVec 12) (u : State) : cameSv p x false id u = sendPath [p] (svAnswer p x u) u := rfl

/-- Settles O43: the map after GO, what an SV does at its target, and the nodes that come and go. -/
theorem surveyMapsTheNodes : Obligations.SurveyMapsTheNodes := by
  unfold Obligations.SurveyMapsTheNodes
  refine fun s u b p h x assign id uid want wantv arr ports => ⟨fun ho hr => ?elsewhere, fun ho hr hb => ?go, fun he hp ha ht => ?sv,
    fun he hp hl ha ht hw hn hu hf => ?svr, fun n e hw ht hn hm => ?timeout⟩
  case elsewhere =>
    refine completes_regCore ho rfl fun y _ hy => ?_
    have hf := fab_of_core hy
    have e : surveyGo y = y := if_pos (by rw [hf, hr]; rfl)
    rw [e]
    exact hf
  case go =>
    refine completes_regCore ho rfl fun y _ hy => ?_
    have hf := fab_of_core hy
    have hs : y.straps = s.straps := straps_of_core hy
    have e : surveyGo y = startSurvey { y with fab := { y.fab with surveyed := false } } := by
      unfold surveyGo
      dsimp only
      rw [hf, hr, hb]
      rfl
    rw [e]
    have hc := startSurvey_chart { y with fab := { y.fab with surveyed := false } }
    have hm : (startSurvey { y with fab := { y.fab with surveyed := false } }).fab.map = [(0, some (rootEntry { y with fab := { y.fab with surveyed := false } }))] :=
      (congrArg Fab.map hc :)
    refine ⟨(congrArg Fab.id hc :), (congrArg Fab.idv hc :), (congrArg Fab.nodes hc :), fun m h0 => ?_, _, (mapAt_root hm 0).trans (if_pos rfl), ?_, rfl⟩
    · rw [mapAt_root hm, if_neg (Ne.symm h0)]
    · exact congrArg Straps.uid hs
  case sv =>
    have hx : onward u p ⟨h, .sv x assign id⟩ = none := if_pos ha
    refine ⟨_, (if_pos hp).trans (congrArg Host.Outcome.next (receiveAt_acts he ht hx)), ?_⟩
    have hk := taken_ports ht
    have hus := taken_usable ht p
    generalize taken p ⟨h, .sv x assign id⟩ u = w at hk hus
    have hmk : w.marks = s.marks := (congrArg State.marks hk.rest :)
    have hcl : w.eclk = s.eclk := (congrArg State.eclk hk.rest :)
    have hst : w.straps = s.straps := (congrArg State.straps hk.rest :)
    cases assign
    · have e : act p 0 0 ⟨h, .sv x false id⟩ w = sendPath [p.val] (svAnswer p x w) w := cameSv_query ..
      rw [e]
      refine ⟨(congrArg Fab.id (hk.trans (portsOnly_sendPath ..)).fab :), fun hu => ?_⟩
      rw [sendPath_goes (by rw [hus, hu, show w.fab.en = s.fab.en from (congrArg Fab.en hk.fab :), he]; rfl)]
      refine ⟨_, mem_queueFrame rfl, mkPath (pathBack p x), [0, 1, 2, 3].map (portInfo w), ?_⟩
      dsimp only [svAnswer]
      rw [hst, show w.fab.id = s.fab.id from (congrArg Fab.id hk.fab :), show w.fab.idv = s.fab.idv from (congrArg Fab.idv hk.fab :),
        show w.fab.want = s.fab.want from (congrArg Fab.want hk.fab :), show w.fab.wantv = s.fab.wantv from (congrArg Fab.wantv hk.fab :)]
    · refine ⟨rfl, fun hn => ?_⟩
      have hn' : setNow w (w1cKey 0x6008 12) = false := by
        unfold setNow at hn ⊢
        rw [hmk, hcl]
        exact hn
      show (if setNow w (w1cKey 0x6008 12) then _ else true) = true
      rw [hn']
      rfl
  case svr =>
    have hx : onward u p ⟨h, .svr x uid id true want wantv arr ports⟩ = none := if_pos ha
    refine ⟨_, (if_pos (by rw [hp, hl]; rfl)).trans (congrArg Host.Outcome.next (receiveAt_acts he ht hx)), ?_⟩
    have hk := (taken_ports ht).fab
    generalize taken p ⟨h, .svr x uid id true want wantv arr ports⟩ u = w at hk
    have hm : w.fab.map = s.fab.map := (congrArg Fab.map hk :)
    have hv : w.fab.survey = s.fab.survey := (congrArg Fab.survey hk :)
    have e : act p 0 0 ⟨h, .svr x uid id true want wantv arr ports⟩ w = nextNote (svrCame (pathBack p x) uid id true want wantv arr.toNat ports w) := by
      show cameSvr p x uid id true want wantv arr ports w = _
      unfold cameSvr
      dsimp only
      rw [hv, hw, hn]
      exact if_pos (by simp)
    have hc := (nextNote_chart (svrCame (pathBack p x) uid id true want wantv arr.toNat ports w)).trans
      (svrCame_chart (path := pathBack p x) (want := want) (wantv := wantv) (arr := arr.toNat) (ports := ports) (hm ▸ hu) (by unfold mapAt at hf ⊢; rw [hm]; exact hf))
    rw [← e] at hc
    obtain ⟨h1, h2⟩ := mapAt_addNode hc
    exact ⟨h2.trans (congrArg (·.nodes + 1) hk :), h1⟩
  case timeout =>
    have e : svTimeout s = nextNote (leaveEnds n false s) := by
      unfold svTimeout
      rw [hw, hn]
      exact if_pos (by simp [ht])
    refine ⟨_, congrArg Host.Outcome.next e, ?_⟩
    have hc := (nextNote_chart (leaveEnds n false s)).trans (leaveEnds_chart hm)
    refine ⟨?_, (congrArg Fab.nodes hc :)⟩
    unfold mapAt
    rw [show (nextNote (leaveEnds n false s)).fab.map = tset none s.fab.map n none from (congrArg Fab.map hc :)]
    exact tget_tset_self ..

end Sys2Proof.Laws
end

section
/-! PROOFS. Remote operations at their destination (R363). -/

namespace Sys2Proof.Laws
open Sys2Proof.Machine

variable {s u v : State} {p k : Nat}

/-! ### The block of an address -/

theorem gLocal_blockOf (x : W32) : gLocal (blockOf (localAddr x)) = x &&& 0xFFFFFFF0 := by
  unfold gLocal blockOf localAddr
  rw [BitVec.setWidth_and, BitVec.setWidth_setWidth_of_le x (by decide), BitVec.setWidth_eq]
  rfl
theorem block_toNat (x : W32) : (x &&& 0xFFFFFFF0).toNat % 16 = 0 := by
  rw [BitVec.toNat_and, show 16 = 2 ^ 4 from rfl, ← Nat.and_two_pow_sub_one_eq_mod, Nat.and_assoc]
  exact Nat.and_zero _
/-- An address that lies at the start of its block is its block's. -/
theorem block_of_aligned {x : W32} (h : x.toNat % 16 = 0) : x &&& 0xFFFFFFF0 = x := by
  have hx : x.toNat = 2 ^ 4 * (x.toNat / 16) := by omega
  refine BitVec.eq_of_getLsbD_eq fun i hi => ?_
  have hb : x.getLsbD i = (decide (4 ≤ i) && (x.toNat / 16).testBit (i - 4)) := by
    rw [← BitVec.testBit_toNat, hx, Nat.testBit_two_pow_mul]
    simp only [ge_iff_le, Nat.mul_div_cancel_left _ (show 0 < 2 ^ 4 by decide), show (16 : Nat) = 2 ^ 4 from rfl]
  have H : ∀ j : Fin 32, (0xFFFFFFF0 : W32).getLsbD j = decide (4 ≤ j.val) := by decide
  have hm : (0xFFFFFFF0 : W32).getLsbD i = decide (4 ≤ i) := H ⟨i, hi⟩
  rw [BitVec.getLsbD_and, hm, hb]
  cases decide (4 ≤ i)
  · rfl
  · rw [Bool.true_and, Bool.and_true]
theorem blockOf_unit (x : W32) (k : Nat) : gLocal (blockOf (localAddr ((x &&& 0xFFFFFFF0) + BitVec.ofNat 32 (16 * k)))) =
    (x &&& 0xFFFFFFF0) + BitVec.ofNat 32 (16 * k) := by
  have h := block_toNat x
  rw [gLocal_blockOf]
  refine block_of_aligned ?_
  rw [BitVec.toNat_add, BitVec.toNat_ofNat]
  omega
theorem blockOf_block (x : W32) : gLocal (blockOf (localAddr (x &&& 0xFFFFFFF0))) = x &&& 0xFFFFFFF0 := by
  rw [gLocal_blockOf]
  exact block_of_aligned (block_toNat x)
theorem isLocal_localAddr (u : State) (x : W32) : isLocal u (localAddr x) = true := by
  have h : gBit (localAddr x) = false := by
    unfold gBit localAddr bit
    rw [BitVec.getLsbD_setWidth, BitVec.getLsbD_of_ge x 44 (by decide)]
    rfl
  unfold isLocal
  rw [h]
  rfl

/-! ### A unit that is offered -/

/-- What the check point of an inbound access of n's unit k is asked, and what the access carries (R308, R363). -/
structure Offered (id k : Nat) (h : Hdr) (wr : Bool) (blk : W32) (mask : W16) (d : W128) (pois : Bool) (a : Acc) : Prop where
  owner : a.owner = .inbound id k
  wr_ : a.wr = wr
  blk_ : a.blk = blk
  mask_ : a.mask = mask
  data : a.data = d
  poison : a.poison = pois
  decided : a.decided = false
  asked : ∃ q, a.ask = some q ∧ q.point = 9 ∧ q.colour = h.col.toNat ∧ q.inbound = some h.src.toNat ∧ q.wr = wr ∧ q.elided = h.eld ∧ q.addr = a.blk
/-- What the check point is asked for a block of an inbound access (R312). -/
def inboundAsk (h : Hdr) (wr : Bool) (blk : W32) : Ask :=
  { point := 9, colour := h.col.toNat, inbound := some h.src.toNat, wr := wr, elided := h.eld, type_ := bool wr, srck := 1, srcn := h.src.toNat, addr := blk }
theorem inboundOffer_offers {blk : W32} (hb : gLocal (blockOf (localAddr blk)) = blk) (id : Nat) (h : Hdr) (wr : Bool) (k : Nat) (mask : W16) (d : W128)
    (pois : Bool) (u : State) : (inboundOffer id h wr blk k mask d pois u).fab = u.fab ∧
    ∃ a, (inboundOffer id h wr blk k mask d pois u).offered = u.offered ++ [a] ∧ Offered id k h wr blk mask d pois a := by
  unfold inboundOffer
  dsimp only
  generalize hq : inboundAsk h wr blk = q
  rw [show ({ point := 9, colour := h.col.toNat, inbound := some h.src.toNat, wr := wr, elided := h.eld, type_ := bool wr, srck := 1, srcn := h.src.toNat, addr := blk } : Ask) = q from hq]
  have hc := core_beginLookup q u
  generalize beginLookup q u = r at hc
  refine ⟨fab_of_core (v := r.1) hc, _, congrArg (· ++ _) (offered_of_core (v := r.1) hc), rfl, rfl, hb, rfl, rfl, rfl, ?_, q, rfl, ?_⟩
  · show (!isLocal r.1 (localAddr blk)) = false
    rw [isLocal_localAddr]
    rfl
  · rw [← hq]
    exact ⟨rfl, rfl, rfl, rfl, rfl, hb.symm⟩

/-! ### The frame's place, and the access that is to be answered -/

theorem port_of_ports {x y : State} (h : x.fab.ports = y.fab.ports) (n : Nat) : port x n = port y n := by
  unfold port
  rw [h]
/-- The frame's LSEQ has passed, and its ACK is owed (R351). -/
theorem taken_port {f : Frame} (h : takeFrame p f s = some u) : (port (taken p f u) p).rxLseq = (port s p).rxLseq + 1 ∧ .ack f.hdr.lseq ∈ (port (taken p f u) p).owed := by
  obtain ⟨-, hup, -, e⟩ := takeFrame_some h
  have h1 : (port u p).rxLseq = (port s p).rxLseq + 1 ∧ .ack f.hdr.lseq ∈ (port u p).owed ∧ (port u p).up = true := by
    rw [e]
    unfold owe modP
    rw [port_setPort_self, port_setPort_self]
    exact ⟨rfl, List.mem_append_right _ (List.mem_singleton_self _), hup⟩
  obtain ⟨h1, h2, h3⟩ := h1
  unfold taken freeFlits
  dsimp only
  rw [h3, if_pos rfl]
  unfold owe modP
  rw [port_setPort_self]
  exact ⟨h1, List.mem_append_left _ h2⟩
/-- An inbound access of n units that is to be answered. -/
def newInbound (p : Nat) (h : Hdr) (addr : W32) (tag : BitVec 14) (wr : Bool) (n : Nat) (u : State) : InAcc :=
  { id := u.fab.nextId, src := h.src, tag := tag, addr := addr, rt := h.rt, wr := wr, at_ := u.eclk, port := p, left := n,
    fail := none, data := 0, pois := false, answered := false }
theorem inboundStart_starts (p : Nat) (h : Hdr) (addr : W32) (tag : BitVec 14) (wr : Bool) (n : Nat) (u : State) :
    (inboundStart p h addr tag wr n u).2 = u.fab.nextId ∧ (inboundStart p h addr tag wr n u).1.offered = u.offered ∧
    (inboundStart p h addr tag wr n u).1.fab = { u.fab with nextId := u.fab.nextId + 1, inb := u.fab.inb ++ [newInbound p h addr tag wr n u] } :=
  ⟨rfl, rfl, rfl⟩

section
variable {h : Hdr} {b : Body} (he : s.fab.en = true) (ho : isOwn s h = true) (ht : takeFrame p ⟨h, b⟩ s = some u)
include ht
/-- What stands of the state before when a frame's access waits: the frame is taken, and its response is owed. -/
structure TakenIn (s t : State) (p : Nat) (h : Hdr) (addr : W32) (tag : BitVec 14) (wr : Bool) (n : Nat) : Prop where
  lseq : (port t p).rxLseq = (port s p).rxLseq + 1
  ack : .ack h.lseq ∈ (port t p).owed
  inb : ∃ i ∈ t.fab.inb, i.id = s.fab.nextId ∧ i.src = h.src ∧ i.tag = tag ∧ i.addr = addr ∧ i.wr = wr ∧ i.left = n ∧ i.answered = false
  nextId : t.fab.nextId = s.fab.nextId + 1
theorem takenIn_of_start {t : State} {addr : W32} {tag : BitVec 14} {wr : Bool} {n : Nat}
    (hf : t.fab = (inboundStart p h addr tag wr n (taken p ⟨h, b⟩ u)).1.fab) : TakenIn s t p h addr tag wr n := by
  have hk := (taken_ports ht).fab
  obtain ⟨h1, h2⟩ := taken_port ht
  have hi : (taken p ⟨h, b⟩ u).fab.nextId = s.fab.nextId := (congrArg Fab.nextId hk :)
  have hp : port t p = port (taken p ⟨h, b⟩ u) p := port_of_ports (by rw [hf, (inboundStart_starts ..).2.2]) p
  refine ⟨by rw [hp]; exact h1, by rw [hp]; exact h2, ⟨newInbound p h addr tag wr n (taken p ⟨h, b⟩ u), ?_, hi, rfl, rfl, rfl, rfl, rfl, rfl⟩, ?_⟩
  · rw [hf, (inboundStart_starts ..).2.2]
    exact List.mem_append_right _ (List.mem_singleton_self _)
  · rw [hf, (inboundStart_starts ..).2.2]
    exact congrArg (· + 1) hi
theorem taken_offered : (taken p ⟨h, b⟩ u).offered = s.offered := (congrArg State.offered (taken_ports ht).rest :)
theorem isOwn_taken : isOwn u h = isOwn s h := by
  have hk := (takeFrame_ports ht).fab
  unfold isOwn
  rw [show u.fab.idv = s.fab.idv from (congrArg Fab.idv hk :), show u.fab.id = s.fab.id from (congrArg Fab.id hk :)]
end

/-- An operation of one unit waits as one access. -/
theorem inboundOne {h : Hdr} {b : Body} (ht : takeFrame p ⟨h, b⟩ s = some u) {addr : W32} {tag : BitVec 14} {wr : Bool} {mask : W16} {d : W128} {pois : Bool}
    {t : State} (e : t = inboundOffer (inboundStart p h addr tag wr 1 (taken p ⟨h, b⟩ u)).2 h wr (addr &&& 0xFFFFFFF0) 0 mask d pois
      (inboundStart p h addr tag wr 1 (taken p ⟨h, b⟩ u)).1) :
    TakenIn s t p h addr tag wr 1 ∧ ∃ a, t.offered = s.offered ++ [a] ∧ Offered s.fab.nextId 0 h wr (addr &&& 0xFFFFFFF0) mask d pois a := by
  obtain ⟨h1, a, h2, h3⟩ := inboundOffer_offers (blockOf_block addr) (inboundStart p h addr tag wr 1 (taken p ⟨h, b⟩ u)).2 h wr 0 mask d pois
    (inboundStart p h addr tag wr 1 (taken p ⟨h, b⟩ u)).1
  rw [← e] at h1 h2
  have hi : (inboundStart p h addr tag wr 1 (taken p ⟨h, b⟩ u)).2 = s.fab.nextId := (congrArg Fab.nextId (taken_ports ht).fab :)
  rw [hi] at h3
  exact ⟨takenIn_of_start ht h1, a, h2.trans (congrArg (· ++ [a]) (taken_offered ht)), h3⟩
/-- The units of a WR, offered in a row. -/
theorem inboundUnits (id : Nat) (h : Hdr) (addr : W32) (units : List WUnit) : ∀ (k : Nat) (u : State),
    ((units.zipIdx k).foldl (fun s e => inboundOffer id h true ((addr &&& 0xFFFFFFF0) + BitVec.ofNat 32 (16 * e.2)) e.2 e.1.mask e.1.data e.1.pois s) u).fab = u.fab ∧
    ∃ l, ((units.zipIdx k).foldl (fun s e => inboundOffer id h true ((addr &&& 0xFFFFFFF0) + BitVec.ofNat 32 (16 * e.2)) e.2 e.1.mask e.1.data e.1.pois s) u).offered =
        u.offered ++ l ∧ l.length = units.length ∧ ∀ (j : Nat) (x : WUnit), units[j]? = some x →
        ∃ a, l[j]? = some a ∧ Offered id (k + j) h true ((addr &&& 0xFFFFFFF0) + BitVec.ofNat 32 (16 * (k + j))) x.mask x.data x.pois a := by
  induction units with
  | nil => exact fun k u => ⟨rfl, [], (List.append_nil _).symm, rfl, fun j x h => absurd h nofun⟩
  | cons y units ih =>
    intro k u
    obtain ⟨f1, a, o1, w1⟩ := inboundOffer_offers (blockOf_unit addr k) id h true k y.mask y.data y.pois u
    obtain ⟨f2, l, o2, n2, w2⟩ := ih (k + 1) (inboundOffer id h true ((addr &&& 0xFFFFFFF0) + BitVec.ofNat 32 (16 * k)) k y.mask y.data y.pois u)
    refine ⟨f2.trans f1, a :: l, ?_, congrArg (· + 1) n2, fun j x hx => ?_⟩
    · rw [List.zipIdx_cons, List.foldl_cons]
      refine o2.trans ?_
      rw [o1, List.append_assoc]
      rfl
    · cases j with
      | zero =>
        cases hx
        exact ⟨a, rfl, w1⟩
      | succ j =>
        obtain ⟨c, hc, wc⟩ := w2 j x hx
        exact ⟨c, hc, by rwa [show k + (j + 1) = k + 1 + j by omega]⟩

/-- Settles O40: each operation as its accesses wait, and its response is owed. -/
theorem remoteOperationsArrive : Obligations.RemoteOperationsArrive := by
  unfold Obligations.RemoteOperationsArrive
  refine fun s u p h addr tag pois mask m data units ho he => ⟨fun ht => ?wrs, fun ht => ?rd, fun ht hu => ?wr⟩
  case wrs =>
    have hx : onward u p ⟨h, .wrs addr tag pois mask data⟩ = none := if_pos ((isOwn_taken ht).trans ho)
    refine ⟨_, congrArg Host.Outcome.next (receiveAt_acts he ht hx), ?_⟩
    obtain ⟨hw, a, ha, o⟩ := inboundOne ht (t := act p 0 0 ⟨h, .wrs addr tag pois mask data⟩ (taken p ⟨h, .wrs addr tag pois mask data⟩ u)) rfl
    exact ⟨⟨hw.lseq, hw.ack⟩, hw.inb, a, ha, o.owner, o.wr_, o.blk_, ⟨o.decided, o.asked⟩, o.mask_, o.data, o.poison⟩
  case rd =>
    have hx : onward u p ⟨h, .rd addr tag m⟩ = none := if_pos ((isOwn_taken ht).trans ho)
    refine ⟨_, congrArg Host.Outcome.next (receiveAt_acts he ht hx), ?_⟩
    obtain ⟨hw, a, ha, o⟩ := inboundOne ht (t := act p 0 0 ⟨h, .rd addr tag m⟩ (taken p ⟨h, .rd addr tag m⟩ u)) rfl
    exact ⟨⟨hw.lseq, hw.ack⟩, hw.inb, a, ha, o.owner, o.wr_, o.blk_, ⟨o.decided, o.asked⟩, o.mask_⟩
  case wr =>
    have hx : onward u p ⟨h, .wr addr tag units⟩ = none := if_pos ((isOwn_taken ht).trans ho)
    refine ⟨_, (if_pos hu).trans (congrArg Host.Outcome.next (receiveAt_acts he ht hx)), ?_⟩
    obtain ⟨hf, l, hl, hn, hw⟩ := inboundUnits (inboundStart p h addr tag true units.length (taken p ⟨h, .wr addr tag units⟩ u)).2 h addr units 0
      (inboundStart p h addr tag true units.length (taken p ⟨h, .wr addr tag units⟩ u)).1
    have hi : (inboundStart p h addr tag true units.length (taken p ⟨h, .wr addr tag units⟩ u)).2 = s.fab.nextId := (congrArg Fab.nextId (taken_ports ht).fab :)
    have W := takenIn_of_start (t := act p 0 0 ⟨h, .wr addr tag units⟩ (taken p ⟨h, .wr addr tag units⟩ u)) ht hf
    refine ⟨⟨W.lseq, W.ack⟩, W.inb, W.nextId, l, hl.trans (congrArg (· ++ l) (taken_offered ht)), hn, fun k x hx => ?_⟩
    obtain ⟨a, ha, o⟩ := hw k x hx
    rw [hi, Nat.zero_add] at o
    exact ⟨a, ha, o.owner, o.wr_, o.blk_, ⟨o.decided, o.asked⟩, o.mask_, o.data, o.poison⟩

end Sys2Proof.Laws
end

section
/-! PROOFS. Answers to remote accesses, and their time limits (R258, R327, R328, R363). -/

namespace Sys2Proof.Laws
open Sys2Proof.Machine

variable {s u v : State} {p n c d : Nat}

/-! ### What the end of an access notes -/

/-- A channel's work without what the end of an access notes in it (R192). -/
def noted (w : Work) : Work := { w with lastAcc := 0, rearmAt := none }
/-- Only what the ends of accesses note differs. -/
structure Notes (u v : State) : Prop where
  rest : { v with ctxs := [] } = { u with ctxs := [] }
  regs : ∀ c, (ctx v c).r = (ctx u c).r
  work : ∀ c, noted (ctx v c).w = noted (ctx u c).w
theorem notes_refl : Notes u u := ⟨rfl, fun _ => rfl, fun _ => rfl⟩
theorem Notes.trans {w : State} (h : Notes u v) (g : Notes v w) : Notes u w :=
  ⟨g.rest.trans h.rest, fun c => (g.regs c).trans (h.regs c), fun c => (g.work c).trans (h.work c)⟩
theorem notes_modW {f : Work → Work} (h : ∀ w, noted (f w) = noted w) : Notes u (modW c f u) := by
  refine ⟨rfl, fun d => ?_, fun d => ?_⟩ <;> unfold modW <;> rw [ctx_setCtx]
  · split
    · next e => subst e; rfl
    · rfl
  · split
    · next e => subst e; exact h _
    · rfl
theorem notes_noteQuiet : Notes u (noteQuiet c u) := by
  unfold noteQuiet
  dsimp only
  split
  · split
    · exact notes_modW fun _ => rfl
    · exact notes_refl
  · exact notes_refl
theorem notes_noteAcc : Notes u (noteAcc c n u) := by
  unfold noteAcc
  split
  · exact (notes_modW (by exact fun _ => rfl)).trans notes_noteQuiet
  · exact notes_refl
theorem notes_accDone {ch : Option (Nat × Nat × Nat)} : Notes u (accDone ch n u) := by
  unfold accDone
  split
  · exact notes_noteAcc
  · exact notes_refl
theorem Notes.fab (h : Notes u v) : v.fab = u.fab := (congrArg State.fab h.rest :)
theorem Notes.outst (h : Notes u v) : v.outst = u.outst := (congrArg State.outst h.rest :)
theorem Notes.loadFail (h : Notes u v) (c : Nat) : (ctx v c).w.loadFail = (ctx u c).w.loadFail := (congrArg Work.loadFail (h.work c) :)
theorem Notes.loadGot (h : Notes u v) (c : Nat) : (ctx v c).w.loadGot = (ctx u c).w.loadGot := (congrArg Work.loadGot (h.work c) :)
theorem Notes.wRem (h : Notes u v) (c : Nat) : (ctx v c).w.wRem = (ctx u c).w.wRem := (congrArg Work.wRem (h.work c) :)
theorem Notes.wLoc (h : Notes u v) (c : Nat) : (ctx v c).w.wLoc = (ctx u c).w.wLoc := (congrArg Work.wLoc (h.work c) :)

/-! ### What an end does to a LOAD and to a write -/

theorem loadFails_ctx (h : (ctx u c).w.loadFail = none) (code : Nat) (a : GAddr) :
    (ctx (loadFails c code a u) c).w.loadFail = some (BitVec.ofNat 8 code, a) ∧ (ctx (loadFails c code a u) c).r = (ctx u c).r := by
  unfold loadFails
  rw [ctx_modW_self]
  dsimp only
  rw [h]
  exact ⟨rfl, rfl⟩
/-- A LOAD's part in its channel's work (R136). -/
def gather (d : W128) (poison : Bool) (w : Work) (x : Part) : Work :=
  { w with loadData := placeBytes w.loadData x.off x.len (bytesAt d x.at_ x.len), loadGot := w.loadGot + x.len, loadPoison := w.loadPoison || poison }
theorem gather_got (d : W128) (poison : Bool) (l : List Part) : ∀ w : Work, (l.foldl (gather d poison) w).loadGot = w.loadGot + (l.map (·.len)).sum := by
  induction l with
  | nil => exact fun w => rfl
  | cons x l ih =>
    intro w
    rw [List.foldl_cons, ih, List.map_cons, List.sum_cons]
    exact Nat.add_assoc ..
theorem loadPart_ctx (l : List Part) (d : W128) (poison : Bool) :
    (ctx (loadPart c l d poison u) c).w.loadGot = (ctx u c).w.loadGot + (l.map (·.len)).sum ∧ (ctx (loadPart c l d poison u) c).r = (ctx u c).r := by
  unfold loadPart
  rw [ctx_modW_self]
  exact ⟨gather_got d poison l _, rfl⟩
/-- The writes of n units no longer count as uncovered (R258). -/
theorem dropCovered_units (l : List BlkAcc) : ∀ u : State, (l.foldl (fun s _ => dropCovered c false s) u).fab = u.fab ∧
    (ctx (l.foldl (fun s _ => dropCovered c false s) u) c).w.wRem = (ctx u c).w.wRem - l.length ∧
    (ctx (l.foldl (fun s _ => dropCovered c false s) u) c).w.wLoc = (ctx u c).w.wLoc ∧
    (ctx (l.foldl (fun s _ => dropCovered c false s) u) c).r = (ctx u c).r := by
  induction l with
  | nil => exact fun u => ⟨rfl, rfl, rfl, rfl⟩
  | cons x l ih =>
    intro u
    obtain ⟨hf, hr, hl, hc⟩ := ih (dropCovered c false u)
    unfold dropCovered at hr hl hc
    rw [ctx_modW_self] at hr hl hc
    refine ⟨hf, hr.trans ?_, hl, hc⟩
    show (ctx u c).w.wRem - 1 - l.length = (ctx u c).w.wRem - (l.length + 1)
    omega

/-! ### An outbound access that ends -/

theorem outFails_load {o : FOut} (ho : o.orphan = false) (hw : o.owner = .load c) (h : (ctx u c).w.loadFail = none) (n code : Nat) :
    (outFails o n code u).fab = u.fab ∧
    (ctx (outFails o n code u) c).w.loadFail = some (BitVec.ofNat 8 code, (o.units.drop n).head?.elim o.addr firstAddr) ∧
    (ctx (outFails o n code u) c).r = (ctx u c).r := by
  have e : outFails o n code u = accDone o.ch o.bno (loadFails c code ((o.units.drop n).head?.elim o.addr firstAddr) u) := by
    unfold outFails
    rw [ho, hw]
    cases o.units.drop n <;> rfl
  obtain ⟨h1, h2⟩ := loadFails_ctx h code ((o.units.drop n).head?.elim o.addr firstAddr)
  have N := notes_accDone (ch := o.ch) (n := o.bno) (u := loadFails c code ((o.units.drop n).head?.elim o.addr firstAddr) u)
  rw [← e] at N
  exact ⟨N.fab, (N.loadFail c).trans h1, (N.regs c).trans h2⟩
theorem outFails_orphan {o : FOut} (ho : o.orphan = true) (n code : Nat) : Notes u (outFails o n code u) := by
  unfold outFails
  dsimp only
  rw [if_pos ho]
  exact notes_accDone
theorem outData_load {o : FOut} (ho : o.orphan = false) (hw : o.owner = .load c) (d : W128) (pois : Bool) :
    (outData o d pois u).fab = u.fab ∧
    (ctx (outData o d pois u) c).w.loadGot = (ctx u c).w.loadGot + ((o.units.flatMap (·.parts)).map (·.len)).sum ∧
    (ctx (outData o d pois u) c).r = (ctx u c).r := by
  have e : outData o d pois u = accDone o.ch o.bno (loadPart c (o.units.flatMap (·.parts)) d pois u) := by
    unfold outData
    rw [ho, hw]
    rfl
  obtain ⟨h1, h2⟩ := loadPart_ctx (u := u) (c := c) (o.units.flatMap (·.parts)) d pois
  have N := notes_accDone (ch := o.ch) (n := o.bno) (u := loadPart c (o.units.flatMap (·.parts)) d pois u)
  rw [← e] at N
  exact ⟨N.fab, (N.loadGot c).trans h1, (N.regs c).trans h2⟩
theorem outAccepted_covers {o : FOut} {run leg : Nat} (hc : o.ch = some (c, run, leg)) :
    (outAccepted o u).fab = u.fab ∧ (ctx (outAccepted o u) c).w.wRem = (ctx u c).w.wRem - o.units.length ∧
    (ctx (outAccepted o u) c).w.wLoc = (ctx u c).w.wLoc ∧ (ctx (outAccepted o u) c).r = (ctx u c).r := by
  obtain ⟨h1, h2, h3, h4⟩ := dropCovered_units (c := c) o.units u
  unfold outAccepted
  rw [hc]
  dsimp only
  generalize o.units.foldl (fun s _ => dropCovered c false s) u = w at *
  have N := notes_noteAcc (u := w) (c := c) (n := o.bno)
  exact ⟨N.fab.trans h1, (N.wRem c).trans h2, (N.wLoc c).trans h3, (N.regs c).trans h4⟩

/-! ### A frame of this node -/

theorem mem_queueTx (q : Nat) (x : TxF) (u : State) : x ∈ (if x.f.hdr.rt then (port (queueTx q x u) q).txRt else (port (queueTx q x u) q).txBulk) := by
  unfold queueTx
  rw [port_modP_self]
  split
  · exact List.mem_append_right _ (List.mem_singleton_self _)
  · exact List.mem_append_right _ (List.mem_singleton_self _)
theorem lookRoute_core (k : Nat) (u : State) : core (lookRoute k u).1 = core u := core_ite (core_uncorrected ..) (core_foundSoft ..)
/-- The router's counts and flags with one frame more refused for the reason r (R373). -/
def refusedFab (r : Nat) (x : Fab) : Fab :=
  { x with refused := sat32 x.refused, noroute := x.noroute || r == 0, ttlx := x.ttlx || r == 1, badkind := x.badkind || r == 2 }
theorem recUnless_fab (c : Bool) (t k m d : Nat) (x : W64) (u : State) : (if c then u else fabRec t k m d x u).fab = u.fab := by
  split
  · rfl
  · exact fabRec_fab ..
theorem refuse_fab (a d c r : Nat) (u : State) : (refuse a d c r u).fab = refusedFab r u.fab := recUnless_fab ..
theorem sendFrame_inb (f : Frame) (u : State) : (sendFrame f u).1.fab.inb = u.fab.inb := by
  have hc := lookRoute_core f.hdr.dst.toNat u
  unfold sendFrame
  split
  · rfl
  · split
    · next w q e =>
      rw [e] at hc
      exact (congrArg Fab.inb (fab_of_core hc) :)
    · next w e =>
      rw [e] at hc
      exact (congrArg Fab.inb (refuse_fab ..) :).trans (congrArg Fab.inb (fab_of_core hc) :)
/-- A frame of this node goes out at its route's port (R360). -/
theorem sendFrame_goes {f : Frame} {q : Nat} (he : u.fab.en = true) (hq : routePort u f.hdr.dst.toNat = some q) :
    sendFrame f u = (queueFrame q f (lookRoute f.hdr.dst.toNat u).1, true) := by
  have e : lookRoute f.hdr.dst.toNat u = ((lookRoute f.hdr.dst.toNat u).1, some q) := Prod.ext rfl hq
  unfold sendFrame
  rw [he, e]
  rfl

/-! ### The frame's access, and the time limits -/

section
variable {h : Hdr} {b : Body} {addr : W32} {tag : BitVec 14}
theorem taken_ctx (ht : takeFrame p ⟨h, b⟩ s = some u) (c : Nat) : ctx (taken p ⟨h, b⟩ u) c = ctx s c := by
  unfold ctx
  rw [show (taken p ⟨h, b⟩ u).ctxs = s.ctxs from (congrArg State.ctxs (taken_ports ht).rest :)]
theorem taken_answered (ht : takeFrame p ⟨h, b⟩ s = some u) : answered (taken p ⟨h, b⟩ u) addr tag = answered s addr tag := by
  unfold answered
  rw [show (taken p ⟨h, b⟩ u).fab.out = s.fab.out from (congrArg Fab.out (taken_ports ht).fab :)]
theorem taken_out (ht : takeFrame p ⟨h, b⟩ s = some u) (k : Nat) :
    (takeOut k (taken p ⟨h, b⟩ u)).fab.out = s.fab.out.filter (fun f => f.ftag != k) :=
  congrArg (List.filter (fun f : FOut => f.ftag != k)) (congrArg Fab.out (taken_ports ht).fab :)
theorem onward_own (hb : isRouted b = true) (ho : isOwn u h = true) : onward u p ⟨h, b⟩ = none := by
  unfold onward
  split
  case h_4 => rfl
  case h_5 => exact if_pos ho
  all_goals
    next e =>
    subst e
    exact absurd hb nofun
/-- A frame for this node is acted on where it comes. -/
theorem own_acts (hb : isRouted b = true) (ht : takeFrame p ⟨h, b⟩ s = some u) (he : s.fab.en = true) (ho : isOwn s h = true) (r l : Nat) :
    receiveAt p r l ⟨h, b⟩ s = act p r l ⟨h, b⟩ (taken p ⟨h, b⟩ u) :=
  receiveAt_acts he ht (onward_own hb ((isOwn_taken ht).trans ho))
end

theorem remoteTimeout_fails {o : FOut} (h : s.fab.out.find? (fun f => f.ftag == o.ftag && decide (f.at_ + 800 * s.halt.rtmo ≤ s.eclk)) = some o) :
    remoteTimeout o.ftag s = outFails o 0 0x15 (takeOut o.ftag s) := by
  unfold remoteTimeout
  rw [h]
/-- The state in which the access i has been answered. -/
def answeredAt (i : Nat) (s : State) : State :=
  { s with fab := { s.fab with inb := modWhere (fun j => j.id == i) (fun j => { j with answered := true }) s.fab.inb } }
theorem destTimeout_answers {i : InAcc}
    (h : s.fab.inb.find? (fun j => j.id == i.id && !j.answered && decide (j.at_ + 80000 ≤ s.eclk)) = some i) :
    destTimeout i.id s = respond i (nakBody i.addr i.tag 5 0 0) (answeredAt i.id s) := by
  unfold destTimeout
  rw [h]
  rfl

/-- Settles O41: an answer, or a time limit, at each access that it ends. -/
theorem answersAndTimeLimits : Obligations.AnswersAndTimeLimits := by
  unfold Obligations.AnswersAndTimeLimits
  refine ⟨fun s u p h addr tag o d he hown hans horph => ⟨?nak, ?rdr, ?ack⟩, fun s o i => ⟨fun ho => ⟨?orphan, ?load⟩, ?dest⟩⟩
  case nak =>
    intro r dm n c ht hr hw hf
    refine ⟨_, congrArg Host.Outcome.next ((own_acts rfl ht he hown 0 0).trans (?_ : _ = outFails o n.toNat (nakCode o r.toNat dm.toNat)
      (takeOut o.ftag (taken p ⟨h, .nak addr tag r dm n⟩ u)))), ?_⟩
    · show cameNak h addr tag r.toNat dm.toNat n.toNat _ = _
      unfold cameNak
      rw [taken_answered ht, hans]
      dsimp only
      rw [if_neg (fun e : r.toNat = 3 => hr (BitVec.eq_of_toNat_eq e))]
    · have hc := taken_ctx ht c
      obtain ⟨h1, h2, h3⟩ := outFails_load (u := takeOut o.ftag (taken p ⟨h, .nak addr tag r dm n⟩ u)) horph hw
        ((congrArg (fun x : Ctx => x.w.loadFail) hc).trans hf) n.toNat (nakCode o r.toNat dm.toNat)
      exact ⟨(congrArg Fab.out h1).trans (taken_out ht o.ftag), h2, h3.trans (congrArg Ctx.r hc)⟩
  case rdr =>
    intro c ht hwr hw
    refine ⟨_, congrArg Host.Outcome.next ((own_acts rfl ht he hown 0 0).trans (?_ : _ = outData o d false
      (takeOut o.ftag (taken p ⟨h, .rdr addr tag false d⟩ u)))), ?_⟩
    · show cameRdr addr tag false d _ = _
      unfold cameRdr
      rw [taken_answered ht, hans]
      dsimp only
      rw [hwr]
      rfl
    · have hc := taken_ctx ht c
      obtain ⟨h1, h2, h3⟩ := outData_load (u := takeOut o.ftag (taken p ⟨h, .rdr addr tag false d⟩ u)) horph hw d false
      exact ⟨(congrArg Fab.out h1).trans (taken_out ht o.ftag),
        h2.trans (congrArg (fun x : Ctx => x.w.loadGot + ((o.units.flatMap (·.parts)).map (·.len)).sum) hc), h3.trans (congrArg Ctx.r hc)⟩
  case ack =>
    intro c run leg ht hwr hch
    refine ⟨_, congrArg Host.Outcome.next ((own_acts rfl ht he hown 0 0).trans (?_ : _ = outAccepted o
      (takeOut o.ftag (taken p ⟨h, .ack addr tag⟩ u)))), ?_⟩
    · show cameAck h addr tag _ = _
      unfold cameAck
      rw [taken_answered ht, hans]
      dsimp only
      rw [hwr]
      rfl
    · have hc := taken_ctx ht c
      obtain ⟨h1, h2, h3, h4⟩ := outAccepted_covers (u := takeOut o.ftag (taken p ⟨h, .ack addr tag⟩ u)) hch
      exact ⟨(congrArg Fab.out h1).trans (taken_out ht o.ftag), h2.trans (congrArg (fun x : Ctx => x.w.wRem - o.units.length) hc),
        h3.trans (congrArg (fun x : Ctx => x.w.wLoc) hc), h4.trans (congrArg Ctx.r hc)⟩
  case orphan =>
    intro horph
    have N := outFails_orphan (u := takeOut o.ftag s) horph 0 0x15
    exact ⟨_, congrArg Host.Outcome.next (remoteTimeout_fails ho), congrArg Fab.out N.fab, N.regs⟩
  case load =>
    intro c horph hw hf
    obtain ⟨h1, h2, h3⟩ := outFails_load (u := takeOut o.ftag s) horph hw hf 0 0x15
    exact ⟨_, congrArg Host.Outcome.next (remoteTimeout_fails ho), congrArg Fab.out h1, h2, h3⟩
  case dest =>
    intro hi
    refine ⟨_, congrArg Host.Outcome.next (destTimeout_answers hi), sendFrame_inb .., fun q he hq => ?_⟩
    have hdst : BitVec.ofNat 12 i.src.toNat = i.src := BitVec.ofNat_toNat ..
    have hq2 : routePort (answeredAt i.id s) (BitVec.ofNat 12 i.src.toNat).toNat = some q := by
      rw [hdst]
      exact hq
    refine ⟨⟨⟨hdr (answeredAt i.id s) i.rt 0 i.src.toNat false, nakBody i.addr i.tag 5 0 0⟩, none, true, false, 0⟩, rfl, hdst, ?_⟩
    unfold respond
    rw [sendFrame_goes (u := answeredAt i.id s) (q := q) he hq2]
    exact mem_queueTx ..

end Sys2Proof.Laws
end

section
/-! PROOFS. Events, NOTEs, frames that go on, and the synchronisation exchange (R356, R364, R368, R370). -/

namespace Sys2Proof.Laws
open Sys2Proof.Machine

variable {s u v : State} {p n : Nat} {h : Hdr}

/-! ### An event from another node -/

/-- The state in which an event has had its words read (R340). -/
def evRead (h : Hdr) (s : State) : State :=
  let words := [(9, trustKey h.src.toNat),
    (10, colourKey (fld (ruleWord s (trustKey h.src.toNat)) (4 * (h.src.toNat % 16) + 3) (4 * (h.src.toNat % 16))) h.col.toNat)]
  let s := words.foldl foundSoft s
  match words.find? (fun w => isBad s w.1 w.2) with | some w => ruleError w.1 w.2 0 s | none => s
theorem core_evRead (h : Hdr) (s : State) : core (evRead h s) = core s := by
  unfold evRead
  dsimp only
  have hw : core ([(9, trustKey h.src.toNat), (10, colourKey (fld (ruleWord s (trustKey h.src.toNat)) (4 * (h.src.toNat % 16) + 3)
      (4 * (h.src.toNat % 16))) h.col.toNat)].foldl foundSoft s) = core s := (core_foundSoft ..).trans (core_foundSoft ..)
  split
  · exact (core_ruleError ..).trans hw
  · exact hw
/-- The router takes an event: the check of R364, on the rules of s and the enables of v. -/
def evTaken (h : Hdr) (n : Nat) (s v : State) : Bool :=
  !(isBad s 9 (trustKey h.src.toNat) ||
    isBad s 10 (colourKey (fld (ruleWord s (trustKey h.src.toNat)) (4 * (h.src.toNat % 16) + 3) (4 * (h.src.toNat % 16))) h.col.toNat)) &&
  translate s h.src.toNat h.col.toNat != 0 && translate s h.src.toNat h.col.toNat != 14 && translate s h.src.toNat h.col.toNat != 15 &&
  bit v.fab.evcol (translate s h.src.toNat h.col.toNat) && bit (tget 0 v.fab.even (n / 64)) (n % 64)
/-- An event of the node that h names meets the rules, and the fabric's enables (R364). -/
def EvPasses (h : Hdr) (n : Nat) (s : State) : Prop :=
  isBad s 9 (trustKey h.src.toNat) = false ∧
  isBad s 10 (colourKey (fld (ruleWord s (trustKey h.src.toNat)) (4 * (h.src.toNat % 16) + 3) (4 * (h.src.toNat % 16))) h.col.toNat) = false ∧
  translate s h.src.toNat h.col.toNat ≠ 0 ∧ translate s h.src.toNat h.col.toNat ≠ 14 ∧ translate s h.src.toNat h.col.toNat ≠ 15 ∧
  bit s.fab.evcol (translate s h.src.toNat h.col.toNat) = true ∧ bit (tget 0 s.fab.even (n / 64)) (n % 64) = true
theorem evTaken_iff (hf : v.fab = s.fab) : evTaken h n s v = true ↔ EvPasses h n s := by
  unfold evTaken EvPasses
  rw [hf]
  simp only [Bool.and_eq_true, Bool.not_eq_true', Bool.or_eq_false_iff, bne_iff_ne, ne_eq, and_assoc]
/-- The state in which an event has been refused (R364). -/
def evRefused (s : State) : State := markSet (w1cKey 0x6018 14) { s with fab := { s.fab with evref := true, refused := sat32 s.fab.refused } }
theorem inEv_eq (p : Nat) (h : Hdr) (n : Nat) (s : State) : inEv p h n s =
    if evTaken h n s (evRead h s) then request n false (evRead h s)
    else if (evRead h s).fab.evref then evRefused (evRead h s)
    else fabRec 0x44 5 p (h.src.toNat + 2 ^ 12 * n + 2 ^ 21 * h.col.toNat + 2 ^ 25 * translate s h.src.toNat h.col.toNat) 0 (evRefused (evRead h s)) := rfl
theorem inEv_request (p : Nat) (hp : EvPasses h n s) : inEv p h n s = request n false (evRead h s) :=
  (inEv_eq p h n s).trans (if_pos ((evTaken_iff (fab_of_core (core_evRead h s))).mpr hp))
theorem core_fabRec (t k m d : Nat) (x : W64) (u : State) : core (fabRec t k m d x u) = core u := core_ite (core_offer ..) rfl
theorem inEv_refused (p : Nat) (hp : ¬ EvPasses h n s) : core (inEv p h n s) = core (evRefused s) := by
  have hr : core (evRefused (evRead h s)) = core (evRefused s) :=
    (congrArg (fun x : State => { x with fab := { x.fab with evref := true, refused := sat32 x.fab.refused } }) (core_evRead h s) :)
  rw [inEv_eq, if_neg (fun e => hp ((evTaken_iff (fab_of_core (core_evRead h s))).mp e))]
  exact core_ite hr ((core_fabRec ..).trans hr)

theorem evPasses_congr (ha : v.atlas = u.atlas) (hc : v.fab.evcol = u.fab.evcol) (he : v.fab.even = u.fab.even) : EvPasses h n v ↔ EvPasses h n u := by
  have e : ∀ w : State, EvPasses h n w = EvPasses h n { offFab u with atlas := w.atlas, fab := { evcol := w.fab.evcol, even := w.fab.even } } := fun w => rfl
  rw [e v, e u, ha, hc, he]
theorem taken_passes {f : Frame} (ht : takeFrame p f s = some u) : EvPasses h n (taken p f u) ↔ EvPasses h n s :=
  evPasses_congr (congrArg State.atlas (taken_ports ht).rest :) (congrArg Fab.evcol (taken_ports ht).fab :) (congrArg Fab.even (taken_ports ht).fab :)
theorem taken_running {f : Frame} (ht : takeFrame p f s = some u) : quiet (taken p f u) = false := by
  unfold quiet
  rw [show (taken p f u).glob = s.glob from (congrArg State.glob (taken_ports ht).rest :), show (taken p f u).eclk = s.eclk from (congrArg State.eclk (taken_ports ht).rest :)]
  exact (takeFrame_some ht).1

/-! ### NOTEs (R368) -/

/-- The root is idle: it surveys nothing, and no NOTE waits. -/
structure Unasked (x : Survey) : Prop where
  busy : x.busy = false
  leaving : x.leaving = none
  notes : x.notes = []
/-- The state in which a NOTE has joined those that wait. -/
def withNote (x : Bool × Nat × Nat × Nat) (u : State) : State := setSurvey (fun v => { v with notes := v.notes ++ [x] }) u
/-- The state in which a leave's query is out, along a path (R368). -/
def leaveAsked (m : Nat) (path : List Nat) (u : State) : State :=
  setSurvey (fun x => { x with leaving := some m, await := some path, awaitAt := u.eclk }) u
/-- The state in which a join's survey has begun at node n (R368). -/
def joinBegun (n : Nat) (path : List Nat) (u : State) : State :=
  setSurvey (fun x => { x with busy := true, code := 0, stack := [⟨n, path, 4⟩], joining := true }) u
/-- The state in which a join's query is out. -/
def joinAsked (path : List Nat) (u : State) : State := setSurvey (fun x => { x with await := some path, awaitAt := u.eclk }) u
theorem nextNote_alone (hu : Unasked u.fab.survey) (l : Bool) (n q m : Nat) : nextNote (withNote (l, n, q, m) u) =
    if l then
      match (if m = 0 then none else mapAt u m) with
      | some e => sendSv e.path false 0 (leaveAsked m e.path u)
      | none => u
    else
      match mapAt u n with
      | some e =>
        if 20 < (e.path ++ [q]).length then walkOn (setSurvey (fun x => { x with code := 3 }) (joinBegun n e.path u))
        else sendSv (e.path ++ [q]) false 0 (joinAsked (e.path ++ [q]) (joinBegun n e.path u))
      | none => u := by
  have hb : ((withNote (l, n, q, m) u).fab.survey.busy || (withNote (l, n, q, m) u).fab.survey.leaving.isSome) = false :=
    Bool.or_eq_false_iff.mpr ⟨hu.busy, congrArg Option.isSome hu.leaving⟩
  have hn : (withNote (l, n, q, m) u).fab.survey.notes = [(l, n, q, m)] := congrArg (· ++ [(l, n, q, m)]) hu.notes
  have hw : setSurvey (fun x => { x with notes := [] }) (withNote (l, n, q, m) u) = u := by
    show { u with fab := { u.fab with survey := { u.fab.survey with notes := [] } } } = u
    rw [← hu.notes]
  unfold nextNote
  rw [hb, hn]
  dsimp only
  rw [hw]
  rfl
theorem nextNote_leave {e : MapEnt} {m : Nat} (hu : Unasked u.fab.survey) (hm : m ≠ 0) (he : mapAt u m = some e) (n q : Nat) :
    nextNote (withNote (true, n, q, m) u) = sendSv e.path false 0 (leaveAsked m e.path u) := by
  rw [nextNote_alone hu, if_pos rfl, if_neg hm, he]
theorem nextNote_leave_unknown {m : Nat} (hu : Unasked u.fab.survey) (hm : m = 0 ∨ mapAt u m = none) (n q : Nat) :
    nextNote (withNote (true, n, q, m) u) = u := by
  have hx : (if m = 0 then none else mapAt u m) = none := by
    split
    · rfl
    · next h0 => exact hm.resolve_left h0
  rw [nextNote_alone hu, if_pos rfl, hx]
theorem nextNote_join {e : MapEnt} (hu : Unasked u.fab.survey) (he : mapAt u n = some e) (hl : e.path.length < 20) (q m : Nat) :
    nextNote (withNote (false, n, q, m) u) = sendSv (e.path ++ [q]) false 0 (joinAsked (e.path ++ [q]) (joinBegun n e.path u)) := by
  have hf : ¬ 20 < (e.path ++ [q]).length := by
    rw [List.length_append, List.length_singleton]
    omega
  rw [nextNote_alone hu, if_neg nofun, he]
  exact if_neg hf
theorem nextNote_join_far {e : MapEnt} (hu : Unasked u.fab.survey) (he : mapAt u n = some e) (hl : 20 ≤ e.path.length) (q m : Nat) :
    nextNote (withNote (false, n, q, m) u) = walkOn (setSurvey (fun x => { x with code := 3 }) (joinBegun n e.path u)) := by
  have hf : 20 < (e.path ++ [q]).length := by
    rw [List.length_append, List.length_singleton]
    omega
  rw [nextNote_alone hu, if_neg nofun, he]
  exact if_pos hf
theorem nextNote_join_unknown (hu : Unasked u.fab.survey) (he : mapAt u n = none) (q m : Nat) : nextNote (withNote (false, n, q, m) u) = u := by
  rw [nextNote_alone hu, if_neg nofun, he]
theorem nextNote_waits (hu : u.fab.survey.busy = true ∨ u.fab.survey.leaving ≠ none) : nextNote u = u := by
  refine if_pos ?_
  rw [Bool.or_eq_true, Option.isSome_iff_ne_none]
  exact hu
theorem sendSv_survey (l : List Nat) (a : Bool) (i : Nat) (u : State) : (sendSv l a i u).fab.survey = u.fab.survey ∧ (sendSv l a i u).fab.map = u.fab.map :=
  have h := (portsOnly_sendPath l ⟨hdr u false 0 0 false, .sv (mkPath l) a (BitVec.ofNat 12 i)⟩ u).fab
  ⟨(congrArg Fab.survey h :), (congrArg Fab.map h :)⟩
/-- A walk that has no visit left keeps its code. -/
theorem walk_over (k : Nat) (he : u.fab.survey.stack = []) : (walk (k + 1) u).fab.survey.code = u.fab.survey.code := by
  unfold walk
  rw [he]
  dsimp only
  unfold surveyOver
  dsimp only
  split
  · unfold endSurvey
    rw [fabRec_fab]
    rfl
  · rfl
theorem walk_pop (k : Nat) {x : Visit} {l : List Visit} (he : u.fab.survey.stack = x :: l) (h4 : 4 ≤ x.next) :
    walk (k + 1) u = walk k (setSurvey (fun y => { y with stack := l }) u) := by
  conv_lhs => unfold walk
  rw [he]
  exact if_pos h4
/-- A join by way of a node 20 hops away ends the survey with code 3 (R365). -/
theorem walkOn_far (n : Nat) (path : List Nat) : (walkOn (setSurvey (fun x => { x with code := 3 }) (joinBegun n path u))).fab.survey.code = 3 ∧
    (walkOn (setSurvey (fun x => { x with code := 3 }) (joinBegun n path u))).fab.map = u.fab.map := by
  refine ⟨?_, (congrArg Fab.map (walkOn_chart _) :)⟩
  unfold walkOn
  rw [show 6 * (setSurvey (fun x => { x with code := 3 }) (joinBegun n path u)).fab.survey.stack.length + 6 = 10 + 1 + 1 from rfl,
    walk_pop (l := []) (x := ⟨n, path, 4⟩) _ rfl (Nat.le_refl 4)]
  exact walk_over _ rfl

section
variable {l : Bool} {q : BitVec 2} {nbr : BitVec 12} {nbrv : Bool} (ht : takeFrame p ⟨h, .note l q nbr nbrv⟩ s = some u)
include ht
theorem cameNote_dropped (hr : (s.fab.root && s.fab.auto) = false) : (cameNote h l q nbr (taken p ⟨h, .note l q nbr nbrv⟩ u)).fab.survey = s.fab.survey := by
  have hf := (taken_ports ht).fab
  unfold cameNote
  rw [show (taken p ⟨h, .note l q nbr nbrv⟩ u).fab.root = s.fab.root from (congrArg Fab.root hf :),
    show (taken p ⟨h, .note l q nbr nbrv⟩ u).fab.auto = s.fab.auto from (congrArg Fab.auto hf :), hr]
  exact (congrArg Fab.survey hf :)
theorem cameNote_root (hr : s.fab.root = true) (ha : s.fab.auto = true) : cameNote h l q nbr (taken p ⟨h, .note l q nbr nbrv⟩ u) =
    nextNote (withNote (l, h.src.toNat, q.toNat, nbr.toNat) (taken p ⟨h, .note l q nbr nbrv⟩ u)) := by
  have hf := (taken_ports ht).fab
  unfold cameNote
  rw [show (taken p ⟨h, .note l q nbr nbrv⟩ u).fab.root = s.fab.root from (congrArg Fab.root hf :),
    show (taken p ⟨h, .note l q nbr nbrv⟩ u).fab.auto = s.fab.auto from (congrArg Fab.auto hf :), hr, ha]
  rfl
end
theorem taken_survey {f : Frame} (ht : takeFrame p f s = some u) : (taken p f u).fab.survey = s.fab.survey := (congrArg Fab.survey (taken_ports ht).fab :)
theorem taken_map {f : Frame} (ht : takeFrame p f s = some u) : (taken p f u).fab.map = s.fab.map := (congrArg Fab.map (taken_ports ht).fab :)
theorem taken_mapAt {f : Frame} (ht : takeFrame p f s = some u) (n : Nat) : mapAt (taken p f u) n = mapAt s n := by
  unfold mapAt
  rw [taken_map ht]
theorem taken_eclk {f : Frame} (ht : takeFrame p f s = some u) : (taken p f u).eclk = s.eclk := (congrArg State.eclk (taken_ports ht).rest :)

/-! ### Frames for other nodes (R356) -/

theorem onward_other {b : Body} (hb : isRouted b = true) (hr : ∀ x, b ≠ .reserved x) (ho : isOwn u h = false) :
    onward u p ⟨h, b⟩ = some (⟨{ h with ttl := h.ttl - 1 }, b⟩, none) := by
  unfold onward
  split
  case h_4 k e => exact absurd e (hr k)
  case h_5 => exact if_neg (by rw [ho]; nofun)
  all_goals
    next e =>
    subst e
    exact absurd hb nofun
theorem receive_forwards {b : Body} (ht : takeFrame p ⟨h, b⟩ s = some u) (he : s.fab.en = true) (ho : isOwn s h = false) (hb : isRouted b = true)
    (hr : ∀ x, b ≠ .reserved x) : receive p ⟨h, b⟩ s = forward p ⟨h, b⟩ ⟨{ h with ttl := h.ttl - 1 }, b⟩ none u := by
  have hu : u.fab.en = true := (congrArg Fab.en (takeFrame_ports ht).fab :).trans he
  unfold receive receiveAt
  rw [ht]
  dsimp only
  rw [hu, onward_other hb hr ((isOwn_taken ht).trans ho)]
  rfl
theorem forward_ends {b : Body} {f g : Frame} (hb : isRouted b = true) (e : f.body = b) (hl : f.hdr.ttl ≤ 1) :
    (forward p f g none u).fab.ttlx = true ∧ (forward p f g none u).fab.refused = sat32 u.fab.refused := by
  subst e
  have hc : ttlEnds f = true := (Bool.and_eq_true _ _).mpr ⟨hb, decide_eq_true hl⟩
  unfold forward
  rw [hc]
  have hp := (portsOnly_freeFlits (some p) f (refuse p f.hdr.dst.toNat f.hdr.src.toNat 1 u)).fab
  rw [refuse_fab] at hp
  refine ⟨(congrArg Fab.ttlx hp :).trans ?_, (congrArg Fab.refused hp :)⟩
  exact Bool.or_true _
theorem forward_goes {f g : Frame} {q : Nat} (hl : 1 < f.hdr.ttl) (hq : routePort u g.hdr.dst.toNat = some q) :
    forward p f g none u = queueTx q ⟨g, some p, false, false, 0⟩ (lookRoute g.hdr.dst.toNat u).1 := by
  have hc : ttlEnds f = false := by
    unfold ttlEnds
    rw [decide_eq_false (BitVec.not_le.mpr hl)]
    exact Bool.and_false _
  have e : lookRoute g.hdr.dst.toNat u = ((lookRoute g.hdr.dst.toNat u).1, some q) := Prod.ext rfl hq
  unfold forward
  rw [hc]
  show routeTx _ u = _
  unfold routeTx
  rw [e]

end Sys2Proof.Laws
end

section
/-! PROOFS. The synchronisation exchange (R370, R371), and with it the frames that are left. -/

namespace Sys2Proof.Laws
open Sys2Proof.Machine

variable {s u v : State} {p n : Nat} {h : Hdr}

/-! ### What a frame that is taken leaves to an exchange -/

theorem owe_txRt (p : Nat) (w : LinkWord) (u : State) : (port (owe p w u) p).txRt = (port u p).txRt := by
  unfold owe
  rw [port_modP_self]
theorem taken_txRt {f : Frame} (ht : takeFrame p f s = some u) : (port (taken p f u) p).txRt = (port s p).txRt := by
  have hu : (port u p).txRt = (port s p).txRt := by
    rw [(takeFrame_some ht).2.2.2, owe_txRt, port_setPort_self]
  unfold taken freeFlits
  dsimp only
  split
  · exact (owe_txRt ..).trans hu
  · exact hu
theorem taken_sync {f : Frame} (ht : takeFrame p f s = some u) : (taken p f u).sync = s.sync := (congrArg State.sync (taken_ports ht).rest :)
theorem taken_mer {f : Frame} (ht : takeFrame p f s = some u) : (taken p f u).mer = s.mer := (congrArg State.mer (taken_ports ht).rest :)
theorem stampAt_of_mer (hm : v.mer = u.mer) (r : Nat) : stampAt v r = stampAt u r := by
  unfold stampAt
  rw [hm]

theorem quiet_of_same (hg : v.glob = u.glob) (he : v.eclk = u.eclk) : quiet v = quiet u := by
  unfold quiet
  rw [hg, he]
theorem request_arrives (hq : quiet u = false) : request n false u = { u with arrivals := u.arrivals ++ [(n, u.eclk)] } := if_neg (by rw [hq]; nofun)

/-! ### An exchange that fails, or ends (R370, R371) -/

theorem pathLost_sync (u : State) : (pathLost u).sync = { u.sync with lock := false, good := 0 } := by
  unfold pathLost
  dsimp only
  split
  · split <;> rfl
  · rfl
/-- The exchange is over, and counts as failed; the third in a row ends the lock. -/
structure SyncFails (x y : FabSync) : Prop where
  t1 : y.t1 = none
  good : y.good = 0
  fails : y.fails = min 255 (x.fails + 1)
  lock : 2 ≤ x.fails → y.lock = false
theorem syncFailed_fails (u : State) : SyncFails u.sync (syncFailed u).sync := by
  unfold syncFailed
  dsimp only
  split
  · rw [pathLost_sync]
    exact ⟨rfl, rfl, rfl, fun _ => rfl⟩
  · next h => exact ⟨rfl, rfl, rfl, fun h2 => absurd (by omega) h⟩
theorem syncCorrect_sync (o : Int) (u : State) : (syncCorrect o u).sync = u.sync :=
  syncCorrect_only (S := fun a => a ≠ .sync) ⟨⟨nofun, nofun⟩, nofun⟩ nofun only_refl .sync (fun h => h rfl)
theorem syncCorrect_other (o : Int) (hm : u.mer.src ≠ 1) : syncCorrect o u = u := if_neg (by simpa using hm)
/-- The state in which an exchange has ended well (R370). -/
def synced (p : Nat) (t1 t2 t3 t4 : W64) (u : State) : State :=
  let good := if decide ((syncOffset (port u p).asym t1 t2 t3 t4).natAbs < 50 * 2 ^ 24) then min 15 (u.sync.good + 1) else 0
  { u with sync := { u.sync with t1 := none, fails := 0, good := good, exch := u.sync.exch + 1,
                                 delay := BitVec.ofNat 16 (syncDelay t1 t2 t3 t4), lock := u.sync.lock || decide (u.sync.lockn ≤ good) } }
theorem cameSynr_ends {t1 : W64} (h1 : u.sync.t1 = some t1) (hp : u.sync.pport = p) (t2 t3 : W64) (r : Nat) :
    cameSynr p false t2 t3 r u = syncCorrect (syncOffset (port u p).asym t1 t2 t3 (stampAt u r)) (synced p t1 t2 t3 (stampAt u r) u) := by
  unfold cameSynr
  rw [h1]
  dsimp only
  rw [if_neg (not_not.mpr hp.symm)]
  rfl
theorem cameSynr_fails {t1 : W64} (h1 : u.sync.t1 = some t1) (hp : u.sync.pport = p) (t2 t3 : W64) (r : Nat) :
    cameSynr p true t2 t3 r u = syncFailed u := by
  unfold cameSynr
  rw [h1]
  dsimp only
  rw [if_neg (not_not.mpr hp.symm)]
  rfl

/-! ### Frames as they are sent -/

theorem queueTx_txRt {x : TxF} (hr : x.f.hdr.rt = true) (q : Nat) (u : State) : (port (queueTx q x u) q).txRt = (port u q).txRt ++ [x] := by
  unfold queueTx
  rw [port_modP_self, hr]
  rfl
theorem txFrame_replay (stamp : Nat → W64) (t : TxF) (x : LinkPort) :
    ({ t with f := ⟨{ t.f.hdr with lseq := x.txLseq }, stampOut (stamp t.rclk) t.own t.f.body⟩ } : TxF) ∈ (txFrame stamp t x).replay := by
  unfold txFrame
  dsimp only
  split
  · exact List.mem_append_right _ (List.mem_singleton_self _)
  · exact List.mem_append_right _ (List.mem_singleton_self _)
/-- The state in which an exchange has begun by port q (R370). -/
def exchangeBegun (r q : Nat) (u : State) : State :=
  { u with sync := { u.sync with t1 := some (stampAt u r), t1At := u.eclk, lastAt := u.eclk, pport := q } }
theorem syncExchange_begins {q r : Nat} (hq : quiet u = false) (he : u.sync.en = true) (h1 : u.sync.t1 = none) (hl : u.sync.lastAt + 800 * u.sync.per ≤ u.eclk)
    (hf : u.fab.en = true) (hp : parentPort u = some q) : syncExchange r u =
      queueTx q ⟨⟨hdr u true 0 (port u q).nbr.toNat false, .synq⟩, none, true, false, r⟩ (exchangeBegun r q u) := by
  unfold syncExchange
  rw [hp]
  dsimp only
  refine if_neg ?_
  rw [hq, he, hf, h1, decide_eq_false (not_lt.mpr hl)]
  nofun

/-- Settles O42: each frame as the router acts on it, and the exchange at both of its ends. -/
theorem otherFramesAndSynchronisation : Obligations.OtherFramesAndSynchronisation := by
  unfold Obligations.OtherFramesAndSynchronisation
  refine ⟨fun s u p h n leave q nbr nbrv k b e he => ⟨?refused, ?taken, ?note, ?reserved, ?forward⟩,
    fun s u p h t1 t2 t3 at_ leave he => ⟨?exchange, ?synq, ?synr, ?nosync, ?timeout, ?stamp⟩⟩
  case refused =>
    intro ht ho hn
    have hc := inEv_refused p (fun g => hn ((taken_passes ht).mp g)) (s := taken p ⟨h, .ev n⟩ u)
    have hf := fab_of_core hc
    exact ⟨_, congrArg Host.Outcome.next (own_acts rfl ht he ho 0 0), (congrArg Fab.evref hf :),
      (congrArg Fab.refused hf :).trans (congrArg (fun x : Fab => sat32 x.refused) (taken_ports ht).fab :),
      (arrivals_of_core hc).trans (congrArg State.arrivals (taken_ports ht).rest :),
      (inputs_of_core hc).trans (congrArg State.inputs (taken_ports ht).rest :),
      (ctxs_of_core hc).trans (congrArg State.ctxs (taken_ports ht).rest :)⟩
  case taken =>
    intro ht ho hg
    have hc := core_evRead h (taken p ⟨h, .ev n⟩ u)
    have hf := fab_of_core hc
    have e : act p 0 0 ⟨h, .ev n⟩ (taken p ⟨h, .ev n⟩ u) = _ :=
      (inEv_request p (s := taken p ⟨h, .ev n⟩ u) ((taken_passes ht).mpr hg)).trans (request_arrives ((quiet_of_same (glob_of_core hc) (eclk_of_core hc)).trans (taken_running ht)))
    refine ⟨_, congrArg Host.Outcome.next ((own_acts rfl ht he ho 0 0).trans e), (congrArg Fab.refused (hf.trans rfl) :).trans (congrArg Fab.refused (taken_ports ht).fab :),
      (congrArg Fab.evref hf :).trans (congrArg Fab.evref (taken_ports ht).fab :), ?_⟩
    show _ ++ [(n.toNat, _)] = _
    rw [arrivals_of_core hc, eclk_of_core hc, taken_eclk ht, show (taken p ⟨h, .ev n⟩ u).arrivals = s.arrivals from (congrArg State.arrivals (taken_ports ht).rest :)]
  case note =>
    intro ht ho
    have hx := own_acts (b := .note leave q nbr nbrv) rfl ht he ho 0 0
    have hs := taken_survey ht
    have hm := taken_map ht
    have ha := fun m => taken_mapAt ht m
    have ht' := taken_eclk ht
    have hd := fun hr => cameNote_dropped ht hr
    have hr := fun a b => cameNote_root ht a b
    generalize taken p ⟨h, .note leave q nbr nbrv⟩ u = w at *
    refine ⟨fun h0 => ⟨_, congrArg Host.Outcome.next hx, hd h0⟩, fun h1 h2 hb => ?_, ?_⟩
    · have hw : (withNote (leave, h.src.toNat, q.toNat, nbr.toNat) w).fab.survey.busy = true ∨
          (withNote (leave, h.src.toNat, q.toNat, nbr.toNat) w).fab.survey.leaving ≠ none := by
        rw [← hs] at hb
        exact hb
      exact ⟨_, congrArg Host.Outcome.next (hx.trans ((hr h1 h2).trans (nextNote_waits hw))), congrArg (fun x : Survey =>
        { x with notes := x.notes ++ [(leave, h.src.toNat, q.toNat, nbr.toNat)] }) hs⟩
    · have hu : s.fab.survey.busy = false → s.fab.survey.leaving = none → s.fab.survey.notes = [] → Unasked w.fab.survey :=
        fun h3 h4 h5 => ⟨hs ▸ h3, hs ▸ h4, hs ▸ h5⟩
      refine ⟨?leave, ?leaveUnknown, ?join, ?far, ?joinUnknown⟩
      case leave =>
        rintro ⟨h1, h2, h3, h4, h5⟩ rfl h0 hn
        have e1 := nextNote_leave (u := w) (hu h3 h4 h5) (fun g => h0 (BitVec.eq_of_toNat_eq g)) ((ha _).trans hn) h.src.toNat q.toNat
        obtain ⟨k1, k2⟩ := sendSv_survey e.path false 0 (leaveAsked nbr.toNat e.path w)
        refine ⟨_, congrArg Host.Outcome.next (hx.trans ((hr h1 h2).trans e1)), k1.trans ?_, k2.trans hm⟩
        show { w.fab.survey with leaving := some nbr.toNat, await := some e.path, awaitAt := w.eclk } = _
        rw [hs, ht']
      case leaveUnknown =>
        rintro ⟨h1, h2, h3, h4, h5⟩ rfl h0
        have hz : nbr.toNat = 0 ∨ mapAt w nbr.toNat = none := h0.imp (fun g => congrArg BitVec.toNat g) (fun g => (ha _).trans g)
        exact ⟨_, congrArg Host.Outcome.next (hx.trans ((hr h1 h2).trans (nextNote_leave_unknown (hu h3 h4 h5) hz h.src.toNat q.toNat))), hs⟩
      case join =>
        rintro ⟨h1, h2, h3, h4, h5⟩ rfl hn hl
        have e1 := nextNote_join (u := w) (hu h3 h4 h5) ((ha _).trans hn) hl q.toNat nbr.toNat
        obtain ⟨k1, k2⟩ := sendSv_survey (e.path ++ [q.toNat]) false 0 (joinAsked (e.path ++ [q.toNat]) (joinBegun h.src.toNat e.path w))
        refine ⟨_, congrArg Host.Outcome.next (hx.trans ((hr h1 h2).trans e1)), k1.trans ?_, k2.trans hm⟩
        show { w.fab.survey with busy := true, code := 0, stack := [⟨h.src.toNat, e.path, 4⟩], joining := true,
                                 await := some (e.path ++ [q.toNat]), awaitAt := w.eclk } = _
        rw [hs, ht']
      case far =>
        rintro ⟨h1, h2, h3, h4, h5⟩ rfl hn hl
        obtain ⟨k1, k2⟩ := walkOn_far (u := w) h.src.toNat e.path
        exact ⟨_, congrArg Host.Outcome.next (hx.trans ((hr h1 h2).trans (nextNote_join_far (hu h3 h4 h5) ((ha _).trans hn) hl q.toNat nbr.toNat))),
          k1, k2.trans hm⟩
      case joinUnknown =>
        rintro ⟨h1, h2, h3, h4, h5⟩ rfl hn
        exact ⟨_, congrArg Host.Outcome.next (hx.trans ((hr h1 h2).trans (nextNote_join_unknown (hu h3 h4 h5) ((ha _).trans hn) q.toNat nbr.toNat))), hs⟩
  case reserved =>
    intro ht hk
    have hf := refuse_fab p h.dst.toNat h.src.toNat 2 (taken p ⟨h, .reserved k⟩ u)
    exact ⟨_, (if_pos hk).trans (congrArg Host.Outcome.next (receiveAt_acts he ht rfl)), (congrArg Fab.badkind hf :).trans (Bool.or_true _),
      (congrArg Fab.refused hf :).trans (congrArg (fun x : Fab => sat32 x.refused) (taken_ports ht).fab :)⟩
  case forward =>
    intro ht ho hb hnr hok
    have hx := receive_forwards ht he ho hb hnr
    have hr : u.fab.refused = s.fab.refused := (congrArg Fab.refused (takeFrame_ports ht).fab :)
    refine ⟨fun hl => ?_, fun q hl hq => ?_⟩
    · obtain ⟨h1, h2⟩ := forward_ends (p := p) (u := u) (f := ⟨h, b⟩) (g := ⟨{ h with ttl := h.ttl - 1 }, b⟩) hb rfl hl
      exact ⟨_, (if_pos hok).trans (congrArg Host.Outcome.next hx), h1, h2.trans (congrArg sat32 hr)⟩
    · have e1 := forward_goes (p := p) (u := u) (f := ⟨h, b⟩) (g := ⟨{ h with ttl := h.ttl - 1 }, b⟩) hl hq
      refine ⟨_, (if_pos hok).trans (congrArg Host.Outcome.next (hx.trans e1)), ?_, mem_queueTx q ⟨⟨{ h with ttl := h.ttl - 1 }, b⟩, some p.val, false, false, 0⟩ _⟩
      exact (congrArg Fab.refused (fab_of_core (lookRoute_core h.dst.toNat u)) :).trans hr
  case exchange =>
    intro q hq hen h1 hl hp
    have e1 := syncExchange_begins (r := leave.val) hq hen h1 hl he hp
    exact ⟨_, congrArg Host.Outcome.next e1, rfl, rfl, rfl, _, queueTx_txRt rfl q (exchangeBegun leave.val q s), rfl, rfl, rfl⟩
  case synq =>
    intro ht ho
    have hx := own_acts (b := .synq) rfl ht he ho at_ leave
    have hq := queueTx_txRt (x := ⟨⟨hdr (taken p ⟨h, .synq⟩ u) true 0 h.src.toNat false, .synr
      (!((taken p ⟨h, .synq⟩ u).mer.sync || ((taken p ⟨h, .synq⟩ u).fab.idv && (taken p ⟨h, .synq⟩ u).fab.id == (taken p ⟨h, .synq⟩ u).sync.tref)))
      (stampAt (taken p ⟨h, .synq⟩ u) at_) 0⟩, none, true, false, leave⟩) rfl p (taken p ⟨h, .synq⟩ u)
    refine ⟨_, congrArg Host.Outcome.next hx, _, hq.trans (congrArg (· ++ _) (taken_txRt ht)), rfl, rfl, ?_⟩
    rw [stampAt_of_mer (taken_mer ht), taken_mer ht, taken_sync ht, show (taken p ⟨h, .synq⟩ u).fab.idv = s.fab.idv from (congrArg Fab.idv (taken_ports ht).fab :),
      show (taken p ⟨h, .synq⟩ u).fab.id = s.fab.id from (congrArg Fab.id (taken_ports ht).fab :)]
  case synr =>
    intro ht ho h1 hp
    have hx := own_acts (b := .synr false t2 t3) rfl ht he ho at_ 0
    have hs := taken_sync ht
    have hm := taken_mer ht
    generalize taken p ⟨h, .synr false t2 t3⟩ u = w at hx hs hm
    have e1 := cameSynr_ends (u := w) (p := p) (t1 := t1) (hs ▸ h1) (hs ▸ hp) t2 t3 at_
    have hk := syncCorrect_sync (syncOffset (port w p).asym t1 t2 t3 (stampAt w at_)) (synced p t1 t2 t3 (stampAt w at_) w)
    refine ⟨_, congrArg Host.Outcome.next (hx.trans e1), (congrArg FabSync.t1 hk :), (congrArg FabSync.fails hk :),
      (congrArg FabSync.exch hk :).trans (congrArg (·.exch + 1) hs), (congrArg FabSync.delay hk :).trans ?_, fun hsrc => ?_⟩
    · rw [stampAt_of_mer hm]
      rfl
    · rw [syncCorrect_other _ (show (synced p t1 t2 t3 (stampAt w at_) w).mer.src ≠ 1 from hm ▸ hsrc)]
      exact hm
  case nosync =>
    intro ht ho h1 hp
    have hx := own_acts (b := .synr true t2 t3) rfl ht he ho at_ 0
    have hs := taken_sync ht
    generalize taken p ⟨h, .synr true t2 t3⟩ u = w at hx hs
    have e1 := cameSynr_fails (u := w) (p := p) (t1 := t1) (hs ▸ h1) (hs ▸ hp) t2 t3 at_
    have F := hs ▸ syncFailed_fails w
    exact ⟨_, congrArg Host.Outcome.next (hx.trans e1), F.t1, F.good, F.fails, F.lock⟩
  case timeout =>
    intro h1 hl
    have F := syncFailed_fails s
    have e1 : synrTimeout s = syncFailed s := if_pos (by rw [h1, decide_eq_true hl]; rfl)
    exact ⟨_, congrArg Host.Outcome.next e1, F.t1, F.good, F.fails, F.lock⟩
  case stamp =>
    intro x t stamp n hown hb
    refine ⟨_, txFrame_replay stamp t x, ?_⟩
    dsimp only
    rw [hown, hb]
    rfl

end Sys2Proof.Laws
end

section
/-! PROOFS. Reads of registers and tables, and held low words (R4, R5, R340, R440 to R445). -/

namespace Sys2Proof.Laws
open Sys2Proof.Machine

variable {s u v : State} {b : Initiator} {o : Nat}

/-! ### No word that the host reads is the port's own -/

/-- The state with another host port. -/
def withPort (x : HostPort) (u : State) : State := { u with port := x }
theorem tableWord_port (x : HostPort) (u : State) (k : Nat) : tableWord (withPort x u) k = tableWord u k := rfl
theorem tableFinds_port (x : HostPort) (u : State) (n k : Nat) (f : Found) : tableFinds (withPort x u) n k f = tableFinds u n k f := rfl
/-- What the port notes of an access of the host that it takes (R340). -/
def answering (u : State) : State := withPort { u.port with lastAt := some u.eclk, resp := ⟨0, false⟩ } u
theorem read32_answering (u : State) (o : Nat) : read32 (answering u) o = read32 u o := rfl
theorem read64_answering (u : State) (o : Nat) : read64 (answering u) o = read64 u o := rfl
theorem tableWord_answering (u : State) (k : Nat) : tableWord (answering u) k = tableWord u k := tableWord_port ..
theorem tableFinds_answering (u : State) (n k : Nat) (f : Found) : tableFinds (answering u) n k f = tableFinds u n k f := tableFinds_port ..
theorem atPort_snaps (s : State) (b : Initiator) (t w : Bool) (o : Nat) : (atPort s b t w o).port.snaps = s.port.snaps := by
  have H : Only openAreas s (atPort s b t w o) := only_ite only_refl (check_only (checkIn_self.mono (fun _ h => .inl h)) only_refl)
  have hp := H .port (by rintro ((((h | h) | ⟨_, h⟩) | (h | h) | h) | h) <;> cases h)
  exact (congrArg HostPort.snaps hp :)
theorem sizeOk_four (h : o % 4 = 0) : sizeOk o 4 = true := beq_iff_eq.mpr h
theorem sizeOk_eight (h : o % 8 = 0) : sizeOk o 8 = true := beq_iff_eq.mpr h

/-! ### Reads of the register window (R4, R5, R445) -/

/-- A read of the host that the port takes. -/
theorem completes_read {off : W16} {size : Nat} {P : State → Prop} (h : HostOpen s .host false false off.toNat) (hz : sizeOk off.toNat size = true)
    (H : P (windowRead .host off.toNat size (.lowWordRead .host ⟨off, size⟩) (answering (atPort s .host false false off.toNat)))) :
    Completes (.lowWordRead .host ⟨off, size⟩) s P :=
  ⟨_, congrArg Host.Outcome.next ((if_pos hz).trans (host_atPort h)), H⟩
/-- Not one of the two registers whose read has an effect (R445). -/
def Plain (o : Nat) : Prop := o ≠ 0x3010 ∧ ¬ (0x4000 ≤ o ∧ o < 0x5000 ∧ o % 64 = 0x30)
theorem wideRead_plain (hp : Plain o) (all : Bool) (i : Instr) (u : State) : wideRead .host all o i u = readResp .host all o (read64 u o) u := by
  unfold wideRead
  rw [if_neg hp.1, if_neg hp.2]
theorem readResp_wide (o : Nat) (w : W64) (u : State) :
    (readResp .host true o w u).port.resp = ⟨w, false⟩ ∧ (readResp .host true o w u).port.snaps = u.port.snaps := ⟨rfl, rfl⟩
/-- A read of a low half keeps the high half (R5). -/
theorem readResp_low (o : Nat) (w : W64) (u : State) : (readResp .host false o w u).port.resp = ⟨BitVec.ofNat 64 (fld w 31 0), false⟩ ∧
    tget none (readResp .host false o w u).port.snaps (keySnap .host o) = some (BitVec.ofNat 32 (fld w 63 32)) :=
  ⟨rfl, tget_tset_self none u.port.snaps (keySnap .host o) (some (BitVec.ofNat 32 (fld w 63 32)))⟩
/-- A read of the high half ends what the low half's read kept (R5). -/
theorem readHigh_kept {k : Nat} {x : W32} (h : tget none u.port.snaps k = some x) (w : W64) :
    (readHigh .host k w u).port.resp = ⟨BitVec.setWidth 64 x, false⟩ ∧ tget none (readHigh .host k w u).port.snaps k = none := by
  unfold readHigh
  rw [h]
  exact ⟨rfl, tget_tset_self none u.port.snaps k none⟩
theorem base_self (h : o % 8 = 0) : o / 8 * 8 = o := by omega
theorem windowRead_narrow (hw : wide (o / 8 * 8) = false) (i : Instr) (u : State) :
    windowRead .host o 4 i u = setResp .host (BitVec.setWidth 64 (read32 u o)) false u := by
  unfold windowRead
  dsimp only
  rw [if_neg (by decide), hw]
  rfl
theorem windowRead_pair (h8 : o % 8 = 0) (hw : wide o = false) (i : Instr) (u : State) :
    windowRead .host o 8 i u = setResp .host (join (read32 u (o + 4)) (read32 u o)) false u := by
  unfold windowRead
  dsimp only
  rw [if_pos rfl, base_self h8, hw]
  rfl
theorem windowRead_wide (h8 : o % 8 = 0) (hw : wide o = true) (i : Instr) (u : State) : windowRead .host o 8 i u = wideRead .host true o i u := by
  unfold windowRead
  dsimp only
  rw [if_pos rfl, base_self h8, hw]
  rfl
theorem windowRead_low (h8 : o % 8 = 0) (hw : wide o = true) (i : Instr) (u : State) : windowRead .host o 4 i u = wideRead .host false o i u := by
  unfold windowRead
  dsimp only
  rw [if_neg (by decide), base_self h8, hw, if_neg nofun, if_neg (not_not.mpr h8)]
theorem windowRead_high (h8 : o % 8 = 4) (hw : wide (o / 8 * 8) = true) (i : Instr) (u : State) :
    windowRead .host o 4 i u = readHigh .host (keySnap .host (o / 8 * 8)) (read64 u (o / 8 * 8)) u := by
  unfold windowRead
  dsimp only
  rw [if_neg (by decide), hw, if_neg nofun, if_pos (by omega)]

/-! ### A held low word (R443) -/

theorem heldLow_setLow (k : Nat) (x : Option W32) (u : State) : heldLow (setLow k x u) k = x := tget_tset_self ..
/-- The low half of a wide register waits for its high half, on every page. -/
theorem splitWrite_low (h8 : o % 8 = 0) (hw : wide o = true) (f : Nat → W32 → State → State) (g : Nat → W64 → State → State) (b : Initiator) (d : W64)
    (u : State) : splitWrite f g b o 4 d u = setLow (keySnap b o) (some (loWord d)) u := by
  unfold splitWrite
  dsimp only
  rw [if_neg (by decide), base_self h8, hw, if_neg nofun, if_pos h8]
/-- A write of the host outside the management page, as the port takes it. -/
theorem exec_write {off : W16} {size : Nat} {d : W64} {x : BitVec 512} (h : HostOpen s .host false true off.toNat) (hz : sizeOk off.toNat size = true)
    (hm : mgtPage off.toNat = false) : exec (.hostRegisterWrite .host off size d x) s =
      .next (registerWrite .host off.toNat size d x (answering (atPort s .host false true off.toNat))) :=
  congrArg Host.Outcome.next ((if_neg (by rw [hz]; nofun)).trans ((if_neg (by rw [hm]; nofun)).trans (host_atPort h)))
/-- CH_START of channel 0 is a register of its own. -/
theorem registerWrite_start (hc : core u = core s) (d : W64) (x : BitVec 512) :
    (ctx (registerWrite .host 0x8004 4 d x (answering u)) 0).r = { (ctx s 0).r with start := BitVec.setWidth 32 d &&& 0xFFFFFFE0 } := by
  have hy : ctx (answering u) 0 = ctx s 0 := ctx_of_core (v := answering u) hc 0
  have hw : wide (0x8004 / 8 * 8) = false := by decide
  generalize answering u = y at hy
  have e : registerWrite .host 0x8004 4 d x y = writeStart 0 (loWord d) y := by
    unfold registerWrite splitWrite
    dsimp only
    rw [if_neg (by decide), hw, if_pos (by decide)]
    rfl
  rw [e]
  unfold writeStart
  rw [ctx_modW_self, ctx_modR_self, hy]
  rfl
/-- A write of a low half, as it stands once it has its effect (R412, R443). -/
theorem completes_low {off : W16} {d : W64} {x : BitVec 512} (h : HostOpen s .host false true off.toNat) (h8 : off.toNat % 8 = 0) (hw : wide off.toNat = true)
    {P : State → Prop} (H : ∀ v, core { v with eclk := s.eclk } = core s →
      P (setLow (keySnap .host off.toNat) (some (loWord d)) v)) :
    Completes (.hostRegisterWrite .host off 4 d x) s fun t => P (if mgtPage off.toNat then atNextMclk t else t) := by
  have hz : sizeOk off.toNat 4 = true := sizeOk_four (by omega)
  have hc : core (answering (atPort s .host false true off.toNat)) = core s := core_atPort ..
  by_cases hm : mgtPage off.toNat = true
  · have e : exec (.hostRegisterWrite .host off 4 d x) s =
        .next (mgtTake (.hostRegisterWrite .host off 4 d x) (answering (atPort s .host false true off.toNat))) := by
      refine congrArg Host.Outcome.next ((if_neg (by rw [hz]; nofun)).trans ((if_pos hm).trans (host_atPort h)))
    refine ⟨_, e, ?_⟩
    dsimp only
    rw [if_pos hm, atNextMclk_mgtTake]
    show P (splitWrite writeMgt32 writeMgt64 .host off.toNat 4 d _)
    rw [splitWrite_low h8 hw]
    exact H _ (congrArg (fun z : State => { z with eclk := s.eclk }) hc :)
  · refine ⟨_, exec_write h hz (Bool.eq_false_iff.mpr hm), ?_⟩
    dsimp only
    rw [if_neg hm]
    unfold registerWrite
    rw [splitWrite_low h8 hw]
    exact H _ (congrArg (fun z : State => { z with eclk := s.eclk }) hc :)

/-! ### Reads of the table window (R440) -/

theorem completes_tableRead {off : BitVec 21} {f : Found} {P : State → Prop} (h : HostOpen s .host true false off.toNat) (h8 : off.toNat % 8 = 0)
    (H : P (tableRead .host off.toNat 8 f (answering (atPort s .host true false off.toNat)))) : Completes (.hostTableRead .host off 8 f) s P :=
  ⟨_, congrArg Host.Outcome.next ((if_pos (sizeOk_eight h8)).trans (host_atPort h)), H⟩
theorem showFree_resp (o : Nat) (u : State) : (showFree o u).port = u.port := by
  unfold showFree
  split <;> rfl
theorem tableRead_clean {store : Nat} {f : Found} (hs : tableStore (o / 8) = some store) (hf : tableFinds u store (o / 8) f = .clean) :
    (tableRead .host o 8 f (answering u)).port.resp = ⟨tableWord u (o / 8), false⟩ := by
  unfold tableRead
  rw [hs]
  dsimp only
  rw [if_neg nofun, (tableFinds_answering ..).trans hf]
  dsimp only
  rw [showFree_resp, ← tableWord_answering]
  rfl
theorem tableRead_fails {store : Nat} {f : Found} (hs : tableStore (o / 8) = some store) (hf : tableFinds u store (o / 8) f = .uncorrected) :
    tableRead .host o 8 f (answering u) = setResp .host 0 true (uncorrected store 0 (BitVec.ofNat 64 (o / 8 * 8)) (answering u)) := by
  unfold tableRead
  rw [hs]
  dsimp only
  rw [if_neg nofun, (tableFinds_answering ..).trans hf]
theorem errCls_setResp (d : W64) (e : Bool) (u : State) (k : Nat) : errCls (setResp .host d e u) k = errCls u k := rfl
theorem errCls_answering (u : State) (k : Nat) : errCls (answering u) k = errCls u k := rfl
theorem resp_setResp (d : W64) (e : Bool) (u : State) : (setResp .host d e u).port.resp = ⟨d, e⟩ := rfl
theorem tableRead_uncorrected {store : Nat} {f : Found} (hs : tableStore (o / 8) = some store) (hf : tableFinds u store (o / 8) f = .uncorrected) :
    (tableRead .host o 8 f (answering u)).port.resp = ⟨0, true⟩ ∧
    (errCls (tableRead .host o 8 f (answering u)) (2 * store + 1)).total = sat16 (errCls u (2 * store + 1)).total := by
  rw [tableRead_fails hs hf, resp_setResp, errCls_setResp, uncorrected_errCls, countErr_self, errCls_answering]
  exact ⟨rfl, rfl⟩

/-- Settles O53: each read as the port answers it, and a low half as it is held. -/
theorem readsOfRegistersAndTables : Obligations.ReadsOfRegistersAndTables := by
  unfold Obligations.ReadsOfRegistersAndTables
  refine ⟨fun s off d x => ⟨?narrow, ?pair, ?wide, ?low, ?high, ?held, ?start⟩, fun s off store h h8 hst => ⟨?clean, ?uncorrected⟩⟩
  case narrow =>
    intro h h4 hw
    refine completes_read h (sizeOk_four h4) ?_
    rw [windowRead_narrow hw, read32_answering]
    rfl
  case pair =>
    intro h h8 hw
    refine completes_read h (sizeOk_eight h8) ?_
    rw [windowRead_pair h8 hw, read32_answering, read32_answering]
    rfl
  case wide =>
    intro h h8 hw hp
    refine completes_read h (sizeOk_eight h8) ?_
    rw [windowRead_wide h8 hw, wideRead_plain hp, read64_answering]
    obtain ⟨h1, h2⟩ := readResp_wide off.toNat (read64 (atPort s .host false false off.toNat) off.toNat) (answering (atPort s .host false false off.toNat))
    exact ⟨h1, h2.trans (atPort_snaps ..)⟩
  case low =>
    intro h h8 hw hp
    refine completes_read h (sizeOk_four (by omega)) ?_
    rw [windowRead_low h8 hw, wideRead_plain hp, read64_answering]
    exact readResp_low ..
  case high =>
    intro v h h8 hw hv
    have hs : tget none (answering (atPort s .host false false off.toNat)).port.snaps (keySnap .host (off.toNat / 8 * 8)) = some v :=
      (congrArg (tget none · _) (atPort_snaps ..) :).trans hv
    refine completes_read h (sizeOk_four (by omega)) ?_
    rw [windowRead_high h8 hw]
    exact readHigh_kept hs _
  case held =>
    intro h h8 hw
    refine completes_low (P := fun v => heldLow v (keySnap .host off.toNat) = some (BitVec.setWidth 32 d) ∧ v.mer = s.mer ∧ v.ctxs = s.ctxs ∧
      v.queues = s.queues) h h8 hw fun v hv => ⟨heldLow_setLow .., ?_, ?_, ?_⟩
    · exact (congrArg State.mer hv :)
    · exact (congrArg State.ctxs hv :)
    · exact (congrArg State.queues hv :)
  case start =>
    intro h hoff
    have ho : off.toNat = 0x8004 := by rw [hoff]; rfl
    refine ⟨_, exec_write (size := 4) (by rwa [ho]) (by rw [ho]; rfl) (by rw [ho]; rfl), ?_⟩
    rw [ho]
    exact registerWrite_start (core_atPort ..) d x
  case clean =>
    intro hf ho
    exact completes_tableRead h h8 (tableRead_clean hst hf)
  case uncorrected =>
    intro hf
    exact completes_tableRead h h8 (tableRead_uncorrected hst hf)

end Sys2Proof.Laws
end

section
/-! PROOFS. The ends of local accesses (R30, R258, R282, R283, R375). -/

namespace Sys2Proof.Laws
open Sys2Proof.Machine

variable {s u v : State} {tag q c : Nat} {a : Acc}

/-! ### A read that ends, and a write -/

/-- Every area but that of the accesses outstanding. -/
def offOutst : Set Area := fun p => p ≠ .outst
theorem laneIn_offOutst (l c : Nat) : LaneIn l c offOutst := ⟨⟨⟨nofun, nofun⟩, nofun⟩, ⟨⟨nofun, nofun⟩, nofun⟩, ⟨nofun, nofun⟩, nofun⟩
theorem outst_of_only (h : Only offOutst s u) : u.outst = s.outst := h .outst fun g => g rfl
theorem readEnd_orphan (h : a.orphan = true) (r : Option (W128 × Bool)) (u : State) : readEnd a r u = accDone a.ch a.bno u := by
  unfold readEnd
  rw [h]
  rfl
theorem readEnd_load (h : a.orphan = false) (ho : a.owner = .load c) (d : W128) (p : Bool) (u : State) :
    readEnd a (some (d, p)) u = accDone a.ch a.bno (loadPart c a.parts d p u) := by
  unfold readEnd
  rw [h, ho]
  rfl
theorem readEnd_lane {l : Nat} {side : Side} (h : a.orphan = false) (ho : a.owner = .lane l side) (d : W128) (p : Bool) (u : State) :
    readEnd a (some (d, p)) u = accDone a.ch a.bno (advance l (laneData l side a.parts d p u)) := by
  unfold readEnd
  rw [h, ho]
  rfl
theorem writeEnd_store (ho : a.owner = .store c) (u : State) : writeEnd a true u = accDone a.ch a.bno (dropCovered c true u) := by
  unfold writeEnd
  rw [ho]
  rfl
theorem writeEnd_spill {op : SpillOp} (h : a.orphan = false) (ho : a.owner = .spill q op) (u : State) :
    writeEnd a true u = accDone a.ch a.bno (spillWriteEnd q op true a.blk u) := by
  unfold writeEnd
  rw [ho, h]
  rfl
theorem exec_read {d : W128} {p : Bool} (h : outAt s tag = some a) (hw : a.wr = false) :
    exec (.readResponse tag (.data d p)) s = .next (readEnd a (some (d, p)) (freeTag tag s)) := by
  show execReadResponse tag (.data d p) s = _
  unfold execReadResponse
  rw [h]
  dsimp only
  rw [hw]
  rfl
theorem exec_writeOk (h : outAt s tag = some a) (hw : a.wr = true) : exec (.writeResponse tag .ok) s = .next (writeEnd a true (freeTag tag s)) := by
  show execWriteResponse tag .ok s = _
  unfold execWriteResponse
  rw [h]
  dsimp only
  rw [hw]
  rfl
theorem exec_spillWrite {op : SpillOp} {d : W128} (h : outAt s tag = some a) (hw : a.wr = true) (ho : a.owner = .spill q op) :
    exec (.spillResponse tag (.data d false)) s = .next (writeEnd a true (freeTag tag s)) := by
  show execSpillResponse tag (.data d false) s = _
  unfold execSpillResponse
  rw [h]
  dsimp only
  rw [ho, hw]
  rfl
theorem accDone_some {ch : Option (Nat × Nat × Nat)} {n : Nat} (H : Only (fun x => x = .outst ∨ someCtx x) s u) :
    Only (fun x => x = .outst ∨ someCtx x) s (accDone ch n u) := accDone_only (fun c _ _ _ => .inr ⟨c, rfl⟩) H
theorem Notes.queue_eq (h : Notes u v) (q : Nat) : queue v q = queue u q := by
  unfold queue
  rw [show v.queues = u.queues from (congrArg State.queues h.rest :)]

/-- Settles O14: what each response ends, by its access's owner. -/
theorem responsesEndTheirAccess : Obligations.ResponsesEndTheirAccess := by
  unfold Obligations.ResponsesEndTheirAccess
  refine ⟨fun s tag a ha => ⟨?orphan, ?load, ?lane, ?store⟩, fun s tag q a d ha hw horph => ⟨?header, ?data⟩⟩
  case orphan =>
    intro d p hw ho
    have N := notes_accDone (ch := a.ch) (n := a.bno) (u := freeTag tag s)
    exact ⟨_, (exec_read ha hw).trans (congrArg Host.Outcome.next (readEnd_orphan ho ..)), N.outst,
      accDone_some (put_outst (.inl rfl) only_refl), N.regs⟩
  case load =>
    intro d p c hw ho hc
    obtain ⟨h1, h2⟩ := loadPart_ctx (u := freeTag tag s) (c := c) a.parts d p
    have N := notes_accDone (ch := a.ch) (n := a.bno) (u := loadPart c a.parts d p (freeTag tag s))
    exact ⟨_, (exec_read ha hw).trans (congrArg Host.Outcome.next (readEnd_load ho hc ..)), N.outst, (N.loadGot c).trans h1, (N.regs c).trans h2⟩
  case lane =>
    intro d p l side hw ho hl
    have H : Only offOutst (freeTag tag s) (advance l (laneData l side a.parts d p (freeTag tag s))) :=
      advance_only (fun b _ => laneIn_offOutst l b.ch) (put_setLane ⟨nofun, nofun⟩ only_refl)
    exact ⟨_, (exec_read ha hw).trans (congrArg Host.Outcome.next (readEnd_lane ho hl ..)), (notes_accDone ..).outst.trans (outst_of_only H)⟩
  case store =>
    intro c run leg hw hc hch
    have N := notes_accDone (ch := a.ch) (n := a.bno) (u := dropCovered c true (freeTag tag s))
    have e : ctx (dropCovered c true (freeTag tag s)) c = { ctx s c with w := { (ctx s c).w with wLoc := (ctx s c).w.wLoc - 1 } } := ctx_modW_self ..
    exact ⟨_, (exec_writeOk ha hw).trans (congrArg Host.Outcome.next (writeEnd_store hc ..)), N.outst, (N.wLoc c).trans (congrArg (fun x : Ctx => x.w.wLoc) e :),
      (N.wRem c).trans (congrArg (fun x : Ctx => x.w.wRem) e :), (N.regs c).trans (congrArg Ctx.r e :)⟩
  case header =>
    intro n p sl ho hm
    have e : spillWriteEnd q .headWr true a.blk (freeTag tag s) = spillDone q n p sl (freeTag tag s) := by
      unfold spillWriteEnd
      rw [show (queue (freeTag tag s) q).wrMove = .header n p sl from hm]
      rfl
    exact ⟨_, (exec_spillWrite ha hw ho).trans (congrArg Host.Outcome.next ((writeEnd_spill horph ho _).trans (congrArg (accDone a.ch a.bno) e))),
      ((notes_accDone ..).queue_eq q).trans (queue_modQ_self ..)⟩
  case data =>
    intro n p sl left ho hm hl
    have e : spillWriteEnd q .dataWr true a.blk (freeTag tag s) = modQ q (fun x => { x with wrMove := .write n p sl (left - 1) }) (freeTag tag s) := by
      unfold spillWriteEnd
      rw [show (queue (freeTag tag s) q).wrMove = .write n p sl left from hm]
      dsimp only
      rw [if_neg nofun, if_neg (by omega)]
    exact ⟨_, (exec_spillWrite ha hw ho).trans (congrArg Host.Outcome.next ((writeEnd_spill horph ho _).trans (congrArg (accDone a.ch a.bno) e))),
      ((notes_accDone ..).queue_eq q).trans (queue_modQ_self ..)⟩

end Sys2Proof.Laws
end

section
/-! PROOFS. The ends of an in-cluster copy and of a LOAD (R85, R89, R136). -/

namespace Sys2Proof.Laws
open Sys2Proof.Machine

variable {s u v : State} {l c : Nat} {b : Burst}

/-! ### Copies -/

theorem Notes.burstOn_eq (h : Notes u v) (l : Nat) : burstOn v l = burstOn u l := by
  unfold Machine.burstOn lane
  rw [show v.lanes = u.lanes from (congrArg State.lanes h.rest :)]
/-- The cluster's report ends a copy that has begun and whose lookups have been decided. -/
theorem exec_copyDone {l : Fin 8} {r : CopyResp} (h : burstOn s l = some b) (hc : b.inCluster = true) (hs : b.started = true) (hd : b.copyDone = false)
    (hl : 0 < b.limit) (hk : copyLooks s l = false) :
    exec (.inClusterCopyDone l r) s = .next (noteAcc b.ch b.no (modB l (copyEnded r) s)) := by
  have ho : copyOver b = false := by
    unfold copyOver
    rw [hd, decide_eq_false (by omega)]
    rfl
  show execInClusterCopyDone l r s = _
  unfold execInClusterCopyDone
  rw [h]
  dsimp only
  rw [hc, hs, ho, hk]
  rfl
theorem cutAt_past {j : Nat} (h : b.limit ≤ j) (w : BurstEnd) : cutAt j w b = b := if_neg (by omega)
theorem cutAt_before {j : Nat} (h : j < b.limit) (w : BurstEnd) : cutAt j w b = { b with limit := j, why := w } := if_pos h
theorem copyEnded_done (h : b.limit ≤ b.els.length) (passed : Bool) : copyEnded (.done passed) b =
    { b with copyDone := true, fP := b.fP || (passed && poiOf b.leg), copyBytes := b.limit * swB b.leg, moved := b.limit * swB b.leg } := by
  unfold copyEnded copyEnd
  dsimp only
  rw [cutAt_past h]
/-- A copy that ends at element j with a bus error (R85). -/
def copyFailed (j : Nat) (a : GAddr) (passed : Bool) (b : Burst) : Burst :=
  { b with limit := j, why := .faulted 0x11 a, copyDone := true, fP := b.fP || (passed && poiOf b.leg), copyBytes := j * swB b.leg, moved := j * swB b.leg }
theorem copyEnded_err {j : Nat} {e : El} {dst : Bool} (he : b.els[j]? = some e) (h : j < b.limit) (passed : Bool) :
    copyEnded (.err j dst passed) b = copyFailed j (if dst then e.dst else e.src) passed b := by
  have hel : elAt b j = some e := he
  unfold copyEnded copyEnd
  dsimp only
  rw [cutAt_before h, hel]
  rfl

/-! ### A LOAD's data -/

/-- The channel's registers with the element of its LOAD g and its poison (R136). -/
def loaded (g : Leg) (x : Work) (r : CtxRegs) : CtxRegs :=
  { setV (fld g.w2 2 0) (extend64 (swB g) (bit g.w2 3) x.loadData) r with
    flags := { r.flags with p := r.flags.p || x.loadPoison } }
/-- The channel's registers with the energy and bytes of an access (R420). -/
def charged (e n : Nat) (r : CtxRegs) : CtxRegs := { r with energy16 := (r.energy16 + e) % (2 ^ 48 * 16), bytes := r.bytes + BitVec.ofNat 64 n }
theorem addEnergy_ctx (c e n : Nat) (u : State) : (ctx (addEnergy c e n u) c).r = charged e n (ctx u c).r ∧ (ctx (addEnergy c e n u) c).w = (ctx u c).w := by
  show (ctx (modR c (charged e n) u) c).r = _ ∧ (ctx (modR c (charged e n) u) c).w = _
  rw [ctx_modR_self]
  exact ⟨rfl, rfl⟩
theorem loadReturn_ends (hp : (ctx u c).w.phase = .single) (ho : opOf (ctx u c).r.leg = 0x45) (hf : (ctx u c).w.loadFail = none)
    (hg : swB (ctx u c).r.leg ≤ (ctx u c).w.loadGot) (hq : (ctx u c).w.loadPoison = false ∨ poiOf (ctx u c).r.leg = true) :
    loadReturn c u = finish c (modR c (loaded (ctx u c).r.leg (ctx u c).w) u) := by
  have hpp : ((ctx u c).w.loadPoison && !poiOf (ctx u c).r.leg) = false := by
    rcases hq with h | h <;> rw [h]
    · rfl
    · exact Bool.and_false _
  unfold loadReturn
  dsimp only
  rw [hp, ho, hf, hpp]
  dsimp only
  rw [if_neg (by decide), if_neg (not_lt.mpr hg), if_neg nofun]
  rfl
theorem loaded_kept (g : Leg) (x : Work) (e : Nat) (r : CtxRegs) : (loaded g x (charged e 0 r)).leg = r.leg ∧ (loaded g x (charged e 0 r)).pc = r.pc ∧
    (loaded g x (charged e 0 r)).state = r.state := ⟨rfl, rfl, rfl⟩
/-- A LOAD completes with its element, its poison, and the energy that it has taken. -/
theorem loadReturn_completes {e : Nat} (hr : (ctx u c).r = charged e 0 (ctx s c).r) (hw : (ctx u c).w = (ctx s c).w) (hh : u.heldRecs = s.heldRecs)
    (hg : GoesOn s c) (hp : (ctx s c).w.phase = .single) (ho : opOf (ctx s c).r.leg = 0x45) (ha : (ctx s c).r.state = .active)
    (hf : (ctx s c).w.faulting = none) (hl : (ctx s c).w.loadFail = none) (hgot : swB (ctx s c).r.leg ≤ (ctx s c).w.loadGot)
    (hq : (ctx s c).w.loadPoison = false ∨ poiOf (ctx s c).r.leg = true) :
    WentTo s c (successorOf (ctx s c).r) (loaded (ctx s c).r.leg (ctx s c).w (charged e 0 (ctx s c).r)) (loadReturn c u) := by
  have hleg : (ctx u c).r.leg = (ctx s c).r.leg := by rw [hr]; rfl
  have hends := loadReturn_ends (u := u) (c := c) (by rwa [hw]) (by rwa [hleg]) (by rwa [hw]) (by rwa [hw, hleg]) (by rwa [hw, hleg])
  rw [hleg, hw] at hends
  generalize hv : modR c (loaded (ctx s c).r.leg (ctx s c).w) u = v at hends
  have hvr : (ctx v c).r = loaded (ctx s c).r.leg (ctx s c).w (charged e 0 (ctx s c).r) := by rw [← hv, ctx_modR_self, hr]
  have hvw : (ctx v c).w = (ctx s c).w := by rw [← hv, ctx_modR_self, hw]
  obtain ⟨k1, k2, k3⟩ := loaded_kept (ctx s c).r.leg (ctx s c).w e (ctx s c).r
  rw [← hvr] at k1 k2 k3 ⊢
  have hg1 : GoesOn v c := goesOn_congr hg k1 (by rw [← hv]; exact hh)
  rw [hends]
  have W := wentTo_of_ctx (s := s) (finish_wentTo hg1 (by rw [k3, ha]; nofun) (by rwa [hvw])) (by rw [hvw])
  rwa [successor_congr k1 k2] at W

/-- Settles O15: a copy's two ends, and a LOAD's data. -/
theorem copyAndLoadComplete : Obligations.CopyAndLoadComplete := by
  unfold Obligations.CopyAndLoadComplete
  refine fun s => ⟨fun l b passed h hc hs hd hl hk => ⟨fun hlen => ?done, fun j e dst he hj => ?err⟩, fun c hg hp ho ha hf hl hgot hq => ?load⟩
  case done =>
    have N := notes_noteAcc (c := b.ch) (n := b.no) (u := modB l (copyEnded (.done passed)) s)
    refine ⟨_, exec_copyDone h hc hs hd hl hk, (N.burstOn_eq l).trans ?_, N.outst, (congrArg State.offered N.rest :), N.regs⟩
    rw [burstOn_modB, h, ← copyEnded_done hlen]
    rfl
  case err =>
    have N := notes_noteAcc (c := b.ch) (n := b.no) (u := modB l (copyEnded (.err j dst passed)) s)
    refine ⟨_, exec_copyDone h hc hs hd hl hk, copyFailed j (if dst then e.dst else e.src) passed b, (N.burstOn_eq l).trans ?_, rfl, rfl, rfl, rfl⟩
    rw [burstOn_modB, h, ← copyEnded_err he hj]
    rfl
  case load =>
    have hw : (ctx s c).w.loadFail.isSome = false := by rw [hl]; rfl
    generalize hu : addEnergy c (192 + (if isLocal s (srcOf (ctx s c).r.leg) then 11 * swB (ctx s c).r.leg else 0)) 0 s = u
    have e : exec (.loadDataReturn c) s = .next (loadReturn c u) := by
      rw [← hu]
      show execLoadDataReturn c s = _
      unfold execLoadDataReturn
      dsimp only
      rw [hp, ho, hw, decide_eq_true hgot]
      rfl
    have hx := addEnergy_ctx c (192 + (if isLocal s (srcOf (ctx s c).r.leg) then 11 * swB (ctx s c).r.leg else 0)) 0 s
    rw [hu] at hx
    have hh : u.heldRecs = s.heldRecs := by rw [← hu]; rfl
    obtain ⟨w1, w2, w3, -⟩ := loadReturn_completes hx.1 hx.2 hh hg hp ho ha hf hl hgot hq
    refine ⟨_, e, ?_, (congrArg CtxRegs.flags w2 :), w1, w3⟩
    unfold vreg
    rw [show (ctx (loadReturn c u) c).r.v = _ from (congrArg CtxRegs.v w2 :)]
    exact tget_tset_self ..

end Sys2Proof.Laws
end

section
/-! SUPPORT. A lane's burst as its lane goes on: whose it is, its leg, and what its channel keeps (R13, R152). -/

namespace Sys2Proof.Laws
open Sys2Proof.Machine

variable {s u v : State} {l c : Nat} {g : Leg} {r : CtxRegs} {b : Burst}

/-- Lane l runs a burst of channel c's leg g, and the channel's registers are r. -/
structure Serves (l c : Nat) (g : Leg) (r : CtxRegs) (u : State) : Prop where
  burst : ∃ b, burstOn u l = some b ∧ b.ch = c ∧ b.leg = g
  regs : (ctx u c).r = r
  phase : (ctx u c).w.phase = .burst l
/-- The burst is still the same channel's, and of the same leg. -/
structure SameLeg (x y : Burst) : Prop where
  ch : y.ch = x.ch
  leg : y.leg = x.leg

/-! ### What the lane's parts do -/

theorem Serves.of_same (H : Serves l c g r u) (hc : v.ctxs = u.ctxs) (hl : v.lanes = u.lanes) : Serves l c g r v := by
  obtain ⟨h1, h2, h3⟩ := H
  unfold burstOn lane ctx at *
  rw [← hl] at h1
  rw [← hc] at h2 h3
  exact ⟨h1, h2, h3⟩
theorem serves_of_core (h : core v = core u) (H : Serves l c g r u) : Serves l c g r v := H.of_same (ctxs_of_core h) (congrArg State.lanes h :)
theorem serves_modB {f : Burst → Burst} (hf : ∀ b, SameLeg b (f b)) (H : Serves l c g r u) : Serves l c g r (modB l f u) := by
  obtain ⟨⟨b, h1, h2, h3⟩, h4, h5⟩ := H
  exact ⟨⟨f b, by rw [burstOn_modB, h1]; rfl, (hf b).ch.trans h2, (hf b).leg.trans h3⟩, h4, h5⟩
theorem serves_setLane {x : LaneSt} (hx : x.burst = burstOn u l) (H : Serves l c g r u) : Serves l c g r (setLane l x u) := by
  obtain ⟨h1, h4, h5⟩ := H
  refine ⟨?_, h4, h5⟩
  unfold burstOn
  rw [lane_setLane_self, hx]
  exact h1
theorem serves_addCovered {d : Nat} {loc : Bool} (H : Serves l c g r u) : Serves l c g r (addCovered d loc u) := by
  obtain ⟨h1, h4, h5⟩ := H
  unfold addCovered modW
  refine ⟨h1, ?_, ?_⟩ <;> rw [ctx_setCtx]
  · split
    · next e => subst e; exact h4
    · exact h4
  · split
    · next e =>
      subst e
      dsimp only
      split <;> exact h5
    · exact h5
theorem serves_ite {p : Prop} [Decidable p] (hu : Serves l c g r u) (hv : Serves l c g r v) : Serves l c g r (if p then u else v) := by
  split
  · exact hu
  · exact hv
theorem serves_foldl {α : Type} {f : State → α → State} (hf : ∀ u a, Serves l c g r u → Serves l c g r (f u a)) (as : List α) :
    ∀ u, Serves l c g r u → Serves l c g r (as.foldl f u) := by
  induction as with
  | nil => exact fun u h => h
  | cons a as ih => exact fun u h => ih _ (hf u a h)
theorem cutAt_same (j : Nat) (w : BurstEnd) (b : Burst) : SameLeg b (cutAt j w b) := by
  unfold cutAt
  split <;> exact ⟨rfl, rfl⟩
theorem serves_cut {j : Nat} {w : BurstEnd} (H : Serves l c g r u) : Serves l c g r (cut l j w u) := serves_modB (cutAt_same j w) H
theorem submit_ctxs (w : Want) (u : State) : (submit w u).ctxs = u.ctxs ∧ (submit w u).lanes = u.lanes := by
  unfold submit
  split
  · have h := core_beginLookup (askOf w) u
    exact ⟨ctxs_of_core (v := (beginLookup (askOf w) u).1) h, (congrArg State.lanes h :)⟩
  · exact ⟨rfl, rfl⟩
theorem serves_submit {w : Want} (H : Serves l c g r u) : Serves l c g r (submit w u) := H.of_same (submit_ctxs w u).1 (submit_ctxs w u).2

/-! ### Its accesses are formed -/

theorem serves_readAcc {side : Side} {a : BlkAcc} (H : Serves l c g r u) : Serves l c g r (readAcc l side u a) := by
  unfold readAcc
  split
  · exact H
  · refine serves_ite H (serves_ite (serves_cut H) ?_)
    dsimp only
    split
    · exact serves_cut H
    · exact serves_submit H
theorem serves_readSide {side : Side} {as : List BlkAcc} (H : Serves l c g r u) : Serves l c g r (readSide l side as u) :=
  serves_foldl (fun _ _ h => serves_readAcc h) as u H
theorem serves_crossCut {base : GAddr} {w : Nat} {offs : List Int} (H : Serves l c g r u) : Serves l c g r (crossCut u l base w offs) := by
  unfold crossCut
  split
  · exact H
  · split
    · exact serves_cut H
    · exact H
theorem serves_checkOnly {wr : Bool} {a : BlkAcc} (H : Serves l c g r u) : Serves l c g r (checkOnly l wr u a) := by
  unfold checkOnly
  split
  · exact H
  · exact (serves_of_core (core_beginLookup _ _) H).of_same rfl rfl
theorem serves_startCopy (H : Serves l c g r u) : Serves l c g r (startCopy l u) := by
  unfold startCopy
  split
  · exact H
  · refine serves_ite H ?_
    dsimp only
    split
    · exact serves_cut H
    · refine serves_ite (serves_cut H) (serves_ite H ?_)
      have H1 := serves_modB (f := fun b => { b with started := true, epoch := u.atlas.epoch, doms := copyDoms u b }) (fun _ => ⟨rfl, rfl⟩) H
      exact (serves_foldl (fun _ _ h => serves_checkOnly h) _ _ (serves_foldl (fun _ _ h => serves_checkOnly h) _ _ H1)).of_same rfl rfl
theorem serves_dispatch {k : Nat} (H : Serves l c g r u) : Serves l c g r (dispatch l k u) := by
  unfold dispatch
  split
  · exact H
  · refine serves_ite (serves_startCopy (serves_modB (fun _ => ⟨rfl, rfl⟩) H)) ?_
    extract_lets s1 s2 s3 s4 s5 idx s6
    have H1 : Serves l c g r s1 := serves_ite (serves_crossCut H) H
    have H2 : Serves l c g r s2 := serves_ite (serves_crossCut H1) H1
    have H3 : Serves l c g r s3 := serves_ite (serves_readSide H2) H2
    have H4 : Serves l c g r s4 := serves_ite (serves_readSide H3) H3
    have H5 : Serves l c g r s5 := serves_ite (serves_readSide H4) H4
    have H6 : Serves l c g r s6 := serves_ite (serves_readSide H5) H5
    exact serves_ite (serves_modB (fun _ => ⟨rfl, rfl⟩) H6) H6
theorem serves_formIndexed (H : Serves l c g r u) : Serves l c g r (formIndexed l u) := by
  unfold formIndexed
  split
  · exact H
  · refine serves_ite H ?_
    extract_lets s1 off offs at_ place s2 s3 s4
    have H1 : Serves l c g r s1 := by
      simp only [s1]
      split
      · exact serves_cut H
      · exact H
    have H2 : Serves l c g r s2 := serves_modB (fun _ => ⟨rfl, rfl⟩) H1
    exact serves_ite (serves_modB (fun _ => ⟨rfl, rfl⟩) (serves_crossCut H2)) (serves_readSide (serves_crossCut H2))

/-! ### Its elements, its writes and its result -/

theorem serves_writeAcc {side : Side} {a : BlkAcc} {d : W128} {p : Bool} (H : Serves l c g r u) : Serves l c g r (writeAcc l side a d p u) := by
  unfold writeAcc
  split
  · exact H
  · dsimp only
    split
    · exact serves_cut H
    · exact serves_addCovered (serves_submit H)
theorem serves_flushWrites (n : Nat) : ∀ u, Serves l c g r u → Serves l c g r (flushWrites l n u) := by
  induction n with
  | zero => exact fun u H => H
  | succ n ih =>
    intro u H
    unfold flushWrites
    split
    · exact H
    · split
      · exact H
      · exact serves_ite (ih _ (serves_modB (fun _ => ⟨rfl, rfl⟩) H)) (serves_ite (ih _ (serves_writeAcc (serves_modB (fun _ => ⟨rfl, rfl⟩) H))) H)
theorem judge_same (j : Nat) (e : El) (b : Burst) : SameLeg b (judge j e b) := by
  unfold judge cutAt
  dsimp only
  repeat' split
  all_goals exact ⟨rfl, rfl⟩
theorem foldEl_same (q : CtxRegs) (j : Nat) (e : El) (b : Burst) : SameLeg b (foldEl q j e b) := by
  unfold foldEl cutAt
  dsimp only
  repeat' split
  all_goals exact ⟨rfl, rfl⟩
theorem serves_readHolding {j : Nat} (H : Serves l c g r u) : Serves l c g r (readHolding l j u) := by
  unfold readHolding
  exact serves_ite (serves_of_core (core_uncorrected ..) (serves_modB (fun _ => ⟨rfl, rfl⟩) (serves_setLane rfl H)))
    (serves_ite (serves_of_core (core_corrected ..) (serves_setLane rfl H)) H)
theorem serves_elideStep {j : Nat} {e : El} (H : Serves l c g r u) (ht : elideStep l j b e u = some v) : Serves l c g r v := by
  unfold elideStep at ht
  dsimp only at ht
  split at ht
  · split at ht
    · cases ht; exact serves_cut H
    · split at ht
      · cases ht; exact serves_cut H
      · cases ht
        exact serves_readSide (serves_modB (fun _ => ⟨rfl, rfl⟩) H)
  · have A := serves_modB (f := fun b => { b with elide := .idle, nxt := j + 1, fD := true }) (fun _ => ⟨rfl, rfl⟩) H
    cases hp : sameDest b j e.dst <;> simp only [hp] at ht <;>
    · split at ht
      · cases ht
      · split at ht
        · split at ht
          · cases ht; exact serves_cut H
          · cases ht; exact A
        · cases ht
          exact serves_modB (fun _ => ⟨rfl, rfl⟩) (serves_foldl (fun _ _ h => serves_writeAcc h) _ _ H)
  · split at ht
    · cases ht
    · cases ht
      refine serves_modB (fun _ => ⟨rfl, rfl⟩) (serves_foldl (fun _ _ h => ?_) _ _ H)
      split
      · exact serves_ite (serves_writeAcc h) h
      · exact h
theorem serves_elementStep (H : Serves l c g r u) (ht : elementStep l u = some v) : Serves l c g r v := by
  unfold elementStep at ht
  split at ht
  · cases ht
  · rename_i b0 _ _
    dsimp only at ht
    have H1 : Serves l c g r (if usesSrc b0.leg then readHolding l b0.nxt u else u) := serves_ite (serves_readHolding H) H
    generalize (if usesSrc b0.leg then readHolding l b0.nxt u else u) = w at H1 ht
    split at ht
    · cases ht
    · split at ht
      · split at ht
        · cases ht
        · cases ht; exact serves_modB (judge_same _ _) H1
      · cases ht; exact serves_modB (judge_same _ _) H1
      · cases ht; exact serves_modB (foldEl_same _ _ _) H1
      · split at ht
        · exact serves_elideStep H1 ht
        · split at ht
          · cases ht; exact serves_cut H1
          · cases ht; exact serves_modB (fun _ => ⟨rfl, rfl⟩) H1
theorem serves_elementLoop (n : Nat) : ∀ u, Serves l c g r u → Serves l c g r (elementLoop l n u) := by
  induction n with
  | zero => exact fun u H => H
  | succ n ih =>
    intro u H
    unfold elementLoop
    split
    · next ht => exact ih _ (serves_elementStep H ht)
    · exact H
theorem serves_resultWrite (H : Serves l c g r u) : Serves l c g r (resultWrite l u) := by
  unfold resultWrite
  split
  · exact H
  · have H1 := serves_modB (f := fun b => { b with resDone := true }) (fun _ => ⟨rfl, rfl⟩) H
    refine serves_ite H (serves_ite H1 (serves_ite (serves_modB (fun _ => ⟨rfl, rfl⟩) H1) ?_))
    refine serves_foldl (fun v a h => ?_) _ _ (serves_modB (fun _ => ⟨rfl, rfl⟩) H1)
    dsimp only
    split
    · exact serves_modB (fun _ => ⟨rfl, rfl⟩) h
    · exact serves_addCovered (serves_submit h)
theorem serves_advance (H : Serves l c g r u) : Serves l c g r (advance l u) := by
  unfold advance
  split
  · exact H
  · exact serves_resultWrite (serves_flushWrites _ _ (serves_elementLoop _ _ (serves_formIndexed H)))

end Sys2Proof.Laws
end

section
/-! PROOFS. Lanes run bursts: the grant and the return (R13, R207). -/

namespace Sys2Proof.Laws
open Sys2Proof.Machine

variable {s u v : State} {l c n : Nat} {b : Burst}

/-! ### The grant (R207) -/

/-- A channel's work as its next burst stands on lane l, from ECLK t on. -/
def onLane (l t : Nat) (w : Work) : Work := { w with phase := .burst l, reqHeld := false, usedAt := t, burstNo := w.burstNo + 1 }
/-- The state in which lane l has been given to channel c, before its accesses are formed. -/
def granted (l c : Nat) (s : State) : State :=
  { modW c (onLane l s.eclk) (setLane l { lane s l with burst := some (newBurst s c) } s) with
    rr := tset 0 s.rr (legClass s c) ((c + 1) % 1024) }
theorem granted_ctx (l c : Nat) (s : State) : ctx (granted l c s) c = { ctx s c with w := onLane l s.eclk (ctx s c).w } :=
  ctx_modW_self (setLane l { lane s l with burst := some (newBurst s c) } s) c (onLane l s.eclk)
theorem grant_eq (h : nextGrant s = some (l, c)) : grant s = markTags (advance l (dispatch l c (granted l c s))) := by
  unfold grant
  rw [h]
  rfl
theorem granted_serves (l c : Nat) (s : State) : Serves l c (ctx s c).r.leg (ctx s c).r (granted l c s) := by
  refine ⟨⟨newBurst s c, ?_, rfl, rfl⟩, ?_, ?_⟩
  · show (lane (setLane l { lane s l with burst := some (newBurst s c) } s) l).burst = _
    rw [lane_setLane_self]
  · rw [granted_ctx]
  · rw [granted_ctx]
    rfl
theorem grant_serves (h : nextGrant s = some (l, c)) : Serves l c (ctx s c).r.leg (ctx s c).r (grant s) := by
  rw [grant_eq h]
  exact (serves_advance (serves_dispatch (granted_serves l c s))).of_same rfl rfl
/-- Every area but that of the round-robin pointers. -/
def offRr : Set Area := fun p => p ≠ .rr
theorem grant_rr (h : nextGrant s = some (l, c)) : (grant s).rr = tset 0 s.rr (legClass s c) ((c + 1) % 1024) := by
  have hL : LaneIn l c offRr := ⟨⟨⟨nofun, nofun⟩, nofun⟩, ⟨⟨nofun, nofun⟩, nofun⟩, ⟨nofun, nofun⟩, nofun⟩
  have hO : On l c offRr (granted l c s) (granted l c s) := ⟨only_refl, fun b hb => by
    obtain ⟨⟨x, h1, h2, -⟩, -, -⟩ := granted_serves l c s
    rw [h1] at hb
    cases hb
    exact h2⟩
  have H : Only offRr (granted l c s) (advance l (dispatch l c (granted l c s))) := (on_advance hL (on_dispatch hL nofun hO)).only
  rw [grant_eq h]
  exact H .rr (fun g => g rfl)

end Sys2Proof.Laws
end

section
/-! PROOFS. The return of a burst (R13, R85, R153, R264). -/

namespace Sys2Proof.Laws
open Sys2Proof.Machine

variable {s u v : State} {l c n f : Nat} {y : W64} {b : Burst}

/-- Lane l is free from ECLK f on, and channel c stands at element n with y bytes moved. -/
structure Returned (l c n : Nat) (y : W64) (f : Nat) (u : State) : Prop where
  free : burstOn u l = none
  freeAt : (lane u l).freeAt = f
  count : (ctx u c).r.ecount = n
  bytes : (ctx u c).r.bytes = y

/-! ### What leaves the lane free and the channel where it stands -/

theorem Returned.of_eq (H : Returned l c n y f u) (hc : ctx v c = ctx u c) (hl : lane v l = lane u l) : Returned l c n y f v := by
  obtain ⟨h1, h2, h3, h4⟩ := H
  unfold burstOn at h1
  rw [← hl] at h1 h2
  rw [← hc] at h3 h4
  exact ⟨h1, h2, h3, h4⟩
theorem returned_of_only {S : Set Area} (h : Only S u v) (hl : .lane l ∉ S) (hc : .ctx c ∉ S) (H : Returned l c n y f u) : Returned l c n y f v :=
  H.of_eq (h _ hc) (h _ hl)
theorem returned_of_core (h : core v = core u) (H : Returned l c n y f u) : Returned l c n y f v :=
  H.of_eq (ctx_of_core h c) (congrArg (fun x : State => lane x l) h :)
theorem returned_setCtx {d : Nat} {x : Ctx} (he : x.r.ecount = (ctx u d).r.ecount) (hb : x.r.bytes = (ctx u d).r.bytes) (H : Returned l c n y f u) :
    Returned l c n y f (setCtx u d x) := by
  obtain ⟨h1, h2, h3, h4⟩ := H
  by_cases e : c = d
  · subst e
    exact ⟨h1, h2, by rw [ctx_setCtx_self]; exact he.trans h3, by rw [ctx_setCtx_self]; exact hb.trans h4⟩
  · exact ⟨h1, h2, by rwa [ctx_setCtx_ne _ _ e], by rwa [ctx_setCtx_ne _ _ e]⟩
theorem returned_modW {d : Nat} {g : Work → Work} (H : Returned l c n y f u) : Returned l c n y f (modW d g u) := returned_setCtx rfl rfl H
theorem returned_modR {d : Nat} {g : CtxRegs → CtxRegs} (he : ∀ r, (g r).ecount = r.ecount) (hb : ∀ r, (g r).bytes = r.bytes) (H : Returned l c n y f u) :
    Returned l c n y f (modR d g u) := returned_setCtx (he _) (hb _) H
theorem returned_ite {p : Prop} [Decidable p] (hu : Returned l c n y f u) (hv : Returned l c n y f v) : Returned l c n y f (if p then u else v) := by
  split
  · exact hu
  · exact hv
theorem returned_setLane {k : Nat} {x : LaneSt} (hk : l ≠ k) (H : Returned l c n y f u) : Returned l c n y f (setLane k x u) :=
  H.of_eq rfl (tget_tset_ne _ _ _ hk)
theorem returned_orphanReads {p : Owner → Bool} (H : Returned l c n y f u) : Returned l c n y f (orphanReads p u) := H.of_eq rfl rfl
theorem returned_leaveFetch {d : Nat} (H : Returned l c n y f u) : Returned l c n y f (leaveFetch d u) := H.of_eq rfl rfl
theorem returned_abortBurst {d : Nat} (H : Returned l c n y f u) : Returned l c n y f (abortBurst d u) := by
  unfold abortBurst
  split
  · exact H
  · next k _ =>
    split
    · exact H
    · next b hb =>
      have hk : l ≠ k := fun e => by
        subst e
        exact nomatch H.free.symm.trans hb
      exact returned_orphanReads (returned_setLane hk H)
theorem returned_raiseFault {d code : Nat} {a : GAddr} {late : Bool} (H : Returned l c n y f u) : Returned l c n y f (raiseFault d code a late u) := by
  unfold raiseFault
  exact returned_ite H (returned_leaveFetch (returned_orphanReads (returned_abortBurst (returned_setCtx rfl rfl H))))
theorem returned_enterWait {d : Nat} {w : WaitReason} {x : WaitDesc} (H : Returned l c n y f u) : Returned l c n y f (enterWait d w x u) :=
  returned_setCtx rfl rfl H
theorem returned_goHeld {d m : Nat} {a : GAddr} (H : Returned l c n y f u) : Returned l c n y f (goHeld d m a u) := by
  unfold goHeld
  refine returned_ite ?_ H
  extract_lets r1 w1 s1
  have H1 : Returned l c n y f s1 := returned_setCtx rfl rfl H
  exact returned_ite (H1.of_eq rfl rfl) H1
theorem returned_consume {d k : Nat} (H : Returned l c n y f u) : Returned l c n y f (consume d k u) :=
  returned_ite (returned_modW H) (returned_modR (fun _ => rfl) (fun _ => rfl) H)
theorem returned_toBoundary {d : Nat} (H : Returned l c n y f u) : Returned l c n y f (toBoundary d u) := by
  have H1 : Returned l c n y f (modW d (fun w => { w with phase := .data }) u) := returned_modW H
  unfold toBoundary
  exact returned_ite H1 (returned_ite (returned_enterWait H1) (returned_ite (returned_enterWait H1)
    (returned_ite (returned_ite H1 (returned_ite (returned_modW (returned_consume H1)) (returned_enterWait H1))) H1)))

/-! ### The way on -/

theorem returned_fireEvo {m : Nat} (H : Returned l c n y f u) : Returned l c n y f (fireEvo m u) := by
  have H1 : Returned l c n y f (setEvo m (evoFired u.eclk (evo u m)) u) := H.of_eq rfl rfl
  have H2 : Returned l c n y f (markSet (w1cKey (0x2000 + 4 * m) 9) (setEvo m (evoFired u.eclk (evo u m)) u)) := returned_of_core (core_markSet ..) H1
  exact returned_ite H (returned_ite H2 H1)
theorem returned_legEvent {d t : Nat} (H : Returned l c n y f u) : Returned l c n y f (legEvent d t u) := by
  unfold legEvent
  have H1 : Returned l c n y f (if evoeOf (ctx u d).r.leg then fireEvo (evoOf (ctx u d).r.leg) u else u) := returned_ite (returned_fireEvo H) H
  exact returned_ite (returned_of_core (core_offer ..) H1) H1
theorem returned_halfEvent {d k : Nat} (H : Returned l c n y f u) : Returned l c n y f (halfEvent d k u) :=
  returned_ite (returned_modW (returned_legEvent H)) H
theorem returned_demand {d : Nat} {a : W32} (H : Returned l c n y f u) : Returned l c n y f (demand d a u) :=
  returned_of_only (S := prefetchAreas) (demand_only ⟨.inl rfl, .inr (.inl rfl)⟩ (.inr (.inr rfl)) only_refl) (by rintro (h | h | h) <;> cases h)
    (by rintro (h | h | h) <;> cases h) H
theorem returned_flashHold {d : Nat} {a : W32} (H : Returned l c n y f u) : Returned l c n y f (flashHold d a u) := by
  unfold flashHold
  split
  · exact returned_ite (returned_modW (returned_enterWait H)) H
  · exact H
theorem returned_fetchPort {d : Nat} (H : Returned l c n y f u) : Returned l c n y f (fetchPort d u) := by
  unfold fetchPort
  dsimp only
  split
  · exact returned_goHeld H
  · exact returned_flashHold (returned_demand H)
theorem returned_readLine {e : CLine} (H : Returned l c n y f u) : Returned l c n y f (readLine e u) := by
  unfold readLine
  exact returned_ite (returned_of_core (core_uncorrected ..) (H.of_eq rfl rfl)) (returned_ite (returned_of_core (core_corrected ..) (H.of_eq rfl rfl)) H)
theorem returned_startFetch {d : Nat} (H : Returned l c n y f u) : Returned l c n y f (startFetch d u) := by
  have H1 : Returned l c n y f (modW d (fun w => { w with phase := .fetch }) u) := returned_modW H
  unfold startFetch
  generalize modW d (fun w => { w with phase := .fetch }) u = t at H1
  dsimp only
  refine returned_ite H1 ?_
  split
  · next e _ =>
    have H2 : Returned l c n y f (touchLine (lineOf (ctx t d).r.pc) (legColour t d) (readLine e t)) := (returned_readLine H1).of_eq rfl rfl
    exact returned_ite (returned_fetchPort H2) (returned_setCtx rfl rfl H2)
  · exact returned_fetchPort H1
theorem returned_goto {d : Nat} {p : W32} (H : Returned l c n y f u) : Returned l c n y f (goto d p u) := by
  have H1 : Returned l c n y f (modR d (fun r => { r with pc := p }) u) := returned_modR (fun _ => rfl) (fun _ => rfl) H
  unfold goto
  exact returned_ite (returned_modW H1) (returned_startFetch H1)
theorem returned_finishTo {d : Nat} {p : Option W32} (H : Returned l c n y f u) : Returned l c n y f (finishTo d p u) := by
  have H1 : Returned l c n y f (modW d (fun w => { w with legNo := w.legNo + 1, progressed := true, legAt := none, acting := false }) u) := returned_modW H
  unfold finishTo
  generalize modW d (fun w => { w with legNo := w.legNo + 1, progressed := true, legAt := none, acting := false }) u = t at H1
  dsimp only
  refine returned_ite (returned_modW H1) ?_
  split
  · exact returned_goto H1
  · exact returned_ite (returned_goto H1) (returned_ite (returned_raiseFault H1) (returned_goto H1))
theorem returned_finish {d : Nat} (H : Returned l c n y f u) : Returned l c n y f (finish d u) := returned_ite (returned_modW H) (returned_finishTo H)
theorem returned_completeData {d : Nat} (H : Returned l c n y f u) : Returned l c n y f (completeData d u) :=
  returned_ite (returned_finishTo H) (returned_finish (returned_ite (returned_legEvent H) H))
theorem returned_dataDone {d : Nat} (H : Returned l c n y f u) : Returned l c n y f (dataDone d u) :=
  returned_ite (returned_finishTo H) (returned_ite (returned_modW (returned_enterWait H)) (returned_completeData H))

/-! ### The burst's status, and the whole return -/

/-- What of the channel's registers the leg's results leave: the element count, and the bytes moved. -/
structure SameCounts (x y : CtxRegs) : Prop where
  count : y.ecount = x.ecount
  bytes : y.bytes = x.bytes
theorem sameCounts_put {p : Prop} [Decidable p] {r q : CtxRegs} (k : Nat) (x : W64) (h : SameCounts r q) : SameCounts r (if p then setV k x q else q) := by
  split
  · exact ⟨h.count, h.bytes⟩
  · exact h
theorem cmpRegs_counts (g : Leg) (o : Option Nat) (k : Nat) (w : W64) (r : CtxRegs) : SameCounts r (cmpRegs g o k w r) :=
  sameCounts_put _ _ (sameCounts_put _ _ (sameCounts_put _ _ ⟨rfl, rfl⟩))
theorem legResults_counts (w : Work) (r : CtxRegs) : SameCounts r (legResults w r) := by
  have K := fun o k x (q : CtxRegs) (h : SameCounts r q) => (⟨(cmpRegs_counts r.leg o k x q).count.trans h.count, (cmpRegs_counts r.leg o k x q).bytes.trans h.bytes⟩ : SameCounts r _)
  unfold legResults
  dsimp only
  split
  · exact K _ _ _ _ ⟨rfl, rfl⟩
  · exact K _ _ _ _ ⟨rfl, rfl⟩
  · exact ⟨rfl, rfl⟩
  · split <;> split <;> exact ⟨rfl, rfl⟩
  · exact ⟨rfl, rfl⟩
theorem returned_legEnds {d : Nat} (H : Returned l c n y f u) : Returned l c n y f (legEnds d u) :=
  returned_dataDone (returned_modR (fun r => (legResults_counts _ r).count) (fun r => (legResults_counts _ r).bytes) H)
theorem returned_burstStatus {d : Nat} (H : Returned l c n y f u) : Returned l c n y f (burstStatus d b u) := by
  have I : Returned l c n y f (modW d (fun w => { w with phase := .idle }) u) := returned_modW H
  unfold burstStatus
  dsimp only
  split
  · exact I
  · exact returned_raiseFault H
  · exact returned_ite I (returned_goHeld (returned_modW H))
  · exact returned_ite I (returned_toBoundary (returned_modW H))
  · exact returned_ite I (returned_ite (returned_enterWait (returned_modW H)) (returned_enterWait (returned_modW H)))
  · exact returned_legEnds H
  · exact returned_ite (returned_legEnds H) (returned_ite I (returned_toBoundary H))
theorem returned_noteQuiet {d : Nat} (H : Returned l c n y f u) : Returned l c n y f (noteQuiet d u) := by
  unfold noteQuiet
  dsimp only
  split
  · exact returned_ite (returned_modW H) H
  · exact H
theorem burstRegs_counts (b : Burst) (r : CtxRegs) : (burstRegs b r).ecount = b.base + b.limit ∧ (burstRegs b r).bytes = r.bytes := by
  unfold burstRegs
  dsimp only
  split <;> exact ⟨rfl, rfl⟩
theorem returned_freed (l c t : Nat) (u : State) : Returned l c (ctx u c).r.ecount (ctx u c).r.bytes t (setLane l { lane u l with burst := none, freeAt := t } u) := by
  refine ⟨?_, ?_, rfl, rfl⟩
  · unfold burstOn
    rw [lane_setLane_self]
  · rw [lane_setLane_self]
theorem returned_burstRegs (b : Burst) (H : Returned l c n y f u) : Returned l c (b.base + b.limit) y f (modR c (burstRegs b) u) := by
  obtain ⟨h1, h2, -, h4⟩ := H
  obtain ⟨k1, k2⟩ := burstRegs_counts b (ctx u c).r
  exact ⟨h1, h2, by rw [ctx_modR_self]; exact k1, by rw [ctx_modR_self]; exact k2.trans h4⟩
theorem returned_addEnergy (e m : Nat) (H : Returned l c n y f u) : Returned l c n (y + BitVec.ofNat 64 m) f (addEnergy c e m u) := by
  obtain ⟨h1, h2, h3, h4⟩ := H
  have hr := (addEnergy_ctx c e m u).1
  exact ⟨h1, h2, by rw [hr]; exact h3, by rw [hr]; exact congrArg (· + BitVec.ofNat 64 m) h4⟩
theorem applyReturn_returned (l : Nat) (b : Burst) (s : State) :
    Returned l b.ch (b.base + b.limit) ((ctx s b.ch).r.bytes + BitVec.ofNat 64 b.moved) (s.eclk + 1) (applyReturn l b s) := by
  unfold applyReturn
  extract_lets c s0 w s1 s2 s3 x s4
  have H0 : Returned l c (ctx s c).r.ecount (ctx s c).r.bytes (s.eclk + 1) s1 := returned_modW (returned_freed l c (s.eclk + 1) s0)
  clear_value s1
  have H2 : Returned l c (b.base + b.limit) (ctx s c).r.bytes (s.eclk + 1) s2 := returned_modW (returned_burstRegs b H0)
  clear_value s2
  have H3 : Returned l c (b.base + b.limit) ((ctx s c).r.bytes + BitVec.ofNat 64 b.moved) (s.eclk + 1) s3 := returned_modW (returned_addEnergy _ _ H2)
  clear_value s3
  refine returned_noteQuiet (returned_modW ?_)
  unfold s4
  refine returned_ite ?_ (returned_burstStatus (returned_ite H3 (returned_halfEvent H3)))
  split
  · exact returned_modW (returned_raiseFault H3)
  · exact returned_modW H3

/-- Settles O13: the grant to the first candidate, and the return as its burst's status has it. -/
theorem lanesRunBursts : Obligations.LanesRunBursts := by
  unfold Obligations.LanesRunBursts
  refine ⟨fun s l c hr hh hn => ?grant, fun s l b hb hd => ?ret⟩
  case grant =>
    have e : exec .burstGrant s = .next (grant s) := if_pos (by rw [hr, hh]; rfl)
    obtain ⟨hburst, hregs, hphase⟩ := grant_serves hn
    refine ⟨_, e, hburst, hregs, hphase, ?_, fun k hk => ?_⟩
    · rw [grant_rr hn]
      exact tget_tset_self ..
    · rw [grant_rr hn]
      exact tget_tset_ne _ _ _ hk
  case ret =>
    have e : exec (.burstReturn l) s = .next (applyReturn l b s) := by
      show execBurstReturn l s = _
      unfold execBurstReturn
      rw [hb]
      exact if_pos hd
    obtain ⟨hfree, hat, hcount, hbytes⟩ := applyReturn_returned l b s
    exact ⟨_, e, hfree, hat, hcount, hbytes⟩

end Sys2Proof.Laws
end
